-- ==== Sys2Proof/Word.lean ====
section
/-! DEFINITION. Sys2Proof/Word.lean: bytes and words (00_scope.md, Numbers, units and layouts). -/

namespace Sys2Proof

/-- One byte of a structure, a frame or memory. -/
abbrev Byte := BitVec 8

/-- One 64-bit register, count or address as the spec lays it out. -/
abbrev Word := BitVec 64

/-- A list of bytes, byte 0 first (R4: byte 0 lies at the lowest address). -/
abbrev Bytes := List Byte

end Sys2Proof
end

