-- ==== Sys2Proof/Syntax.lean ====
section
/-! DEFINITION. Sys2Proof/Syntax.lean: the commands of the block, one constructor of Instr for each row of
spec/opcode_table.json, and the operands they carry. The table gives its rows no fields; each operand is what the
row's rule has the step take in from outside (DESIGN CHOICE, log entry 1). -/

namespace Sys2Proof

/-- Host memory as one command finds it: runs of bytes at host physical addresses. A byte in no run is a read that
returns poison or a completion error, or times out (R436). -/
structure HostView where
  runs : List (Nat × Bytes)
  deriving DecidableEq, Repr

/-- One of the two MCTP bindings of Table 18-1. -/
inductive Binding | smbus | pcieVdm
  deriving DecidableEq, Repr

/-- Where a mailbox command comes from (R502): the MGT block, whose registers hold tag and payload, or an MCTP
message with its own (R496). -/
inductive MboxSource
  | bar0
  | mctp (b : Binding) (rsvd tag : Nat) (payload : Bytes)
  deriving DecidableEq, Repr

/-- A task: the journal number of its RUN order and its index in the task list (R124). -/
structure TaskRef where
  jno : Nat
  idx : Nat
  deriving DecidableEq, Repr

/-- The end of a task's own operation, and that its writes to T3 are complete with no failure (R136, R443). -/
structure TaskDone where
  ref   : TaskRef
  farOk : Bool
  deriving DecidableEq, Repr

/-- What starts a task (R248, R252): array A or B or the vector unit of a CU, or a die's or the hub's engine. -/
inductive ExecUnit | arrayA | arrayB | vector | reed | shuttle | update | fill
  deriving DecidableEq, Repr

/-- What the sensor hub reads (R518): raw values of sensors 1 to 23 of Table 18-9 in its units, and the averages over
the preceding 4 ms that R514 uses, in watts. -/
structure Readings where
  vals   : List Nat
  pIn4   : Nat
  dieP4  : Nat
  epochs : Nat := 0
  deriving DecidableEq, Repr

/-- An entry of the twin's object table (Table 11-6, Table 13-5): the stack of each block's home, none in T3, and whether
R323 fills it. -/
structure TwinObj where
  index    : Nat
  id       : Nat
  ctx      : Nat
  cls      : Nat
  single   : Bool
  format   : Nat
  coding   : Nat
  size     : Nat
  rows     : Nat
  cols     : Nat
  stride   : Nat
  lifetime : Nat
  affinity : Nat
  farOk    : Bool
  pattern  : Nat
  fill     : Bool
  harness  : Nat
  created  : Nat
  version  : Nat
  inUpdate : Bool
  homes    : List (Option Nat)
  deriving DecidableEq, Repr

/-- An entry of the twin's context table; `fault` is the code of one in FAULTED. -/
structure TwinCtx where
  index   : Nat
  inc     : Nat
  client  : Nat
  slot    : Nat
  cls     : Nat
  harness : Nat
  fault   : Option Nat
  deriving DecidableEq, Repr

/-- A ring's configuration on the twin, with its TAKEN, H and window as (SEQ, journal number, published status and result). -/
structure TwinRing where
  ring    : Nat
  base    : Nat
  records : Nat
  client  : Nat
  sizeLog2 : Nat
  taken   : Nat
  h       : Option Nat
  window  : List (Nat × Nat × Option (Nat × Nat))
  deriving DecidableEq, Repr

/-- A key-value pool that passes with its context (R403): its parameters, row states, the sequences as (tokens, shared, state, changed,
pending, entries) and the tree's entries as (hash, row, parent, depth, children, last use). -/
structure TwinPool where
  params : List Nat
  rowSt  : List (Nat × Nat)
  seqs   : List (Nat × Nat × Nat × Nat × Nat × List Nat)
  ents   : List (List Nat)
  deriving DecidableEq, Repr

/-- A block as a copy carries it (R358): its address, its bytes, and the syndromes of its sectors that fail their check, by sector of the
block. -/
structure CopiedBlock where
  addr : Nat
  data : Bytes
  bad  : List (Nat × Nat)
  deriving DecidableEq, Repr

/-- What each beat's journal exchange brings of the twin (Table 13-5): object and context tables, rings, group epochs, the
orders whose held items it released (R387), and of its draft the slots with their CU counts and the quotas of its harnesses (R321, R391);
`pools` those of contexts that pass with the address (R403). -/
structure TwinTables where
  objs     : List TwinObj
  ctxs     : List TwinCtx
  rings    : List TwinRing
  groups   : List (Nat × Nat)
  released : List Nat
  slots    : List (Nat × Nat)
  quotas   : List (Nat × Nat)
  pools    : List TwinPool
  deriving DecidableEq, Repr

/-- What crosses from the twin at the decision point: its armed TWIN section and named beat (R90), whether it too meets the
entry conditions of SYNC (R383), its tables (R384), whether its DETACH applies at this beat (R404), and, at a handback beat,
what the absorbing module passes (R403): tables and blocks. -/
structure DecisionInputs where
  twinArmed  : Option (Nat × Bytes)
  twinReady  : Bool
  tables     : Option TwinTables
  detach     : Bool
  passed     : Option (TwinTables × List CopiedBlock)
  deriving DecidableEq, Repr

/-- An instance count of a group on a channel, for a peer rank (R288). -/
structure InstCount where
  group : Nat
  ch    : Nat
  peer  : Nat
  count : Nat
  deriving DecidableEq, Repr

/-- A completion notice (Table 13-5): its order, SEQ, ring, status and result, the instance counts it carries, how many held items
the order has, and the versions that its update rounds leave, by object index. -/
structure Notice where
  jno    : Nat
  seq    : Nat
  ring   : Nat
  status : Nat
  result : Nat
  counts : List InstCount
  items  : Nat
  versions : List (Nat × Nat)
  deriving DecidableEq, Repr

/-- What comes of completion notices: that the twin has stored one of this module's, some of an order's held items (R389), or forwarded
data (R390); that the twin's queue of held items of a die has no room left (R386); or a notice of the twin's. -/
inductive NoticeEvent
  | stored (jno : Nat)
  | itemsStored (jno n : Nat)
  | forwardStored (addr : Nat)
  | queueFull (die : Nat)
  | twins (n : Notice)
  deriving DecidableEq, Repr

/-- What the read of a sector meets (R356): the flipped bits of its codeword, 512 of data, 32 of the check word and 64 of the
tag-and-address word from bit 0 up, and the corrections of the stack's on-die ECC (R354). Of a device-reserve sector, that its other copy
fails too, and the twin's copy (R366). -/
structure ReadErr where
  flips    : BitVec 608 := 0
  onDie    : Nat := 0
  otherBad : Bool := false
  twinBad  : Bool := false
  deriving DecidableEq, Repr

/-- A frame on a port: its bytes as the FEC leaves them, and the codewords that it corrected (R374). -/
structure PortFrame where
  bytes : Bytes
  fixed : Nat
  deriving DecidableEq, Repr

/-- A collective header and the address that its frame came from (Table 10-4, R295). -/
structure HeaderFrame where
  src   : Nat
  bytes : Bytes
  deriving DecidableEq, Repr

/-- What a comparison of mirror digests tells beside the digest itself (R394, R395): the digests of single objects of the twin's mirror and
of its own set, and that the twin's mirror had a failing check since. -/
structure ObjDigests where
  mirror   : List (Nat × Word)
  own      : List (Nat × Word)
  detected : Bool
  deriving DecidableEq, Repr

/-- Which bytes of a line a host write holds, and what the read of the sector meets that a partial one takes (R439, R365). -/
structure WriteMask where
  bits : List Bool
  err  : ReadErr
  deriving DecidableEq, Repr

/-- Who reads a sector (R361). -/
inductive Reader
  | task (t : TaskRef)
  | engine (t : TaskRef)
  | host
  deriving DecidableEq, Repr

/-- A location protected by CRC-16 (R360). -/
inductive OnchipLoc
  | sram (cu off : Nat)
  | acc (cu bank off : Nat)
  | t1 (region addr : Nat)
  deriving DecidableEq, Repr

/-- IEEE rounding directions the kernel selects (R172). -/
inductive RoundDir | nearestEven | towardZero | up | down
  deriving DecidableEq, Repr

/-- What a stochastic rounding of a kernel is keyed by (R276): seed, step, layer, stream and the first element's
position. -/
structure RandKey where
  seed   : Nat
  step   : Nat
  layer  : Nat
  stream : Nat
  pos    : Nat
  deriving DecidableEq, Repr

/-- Vector operations of Table 6-1. -/
inductive VecOp
  | add | sub | mul | fma | neg | abs | div | sqrt
  | min | max | cmpLt | cmpLe | cmpEq | cmpUn | select | classify
  | toBf16 | toFp16 | toE4m3 | toE5m2 | toInt32 | ofBf16 | ofFp16 | ofE4m3 | ofE5m2 | ofInt32
  | iadd | isub | ishl | ishrl | ishra | iand | ior | ixor
  | readFlags | clearFlags | readRowML
  deriving DecidableEq, Repr

/-- What `ROWSTAT` is asked for: the statistics of a row, shifted by its first element or by +0 (R182); the moments of one chunk of a
longer row by the shift that the kernel passes; or the statistics that the chunks' moments make (R185). -/
inductive StatForm
  | row (shiftZero : Bool)
  | chunk (shift : BitVec 32)
  | join (shift : BitVec 32)
  deriving DecidableEq, Repr

/-- Row reductions of Table 6-1. -/
inductive RowOp | sum | sumProd | max | min
  deriving DecidableEq, Repr

/-- A row reduction with its rounding direction (R172). -/
structure RowForm where
  op  : RowOp
  dir : RoundDir
  deriving DecidableEq, Repr

/-- The instance that a count or an abort notice names (R298, R306; log entry 158). -/
structure InstName where
  group : Nat
  inst  : Nat
  deriving DecidableEq, Repr

/-- The second group of a mismatch notice, with the rank whose header differed (R296; log entry 158). -/
structure Differing where
  group  : Nat
  sender : Nat
  deriving DecidableEq, Repr

/-- Intent of a quiesce notice (R396). -/
inductive Intent | warm | lost
  deriving DecidableEq, Repr

/-- The host-link resets of R431. -/
inductive HostReset | perst | hotReset | linkDisable | secondaryBus | flr | cxlReset
  deriving DecidableEq, Repr

/-- A marker as a listening module takes it (R481): port, beat, depth, leader's packed address, announced period and
window, and the address of the module it was sent to judge ranks by. -/
structure JoinMarker where
  port     : Nat
  beat     : Nat
  depth    : Nat
  leader   : Nat
  period10 : Nat
  windowUs : Nat
  deriving DecidableEq, Repr

/-- What a checker answers to a self-test pattern (R375). -/
inductive CheckOut | pass | detect | poison
  deriving DecidableEq, Repr

/-- What the steps of a cold start find (Table 17-5). `answers` are answers of the 40 checkers to patterns of Table 12-5, as (checker,
pattern, answer); those not listed are as expected. `none` in a failing column means that nothing failed; `twinHolds` is
that the twin answers and holds this module's address, `lasers` which cartridges are inserted. -/
structure ColdObs where
  railsOk     : Bool
  straps      : Nat
  flashOk     : Bool
  pufOk       : Bool
  hbmFail     : Option Nat
  bistFail    : Option Nat
  answers     : List (Nat × Nat × CheckOut)
  portsUp     : List Nat
  lambdas     : List Nat
  cxl         : Option (Nat × Nat)
  twinHolds   : Bool
  lasers      : List Bool
  ideUp       : Bool
  marker      : Option JoinMarker
  deriving DecidableEq, Repr

/-- What a warm start finds (Table 17-6, R486). -/
structure WarmObs where
  inTime      : Bool
  trainingOk  : Bool
  reserveOk   : Bool
  faultFree   : Bool
  holdsTwin   : Bool
  twinAnswers : Bool
  marker      : Option JoinMarker
  deriving DecidableEq, Repr

/-- A held item of the twin (R386): an update task's descriptor with its NORM value, its die and its declared length, or a block of a
PERSIST object; and a block of a copy (R382). -/
inductive HeldItem
  | replay (jno : Nat) (desc : Bytes) (norm : Nat) (die length : Nat)
  | block (jno : Nat) (b : CopiedBlock)
  | copy (b : CopiedBlock)
  deriving DecidableEq, Repr

/-- The long flash writes of R506 and R482; a set that PLDM brought comes with its bytes. -/
inductive FlashJob
  | imageSet
  | imageCopy
  | pldmSet (data : Bytes)
  | bootDraft
  | setting
  | recoveryImage
  deriving DecidableEq, Repr

/-- JTAG instructions (R510): the two that always answer, the boundary-scan ones and the internal ones. -/
inductive JtagInstr | idcode | bypass | boundary | internalScan | coreDebug
  deriving DecidableEq, Repr

/-- A hello frame is taken as its 64 bytes (Table 13-3). -/
abbrev HelloFrame := Bytes

/-- The commands. -/
inductive Instr
  -- beat window (Table 2-3)
  | beatWindowOpen (r : Readings)
  | ringSample (host : HostView)
  | decisionPoint (d : DecisionInputs)
  | placementDecide
  | sealDeadline (confirmed : List (Nat × Nat))
  | configApply
  | clockLatch
  | commitStep
  | pickBegin
  -- registers
  | registerWrite (off size : Nat) (v : Word)
  | bar0BadAccess (write : Bool) (off size : Nat)
  | stage
  | draftLoadDone (host : HostView)
  | draftCheckDone
  | arm
  | disarm
  | discard
  | ringEnable (ring : Nat)
  | ringDisable (ring : Nat)
  | pair
  | absorb
  | handback
  | detach
  | compare
  | drain
  | drainDone
  | retrain (port : Nat)
  | disable (port : Nat)
  | enable (port : Nat)
  -- mailbox (Table 18-4)
  | getInfo (src : MboxSource)
  | getBootRecord (src : MboxSource)
  | readSensors (src : MboxSource)
  | readSetting (src : MboxSource)
  | reset (src : MboxSource)
  | powerState (src : MboxSource)
  | powerLimit (src : MboxSource)
  | clockCap (src : MboxSource)
  | scrubRate (src : MboxSource)
  | laserRemove (src : MboxSource)
  | bootDraft (src : MboxSource) (host : HostView)
  | settingWrite (src : MboxSource)
  | imageData (src : MboxSource)
  | imageVerify (src : MboxSource)
  | imageActivate (src : MboxSource)
  | fwCommit (src : MboxSource)
  | debugChallenge (src : MboxSource)
  | debugUnlock (src : MboxSource)
  -- orders (Tables 4-3, 8-1, 11-5); the operand is the order's JOURNAL_NO
  | nop (jno : Nat)
  | ctxCreate (jno : Nat)
  | ctxDestroy (jno : Nat)
  | ctxReset (jno : Nat)
  | run (jno : Nat)
  | objCreate (jno : Nat)
  | objDestroy (jno : Nat)
  | objHint (jno : Nat)
  | objLoad (jno : Nat)
  | objStore (jno : Nat)
  | kvPoolCreate (jno : Nat)
  | kvPoolDestroy (jno : Nat)
  | kvJoin (jno : Nat)
  | kvFork (jno : Nat)
  | kvGrow (jno : Nat)
  | kvLeave (jno : Nat)
  | kvPublish (jno : Nat)
  | kvAdmitStarved (jno : Nat)
  | kvExhausted (jno : Nat)
  -- tasks and memory
  | taskStart (cu : Nat) (u : ExecUnit) (cycle : Nat)
  | taskEnd (t : TaskDone)
  | dependencyMet (t : TaskRef) (k : Nat)
  | taskOverrun (t : TaskRef)
  | memoryWrite (t : TaskRef) (addr : Nat) (data : Bytes)
  | sectorRead (rd : Reader) (addr : Nat) (err : ReadErr)
  | twinFetchRequest (addr : Nat)
  | twinFetchReturn (addr : Nat) (data : Option Bytes)
  | scrubRead (die : Nat) (err : ReadErr)
  | onchipCrcFail (loc : OnchipLoc)
  | memOnchip (loc : OnchipLoc)
  -- vector unit, SFU and row instructions, on the local SRAM of the task's CU
  | vectorOp (t : TaskRef) (op : VecOp) (rm : RoundDir) (sr : Option RandKey) (n dst a b c : Nat)
  | rowReduction (t : TaskRef) (op : RowForm) (n dst a b : Nat)
  | sfuRequest (t : TaskRef) (fn : Nat) (bf16 : Bool) (n dst a : Nat)
  | rowstat (t : TaskRef) (form : StatForm) (n dst x : Nat)
  | lnorm (t : TaskRef) (n dst x gamma beta stat : Nat) (eps : BitVec 32)
  | rmsnorm (t : TaskRef) (n dst x gamma stat : Nat) (eps : BitVec 32)
  | lnormBwd (t : TaskRef) (n dst x dy gamma stat : Nat)
  | rmsnormBwd (t : TaskRef) (n dst x dy gamma stat : Nat)
  | smerge (t : TaskRef) (d a b : Nat)
  | sfinal (t : TaskRef) (sr : Option RandKey) (d row dst a : Nat)
  | kvpin (t : TaskRef) (row : Nat)
  -- image instructions; the operand is the descriptor's offset in local SRAM
  | patch (t : TaskRef) (desc : Nat)
  | s2c (t : TaskRef) (desc : Nat)
  | c2s (t : TaskRef) (desc : Nat)
  | maxpool (t : TaskRef) (desc : Nat)
  | avgpool (t : TaskRef) (desc : Nat)
  | crop (t : TaskRef) (desc : Nat)
  -- completions of background work
  | objectFillDone (obj : Nat)
  | kvCopyDone (ctx : Nat)
  | blockMoveDone (obj blk : Nat)
  | liveStateSaveDone (ctx : Nat)
  | liveStateRestoreDone (ctx : Nat)
  | resultFlushDone (jno : Nat)
  | heldQueueRoom (die : Nat)
  -- collectives
  | collHeaderReceived (ch : Nat) (hdr : HeaderFrame)
  | mismatchNotice (ch groupA : Nat) (groupB : Differing)
  | countNotice (ch : Nat) (group : InstName)
  | abortNotice (ch : Nat) (group : InstName)
  | lossNotice (addr beat : Nat) (absorbBeat : Option Nat)
  | holdNotice (addr beat : Nat)
  | gatherPieceLanded (ch piece : Nat) (data : Bytes)
  | lossWaitExpiry
  -- fabric ports and time
  | dataFrameReceived (port : Nat) (frame : PortFrame)
  | ackReceived (port ack : Nat)
  | nakReceived (port ack : Nat)
  | ackTimeout (port : Nat)
  | idleFrameTimer (port : Nat)
  | portRxTimeout (port : Nat)
  | markerReceived (port : Nat) (payload : Bytes) (arrivalPs : Int)
  | alignOffsetExceeded
  | leaderMarkerTimeout
  | leaderTakeover (node : Nat) (leader : Nat)
  | joinMarkerTimeout
  | leaderRelay (port : Nat) (leader period10 windowUs : Nat) (drop : Option Nat)
  | periodRequest (port : Nat) (src req10 : Nat)
  | identify (port : Nat) (payload : Bytes)
  | measureDone (port meanRoundTripPs : Nat)
  | portStateTimeout (port : Nat)
  | portRetrainTimer (port : Nat)
  | laneLost (port lane : Nat)
  | linkIsolated
  | laserCartridgeFail (c : Nat)
  | cartridgeWarmDone (c : Nat)
  | cartridgeLeverUnlock (c : Nat)
  | dieLinkFrame (link : Nat) (frame : Bytes)
  | linkDie (link : Nat)
  -- twin
  | helloTimer
  | helloReceived (port : Nat) (frame : HelloFrame) (fixed : Nat)
  | handshakeTimeout
  | journalEntryReceived (entry order : Bytes)
  | completionNoticeReceived (n : NoticeEvent)
  | heldItemReceived (item : HeldItem)
  | replayApply
  | accumulatorForwardReceived (addr : Nat) (data : Bytes)
  | digestReceived (digest : Word) (jno : Nat) (objs : ObjDigests)
  | recopyDone (own theirs : List CopiedBlock)
  | selvedgePortLost (port : Nat) (twinOnFabric : Bool)
  | quiesceNoticeReceived (cause : Nat) (intent : Intent) (beat : Nat)
  | twinSilenceTimeout
  | holdLimitExpiry
  -- CXL
  | cxlLinkDown
  | cxlLinkTrained (width rate : Nat)
  | cxlLostTimeout
  | hostLinkReset (kind : HostReset)
  | ideMacFailure
  | cxlMemRead (hpa : Nat) (err : ReadErr)
  | cxlMemWrite (hpa : Nat) (data : Bytes) (mask : WriteMask)
  | bisnpResponse (line : Nat) (modified : Option Bytes)
  | hdmDecoderCommit (base size256 ways : Nat) (hdmDb : Bool)
  -- resets and starts
  | emergencyQuiesce (cause : Nat) (detail : Nat)
  | warmStart (obs : WarmObs)
  | coldStart (obs : ColdObs)
  | bootStepTimeout (step : Nat)
  | opticalTrainingLimit
  -- sensors and power
  | sensorSnapshot (r : Readings)
  | flowEmergencyTimer
  | pwrOverload
  | stepRise (r : Readings)
  | inputVoltageChange (input : Nat) (mv : Int)
  | inputQualified (input : Nat)
  | bulkChargeDone (input : Nat)
  | powerDownTimeout
  | presenceContactBreak (a b : Bool)
  -- MCTP, PLDM, SPDM and IDE key management
  | setEndpointId (b : Binding) (eid : Nat)
  | getEndpointId (b : Binding)
  | getEndpointUuid (b : Binding)
  | getMctpVersionSupport (b : Binding) (msgType : Nat)
  | getMessageTypeSupport (b : Binding)
  | getVendorDefinedMessageSupport (b : Binding)
  | getTid (b : Binding)
  | setTid (b : Binding) (tid : Nat)
  | getPldmVersion (b : Binding) (pldmType : Nat)
  | getPldmTypes (b : Binding)
  | getPldmCommands (b : Binding) (pldmType : Nat)
  | getPdr (b : Binding) (sensor : Nat)
  | setEventReceiver (b : Binding) (receiver : Nat)
  | numericEffecterSet (b : Binding) (effecter watts : Nat)
  | requestUpdate (b : Binding)
  | verifyComplete (b : Binding)
  | activateFirmware (b : Binding) (selfContained : Bool)
  | getStatus (b : Binding)
  | cancelUpdate (b : Binding)
  | getVersion (doe : Bool)
  | getCapabilities (doe : Bool)
  | negotiateAlgorithms (doe : Bool) (supported : Bool)
  | getDigests (doe : Bool)
  | getCertificate (doe : Bool) (slot : Nat)
  | challenge (doe : Bool) (slot : Nat) (nonce : Bytes)
  | getMeasurements (doe : Bool) (index : Nat)
  | keyExchange (doe : Bool) (slot : Nat)
  | finish (doe : Bool) (verifies : Bool)
  | heartbeat (doe : Bool)
  | keyUpdate (doe : Bool)
  | endSession (doe : Bool)
  | query
  | keyProg (stream : Nat) (key : Bytes)
  | kSetGo (stream : Nat)
  | kSetStop (stream : Nat)
  | getKey (stream : Nat)
  -- the rest
  | objLoadStoreDone (jno : Nat) (host : HostView) (writeOk : Bool)
  | harnessWritebackDone (h : Nat)
  | flashWriteDone (job : FlashJob)
  | jtagInstruction (ins : JtagInstr)
  | cxlCacheSnoop (line : Nat)
  | uioRequestReceived (fn : Nat) (uio : Bool)
  | cartridgeInsert (c : Nat)
  | failedWarmStartReport
  deriving DecidableEq, Repr

end Sys2Proof
end

