-- ==== Sys2Proof/Config.lean ====
section
/-! DEFINITION. Sys2Proof/Config.lean: the constants of an implementation and the free values, which the spec leaves open:
each is opaque, so that nothing can be proved of its value (log entries 3 and 4). -/

namespace Sys2Proof.Config

/-- The byte a never-written byte of device memory holds, by creating beat of its object and device address (R357). -/
opaque staleByte : Nat → Nat → Byte

/-- Whether a sector not written since its object's creation passes its check, which it does when it was last written
under the same tag (R357), by creating beat and sector. -/
opaque stalePass : Nat → Nat → Bool

/-- What a byte of local SRAM holds that no task wrote since the last beat (R17), by its place and the pick. -/
opaque staleSram : Nat → Nat → Byte

/-- The same for the accumulators. -/
opaque staleAcc : Nat → Nat → Byte

/-- The physical sector index within its stack (R354) of the first sector of a block, by stack, object index, block and
creating beat: the spec places a block on a stack, not within it. -/
opaque sectorBase : Nat → Nat → Nat → Nat → Nat

/-- What an SFU result takes of the freedom that Table 6-3 leaves it: by function, mode, part of its domain and place (R178). -/
opaque sfu : Nat → Bool → Nat → Nat → Nat

/-- Whether the FP32 results of a function step backward at a seam of Table 6-4 (R180). -/
opaque sfuBack : Nat → Nat → Bool

/-- Whether the vector unit detects a tiny result after rounding: IEEE 754 leaves the choice open, and R172 does not make
it. -/
opaque tinyAfter : Bool

/-- The bits a compare or a classify writes, by outcome (Table 6-1 names no encoding). -/
opaque cmpCode : Bool → Nat
opaque classCode : Nat → Nat

/-- The word a kernel reads its sticky flags in (R173 gives no layout). -/
opaque flagWord : Nat → Nat

/-- An integer result Table 6-1 does not state: a shift by 32 or more (kind 0 to 2), a conversion of a NaN or of a value
outside INT32 (kind 3). -/
opaque intResult : Nat → Nat → Nat → Nat

/-- SHA-512 (R475, R499). -/
opaque sha512 : Bytes → Bytes

/-- An ECDSA P-521 verification: by certificate (0 manifest signing, 1 debug authority), message and signature. -/
opaque verify : Nat → Bytes → Bytes → Bool

/-- A signature or other bytes the Genentand complex forms with a key of its own, by purpose and the free counter. -/
opaque keyed : Nat → Nat → Bytes

/-- A fresh nonce, by the free counter (R511). -/
opaque nonce : Nat → Bytes

/-- The SHA-512 of the identity key's public half (R497). -/
opaque identityHash : Bytes

/-- The module serial (Table 18-4). -/
opaque serial : Bytes

/-- The certificate chain of slot 0 (Table 18-2). -/
opaque certificates : Bytes

/-- The boot ROM's hash, measurement 1 (Table 18-3). -/
opaque bootRomHash : Bytes

/-- Whether the twin's SPDM attestation succeeds, by the free counter (R500). -/
opaque attests : Nat → Bool

/-- The fields Table 18-1 names and the spec gives no bytes: replies of MCTP, PLDM and SPDM, by reply and field. -/
opaque reply : Nat → Nat → Nat

/-- A value that no rule fixes and the machine goes on with, by purpose and the free counter. -/
opaque free : Nat → Nat → Nat

/-- How many MAC epochs have been verified since a commit step last found some unverified (R445). Log entry 204. -/
opaque epochsVerified : Nat → Nat

/-- What a CXL component register holds at reset, by offset, and after a write, by offset, earlier contents and value written: CXL 3.1 defines
them, and the spec does not (Table 15-5). -/
opaque componentReset : Nat → Nat
opaque componentWrite : Nat → Nat → Nat → Nat

/-- The stepping of the silicon is A0 (GLB_ID). -/
def stepping : Nat := 0

end Sys2Proof.Config
end

