-- ==== Sys2Proof/Machine/Bits.lean ====
section
/-! DEFINITION. Sys2Proof/Machine/Bits.lean: the little-endian reading of byte lists (R4), bit fields of registers,
the CRC-32C of Table 3-1 and the chained hash of R230. -/

namespace Sys2Proof.Machine

/-- The number a byte list spells, little-endian (R4). -/
def leNat : Bytes → Nat
  | [] => 0
  | b :: bs => b.toNat + 256 * leNat bs

/-- The `n` little-endian bytes of `v` (R4); bits above them are dropped. -/
def leBytes : Nat → Nat → Bytes
  | 0, _ => []
  | n + 1, v => BitVec.ofNat 8 v :: leBytes n (v / 256)

/-- Byte `i` of a structure; bytes past its end read 0. -/
def byteAt (bs : Bytes) (i : Nat) : Nat := (bs.getD i 0).toNat

/-- The `n`-byte little-endian field at offset `off` of a structure (R4). -/
def fieldAt (bs : Bytes) (off n : Nat) : Nat := leNat ((bs.drop off).take n)

/-- Bits [hi:lo] of a number, both ends included. -/
def bits (v hi lo : Nat) : Nat := (v / 2 ^ lo) % 2 ^ (hi - lo + 1)

/-- Bit `i` of a number. -/
def bitOf (v i : Nat) : Bool := v.testBit i

/-- `v` placed at bit `lo` of a register image. -/
def place (v lo : Nat) : Nat := v * 2 ^ lo

/-- A flag as a number. -/
def b2n (b : Bool) : Nat := if b then 1 else 0

/-- Quotient rounded up; the divisors the model uses are never 0. -/
def ceilDiv (n d : Nat) : Nat := (n + d - 1) / d

/-- All bytes of a range of a structure are zero. -/
def zeroAt (bs : Bytes) (off n : Nat) : Bool := ((bs.drop off).take n).all (· == 0)

/-- A list with position `i` replaced through `f` (unchanged past its end). -/
def modifyAt {α : Type} (l : List α) (i : Nat) (f : α → α) : List α := l.modify i f

/-- Bits 31:0 of a two's complement i32 field as an integer. -/
def i32 (v : Nat) : Int := if v % 2 ^ 32 < 2 ^ 31 then (v % 2 ^ 32 : Nat) else ((v % 2 ^ 32 : Nat) : Int) - 2 ^ 32

/-- An integer as the bits of an i32 field. -/
def toI32 (v : Int) : Nat := (v % (2 ^ 32 : Int)).toNat

/-- One bit step of the reflected CRC-32C (Table 3-1: Castagnoli polynomial 0x1EDC_6F41, whose reflection is
0x82F6_3B78). -/
def crcBit (c : Nat) : Nat := if c % 2 = 1 then Nat.xor (c / 2) 0x82F63B78 else c / 2

/-- One byte of the reflected CRC-32C. -/
def crcByte (c : Nat) (b : Byte) : Nat :=
  crcBit (crcBit (crcBit (crcBit (crcBit (crcBit (crcBit (crcBit (Nat.xor c b.toNat))))))))

/-- CRC-32C of a byte list: initial value and final XOR 0xFFFF_FFFF (Table 3-1). -/
def crc32c (bs : Bytes) : Nat := Nat.xor (bs.foldl crcByte 0xFFFFFFFF) 0xFFFFFFFF

/-- The start of the chained hash (R230, `root`). -/
def hashRoot (seed : Nat) : Nat := Nat.xor 0xCBF29CE484222325 (seed % 2 ^ 64)

/-- One step of the chained hash (R230, `chain`). -/
def hashChain (h t : Nat) : Nat := (Nat.xor h (t % 2 ^ 32) * 0x00000100000001B3) % 2 ^ 64

/-- The chained hash over a run of u32 words (R230). -/
def hashWords (seed : Nat) (ws : List Nat) : Nat := ws.foldl hashChain (hashRoot seed)

/-- The little-endian u32 words of a byte list (the words of a hashed section). -/
def u32Words (n : Nat) (bs : Bytes) : List Nat := (List.range n).map fun i => fieldAt bs (4 * i) 4

/-- A list with an entry put before the first whose key is larger. -/
def insertKey {α : Type} (key : α → Nat) (x : α) : List α → List α
  | [] => [x]
  | y :: l => if key x < key y then x :: y :: l else y :: insertKey key x l

/-- A list by rising key, entries of one key in their order. -/
def sortKey {α : Type} (key : α → Nat) (l : List α) : List α := l.foldl (fun r x => insertKey key x r) []

end Sys2Proof.Machine
end

