-- ==== Sys2Proof/Machine/DraftTypes.lean ====
section
/-! DEFINITION. Sys2Proof/Machine/DraftTypes.lean: a draft as the Exral holds it once read (03_draft.md, Tables 3-1 to
3-11), and how its bytes are read into that form. -/

namespace Sys2Proof.Machine

/-- Harness entry of Table 3-5. -/
structure HarnessDef where
  id      : Nat
  regions : Nat
  cls     : Nat
  deriving DecidableEq, Repr

/-- Slot entry of Table 3-5. -/
structure SlotDef where
  id      : Nat
  harness : Nat
  cls     : Nat
  firstCu : Nat
  cuCount : Nat
  deriving DecidableEq, Repr

/-- Harness tier entry of Table 3-6. -/
structure TierDef where
  harness    : Nat
  singleHome : Bool
  quotaMib   : Nat
  rateGbs    : Nat
  beam       : Nat
  t3Base     : Nat
  t3Size     : Nat
  deriving DecidableEq, Repr

/-- Group entry of Table 3-7; `axes` holds (origin, extent, stride) of A to D. -/
structure GroupDef where
  id      : Nat
  mask    : Nat
  channel : Nat
  axes    : List (Nat × Nat × Nat)
  deriving DecidableEq, Repr

/-- Class entry of Table 3-8. -/
structure ShareClass where
  weight      : Nat
  priority    : Nat
  preemptible : Bool
  cap         : Nat
  deriving DecidableEq, Repr

/-- Harness function entry of Table 3-10. -/
structure FuncDef where
  harness   : Nat
  flags     : Nat
  shuttle   : Nat
  act       : Nat
  kvBytes   : Nat
  kvLimit   : Nat
  deriving DecidableEq, Repr

/-- The TRAIN section, Table 3-11; `bindings` holds (weight object, accumulator object), `stages` (layers, footprint),
`ranks` (query heads, key-value heads). -/
structure TrainMap where
  bindings : List (Nat × Nat)
  stages   : List (Nat × Nat)
  ranks    : List (Nat × Nat)
  layers   : Nat
  qheads   : Nat
  kvheads  : Nat
  harness  : Nat
  deriving DecidableEq, Repr

/-- The TWIN section, Table 3-9, with its 32 bytes for the comparison of R90. -/
structure TwinPolicy where
  mirror       : Bool
  coding       : Nat
  autoAbsorb   : Bool
  autoHandback : Bool
  drainGbs     : Nat
  bytes        : Bytes
  deriving DecidableEq, Repr

/-- A draft, as the Exral holds it. -/
structure Draft where
  id        : Nat
  lens      : List Nat
  period10  : Nat
  windowUs  : Nat
  planClock : Nat
  undoMib   : Nat
  harnesses : List HarnessDef
  slots     : List SlotDef
  fast      : Bool
  tiers     : List TierDef
  groups    : List GroupDef
  classes   : List ShareClass
  jobLimits : List Nat
  twin      : TwinPolicy
  funcs     : List FuncDef
  train     : Option TrainMap
  deriving DecidableEq, Repr

/-- One section-table entry (Table 3-2) with its index and its bytes. -/
structure Sec where
  idx  : Nat
  typ  : Nat
  ver  : Nat
  off  : Nat
  size : Nat
  data : Bytes
  deriving DecidableEq, Repr

/-- The sections of a draft, at most the eight that SECTIONS may count (Table 3-1). -/
def draftSections (d : Bytes) : List Sec :=
  (List.range (min (fieldAt d 0x0C 2) 8)).map fun i =>
    let e := 64 + 16 * i
    let off := fieldAt d (e + 4) 4
    let size := fieldAt d (e + 8) 4
    { idx := i, typ := fieldAt d e 2, ver := fieldAt d (e + 2) 2, off := off, size := size,
      data := (d.drop off).take size }

/-- The section of a type, if the draft carries it. -/
def findSec (ss : List Sec) (t : Nat) : Option Sec := ss.find? (·.typ = t)

/-- The bytes of a section, empty when the draft has none of the type. -/
def secData (ss : List Sec) (t : Nat) : Bytes := (findSec ss t).elim [] Sec.data

/-- Entry `i` of a list of `n`-byte entries that starts at `base`. -/
def entryAt (s : Bytes) (base n i : Nat) : Bytes := (s.drop (base + n * i)).take n

/-- Harness entries (Table 3-5). -/
def readHarnesses (s : Bytes) : List HarnessDef :=
  (List.range (byteAt s 0)).map fun h =>
    let e := entryAt s 0x10 16 h
    { id := byteAt e 0, regions := fieldAt e 2 2, cls := byteAt e 4 }

/-- Slot entries (Table 3-5). -/
def readSlots (s : Bytes) : List SlotDef :=
  (List.range (byteAt s 1)).map fun i =>
    let e := entryAt s (0x10 + 16 * byteAt s 0) 16 i
    { id := byteAt e 0, harness := byteAt e 1, cls := byteAt e 2, firstCu := fieldAt e 4 2, cuCount := fieldAt e 6 2 }

/-- Tier entries (Table 3-6). -/
def readTiers (s : Bytes) : List TierDef :=
  (List.range (byteAt s 1)).map fun i =>
    let e := entryAt s 0x10 32 i
    { harness := byteAt e 0, singleHome := byteAt e 1 = 1, quotaMib := 1024 * fieldAt e 2 2, rateGbs := fieldAt e 4 4,
      beam := byteAt e 8, t3Base := fieldAt e 16 8, t3Size := fieldAt e 24 8 }

/-- Group entries (Table 3-7). -/
def readGroups (s : Bytes) : List GroupDef :=
  (List.range (fieldAt s 0 2)).map fun i =>
    let e := entryAt s 0x10 32 i
    { id := fieldAt e 0 2, mask := byteAt e 2, channel := byteAt e 3,
      axes := (List.range 4).map fun x => (byteAt e (4 + 3 * x), byteAt e (5 + 3 * x), byteAt e (6 + 3 * x)) }

/-- Class entries (Table 3-8). -/
def readClasses (s : Bytes) : List ShareClass :=
  (List.range 16).map fun k =>
    let e := entryAt s 0 8 k
    { weight := fieldAt e 0 2, priority := byteAt e 2, preemptible := bitOf (byteAt e 3) 0, cap := byteAt e 4 }

/-- The classes when SHARE is absent (Table 3-3). -/
def defaultClasses : List ShareClass :=
  { weight := 1, priority := 0, preemptible := true, cap := 100 } ::
    List.replicate 15 { weight := 0, priority := 0, preemptible := false, cap := 0 }

/-- Job limits (Table 3-8). -/
def readJobLimits (s : Bytes) : List Nat := (List.range 256).map fun c => fieldAt s (0x80 + 2 * c) 2

/-- Function entries (Table 3-10). -/
def readFuncs (s : Bytes) : List FuncDef :=
  (List.range (byteAt s 0)).map fun i =>
    let e := entryAt s 0x10 16 i
    { harness := byteAt e 0, flags := byteAt e 1, shuttle := byteAt e 2, act := byteAt e 3, kvBytes := fieldAt e 4 4,
      kvLimit := fieldAt e 8 2 }

/-- Where the stage list of a TRAIN section starts. -/
def trainStages (s : Bytes) : Nat := 16 * ceilDiv (16 + 8 * fieldAt s 0 2) 16

/-- The TRAIN section (Table 3-11). -/
def readTrain (s : Bytes) : TrainMap :=
  let b := fieldAt s 0 2
  let n := fieldAt s 2 2
  let st := trainStages s
  { bindings := (List.range b).map fun i => (fieldAt s (0x10 + 8 * i) 4, fieldAt s (0x14 + 8 * i) 4)
    stages := (List.range n).map fun i => (fieldAt s (st + 16 * i) 2, fieldAt s (st + 16 * i + 8) 8)
    ranks := (List.range (fieldAt s 4 2)).map fun j =>
      (fieldAt s (st + 16 * n + 4 * j) 2, fieldAt s (st + 16 * n + 4 * j + 2) 2)
    layers := fieldAt s 6 2, qheads := fieldAt s 8 2, kvheads := fieldAt s 10 2, harness := byteAt s 0xC }

/-- The TWIN section (Table 3-9). -/
def readTwin (s : Bytes) : TwinPolicy :=
  { mirror := byteAt s 0 = 1, coding := byteAt s 1, autoAbsorb := byteAt s 2 = 1, autoHandback := byteAt s 3 = 1,
    drainGbs := fieldAt s 4 4, bytes := s.take 32 }

/-- A draft read from its bytes, with the defaults of Table 3-3 for absent sections. -/
def readDraft (d : Bytes) : Draft :=
  let ss := draftSections d
  let p := secData ss 1
  let h := secData ss 2
  { id := fieldAt d 0x10 8
    lens := (List.range 4).map fun i => byteAt d (0x1C + i)
    period10 := fieldAt p 0 2, windowUs := byteAt p 2, planClock := byteAt p 3, undoMib := byteAt p 4
    harnesses := readHarnesses h, slots := readSlots h
    fast := byteAt (secData ss 3) 0 = 1, tiers := readTiers (secData ss 3)
    groups := readGroups (secData ss 4)
    classes := (findSec ss 5).elim defaultClasses fun s => readClasses s.data
    jobLimits := (findSec ss 5).elim (List.replicate 256 65535) fun s => readJobLimits s.data
    twin := readTwin (secData ss 6)
    funcs := readFuncs (secData ss 7)
    train := (findSec ss 8).map fun s => readTrain s.data }

/-- Number of regions in a mask. -/
def maskCount (m : Nat) : Nat := ((List.range 16).filter fun i => bitOf m i).length

/-- The harness entry with an id. -/
def Draft.harness (d : Draft) (h : Nat) : Option HarnessDef := d.harnesses.find? (·.id = h)

/-- The slot entry with an id. -/
def Draft.slot (d : Draft) (i : Nat) : Option SlotDef := d.slots.find? (·.id = i)

/-- The harness that owns a region (R21). -/
def Draft.harnessOfRegion (d : Draft) (r : Nat) : Option Nat :=
  (d.harnesses.find? fun h => bitOf h.regions r).map HarnessDef.id

/-- The T3 window of a harness: its first host address and its bytes (Table 3-6). -/
def TierDef.window (t : TierDef) : Nat × Nat := (t.t3Base, t.t3Size)

/-- The tier entry of a harness, or the defaults of Table 3-3: a quota and a rate in proportion to its regions (71.5 GiB and
1,536 GB/s each, R340), write-back, no beam window, no T3 window. -/
def Draft.tier (d : Draft) (h : Nat) : TierDef :=
  (d.tiers.find? (·.harness = h)).getD
    { harness := h, singleHome := false
      quotaMib := 73216 * maskCount ((d.harness h).elim 0 HarnessDef.regions)
      rateGbs := 1536 * maskCount ((d.harness h).elim 0 HarnessDef.regions)
      beam := 0, t3Base := 0, t3Size := 0 }

/-- The function entry of a harness, or the defaults of Table 3-3: modes off, codings C0 only, no key-value pages. -/
def Draft.func (d : Draft) (h : Nat) : FuncDef :=
  (d.funcs.find? (·.harness = h)).getD
    { harness := h, flags := 0, shuttle := 1, act := 1, kvBytes := 0, kvLimit := 1 }

/-- A share class. -/
def Draft.cls (d : Draft) (k : Nat) : ShareClass :=
  d.classes.getD k { weight := 0, priority := 0, preemptible := false, cap := 0 }

/-- The quota of a harness in bytes. -/
def TierDef.quota (t : TierDef) : Nat := t.quotaMib * 2 ^ 20

/-- Undo blocks of one region (R63). -/
def Draft.regionUndo (d : Draft) : Nat := 64 * d.undoMib

end Sys2Proof.Machine
end

