-- ==== Sys2Proof/Machine/CoreTypes.lean ====
section
/-! DEFINITION. Sys2Proof/Machine/CoreTypes.lean: the transactional part of the state, which a completed beat commits
and a rollback returns to its committed value (R41, R58, R64): the draft in force, contexts, slots, orders, tasks, rings'
records, objects, memory, key-value pools, groups and channels, and on-chip state. A default value of a field is its
value at reset. -/

namespace Sys2Proof.Machine

/-- Context states (Table 4-7). -/
inductive CtxState | free | idle | holding | saving | faulted | destroying
  deriving DecidableEq, Repr

/-- The encoding of CTX_STATE.STATE (Table 4-7). -/
def CtxState.code : CtxState → Nat
  | .free => 0 | .idle => 1 | .holding => 2 | .saving => 3 | .faulted => 4 | .destroying => 5

/-- An entry of a live-range table (Table 4-8 and R124), in units of 64 bytes. -/
structure LiveEntry where
  cu    : Nat
  start : Nat
  len   : Nat
  acc   : Bool
  deriving DecidableEq, Repr

/-- One context index (CTX_STATE). `live` holds the live entries in force; `saved` the saved live state, local SRAM and
accumulators; `restart` that it is to be restored without teardown at the commit step (R308, R360, R369); `destroy` that a
`CTX_DESTROY` of it waits, which a save of its live state does not end (R123, R128). -/
structure Ctx where
  state   : CtxState := .free
  fault   : Nat := 0
  client  : Nat := 0
  slot    : Nat := 0
  inc     : Nat := 0
  cls     : Nat := 0
  harness : Nat := 0
  live    : List LiveEntry := []
  saved   : Option (List Host.Cell × List Host.Cell) := none
  restart : Bool := false
  restoring : Bool := false
  destroy : Bool := false
  absorbedTag : Bool := false
  deriving DecidableEq, Repr

/-- One context slot: its holder, the picks the holder has held it in a row, the context chosen at the decision point,
and the classes that held it in the picks past, newest first (R127). -/
structure Slot where
  holder : Option Nat := none
  run    : Nat := 0
  chosen : Option Nat := none
  hist   : List (Option Nat) := []
  deriving DecidableEq, Repr

/-- A task descriptor (Table 4-8). -/
structure TaskDesc where
  length : Nat
  undo   : Nat
  cu     : Nat
  engine : Nat
  deps   : List Nat
  code   : Nat
  args   : Nat
  live   : Nat
  deriving DecidableEq, Repr

/-- Where a task stands. -/
inductive TaskPhase | waiting | running | ended | aborted
  deriving DecidableEq, Repr

/-- A released task. `met` holds the numbers of its dependencies that are met (R249), `taken` the pre-images it took,
`sram` and `banks` what R157 allocated, `flags` the sticky arithmetic flags (R173), `computed` that its own operation
has been carried out, `skips` the update rounds it skipped (R270), `defer` that its first descriptor's KIND read 2 at its release (R167), `args`
the descriptors that its engine read at its start (R156), `tiles` the output tiles drained, `round`
the weight object of an update task (R257), `rowML` a fused
task's m and l by row (R196). -/
structure Task where
  desc       : TaskDesc
  cu         : Nat := 0
  phase      : TaskPhase := .waiting
  unit       : Option ExecUnit := none
  startPick  : Nat := 0
  startCycle : Nat := 0
  endPick    : Nat := 0
  met        : List Nat := []
  taken      : Nat := 0
  sram       : Nat := 0
  banks      : List Nat := []
  computed   : Bool := false
  skips      : Nat := 0
  flags      : Nat := 0
  defer      : Bool := false
  round      : Option Nat := none
  rowML      : List (Nat × Nat) := []
  args       : Option Bytes := none
  tiles      : Nat := 0
  deriving DecidableEq, Repr

/-- An accepted order that has not left the Exral. `checked` is set once it passed
validation and `applied` once it has executed; `status` (status, result) once
those are determined, at beat `doneAt`; `stored` once the twin holds its completion notice, and `itemsIn` how many of its held items it holds (R389); `flushed` once its
result range is flushed (R441). `ctxField` is the order's own CONTEXT field and `ctx` the handle it names here (R402).
`tried` is the beat a join or a grow was first tried at (R245), or the blocks that an
`OBJ_HINT` listed, and `lastTry` that of the last try; `landed` the blocks that a load has written (R335); `again` the CU and detail of the `SHARD.VERSION` for which
the order is issued again (R133). `acc` ranks
orders by acceptance. An order re-issued by an absorption (R399) takes the twin's journal number + 2^64, the ring number 64 + i,
and a rank between those of the orders accepted here before and after it. -/
structure OrderSt where
  jno       : Nat
  acc       : Nat
  ring      : Nat
  ringIndex : Nat
  seq       : Nat
  client    : Nat
  ctx       : Nat
  ctxField  : Nat
  opcode    : Nat
  bytes     : Bytes
  sealBeat  : Nat
  checked   : Bool := false
  applied   : Bool := false
  status    : Option (Nat × Nat) := none
  doneAt    : Nat := 0
  published : Option Nat := none
  reissued  : Bool := false
  again     : Option (Nat × Nat) := none
  stored    : Bool := false
  itemsIn   : Nat := 0
  flushed   : Bool := false
  tried     : Option Nat := none
  lastTry   : Option Nat := none
  landed    : List Nat := []
  tasks     : List Task := []
  deriving DecidableEq, Repr

/-- A record owed to a ring and not yet written (Table 4-5). `jno` is the order whose record it is. -/
structure OwedRec where
  typ    : Nat
  seq    : Nat
  status : Nat
  result : Nat
  flags  : Nat
  index  : Nat
  ctx    : Nat
  jno    : Nat
  deriving DecidableEq, Repr

/-- The part of a ring that a beat commits: RUNNING, DRAINING, ERROR, the next record index, the last RECORD_DONE in
range (R105), the TAKEN that the control block shows, none before the first write, the records owed and not yet due out, how often
it was started (R106), and the writes of 0 to ENABLE that were taken (R535). -/
structure RingSt where
  running  : Bool := false
  draining : Bool := false
  error    : Nat := 0
  recNext  : Nat := 0
  recDone  : Nat := 0
  takenOut : Option Nat := none
  owed     : List OwedRec := []
  starts   : Nat := 0
  stops    : Nat := 0
  deriving DecidableEq, Repr

/-- A fetched order: its journal entry (Table 4-4) and its 128 bytes. `dup` holds, for kind 3, the status and result of
the original where its completion was published, or nothing where it was not (Table 4-6); `handle` is CONTEXT, translated
on an adopted ring (R402). -/
structure JEntry where
  seq       : Nat
  ringIndex : Nat
  sealBeat  : Nat := 0
  jno       : Nat := 0
  ring      : Nat
  client    : Nat
  opcode    : Nat
  kind      : Nat
  ctx       : Nat
  handle    : Nat
  status    : Nat := 0
  crc       : Nat
  bytes     : Bytes
  dup       : Option (Nat × Nat) := none
  deriving DecidableEq, Repr

/-- A context fault raised in the pick (R130, R131), by task `idx` of its order, on array B where `arrayB` is set; the reported one is
that of the earliest cycle, then of the lowest CU, then of array A (R170). -/
structure CtxFault where
  ctx    : Nat
  code   : Nat
  cu     : Nat
  cycle  : Nat
  jno    : Nat
  detail : Nat
  idx    : Nat := 0
  arrayB : Bool := false
  deriving DecidableEq, Repr

/-- The home of a block: a T2 stack, or a pair of T3 slots, by the host address of the first, with the slot in use. -/
inductive Home
  | t2 (stack : Nat)
  | t3 (slotNo : Nat) (second : Bool)
  deriving DecidableEq, Repr

/-- A live object (Table 11-6). `version` is the count of completed update rounds and `rounds` the orders whose rounds are
under way (R257); `target` the tier that the last `OBJ_HINT` to name one set (R338); `filling` that R323's fill runs;
`created` the creating beat; `whole` the blocks whose whole bit is set (R370). -/
structure Obj where
  id       : Nat
  ctx      : Nat
  cls      : Nat
  single   : Bool
  format   : Nat
  coding   : Nat
  size     : Nat
  rows     : Nat
  cols     : Nat
  stride   : Nat
  lifetime : Nat
  affinity : Nat
  target   : Option Nat := none
  farOk    : Bool
  pattern  : Nat
  harness  : Nat
  created  : Nat
  homes    : List Home
  whole    : List Nat := []
  version  : Nat := 0
  rounds   : List Nat := []
  filling  : Bool := false
  fillOrder : Option Nat := none
  mirrorTag : Bool := false
  fill     : Bool := false
  deriving DecidableEq, Repr

/-- A block listed to move (R338): its object, block, new home and whether the copy has completed. -/
structure Move where
  obj    : Nat
  blk    : Nat
  dest   : Home
  copied : Bool
  jno    : Nat
  deriving DecidableEq, Repr

/-- The state of a stored sector: valid, or failing its check with a syndrome (0xFFFF_FFFF is poison, R359). A sector
in no entry has not been written since power-up under its tag (R357). -/
inductive SectorSt
  | valid
  | bad (syndrome : Nat)
  deriving DecidableEq, Repr

/-- Device memory: the bytes written, by device address, addresses rising; and the written sectors, by device address
divided by 64, rising. -/
structure Memory where
  cells   : List Host.Cell := []
  sectors : List (Nat × SectorSt) := []
  deriving DecidableEq, Repr

/-- A block's contents held beside the block: a shadow block (R60) or a pre-image (R59, with the region whose reserve
holds it, none for a spill's or a single-home write's own shadow). -/
structure HeldBlock where
  ctx     : Nat
  addr    : Nat
  cells   : List Host.Cell
  sectors : List (Nat × SectorSt)
  region  : Option Nat := none
  byFill  : Bool := false
  deriving DecidableEq, Repr

/-- A region-cache line (R328): 1 KiB line address, dirty bits of its sectors, whether the current pick wrote it, the sectors it
holds, and whether the walker staged it (R161). -/
structure T1Line where
  line    : Nat
  dirty   : Nat
  written : Bool
  held    : Nat := 0
  staged  : Bool := false
  deriving DecidableEq, Repr

/-- A beam frame of a harness (R342): the blocks it holds and those a load of this pick will make its content. -/
structure Frame where
  harness : Nat
  no      : Nat
  blocks  : List Nat
  loading : Option (List Nat)
  deriving DecidableEq, Repr

/-- A lineage record (Table 12-3), with the blocks of its tile and of its operands; `dead` that it is dropped, its place in the ring kept
until it is overwritten. -/
structure Lineage where
  desc : Bytes
  key  : Bytes
  pick : Nat
  ctx  : Nat
  cu   : Nat
  tile : List Nat
  ins  : List Nat
  dead : Bool := false
  deriving DecidableEq, Repr

/-- Sequence states (Table 8-4). -/
inductive SeqState | free | deferred | running | stalled
  deriving DecidableEq, Repr

/-- A sequence of a pool (Table 8-4). -/
structure KvSeq where
  tokens  : Nat := 0
  shared  : Nat := 0
  state   : SeqState := .free
  changed : Nat := 0
  pending : Nat := 0
  entries : List Nat := []
  deriving DecidableEq, Repr

/-- A tree entry (Table 8-6). -/
structure TreeEnt where
  hash     : Nat := 0
  row      : Nat := 0xFFFFFFFF
  parent   : Nat := 0xFFFFFFFF
  depth    : Nat := 0
  children : Nat := 0
  lastUse  : Nat := 0
  deriving DecidableEq, Repr

/-- A key-value pool (Tables 8-2 and 8-3): row states as (REFS, PINS); `copies` the copy-on-write copies queued at the
last beat (old row, new row); `copying` until they complete (R239); `grows` the grows that wait; `due` that a part of its table or tree
found no shadow block and is yet to be written (R335). -/
structure KvPool where
  ctx     : Nat
  rows    : Nat
  layers  : Nat
  maxSeq  : Nat
  maxRows : Nat
  seed    : Nat
  data    : Nat
  table   : Nat
  tree    : Nat
  tpp     : Nat
  limit   : Nat
  rowSt   : List (Nat × Nat)
  seqs    : List KvSeq
  ents    : List TreeEnt
  copies  : List (Nat × Nat) := []
  copying : Bool := false
  lastBeat : Nat := 0
  grows    : Nat := 0
  due      : Bool := false
  deriving DecidableEq, Repr

/-- A collective group as this module keeps it (R286 to R288): its members' packed addresses by rank, its epoch and its
instance counts, by (channel, peer rank; 0xFFFF where the count is not per peer). `lost` from a loss or hold notice to
the new epoch (R308, R485); `served` that the epoch began by an absorption or a return, so that older instances are
re-served (R309). -/
structure Group where
  id      : Nat
  epoch   : Nat
  members : List Nat
  counts  : List (Nat × Nat × Nat)
  dropped : Bool := false
  lost    : Bool := false
  served  : Bool := false
  deriving DecidableEq, Repr

/-- Channel states (REED_CHAN.STATE). -/
inductive ChanState | idle | header | counts | data | interrupted
  deriving DecidableEq, Repr

/-- An instance as this module can serve it again from its send range (R309): its group, instance count, peer rank, pick and context,
this module's rank, the header it sent, and its tasks' descriptors in die order. -/
structure Served where
  group : Nat
  inst  : Nat
  peer  : Nat
  pick  : Nat
  ctx   : Nat
  me    : Nat
  hdr   : Bytes
  descs : List Bytes
  deriving DecidableEq, Repr

/-- A data frame that found no credit of its channel (R284): the port and the sequence number it came by, its rank and its data. -/
structure OverFrame where
  port : Nat
  seq  : Nat
  rank : Nat
  data : Bytes
  deriving DecidableEq, Repr

/-- One reed channel (R283 to R285, R293): its bound context, the current instance's group, count, peer rank, tasks and
own header, the headers matched by rank, the headers held with their senders' addresses, whether its count has risen (R288), the data
received by rank and the ports whose credits the frames of a header phase hold, with the frames that found none (R284), the gather pieces
landed (R302), how many pieces of its data each rank was sent and what is left of them short of a frame's 64 bytes (R301, R451), the groups of mismatch
notices not yet met with the rank each names (R296), the instances it can serve again, and the headers whose re-serve waits for a repair. -/
structure Chan where
  state   : ChanState := .idle
  group   : Nat := 0
  bound   : Option Nat := none
  inst    : Nat := 0
  peer    : Nat := 0xFFFF
  parts   : List TaskRef := []
  hdr     : Bytes := []
  from_   : List (Nat × Bytes) := []
  held    : List (Nat × Bytes) := []
  counted : Bool := false
  data    : List (Nat × Bytes) := []
  credits : List Nat := []
  excess    : List OverFrame := []
  pieces  : List Nat := []
  sentTo  : List (Nat × Nat) := []
  carry   : List (Nat × Bytes) := []
  noticed : List (Nat × Nat) := []
  served  : List Served := []
  redo    : List (Nat × Bytes) := []
  deriving DecidableEq, Repr

/-- A channel without an instance: what the last one received is gone. -/
def Chan.closed (k : Chan) : Chan :=
  { k with state := .idle, parts := [], from_ := [], counted := false, data := [], credits := [], excess := [], pieces := [], sentTo := []
           carry := [] }

/-- A running shuttle task (R208 to R211): whether its headers have left, its direction, group, STEP and PART as word 3 of Table 10-5 has them, own hash and epoch, this module's rank
and those of the next and the previous member, whether their headers matched, the headers that did, whether its range was sent, and the
bytes received. -/
structure ShuttleRun where
  task   : TaskRef
  begun  : Bool := false
  dir    : Nat
  group  : Nat
  name   : Nat := 0
  hash   : Nat := 0
  epoch  : Nat := 0
  me     : Nat := 0
  next   : Nat := 0
  prev   : Nat := 0
  nextOk : Bool := false
  prevOk : Bool := false
  hdrs   : List Bytes := []
  sent   : Bool := false
  data   : Bytes := []
  deriving DecidableEq, Repr

/-- A shuttle task as this module can serve it again (R213, R309): its group, context, this module's rank and those of its neighbors,
its descriptor, the pick it sent its range in, and the ranks that it has served again. -/
structure ShServed where
  group : Nat
  ctx   : Nat
  me    : Nat
  next  : Nat
  prev  : Nat
  desc  : Bytes
  pick  : Nat
  done  : List Nat := []
  deriving DecidableEq, Repr

/-- A detected sector waiting for its repair (R363, R369, R371): the reader, the log entry, and whether a twin fetch is
out. -/
structure Repair where
  sector : Nat
  reader : Option Reader
  log    : Nat
  fetch  : Bool
  ctx    : Nat
  also   : List TaskRef := []
  deriving DecidableEq, Repr

/-- An access that waits for back-invalidation responses (R440), or for a repair: a task's own operation, a write or a read
of a task, or an image instruction. -/
inductive Wait
  | task (t : TaskRef)
  | write (t : TaskRef) (addr : Nat) (data : Bytes)
  | read (rd : Reader) (addr : Nat) (err : ReadErr)
  | image (t : TaskRef) (op desc : Nat) (held : Bool)
  deriving DecidableEq, Repr

/-- Parts of the pick that tasks share: read marks, pre-images, shadow blocks, undo charges by
(context, region, blocks) (R59, R60, R63), the blocks written with the order whose task wrote them last, update tasks' in
`updated` (R386), the replays of update tasks by context and die (R386), the bytes of partly written sectors of region-cache lines, as masks (R328), the
repair tasks that ran, by context, CU and the cycle at which they end (R369), and what has been written to T3, by block (R443). -/
structure PickMem where
  marks   : List Nat := []
  pre     : List HeldBlock := []
  shadow  : List HeldBlock := []
  charges : List (Nat × Nat × Nat) := []
  writers : List (Nat × Nat) := []
  parts   : List (Nat × Nat) := []
  updated : List (Nat × Nat) := []
  replays : List (Nat × Nat × HeldItem) := []
  mending : List (Nat × Nat × Nat) := []
  farSent : List (Nat × Bytes) := []
  free    : List Nat := List.replicate 24 10240
  deriving DecidableEq, Repr

/-- The compute state: local SRAM by CU × 2^24 + offset, accumulators by CU × 2^18 + byte, region-cache lines by region,
beam frames, lineage records by die; `zero` holds the CUs that a reset zeroed and no commit step has passed since (Table 17-7). -/
structure Onchip where
  sram    : List Host.Cell := []
  acc     : List Host.Cell := []
  t1      : List (List T1Line) := List.replicate 16 []
  frames  : List Frame := []
  lineage : List (List Lineage) := List.replicate 4 []
  crcHits : List (Nat × Nat × Nat) := []
  zero    : List Nat := []
  deriving DecidableEq, Repr

/-- What a completed beat commits. `stores` holds, by order, the bytes that an `OBJ_STORE` moves (R326). Channels 32 to 63 are those of the absorbed address (R33). `need` holds the lines that an
operation found to need a snoop, `starved` that one found no shadow block (R335), `snoops` those with a snoop out, `waits` the accesses that wait (R440). `kvLeft` is what the
beat's joins leave of its hash searches, and whether one was searched (R233). `routes` holds the die links that the next pick's
traffic between d0 and d3, and between d1 and d2, goes over (R339); `gone` the addresses that a drop took out of a group, by group, until
a draft changes its entry (R310); `forwards` the forwarded data that the twin has not stored yet, by task and address (R390); `shNoticed` the groups of mismatch notices of the shuttle not yet met, with the rank each names (R208). -/
structure Core where
  draft     : Option Draft := none
  ctxs      : List Ctx := List.replicate 64 {}
  slots     : List Slot := List.replicate 64 {}
  rings     : List RingSt := List.replicate 64 {}
  orders    : List OrderSt := []
  held      : List JEntry := []
  faults    : List CtxFault := []
  shareTime : List Nat := List.replicate 16 0
  objs      : List (Nat × Obj) := []
  mem       : Memory := {}
  pm        : PickMem := {}
  moves     : List Move := []
  changed   : List (Nat × Nat) := []
  onchip    : Onchip := {}
  pools     : List KvPool := []
  groups    : List Group := []
  chans     : List Chan := List.replicate 64 {}
  shuttle   : List ShuttleRun := []
  shHeld    : List Bytes := []
  repairs   : List Repair := []
  apertures : List (Nat × Nat) := List.replicate 256 (0, 0)
  need      : List Nat := []
  starved   : Bool := false
  snoops    : List Nat := []
  waits     : List Wait := []
  journalled : Nat := 0
  cycle     : Nat := 0
  stores    : List (Nat × Bytes) := []
  kvLeft    : Nat × Bool := (16384, false)
  routes    : List (List Nat) := [[0, 3], [1, 2]]
  gone      : List (Nat × Nat) := []
  shNoticed : List (Nat × Nat) := []
  shServed  : List ShServed := []
  forwards  : List (TaskRef × Nat) := []
  deriving DecidableEq, Repr

end Sys2Proof.Machine
end

