-- ==== Sys2Proof/Machine/State.lean ====
section
/-! DEFINITION. Sys2Proof/Machine/State.lean: the state of the block, its reset value, and the reasons a command can stop.
A default value of a field is its value at reset. -/

namespace Sys2Proof.Machine

/-- GLB_STATE.STATE. -/
inductive ModState | cold | mgmtOnly | recovery | standby | operational | warm | quiesce
  deriving DecidableEq, Repr

/-- The encoding of GLB_STATE.STATE. -/
def ModState.code : ModState → Nat
  | .cold => 0 | .mgmtOnly => 1 | .recovery => 2 | .standby => 3 | .operational => 4 | .warm => 5 | .quiesce => 6

/-- Where in a pick the module stands: in the task span, or past the named step of Table 2-3. -/
inductive Phase | span | opened | sampled | decided | placed | sealed | applied | latched | committed
  deriving DecidableEq, Repr

/-- The requests of the CXL.cache agent (R433). -/
inductive CacheReq | rdCurr | wrCur | itoMWr
  deriving DecidableEq, Repr

/-- What leaves the module, oldest first: the model's own record of its outputs (DESIGN CHOICE, log entry 2). -/
inductive Out
  | hostRead (req : CacheReq) (addr n : Nat)
  | hostWrite (req : CacheReq) (addr : Nat) (data : Bytes)
  | farWrite (uio : Bool) (addr : Nat) (data : Bytes)
  | msix (vector : Nat)
  | readData (v : Nat)
  | frame (port : Nat) (bytes : Bytes)
  | marker (port : Nat) (payload : Bytes)
  | identifyFrame (port : Nat) (payload : Bytes)
  | relay (port : Nat) (leader period10 windowUs : Nat) (drop : Option Nat)
  | request (port : Nat) (src req10 : Nat)
  | hello (port : Nat) (bytes : Bytes)
  | journalSend (entry order : Bytes)
  | entryStored (ring ringIndex : Nat)
  | noticeSend (n : Notice)
  | noticeStored (jno : Nat)
  | heldSend (item : HeldItem)
  | itemStored (jno : Nat)
  | itemsFull (die : Nat)
  | itemRoom (die : Nat)
  | copySend (coded : Bool) (b : CopiedBlock)
  | accForward (addr : Nat) (data : Bytes)
  | forwardStored (addr : Nat)
  | digestSend (digest jno : Nat)
  | objDigests (own mirror : List (Nat × Nat)) (detected : Bool)
  | tablesSend (t : TwinTables)
  | passSend (t : TwinTables)
  | fetchSend (addr : Nat)
  | fetchAnswer (addr : Nat) (data : Option Bytes)
  | quiesceNotice (cause : Nat) (intent : Intent) (beat : Nat)
  | lossNoticeOut (addr beat : Nat) (absorb : Option Nat)
  | holdNoticeOut (addr beat : Nat)
  | warmFailReport
  | draftSend (twinSection : Bytes) (beat : Nat)
  | collMismatch (ch groupA groupB sender : Nat)
  | collCount (ch group inst : Nat)
  | collAbort (ch group inst : Nat)
  | snoopRsp (line : Nat)
  | backInvalidate (line n : Nat)
  | cxlData (data : Bytes) (poison : Bool)
  | unsupportedRequest (fn : Nat)
  | commitError
  | mailbox (b : Binding) (resp : Bytes)
  | mctp (b : Binding) (cmd : String) (vals : List Nat)
  | pldmEvent (b : Binding) (sensor value : Nat)
  | spdm (doe : Bool) (cmd : String) (vals : List Nat)
  | spdmError (doe : Bool)
  | ideKm (cmd : String) (vals : List Nat)
  | jtag (ins : JtagInstr) (answered : Bool)
  | retry (link : Nat)
  | powerDown
  deriving DecidableEq, Repr

/-- A host access through CXL.mem that waits for a sector's repair, for the link or for the snoop filter (R428, R439, R440): a read, one
outside the apertures' objects, or a write. -/
inductive HostWait
  | read (addr : Nat) (err : ReadErr)
  | zeros
  | write (addr : Nat) (data : Bytes) (mask : List Bool) (err : ReadErr)
  deriving DecidableEq, Repr

/-- The GLB block, the MSI-X structures and the host link. `lens` are the lengths GLB_ADDRESS reports, `axes` those of the
settings store at cold start (R459, R474); `uio` holds (BASE_GIB, SIZE_GIB, VALID); `filter` holds
the lines the host caches, as sector and whether it may hold it modified, longest tracked first (R440); `ready` that the
module waits in management-only state for its host link alone (R480); `comp` the CXL component registers that were written, by offset (R430). -/
structure Glb where
  state     : ModState := .cold
  bootCode  : Nat := 0
  lastReset : Nat := 0
  address   : List Nat := [0, 0, 0, 0]
  lens      : List Nat := [0, 0, 0, 0]
  axes      : List Nat := [0, 0, 0, 0]
  up        : Bool := false
  l0p       : Bool := false
  rate      : Nat := 0
  width     : Nat := 0
  ideIo     : Bool := false
  ideCm     : Bool := false
  skid      : Bool := false
  recoveries : Nat := 0
  ideRequired : Bool := false
  limitMs   : Nat := 1000
  hdmBase   : Nat := 0
  hdmSize   : Nat := 0
  hdmOn     : Bool := false
  event     : Nat := 0
  irqEnable : Nat := 0
  uio       : List (Nat × Nat × Bool) := List.replicate 8 (0, 0, false)
  uioNow    : List (Nat × Nat × Bool) := List.replicate 8 (0, 0, false)
  aperReg   : List (Nat × Nat) := List.replicate 256 (0, 0)
  msixTable : List Nat := List.replicate 10 0
  msixMask  : List Bool := List.replicate 5 true
  msixPend  : List Bool := List.replicate 5 false
  macBad    : Bool := false
  filter    : List (Nat × Bool) := []
  hostWaits : List HostWait := []
  ready     : Bool := false
  comp      : List (Nat × Nat) := []
  deriving DecidableEq, Repr

/-- The last marker heard on a port: its depth, the offset measured, the leader it names, and its beat. -/
structure Heard where
  port   : Nat
  depth  : Nat
  theta  : Int
  leader : Nat
  beat   : Nat
  deriving DecidableEq, Repr

/-- The PICK block, the beat's progress and the leader's fields. Periods are in 10 µs, windows in µs; `coming` holds the
announced period and window with the beat that applies them (R70), `lastRise` the beat that announced the last increase (R71); `missed` the windows opened since the last
leader marker (R52); `evMark` the bits set since the last beat in the event
registers, and `flogMark` the FLOG count at it (R432); `epochs` the MAC epochs that came before the window opened and are not verified (R445); `warm` that the module joins after a warm start (R485). -/
structure Pick where
  counter   : Nat := 0
  phase     : Phase := .span
  period10  : Nat := 50
  windowUs  : Nat := 12
  pd10      : Nat := 50
  wd        : Nat := 12
  differs   : Bool := false
  late      : Nat := 0
  missed    : Nat := 0
  offsetPs  : Int := 0
  leader    : Option Nat := none
  self      : Bool := false
  depth     : Nat := 0xFF
  parent    : Option Nat := none
  seen      : List Heard := []
  request10 : Nat := 0
  step      : Nat := 0
  plan      : Nat := 0
  coming    : List (Nat × Nat × Nat) := []
  asked     : List (Nat × Nat) := []
  lastRise  : Option Nat := none
  sent      : Option (Nat × Nat × Nat × Option Nat) := none
  drop      : Option Nat := none
  event     : Nat := 0
  evMark    : List Nat := List.replicate 9 0
  flogMark  : Nat := 0
  wrote     : Bool := false
  sampling  : Bool := false
  joining   : Bool := false
  warm      : Bool := false
  epochs    : Nat := 0
  deriving DecidableEq, Repr

/-- Pair states (Table 13-1). -/
inductive PairState | unpaired | handshake | copying | sync | hold | recopy | absorbed | detached
  deriving DecidableEq, Repr

/-- The encoding of TWIN_STATE.STATE (Table 13-1). -/
def PairState.code : PairState → Nat
  | .unpaired => 0 | .handshake => 1 | .copying => 2 | .sync => 3 | .hold => 4 | .recopy => 5 | .absorbed => 6
  | .detached => 7

/-- DRAFT_STATUS.STATE (Table 3-15). -/
inductive DraftState | empty | loading | checking | checked | armed | rejected | missed | applied
  deriving DecidableEq, Repr

/-- The encoding of DRAFT_STATUS.STATE (Table 3-15). -/
def DraftState.code : DraftState → Nat
  | .empty => 0 | .loading => 1 | .checking => 2 | .checked => 3 | .armed => 4 | .rejected => 5 | .missed => 6
  | .applied => 7

/-- The REED block's registers outside the channels and groups. `losses` holds each lost address with its last beat and
absorb beat; `drops` each announced drop with the beat that applies it (R310); `holds` each address held by R485, with its last beat and
whether it has been heard again; `absorbed` the addresses absorbed since their loss, which no drop takes out (R310). -/
structure ReedRegs where
  lossWait  : Nat := 2048
  lossAddr  : Nat := 0
  lossKind  : Nat := 0
  lossBeat  : Nat := 0
  epochBeat : Nat := 0
  event     : Nat := 0
  losses    : List (Nat × Nat × Option Nat) := []
  drops     : List (Nat × Nat) := []
  holds     : List (Nat × Nat × Bool) := []
  absorbed  : List Nat := []
  deriving DecidableEq, Repr

/-- What a draft took the place of at CONFIG_APPLY, for a command that withdraws it before the commit step (R82, R83, R88): slots,
groups, frames, the REED block, the pair state, whether the twin's address was held here, and the drops of members. -/
structure Prior where
  slots  : List Slot
  groups : List Group
  frames : List Frame
  reed   : ReedRegs
  pair   : PairState
  holds  : Bool
  gone   : List (Nat × Nat)
  deriving DecidableEq, Repr

/-- The DRAFT block and the staged copy in the device reserve. `due` is that the armed draft passed the decision point of
this beat, `lapsed` that a quiesce abandoned its beat, `prior` what its application took the place of; `boot` a boot draft loaded and not yet applied
at the join beat (R97, R98). -/
structure DraftRegs where
  stageAddr  : Nat := 0
  stageLen   : Nat := 0
  applyBeat  : Nat := 0
  checkCode  : Nat := 0
  missReason : Nat := 0
  armedBeat  : Nat := 0
  state      : DraftState := .empty
  stagedId   : Nat := 0
  activeId   : Nat := 0
  activeBeat : Nat := 0
  whereSec   : Nat := 0xFF
  whereOff   : Nat := 0
  event      : Nat := 0
  copy       : Bytes := []
  readFail   : Option Nat := none
  from_      : Nat := 0
  len        : Nat := 0
  due        : Bool := false
  lapsed     : Bool := false
  prior      : Option Prior := none
  active     : Bytes := []
  boot       : Option Bytes := none
  deriving DecidableEq, Repr

/-- A ring's configuration registers; `stops` counts the writes of 0 to ENABLE (R535). -/
structure RingReg where
  base     : Nat := 0
  records  : Nat := 0
  client   : Nat := 0
  sizeLog2 : Nat := 0
  enable   : Bool := false
  stops    : Nat := 0
  deriving DecidableEq, Repr

/-- A ring's part of the journal: TAKEN, H and the window, newest first, as (SEQ, journal number, published status and
result) (R117, R118); `starts` is the ring's start, counted from the first, that it belongs to (R106), and `stops` the writes of 0 to ENABLE
before it. -/
structure RingJnl where
  taken  : Nat := 0
  h      : Option Nat := none
  window : List (Nat × Nat × Option (Nat × Nat)) := []
  starts : Nat := 0
  stops  : Nat := 0
  deriving DecidableEq, Repr

/-- ORD and JNL: ring registers, the journal, its seal status, the records an abandoned beat wrote (R66), and
the last quiesce record as (last completed beat, cause) (Table 2-5). -/
structure Ord where
  regs     : List RingReg := List.replicate 64 {}
  jnl      : List RingJnl := List.replicate 64 {}
  entries  : List JEntry := []
  sealed   : Nat := 0
  solo     : Bool := false
  lastSeal : Nat := 0
  written  : List (Nat × Nat × Bytes) := []
  quiesced : Option (Nat × Nat) := none
  deriving DecidableEq, Repr

/-- An entry of FLOG. -/
structure FlogEntry where
  code     : Nat
  ctx      : Nat
  cu       : Nat
  ring     : Nat
  subsumed : Bool
  pick     : Nat
  seq      : Nat
  detail   : Nat
  deriving DecidableEq, Repr

/-- FLOG: entries by index, the count written since cold start, and the reports that wait for their commit step (R135). -/
structure Flog where
  count   : Nat := 0
  entries : List (Nat × FlogEntry) := []
  waiting : List FlogEntry := []
  deriving DecidableEq, Repr

/-- What this module keeps of its twin (Table 13-5): its object and context tables, its rings' configuration and journal, its
journal entries with their orders (`arrived` those that came since the last seal deadline), its completion notices, the held items
stored, the orders released and not yet applied (`told` all those that the twin named as released, `closed` those that count as complete at
its loss, R398), the mirror's contents, the instance counts and group epochs, the last order
applied, that an item of the order being applied was a replay, and its draft's slots and quotas (R321, R391). Of the pick in progress,
until its commit step (R387): the mirror's shadow blocks, the items applied, the orders whose items all are, and that one of these
contained an update round, so that the digests are compared (R394). -/
structure Mirror where
  objs     : List (Nat × Obj) := []
  ctxs     : List Ctx := List.replicate 64 {}
  rings    : List RingReg := List.replicate 64 {}
  jnl      : List RingJnl := List.replicate 64 {}
  entries  : List JEntry := []
  notices  : List Notice := []
  items    : List HeldItem := []
  released : List Nat := []
  told     : List Nat := []
  closed   : List Nat := []
  arrived  : List JEntry := []
  shadow   : List HeldBlock := []
  taken    : List HeldItem := []
  finished     : List Nat := []
  compare  : Bool := false
  mem      : Memory := {}
  counts   : List InstCount := []
  groups   : List (Nat × Nat) := []
  last     : Nat := 0
  replayed : Bool := false
  slots    : List (Nat × Nat) := []
  quotas   : List (Nat × Nat) := []
  repairs  : List Repair := []
  deriving DecidableEq, Repr

/-- The owner's side of held items: those not released, each with its die; the block hashes they leave, by order and block;
the released block hashes, by block; the released digest after each order, and that before the first of them (R393, R394); the queues that
are full at the twin (R386); and the orders released, `tell` those of them that the next journal exchange names (R387). -/
structure HeldSide where
  items   : List (HeldItem × Nat) := []
  hashes  : List (Nat × Nat × Nat) := []
  rel     : List (Nat × Nat) := []
  digests : List (Nat × Nat) := []
  base    : Nat := 0
  full    : List Bool := List.replicate 4 false
  done    : List Nat := []
  tell    : List Nat := []
  deriving DecidableEq, Repr

/-- The TWIN block, the pair's progress and the mirror. `holds` is that the twin's address is held here (from the absorb beat
to the handback beat); `role` that of the hello frames sent; `drainDue` that a DRAIN waits for its beat, and `drain` the image being drained; `syncFrom` the
first pick that seals on both twins (R383); `recopying` the objects being re-copied onto this module and `recopied` that the re-copy is complete (R395);
`resume` that the twin's resume hello has come and the next beat returns the pair to SYNC (R397);
`portUp` that a selvedge port came up since the last snapshot (R380), `first` that step 12 of a cold start is due; `passed` what the decision point brought. -/
structure Twin where
  state     : PairState := .unpaired
  pairFail  : Nat := 0
  replacing : Bool := false
  suspect   : Bool := false
  holds     : Bool := false
  role      : Nat := 0
  beat      : Nat := 0
  holdMs    : Nat := 4000
  lastDigest : Nat := 0
  drainAddr : Nat := 0
  drainLen  : Nat := 0
  drainBytes : Nat := 0
  drainState : Nat := 0
  drainDue  : Bool := false
  drain     : Option (Memory × List (Nat × Obj)) := none
  event     : Nat := 0
  ctxMap    : List (Option Nat) := List.replicate 64 none
  adopt     : List (Option Nat) := List.replicate 64 none
  adoptNo   : List Nat := List.replicate 64 0
  own       : HeldSide := {}
  matched   : Bool := false
  syncFrom  : Nat := 0
  copyDone  : Bool := false
  detected  : Bool := false
  recopying : List Nat := []
  recopied  : Bool := false
  resume    : Bool := false
  lastBeat  : Nat := 0
  absorbAt  : Option Nat := none
  handbackAt : Option Nat := none
  detachAt  : Option Nat := none
  twinDetach : Bool := false
  pairAt    : Bool := false
  portUp    : Bool := false
  first     : Bool := false
  dropped   : Bool := false
  passed    : Option (TwinTables × List CopiedBlock) := none
  mirror    : Mirror := {}
  deriving DecidableEq, Repr

/-- Port states (Table 16-3). -/
inductive PortState | down | train | identify | measure | up | keepalive | held | failed
  deriving DecidableEq, Repr

/-- The encoding of OPT_PORT.STATE (Table 16-3). -/
def PortState.code : PortState → Nat
  | .down => 0 | .train => 1 | .identify => 2 | .measure => 3 | .up => 4 | .keepalive => 5 | .held => 6 | .failed => 7

/-- A frame held in a replay buffer (R453): its sequence number, its bytes, how often it was sent, and the port and
sequence number it came in by, when it is a transit frame. -/
structure Replay where
  seq   : Nat
  bytes : Bytes
  sends : Nat
  up    : Option (Nat × Nat)
  deriving DecidableEq, Repr

/-- One optical port. -/
structure Port where
  state     : PortState := .down
  lanes     : Nat := 0
  lastFault : Nat := 0
  neighbor  : Nat := 0
  nbPort    : Nat := 0
  resends   : Nat := 0
  fecFixed  : Nat := 0
  latency   : Nat := 0
  disabled  : Bool := false
  disabling : Bool := false
  useFrom   : Nat := 0
  txSeq     : Nat := 0
  rxSeq     : Nat := 0
  replay    : List Replay := []
  deriving DecidableEq, Repr

/-- Laser cartridge states (OPT_LASER.CART). -/
inductive CartState | absent | warming | active | failed | safe
  deriving DecidableEq, Repr

/-- The encoding of OPT_LASER.CART. -/
def CartState.code : CartState → Nat
  | .absent => 0 | .warming => 1 | .active => 2 | .failed => 3 | .safe => 4

/-- The OPT block: ports, cartridges, detour; `stranded` the frames that no port can carry now, each with the port and number a transit
frame came in by (R453, R455). -/
structure Opt where
  ports    : List Port := List.replicate 18 {}
  carts    : List CartState := List.replicate 6 .absent
  warm     : List Nat := []
  detour   : Option Nat := none
  event    : Nat := 0
  stranded : List (Bytes × Option (Nat × Nat)) := []
  deriving DecidableEq, Repr

/-- The MEM block's registers that are not computed from objects. -/
structure MemRegs where
  event  : Nat := 0
  select : Nat := 0
  deriving DecidableEq, Repr

/-- An entry of INTEG_LOG. -/
structure IntegEntry where
  outcome : Nat
  source  : Nat
  tag     : Nat
  stack   : Nat
  sector  : Nat
  beat    : Nat
  deriving DecidableEq, Repr

/-- The INTEG block; `cursor` is each die's scrub position, and `wraps` the passes that each die has ended. -/
structure Integ where
  rate     : Nat := 344
  passes   : Nat := 0
  lastS    : Nat := 0
  detect   : Nat := 0
  twin     : Nat := 0
  recompute : Nat := 0
  poison   : Nat := 0
  stFailed : Bool := false
  stDone   : Bool := false
  stChecker : Nat := 0
  event    : Nat := 0
  stackDet : List Nat := List.replicate 24 0
  onDie    : List Nat := List.replicate 24 0
  link     : List Nat := List.replicate 8 0
  linkFail : List Nat := List.replicate 8 0
  logCount : Nat := 0
  log      : List (Nat × IntegEntry) := []
  cursor   : List Nat := List.replicate 4 0
  wraps    : List Nat := List.replicate 4 0
  deriving DecidableEq, Repr

/-- A mailbox command accepted and waiting: its source, tag, opcode and payload. -/
structure MboxCmd where
  src     : MboxSource
  tag     : Nat
  opcode  : Nat
  payload : Bytes
  deriving DecidableEq, Repr

/-- The MGT block, the latest snapshot, and the commands waiting: for a beat (`waiting`), in a beat for the draft to be applied
first (`due`, R43), and for flash (`longs`). `latchAt` is the beat that latches the target step (R515); `coolant` that the coolant
condition of Table 18-8 was reported; `harnessNow` the harnesses to be reset at this beat's commit step, `harnessDue` those whose
write-back is under way (R487). -/
structure Mgt where
  reqLen    : Nat := 0
  reqTag    : Nat := 0
  reqOp     : Nat := 0
  reqData   : Bytes := List.replicate 4096 0
  detail    : Nat := 0
  respLen   : Nat := 0
  tag       : Nat := 0
  result    : Nat := 0
  status    : Nat := 0
  respBeat  : Nat := 0
  respData  : Bytes := List.replicate 4096 0
  event     : Nat := 0
  limitW    : Nat := 3200
  inputW    : Nat := 0
  cause     : Nat := 0
  cap       : Nat := 0
  target    : Nat := 0
  waiting   : List MboxCmd := []
  due       : List MboxCmd := []
  longs     : List MboxCmd := []
  coolant   : Bool := false
  snap      : Readings := { vals := List.replicate 23 0, pIn4 := 0, dieP4 := 0 }
  snapBeat  : Nat := 0
  latchAt   : Option Nat := none
  harnessNow : List Nat := []
  harnessDue : List Nat := []
  deriving DecidableEq, Repr

/-- Two banks of a flash structure (R472): the sequence number and content of each valid bank. -/
structure Banks where
  a : Option (Nat × Bytes) := none
  b : Option (Nat × Bytes) := none
  deriving DecidableEq, Repr

/-- The serial flash (Table 17-3) and RPMC counter 0. `draftFresh` is that the boot draft was written since the draft in
force was applied (R98); `verdict` what R507 found of set A since it was written; `writing` that a set write is in progress,
`copying` that set A is being copied to set B; `staged` the image set gathered in recovery; `trainRec` the stacks with a training
record. -/
structure Flash where
  boot       : Banks := {}
  settings   : Banks := {}
  draft      : Banks := {}
  setA       : Bytes := []
  setB       : Bytes := []
  rpmc       : Nat := 0
  draftFresh : Bool := false
  verdict    : Option Nat := none
  staged     : Bytes := []
  writing    : Bool := false
  copying    : Bool := false
  pendDraft  : Option Bytes := none
  pendKey    : Option (Nat × Bytes) := none
  trainRec   : List Nat := []
  deriving DecidableEq, Repr

/-- The running firmware: the set booted, the versions of its three images, its security version, the measurement of its Genentand image,
which a warm activation keeps (Table 18-3), the count before
step 2 (R478, R479), that this cold start has not reached operational state yet, and that it has; `activate` that the next warm
start takes the replaced images (R508). -/
structure Fw where
  set      : Nat := 0
  genVer   : Nat := 0
  seqVer   : Nat := 0
  dieVer   : Nat := 0
  secVer   : Nat := 0
  manifest : Bytes := []
  genHash  : Bytes := []
  count    : Nat := 0
  coldBoot : Bool := false
  opened   : Bool := false
  akErased : Bool := false
  activate : Bool := false
  deriving DecidableEq, Repr

/-- One 48 V input (R523). -/
structure Input where
  inRange   : Bool := false
  seated    : Bool := true
  qualified : Bool := false
  charged   : Bool := false
  connected : Bool := false
  deriving DecidableEq, Repr

/-- Power: the inputs, power applied, and that both inputs failed (R517). -/
structure Power where
  inputs : List Input := List.replicate 2 {}
  on     : Bool := false
  lost   : Bool := false
  smbalert : Bool := false
  rails  : Bool := false
  deriving DecidableEq, Repr

/-- Session state of one SPDM responder. -/
inductive SpdmState | none | negotiated | handshake | session
  deriving DecidableEq, Repr

/-- MCTP, PLDM, SPDM, IDE key management, debug and JTAG. -/
structure Proto where
  eids     : List Nat := [0, 0]
  tids     : List Nat := [0, 0]
  receiver : List (Option Nat) := [none, none]
  update   : Nat := 0
  spdm     : List SpdmState := [.none, .none]
  ideKeys  : List (Option Bytes) := [none, none]
  ideOn    : List Bool := [false, false]
  straps   : Nat := 0
  nonce    : Option Nat := none
  scope    : Nat := 0
  lastSens : List Nat := [0, 0, 0, 0]
  deriving DecidableEq, Repr

/-- Why a command stops with a fault. No command of this model does: every broken obligation of the spec has its
consequence stated there or confined by R2. Safe. -/
inductive Fault
  /-- Reserved for behaviour that R3 leaves unspecified; raised by no command. Safe. -/
  | unspecified
  deriving DecidableEq, Repr

/-- Why a command is refused: none is. -/
inductive Refusal
  /-- An arm that has no meaning yet; raised by Machine/Dispatch.lean alone. Safe. -/
  | notModelled (mnemonic : String)
  deriving DecidableEq, Repr

/-- The parts of the state outside `core` that the steps of a beat window change. -/
structure Aside where
  regs  : List RingReg
  glb   : Glb
  pick  : Pick
  draft : DraftRegs
  flog  : Flog
  twin  : Twin
  opt   : Opt
  reed  : ReedRegs
  memr  : MemRegs
  integ : Integ
  mgt   : Mgt
  deriving DecidableEq, Repr

/-- The state of the block. `core` is the working state of the pick, `committed` what the last completed beat left;
`undo` holds, newest first, what stood before and after each step of the open beat window, for an abandoned beat (R41). -/
structure State where
  pending   : List Instr := []
  out       : List Out := []
  glb       : Glb := {}
  pick      : Pick := {}
  draft     : DraftRegs := {}
  ord       : Ord := {}
  flog      : Flog := {}
  twin      : Twin := {}
  opt       : Opt := {}
  reed      : ReedRegs := {}
  memr      : MemRegs := {}
  integ     : Integ := {}
  mgt       : Mgt := {}
  flash     : Flash := {}
  fw        : Fw := {}
  power     : Power := {}
  proto     : Proto := {}
  core      : Core := {}
  committed : Core := {}
  undo      : List (Aside × Aside) := []
  freeCtr   : Nat := 0
  deriving DecidableEq, Repr

/-- The block right at the beginning of a cold start (R10): every register at its heading's value, memory with nothing
written, nothing pending. -/
def State.reset : State := {}

/-- What a command answers. -/
abbrev Res := Host.Outcome State Fault Refusal

end Sys2Proof.Machine
end

