-- ==== Sys2Proof/Machine/Ops.lean ====
section
/-! DEFINITION. Sys2Proof/Machine/Ops.lean: the named operations over the state that the commands share: outputs, event
bits, logs, host memory, contexts, orders and tasks. -/

namespace Sys2Proof.Machine

/-- An output leaves the module. -/
def State.emit (s : State) (o : Out) : State := { s with out := s.out ++ [o] }

/-- Several outputs leave the module in order. -/
def State.emits (s : State) (os : List Out) : State := { s with out := s.out ++ os }

/-- A bit of an event register is set (R100). -/
def orBit (v bit : Nat) : Nat := Nat.lor v (2 ^ bit)

/-- A bit of event register `i` was set since the last beat (R432): 0 to 8 are GLB, PICK, TWIN, REED, MEM, INTEG, OPT, MGT, DRAFT. -/
def State.noteEvent (s : State) (i bit : Nat) : State :=
  { s with pick := { s.pick with evMark := modifyAt s.pick.evMark i fun v => orBit v bit } }

/-- GLB_EVENT. -/
def State.glbEvent (s : State) (bit : Nat) : State :=
  ({ s with glb := { s.glb with event := orBit s.glb.event bit } }).noteEvent 0 bit

/-- PICK_EVENT. -/
def State.pickEvent (s : State) (bit : Nat) : State :=
  ({ s with pick := { s.pick with event := orBit s.pick.event bit } }).noteEvent 1 bit

/-- DRAFT_EVENT. -/
def State.draftEvent (s : State) (bit : Nat) : State :=
  ({ s with draft := { s.draft with event := orBit s.draft.event bit } }).noteEvent 8 bit

/-- TWIN_EVENT. -/
def State.twinEvent (s : State) (bit : Nat) : State :=
  ({ s with twin := { s.twin with event := orBit s.twin.event bit } }).noteEvent 2 bit

/-- OPT_EVENT. -/
def State.optEvent (s : State) (bit : Nat) : State :=
  ({ s with opt := { s.opt with event := orBit s.opt.event bit } }).noteEvent 6 bit

/-- REED_EVENT. -/
def State.reedEvent (s : State) (bit : Nat) : State :=
  ({ s with reed := { s.reed with event := orBit s.reed.event bit } }).noteEvent 3 bit

/-- MEM_EVENT. -/
def State.memEvent (s : State) (bit : Nat) : State :=
  ({ s with memr := { s.memr with event := orBit s.memr.event bit } }).noteEvent 4 bit

/-- INTEG_EVENT. -/
def State.integEvent (s : State) (bit : Nat) : State :=
  ({ s with integ := { s.integ with event := orBit s.integ.event bit } }).noteEvent 5 bit

/-- MGT_EVENT. -/
def State.mgtEvent (s : State) (bit : Nat) : State :=
  ({ s with mgt := { s.mgt with event := orBit s.mgt.event bit } }).noteEvent 7 bit

/-- An entry is written to FLOG, over the oldest once 256 are held (R135). -/
def State.flogWrite (s : State) (e : FlogEntry) : State :=
  { s with flog :=
    { s.flog with
      count := s.flog.count + 1
      entries := (s.flog.count % 256, e) :: s.flog.entries.filter (·.1 ≠ s.flog.count % 256) } }

/-- The entry of a report, a module fault or an emergency, with no context (R409, R466, R519, R533); between a commit step and the next
span the pick is still the one that ends. -/
def State.reportEntry (s : State) (code detail : Nat) : FlogEntry :=
  let pick := if s.pick.phase = .committed then s.pick.counter - 1 else s.pick.counter
  { code := code, ctx := 0, cu := 0, ring := 0x7F, subsumed := false, pick := pick, seq := 0, detail := detail }

/-- The reports that wait are written (R135). -/
def State.flushReports (s : State) : State :=
  let s1 := s.flog.waiting.foldl State.flogWrite s
  { s1 with flog := { s1.flog with waiting := [] } }

/-- The working core changed. -/
def State.withCore (s : State) (f : Core → Core) : State := { s with core := f s.core }

/-- Operational state. -/
def State.operational (s : State) : Bool := s.glb.state = .operational

/-- The parts of the state that a beat window's steps change outside `core`. -/
def State.aside (s : State) : Aside := ⟨s.ord.regs, s.glb, s.pick, s.draft, s.flog, s.twin, s.opt, s.reed, s.memr, s.integ, s.mgt⟩

/-- The host link is up for the Exral: in L0, at x4 or wider (R426), with both streams where IDE is required (R444), and no
MAC failure outstanding (R445). -/
def State.linkUp (s : State) : Bool :=
  s.glb.up && 4 ≤ s.glb.width && (!s.glb.ideRequired || (s.glb.ideIo && s.glb.ideCm)) && !s.glb.macBad

/-- The pick clock runs and beat windows open: in operational state, in standby (R512), and while only the host link is
waited for (R480). -/
def State.beating (s : State) : Bool := s.operational || s.glb.state = .standby || s.glb.ready

/-- A step of the beat window: what it changed outside `core` is noted, so that an abandoned beat discards it (R41). -/
def State.beatStep (s : State) (f : State → State) : State :=
  let t := f s
  if t.beating then { t with undo := (s.aside, t.aside) :: t.undo } else t

/-- A report is logged at the commit step of its pick (R135), or at once where no pick runs. -/
def State.report (s : State) (code detail : Nat) : State :=
  let e := s.reportEntry code detail
  if s.beating then { s with flog := { s.flog with waiting := s.flog.waiting ++ [e] } } else s.flogWrite e

/-- The host link goes down in operational state, or is handled as down from now on (R426, R428, R444, R445): that is reported. -/
def State.noteDown (s t : State) : State :=
  if s.operational && t.operational && s.linkUp && !t.linkUp then (t.report 0x0D20 0).glbEvent 1 else t

/-- A `PWR` report: logged, and MGT_EVENT.PWR_FAULT set. -/
def State.pwrReport (s : State) (code detail : Nat) : State := (s.report code detail).mgtEvent 2

/-- The sectors of a range that the host caches, or, for a read, may hold modified (R440). -/
def State.tracked (s : State) (a n : Nat) (read : Bool) : List Nat :=
  (s.glb.filter.filter fun e => a / 64 ≤ e.1 && 64 * e.1 < a + n && (!read || e.2)).map Prod.fst

/-- The current operation needs these lines snooped, or these blocks within reach, before it can go on. -/
def State.noteSnoop (s : State) (lines : List Nat) : State :=
  if lines.isEmpty then s else { s with core := { s.core with need := s.core.need ++ lines } }

/-- Lines in ascending order as runs of consecutive ones, of four at most. -/
def lineRuns (lines : List Nat) : List (Nat × Nat) :=
  (lines.foldl (fun (l : List (Nat × Nat)) x => match l with
    | (a, n) :: rest => if x = a + n && n < 4 then (a, n + 1) :: rest else (x, 1) :: l
    | [] => [(x, 1)]) []).reverse

/-- Back-invalidation snoops leave for the lines that have none out, up to four consecutive lines in one BISnpInvBlk (R440). -/
def State.snoop (s : State) (lines : List Nat) : State :=
  let fresh := sortKey id (lines.eraseDups.filter fun l => !s.core.snoops.contains l && s.glb.filter.any (·.1 = l))
  let s1 := s.emits ((lineRuns fresh).map fun r => .backInvalidate r.1 r.2)
  { s1 with core := { s1.core with snoops := s1.core.snoops ++ fresh } }

/-- An access waits for the snoops of the lines it needs (R440), or for the host link (R428). -/
def State.snoopWait (s : State) (lines : List Nat) (w : Wait) : State :=
  let s1 := s.snoop lines
  if s1.core.waits.contains w then s1 else { s1 with core := { s1.core with waits := s1.core.waits ++ [w] } }

/-- What an operation left of itself: nothing to wait for. -/
def State.unhindered (r : State) : Bool := r.core.need.isEmpty && !r.core.starved

/-- An operation that met a hindrance waits: for lines that the host caches, for a block behind a lost host link, or for a shadow block,
which sets MEM_EVENT.SHADOW_EMPTY (R335, R428, R440). -/
def State.waitFor (s r : State) (w : Wait) : State :=
  let s1 := s.snoopWait r.core.need w
  if r.core.starved then s1.memEvent 2 else s1

/-- An operation begins with nothing to wait for. -/
def State.fresh (s : State) : State := { s with core := { s.core with need := [], starved := false } }

/-- An operation runs whole, or, where it meets a hindrance, waits without effect (R335, R428, R440). -/
def State.orWait (s : State) (w : Wait) (f : State → State) : State :=
  let r := f s.fresh
  if r.unhindered then r else s.waitFor r w

/-- The byte of host memory at an address, if a run covers it. -/
def hostByte (h : HostView) (a : Nat) : Option Byte :=
  h.runs.findSome? fun r => if r.1 ≤ a then r.2[a - r.1]? else none

/-- `n` bytes of host memory; none when the read fails (R436). -/
def hostRead (h : HostView) (a n : Nat) : Option Bytes := (List.range n).mapM fun i => hostByte h (a + i)

/-- Data is written to host memory through CXL.cache (R433): full lines with ItoMWr, parts of lines with WrCur. -/
def State.hostPut (s : State) (a : Nat) (data : Bytes) : State :=
  let head := min data.length ((64 - a % 64) % 64)
  let full := (data.length - head) / 64 * 64
  let put := fun (req : CacheReq) (k n : Nat) => if n = 0 then [] else [Out.hostWrite req (a + k) ((data.drop k).take n)]
  s.emits (put .wrCur 0 head ++ put .itoMWr head full ++ put .wrCur (head + full) (data.length - head - full))

/-- A range of host memory is read through CXL.cache, with RdCurr (R433). -/
def State.hostFetch (s : State) (a n : Nat) : State := s.emit (.hostRead .rdCurr a n)

/-- Packs a torus address as R451 does. -/
def packAddr (a : List Nat) : Nat := a.getD 0 0 * 512 + a.getD 1 0 * 64 + a.getD 2 0 * 8 + a.getD 3 0

/-- Unpacks a packed torus address. -/
def unpackAddr (v : Nat) : List Nat := [bits v 11 9, bits v 8 6, bits v 5 3, bits v 2 0]

/-- An address lies in a group by its masked axes (R79). -/
def GroupDef.holds (g : GroupDef) (addr : Nat) : Bool :=
  let a := unpackAddr addr
  (List.range 4).all fun x =>
    let ax := g.axes.getD x (0, 1, 1)
    !bitOf g.mask x || (List.range ax.2.1).any fun i => ax.1 + i * ax.2.2 = a.getD x 0

/-- The packed address of the twin position: bit 0 of D differs. -/
def twinAddr (v : Nat) : Nat := Nat.xor v 1

/-- The node index of an address (R30). -/
def nodeIndex (lens a : List Nat) : Nat :=
  ((a.getD 0 0 * lens.getD 1 0 + a.getD 1 0) * lens.getD 2 0 + a.getD 2 0) * (lens.getD 3 0 / 2) + a.getD 3 0 / 2

/-- This module's packed address. -/
def State.myAddr (s : State) : Nat := packAddr s.glb.address

/-- The geometry found at link bring-up (R459): none until the first fabric port is UP. -/
def State.geometry (s : State) : List Nat := s.glb.lens

/-- The context at an index. -/
def Core.ctx (c : Core) (i : Nat) : Ctx := c.ctxs.getD i {}

/-- A context changed. -/
def Core.setCtx (c : Core) (i : Nat) (f : Ctx → Ctx) : Core := { c with ctxs := modifyAt c.ctxs i f }

/-- The handle of the context at an index (R121). -/
def Ctx.handle (x : Ctx) (i : Nat) : Nat := x.inc * 256 + i

/-- The handle of the context at an index (R121). -/
def Core.handle (c : Core) (i : Nat) : Nat := (c.ctx i).handle i

/-- The live context a handle names: its index in range, [7:6] zero and its incarnation current (R121, R534). -/
def Core.ctxOf (c : Core) (h : Nat) : Option Nat :=
  if h ≠ 0 ∧ bits h 7 6 = 0 ∧ (c.ctx (h % 64)).inc = h / 256 ∧ (c.ctx (h % 64)).state ≠ .free then some (h % 64) else none

/-- The order with a journal number. -/
def Core.order (c : Core) (j : Nat) : Option OrderSt := c.orders.find? (·.jno = j)

/-- An order changed. -/
def Core.setOrder (c : Core) (j : Nat) (f : OrderSt → OrderSt) : Core :=
  { c with orders := c.orders.map fun o => if o.jno = j then f o else o }

/-- A task of an order. -/
def Core.task (c : Core) (t : TaskRef) : Option Task := (c.order t.jno).bind fun o => o.tasks[t.idx]?

/-- A task changed. -/
def Core.setTask (c : Core) (t : TaskRef) (f : Task → Task) : Core :=
  c.setOrder t.jno fun o => { o with tasks := modifyAt o.tasks t.idx f }

/-- The context index of a task's order. -/
def Core.taskCtx (c : Core) (t : TaskRef) : Option Nat := (c.order t.jno).bind fun o => c.ctxOf o.ctx

/-- The running tasks. -/
def Core.running (c : Core) : List (TaskRef × Task) :=
  c.orders.flatMap fun o =>
    (o.tasks.zipIdx.filter fun p => p.1.phase = .running).map fun p => (⟨o.jno, p.2⟩, p.1)

/-- The result of an order is determined (its completion follows by R66). -/
def Core.complete (c : Core) (j status result beat : Nat) : Core :=
  c.setOrder j fun o =>
    if o.status.isSome then o else { o with applied := true, status := some (status, result), doneAt := beat }

/-- No beat before beat or pick `n` has published the order's completion: it has not completed for what begins then (R123, R319). -/
def OrderSt.openAt (o : OrderSt) (n : Nat) : Bool := o.published.elim true (n ≤ ·)

/-- The order's completion is not published yet, nor due at beat `n` (R66). -/
def OrderSt.pendingAt (o : OrderSt) (n : Nat) : Bool := o.status.isNone || n ≤ o.doneAt

/-- The accepted orders of the same context before an order. -/
def Core.earlier (c : Core) (o : OrderSt) : List OrderSt := c.orders.filter fun p => p.ctx = o.ctx && p.acc < o.acc

/-- An earlier order of the context holds an order's tasks back, by what makes an order uncompleted: any where the order has FENCE (R107),
and an object order that acts as if FENCE were set in both directions (R319). -/
def Core.heldBack (c : Core) (o : OrderSt) (unfinished : OrderSt → Bool) : Bool :=
  (c.earlier o).any fun p => unfinished p && (bitOf (byteAt o.bytes 1) 0 || (0x21 ≤ p.opcode && p.opcode ≤ 0x24))

/-- An order of a context in FAULTED that a `CTX_RESET` accepted before it has yet to reset: it is validated once that reset is done
(R488, R534). -/
def Core.behindReset (c : Core) (o : OrderSt) : Bool :=
  (c.orders.any fun p => p.ctx = o.ctx && p.opcode = 0x03 && p.acc < o.acc && p.status.isNone)
    && (c.ctx (o.ctx % 64)).state = .faulted

/-- The engine die of a CU. -/
def cuDie (cu : Nat) : Nat := cu / 128

/-- The region of a CU. -/
def cuRegion (cu : Nat) : Nat := cu / 32

/-- The unfinished tasks of an order are aborted. -/
def OrderSt.abortTasks (o : OrderSt) : OrderSt :=
  { o with tasks := o.tasks.map fun t => if t.phase = .ended then t else { t with phase := .aborted } }

/-- In place of a journal number: a fault that no order's task raised. -/
def noOrder : Nat := 2 ^ 128

/-- A context's running tasks are aborted (Table 4-9). -/
def Core.abortCtx (c : Core) (ctx : Nat) : Core :=
  { c with orders := c.orders.map fun o =>
      if c.ctxOf o.ctx = some ctx then
        { o with tasks := o.tasks.map fun t => if t.phase = .running then { t with phase := .aborted } else t }
      else o }

/-- A context fault is raised (R130): it joins the pick's faults, the context's running tasks are aborted, and it
admits none. A device address in its detail is that of its own module (R399). -/
def Core.raiseFault (c : Core) (f : CtxFault) : Core :=
  { (c.abortCtx f.ctx) with faults := c.faults ++ [{ f with detail := f.detail % 2 ^ 64 }] }

/-- The same at the current cycle, the order that holds the task named by its journal number. -/
def Core.raise (c : Core) (ctx code cu jno detail : Nat) : Core :=
  c.raiseFault { ctx := ctx, code := code, cu := cu, cycle := c.cycle, jno := jno, detail := detail }

/-- The same against the task that caused it. -/
def Core.raiseTask (c : Core) (t : TaskRef) (code detail : Nat) : Core :=
  match c.taskCtx t with
  | none => c
  | some x =>
    let k := c.task t
    c.raiseFault
      { ctx := x, code := code, cu := k.elim 0 Task.cu, cycle := c.cycle, jno := t.jno, detail := detail, idx := t.idx
        arrayB := k.elim false fun k => k.unit = some .arrayB }

/-- A context has raised a fault in this pick. -/
def Core.faulting (c : Core) (ctx : Nat) : Bool := c.faults.any (·.ctx = ctx)

/-- A context has raised a fault at another cycle of the pick than the current one: what starts at the same cycle has started (R131,
R170). -/
def Core.stopped (c : Core) (ctx : Nat) : Bool := c.faults.any fun f => f.ctx = ctx && f.cycle ≠ c.cycle

/-- A fault of a context that no start at the current cycle raised: none of its tasks starts any more (Table 4-9). What starts at one cycle
starts together (R131, R170). -/
def Core.admitsNone (c : Core) (ctx : Nat) : Bool :=
  let starting := fun (f : CtxFault) => f.cycle = c.cycle && (c.task ⟨f.jno, f.idx⟩).elim false fun k => k.unit.isSome && k.startCycle = c.cycle
  c.faults.any fun f => f.ctx = ctx && !starting f

/-- A task can still raise a fault at the current cycle: it runs, or a fault of its context at this very cycle has aborted it and it has
raised none itself (R131). -/
def Core.active (c : Core) (t : TaskRef) : Bool :=
  match c.task t, c.taskCtx t with
  | some k, some x => k.phase = .running
      || (k.phase = .aborted && k.unit.isSome && c.faulting x && !c.stopped x && !(c.faults.any fun f => f.jno = t.jno && f.idx = t.idx))
  | _, _ => false

/-- A task runs. -/
def Core.live (c : Core) (t : TaskRef) : Bool := (c.task t).elim false fun k => k.phase = .running

/-- The object with an index. -/
def Core.obj (c : Core) (i : Nat) : Option Obj := (c.objs.find? (·.1 = i)).map Prod.snd

/-- An object changed. -/
def Core.setObj (c : Core) (i : Nat) (f : Obj → Obj) : Core :=
  { c with objs := c.objs.map fun p => if p.1 = i then (p.1, f p.2) else p }

/-- A byte argument of an order. -/
def OrderSt.arg (o : OrderSt) (off n : Nat) : Nat := fieldAt o.bytes off n

/-- The live object of a context with an ID. -/
def Core.objById (c : Core) (x id : Nat) : Option (Nat × Obj) := c.objs.find? fun p => p.2.id = id ∧ p.2.ctx = x

/-- The draft slot of a context. -/
def Core.slotOf (c : Core) (ctx : Nat) : Option SlotDef := c.draft.bind fun d => d.slot (c.ctx ctx).slot

/-- The KV pool of a context. -/
def Core.pool (c : Core) (ctx : Nat) : Option KvPool := c.pools.find? (·.ctx = ctx)

/-- A pool changed. -/
def Core.setPool (c : Core) (ctx : Nat) (f : KvPool → KvPool) : Core :=
  { c with pools := c.pools.map fun p => if p.ctx = ctx then f p else p }

/-- Clock steps in MHz (PICK_CLOCK.STEP): 1,800, 1,600, 1,400, 1,200. -/
def stepMhz (n : Nat) : Nat := 1800 - 200 * n

/-- Task-span cycles of a pick: (P − W) × f (R54). -/
def spanCycles (period10 windowUs step : Nat) : Nat := (10 * period10 - windowUs) * stepMhz step

/-- The stretched period for a step, in 10 µs (R69). -/
def stretched10 (pd10 wd plan step : Nat) : Nat :=
  min 400 (ceilDiv ((10 * pd10 - wd) * stepMhz plan + wd * stepMhz step) (10 * stepMhz step))

/-- A record's place in a list by position, replaced. -/
def setAt {α : Type} (l : List α) (i : Nat) (v : α) : List α := l.set i v

end Sys2Proof.Machine
end

