-- ==== Sys2Proof/Machine/Routing.lean ====
section
/-! DEFINITION. Sys2Proof/Machine/Routing.lean: optical ports as their frames see them (16_optical.md): frames, acknowledgements, the
routing of flows and the replay buffers (R451 to R457). -/

namespace Sys2Proof.Machine

/-- A port. -/
def State.port (s : State) (p : Nat) : Port := s.opt.ports.getD p {}

/-- A port changed. -/
def State.setPort (s : State) (p : Nat) (f : Port → Port) : State :=
  { s with opt := { s.opt with ports := modifyAt s.opt.ports p f } }

/-- The codewords that a port's FEC corrected are counted (R374). -/
def State.noteFec (s : State) (p n : Nat) : State := s.setPort p fun k => { k with fecFixed := (k.fecFixed + n) % 2 ^ 32 }

/-- A frame (R451): header, payload and CRC-32C. -/
def frameBytes (typ traffic seq dest src ack : Nat) (payload : Bytes) : Bytes :=
  let b := leBytes 1 typ ++ leBytes 1 traffic ++ leBytes 2 (payload.length / 64) ++ leBytes 4 seq ++ leBytes 2 dest
    ++ leBytes 2 src ++ leBytes 4 ack ++ payload
  b ++ leBytes 4 (crc32c b)

/-- The sequence numbers of the frames that came in by a port and are not acknowledged: transit frames whose next hop has not
acknowledged them (R453), and data frames that have found no credit of their channel (R284). -/
def State.heldFrom (s : State) (p : Nat) : List Nat :=
  let mine := fun (up : Option (Nat × Nat)) => up.bind fun e => if e.1 = p then some e.2 else none
  (s.opt.ports.flatMap fun q => q.replay.filterMap fun r => mine r.up) ++ s.opt.stranded.filterMap (fun e => mine e.2)
    ++ s.core.chans.flatMap fun k => k.excess.filterMap fun e => if e.port = p then some e.seq else none

/-- The `ACK` field of a port: one past the last frame received in order (Table 16-2), but not past a frame that is still held (R453). -/
def State.ackField (s : State) (p : Nat) : Nat :=
  let rx := (s.port p).rxSeq
  let behind := (s.heldFrom p).map fun n => (rx + 2 ^ 32 - n) % 2 ^ 32
  (rx + 2 ^ 32 - behind.foldl max 0) % 2 ^ 31

/-- A frame of the port's own kind leaves: idle or ack, not sequenced; `nak` marks a NAK. -/
def State.sendControl (s : State) (p typ : Nat) (nak : Bool) : State :=
  let k := s.port p
  s.emit (.frame p (frameBytes typ 34 k.txSeq k.neighbor s.myAddr (s.ackField p + if nak then 2 ^ 31 else 0) []))

/-- A sequence number lies below an acknowledged one. -/
def seqBelow (seq ack : Nat) : Bool := (ack + 2 ^ 31 - seq % 2 ^ 31) % 2 ^ 31 - 1 < 2 ^ 30 && (ack + 2 ^ 31 - seq % 2 ^ 31) % 2 ^ 31 ≠ 0

/-- The neighbor one step along an axis, up or down. -/
def stepAddr (lens : List Nat) (a : List Nat) (axis : Nat) (up : Bool) : List Nat :=
  let l := lens.getD axis 1
  let x := a.getD axis 0
  setAt a axis (if up then (x + 1) % l else (x + l - 1) % l)

/-- The shorter direction along an axis, up on a tie (R454). -/
def goesUp (lens a b : List Nat) (axis : Nat) : Bool :=
  let l := lens.getD axis 1
  let d := (b.getD axis 0 + l - a.getD axis 0) % l
  d ≤ l - d

/-- The addresses a path visits along one axis, the first left out. -/
def axisPath (lens b : List Nat) (axis : Nat) (up : Bool) : Nat → List Nat → List (List Nat)
  | 0, _ => []
  | fuel + 1, a =>
    if a.getD axis 0 = b.getD axis 0 then [] else
    let n := stepAddr lens a axis up
    n :: axisPath lens b axis up fuel n

/-- The path from `a` to `b` over some axes in order (R454). -/
def pathOver (lens b : List Nat) : List Nat → List Nat → List (List Nat)
  | [], _ => []
  | x :: l, a =>
    let p := axisPath lens b x (goesUp lens a b x) 8 a
    p ++ pathOver lens b l (p.getLastD a)

/-- The D segment of a path, the other way round where it would pass the lost address (R456). -/
def dSegment (lens : List Nat) (lost : Option (List Nat)) (a b : List Nat) : List (List Nat) :=
  let up := goesUp lens a b 3
  let p := axisPath lens b 3 up 8 a
  if (p.map some).contains lost && some b ≠ lost then axisPath lens b 3 (!up) 8 a else p

/-- The path of a flow (R454), replaced where it would pass through the lost address (R456). -/
def flowPath (lens : List Nat) (lost : Option (List Nat)) (a b : List Nat) : List (List Nat) :=
  let abc := pathOver lens b [0, 1, 2] a
  if some b ≠ lost && (abc.map some).contains lost then
    let h := match lost with
      | some l => setAt a 3 (Nat.xor (l.getD 3 0) 1)
      | none => a
    let p := pathOver lens b [0, 1, 2] h
    h :: p ++ dSegment lens lost (p.getLastD h) b
  else abc ++ dSegment lens lost (abc.getLastD a) b

/-- The next hop of a flow at this module: on its path, or on a path from here where it has left that. -/
def nextHop (lens : List Nat) (lost : Option (List Nat)) (src me dest : List Nat) : Option (List Nat) :=
  let p := src :: flowPath lens lost src dest
  match p.findIdx? (· = me) with
  | some i => p[i + 1]?
  | none => (flowPath lens lost me dest).head?

/-- A port may carry flows: it is `UP`, and from the first beat after (R455). -/
def State.portOk (s : State) (p : Nat) : Bool := (s.port p).state = .up && (s.port p).useFrom ≤ s.pick.counter

/-- The port of a hop (R454, R455): the port k of its direction, the other port of the direction, or a port of the other way
round the axis. -/
def State.portFor (s : State) (src dest traffic : Nat) (me hop : List Nat) : Option Nat :=
  let lens := s.glb.axes
  match (List.range 4).find? fun x => me.getD x 0 ≠ hop.getD x 0 with
  | none => none
  | some x =>
    let sum := nodeIndex lens (unpackAddr src) + nodeIndex lens (unpackAddr dest) + traffic
    let order :=
      if lens.getD x 1 = 2 then (List.range 4).map fun i => 4 * x + Nat.xor (sum % 4) i
      else
        let up := stepAddr lens me x true = hop
        let dir := 4 * x + if up then 0 else 2
        let back := 4 * x + if up then 2 else 0
        [dir + sum % 2, dir + (sum + 1) % 2, back + sum % 2, back + (sum + 1) % 2]
    order.find? s.portOk

/-- The lost address that R456 is in force for. -/
def State.lost (s : State) : Option (List Nat) := s.opt.detour.map unpackAddr

/-- The next hop of a frame that came in by a port, or that starts here: the one on its path, but a frame that goes the other way round
an axis (R455) keeps its way there: its path would send it back where it came from, or it is off its path. -/
def State.hopFrom (s : State) (src dest : Nat) (up : Option Nat) : Option (List Nat) :=
  let lens := s.glb.axes
  let me := unpackAddr s.myAddr
  let from_ := unpackAddr src
  let dst := unpackAddr dest
  let hop := nextHop lens s.lost from_ me dst
  match up with
  | none => hop
  | some q =>
    let x := q / 4
    let back := stepAddr lens me x (q / 2 % 2 = 0)
    let onPath := (from_ :: flowPath lens s.lost from_ dst).contains me
    if q < 16 && 2 < lens.getD x 1 && me.getD x 0 ≠ dst.getD x 0 && (hop = some back || !onPath) then
      some (stepAddr lens me x (q / 2 % 2 = 1))
    else hop

/-- Where a frame is routed: one for the lost address goes to its twin (R456). -/
def State.routedDest (s : State) (dest : Nat) : Nat := if s.opt.detour = some dest then twinAddr dest else dest

/-- A frame for the lost address is dropped by the last router before it, before the absorb beat (R456). -/
def State.dropsFrame (s : State) (src dest : Nat) : Bool :=
  s.opt.detour = some dest && s.reed.losses.any (·.1 = dest)
    && nextHop s.glb.axes none (unpackAddr src) (unpackAddr s.myAddr) (unpackAddr dest) = some (unpackAddr dest)

/-- Bytes of a port's replay buffer (R453). -/
def replaySize : Nat := 4194304

/-- A frame is sent on toward its destination, and held until the next hop acknowledges it (R453); none where no port is up, or its
replay buffer has no room. -/
def State.forward (s : State) (frame : Bytes) (up : Option (Nat × Nat)) : Option State :=
  let dest := s.routedDest (fieldAt frame 8 2)
  let src := fieldAt frame 0xA 2
  let traffic := byteAt frame 1
  let hop := s.hopFrom src dest (up.map Prod.fst)
  let room := fun (p : Nat) => ((s.port p).replay.map fun r => r.bytes.length).sum + frame.length ≤ replaySize
  ((hop.bind fun h => s.portFor src dest traffic (unpackAddr s.myAddr) h).filter (decide <| room ·)).map fun p =>
    let k := s.port p
    let n := fieldAt frame 2 2
    let out := frameBytes (byteAt frame 0) traffic k.txSeq (fieldAt frame 8 2) src (s.ackField p) ((frame.drop 16).take (64 * n))
    (s.setPort p fun k => { k with
      txSeq := (k.txSeq + 1) % 2 ^ 32
      replay := k.replay ++ [{ seq := k.txSeq, bytes := out, sends := 1, up := up }] }).emit (.frame p out)

/-- Two frames are of one flow (R454). -/
def sameFlow (a b : Bytes) : Bool := byteAt a 1 = byteAt b 1 && (a.drop 8).take 4 = (b.drop 8).take 4

/-- A held frame is sent on, or, where no port can carry it now or an earlier frame of its flow is held, stays held (R453, R454). -/
def State.forwardOrHold (s : State) (frame : Bytes) (up : Option (Nat × Nat)) : State :=
  let hold := { s with opt := { s.opt with stranded := s.opt.stranded ++ [(frame, up)] } }
  if s.opt.stranded.any fun e => sameFlow e.1 frame then hold else (s.forward frame up).getD hold

/-- Every flow of a port that went down moves: its held frames are sent again in order (R455, R456). -/
def State.moveFlows (s : State) (p : Nat) : State :=
  let held := (s.port p).replay
  held.foldl (fun (s : State) r => s.forwardOrHold r.bytes r.up) (s.setPort p fun k => { k with replay := [] })

/-- The class of a frame, highest first (R457): control, headers, shuttle data, reed data, others. -/
def frameClass (b : Bytes) : Nat :=
  let typ := byteAt b 0
  let traffic := byteAt b 1
  if traffic = 34 || [1, 3, 6, 7, 8].contains typ then 0
  else if typ = 5 then 1
  else if traffic = 32 || traffic = 33 then 2
  else if traffic < 32 then 3
  else 4

/-- The frames that no port could carry are tried again, by class and in order (R457): from a beat on a port that came back is used (R455),
and an ack makes room. -/
def State.sendStranded (s : State) : State :=
  (sortKey (fun (e : Bytes × Option (Nat × Nat)) => frameClass e.1) s.opt.stranded).foldl
    (fun (s : State) e => s.forwardOrHold e.1 e.2) { s with opt := { s.opt with stranded := [] } }

/-- A payload filled up with zeros to a multiple of 64 bytes (R451). -/
def pad64 (b : Bytes) : Bytes := b ++ List.replicate ((64 - b.length % 64) % 64) 0

/-- The payloads of the frames that carry a run of bytes, 16 KiB each but the last (R451). -/
def framePieces : Nat → Bytes → List Bytes
  | 0, _ => []
  | fuel + 1, b => if b.isEmpty then [] else b.take 16384 :: framePieces fuel (b.drop 16384)

/-- A frame that starts at an address of this module goes toward another, and is held until it is acknowledged (R453); for a lost address it
is dropped by the last router before it (R456). -/
def State.sendFrame (s : State) (typ traffic src dest : Nat) (payload : Bytes) : State :=
  if s.dropsFrame src dest then s else s.forwardOrHold (frameBytes typ traffic 0 dest src 0 payload) none

/-- Data goes toward an address in data frames (Table 16-2). -/
def State.sendBytes (s : State) (traffic src dest : Nat) (data : Bytes) : State :=
  (framePieces (data.length / 16384 + 1) (pad64 data)).foldl (fun (s : State) p => s.sendFrame 4 traffic src dest p) s

end Sys2Proof.Machine
end

