-- ==== Sys2Proof/Machine/DraftCheck.lean ====
section
/-! DEFINITION. Sys2Proof/Machine/DraftCheck.lean: the draft check of Table 3-12, in its order, with where each check
failed (R85). The offset reported is that of the field the check names; a check on a whole section or on several
entries reports the first entry concerned, or the section's start (DEDUCED, log entry 10). -/

namespace Sys2Proof.Machine

/-- Section index (0xFF for the header) and byte offset at which a check failed (R85). -/
abbrev CheckWhere := Nat × Nat

/-- Which fields check 0x0420 covers: none (no draft in force, R96, R97), the cold-start fields (R98), or all. -/
inductive FixedFields | none | coldOnly | all
  deriving DecidableEq, Repr

/-- The first entry of a list of (offset, holds) that does not hold. -/
def firstBad (idx base : Nat) (l : List (Nat × Bool)) : Option CheckWhere :=
  (l.find? fun p => !p.2).map fun p => (idx, base + p.1)

/-- The same, in a section. -/
def Sec.firstBad (s : Sec) (l : List (Nat × Bool)) : Option CheckWhere := Machine.firstBad s.idx s.off l

/-- A reserved range, byte by byte. -/
def reservedBytes (b : Bytes) (off n : Nat) : List (Nat × Bool) := (List.range n).map fun i => (off + i, byteAt b (off + i) = 0)

/-- A reserved range of a section. -/
def Sec.res (s : Sec) (off n : Nat) : List (Nat × Bool) := reservedBytes s.data off n

/-- A byte whose encodings from `lim` on are reserved. -/
def Sec.enc (s : Sec) (off lim : Nat) : List (Nat × Bool) := [(off, byteAt s.data off < lim)]

/-- Reserved bits and encodings of one section (check 0x0404), by its type. -/
def Sec.reserved (s : Sec) : List (Nat × Bool) :=
  let b := s.data
  match s.typ with
  | 1 => s.enc 3 4 ++ s.res 5 11
  | 2 =>
    s.res 2 14 ++ ((List.range (byteAt b 0)).flatMap fun h => let e := 0x10 + 16 * h; s.res (e + 1) 1 ++ s.res (e + 5) 11)
      ++ ((List.range (byteAt b 1)).flatMap fun i =>
        let e := 0x10 + 16 * byteAt b 0 + 16 * i; s.res (e + 3) 1 ++ s.res (e + 8) 8)
  | 3 =>
    s.enc 0 2 ++ s.res 2 14 ++ ((List.range (byteAt b 1)).flatMap fun t =>
      let e := 0x10 + 32 * t; s.enc (e + 1) 2 ++ s.res (e + 9) 7)
  | 4 =>
    s.res 2 14 ++ ((List.range (min (fieldAt b 0 2) 65535)).flatMap fun g =>
      let e := 0x10 + 32 * g; s.enc (e + 2) 16 ++ s.res (e + 16) 16)
  | 5 => (List.range 16).flatMap fun k => let e := 8 * k; s.enc (e + 3) 2 ++ s.res (e + 5) 3
  | 6 => s.enc 0 2 ++ s.enc 1 2 ++ s.enc 2 2 ++ s.enc 3 2 ++ s.res 8 24
  | 7 =>
    s.res 1 15 ++ ((List.range (byteAt b 0)).flatMap fun f =>
      let e := 0x10 + 16 * f; s.enc (e + 1) 16 ++ s.enc (e + 2) 16 ++ s.enc (e + 3) 16 ++ s.res (e + 10) 6)
  | 8 =>
    let pad := 16 + 8 * fieldAt b 0 2
    s.res 0xD 3 ++ s.res pad (trainStages b - pad) ++
      ((List.range (fieldAt b 2 2)).flatMap fun i => s.res (trainStages b + 16 * i + 2) 6)
  | _ => []

/-- The size check 0x0406 expects of a section, and its counts with whether each lies in range. -/
def Sec.shape (s : Sec) : Option (Nat × List (Nat × Bool)) :=
  let b := s.data
  match s.typ with
  | 1 => some (16, [])
  | 2 => some (16 + 16 * byteAt b 0 + 16 * byteAt b 1, [(0, 1 ≤ byteAt b 0 && byteAt b 0 ≤ 16), (1, byteAt b 1 ≤ 64)])
  | 3 => some (16 + 32 * byteAt b 1, [(1, 1 ≤ byteAt b 1 && byteAt b 1 ≤ 16)])
  | 4 => some (16 + 32 * fieldAt b 0 2, [(0, fieldAt b 0 2 ≤ 256)])
  | 5 => some (640, [])
  | 6 => some (32, [])
  | 7 => some (16 + 16 * byteAt b 0, [(0, 1 ≤ byteAt b 0 && byteAt b 0 ≤ 16)])
  | 8 => some (trainStages b + 16 * fieldAt b 2 2 + 4 * fieldAt b 4 2,
      [(2, fieldAt b 2 2 ≤ 256), (4, 1 ≤ fieldAt b 4 2 && fieldAt b 4 2 ≤ 64)])
  | _ => none

/-- Two sections overlap. -/
def Sec.overlaps (a b : Sec) : Bool := a.off < b.off + b.size && b.off < a.off + a.size

/-- Check 0x0406 on one section: its table entry, then its counts, then its size. -/
def Sec.badShape (len : Nat) (all : List Sec) (s : Sec) : Option CheckWhere :=
  let before := all.filter (·.idx < s.idx)
  let entry := 64 + 16 * s.idx
  let placed := s.off % 64 = 0 && 64 + 16 * all.length ≤ s.off && s.off + s.size ≤ len && !before.any s.overlaps
  (Machine.firstBad s.idx entry [(0, s.shape.isSome && before.all (·.typ ≠ s.typ)), (2, s.ver = 1), (4, placed)]).or
    (s.shape.bind fun e => (s.firstBad e.2).or (Machine.firstBad s.idx entry [(8, s.size = e.1)]))

/-- A value repeats an earlier entry of the list. -/
def repeatsAt (l : List Nat) (i : Nat) : Bool := (l.take i).contains (l.getD i 0)

/-- The coordinate lists of Table 3-7 keep to the axis (check 0x0415). -/
def axisOk (masked : Bool) (len : Nat) (a : Nat × Nat × Nat) : Bool :=
  if masked then 1 ≤ a.2.1 && a.2.1 ≤ 8 && 1 ≤ a.2.2 && a.2.2 ≤ 7 && a.1 + (a.2.1 - 1) * a.2.2 ≤ len - 1
  else a.1 = 0 && a.2.1 = 0 && a.2.2 = 0

/-- Members of a group: the product of its extents on masked axes. -/
def GroupDef.memberCount (g : GroupDef) : Nat :=
  (List.range 4).foldl (fun n x => if bitOf g.mask x then n * (g.axes.getD x (0, 0, 0)).2.1 else n) 1

/-- The ragged rule of R87 for entry `i` of `n` sharing `total`. -/
def raggedShare (total n i : Nat) : Nat := if i < total % n then total / n + 1 else total / n

/-- Checks 0x040A to 0x0420 and 0x0408, 0x0409, on a draft whose shape has passed; offsets lie in the draft. -/
def valueChecks (d : Bytes) (ss : List Sec) (geom : Option (List Nat)) (inForce : Option Draft) (fx : FixedFields) :
    List (Nat × Option CheckWhere) :=
  let f := readDraft d
  let sec := fun t => (findSec ss t).getD { idx := 0xFF, typ := t, ver := 1, off := 0, size := 0, data := [] }
  let p := sec 1; let h := sec 2; let ti := sec 3; let gr := sec 4; let sh := sec 5; let tw := sec 6
  let fu := sec 7; let tr := sec 8
  let hOff := fun i => 0x10 + 16 * i
  let sOff := fun i => 0x10 + 16 * f.harnesses.length + 16 * i
  let idx := fun {α : Type} (l : List α) => l.zipIdx
  let hIds := f.harnesses.map HarnessDef.id
  let sIds := f.slots.map SlotDef.id
  let mask := fun id => (f.harness id).elim 0 HarnessDef.regions
  let decl := fun id => hIds.contains id
  let clsOk := fun k => k ≤ 15 && (f.cls k).weight ≠ 0
  let t := readTrain tr.data
  let hasT := f.train.isSome
  [ (0x0408, firstBad 0xFF 0x1C ((idx f.lens).map fun (l, i) => (i, 2 ≤ l && l ≤ 8 && (i ≠ 3 || l % 2 = 0)))),
    (0x0409, match geom with
      | none => none
      | some g => firstBad 0xFF 0x1C ((idx f.lens).map fun (l, i) => (i, l = g.getD i 0))),
    (0x040A, p.firstBad [(0, 10 ≤ f.period10 && f.period10 ≤ 400)]),
    (0x040B, p.firstBad [(2, 8 ≤ f.windowUs && f.windowUs ≤ 50 && 10 * f.period10 ≥ 8 * f.windowUs)]),
    (0x040C, p.firstBad [(4, 4 ≤ f.undoMib && f.undoMib ≤ 16)]),
    (0x040D, h.firstBad (((idx f.harnesses).map fun (e, i) =>
        (hOff i, e.id ≤ 15 && !repeatsAt hIds i && e.regions ≠ 0
          && (f.harnesses.take i).all fun o => Nat.land o.regions e.regions = 0))
      ++ ((List.range 16).map fun r => (0, decide ((f.harnesses.filter fun e => bitOf e.regions r).length = 1))))),
    (0x040E, h.firstBad ((idx f.slots).map fun (e, i) =>
        (sOff i + 4, e.firstCu % 4 = 0 && e.cuCount % 4 = 0 && e.cuCount ≠ 0))),
    (0x040F, h.firstBad ((idx f.slots).map fun (e, i) =>
        (sOff i, e.id ≤ 63 && !repeatsAt sIds i && e.firstCu + e.cuCount ≤ 512
          && (List.range 16).all (fun r => bitOf (mask e.harness) r || e.firstCu + e.cuCount ≤ 32 * r
              || 32 * (r + 1) ≤ e.firstCu)
          && (f.slots.take i).all fun o => o.firstCu + o.cuCount ≤ e.firstCu || e.firstCu + e.cuCount ≤ o.firstCu))),
    (0x0410, h.firstBad (((idx f.harnesses).map fun (e, i) => (hOff i + 4, clsOk e.cls))
      ++ (idx f.slots).map fun (e, i) => (sOff i + 2, clsOk e.cls))),
    (0x0411, ti.firstBad [(0, (f.tiers.map TierDef.quotaMib).sum ≤ 1144 * 1024)]),
    (0x0412, ti.firstBad [(0, (f.tiers.map TierDef.rateGbs).sum ≤ if f.fast then 28262 else 24576)]),
    (0x0413, ti.firstBad ((idx f.tiers).map fun (e, i) =>
        (0x10 + 32 * i, e.beam ≤ maskCount (mask e.harness) && e.t3Base % 16384 = 0 && e.t3Size % 16384 = 0))),
    (0x0414, gr.firstBad ((idx f.groups).map fun (e, i) =>
        (0x10 + 32 * i, e.id ≤ 255 && !repeatsAt (f.groups.map GroupDef.id) i && e.mask ≠ 0 && e.channel ≤ 31))),
    (0x0415, gr.firstBad ((idx f.groups).flatMap fun (e, i) =>
        ((List.range 4).map fun x =>
          (0x14 + 32 * i + 3 * x, axisOk (bitOf e.mask x) (f.lens.getD x 0) (e.axes.getD x (0, 0, 0))))
        ++ [(0x12 + 32 * i, decide (2 ≤ e.memberCount))])),
    (0x0416, sh.firstBad ((idx f.classes).map fun (c, k) =>
        (8 * k, (c.weight = 0 || c.cap ≠ 0) && c.weight ≤ 1000))),
    (0x0417, tw.firstBad [(4, f.twin.drainGbs ≤ 100)]),
    (0x0418, fu.firstBad ((idx f.funcs).flatMap fun (e, i) =>
        [(0x10 + 16 * i + 2, !bitOf e.shuttle 3 && e.shuttle ≠ 0), (0x10 + 16 * i + 3, !bitOf e.act 3 && e.act ≠ 0)])),
    (0x0419, fu.firstBad ((idx f.funcs).map fun (e, i) =>
        (0x10 + 16 * i + 4, e.kvBytes = 0 || (List.range 13).any fun k => e.kvBytes = 64 * 2 ^ k))),
    (0x041A, fu.firstBad ((idx f.funcs).map fun (e, i) => (0x10 + 16 * i + 8, 1 ≤ e.kvLimit && e.kvLimit ≤ 4096))),
    (0x041B, tr.firstBad ((idx t.bindings).map fun (_, i) =>
        (0x10 + 8 * i, !hasT || (!repeatsAt (t.bindings.map Prod.fst) i && !repeatsAt (t.bindings.map Prod.snd) i)))),
    (0x041C, if !hasT || t.stages.length = 0 then none else
      tr.firstBad (((idx t.stages).map fun (st, i) =>
        (trainStages tr.data + 16 * i, decide (st.1 = raggedShare t.layers t.stages.length i)))
        ++ [(6, decide ((t.stages.map Prod.fst).sum = t.layers))])),
    (0x041D, if !hasT then none else
      tr.firstBad ((idx t.ranks).map fun (rk, j) =>
        (trainStages tr.data + 16 * t.stages.length + 4 * j,
          rk.1 = raggedShare t.qheads t.ranks.length j && rk.2 = raggedShare t.kvheads t.ranks.length j
            && rk.1 ≠ 0 && rk.2 ≠ 0))),
    (0x041E, if !hasT || t.stages.length = 0 then none else
      tr.firstBad ((idx t.stages).map fun (st, i) =>
        (trainStages tr.data + 16 * i + 8, decide (st.2 ≤ (f.tier t.harness).quota)))),
    (0x041F, ((ti.firstBad ((idx f.tiers).map fun (e, i) =>
          (0x10 + 32 * i, decl e.harness && !repeatsAt (f.tiers.map TierDef.harness) i))).or
        (fu.firstBad ((idx f.funcs).map fun (e, i) =>
          (0x10 + 16 * i, decl e.harness && !repeatsAt (f.funcs.map FuncDef.harness) i)))).or
        (tr.firstBad [(0xC, !hasT || decl t.harness)])),
    (0x0420, match inForce with
      | none => none
      | some o => if fx = .none then none else
          (firstBad 0xFF 0x1C ((idx f.lens).map fun (l, i) => (i, l = o.lens.getD i 0))).or
            ((ti.firstBad [(0, f.fast = o.fast)]).or
              (if fx = .coldOnly then none else p.firstBad [(4, f.undoMib = o.undoMib)]))) ]

/-- The draft check (Table 3-12): the code of the first failing check and where it failed, or none. -/
def draftCheck (d : Bytes) (stageLen : Nat) (geom : Option (List Nat)) (inForce : Option Draft) (fx : FixedFields) :
    Option (Nat × CheckWhere) :=
  let ss := draftSections d
  let len := fieldAt d 8 4
  let n := fieldAt d 0xC 2
  let shape : List (Nat × Option CheckWhere) :=
    [ (0x0401, firstBad 0xFF 0 [(0, fieldAt d 0 4 = 0x54465244), (4, fieldAt d 4 2 = 1), (6, fieldAt d 6 2 = 64)]),
      (0x0402, firstBad 0xFF 0 [(8, len = stageLen && 64 ≤ len && len ≤ 1048576 && len % 64 = 0)]),
      (0x0403, firstBad 0xFF 0 [(0x3C, crc32c (d.take 0x3C ++ [0, 0, 0, 0] ++ d.drop 0x40) = fieldAt d 0x3C 4)]),
      (0x0404, ((firstBad 0xFF 0 (reservedBytes d 0xE 2 ++ reservedBytes d 0x20 28)).or
        (ss.findSome? fun s => firstBad s.idx 0 (reservedBytes d (64 + 16 * s.idx + 0xC) 4))).or
        (ss.findSome? fun s => s.firstBad s.reserved)),
      (0x0405, firstBad 0xFF 0 [(0x18, fieldAt d 0x18 4 = 0x11520A48)]),
      (0x0406, (firstBad 0xFF 0 [(0xC, 3 ≤ n && n ≤ 8)]).or
        (ss.findSome? fun s => s.badShape len ss)),
      (0x0407, if [1, 2, 6].all (fun t => (findSec ss t).isSome) then none else some (0xFF, 0xC)) ]
  let hit := fun (l : List (Nat × Option CheckWhere)) => l.findSome? fun e => e.2.map fun w => (e.1, w)
  (hit shape).or (hit (valueChecks d ss geom inForce fx))

end Sys2Proof.Machine
end

