-- ==== Sys2Proof/Machine/Aborts.lean ====
section
/-! DEFINITION. Sys2Proof/Machine/Aborts.lean: what an aborted reed or shuttle task leaves: its channel or run, and the notices that its group is
sent (R305, R306). -/

namespace Sys2Proof.Machine

/-- A group of this module, by id; those of the absorbed address are kept under id + 256 (R33). -/
def Core.group (c : Core) (g : Nat) : Option Group := c.groups.find? fun x => x.id = g

/-- A channel. -/
def Core.chan (c : Core) (ch : Nat) : Chan := c.chans.getD ch {}

/-- A channel changed. -/
def Core.setChan (c : Core) (ch : Nat) (f : Chan → Chan) : Core := { c with chans := modifyAt c.chans ch f }

/-- Every part of a channel's instance ends with a context fault (Table 10-8); the channel has no instance any more, and a notice for
the group has been met (R296). -/
def State.failInstance (s : State) (ch code detail : Nat) : State :=
  let c := s.core.chan ch
  match c.parts with
  | [] => s
  | t :: _ => s.withCore fun k =>
      (k.raiseTask t code detail).setChan ch fun x => { x.closed with noticed := x.noticed.filter (·.1 ≠ c.group % 256) }

/-- The channel of a pair of channels that is the other address's (R33). -/
def otherChan (ch : Nat) : Nat := (ch + 32) % 64

/-- A channel has a current instance whose header exchange has begun and whose tasks have not all done their work. -/
def Core.current (c : Core) (ch : Nat) : Bool :=
  let k := c.chan ch
  !k.parts.isEmpty && !k.hdr.isEmpty && k.parts.any fun t => (c.task t).elim false fun y => !y.computed

/-- An instance of a group that a notice names ends by it at the other address held here too (R33). -/
def State.tellOther (s : State) (ch group inst code : Nat) : State :=
  let o := otherChan ch
  let k := s.core.chan o
  if s.twin.holds && s.core.current o && k.group % 256 = group && k.inst = inst then s.failInstance o code 0 else s

/-- The instance of a channel has lost a task to an abort. -/
def Core.brokenOn (c : Core) (ch : Nat) : Bool := (c.chan ch).parts.any fun t => (c.task t).elim true fun x => x.phase = .aborted

/-- A channel whose instance broke off is free. A header that came before the exchange was complete, and the data behind it, serve the
task that takes the place (R305). -/
def Chan.freed (k : Chan) (members : List Nat) : Chan :=
  if k.counted then k.closed
  else { k.closed with held := k.from_.map (fun e => (members.getD e.1 0, e.2)) ++ k.held, data := k.data, credits := k.credits, excess := k.excess }

/-- The channels of aborted tasks are free. -/
def Core.freeChans (c : Core) : Core :=
  { c with chans := c.chans.zipIdx.map fun k =>
      if c.brokenOn k.2 then k.1.freed ((c.group k.1.group).elim [] Group.members) else k.1 }

/-- The channels of aborted tasks are free, with notices for the instances whose header exchange was complete (R306). -/
def State.reedSweep (s : State) : State :=
  ((List.range 64).foldl (fun (s : State) ch =>
    let k := s.core.chan ch
    if s.core.brokenOn ch && k.counted then
      (s.emit (.collAbort (ch % 32) (k.group % 256) k.inst)).tellOther ch (k.group % 256) k.inst 0x0902
    else s) s).withCore Core.freeChans

/-- A run of the shuttle is past its header exchange. -/
def ShuttleRun.past (r : ShuttleRun) : Bool := r.nextOk && r.prevOk

/-- The shuttle tasks of a group's transfer end with `COLL.ABORTED` (R211, R306). -/
def State.shuttleAborted (s : State) (group name : Nat) : State :=
  let hit := s.core.shuttle.filter fun r => r.begun && r.group % 256 = group && r.name = name && s.core.live r.task
  s.withCore fun c => hit.foldl (fun (c : Core) r => c.raiseTask r.task 0x0902 0) c

/-- Runs of the shuttle whose task was aborted are gone. One past its exchange tells its group (R211, R306), on the channel 0xFF of a shuttle
header, by STEP and PART (log entry 185); the headers of another serve the task that takes its place (R305). -/
def State.shuttleSweep (s : State) : State :=
  let gone := s.core.shuttle.filter fun r => !s.core.live r.task
  let tell := fun (s : State) (r : ShuttleRun) =>
    let s1 := s.emit (.collAbort 0xFF (r.group % 256) r.name)
    if s.twin.holds then s1.shuttleAborted (r.group % 256) r.name else s1
  let s1 := (gone.filter ShuttleRun.past).foldl tell s
  s1.withCore fun c => { c with
    shuttle := c.shuttle.filter fun r => c.live r.task
    shHeld := (gone.filter fun r => !r.past).flatMap ShuttleRun.hdrs ++ c.shHeld }

/-- The reed and shuttle tasks that a command's fault aborted leave their channels and runs, and tell their groups, at once (R306). -/
def State.tellAborts (s t : State) : State := if t.core.faults = s.core.faults then t else t.shuttleSweep.reedSweep

end Sys2Proof.Machine
end

