-- ==== Sys2Proof/Machine/Float.lean ====
section
/-! DEFINITION. Sys2Proof/Machine/Float.lean: the number formats and roundings of the arrays, the vector unit and the
update engine (Table 5-1, R141 to R155, R172), block scaling (R145 to R148), and the generator of R275. -/

namespace Sys2Proof.Machine

/-- A number of any format: a NaN, an infinity, or ±m × 2^e exactly. -/
inductive FV
  | nan
  | inf (neg : Bool)
  | fin (neg : Bool) (m : Nat) (e : Int)
  deriving DecidableEq, Repr

/-- A binary format (Table 5-1): mantissa bits, exponent bits and bias; E4M3 has no infinity and one NaN mantissa. -/
structure Fmt where
  mb   : Nat
  eb   : Nat
  bias : Nat
  e4m3 : Bool := false
  deriving DecidableEq, Repr

def fp32 : Fmt := ⟨23, 8, 127, false⟩
def fp64 : Fmt := ⟨52, 11, 1023, false⟩
def bf16 : Fmt := ⟨7, 8, 127, false⟩
def fp16 : Fmt := ⟨10, 5, 15, false⟩
def e4m3 : Fmt := ⟨3, 4, 7, true⟩
def e5m2 : Fmt := ⟨2, 5, 15, false⟩

/-- The value of a bit pattern; `flush` reads a subnormal as zero of its sign, as the arrays do (R143). -/
def Fmt.decode (f : Fmt) (flush : Bool) (v : Nat) : FV :=
  let m := v % 2 ^ f.mb
  let e := v / 2 ^ f.mb % 2 ^ f.eb
  let neg := v / 2 ^ (f.mb + f.eb) % 2 = 1
  if f.e4m3 ∧ e = 15 ∧ m = 7 then .nan
  else if ¬f.e4m3 ∧ e = 2 ^ f.eb - 1 then (if m = 0 then .inf neg else .nan)
  else if e = 0 then .fin neg (if flush then 0 else m) (1 - f.bias - f.mb)
  else .fin neg (2 ^ f.mb + m) (e - f.bias - f.mb)

/-- The canonical quiet NaN of a format (Table 5-1). -/
def Fmt.qnan (f : Fmt) : Nat := if f.e4m3 then 0x7F else (2 ^ f.eb - 1) * 2 ^ f.mb + 2 ^ (f.mb - 1)

/-- Infinity of a sign. -/
def Fmt.infBits (f : Fmt) (neg : Bool) : Nat := b2n neg * 2 ^ (f.mb + f.eb) + (2 ^ f.eb - 1) * 2 ^ f.mb

/-- Zero of a sign. -/
def Fmt.zeroBits (f : Fmt) (neg : Bool) : Nat := b2n neg * 2 ^ (f.mb + f.eb)

/-- Rounding direction: nearest even, toward zero, up, down (R172). -/
inductive Rnd | ne | tz | up | dn
  deriving DecidableEq, Repr

/-- Whether a magnitude with discarded fraction `r` of `d` rounds up, `q` being what is kept. -/
def Rnd.up? (dir : Rnd) (neg : Bool) (q r d : Nat) : Bool :=
  match dir with
  | .ne => d < 2 * r || (2 * r = d && q % 2 = 1)
  | .tz => false
  | .up => !neg && r ≠ 0
  | .dn => neg && r ≠ 0

/-- m × 2^e in units of 2^q, as (kept, discarded, unit), the discarded part being below the unit. -/
def splitAtExp (m : Nat) (e q : Int) : Nat × Nat × Nat :=
  if q ≤ e then (m * 2 ^ (e - q).toNat, 0, 1)
  else
    let d := 2 ^ (q - e).toNat
    (m / d, m % d, d)

/-- The exponent of the leading bit of m × 2^e, m not 0. -/
def leadExp (m : Nat) (e : Int) : Int := Nat.log2 m + e

/-- IEEE rounding of a nonzero ±m × 2^e, with the exceptions overflow (4), underflow (8) and inexact (16) (R172,
R173). -/
def Fmt.ieeeFin (f : Fmt) (dir : Rnd) (neg : Bool) (m : Nat) (e : Int) : Nat × Nat :=
  let qmin : Int := 1 - f.bias - f.mb
  let q := max (leadExp m e - f.mb) qmin
  let s := splitAtExp m e q
  let k := s.1 + b2n (dir.up? neg s.1 s.2.1 s.2.2)
  let body := (q - qmin).toNat * 2 ^ f.mb + k
  let top := (2 ^ f.eb - 1) * 2 ^ f.mb
  let inexact := s.2.1 ≠ 0
  let sign := f.zeroBits neg
  if top ≤ body then
    let toInf := match dir with
      | .ne => true
      | .tz => false
      | .up => !neg
      | .dn => neg
    (sign + (if toInf then top else top - 1), 4 + 16)
  else
    let uq := leadExp m e - f.mb
    let u := splitAtExp m e uq
    let uk := u.1 + b2n (dir.up? neg u.1 u.2.1 u.2.2)
    let tinyB := leadExp m e < 1 - f.bias
    let tinyA := leadExp uk uq < 1 - f.bias
    let tiny : Bool := if Config.tinyAfter then tinyA else tinyB
    (sign + body, (if inexact then 16 else 0) + (if tiny && inexact then 8 else 0))

/-- IEEE rounding of a value, with its exceptions. -/
def Fmt.ieee (f : Fmt) (dir : Rnd) : FV → Nat × Nat
  | .nan => (f.qnan, 0)
  | .inf neg => (f.infBits neg, 0)
  | .fin neg m e => if m = 0 then (f.zeroBits neg, 0) else f.ieeeFin dir neg m e

/-- The binary32 pattern of a value rounded to nearest even. -/
def toF32 (v : FV) : Nat := (fp32.ieee .ne v).1

/-- The value of a binary32 pattern. -/
def ofF32 (b : Nat) : FV := fp32.decode false b

/-- An exact signed integer times 2^e, a zero taking the given sign. -/
def FV.ofInt (v : Int) (e : Int) (zeroNeg : Bool) : FV :=
  if v = 0 then .fin zeroNeg 0 0 else .fin (v < 0) v.natAbs e

/-- A signed mantissa. -/
def signed (neg : Bool) (m : Nat) : Int := if neg then -(m : Int) else m

/-- Exact sum; opposite infinities give NaN (R144); an exact zero of unlike signs is +0, or −0 rounding down. -/
def FV.add (dir : Rnd) : FV → FV → FV
  | .nan, _ => .nan
  | _, .nan => .nan
  | .inf a, .inf b => if a = b then .inf a else .nan
  | .inf a, .fin .. => .inf a
  | .fin .., .inf b => .inf b
  | .fin n1 m1 e1, .fin n2 m2 e2 =>
    let e := min e1 e2
    .ofInt (signed n1 m1 * 2 ^ (e1 - e).toNat + signed n2 m2 * 2 ^ (e2 - e).toNat) e
      (if n1 = n2 then n1 else dir = .dn)

/-- Exact negation. -/
def FV.neg : FV → FV
  | .nan => .nan
  | .inf a => .inf !a
  | .fin n m e => .fin (!n) m e

/-- Exact product (R144). -/
def FV.mul : FV → FV → FV
  | .nan, _ => .nan
  | _, .nan => .nan
  | .inf a, .inf b => .inf (a != b)
  | .inf a, .fin n m _ => if m = 0 then .nan else .inf (a != n)
  | .fin n m _, .inf b => if m = 0 then .nan else .inf (n != b)
  | .fin n1 m1 e1, .fin n2 m2 e2 => .fin (n1 != n2) (m1 * m2) (e1 + e2)

/-- A quotient to enough bits for any rounding of the model, its last bit standing for everything below it. -/
def FV.div : FV → FV → FV
  | .nan, _ => .nan
  | _, .nan => .nan
  | .inf _, .inf _ => .nan
  | .inf a, .fin n _ _ => .inf (a != n)
  | .fin n _ _, .inf b => .fin (n != b) 0 0
  | .fin n1 m1 e1, .fin n2 m2 e2 =>
    if m2 = 0 then (if m1 = 0 then .nan else .inf (n1 != n2))
    else
      let k := 64 + Nat.log2 m2
      let x := m1 * 2 ^ k
      .fin (n1 != n2) (2 * (x / m2) + b2n (x % m2 ≠ 0)) (e1 - e2 - k - 1)

/-- The integer square root, bit by bit from bit `i`. -/
def isqrtGo (n : Nat) : Nat → Nat → Nat
  | 0, r => r
  | i + 1, r => isqrtGo n i (if (r + 2 ^ i) * (r + 2 ^ i) ≤ n then r + 2 ^ i else r)

/-- The integer square root. -/
def isqrt (n : Nat) : Nat := isqrtGo n (Nat.log2 n / 2 + 1) 0

/-- A square root to enough bits for any rounding of the model. -/
def FV.sqrt : FV → FV
  | .nan => .nan
  | .inf neg => if neg then .nan else .inf false
  | .fin neg m e =>
    if m = 0 then .fin neg 0 0
    else if neg then .nan
    else
      let k := 128 + (e % 2).toNat
      let x := m * 2 ^ k
      let r := isqrt x
      .fin false (2 * r + b2n (r * r ≠ x)) ((e - k) / 2 - 1)

/-- a < b as numbers; false where either is a NaN. Zeros are equal. -/
def FV.lt : FV → FV → Bool
  | .nan, _ => false
  | _, .nan => false
  | .inf a, .inf b => a && !b
  | .inf a, .fin .. => a
  | .fin .., .inf b => !b
  | .fin n1 m1 e1, .fin n2 m2 e2 =>
    let e := min e1 e2
    decide (signed n1 m1 * 2 ^ (e1 - e).toNat < signed n2 m2 * 2 ^ (e2 - e).toNat)

/-- The value is a NaN. -/
def FV.isNan : FV → Bool
  | .nan => true
  | _ => false

/-- The value is finite. -/
def FV.isFin : FV → Bool
  | .fin .. => true
  | _ => false

/-- The sign bit. -/
def FV.sign : FV → Bool
  | .nan => false
  | .inf n => n
  | .fin n _ _ => n

/-- The value is zero. -/
def FV.isZero : FV → Bool
  | .fin _ m _ => m = 0
  | _ => false

/-- Binary32 addition, rounded to nearest even; likewise below for the other operations. -/
def fAdd (a b : Nat) : Nat := toF32 (.add .ne (ofF32 a) (ofF32 b))
def fSub (a b : Nat) : Nat := toF32 (.add .ne (ofF32 a) (ofF32 b).neg)
def fMul (a b : Nat) : Nat := toF32 (.mul (ofF32 a) (ofF32 b))
def fFma (a b c : Nat) : Nat := toF32 (.add .ne (.mul (ofF32 a) (ofF32 b)) (ofF32 c))
def fDiv (a b : Nat) : Nat := toF32 (.div (ofF32 a) (ofF32 b))
def fSqrt (a : Nat) : Nat := toF32 (.sqrt (ofF32 a))

/-- The max rule of Table 6-1: NaN if either operand is, −0 below +0. -/
def fMax (a b : Nat) : Nat :=
  let x := ofF32 a
  let y := ofF32 b
  if x.isNan || y.isNan then 0x7FC00000
  else if x.lt y || (x.isZero && y.isZero && x.sign) then b else a

/-- The min rule of Table 6-1. -/
def fMin (a b : Nat) : Nat :=
  let x := ofF32 a
  let y := ofF32 b
  if x.isNan || y.isNan then 0x7FC00000
  else if y.lt x || (x.isZero && y.isZero && y.sign) then b else a

/-- A pattern is a binary32 NaN. -/
def isNan32 (b : Nat) : Bool := (ofF32 b).isNan

/-- A pattern is ±0. -/
def isZero32 (b : Nat) : Bool := b % 2 ^ 31 = 0

/-- The binary32 value of an integer that fits it exactly or is rounded to nearest even. -/
def fOfNat (n : Nat) : Nat := toF32 (.fin false n 0)

/-- An integer's nearest-even kept part of `m × 2^e` at unit 2^q. -/
def keepNe (neg : Bool) (m : Nat) (e q : Int) : Nat :=
  let s := splitAtExp m e q
  s.1 + b2n (Rnd.ne.up? neg s.1 s.2.1 s.2.2)

/-- A format's pattern for k × 2^q, k having mb + 1 bits or being one past them, with its range applied: below the least
normal it is zero, above the largest finite value infinity (R154). -/
def Fmt.packNormal (f : Fmt) (neg : Bool) (k : Nat) (q : Int) : Nat :=
  let lead := leadExp k q
  if lead < 1 - f.bias then f.zeroBits neg
  else
    let body := ((lead + f.bias).toNat) * 2 ^ f.mb + (splitAtExp k q (lead - f.mb)).1 - 2 ^ f.mb
    if !f.e4m3 && (2 ^ f.eb - 1) * 2 ^ f.mb ≤ body then f.infBits neg else f.zeroBits neg + body

/-- Rounding to BF16 or FP16 to nearest even (R154). -/
def Fmt.narrow (f : Fmt) : FV → Nat
  | .nan => f.qnan
  | .inf neg => f.infBits neg
  | .fin neg m e =>
    if m = 0 then f.zeroBits neg
    else
      let q := leadExp m e - f.mb
      f.packNormal neg (keepNe neg m e q) q

/-- Stochastic rounding with 16 random bits (R155). -/
def Fmt.stochastic (f : Fmt) (r : Nat) : FV → Nat
  | .nan => f.qnan
  | .inf neg => f.infBits neg
  | .fin neg m e =>
    if m = 0 then f.zeroBits neg
    else if leadExp m e < 1 - f.bias then
      let t := (splitAtExp m e (1 - f.bias - 16)).1
      if 65536 ≤ t + r then f.zeroBits neg + 2 ^ f.mb else f.zeroBits neg
    else
      let q := leadExp m e - f.mb
      let s := splitAtExp m e q
      let t := s.2.1 * 65536 / s.2.2
      f.packNormal neg (s.1 + b2n (65536 ≤ t + r)) q

/-- Rounding mode of a conversion: nearest even, or stochastic with the element's 16 bits. -/
abbrev RndMode := Option (Nat → Nat)

/-- Conversion to BF16 or FP16 of element x by a mode. -/
def Fmt.convert (f : Fmt) (mode : RndMode) (x : Nat) (v : FV) : Nat :=
  match mode with
  | none => f.narrow v
  | some r => f.stochastic (r x) v

/-- The finite magnitude of a value, for the largest of a block: 0 for what is not finite. -/
def FV.absVal : FV → FV
  | .fin _ m e => .fin false m e
  | _ => .fin false 0 0

/-- The least E8 from 0 to 254 with a ≤ F_max × 2^(E8 − 127) (R148, step 2); F_max is 7 × 2^k. -/
def scaleOf (k : Int) : FV → Nat
  | .fin _ m e =>
    if m = 0 then 127
    else
      let l := Nat.log2 m
      let c : Int := if 4 * m ≤ 7 * 2 ^ l then (l : Int) - 2 else (l : Int) - 1
      min 254 (e + c - k + 127).toNat
  | _ => 127

/-- One element of a quantized block (R148, steps 3 and 4). -/
def quantElem (f : Fmt) (mode : RndMode) (e8 x : Nat) : FV → Nat
  | .nan => f.qnan
  | .inf neg => f.infBits neg
  | .fin neg m e0 =>
    let e := e0 - (e8 : Int) + 127
    if m = 0 then f.zeroBits neg
    else if leadExp m e < 1 - f.bias then
      match mode with
      | some r => f.stochastic (r x) (.fin neg m e)
      | none =>
        let s := splitAtExp m e (1 - f.bias)
        if s.2.2 < 2 * s.2.1 then f.zeroBits neg + 2 ^ f.mb else f.zeroBits neg
    else
      let q := leadExp m e - f.mb
      match mode with
      | some r => f.stochastic (r x) (.fin neg m e)
      | none => f.zeroBits neg + (((leadExp (keepNe neg m e q) q + f.bias).toNat) * 2 ^ f.mb
          + (splitAtExp (keepNe neg m e q) q (leadExp (keepNe neg m e q) q - f.mb)).1 - 2 ^ f.mb)

/-- Crequin block scaling of a block of values, `x0` being the first element's position (R148): the scale byte and the
elements. -/
def quantBlock (f : Fmt) (mode : RndMode) (x0 : Nat) (vs : List FV) : Nat × List Nat :=
  if vs.any FV.isNan || (f.e4m3 && vs.any fun v => !v.isFin) then (255, vs.map fun _ => f.qnan)
  else
    let amax := vs.foldl (fun a v => if a.lt v.absVal then v.absVal else a) (.fin false 0 0)
    let e8 := scaleOf (if f.e4m3 then 6 else 13) amax
    (e8, vs.zipIdx.map fun p => quantElem f mode e8 (x0 + p.2) p.1)

/-- The value of a scaled element (R145). -/
def scaled (f : Fmt) (flush : Bool) (e8 v : Nat) : FV :=
  if e8 = 255 then .nan
  else match f.decode flush v with
    | .fin n m e => .fin n m (e + (e8 : Int) - 127)
    | w => w

/-- One round of the generator (R275). -/
def philoxRound (c : Nat × Nat × Nat × Nat) (k0 k1 : Nat) : Nat × Nat × Nat × Nat :=
  let p0 := 0xD2511F53 * c.1
  let p1 := 0xCD9E8D57 * c.2.2.1
  (Nat.xor (Nat.xor (p1 / 2 ^ 32) c.2.1) k0, p1 % 2 ^ 32, Nat.xor (Nat.xor (p0 / 2 ^ 32) c.2.2.2) k1, p0 % 2 ^ 32)

/-- Rounds of the generator, the key advanced after each (R275). -/
def philoxGo : Nat → Nat × Nat × Nat × Nat → Nat → Nat → Nat × Nat × Nat × Nat
  | 0, c, _, _ => c
  | n + 1, c, k0, k1 =>
    philoxGo n (philoxRound c k0 k1) ((k0 + 0x9E3779B9) % 2 ^ 32) ((k1 + 0xBB67AE85) % 2 ^ 32)

/-- Philox-4×32-10 (R275). -/
def philox (c : Nat × Nat × Nat × Nat) (k0 k1 : Nat) : Nat × Nat × Nat × Nat := philoxGo 10 c k0 k1

/-- The 16 random bits of an element position (R276). -/
def randBits (seed stream step layer x : Nat) : Nat :=
  let q := x / 4 % 2 ^ 64
  let w := philox (q % 2 ^ 32, q / 2 ^ 32, layer % 2 ^ 32, step % 2 ^ 32) (seed % 2 ^ 32)
    ((seed / 2 ^ 32 + stream) % 2 ^ 32)
  let word := match x % 4 with
    | 0 => w.1
    | 1 => w.2.1
    | 2 => w.2.2.1
    | _ => w.2.2.2
  word / 65536

end Sys2Proof.Machine
end

