-- ==== Sys2Proof/Machine/Flags.lean ====
section
/-! DEFINITION. Sys2Proof/Machine/Flags.lean: the sticky arithmetic flags of the vector unit (R173): every operation of
Table 6-1 with the exceptions it raises. The model's own order of the flag bits is invalid, division by zero, overflow,
underflow, inexact. -/

namespace Sys2Proof.Machine

/-- A binary32 value with the flags raised on the way to it. -/
structure FR where
  v  : Nat
  fl : Nat := 0
  deriving DecidableEq, Repr

/-- A signaling NaN pattern. -/
def signaling (b : Nat) : Bool := isNan32 b && !bitOf b 22

/-- The invalid flag of operands and a result. -/
def invalidOf (ops : List Nat) (r : FV) : Nat :=
  if ops.any signaling || (r.isNan && ops.all fun b => !isNan32 b) then 1 else 0

/-- A result rounded, its flags joined to those of the operands. -/
def FR.ofFV (dir : Rnd) (ops : List FR) (r : FV) (extra : Nat) : FR :=
  let p := fp32.ieee dir r
  { v := p.1, fl := ops.foldl (fun a o => Nat.lor a o.fl) (Nat.lor extra (Nat.lor p.2 (invalidOf (ops.map FR.v) r))) }

def FR.add (dir : Rnd) (a b : FR) : FR := .ofFV dir [a, b] (.add dir (ofF32 a.v) (ofF32 b.v)) 0
def FR.sub (dir : Rnd) (a b : FR) : FR := .ofFV dir [a, b] (.add dir (ofF32 a.v) (ofF32 b.v).neg) 0
def FR.mul (dir : Rnd) (a b : FR) : FR := .ofFV dir [a, b] (.mul (ofF32 a.v) (ofF32 b.v)) 0
def FR.fma (dir : Rnd) (a b c : FR) : FR :=
  .ofFV dir [a, b, c] (.add dir (.mul (ofF32 a.v) (ofF32 b.v)) (ofF32 c.v)) 0
def FR.div (dir : Rnd) (a b : FR) : FR :=
  let x := ofF32 a.v
  let y := ofF32 b.v
  .ofFV dir [a, b] (.div x y) (if x.isFin && !x.isZero && y.isZero then 2 else 0)
def FR.sqrt (dir : Rnd) (a : FR) : FR := .ofFV dir [a] (.sqrt (ofF32 a.v)) 0

/-- Max and min: exact, invalid only for a signaling NaN. -/
def FR.max (a b : FR) : FR := { v := fMax a.v b.v, fl := Nat.lor (Nat.lor a.fl b.fl) (b2n (signaling a.v || signaling b.v)) }
def FR.min (a b : FR) : FR := { v := fMin a.v b.v, fl := Nat.lor (Nat.lor a.fl b.fl) (b2n (signaling a.v || signaling b.v)) }

/-- The flags of a conversion that loses something (R154, R155): overflow, underflow and inexact. -/
def convFlags (x y : FV) (arg : Nat) : Nat :=
  let same := !(x.lt y || y.lt x) && !x.isNan
  if x.isNan then b2n (signaling arg)
  else if same then 0
  else 16 + (if y.isFin then 0 else 4) + (if y.isZero then 8 else 0)

end Sys2Proof.Machine
end

