-- ==== Sys2Proof/Machine/Codings.lean ====
section
/-! DEFINITION. Sys2Proof/Machine/Codings.lean: the codings of tile blocks (Table 11-8): C1 (R345) and C2 (R346, R215). -/

namespace Sys2Proof.Machine

/-- A little-endian list of `k`-byte values. -/
def packVals (k : Nat) (l : List Nat) : Bytes := l.flatMap (leBytes k)

/-- The byte of a tile block at which byte b of row r lies, by the word rotation of R139. -/
def rotByte (r b : Nat) : Nat := 128 * r + b / 64 * 64 + (b % 64 / 4 + r) % 16 * 4 + b % 4

/-- The bytes of a tile block in logical element order: the word rotation of R139 undone. -/
def logicalBlock (b : Bytes) : Bytes :=
  (List.range 16384).map fun i => b.getD (rotByte (i / 128) (i % 128)) 0

/-- A tile block laid out from its logical bytes (R139). -/
def rotatedBlock (b : Bytes) : Bytes :=
  (List.range 16384).map fun i =>
    let r := i / 128
    let o := i % 128
    b.getD (128 * r + o / 64 * 64 + (o % 64 / 4 + 16 - r % 16) % 16 * 4 + o % 4) 0

/-- Zero-run coding, `k` zeros pending (R345). -/
def zeroRuns : Nat → Bytes → Bytes
  | k, [] => if k = 0 then [] else [0, BitVec.ofNat 8 (k - 1)]
  | k, b :: l =>
    if b = 0 then (if k = 256 then 0 :: BitVec.ofNat 8 255 :: zeroRuns 1 l else zeroRuns (k + 1) l)
    else if k = 0 then b :: zeroRuns 0 l
    else 0 :: BitVec.ofNat 8 (k - 1) :: b :: zeroRuns 0 l

/-- The exponent deltas of a run of elements (R345). -/
def expDeltas : Nat → List Nat → Bytes
  | _, [] => []
  | prev, e :: l => BitVec.ofNat 8 (e + 256 - prev) :: expDeltas e l

/-- The C1 form of a tile block, or its C0 form where that is not larger (R345); `wide` for FP32 and INT32. -/
def encodeC1 (wide : Bool) (blk : Bytes) : Bytes :=
  let lb := logicalBlock blk
  let w := if wide then 4 else 2
  let es := (List.range (16384 / w)).map fun i => fieldAt lb (w * i) w
  let ex := fun v => if wide then bits v 30 23 else bits v 14 7
  let rest := fun v => if wide then leBytes 3 (v / 2 ^ 31 % 2 * 2 ^ 23 + v % 2 ^ 23) else leBytes 1 (v / 2 ^ 15 % 2 * 128 + v % 128)
  let zd := zeroRuns 0 (expDeltas 0 (es.map ex))
  let zr := zeroRuns 0 (es.flatMap rest)
  let out := leBytes 2 zd.length ++ leBytes 2 zr.length ++ zd ++ zr
  let padded := out ++ List.replicate ((64 - out.length % 64) % 64) 0
  if padded.length ≤ 16320 then padded else blk

/-- A run of bytes with its zero runs undone (R345). -/
def undoRuns : Bytes → Bytes
  | [] => []
  | [b] => [b]
  | b :: n :: l => if b = 0 then List.replicate (n.toNat + 1) 0 ++ undoRuns l else b :: undoRuns (n :: l)

/-- The exponents behind a run of deltas (R345). -/
def undoDeltas : Nat → Bytes → List Nat
  | _, [] => []
  | prev, d :: l =>
    let e := (prev + d.toNat) % 256
    e :: undoDeltas e l

/-- A tile block from its C1 form (R345). -/
def decodeC1 (wide : Bool) (b : Bytes) : Bytes :=
  let w := if wide then 4 else 2
  let body := b.drop 4
  let ex := undoDeltas 0 (undoRuns (body.take (fieldAt b 0 2)))
  let rest := undoRuns ((body.drop (fieldAt b 0 2)).take (fieldAt b 2 2))
  rotatedBlock (ex.zipIdx.flatMap fun e =>
    if wide then
      let r := fieldAt rest (3 * e.2) 3
      leBytes w (r / 2 ^ 23 * 2 ^ 31 + e.1 * 2 ^ 23 + r % 2 ^ 23)
    else
      let r := fieldAt rest e.2 1
      leBytes w (r / 128 * 2 ^ 15 + e.1 * 128 + r % 128))

/-- The 32-element groups of a block's logical elements, quantized (R346). -/
def groupsC2 (wide : Bool) (blk : Bytes) : List (Nat × List Nat) :=
  let lb := logicalBlock blk
  let w := if wide then 4 else 2
  let f := if wide then fp32 else bf16
  (List.range (16384 / (32 * w))).map fun g =>
    quantBlock e4m3 none 0 ((List.range 32).map fun i => f.decode false (fieldAt lb (w * (32 * g + i)) w))

/-- Elements of 4 bytes (R345, R346). -/
def Obj.wide (o : Obj) : Bool := o.format = 4 || o.format = 5

/-- The stored C2 form of a block (R346): elements, then scales. -/
def encodeC2 (wide : Bool) (blk : Bytes) : Bytes :=
  let gs := groupsC2 wide blk
  gs.flatMap (fun g => packVals 1 g.2) ++ packVals 1 (gs.map Prod.fst)

/-- An element decoded from C2 (R346, R215). -/
def decodeC2 (wide : Bool) (e8 v : Nat) : Nat :=
  let f := if wide then fp32 else bf16
  f.narrow (scaled e4m3 false e8 v)

/-- A block as it reads once it has been stored in C2, or sent in it (R215, R346). -/
def throughC2 (wide : Bool) (blk : Bytes) : Bytes :=
  let w := if wide then 4 else 2
  rotatedBlock ((groupsC2 wide blk).flatMap fun g => g.2.flatMap fun v => leBytes w (decodeC2 wide g.1 v))

end Sys2Proof.Machine
end

