-- ==== Sys2Proof/Machine/Memory.lean ====
section
/-! DEFINITION. Sys2Proof/Machine/Memory.lean: device memory (11_memory.md, 12_integrity.md): canonical cell lists, sector
check states, device addresses, homes and stack room, pre-images, shadow blocks and region-cache lines. -/

namespace Sys2Proof.Machine

/-- An entry put into a list of keyed entries kept by rising key. -/
def putKey {α : Type} : List (Nat × α) → Nat → α → List (Nat × α)
  | [], k, v => [(k, v)]
  | (k', v') :: l, k, v =>
    if k < k' then (k, v) :: (k', v') :: l
    else if k = k' then (k, v) :: l
    else (k', v') :: putKey l k v

/-- The entry of a key. -/
def getKey {α : Type} : List (Nat × α) → Nat → Option α
  | [], _ => none
  | (k', v') :: l, k => if k = k' then some v' else getKey l k

/-- The entries whose keys lie outside [lo, lo + n). -/
def dropKeys {α : Type} (l : List (Nat × α)) (lo n : Nat) : List (Nat × α) :=
  l.filter fun p => p.1 < lo || lo + n ≤ p.1

/-- The entries whose keys lie in [lo, lo + n). -/
def pickKeys {α : Type} (l : List (Nat × α)) (lo n : Nat) : List (Nat × α) :=
  l.filter fun p => !(p.1 < lo || lo + n ≤ p.1)

/-- Keys rise strictly. -/
def keysRise {α : Type} : List (Nat × α) → Bool
  | [] => true
  | [_] => true
  | p :: q :: l => p.1 < q.1 && keysRise (q :: l)

/-- The canonical form of device memory: bytes and sectors each by rising address, once each. -/
abbrev Memory.wf (m : Memory) : Prop := keysRise m.cells = true ∧ keysRise m.sectors = true

/-- The bytes of a run as cells from an address up. -/
def runCells : Nat → Bytes → List Host.Cell
  | _, [] => []
  | a, b :: bs => (a, b) :: runCells (a + 1) bs

/-- Bytes put at an address of a rising list. -/
def putBytes (l : List Host.Cell) (a : Nat) (bs : Bytes) : List Host.Cell :=
  l.filter (·.1 < a) ++ runCells a bs ++ l.filter (a + bs.length ≤ ·.1)

/-- The bytes at consecutive addresses of a rising list that starts there, with a default for each address not listed. -/
def cellRun (dflt : Nat → Byte) : List Host.Cell → Nat → Nat → Bytes
  | _, _, 0 => []
  | [], a, n + 1 => dflt a :: cellRun dflt [] (a + 1) n
  | (k, b) :: l, a, n + 1 =>
    if k = a then b :: cellRun dflt l (a + 1) n else dflt a :: cellRun dflt ((k, b) :: l) (a + 1) n

/-- Several keyed entries put in turn. -/
def putAll {α : Type} (l : List (Nat × α)) (es : List (Nat × α)) : List (Nat × α) :=
  es.foldl (fun l e => putKey l e.1 e.2) l

/-- Bytes of one tile block. -/
def blockBytes : Nat := 16384

/-- The tile block an address lies in, by its first byte's address. -/
def blockOf (a : Nat) : Nat := a / 16384 * 16384

/-- The device address of an object's byte (Table 11-4). The objects of an absorbed module keep their indices (R399): they
stand in the object table from 2^20 up, and their addresses here carry a bit 64 that no device address has. -/
def devAddr (idx off : Nat) : Nat := 2 ^ 60 + idx % 2 ^ 20 * 2 ^ 40 + off + if idx < 2 ^ 20 then 0 else 2 ^ 64

/-- The object-table index of a device address. -/
def addrIndex (a : Nat) : Nat := a / 2 ^ 40 % 2 ^ 20 + if a < 2 ^ 64 then 0 else 2 ^ 20

/-- The offset of a device address within its object. -/
def addrOffset (a : Nat) : Nat := a % 2 ^ 40

/-- Blocks of an object. -/
def Obj.blocks (o : Obj) : Nat := o.size / 16384

/-- Bytes of one stored block (R322). -/
def storedBlock (coding format : Nat) : Nat := if coding = 2 then (if format = 4 then 4224 else 8448) else 16384

/-- A context's device address as it is resolved: an absorbed context's through the twin's object table (R399). Address 0
names no memory. -/
def Core.resolve (c : Core) (ctx a : Nat) : Nat :=
  if (c.ctx ctx).absorbedTag && a ≠ 0 && a < 2 ^ 64 then a + 2 ^ 64 else a

/-- The live object of a context that holds a range of device addresses (R316, R317). -/
def Core.find (c : Core) (ctx a0 n : Nat) : Option (Nat × Obj) :=
  let a := c.resolve ctx a0
  if a % 2 ^ 64 / 2 ^ 60 = 1 then
    match c.obj (addrIndex a) with
    | some o => if o.ctx = ctx ∧ addrOffset a + n ≤ o.size then some (addrIndex a, o) else none
    | none => none
  else none

/-- Stack capacity for object homes in bytes (R315). -/
def stackCapacity (s : Nat) : Nat := (if s % 6 < 4 then 48816 else 48800) * 2 ^ 20

/-- Bytes of a stack that object homes and the mirror's homes use (R315). -/
def stackUsed (objs : List (Nat × Obj)) (s : Nat) : Nat :=
  (objs.map fun p => (p.2.homes.filter (· = .t2 s)).length * storedBlock p.2.coding p.2.format).sum

/-- T2 bytes that a harness uses (R322): its objects' T2 blocks and its contexts' save areas (R122). -/
def Core.t2Used (c : Core) (objs : List (Nat × Obj)) (h : Nat) : Nat :=
  (objs.map fun p => if p.2.harness = h then
      (p.2.homes.filter fun x => match x with | .t2 _ => true | .t3 .. => false).length * storedBlock p.2.coding p.2.format
    else 0).sum
  + (c.ctxs.map fun x => if x.state ≠ .free ∧ x.harness = h then
      (c.draft.bind fun d => d.slot x.slot).elim 0 fun sl => sl.cuCount * 1835008 else 0).sum

/-- The T3 ranges that a harness uses, as (host address, bytes): two stored blocks for each block (R334). -/
def t3Ranges (objs : List (Nat × Obj)) (h : Nat) : List (Nat × Nat) :=
  objs.flatMap fun p => if p.2.harness = h then
      p.2.homes.filterMap fun x => match x with
        | .t3 off _ => some (off, 2 * storedBlock p.2.coding p.2.format)
        | .t2 _ => none
    else []

/-- The lowest free range of `n` bytes in a window (R337). -/
def lowestFree (used : List (Nat × Nat)) (n : Nat) (win : Nat × Nat) : Option Nat :=
  let ok := fun o => win.1 ≤ o && o + n ≤ win.1 + win.2 && used.all fun r => o + n ≤ r.1 || r.1 + r.2 ≤ o
  let cands := (win.1 :: used.map fun r => r.1 + r.2).filter ok
  cands.foldl (fun m o => some (m.elim o (min o))) none

/-- The dies of an affinity mask, ascending; all four when 0. -/
def affinityDies (m : Nat) : List Nat := if m % 16 = 0 then [0, 1, 2, 3] else (List.range 4).filter (bitOf m)

/-- The stacks tried for block t, in the order of R337. -/
def homeOrder (dies : List Nat) (t : Nat) : List Nat :=
  let k := dies.length
  let first := t % k
  (List.range k).flatMap fun i =>
    let d := dies.getD ((first + i) % k) 0
    (List.range 6).map fun j => 6 * d + ((t / k) % 6 + j) % 6

/-- What placement keeps while it homes blocks one by one: bytes used by stack, T2 bytes used by the harness, T3 ranges
in use. -/
structure PlaceAcc where
  used : List Nat
  quotaUsed : Nat
  t3 : List (Nat × Nat)
  deriving DecidableEq, Repr

/-- The home of one block (R337), or none where it fits nowhere. -/
def placeOne (dies : List Nat) (quota stored : Nat) (win : Nat × Nat) (farOk : Bool) (t : Nat) (p : PlaceAcc) :
    Option (Home × PlaceAcc) :=
  let room := fun s => p.used.getD s 0 + stored ≤ stackCapacity s
  match (if p.quotaUsed + stored ≤ quota then (homeOrder dies t).find? room else none) with
  | some s => some (.t2 s, { p with used := modifyAt p.used s (· + stored), quotaUsed := p.quotaUsed + stored })
  | none =>
    if farOk then (lowestFree p.t3 (2 * stored) win).map fun o => (.t3 o false, { p with t3 := (o, 2 * stored) :: p.t3 })
    else none

/-- The homes of blocks t, t + 1, … (R337). -/
def placeAll (dies : List Nat) (quota stored : Nat) (win : Nat × Nat) (farOk : Bool) : Nat → Nat → PlaceAcc → Option (List Home)
  | 0, _, _ => some []
  | n + 1, t, p =>
    (placeOne dies quota stored win farOk t p).bind fun r =>
      (placeAll dies quota stored win farOk n (t + 1) r.2).map (r.1 :: ·)

/-- What placement starts from: the module's objects and the mirror's homes (R315, R385), and the stacks, the quota and the T3 ranges
that moves are on the way to take. -/
def Core.placeAcc (c : Core) (mirror : List (Nat × Obj)) (h : Nat) : PlaceAcc :=
  let all := c.objs ++ mirror
  let coming := c.moves.filterMap fun m => match m.dest, c.obj m.obj with
    | .t2 st, some o => some (st, o, storedBlock o.coding o.format, match o.homes[m.blk]? with | some (.t2 _) => false | _ => true)
    | _, _ => none
  let toward := fun (st : Nat) => ((coming.filter fun e => e.1 = st).map fun e => e.2.2.1).sum
  let more := ((coming.filter fun e => e.2.1.harness = h && e.2.2.2).map fun e => e.2.2.1).sum
  let moving := c.moves.filterMap fun m => match m.dest, c.obj m.obj with
    | .t3 off _, some o => if o.harness = h then some (off, 2 * storedBlock o.coding o.format) else none
    | _, _ => none
  { used := (List.range 24).map fun st => stackUsed all st + toward st, quotaUsed := c.t2Used all h + more
    t3 := t3Ranges c.objs h ++ moving }

/-- A block of a PERSIST object of this module. -/
def Core.persists (c : Core) (b : Nat) : Bool := (c.obj (addrIndex b)).elim false fun o => o.cls = 0

/-- The home of the block at an address. -/
def Core.homeOf (c : Core) (a : Nat) : Option Home :=
  (c.obj (addrIndex a)).bind fun o => o.homes[addrOffset a / 16384]?

/-- The host address of a byte homed in T3 (R334): a window's draft that moves it leaves the block where it is (R327). -/
def Core.farAddr (c : Core) (a : Nat) : Option Nat :=
  match c.obj (addrIndex a), c.homeOf a with
  | some o, some (.t3 at_ second) => some (at_ + (if second then storedBlock o.coding o.format else 0) + addrOffset a % 16384)
  | _, _ => none

/-- The stack that homes an address, 0 where it is not in T2. -/
def Core.stackOf (c : Core) (a : Nat) : Nat :=
  match c.homeOf a with
  | some (.t2 s) => s
  | _ => 0

/-- The physical sector index of an address within its stack (R354). -/
def Core.physSector (c : Core) (a : Nat) : Nat :=
  let i := addrIndex a
  let t := addrOffset a / 16384
  (Config.sectorBase (c.stackOf a) i t ((c.obj i).elim 0 Obj.created) + addrOffset a % 16384 / 64) % 805306368

/-- The tag of an address's sector (Table 12-1). -/
def Core.tagOf (c : Core) (a : Nat) : Nat :=
  match c.obj (addrIndex a) with
  | some o => if o.mirrorTag then 0x40 else c.handle o.ctx
  | none => 0

/-- The byte at an address in a memory: as written, or what a never-written byte holds. -/
def Core.memByte (c : Core) (m : Memory) (a : Nat) : Byte :=
  match getKey m.cells a with
  | some b => b
  | none => Config.staleByte ((c.obj (addrIndex a)).elim 0 Obj.created) a

/-- The bytes at consecutive addresses in a memory, of one object. -/
def Core.memBytes (c : Core) (m : Memory) (a n : Nat) : Bytes :=
  let made := (c.obj (addrIndex a)).elim 0 Obj.created
  cellRun (Config.staleByte made) (pickKeys m.cells a n) a n

/-- The bytes of a tile block in memory. -/
def Core.blockNow (c : Core) (b : Nat) : Bytes := c.memBytes c.mem b 16384

/-- The syndrome a sector reads with: 0 where it is valid, or not written since its object was created and last written
under the same tag (R357); otherwise what is stored, or a free nonzero syndrome, the poison that a freed block keeps (R365) among them. -/
def Core.syndrome (c : Core) (m : Memory) (sec : Nat) : Nat :=
  match getKey m.sectors sec with
  | some .valid => 0
  | some (.bad y) => y
  | none =>
    let made := (c.obj (addrIndex (64 * sec))).elim 0 Obj.created
    if Config.stalePass made sec then 0 else Config.free 0 sec % 0xFFFFFFFF + 1

/-- A block of memory replaced whole by what is held beside it. -/
def Memory.replaceBlock (m : Memory) (h : HeldBlock) : Memory :=
  { cells := putAll (dropKeys m.cells h.addr 16384) h.cells
    sectors := putAll (dropKeys m.sectors (h.addr / 64) 256) h.sectors }

/-- What a memory holds of a block. -/
def Memory.takeBlock (m : Memory) (ctx addr : Nat) (region : Option Nat) : HeldBlock :=
  { ctx := ctx, addr := addr, cells := pickKeys m.cells addr 16384, sectors := pickKeys m.sectors (addr / 64) 256,
    region := region }

/-- A block of a memory as a copy carries it, with the syndromes of its sectors (R358). -/
def Core.copyOf (c : Core) (m : Memory) (b : Nat) : CopiedBlock :=
  { addr := b, data := c.memBytes m b 16384
    bad := (List.range 256).filterMap fun k => if c.syndrome m (b / 64 + k) = 0 then none else some (k, c.syndrome m (b / 64 + k)) }

/-- A copied block written to a memory: each sector's mismatch is carried forward (R358). -/
def Memory.putCopy (m : Memory) (b : CopiedBlock) : Memory :=
  { cells := putBytes m.cells b.addr b.data
    sectors := putAll m.sectors ((List.range (b.data.length / 64)).map fun k =>
      (b.addr / 64 + k, (getKey b.bad k).elim SectorSt.valid SectorSt.bad)) }

/-- What a context's tasks see: memory with the blocks that a completed fill or copy of the pick wrote for it (R536). -/
def Core.view (c : Core) (ctx : Nat) : Memory :=
  (c.pm.shadow.filter fun h => h.byFill && h.ctx = ctx).foldl Memory.replaceBlock c.mem

/-- Bytes read by a context's task or engine. -/
def Core.readAs (c : Core) (ctx a0 n : Nat) : Bytes :=
  let a := c.resolve ctx a0
  c.memBytes (c.view ctx) a n

/-- A task's argument bytes: those read when it started (R156), or what its engine reads there, which sees none of the pick's shadow blocks
(R536). -/
def Core.argsOf (c : Core) (ctx : Nat) (k : Task) (n : Nat) : Bytes :=
  (k.args.getD (c.memBytes c.mem (c.resolve ctx k.desc.args) n)).take n

/-- An update round of the object is under way (R257). -/
def Obj.inUpdate (o : Obj) : Bool := !o.rounds.isEmpty

/-- The version of a weight object as it reads (R257). -/
def Obj.versionNow (o : Obj) : Nat := if o.inUpdate then 0xFFFFFFFF else o.version

/-- The little-endian number at an address. -/
def Core.readNat (c : Core) (ctx a n : Nat) : Nat := leNat (c.readAs ctx a n)

/-- The sectors a range covers. -/
def sectorsOf (a n : Nat) : List Nat :=
  if n = 0 then [] else (List.range ((a + n - 1) / 64 - a / 64 + 1)).map (a / 64 + ·)

/-- A range's sectors after a write of it (R357): a whole sector becomes valid; a part of one merges, so that a valid
sector stays valid, an unwritten one that passes its check becomes valid with the bytes it held, and a failing or
poisoned one stays as it is. -/
def Core.writeMem (c : Core) (m : Memory) (a : Nat) (data : Bytes) : Memory :=
  let n := data.length
  let m1 := (sectorsOf a n).foldl (fun (m : Memory) sec =>
    if a ≤ 64 * sec ∧ 64 * sec + 64 ≤ a + n then { m with sectors := putKey m.sectors sec .valid }
    else match getKey m.sectors sec with
      | some _ => m
      | none =>
        if c.syndrome m sec = 0 then
          { cells := putBytes m.cells (64 * sec) (c.memBytes m (64 * sec) 64)
            sectors := putKey m.sectors sec .valid }
        else m) m
  { m1 with cells := putBytes m1.cells a data }

/-- A shadow block is wanted on the stack that homes an address; none where its pool is empty (R333 to R335). A block
homed in T3 takes its other slot and no pool block. -/
def Core.takeShadow (c : Core) (a : Nat) : Option Core :=
  match c.homeOf a with
  | some (.t2 s) =>
    if c.pm.free.getD s 0 = 0 then none
    else some { c with pm := { c.pm with free := modifyAt c.pm.free s (· - 1) } }
  | _ => some c

/-- The shadow block of an address, if the pick has one. -/
def Core.shadowAt (c : Core) (a : Nat) : Option HeldBlock := c.pm.shadow.find? (·.addr = blockOf a)

/-- The whole bit of a block is set (R370). -/
def Core.setWhole (c : Core) (a : Nat) : Core :=
  let t := addrOffset a / 16384
  c.setObj (addrIndex a) fun o => if o.whole.contains t then o else { o with whole := t :: o.whole }

/-- A write covers a repair's sector whole, or touches one that only the scrubber reads (R371, Table 12-4). -/
def Repair.covered (r : Repair) (a n : Nat) : Bool :=
  (a ≤ 64 * r.sector && 64 * r.sector + 64 ≤ a + n)
    || (r.reader.isNone && r.also.isEmpty && a < 64 * r.sector + 64 && 64 * r.sector < a + n)

/-- Repairs that a write covers are cancelled (Table 12-4). -/
def Core.dropCovered (c : Core) (a n : Nat) : Core := { c with repairs := c.repairs.filter fun r => !r.covered a n }

/-- What an engine's write of a whole block leaves in it: its values as the stored form gives them back, where the object is of C2 (R346,
R351). -/
def Core.coded (c : Core) (a : Nat) (data : Bytes) : Bytes :=
  match c.obj (addrIndex a) with
  | some o => if o.coding = 2 && data.length = 16384 then throughC2 o.wide data else data
  | none => data

/-- An engine writes bytes: into the block's shadow block, which starts as the committed block (R60), and whose whole bit is set
where it is written in one operation (R370). False where the pool of the stack is empty and the writer stalls (R335). -/
def Core.shadowWrite (c0 : Core) (ctx a : Nat) (bytes : Bytes) (fill : Bool) : Core × Bool :=
  let blk := blockOf a
  let data := c0.coded a bytes
  let c := (if data.length = 16384 then c0.setWhole a else c0).dropCovered a data.length
  match c0.shadowAt a with
  | some h =>
    let m := c.writeMem { cells := h.cells, sectors := h.sectors } a data
    let put := fun (x : HeldBlock) => if x.addr = blk then { x with cells := m.cells, sectors := m.sectors } else x
    ({ c with pm := { c.pm with shadow := c.pm.shadow.map put } }, true)
  | none =>
    match c.takeShadow a with
    | none => (c0, false)
    | some c' =>
      let h := c.mem.takeBlock ctx blk none
      let m := c.writeMem { cells := h.cells, sectors := h.sectors } a data
      let new : HeldBlock := { h with cells := m.cells, sectors := m.sectors, byFill := fill }
      ({ c' with pm := { c'.pm with shadow := c'.pm.shadow ++ [new] } }, true)

/-- A copied block written to a shadow block, each sector's mismatch carried forward (R358). -/
def Core.shadowCopy (c : Core) (ctx : Nat) (b : CopiedBlock) : Core × Bool :=
  let r := c.shadowWrite ctx b.addr b.data false
  let bad := b.bad.map fun e => (b.addr / 64 + e.1, SectorSt.bad e.2)
  let put := fun (h : HeldBlock) => if h.addr = blockOf b.addr then { h with sectors := putAll h.sectors bad } else h
  if r.2 then ({ r.1 with pm := { r.1.pm with shadow := r.1.pm.shadow.map put } }, true) else r

/-- The pieces of a run of bytes that lie in one tile block each, with their addresses. -/
def blockPieces : Nat → Nat → Bytes → List (Nat × Bytes)
  | 0, _, _ => []
  | fuel + 1, a, bs =>
    if bs.isEmpty then [] else
      let n := blockOf a + 16384 - a
      (a, bs.take n) :: blockPieces fuel (a + n) (bs.drop n)

/-- An engine writes a run of bytes that may span blocks. -/
def Core.engineWrite (c : Core) (ctx a0 : Nat) (data : Bytes) (fill : Bool) : Core × Bool :=
  let a := c.resolve ctx a0
  (blockPieces (data.length / 16384 + 2) a data).foldl (fun (p : Core × Bool) e =>
    let r := p.1.shadowWrite ctx e.1 e.2 fill
    (r.1, p.2 && r.2)) (c, true)

/-- What an engine's last write left of a range within a block: its shadow block, or the block. -/
def Core.lastWrite (c : Core) (a : Nat) : Memory := (c.shadowAt a).elim c.mem fun h => { cells := h.cells, sectors := h.sectors }

/-- A range of one block holds these bytes, each of its sectors valid. -/
def Core.holds (c : Core) (a : Nat) (bytes : Bytes) : Bool :=
  let data := c.coded a bytes
  let m := c.lastWrite a
  (sectorsOf a data.length).all (fun sec => getKey m.sectors sec = some .valid) && c.memBytes m a data.length = data

/-- An engine keeps a range at these bytes: what differs is written; false where a part found no shadow block (R335). -/
def Core.engineKeep (c : Core) (ctx a : Nat) (data : Bytes) : Core × Bool :=
  (blockPieces (data.length / 16384 + 2) a data).foldl (fun (p : Core × Bool) e =>
    if p.1.holds e.1 e.2 then p else
    let r := p.1.shadowWrite ctx e.1 e.2 false
    (r.1, p.2 && r.2)) (c, true)

/-- Tasks' reads mark the tile blocks they read (R59). -/
def Core.mark (c : Core) (a n : Nat) : Core :=
  let blks := (List.range ((a % 16384 + n + 16383) / 16384)).map fun i => blockOf a + 16384 * i
  { c with pm := { c.pm with marks := blks.foldl (fun l b => if l.contains b then l else b :: l) c.pm.marks } }

/-- The number of cache lines of a region (Table 11-2), in lines of 1 KiB. -/
def Core.cacheLines (c : Core) (region : Nat) : Nat :=
  match c.draft with
  | none => 40 * 1024
  | some d =>
    let h := (d.harnessOfRegion region).getD 16
    let regs := (List.range 16).filter fun r => bitOf ((d.harness h).elim 0 HarnessDef.regions) r
    let beam := (regs.take (d.tier h).beam).contains region
    (48 - d.undoMib - if beam then 16 else 0) * 1024

/-- The sectors of a line that a range touches, as a mask. -/
def lineMask (line a n : Nat) : Nat :=
  ((List.range 16).filter fun i => 1024 * line + 64 * i < a + n && a < 1024 * line + 64 * i + 64).foldl (fun m i => m + 2 ^ i) 0

/-- A line is of a C1 or C2 object, and held as part of its whole tile block (R328). -/
def Core.codedLine (c : Core) (line : Nat) : Bool := (c.obj (addrIndex (1024 * line))).elim false fun o => o.coding ≠ 0

/-- The lines that leave a cache with a line: those of its tile block where it is held whole (R328). -/
def Core.together (c : Core) (v l : Nat) : Bool := l = v || (l / 16 = v / 16 && c.codedLine v)

/-- Room for one more line among a region's: the lines there, or, where the cache is full, those without the least recently used of the
lines that the pick has not written (R329), with its block where that is held whole (R328); none where every line was written in it. -/
def Core.makeLine (c : Core) (region : Nat) (rest : List T1Line) : Option (List T1Line) :=
  if rest.length < c.cacheLines region then some rest
  else (rest.reverse.find? fun l => !(rest.any fun k => k.written && c.together l.line k.line)).map fun v =>
    rest.filter fun l => !c.together v.line l.line

/-- The region caches changed. -/
def Core.setT1 (c : Core) (t1 : List (List T1Line)) : Core := { c with onchip := { c.onchip with t1 := t1 } }

/-- A write takes its line in the writer's region and invalidates every other copy (R328); a pick's first write to it finds its committed
dirty sectors written back (R329). False where every line of the region was written in this pick, so that the block spills (R330). -/
def Core.touchLine (c : Core) (region line mask : Nat) : Core × Bool :=
  let others := c.onchip.t1.zipIdx.map fun p => if p.2 = region then p.1 else p.1.filter (·.line ≠ line)
  let mine := others.getD region []
  let old := mine.find? (·.line = line)
  match c.makeLine region (mine.filter (·.line ≠ line)) with
  | some rest =>
    let l : T1Line := { line := line, dirty := Nat.lor (old.elim 0 fun l => if l.written then l.dirty else 0) mask, written := true
                        held := old.elim 0 T1Line.held, staged := old.elim false T1Line.staged }
    (c.setT1 (setAt others region (l :: rest)), true)
  | none => (c.setT1 others, false)

/-- The lines that a range touches. -/
def linesOf (a n : Nat) : List Nat := if n = 0 then [] else (List.range ((a + n - 1) / 1024 - a / 1024 + 1)).map (a / 1024 + ·)

/-- The lines that an access to a range takes: with a coded object, those of its whole tile blocks (R328). -/
def Core.linesTaken (c : Core) (a n : Nat) : List Nat :=
  if c.codedLine (a / 1024) then linesOf (blockOf a) (a % 16384 + n + (16384 - (a + n) % 16384) % 16384) else linesOf a n

/-- The same for every line that a range takes. -/
def Core.touchRange (c : Core) (region a n : Nat) : Core × Bool :=
  (c.linesTaken a n).foldl (fun (p : Core × Bool) line =>
    let r := p.1.touchLine region line (lineMask line a n)
    (r.1, p.2 && r.2)) (c, true)

/-- The same, but for a block that the pick has spilled: its later writes go to the shadow block (R330). -/
def Core.touchUnless (c : Core) (spilled : Bool) (region a n : Nat) : Core × Bool := if spilled then (c, false) else c.touchRange region a n

/-- A read brings a line's sectors into the reader's region (R328). The other regions' copies become clean; a line that the pick wrote
in another region stays there alone. -/
def Core.fillLine (c : Core) (region line mask : Nat) : Core :=
  let away := c.onchip.t1.zipIdx.any fun p => p.2 ≠ region && p.1.any fun l => l.line = line && l.written
  if away then c else
  let others := c.onchip.t1.zipIdx.map fun p =>
    if p.2 = region then p.1 else p.1.map fun l => if l.line = line then { l with dirty := 0 } else l
  let mine := others.getD region []
  let old := mine.find? (·.line = line)
  let l : T1Line := { (old.getD { line := line, dirty := 0, written := false }) with held := Nat.lor (old.elim 0 T1Line.held) mask }
  ((c.makeLine region (mine.filter (·.line ≠ line))).elim c) fun rest => c.setT1 (setAt others region (l :: rest))

/-- A region holds the sector of an address. -/
def Core.t1Holds (c : Core) (region a : Nat) : Bool :=
  (c.onchip.t1.getD region []).any fun l => l.line = a / 1024 && bitOf l.held (a / 64 % 16)

/-- The sectors of a range that read clean now stand in the region's lines of them. -/
def Core.noteHeld (c : Core) (region a n : Nat) : Core :=
  let whole := fun (line : Nat) => ((List.range 16).filter fun i =>
    bitOf (lineMask line a n) i && getKey c.mem.sectors (16 * line + i) = some .valid).foldl (fun m i => m + 2 ^ i) 0
  let put := fun (l : T1Line) => if (linesOf a n).contains l.line then { l with held := Nat.lor l.held (whole l.line) } else l
  c.setT1 (modifyAt c.onchip.t1 region fun ls => ls.map put)

/-- A sector that a CU task read from its home comes into its region's cache (R161, R162, R331): never of a single-home object; of a
coded one with its whole tile block (R328). -/
def Core.cacheRead (c : Core) (region a : Nat) : Core :=
  match c.obj (addrIndex a) with
  | some o =>
    if o.single then c
    else if o.coding = 0 then c.fillLine region (a / 1024) (2 ^ (a / 64 % 16))
    else
      let blk := blockOf a
      let d := (List.range 16).foldl (fun (d : Core) i => d.fillLine region (blk / 1024 + i) 0) c
      (d.fillLine region (a / 1024) (2 ^ (a / 64 % 16))).noteHeld region blk 16384
  | none => c

/-- The lines of a list with at most so many staged: a staged line beyond them, the last used longest ago, is given up, or, dirty or
written in the pick, is an ordinary line. -/
def limitStaged : Nat → List T1Line → List T1Line
  | _, [] => []
  | n, l :: ls =>
    if !l.staged then l :: limitStaged n ls
    else match n with
      | k + 1 => l :: limitStaged k ls
      | 0 => if l.written || l.dirty ≠ 0 then { l with staged := false } :: limitStaged 0 ls else limitStaged 0 ls

/-- The lines of a region's cache that the pick has not written, up to the cache's size: less than 4 MiB of them is the shared-cache
fallback (R162). -/
def Core.stageRoom (c : Core) (region : Nat) : Nat :=
  c.cacheLines region - ((c.onchip.t1.getD region []).filter T1Line.written).length

/-- The walker's staging of operand blocks (R161): their lines are the region's staged ones, 4 MiB at most. Under the fallback nothing is
staged, and what was read stands as ordinary lines (R162). -/
def Core.stage (c : Core) (region : Nat) (blks : List Nat) : Core :=
  if c.stageRoom region < 4096 then c
  else
    let put := fun (l : T1Line) => if blks.contains (l.line / 16 * 16384) then { l with staged := true } else l
    c.setT1 (modifyAt c.onchip.t1 region fun ls => limitStaged 4096 (ls.map put))

/-- The tile blocks that a range touches. -/
def blocksOf (a n : Nat) : List Nat := (List.range ((a % 16384 + n + 16383) / 16384)).map fun i => blockOf a + 16384 * i

/-- The blocks of a range that are homed in T3 while the host link is down, by their first sector: accesses to them stall (R428). -/
def State.farStalled (s : State) (a n : Nat) : List Nat :=
  if s.linkUp then [] else
  ((blocksOf a n).filter fun b => match s.core.homeOf b with | some (.t3 ..) => true | _ => false).map (· / 64)

/-- What an access to a range waits for: lines that the host caches (R440), and blocks behind a lost host link (R428). -/
def State.awaited (s : State) (a n : Nat) (read : Bool) : List Nat := s.tracked a n read ++ s.farStalled a n

/-- The blocks of a range were written by a task of an order (R386). -/
def Core.noteWriter (c : Core) (jno a n : Nat) : Core :=
  { c with pm := { c.pm with writers := (blocksOf a n).foldl (fun l b => putKey l b jno) c.pm.writers } }

/-- The blocks of a range were written by an update task of an order (R386). -/
def Core.noteUpdate (c : Core) (jno a n : Nat) : Core :=
  { c with pm := { c.pm with updated := (blocksOf a n).foldl (fun l b => putKey l b jno) c.pm.updated } }

/-- What became of a CU task's write. -/
inductive WriteEnd | landed | spilled | stalled | undo
  deriving DecidableEq, Repr

/-- The parts of sectors that a write into region-cache lines adds: a sector whose bytes the pick has all written reaches its
home whole (R328, R357). -/
def Core.mergeParts (c : Core) (a n : Nat) : Core :=
  (sectorsOf a n).foldl (fun (c : Core) sec =>
    if getKey c.mem.sectors sec = some .valid then c else
    let lo := max a (64 * sec) - 64 * sec
    let hi := min (a + n) (64 * sec + 64) - 64 * sec
    let mask := Nat.lor ((getKey c.pm.parts sec).getD 0) (2 ^ hi - 2 ^ lo)
    if mask = 2 ^ 64 - 1 then { c with mem := { c.mem with sectors := putKey c.mem.sectors sec .valid } }
    else { c with pm := { c.pm with parts := putKey c.pm.parts sec mask } }) c

/-- The block leaves a region's lines: a spill has written it to the home (R330). -/
def Core.spillOut (c : Core) (region blk : Nat) : Core :=
  { c with
    onchip := { c.onchip with t1 := modifyAt c.onchip.t1 region fun ls => ls.filter fun l => l.line / 16 ≠ blk / 16384 }
    pm := { c.pm with parts := c.pm.parts.filter fun e => e.1 / 256 ≠ blk / 16384 } }

/-- The shadow block that a completed fill or copy of the pick wrote for a context at an address (R536). -/
def Core.filledShadow (c : Core) (ctx a : Nat) : Bool := (c.shadowAt a).elim false fun h => h.byFill && h.ctx = ctx

/-- A write of a CU task to bytes of one tile block lands (R59, R329 to R331, R334): the pre-image of a marked block
first, then the line or the home's shadow block, which takes the block's later writes too, then the bytes. In a block that a fill or a copy
has written for the context in the pick, it goes to that shadow block, which the context's tasks read (R536). -/
def Core.cuWriteBlock (c : Core) (t : TaskRef) (ctx region : Nat) (o : Obj) (a : Nat) (data : Bytes) : Core × WriteEnd :=
  let blk := blockOf a
  if c.filledShadow ctx a then (((c.shadowWrite ctx a data true).1).noteWriter t.jno a data.length, .landed) else
  let task := c.task t
  let needPre := c.pm.marks.contains blk && !(c.pm.pre.any (fun h => h.addr = blk && h.region.isSome))
  if needPre && task.elim false (fun x => x.desc.undo < x.taken + 1) then (c, .undo) else
  let has := c.pm.pre.any fun h => h.addr = blk && h.region.isNone
  let touched := c.touchUnless has region a data.length
  let spill := !o.single && !touched.2
  let needShadow := (o.single || spill) && !has
  match (if needShadow then c.takeShadow a else some c) with
  | none => (c, .stalled)
  | some c1 =>
    let c2 := if o.single then c1 else { c1 with onchip := touched.1.onchip }
    let pre := (if needPre then [c.mem.takeBlock ctx blk (some region)] else [])
      ++ (if needShadow then [c.mem.takeBlock ctx blk none] else [])
    let c3 := { c2 with
      pm := { c2.pm with pre := c2.pm.pre ++ pre, writers := putKey c2.pm.writers blk t.jno }
      mem := c.writeMem c2.mem a data
      changed := (blk, 0) :: c2.changed.filter (·.1 ≠ blk) }
    let c4 := if needPre then c3.setTask t (fun x => { x with taken := x.taken + 1 }) else c3
    let c5 := if o.single || has then c4
      else if spill then (c4.mergeParts a data.length).spillOut region blk
      else (c4.mergeParts a data.length).noteHeld region a data.length
    (c5, if spill && needShadow then .spilled else .landed)

/-- The lineage records changed. -/
def Core.mapLineage (c : Core) (f : Lineage → Lineage) : Core :=
  { c with onchip := { c.onchip with lineage := c.onchip.lineage.map fun l => l.map f } }

/-- A block's lineage records are dropped when it changes (R367). -/
def Core.dropLineage (c : Core) (blk : Nat) : Core :=
  c.mapLineage fun r => if r.tile.contains blk then { r with dead := true } else r

/-- The 128 bytes of a lineage record in its die's ring (R368, Table 12-3). -/
def Lineage.encode (r : Lineage) : Bytes :=
  let b := r.desc ++ r.key ++ leBytes 8 r.pick ++ leBytes 2 r.ctx ++ leBytes 2 r.cu ++ leBytes 16 0
  b ++ leBytes 4 (crc32c b)

/-- The pending entries of the log that entry `i` of all those written stands for: itself, and those of the same sector (R361). -/
def Integ.pendingOf (g : Integ) (i : Nat) (p : Nat × IntegEntry) : Bool :=
  match (if g.logCount ≤ i + 256 then getKey g.log (i % 256) else none) with
  | some e => p.2.outcome = 3 && (p.1 = i % 256 || (p.2.stack = e.stack && p.2.sector = e.sector && p.2.tag = e.tag))
  | none => false

/-- The outcome of a detection's log entries changes when its repair ends. -/
def State.logOutcome (s : State) (i outcome : Nat) : State :=
  let mend := fun (p : Nat × IntegEntry) => if s.integ.pendingOf i p then (p.1, { p.2 with outcome := outcome }) else p
  { s with integ := { s.integ with log := s.integ.log.map mend } }

/-- A write to a range ends a repair: it covers it, or it made its sector whole together with the pick's other writes (Table 12-4). -/
def Core.mended (c : Core) (a n : Nat) (r : Repair) : Bool :=
  r.covered a n || (a < 64 * r.sector + 64 && 64 * r.sector < a + n && getKey c.mem.sectors r.sector = some .valid)

/-- Repairs that a write ends are cancelled, with outcome 4 in the log (R371, Table 12-4). -/
def State.cancelRepairs (s : State) (a n : Nat) : State :=
  ((s.core.repairs.filter (s.core.mended a n)).foldl (fun s r => s.logOutcome r.log 4) s).withCore fun c =>
    { c with repairs := c.repairs.filter fun r => !c.mended a n r }

/-- The log entries whose repair an engine's write has cancelled. -/
def State.settleLog (s : State) : State :=
  let kept := fun (p : Nat × IntegEntry) =>
    (s.core.repairs ++ s.twin.mirror.repairs).any fun r => s.integ.pendingOf r.log p
  let mend := fun (p : Nat × IntegEntry) => if p.2.outcome = 3 && !kept p then (p.1, { p.2 with outcome := 4 }) else p
  { s with integ := { s.integ with log := s.integ.log.map mend } }

/-- A write of a CU task (R59, R317, R343): refused as a context fault outside the context's objects or in a WINDOWED
object, and otherwise landed block by block. -/
def State.taskWrite (s : State) (t : TaskRef) (a : Nat) (data : Bytes) : State :=
  match s.core.taskCtx t, s.core.task t with
  | some ctx, some task =>
    match s.core.find ctx a data.length with
    | none => s.withCore fun c => c.raiseTask t 0x0704 a
    | some (_, o) =>
      if o.cls = 1 then s.withCore fun c => c.raiseTask t 0x0705 0 else
      let held := s.awaited (s.core.resolve ctx a) data.length false
      if !held.isEmpty then s.noteSnoop held else
      (blockPieces (data.length / 16384 + 2) (s.core.resolve ctx a) data).foldl (fun (s : State) e =>
        if !s.core.active t then s else
        let r := s.core.cuWriteBlock t ctx (cuRegion task.cu) o e.1 e.2
        match r.2 with
        | .undo => s.withCore fun c => c.raiseTask t 0x0203 0
        | .stalled => s.withCore fun c => { c with starved := true }
        | .spilled => (({ s with core := r.1.dropLineage (blockOf e.1) }).memEvent 1).cancelRepairs e.1 e.2.length
        | .landed => ({ s with core := r.1.dropLineage (blockOf e.1) }).cancelRepairs e.1 e.2.length) s
  | _, _ => s

/-- A context's pre-images are restored and its shadow blocks discarded (R64), and the region-cache lines that the pick wrote of its
objects are invalidated (R329). -/
def Core.restoreCtx (c : Core) (ctx : Nat) : Core :=
  let mine := c.pm.pre.filter (·.ctx = ctx)
  let shadows := c.pm.shadow.filter (·.ctx = ctx)
  let back := (mine.filter fun h => h.region.isNone) ++ shadows
  let free := back.foldl (fun l h => match c.homeOf h.addr with
    | some (.t2 s) => modifyAt l s (· + 1)
    | _ => l) c.pm.free
  let own := fun (l : T1Line) => l.written && (c.obj (addrIndex (1024 * l.line))).elim false fun o => o.ctx = ctx
  { c with
    mem := (mine.reverse).foldl Memory.replaceBlock c.mem
    onchip := { c.onchip with t1 := c.onchip.t1.map fun ls => ls.filter fun l => !own l }
    pm := { c.pm with
      pre := c.pm.pre.filter (·.ctx ≠ ctx), shadow := c.pm.shadow.filter (·.ctx ≠ ctx), free := free
      writers := c.pm.writers.filter fun w => (c.obj (addrIndex w.1)).elim true fun o => o.ctx ≠ ctx
      updated := c.pm.updated.filter fun w => (c.obj (addrIndex w.1)).elim true fun o => o.ctx ≠ ctx
      replays := c.pm.replays.filter (·.1 ≠ ctx) } }

/-- A block homed in T3 turns to its other slot (R334). -/
def Core.flipSlot (c : Core) (b : Nat) : Core :=
  match c.homeOf b with
  | some (.t3 off second) =>
    c.setObj (addrIndex b) fun o => { o with homes := setAt o.homes (addrOffset b / 16384) (.t3 off (!second)) }
  | _ => c

/-- The stored form of a block (R322, R345, R346). -/
def storedForm (o : Obj) (b : Bytes) : Bytes :=
  match o.coding with
  | 1 => encodeC1 o.wide b
  | 2 => encodeC2 o.wide b
  | _ => b

/-- A block in T3 as it is written to its slot in host memory (R334, R442). -/
def Core.farWriteOf (c : Core) (b : Nat) : List (Nat × Bytes) :=
  match c.farAddr b, c.obj (addrIndex b) with
  | some f, some o => [(f, storedForm o (c.blockNow b))]
  | _, _ => []

/-- A T3 address lies in a `GLB_UIO` range in force: it is reached by unordered I/O, and otherwise as host memory (R442). -/
def State.uioAt (s : State) (a : Nat) : Bool :=
  s.glb.uioNow.any fun e => e.2.2 && e.1 * 2 ^ 30 ≤ a && a < (e.1 + e.2.1) * 2 ^ 30

/-- The blocks in T3 that the tasks of an order, or its engine operation, wrote in the pick. -/
def Core.farBlocks (c : Core) (jno : Nat) : List Nat :=
  (((c.pm.writers ++ c.pm.updated).filter fun w => w.2 = jno && (c.farAddr w.1).isSome).map Prod.fst).eraseDups

/-- What is to be written of blocks in T3 (R334, R443): the block, and the address and bytes of its other slot. What has left stays out. -/
def Core.farDue (c : Core) (blks : List Nat) : List (Nat × Nat × Bytes) :=
  blks.flatMap fun b =>
    let c1 := (c.shadowAt b).elim c fun h => { c with mem := c.mem.replaceBlock h }
    ((c1.flipSlot b).farWriteOf b).filterMap fun w => if getKey c.pm.farSent b = some w.2 then none else some (b, w)

/-- Writes to T3 leave (R442, R443). -/
def State.farPut (s : State) (due : List (Nat × Nat × Bytes)) : State :=
  (s.emits (due.map fun e => .farWrite (s.uioAt e.2.1) e.2.1 e.2.2)).withCore fun c =>
    { c with pm := { c.pm with farSent := due.foldl (fun l e => putKey l e.1 e.2.2) c.pm.farSent } }

end Sys2Proof.Machine
end

