-- ==== Sys2Proof/Machine/Quiesce.lean ====
section
/-! DEFINITION. Sys2Proof/Machine/Quiesce.lean: module faults and the emergency quiesce (Table 2-5), its rollback (R41,
R64, R74) and the next step of Table 17-2; the two-bank structures of the flash (R472). -/

namespace Sys2Proof.Machine

/-- The valid bank with the highest sequence number (R472). -/
def Banks.current (b : Banks) : Option Bytes :=
  match b.a, b.b with
  | some x, some y => some (if x.1 < y.1 then y.2 else x.2)
  | some x, none => some x.2
  | none, some y => some y.2
  | none, none => none

/-- A change goes into the bank that does not hold the highest valid sequence number, with that number plus 1 (R472). -/
def Banks.write (b : Banks) (v : Bytes) : Banks :=
  match b.a, b.b with
  | some x, some y => if x.1 < y.1 then { b with a := some (y.1 + 1, v) } else { b with b := some (x.1 + 1, v) }
  | some x, none => { b with b := some (x.1 + 1, v) }
  | none, some y => { b with a := some (y.1 + 1, v) }
  | none, none => { b with a := some (1, v) }

/-- A manifest's image entry of a type (Table 17-4), where entries stand at 0x010 + 128e. -/
def imageEntry (set : Bytes) (typ : Nat) : Option Bytes :=
  ((List.range 3).map fun e => (set.drop (0x10 + 128 * e)).take 128).find? fun b => byteAt b 0 = typ

/-- The version in an image entry. -/
def entryVersion (set : Bytes) (typ : Nat) : Nat := (imageEntry set typ).elim 0 fun b => fieldAt b 4 4

/-- A Genentand version and a sequencer version lie in the ranges of a manifest's entries (R476, R381). -/
def fwListed (set : Bytes) (gv qv : Nat) : Bool :=
  match imageEntry set 1, imageEntry set 2 with
  | some g, some q => fieldAt q 16 4 ≤ gv && gv ≤ fieldAt q 20 4 && fieldAt g 16 4 ≤ qv && qv ≤ fieldAt g 20 4
  | _, _ => false

/-- The boot record's six bytes (R473), zeros where no bank is valid. -/
def State.bootRec (s : State) : Bytes := s.flash.boot.current.getD (List.replicate 6 0)

/-- A byte of the boot record is written, with the rest as it stands. -/
def State.setBootRec (s : State) (f : Bytes → Bytes) : State :=
  { s with flash := { s.flash with boot := s.flash.boot.write (f s.bootRec) } }

/-- The last BOOT code, in GLB_STATE and in the boot record (R492). -/
def State.bootCode (s : State) (code : Nat) : State :=
  ({ s with glb := { s.glb with bootCode := code } }).setBootRec fun b => b.take 4 ++ leBytes 2 code

/-- The module enters operational state, or waits for its host link in management-only state (R426, R444, R480); unlocked, it
stays there (R511). The first entry of a cold start writes the failed-start count (R478). -/
def State.enterOp (s : State) : State :=
  if s.proto.scope ≠ 0 then { s with glb := { s.glb with state := .mgmtOnly, ready := false } }
  else if !s.linkUp then { s with glb := { s.glb with state := .mgmtOnly, ready := true } }
  else
    let s1 := { s with glb := { s.glb with state := .operational, ready := false } }
    if !s1.fw.coldBoot then s1
    else
      let n : Byte := if s1.fw.set = 0 then 0 else 3
      ({ s1 with fw := { s1.fw with coldBoot := false, opened := true } }).setBootRec fun b => b.set 0 n

/-- The last completed beat: the counter names the pick in progress (R48). -/
def State.lastBeat (s : State) : Nat := s.pick.counter - 1

/-- The pair is in SYNC or HOLD (Table 17-2). -/
def State.inStep (s : State) : Bool := s.twin.state = .sync || s.twin.state = .hold

/-- What an emergency quiesce leads to by its cause (Table 17-2): a warm start, management-only state where the pair is
in SYNC or HOLD, or management-only state. -/
inductive AfterQuiesce | warm | haltPaired | halt
  deriving DecidableEq, Repr

/-- The row of Table 17-2 for a cause. -/
def afterQuiesce (cause : Nat) : AfterQuiesce :=
  if cause = 0 || cause = 0x0E02 || cause = 0x0E04 || cause = 0x0E06 then .warm
  else if cause = 0x0D21 || cause = 0x0D12 || cause = 0x0301 || cause = 0x0D22 then .haltPaired
  else .halt

/-- The intent of the quiesce notice (R396). -/
def quiesceIntent (cause : Nat) : Intent := if afterQuiesce cause = .warm then .warm else .lost

/-- The order of a sealed journal entry as it stands right after its acceptance. -/
def JEntry.newOrder (e : JEntry) : OrderSt :=
  { jno := e.jno, acc := (e.jno + 1) * 2 ^ 64, ring := e.ring, ringIndex := e.ringIndex, seq := e.seq, client := e.client, ctx := e.handle,
    ctxField := e.ctx, opcode := e.opcode, bytes := e.bytes, sealBeat := e.sealBeat }

/-- The record a sealed entry owes at once (Table 4-6). -/
def JEntry.firstRec (e : JEntry) : OwedRec :=
  let base : OwedRec :=
    { typ := 1, seq := e.seq, status := 0, result := 0, flags := 0, index := e.ringIndex, ctx := e.ctx, jno := e.jno }
  if e.kind = 1 then base
  else if e.kind = 2 then { base with typ := 3, status := e.status }
  else match e.dup with
    | none => { base with flags := 1 }
    | some (st, r) => { base with typ := 2, status := st, result := r, flags := 1 }

/-- A sealed entry takes effect on the orders and on its ring's owed records (R110, Table 4-6). -/
def Core.takeEntry (c : Core) (e : JEntry) : Core :=
  { c with
    orders := if e.kind = 1 then c.orders ++ [e.newOrder] else c.orders
    rings := modifyAt c.rings e.ring fun r => { r with owed := r.owed ++ [e.firstRec] }
    journalled := e.jno + 1 }

/-- Entries sealed in an abandoned beat stay accepted (R41). -/
def Core.retake (c : Core) (entries : List JEntry) : Core :=
  (entries.filter fun e => c.journalled ≤ e.jno).foldl Core.takeEntry { c with held := [] }

/-- P_d, W and the planning clock follow the draft in force (R91, R94, R97). -/
def State.followDraft (s : State) (d : Option Draft) : State :=
  { s with pick := { s.pick with
      pd10 := d.elim 50 Draft.period10, wd := d.elim 12 Draft.windowUs, plan := d.elim 0 Draft.planClock } }

/-- A value that a step changed returns to what it was, unless it has changed again since. -/
def back {α : Type} [DecidableEq α] (b a now : α) : α := if now = a then b else now

/-- The same for each position of a list of fixed length. -/
def backEach {α : Type} [DecidableEq α] (b a now : List α) : List α :=
  now.zipIdx.map fun p => back (b.getD p.2 p.1) (a.getD p.2 p.1) p.1

/-- What a step took from a list is in it again, in front, and what the step added is not. -/
def backList {α : Type} [DecidableEq α] (b a now : List α) : List α :=
  (b.filter fun e => !a.contains e) ++ now.filter fun e => b.contains e || !a.contains e

/-- The bits that a step set in an event register are clear again. -/
def backBits (b a now : Nat) : Nat := Nat.xor now (Nat.land now (Nat.land a (Nat.xor a b)))

/-- The pair's held items return. -/
def HeldSide.back (b a now : HeldSide) : HeldSide :=
  { items := backList b.items a.items now.items
    hashes := backList b.hashes a.hashes now.hashes
    rel := Machine.back b.rel a.rel now.rel
    digests := Machine.back b.digests a.digests now.digests
    base := Machine.back b.base a.base now.base
    full := backEach b.full a.full now.full
    done := backList b.done a.done now.done
    tell := backList b.tell a.tell now.tell }

/-- What is kept of the twin returns. -/
def Mirror.back (b a now : Mirror) : Mirror :=
  { objs := Machine.back b.objs a.objs now.objs
    ctxs := backEach b.ctxs a.ctxs now.ctxs
    rings := backEach b.rings a.rings now.rings
    jnl := backEach b.jnl a.jnl now.jnl
    entries := backList b.entries a.entries now.entries
    notices := backList b.notices a.notices now.notices
    items := backList b.items a.items now.items
    released := backList b.released a.released now.released
    told := backList b.told a.told now.told
    closed := backList b.closed a.closed now.closed
    arrived := now.arrived
    shadow := []
    taken := []
    finished := []
    compare := false
    mem := Machine.back b.mem a.mem now.mem
    counts := Machine.back b.counts a.counts now.counts
    groups := Machine.back b.groups a.groups now.groups
    last := Machine.back b.last a.last now.last
    replayed := Machine.back b.replayed a.replayed now.replayed
    slots := Machine.back b.slots a.slots now.slots
    quotas := Machine.back b.quotas a.quotas now.quotas
    repairs := now.repairs }

/-- The pair's state returns. -/
def Twin.back (b a now : Twin) : Twin :=
  { now with
    state := Machine.back b.state a.state now.state
    pairFail := Machine.back b.pairFail a.pairFail now.pairFail
    replacing := Machine.back b.replacing a.replacing now.replacing
    suspect := Machine.back b.suspect a.suspect now.suspect
    holds := Machine.back b.holds a.holds now.holds
    role := Machine.back b.role a.role now.role
    drainDue := Machine.back b.drainDue a.drainDue now.drainDue
    drain := Machine.back b.drain a.drain now.drain
    ctxMap := backEach b.ctxMap a.ctxMap now.ctxMap
    own := HeldSide.back b.own a.own now.own
    matched := Machine.back b.matched a.matched now.matched
    syncFrom := Machine.back b.syncFrom a.syncFrom now.syncFrom
    copyDone := Machine.back b.copyDone a.copyDone now.copyDone
    detected := Machine.back b.detected a.detected now.detected
    recopying := Machine.back b.recopying a.recopying now.recopying
    recopied := Machine.back b.recopied a.recopied now.recopied
    resume := Machine.back b.resume a.resume now.resume
    lastBeat := Machine.back b.lastBeat a.lastBeat now.lastBeat
    absorbAt := Machine.back b.absorbAt a.absorbAt now.absorbAt
    handbackAt := Machine.back b.handbackAt a.handbackAt now.handbackAt
    detachAt := Machine.back b.detachAt a.detachAt now.detachAt
    twinDetach := Machine.back b.twinDetach a.twinDetach now.twinDetach
    pairAt := Machine.back b.pairAt a.pairAt now.pairAt
    portUp := Machine.back b.portUp a.portUp now.portUp
    first := Machine.back b.first a.first now.first
    dropped := Machine.back b.dropped a.dropped now.dropped
    passed := Machine.back b.passed a.passed now.passed
    mirror := Mirror.back b.mirror a.mirror now.mirror
    event := backBits b.event a.event now.event }

/-- The pick's period, clock step and leadership return; what the leader announced in a marker that left stands (log entry 134). -/
def Pick.back (b a now : Pick) : Pick :=
  { now with
    period10 := Machine.back b.period10 a.period10 now.period10
    windowUs := Machine.back b.windowUs a.windowUs now.windowUs
    differs := Machine.back b.differs a.differs now.differs
    step := Machine.back b.step a.step now.step
    coming := backList b.coming a.coming now.coming
    request10 := Machine.back b.request10 a.request10 now.request10
    leader := Machine.back b.leader a.leader now.leader
    self := Machine.back b.self a.self now.self
    depth := Machine.back b.depth a.depth now.depth
    parent := Machine.back b.parent a.parent now.parent
    event := backBits b.event a.event now.event
    evMark := now.evMark.zipIdx.map fun p => backBits (b.evMark.getD p.2 0) (a.evMark.getD p.2 0) p.1
    wrote := Machine.back b.wrote a.wrote now.wrote }

/-- The changes of a beat to the registers of the other blocks return. -/
def State.undoStep (s : State) (e : Aside × Aside) : State :=
  let b := e.1
  let a := e.2
  { s with
    pick := Pick.back b.pick a.pick s.pick
    twin := Twin.back b.twin a.twin s.twin
    ord := { s.ord with regs := backEach b.regs a.regs s.ord.regs }
    glb := { s.glb with
      aperReg := backEach b.glb.aperReg a.glb.aperReg s.glb.aperReg
      uioNow := back b.glb.uioNow a.glb.uioNow s.glb.uioNow
      event := backBits b.glb.event a.glb.event s.glb.event }
    draft := { s.draft with
      state := back b.draft.state a.draft.state s.draft.state
      missReason := back b.draft.missReason a.draft.missReason s.draft.missReason
      event := backBits b.draft.event a.draft.event s.draft.event }
    flog := { s.flog with waiting := backList b.flog.waiting a.flog.waiting s.flog.waiting }
    opt := { s.opt with
      ports := backEach b.opt.ports a.opt.ports s.opt.ports
      carts := backEach b.opt.carts a.opt.carts s.opt.carts
      warm := backList b.opt.warm a.opt.warm s.opt.warm
      detour := back b.opt.detour a.opt.detour s.opt.detour
      event := backBits b.opt.event a.opt.event s.opt.event
      stranded := backList b.opt.stranded a.opt.stranded s.opt.stranded }
    reed := { s.reed with
      lossAddr := back b.reed.lossAddr a.reed.lossAddr s.reed.lossAddr
      lossKind := back b.reed.lossKind a.reed.lossKind s.reed.lossKind
      lossBeat := back b.reed.lossBeat a.reed.lossBeat s.reed.lossBeat
      epochBeat := back b.reed.epochBeat a.reed.epochBeat s.reed.epochBeat
      event := backBits b.reed.event a.reed.event s.reed.event
      losses := backList b.reed.losses a.reed.losses s.reed.losses
      drops := backList b.reed.drops a.reed.drops s.reed.drops
      holds := backList b.reed.holds a.reed.holds s.reed.holds
      absorbed := backList b.reed.absorbed a.reed.absorbed s.reed.absorbed }
    memr := { s.memr with event := backBits b.memr.event a.memr.event s.memr.event }
    integ := { s.integ with
      rate := back b.integ.rate a.integ.rate s.integ.rate
      event := backBits b.integ.event a.integ.event s.integ.event }
    mgt := { s.mgt with
      limitW := back b.mgt.limitW a.mgt.limitW s.mgt.limitW
      cause := back b.mgt.cause a.mgt.cause s.mgt.cause
      cap := back b.mgt.cap a.mgt.cap s.mgt.cap
      target := back b.mgt.target a.mgt.target s.mgt.target
      latchAt := back b.mgt.latchAt a.mgt.latchAt s.mgt.latchAt
      waiting := backList b.mgt.waiting a.mgt.waiting s.mgt.waiting
      due := backList b.mgt.due a.mgt.due s.mgt.due
      event := backBits b.mgt.event a.mgt.event s.mgt.event } }

/-- The effects of the open beat window outside `core` are discarded, the last step's first (R41). -/
def State.undoBeat (s : State) : State := { s.undo.foldl State.undoStep s with undo := [] }

/-- A publication of the abandoned beat is taken back in the windows that duplicates are answered from (R41, R117). -/
def State.unpublish (s : State) : State :=
  let open_ := fun (j : Nat) => s.core.orders.any fun o => o.jno = j && o.published.isNone
  let mend := fun (e : Nat × Nat × Option (Nat × Nat)) => if open_ e.2.1 then (e.1, e.2.1, none) else e
  { s with ord := { s.ord with jnl := s.ord.jnl.map fun j => { j with window := j.window.map mend } } }

/-- The rollback of R41 and R64: the state of the last completed beat, with the entries sealed since, the notices the twin
stored and the pending repairs kept (Table 12-4). -/
def State.rollback (s : State) : State :=
  let kept := fun (o : OrderSt) => { o with stored := o.stored || (s.core.order o.jno).elim false OrderSt.stored }
  let c := s.committed.retake s.ord.entries
  let s1 := s.undoBeat.followDraft s.committed.draft
  ({ s1 with
    core := { c with orders := c.orders.map kept, repairs := s.core.repairs, snoops := s.core.snoops, waits := [] }
    pick := { s1.pick with phase := .span }
    mgt := { s1.mgt with harnessNow := [] }
    twin := { s1.twin with mirror := { s1.twin.mirror with shadow := [], taken := [], finished := [], compare := false } }
    draft := { s1.draft with
      due := false, prior := none
      lapsed := s1.draft.lapsed || (s1.draft.state = DraftState.armed && s1.draft.armedBeat ≤ s.pick.counter) } }).unpublish

/-- The management plane enters management-only state with a BOOT code. -/
def State.halt (s : State) (code : Nat) : State := (({ s with glb := { s.glb with state := .mgmtOnly, ready := false } }).flushReports).bootCode code

/-- The hold notice of R485, sent by an unpaired module about to warm start. -/
def State.holdNotice (s : State) : State :=
  if s.inStep then s else s.emit (.holdNoticeOut s.myAddr s.lastBeat)

/-- DETAIL of a module fault or an emergency (R533): the datum that its code's definition gives (Table 4-11, R466), or 0.
DESIGN CHOICE (log 178): 0 too for `LINK.ISOLATED`, of which R466 names no port. -/
def codeDetail (code detail : Nat) : Nat := if [0x0709, 0x0D14, 0x0F01, 0x0F02].contains code then detail else 0

/-- The emergency quiesce (R73, Table 2-5): roll back, seal the quiesce record, log the trigger (R533), notify the twin,
and take the step of Table 17-2. -/
def State.quiesce (s : State) (cause detail : Nat) : State :=
  let s1 := s.rollback
  let s2 := { s1 with ord := { s1.ord with quiesced := some (s.lastBeat, cause) } }
  let s3 := if cause = 0 then s2.flushReports else (s2.flushReports).flogWrite (s.reportEntry cause (codeDetail cause detail))
  let s4 := s3.emit (.quiesceNotice cause (quiesceIntent cause) s.lastBeat)
  match afterQuiesce cause with
  | .warm => ({ s4 with glb := { s4.glb with state := .warm, ready := false } }).holdNotice
  | .haltPaired =>
    if s.inStep then s4.halt 0x0C0D else ({ s4 with glb := { s4.glb with state := .warm, ready := false } }).holdNotice
  | .halt => s4.halt 0x0C0D

/-- A warm start fails (R486): recorded, reported, and the module cold starts. -/
def State.warmFail (s : State) : State :=
  let s1 := s.bootCode 0x0C0B
  let s2 := if s.inStep then s1.emit .warmFailReport
    else s1.emit (.lossNoticeOut s.myAddr s.lastBeat none)
  { s2 with glb := { s2.glb with state := .cold } }

/-- A module fault or an emergency on meeting point 3 (R37, R27): a quiesce in operational state, in standby and while beats run with
only the host link awaited, and the failure of a warm start (R486), logged too (R533); where no beat runs there is nothing to quiesce and the fault
is logged, and PWR.RAIL is a module fault in operational state alone (Table 18-10). Log entry 135. -/
def State.moduleFault (s : State) (code detail : Nat) : State :=
  if s.glb.state = .warm then (s.flogWrite (s.reportEntry code (codeDetail code detail))).warmFail
  else if s.operational || (s.beating && code ≠ 0x0E07) then s.quiesce code detail
  else s.report code (codeDetail code detail)

end Sys2Proof.Machine
end

