-- ==== Sys2Proof/Machine/Integrity.lean ====
section
/-! DEFINITION. Sys2Proof/Machine/Integrity.lean: detection events and the repair order of Table 12-2, the scrubber, on-chip
failures and the die links (12_integrity.md). -/

namespace Sys2Proof.Machine

/-- The SOURCE field of INTEG_LOG. -/
def readerSource : Option Reader → Nat
  | some (.task _) => 0
  | some (.engine _) => 1
  | some .host => 2
  | none => 3

/-- The task behind a reader, if it is one. -/
def readerTask : Option Reader → Option TaskRef
  | some (.task t) => some t
  | some (.engine t) => some t
  | _ => none

/-- A detection event is logged and counted (R361). -/
def State.logEvent (s : State) (e : IntegEntry) : State :=
  let i := s.integ.logCount % 256
  ({ s with integ := { s.integ with
      detect := s.integ.detect + 1, stackDet := modifyAt s.integ.stackDet e.stack (· + 1)
      logCount := s.integ.logCount + 1, log := (i, e) :: s.integ.log.filter (·.1 ≠ i) } }).integEvent 0

/-- The same for a sector of an object; on one of this module's persistent set it decides which copy is authoritative (R395). -/
def State.logDetect (s : State) (a : Nat) (rd : Option Reader) (outcome : Nat) : State :=
  let own := (s.core.obj (addrIndex a)).elim false fun o => o.cls = 0
  ({ s with twin := { s.twin with detected := s.twin.detected || own } }).logEvent
    { outcome := outcome, source := readerSource rd, tag := s.core.tagOf a, stack := s.core.stackOf a, sector := s.core.physSector a,
      beat := s.pick.counter }

/-- A sector set in a memory: its state, and its bytes where there are new ones. -/
def Memory.setSector (m : Memory) (sec : Nat) (st : SectorSt) (data : Option Bytes) : Memory :=
  { cells := data.elim m.cells (putBytes m.cells (64 * sec)), sectors := putKey m.sectors sec st }

/-- The sector set in a held block of it. -/
def HeldBlock.setSector (h : HeldBlock) (sec : Nat) (st : SectorSt) (data : Option Bytes) : HeldBlock :=
  if h.addr = blockOf (64 * sec) then
    let m := Memory.setSector { cells := h.cells, sectors := h.sectors } sec st data
    { h with cells := m.cells, sectors := m.sectors }
  else h

/-- A held block has a sector as a memory has it: its writer has not changed it. -/
def HeldBlock.sameSector (h : HeldBlock) (m : Memory) (sec : Nat) : Bool :=
  getKey h.sectors sec = getKey m.sectors sec && pickKeys h.cells (64 * sec) 64 = pickKeys m.cells (64 * sec) 64

/-- The blocks that the pick keeps beside memory, after a write that lies outside the pick: a block as the pick's start left it has the
sector new, and so has a shadow block whose writer has not changed it. -/
def Core.mendHeld (c : Core) (sec : Nat) (st : SectorSt) (data : Option Bytes) : Core :=
  let mine := fun (h : HeldBlock) => if h.sameSector c.mem sec then h.setSector sec st data else h
  { c with pm := { c.pm with pre := c.pm.pre.map (·.setSector sec st data), shadow := c.pm.shadow.map mine } }

/-- New bytes of a sector, with what the pick's tasks have written of it in region-cache lines kept (R328). -/
def Core.underParts (c : Core) (sec : Nat) (data : Bytes) : Bytes :=
  match getKey c.pm.parts sec with
  | none => data
  | some mask => data.zipIdx.map fun p => if bitOf mask p.2 then c.memByte c.mem (64 * sec + p.2) else p.1

/-- A sector's state and bytes are set in working and committed memory alike: repair writes lie outside the pick
transaction (R363, Table 12-4), and what the pick has written to a part of the sector stays. -/
def State.repairWrite (s : State) (sec : Nat) (st : SectorSt) (data : Option Bytes) : State :=
  let c := s.core.mendHeld sec st data
  { s with core := { c with mem := c.mem.setSector sec st (data.map (s.core.underParts sec)) }
           committed := { s.committed with mem := s.committed.mem.setSector sec st data } }

/-- The pair is in sync with MIRROR = 1 (R363). -/
def State.mirroredPair (s : State) : Bool := s.twin.state = .sync && s.core.draft.elim false fun d => d.twin.mirror

/-- A sector is mirrored (R363): the pair in sync, MIRROR = 1, and the sector in a PERSIST object. -/
def State.mirrored (s : State) (a : Nat) : Bool :=
  s.mirroredPair && (s.core.obj (addrIndex a)).elim false fun o => o.cls = 0

/-- Step 3 of Table 12-2: the sector is poisoned and its context torn down (R364). -/
def State.poisonSector (s : State) (sec log : Nat) (rd : Option Reader) : State :=
  let a := 64 * sec
  let s1 := (s.repairWrite sec (.bad 0xFFFFFFFF) none).logOutcome log 2
  let s2 := ({ s1 with integ := { s1.integ with poison := s1.integ.poison + 1 } }).integEvent 2
  let owner := (s.core.obj (addrIndex a)).elim 64 Obj.ctx
  let t := readerTask rd
  s2.withCore fun c => c.raise owner 0x0701 (t.elim 0 fun t => (c.task t).elim 0 Task.cu) (t.elim noOrder TaskRef.jno) a

/-- The operand sectors of a lineage record that do not read clean. -/
def Core.badInputs (c : Core) (r : Lineage) : List Nat :=
  r.ins.flatMap fun b => (sectorsOf b 16384).filter fun sec => c.syndrome c.mem sec ≠ 0

/-- A lineage record covers the sector's block and its inputs are intact (R367): no operand block changed since, and every operand
sector reads clean, or step 1 would repair it. -/
def State.intactLineage (s : State) (a : Nat) : Option Lineage :=
  s.core.onchip.lineage.findSome? fun l => l.find? fun r =>
    r.tile.contains (blockOf a)
      && !r.dead && r.ins.all (fun b => (getKey s.core.changed b).elim true (· < r.pick))
      && (s.core.badInputs r).all fun sec => s.mirrored (64 * sec) && s.core.syndrome s.core.mem sec ≠ 0xFFFFFFFF

/-- The contexts of tasks that read a sector which waits for a recompute are restored at the commit step (R369); the scrubber and the host
have none. -/
def Core.restartOf (c : Core) (ts : List TaskRef) : Core :=
  (ts.filterMap c.taskCtx).foldl (fun (c : Core) x => c.setCtx x fun y => { y with restart := true }) c

/-- The tasks that wait for a repair. -/
def Repair.tasks (r : Repair) : List TaskRef := (readerTask r.reader).toList ++ r.also

/-- Another read of a sector that a repair is pending for (Table 12-4): one repair; the reader waits on it, or its context is restored. A
task that comes back to a sector it has read makes no new event. -/
def State.detectAgain (s : State) (r : Repair) (rd : Option Reader) : State :=
  let t := (readerTask rd).toList
  let back := t.any r.tasks.contains
  let s1 := if back then s else (s.logDetect (64 * r.sector) rd 3).withCore fun c =>
    { c with repairs := c.repairs.map fun q => if q.sector = r.sector then { q with also := q.also ++ t } else q }
  if r.fetch then s1 else s1.withCore (·.restartOf t)

/-- The repair order of Table 12-2 on a detected sector. Step 1 sends a twin fetch and the reader stalls; step 2 restores
the reader's context at the commit step and queues a repair task; step 3 poisons. -/
def State.detect (s : State) (sec : Nat) (rd : Option Reader) : State :=
  match s.core.repairs.find? (·.sector = sec) with
  | some r => s.detectAgain r rd
  | none =>
    let a := 64 * sec
    let log := s.integ.logCount
    let s1 := s.logDetect a rd 3
    let owner := (s.core.obj (addrIndex a)).elim 64 Obj.ctx
    let r : Repair := { sector := sec, reader := rd, log := log, fetch := s.mirrored a, ctx := owner }
    let wait := s1.withCore fun c => { c with repairs := c.repairs ++ [r] }
    if r.fetch then wait.emit (.fetchSend a)
    else if (s.intactLineage a).isSome then wait.withCore (·.restartOf r.tasks)
    else s1.poisonSector sec log rd

/-- A beam frame of the reader's harness holds the block of a CU task's read (R343). -/
def Core.framed (c : Core) (rd : Option Reader) (a : Nat) : Bool :=
  match rd with
  | some (.task t) => (c.taskCtx t).elim false fun x =>
      c.onchip.frames.any fun f => f.harness = (c.ctx x).harness && f.blocks.contains (blockOf a)
  | _ => false

/-- The CU task behind a reader, if it is one. -/
def Core.cuReader (c : Core) (rd : Option Reader) : Option (TaskRef × Task) :=
  match rd with
  | some (.task t) => (c.task t).map fun k => (t, k)
  | _ => none

/-- What a reader's sector is read from: the shadow block of a fill or a copy of its own context, for a CU task (R536), or the block. -/
def Core.readSource (c : Core) (rd : Option Reader) (a : Nat) : Memory :=
  match c.cuReader rd, c.shadowAt a with
  | some (t, _), some h => if h.byFill && c.taskCtx t = some h.ctx then { cells := h.cells, sectors := h.sectors } else c.mem
  | _, _ => c.mem

/-- A task's read marks the block (R59). -/
def Core.markRead (c : Core) (rd : Option Reader) (sec : Nat) : Core :=
  if (readerTask rd).isSome then c.mark (64 * sec) 64 else c

/-- The tag-and-address word of a sector (R354). -/
def Core.addrWord (c : Core) (a : Nat) : Nat := c.tagOf a * 2 ^ 48 + c.stackOf a * 2 ^ 30 + c.physSector a

/-- The check word of 64 data bytes under a tag-and-address word (R354). -/
def checkWord (data : Bytes) (word : Nat) : Nat := crc32c (data ++ leBytes 8 word)

/-- The check word as a sector's stack holds it (R354, R358): that of its bytes, off by its syndrome. -/
def Core.storedCheck (c : Core) (m : Memory) (sec : Nat) : Nat :=
  Nat.xor (checkWord (c.memBytes m (64 * sec) 64) (c.addrWord (64 * sec))) (c.syndrome m sec)

/-- What the checker finds on a codeword with flipped bits (R356): the check word read, off from that of the data and the
tag-and-address word read. -/
def readCheck (data : Bytes) (word stored flips : Nat) : Nat :=
  let read := leBytes 64 (Nat.xor (leNat data) (flips % 2 ^ 512))
  Nat.xor (Nat.xor stored (flips / 2 ^ 512 % 2 ^ 32)) (checkWord read (Nat.xor word (flips / 2 ^ 544)))

/-- What the checker finds on a sector with flipped bits. -/
def Core.codeSyndrome (c : Core) (m : Memory) (sec flips : Nat) : Nat :=
  readCheck (c.memBytes m (64 * sec) 64) (c.addrWord (64 * sec)) (c.storedCheck m sec) flips

/-- The syndrome of a read: the stored one where no bit of the codeword is flipped. -/
def Core.readSyndrome (c : Core) (m : Memory) (sec : Nat) (flips : BitVec 608) : Nat :=
  if flips = 0 then c.syndrome m sec else c.codeSyndrome m sec flips.toNat

/-- On-die corrections of a read are counted (R354). -/
def State.noteOnDie (s : State) (stack n : Nat) : State :=
  { s with integ := { s.integ with onDie := modifyAt s.integ.onDie stack fun v => (v + n) % 2 ^ 32 } }

/-- What a read finds wrong with the stored bits of a sector stays in its home until it is repaired or written; a wrong address or tag does
not (R356). -/
def State.storeError (s : State) (sec : Nat) (flips : BitVec 608) : State :=
  let stored := BitVec.ofNat 608 (flips.toNat % 2 ^ 544)
  let syn := s.core.readSyndrome s.core.mem sec stored
  if syn = s.core.syndrome s.core.mem sec then s else s.repairWrite sec (.bad syn) none

/-- A task's read that is stalled by a twin fetch is made again when the fetch has returned (R362). -/
def State.readAgain (s : State) (sec : Nat) (rd : Option Reader) : State :=
  match rd with
  | some (.task t) =>
    let w := Wait.read (.task t) (64 * sec) {}
    if (s.core.repairs.any fun r => r.sector = sec && r.fetch) && !s.core.waits.contains w then
      s.withCore fun c => { c with waits := c.waits ++ [w] }
    else s
  | _ => s

/-- A read of a sector by a reader (R362, R365): one that a beam frame (R343) or a line of the CU's region cache (R161) serves meets no
stored sector; poison is a context fault for a task or engine and CXL poison for the host, anything else that fails its check is a
detection event. A task's read marks the block, be it detected or not (R59). `err` is the error the codeword carries
at this read; on a block homed in T3 an error is a failed T3 access, whose host address the fault names (R353). -/
def State.readSector (s0 : State) (rd : Option Reader) (a : Nat) (err : ReadErr) : State :=
  let s := if err.onDie = 0 then s0 else s0.noteOnDie (s0.core.stackOf a) err.onDie
  let sec := a / 64
  let far := s.core.farAddr a
  let region := (s.core.cuReader rd).map fun p => cuRegion p.2.cu
  if s.core.framed rd a then s.withCore fun c => c.mark (64 * sec) 64 else
  let held := if (readerTask rd).isSome then s.awaited (64 * sec) 64 true else []
  if !held.isEmpty then s.noteSnoop held
  else if region.elim false fun r => s.core.t1Holds r a then
    s.withCore fun c => (region.elim c fun r => c.cacheRead r a).markRead rd sec
  else
  let syn := s.core.readSyndrome (s.core.readSource rd a) sec err.flips
  if far.isSome && err.flips ≠ 0 then
    let s1 := s.memEvent 3
    match readerTask rd with
    | some t => s1.withCore fun c => c.raiseTask t 0x0706 (far.getD 0)
    | none => s1
  else if syn = 0 then s.withCore fun c => (region.elim c fun r => c.cacheRead r a).markRead rd sec
  else if syn = 0xFFFFFFFF then
    match readerTask rd with
    | some t => s.withCore fun c => c.raiseTask t 0x0701 (64 * sec)
    | none => s
  else
    let s1 := if s.core.readSource rd a = s.core.mem then s.storeError sec err.flips else s
    ((s1.detect sec rd).readAgain sec rd).withCore fun c => c.markRead rd sec

/-- A repair of some sector of the ranges is pending, so that their reader waits (R363) or is restored (R369). -/
def Core.rangesBlocked (c : Core) (rs : List (Nat × Nat)) : Bool :=
  c.repairs.any fun r => rs.any fun q => q.1 ≤ 64 * r.sector + 63 && 64 * r.sector < q.1 + q.2

/-- An engine of the order sequencer reads ranges of a context (R361), up to a fault. -/
def State.readAll (s : State) (rd : Reader) (x : Nat) (rs : List (Nat × Nat)) : State :=
  (rs.flatMap fun r => sectorsOf r.1 r.2).foldl (fun (s : State) sec =>
    if s.core.faulting x then s else s.readSector (some rd) (64 * sec) {}) s

/-- Data that the host had modified in a line, or a repair mended, belongs to what an `OBJ_STORE` still moves (R326, R362, R440). -/
def Core.patchStores (c : Core) (a : Nat) (data : Bytes) : Core :=
  let mend := fun (e : Nat × Bytes) =>
    match c.order e.1 with
    | some o =>
      let lo := addrOffset a - o.arg 0x18 8
      let mine := (c.ctxOf o.ctx).bind fun x => (c.objById x (o.arg 0x10 4)).map Prod.fst
      if mine = some (addrIndex a) && o.arg 0x18 8 ≤ addrOffset a && lo + 64 ≤ e.2.length then
        (e.1, e.2.take lo ++ data ++ e.2.drop (lo + 64))
      else e
    | none => e
  { c with stores := c.stores.map mend }

/-- SECTOR_READ (R362): a task's or engine's read outside its context's objects is MEM.ACCESS (R317). -/
def execSectorRead (rd : Reader) (addr : Nat) (err : ReadErr) (s : State) : Res :=
  if !s.operational then .next s else
  match readerTask (some rd) with
  | some t =>
    match s.core.taskCtx t with
    | none => .next s
    | some x =>
      if (s.core.find x addr 1).isNone then .next (s.tellAborts (s.withCore fun c => c.raiseTask t 0x0704 addr))
      else .next (s.tellAborts (s.orWait (.read rd addr err) fun s => s.readSector (some rd) (s.core.resolve x addr) err))
  | none =>
    if (s.core.obj (addrIndex addr)).isNone then .next s else .next (s.tellAborts (s.readSector (some rd) addr err))

/-- The twin's mirrored sector of an address has a bit 65 that no device address has, in a fetch of the mirror (log entry 172). -/
def mirrorBit : Nat := 2 ^ 65

/-- What answers a fetch: the mirror of the twin's sector, or, for a sector of the twin's mirror, this module's committed PERSIST
object. -/
def State.fetchSource (s : State) (addr : Nat) : Memory × Nat :=
  if addr < mirrorBit then (s.twin.mirror.mem, addr / 64)
  else
    let a := addr - mirrorBit
    (if s.committed.persists a then s.committed.mem else {}, a / 64)

/-- TWIN_FETCH_REQUEST (R363): the committed copy of the mirrored sector, or "absent" when this module's copy fails its
check, or in HOLD or after a loss (Table 13-9). -/
def execTwinFetchRequest (addr : Nat) (s : State) : Res :=
  let m := s.fetchSource addr
  if s.twin.state = .sync && getKey m.1.sectors m.2 = some .valid then
    .next (s.emit (.fetchAnswer addr (some ((List.range 64).map fun i => (getKey m.1.cells (64 * m.2 + i)).getD 0))))
  else .next (s.emit (.fetchAnswer addr none))

/-- A pending repair leaves the list. -/
def Core.dropRepair (c : Core) (sec : Nat) : Core := { c with repairs := c.repairs.filter (·.sector ≠ sec) }

/-- A repair by twin fetch is counted and logged (Table 12-2). -/
def State.fetched (s : State) (log : Nat) : State :=
  ((({ s with integ := { s.integ with twin := s.integ.twin + 1 } }).logOutcome log 0).integEvent 1)

/-- A sector of the mirror is written in place by a repair: clean, or poisoned. -/
def State.mirrorRepair (s : State) (sec : Nat) (st : SectorSt) (data : Option Bytes) : State :=
  let m := s.twin.mirror
  { s with twin := { s.twin with mirror := { m with
      repairs := m.repairs.filter (·.sector ≠ sec)
      mem := { cells := data.elim m.mem.cells (putBytes m.mem.cells (64 * sec)), sectors := putKey m.mem.sectors sec st } } } }

/-- A sector of the mirror that the twin cannot give is poisoned; no context here owns it. -/
def State.mirrorPoison (s : State) (sec log : Nat) : State :=
  let s1 := (s.mirrorRepair sec (.bad 0xFFFFFFFF) none).logOutcome log 2
  ({ s1 with integ := { s1.integ with poison := s1.integ.poison + 1 } }).integEvent 2

/-- A fetched copy of a sector of the mirror returns (R363). -/
def State.mirrorReturn (s : State) (sec : Nat) (data : Option Bytes) : State :=
  match s.twin.mirror.repairs.find? (·.sector = sec) with
  | none => s
  | some r =>
    match data with
    | some d => (s.mirrorRepair sec .valid (some (d.take 64))).fetched r.log
    | none => s.mirrorPoison sec r.log

/-- A fetched copy returns (R363): the copy is re-encoded and rewritten in place; "absent" goes on with steps 2 and 3. A
whole-sector write since cancels the repair (Table 12-4). -/
def State.fetchReturn (s : State) (addr : Nat) (data : Option Bytes) : State :=
  let sec := addr / 64
  match s.core.repairs.find? fun r => r.sector = sec && r.fetch with
  | none => if addr < mirrorBit then s else s.mirrorReturn ((addr - mirrorBit) / 64) data
  | some r =>
    let s1 := s.withCore (·.dropRepair sec)
    match data with
    | some d => ((s1.repairWrite sec .valid (some (d.take 64))).withCore fun c => c.patchStores (64 * sec) (d.take 64)).fetched r.log
    | none =>
      if (s.intactLineage (64 * sec)).isSome then
        s1.withCore fun c => ({ c with repairs := c.repairs ++ [{ r with fetch := false }] }).restartOf r.tasks
      else s1.poisonSector sec r.log r.reader

/-- No fetch is answered any more: each that is out comes back "absent" (Table 12-4). -/
def State.dropFetches (s : State) : State :=
  let own := (s.core.repairs.filter (·.fetch)).map Repair.sector
  let mirror := s.twin.mirror.repairs.map Repair.sector
  let s1 := own.foldl (fun s sec => s.fetchReturn (64 * sec) none) s
  mirror.foldl (fun s sec => s.mirrorReturn sec none) s1

/-- A home lies on a die. -/
def Home.onDie (h : Option Home) (die : Nat) : Bool :=
  match h with
  | some (.t2 st) => st / 6 == die
  | _ => false

/-- What a die's scrubber comes to (R370): a sector of an object, one of the mirror, a copy of a device-reserve structure, or a lineage
record. -/
inductive ScrubItem
  | own (sec : Nat)
  | mirror (sec : Nat)
  | reserve (kind copy : Nat)
  | lineage (i : Nat)
  deriving DecidableEq, Repr

/-- The structures of the device reserve that are kept twice (R315, R366): the object table, the block maps, the journal and the staged
draft copy. The two copies of structure k lie on dies k and k + 1, in turn (log entry 179). -/
def reserveOn (die : Nat) : List ScrubItem :=
  (List.range 4).flatMap fun k => (List.range 2).filterMap fun c => if (k + c) % 4 = die then some (.reserve k c) else none

/-- Where a block's sectors begin in its stack (R354). -/
def sectorKey (objs : List (Nat × Obj)) (idx t : Nat) : Nat :=
  let o := getKey objs idx
  let stack := match o.bind fun o => o.homes[t]? with | some (.t2 st) => st | _ => 0
  Config.sectorBase stack idx t (o.elim 0 Obj.created) % 805306368 * 32 + stack

/-- What a die's scrubber comes to in a pass (R370): the sectors of whole blocks and those of the mirror, by ascending sector index, then
the die's device-reserve structures and its lineage records (log entry 179). -/
def State.scrubItems (s : State) (die : Nat) : List ScrubItem :=
  let own := s.core.objs.flatMap fun p => (p.2.whole.filter fun t => Home.onDie p.2.homes[t]? die).map fun t =>
    (sectorKey s.core.objs p.1 t, (List.range 256).map fun i => ScrubItem.own (devAddr p.1 (16384 * t) / 64 + i))
  let mirror := (s.twin.mirror.mem.sectors.filter fun e => (getKey s.twin.mirror.objs (addrIndex (64 * e.1))).elim false fun o =>
      Home.onDie o.homes[addrOffset (64 * e.1) / 16384]? die).map fun e =>
    (sectorKey s.twin.mirror.objs (addrIndex (64 * e.1)) (addrOffset (64 * e.1) / 16384) + 32 * (e.1 % 256), [ScrubItem.mirror e.1])
  (sortKey Prod.fst (own ++ mirror)).flatMap Prod.snd ++ reserveOn die
    ++ (List.range (s.core.onchip.lineage.getD die []).length).map .lineage

/-- A read of a device-reserve structure that fails its check is repaired from the other copy, the journal also from the twin; one that
cannot be repaired is MEM.RESERVE (R366). Where the structure lies, and the outcome that the log shows for a repair from the other copy, are
free values (log entry 179). -/
def State.scrubReserve (s : State) (kind copy die : Nat) (err : ReadErr) : State :=
  if err.flips = 0 then s else
  let i := s.freeCtr
  let stack := 6 * die + Config.free 12 (2 * kind + copy) % 6
  let sector := Config.free 13 (2 * kind + copy) % 805306368
  let entry := fun (o : Nat) => (⟨o, 3, 0, stack, sector, s.pick.counter⟩ : IntegEntry)
  if !err.otherBad then (s.logEvent (entry (Config.free 14 i % 5))).integEvent 1
  else if kind = 2 && s.mirroredPair && !err.twinBad then
    let s1 := s.logEvent (entry 0)
    ({ s1 with integ := { s1.integ with twin := s1.integ.twin + 1 } }).integEvent 1
  else (s.logEvent (entry 3)).moduleFault 0x0707 0

/-- A lineage record that fails its check is dropped (R366). -/
def State.scrubLineage (s : State) (die i : Nat) (err : ReadErr) : State :=
  if err.flips = 0 then s else
  let drop := fun (l : List Lineage) => modifyAt l i fun r => { r with dead := true }
  s.withCore fun c => { c with onchip := { c.onchip with lineage := modifyAt c.onchip.lineage die drop } }

/-- The scrubber reads a sector of the mirror: a detection is repaired from the twin, or poisons the sector (R362, R363). -/
def State.scrubMirror (s : State) (sec : Nat) (err : ReadErr) : State :=
  let m := s.twin.mirror
  let a := 64 * sec
  let had := match getKey m.mem.sectors sec with | some (.bad y) => y | _ => 0
  let o := getKey m.objs (addrIndex a)
  let t := addrOffset a / 16384
  let stack := match o.bind fun o => o.homes[t]? with | some (.t2 st) => st | _ => 0
  let index := (Config.sectorBase stack (addrIndex a) t (o.elim 0 Obj.created) + a % 16384 / 64) % 805306368
  let data := (List.range 64).map fun i => (getKey m.mem.cells (a + i)).getD 0
  let word := 0x40 * 2 ^ 48 + stack * 2 ^ 30 + index
  let syn := if err.flips = 0 then had else readCheck data word (Nat.xor (checkWord data word) had) err.flips.toNat
  if syn = 0 || syn = 0xFFFFFFFF then s else
  let log := s.integ.logCount
  let s1 := s.logEvent
    { outcome := 3, source := 3, tag := 0x40, stack := stack, beat := s.pick.counter, sector := index }
  if m.repairs.any (·.sector = sec) then s1
  else if s.mirroredPair then
    let r : Repair := { sector := sec, reader := none, log := log, fetch := true, ctx := 64 }
    ({ s1 with twin := { s1.twin with mirror := { m with repairs := m.repairs ++ [r] } } }).emit (.fetchSend (a + mirrorBit))
  else s1.mirrorPoison sec log

/-- SCRUB_READ (R370, R371): the die's next sector is read, and a detection repaired by Table 12-2. A die's walk ends with its last
sector, and the pass with the last die's walk. -/
def execScrubRead (die : Nat) (err : ReadErr) (s : State) : Res :=
  if !s.operational || s.integ.rate = 0 || 4 ≤ die then .next s else
  let l := s.scrubItems die
  let i := s.integ.cursor.getD die 0
  let s1 := match l[i]? with
    | some (.own sec) => s.readSector none (64 * sec) err
    | some (.mirror sec) => s.scrubMirror sec err
    | some (.reserve k c) => s.scrubReserve k c die err
    | some (.lineage k) => s.scrubLineage die k err
    | none => s
  let wrap := l.length ≤ i + 1
  let wraps := if wrap then modifyAt s1.integ.wraps die (· + 1) else s1.integ.wraps
  let passes := wraps.foldl min (wraps.headD 0)
  let ended := s1.integ.passes < passes
  .next { s1 with integ := { s1.integ with
    cursor := setAt s.integ.cursor die (if wrap then 0 else i + 1), wraps := wraps
    passes := if ended then passes else s1.integ.passes
    lastS := if ended then Config.free 1 s.freeCtr % 2 ^ 32 else s1.integ.lastS }, freeCtr := s.freeCtr + 1 }

/-- A location as one key, with the context it serves. -/
def locKey : OnchipLoc → Nat × Nat
  | .sram cu off => (0, cu * 2 ^ 24 + off)
  | .acc cu bank off => (1, cu * 2 ^ 24 + bank * 2 ^ 20 + off)
  | .t1 region addr => (2, region * 2 ^ 66 + addr / 1024 * 1024)

/-- The context that holds a CU. -/
def Core.ctxOfCu (c : Core) (cu : Nat) : Option Nat :=
  c.draft.bind fun d => (d.slots.find? fun sl => sl.firstCu ≤ cu && cu < sl.firstCu + sl.cuCount).bind fun sl =>
    (c.slots.getD sl.id {}).holder

/-- A location failed in this pick and in the two before it (R360). -/
def State.failedThrice (s : State) (loc : OnchipLoc) : Bool :=
  let k := locKey loc
  let n := s.pick.counter
  let hit := fun p => s.core.onchip.crcHits.contains (k.1, k.2, p)
  hit n && hit (n - 1) && hit (n - 2) && 2 ≤ n

/-- A location's failure in this pick is kept for the two picks after it. -/
def State.noteFailure (s : State) (loc : OnchipLoc) : State :=
  let k := locKey loc
  let n := s.pick.counter
  s.withCore fun c =>
    { c with onchip := { c.onchip with crcHits := (k.1, k.2, n) :: c.onchip.crcHits.filter fun e => n ≤ e.2.2 + 2 && e ≠ (k.1, k.2, n) } }

/-- A context's running tasks are aborted, and it is to be restored at the commit step without teardown (R360). -/
def Core.restartCtx (c : Core) (x : Nat) : Core := (c.setCtx x fun y => { y with restart := true }).abortCtx x

/-- A line that fails in a region's cache: dirty, its object's context is restored; clean, it is fetched again from its home (R360). -/
def Core.failLine (c : Core) (region addr : Nat) : Core :=
  let dirty := (c.onchip.t1.getD region []).any fun l => l.line = addr / 1024 && (l.dirty ≠ 0 || l.written)
  if dirty then (c.obj (addrIndex addr)).elim c fun o => c.restartCtx o.ctx
  else c.setT1 (modifyAt c.onchip.t1 region fun ls => ls.filter fun l => !c.together (addr / 1024) l.line)

/-- ONCHIP_CRC_FAIL (R360): a clean T1 line is fetched again; a dirty line, T0 or an accumulator aborts the context's
tasks and restores it at the commit step without teardown. The location's third failure in consecutive picks is the module fault
MEM.ONCHIP. -/
def execOnchipCrcFail (loc : OnchipLoc) (s : State) : Res :=
  if !s.operational then .next s else
  let s1 := s.noteFailure loc
  if s1.failedThrice loc then .next (s1.moduleFault 0x0708 0) else
  let held := fun (cu : Nat) => s1.withCore fun c => (c.ctxOfCu cu).elim c c.restartCtx
  .next (match loc with
    | .t1 region addr => s1.withCore fun c => c.failLine region addr
    | .sram cu _ => held cu
    | .acc cu _ _ => held cu)

/-- MEM_ONCHIP (R360): the same location failed in three consecutive picks, which is the module fault MEM.ONCHIP. -/
def execMemOnchip (loc : OnchipLoc) (s : State) : Res :=
  if s.failedThrice loc then .next (s.moduleFault 0x0708 0) else .next s

/-- A die link is lost where the frame at its end has failed 17 consecutive transmissions (R373). -/
def State.loseLink (s : State) (link : Nat) : State :=
  if link < 8 && 17 ≤ s.integ.linkFail.getD link 0 then s.moduleFault 0x0D01 link else s

/-- LINK_DIE (R373): a die link whose frame failed 17 consecutive transmissions is lost. -/
def execLinkDie (link : Nat) (s : State) : Res := .next (s.loseLink link)

/-- A die link's frame of 256 bytes passes its CRC-32C, which its last four bytes hold (R373; log entry 180). -/
def dieFrameOk (frame : Bytes) : Bool := frame.length = 256 && crc32c (frame.take 252) = fieldAt frame 252 4

/-- DIE_LINK_FRAME (R373): a frame whose CRC fails is discarded and asked for again, which its sender's replay answers, counted; the
seventeenth failure in a row of one frame loses the link. -/
def execDieLinkFrame (link : Nat) (frame : Bytes) (s : State) : Res :=
  if 8 ≤ link then .next s else
  if dieFrameOk frame then .next { s with integ := { s.integ with linkFail := setAt s.integ.linkFail link 0 } } else
  let n := s.integ.linkFail.getD link 0 + 1
  let s1 := { s with integ := { s.integ with linkFail := setAt s.integ.linkFail link n } }
  if 17 ≤ n then .next (s1.loseLink link)
  else .next (({ s1 with integ := { s1.integ with link := modifyAt s1.integ.link link (· + 1) } }).emit (.retry link))

/-- The pair makes held items (R386); in COPYING they stay here, since the copy sends what they would (R382, R383). -/
def State.makesItems (s : State) : Bool :=
  (s.twin.state = .copying || s.twin.state = .sync || s.twin.state = .recopy || s.twin.state = .hold)
    && s.core.draft.elim false fun d => d.twin.mirror

/-- The order of a held item; a copied block is of none. -/
def itemJno : HeldItem → Nat
  | .replay j .. => j
  | .block j _ => j
  | .copy _ => noOrder

/-- Bytes of a held item in its die's queue. -/
def itemBytes : HeldItem → Nat
  | .replay .. => 132
  | .block .. => 16384
  | .copy _ => 16384

/-- The blocks of PERSIST objects that the pick's tasks have written, with the order of the last writer. -/
def Core.heldBlocks (c : Core) : List (Nat × Nat) := c.pm.writers.filter fun w => c.persists w.1

/-- The held items of a die: those not released, and those of the pick in progress. A block's is in the queue of the die that homes it. -/
def State.queued (s : State) (die : Nat) : Nat :=
  ((s.twin.own.items.filter fun i => i.2 = die).map fun i => itemBytes i.1).sum
    + 16384 * (s.core.heldBlocks.filter fun w => s.core.stackOf w.1 / 6 = die).length
    + 132 * (s.core.pm.replays.filter fun r => r.2.1 = die).length

/-- One more held item finds no room in its die's queue of 64 MiB, on this side or the twin's (R386). -/
def State.queueFull (s : State) (die n : Nat) : Bool :=
  s.makesItems && (s.twin.own.full.getD die false || 67108864 < s.queued die + n)

/-- A write to a PERSIST block waits for room for its held item (R386). -/
def State.heldStall (s : State) (a : Nat) : Bool :=
  s.core.persists a && !(s.core.heldBlocks.any fun w => w.1 = blockOf a) && s.queueFull (s.core.stackOf a / 6) 16384

/-- A task's write, or its wait for room among the held items (R386), for a shadow block, a snoop or the host link. -/
def State.tryWrite (s : State) (t : TaskRef) (addr : Nat) (data : Bytes) : State :=
  let a := s.core.resolve ((s.core.taskCtx t).getD 64) addr
  if (blocksOf a data.length).any s.heldStall then s.snoopWait [] (.write t addr data)
  else s.orWait (.write t addr data) fun s => s.taskWrite t addr data

/-- MEMORY_WRITE (R59, R386): a task's write, in operational state and while the task runs. -/
def execMemoryWrite (t : TaskRef) (addr : Nat) (data : Bytes) (s : State) : Res :=
  if s.operational && s.core.active t && !data.isEmpty then .next (s.tellAborts (s.tryWrite t addr data)) else .next s

end Sys2Proof.Machine
end

