-- ==== Sys2Proof/Machine/Kv.lean ====
section
/-! DEFINITION. Sys2Proof/Machine/Kv.lean: key-value pools (08_kv_pages.md): rows, the prefix tree, and the page changes of
one beat in the four steps of Table 8-7. -/

namespace Sys2Proof.Machine

/-- The encoding of STATE (Table 8-4). -/
def SeqState.code : SeqState → Nat
  | .free => 0 | .deferred => 1 | .running => 2 | .stalled => 3

/-- REFS of a row. -/
def KvPool.refs (p : KvPool) (r : Nat) : Nat := (p.rowSt.getD r (0, 0)).1

/-- REFS of a row changes. -/
def KvPool.setRefs (p : KvPool) (r : Nat) (f : Nat → Nat) : KvPool :=
  { p with rowSt := modifyAt p.rowSt r fun x => (f x.1, x.2) }

/-- The free rows, lowest first (R229, R240). -/
def KvPool.freeRows (p : KvPool) : List Nat := (List.range p.rows).filter fun r => p.refs r = 0

/-- A sequence. -/
def KvPool.seq (p : KvPool) (q : Nat) : KvSeq := p.seqs.getD q {}

/-- A sequence's table as a beat leaves it: CHANGED_BEAT names the last beat that changed it (Table 8-4). -/
def KvSeq.turn (n : Nat) (f : KvSeq → KvSeq) (x : KvSeq) : KvSeq :=
  let y := { f x with changed := x.changed }
  if y = x then x else { y with changed := n }

/-- A sequence changes at beat `n`. -/
def KvPool.setSeq (p : KvPool) (n q : Nat) (f : KvSeq → KvSeq) : KvPool :=
  { p with seqs := modifyAt p.seqs q (KvSeq.turn n f) }

/-- The search of R232 at probe `i`, over the probes left: a hit's slot, or none. -/
def KvPool.probe (p : KvPool) (h depth : Nat) : Nat → Nat → Option Nat
  | 0, _ => none
  | left + 1, i =>
    let slot := (h + i) % p.ents.length
    let e := p.ents.getD slot {}
    if e.row = 0xFFFFFFFF then none
    else if e.row ≠ 0xFFFFFFFE ∧ e.hash = h ∧ e.depth = depth then some slot
    else p.probe h depth left (i + 1)

/-- A search (R232). -/
def KvPool.search (p : KvPool) (h depth : Nat) : Option Nat := p.probe h depth 64 0

/-- The slot an insertion takes: the first empty or deleted one of the 64 probes (R232). -/
def KvPool.slotFor (p : KvPool) (h : Nat) : Option Nat :=
  ((List.range 64).map fun i => (h + i) % p.ents.length).find? fun s => (p.ents.getD s {}).row ≥ 0xFFFFFFFE

/-- The tree slot of a row, if the tree names it. -/
def KvPool.slotOfRow (p : KvPool) (r : Nat) : Option Nat :=
  (p.ents.zipIdx.find? fun e => e.1.row = r && e.1.row < 0xFFFFFFFE).map Prod.snd

/-- The slots of a join's leading hits (R233). -/
def KvPool.hits (p : KvPool) : List Nat → Nat → List Nat
  | [], _ => []
  | h :: hs, k => match p.search h k with
    | some s => s :: p.hits hs (k + 1)
    | none => []

/-- The next evictable row: a cached row whose entry has no children, least LAST_USE first, then least row (R235). -/
def KvPool.evictable (p : KvPool) : Option (Nat × Nat) :=
  let cands := (p.ents.zipIdx.filter fun e =>
    e.1.row < 0xFFFFFFFE && e.1.children = 0 && p.refs e.1.row = 1).map fun e => (e.1.lastUse, e.1.row, e.2)
  (cands.foldl (fun (m : Option (Nat × Nat × Nat)) x => match m with
    | none => some x
    | some y => if x.1 < y.1 ∨ (x.1 = y.1 ∧ x.2.1 < y.2.1) then some x else some y) none).map (·.2)

/-- An eviction (R235): the entry is deleted, its parent loses a child, and the row is freed. -/
def KvPool.evict (p : KvPool) (row slot : Nat) : KvPool :=
  let e := p.ents.getD slot {}
  let ents := setAt p.ents slot { e with row := 0xFFFFFFFE }
  { (p.setRefs row fun _ => 0) with
    ents := if e.parent = 0xFFFFFFFF then ents else modifyAt ents e.parent fun x => { x with children := x.children - 1 } }

/-- Evicts until `need` rows are free, or none is evictable (R244). -/
def KvPool.makeRoom (need : Nat) : Nat → KvPool → KvPool
  | 0, p => p
  | fuel + 1, p =>
    if need ≤ p.freeRows.length then p else
    match p.evictable with
    | some (r, s) => makeRoom need fuel (p.evict r s)
    | none => p

/-- `need` rows taken with one reference each, lowest first, evicting as R244 allows; none where they cannot be had. -/
def KvPool.alloc (p : KvPool) (need : Nat) : Option (KvPool × List Nat) :=
  let p1 := KvPool.makeRoom need p.ents.length p
  let rows := p1.freeRows.take need
  if rows.length < need then none else some (rows.foldl (fun q r => q.setRefs r fun _ => 1) p1, rows)

/-- What one beat's page changes carry along: the pool, results by order (status, result), the orders first tried now,
the sequences whose grows stall in this beat and how many grows do, the copies queued, the rows whose reference step 3 drops, whether a
join was deferred, and the hash budget with whether a join was searched already (R233). -/
structure KvRun where
  p       : KvPool
  done    : List (Nat × Nat × Nat) := []
  tries   : List Nat := []
  stalled : List Nat := []
  waits   : Nat := 0
  queued  : Nat := 0
  drops   : List Nat := []
  joinHeld : Bool := false
  budget  : Nat
  searched : Bool
  deriving DecidableEq, Repr

/-- An order's result. -/
def KvRun.finish (r : KvRun) (j st res : Nat) : KvRun := { r with done := r.done ++ [(j, st, res)] }

/-- The order already has its result in this beat. -/
def KvRun.isDone (r : KvRun) (j : Nat) : Bool := r.done.any (·.1 = j)

/-- Why a grow completes at once (R247): a bad index or state, or a result past MAX_ROWS or 2^32 − 1 tokens. -/
def KvPool.growBad (p : KvPool) (q k : Nat) : Option Nat :=
  let s := p.seq q
  if p.maxSeq ≤ q || s.state = .free || s.state = .deferred then some 0x0A05
  else if p.maxRows < ceilDiv (s.tokens + k) p.tpp || 2 ^ 32 - 1 < s.tokens + k then some 0x0A06
  else none

/-- Step 2 for one grow (R238): a partly filled last row that others share is remapped to the lowest free row and a copy
queued; without a free row, or past 64 copies, the grow stalls whole. -/
def KvRun.cow (n : Nat) (r : KvRun) (o : OrderSt) : KvRun :=
  let q := o.arg 0x10 4
  let s := r.p.seq q
  if (r.p.growBad q (o.arg 0x14 4)).isSome then r else
  if r.stalled.contains q then r else
  let last := s.entries.length - 1
  let old := s.entries.getD last 0
  if s.tokens % r.p.tpp = 0 || r.p.refs old ≤ 1 then r else
  match r.p.freeRows with
  | [] => { r with stalled := q :: r.stalled }
  | f :: _ =>
    if 64 ≤ r.queued then { r with stalled := q :: r.stalled } else
    let p1 := (r.p.setRefs f fun _ => 1).setSeq n q fun x => { x with entries := setAt x.entries last f }
    { r with p := { p1 with copies := p1.copies ++ [(old, f)], copying := true }, drops := r.drops ++ [old], queued := r.queued + 1 }

/-- Step 3 for one leave (R246): pending joins and grows of the sequence complete with KV.SEQ first. -/
def KvRun.leave (n : Nat) (open_ : List OrderSt) (r : KvRun) (o : OrderSt) : KvRun :=
  let q := o.arg 0x10 4
  let s := r.p.seq q
  if r.p.maxSeq ≤ q || s.state = .free then r.finish o.jno 0x0A05 0 else
  let mine := if s.state = .running then [] else open_.filter fun x =>
    x.tried.isSome && (x.opcode = 0x32 || x.opcode = 0x34) && x.arg 0x10 4 = q && !r.isDone x.jno
  let r1 := mine.foldl (fun r x => r.finish x.jno 0x0A05 0) r
  let p1 := s.entries.foldl (fun p row => p.setRefs row (· - 1)) r1.p
  let p2 := p1.setSeq n q fun _ => {}
  ({ r1 with p := p2 }).finish o.jno 0 0

/-- Step 4: a fork (R238, R247). -/
def KvRun.fork (n : Nat) (r : KvRun) (o : OrderSt) : KvRun :=
  let q := o.arg 0x10 4
  let par := o.arg 0x14 4
  let s := r.p.seq par
  if r.p.maxSeq ≤ q || r.p.maxSeq ≤ par || (r.p.seq q).state ≠ .free || s.state ≠ .running then r.finish o.jno 0x0A05 0 else
  let p1 := s.entries.foldl (fun p row => p.setRefs row (· + 1)) r.p
  ({ r with p := p1.setSeq n q fun _ => { s with pending := 0 } }).finish o.jno 0 s.entries.length

/-- Step 4: a grow (R238, R244 to R246). -/
def KvRun.grow (n : Nat) (r : KvRun) (o : OrderSt) : KvRun :=
  let q := o.arg 0x10 4
  let k := o.arg 0x14 4
  if r.isDone o.jno then r else
  match r.p.growBad q k with
  | some st => r.finish o.jno st 0
  | none =>
    let s := r.p.seq q
    let need := ceilDiv (s.tokens + k) r.p.tpp - s.entries.length
    let stall : KvRun :=
      { r with p := r.p.setSeq n q fun x => { x with state := .stalled, pending := if x.pending = 0 then o.seq else x.pending }
               tries := r.tries ++ [o.jno], stalled := q :: r.stalled, waits := r.waits + 1 }
    if r.stalled.contains q then stall else
    match r.p.alloc need with
    | none => stall
    | some (p1, rows) =>
      let p2 := p1.setSeq n q fun x =>
        { x with tokens := x.tokens + k, entries := x.entries ++ rows, state := .running, pending := 0 }
      ({ r with p := p2 }).finish o.jno 0 need

/-- Step 4: a join, whose row hashes are given (R233, R242 to R244). -/
def KvRun.join (n : Nat) (hashes : List Nat) (r : KvRun) (o : OrderSt) : KvRun :=
  let q := o.arg 0x10 4
  let t := o.arg 0x14 4
  let s := r.p.seq q
  if r.isDone o.jno then r else
  if r.p.maxSeq ≤ q || (o.tried.isNone && s.state ≠ .free) then r.finish o.jno 0x0A05 0 else
  if r.p.maxRows < ceilDiv t r.p.tpp then r.finish o.jno 0x0A06 0 else
  let defer := fun (r : KvRun) =>
    { r with p := r.p.setSeq n q fun x => { x with state := .deferred, pending := o.seq }
             tries := r.tries ++ [o.jno], joinHeld := true }
  if r.joinHeld then defer r else
  let hs := r.p.hits hashes 0
  let cost := min hashes.length (hs.length + 1)
  if r.searched && r.budget < cost then defer r else
  let r1 := { r with budget := r.budget - cost, searched := true }
  let m := hs.length
  let shared := hs.map fun sl => (r1.p.ents.getD sl {}).row
  let p1 := shared.foldl (fun p row => p.setRefs row (· + 1)) r1.p
  match p1.alloc (ceilDiv t r1.p.tpp - m) with
  | none => defer r1
  | some (p2, rows) =>
    let p3 := hs.foldl (fun (p : KvPool) sl => { p with ents := modifyAt p.ents sl fun e => { e with lastUse := n } }) p2
    let p4 := p3.setSeq n q fun _ =>
      { tokens := t, shared := m, state := .running, entries := shared ++ rows }
    ({ r1 with p := p4 }).finish o.jno 0 m

/-- The rows of a publish from depth `k` on (R234): the pool and the count inserted. The LAST_USE of a new entry, which
no rule gives, is a free value. -/
def KvPool.publishRows (n : Nat) (s : KvSeq) : List Nat → Nat → Nat → Nat → KvPool → KvPool × Nat
  | [], _, _, cnt, p => (p, cnt)
  | h :: hs, k, parent, cnt, p =>
    match p.search h k with
    | some sl => publishRows n s hs (k + 1) sl cnt p
    | none =>
      match p.slotFor h with
      | none => (p, cnt)
      | some sl =>
        let row := s.entries.getD k 0
        let e : TreeEnt := { hash := h, row := row, parent := parent, depth := k, children := 0,
                             lastUse := Config.free 2 (n * 2 ^ 32 + row) % 2 ^ 64 }
        let ents := setAt p.ents sl e
        let ents2 := if parent = 0xFFFFFFFF then ents else modifyAt ents parent fun x => { x with children := x.children + 1 }
        publishRows n s hs (k + 1) sl (cnt + 1) ({ p with ents := ents2 }.setRefs row (· + 1))

/-- Step 4: a publish (R234, R247). -/
def KvRun.publish (n : Nat) (hashes : List Nat) (r : KvRun) (o : OrderSt) : KvRun :=
  let q := o.arg 0x10 4
  let s := r.p.seq q
  if r.p.maxSeq ≤ q then r.finish o.jno 0x0A05 0 else
  if s.tokens < o.arg 0x14 4 * r.p.tpp then r.finish o.jno 0x0A06 0 else
  let x := KvPool.publishRows n s hashes 0 0xFFFFFFFF 0 r.p
  ({ r with p := x.1 }).finish o.jno 0 x.2

/-- Step 1: pins released, and each pinned row's tree entry takes the beat (R236, R237). -/
def KvPool.releasePins (p : KvPool) (n : Nat) : KvPool :=
  let pinned := p.rowSt.zipIdx.filter fun x => x.1.2 ≠ 0
  let rows := pinned.map Prod.snd
  { p with
    rowSt := p.rowSt.map fun x => (x.1, 0)
    ents := p.ents.map fun e => if e.row < 0xFFFFFFFE && rows.contains e.row then { e with lastUse := n } else e }

/-- The bytes of a pool's table range (Tables 8-3 and 8-4). -/
def KvPool.tableBytes (p : KvPool) : Bytes :=
  let treeRows := (p.ents.filter fun e => e.row < 0xFFFFFFFE).map TreeEnt.row
  let count := fun (st : SeqState) => (p.seqs.filter (·.state = st)).length
  let cached := (List.range p.rows).filter fun r => p.refs r = 1 && treeRows.contains r
  let header := leBytes 4 p.freeRows.length ++ leBytes 4 cached.length ++ leBytes 4 (count .deferred)
    ++ leBytes 4 p.grows ++ leBytes 4 p.tpp ++ leBytes 2 p.layers ++ leBytes 2 0 ++ leBytes 8 p.lastBeat
    ++ leBytes 4 treeRows.length ++ leBytes 28 0
  let rows := p.rowSt.flatMap fun x => leBytes 4 x.1 ++ leBytes 2 x.2 ++ leBytes 2 0
  let pad := leBytes (64 * ceilDiv p.rows 8 - 8 * p.rows) 0
  let size := 64 * ceilDiv (64 + 4 * p.maxRows) 64
  let seqs := p.seqs.flatMap fun s =>
    leBytes 4 s.tokens ++ leBytes 4 s.entries.length ++ leBytes 4 s.shared ++ leBytes 1 s.state.code ++ leBytes 3 0
      ++ leBytes 8 s.changed ++ leBytes 8 s.pending ++ leBytes 32 0
      ++ (List.range p.maxRows).flatMap (fun k => leBytes 4 (s.entries.getD k 0xFFFFFFFF))
      ++ leBytes (size - 64 - 4 * p.maxRows) 0
  header ++ rows ++ pad ++ seqs

/-- The bytes of a pool's tree range (Table 8-6). -/
def KvPool.treeBytes (p : KvPool) : Bytes :=
  p.ents.flatMap fun e => leBytes 8 e.hash ++ leBytes 4 e.row ++ leBytes 4 e.parent ++ leBytes 4 e.depth
    ++ leBytes 4 e.children ++ leBytes 8 e.lastUse

/-- The table and tree ranges are written as shadow blocks (R227); where a stack's pool is empty, a part of them waits for the commit
step that refills it (R335). -/
def Core.writePool (c : Core) (p : KvPool) : Core :=
  let r1 := c.engineKeep p.ctx p.table p.tableBytes
  let r2 := r1.1.engineKeep p.ctx p.tree p.treeBytes
  r2.1.setPool p.ctx fun q => { q with due := !(r1.2 && r2.2) }

/-- The pools whose tables wait for shadow blocks are written once the pools of the stacks are refilled (R335). -/
def Core.writeDue (c : Core) : Core := (c.pools.filter KvPool.due).foldl Core.writePool c

/-- MEM_EVENT.SHADOW_EMPTY where a pool's table waits for a shadow block (R335). -/
def State.poolEvent (s : State) : State := if s.core.pools.any KvPool.due then s.memEvent 2 else s

/-- The u64 hashes at an address. -/
def Core.hashList (c : Core) (ctx a n : Nat) : List Nat := (List.range n).map fun i => c.readNat ctx (a + 8 * i) 8

/-- The page changes of one pool at beat `n`, over the given orders of its context in acceptance order (Table 8-7). -/
def KvRun.beat (n : Nat) (c : Core) (js : List OrderSt) (r0 : KvRun) : KvRun :=
  let of := fun (op : Nat) => js.filter (·.opcode = op)
  let stalledFirst := ((of 0x34).filter fun o => o.tried.isSome) ++ ((of 0x34).filter fun o => o.tried.isNone)
  let joins := ((of 0x32).filter fun o => o.tried.isSome) ++ ((of 0x32).filter fun o => o.tried.isNone)
  let hs := fun (o : OrderSt) (k : Nat) => c.hashList r0.p.ctx (o.arg 0x18 8) k
  let r1 := { r0 with p := r0.p.releasePins n }
  let r2 := (of 0x34).foldl (KvRun.cow n) r1
  let r3 := (of 0x35).foldl (KvRun.leave n js) r2
  let r3 := { r3 with p := r3.drops.foldl (fun p row => p.setRefs row (· - 1)) r3.p }
  let r4 := (of 0x33).foldl (KvRun.fork n) r3
  let r4 := stalledFirst.foldl (KvRun.grow n) r4
  let r4 := joins.foldl (fun r o => r.join n (hs o (o.arg 0x14 4 / r.p.tpp)) o) r4
  (of 0x36).foldl (fun r o => r.publish n (hs o (o.arg 0x14 4)) o) r4

/-- A pool's `KV_POOL_DESTROY`, tried after the beat's page changes (R247). -/
def Core.destroyPool (c : Core) (ctx n : Nat) (o : OrderSt) : Core :=
  match c.pool ctx with
  | none => c.complete o.jno 0x0A04 0 n
  | some p =>
    if p.seqs.all (·.state = .free) then { (c.complete o.jno 0 0 n) with pools := c.pools.filter (·.ctx ≠ ctx) }
    else c.complete o.jno 0x0A05 0 n

/-- An order that was tried and waits. -/
def OrderSt.triedAt (n : Nat) (o : OrderSt) : OrderSt :=
  { o with applied := true, tried := some (o.tried.getD n), lastTry := some n }

/-- One beat's page changes over a context's pool, for the orders given, out of the hash searches left to the beat. A
`KV_POOL_DESTROY` among them is tried last (R247). -/
def State.kvBeat (s : State) (ctx : Nat) (js : List OrderSt) : State :=
  let n := s.pick.counter
  match s.core.pool ctx with
  | none => s
  | some p =>
    let r := KvRun.beat n s.core js { p := p, budget := s.core.kvLeft.1, searched := s.core.kvLeft.2 }
    let p0 := { r.p with grows := r.waits }
    let p1 := if p0 = p then p else { p0 with lastBeat := n }
    let c1 := { (s.core.setPool ctx fun _ => p1) with kvLeft := (r.budget, r.searched) }
    let c2 := r.done.foldl (fun c d => c.complete d.1 d.2.1 d.2.2 n) c1
    let c3 := r.tries.foldl (fun c j => c.setOrder j (OrderSt.triedAt n)) c2
    let c4 := if p1 = p then c3 else c3.writePool p1
    let c5 := (js.filter (·.opcode = 0x31)).foldl (fun c o => c.destroyPool ctx n o) c4
    ({ s with core := c5 }).poolEvent

/-- KV_ADMIT_LIMIT passed (R245): a join still deferred after its try at beat a + K completes with KV.ADMIT_STARVED, and
its sequence returns to FREE. -/
def State.kvStarve (s : State) (o : OrderSt) : State :=
  let n := s.pick.counter
  match s.core.ctxOf o.ctx with
  | none => s
  | some x =>
    match s.core.pool x, o.tried with
    | some p, some a =>
      let q := o.arg 0x10 4
      if o.opcode = 0x32 && o.status.isNone && o.lastTry = some n && a + p.limit ≤ n && (p.seq q).state = .deferred then
        let p1 := { (p.setSeq n q fun _ => {}) with lastBeat := n }
        (s.withCore fun c => ((c.setPool x fun _ => p1).writePool p1).complete o.jno 0x0A02 0 n).poolEvent
      else s
    | _, _ => s

/-- A grow still stalled after its try at beat g + K raises KV.EXHAUSTED in pick g + K + 1 (R245). -/
def State.kvExhaust (s : State) (o : OrderSt) : State :=
  match s.core.ctxOf o.ctx with
  | none => s
  | some x =>
    match s.core.pool x, o.tried with
    | some p, some g =>
      if o.opcode = 0x34 && o.status.isNone && g + p.limit < s.pick.counter && !s.core.faulting x then
        s.withCore fun c => c.raise x 0x0A01 0 o.jno 0
      else s
    | _, _ => s

/-- Page l of a row (R222). -/
def KvPool.page (p : KvPool) (row l : Nat) : Nat := p.data + 262144 * (row * p.layers + l)

/-- One block of a copy: the old block as the beat committed it, as a shadow block of the new one that the context's tasks may read
(R239, R536); none where the stack's pool is empty. -/
def Core.copyBlock (c : Core) (m : Memory) (ctx src dst : Nat) : Option Core :=
  let h := m.takeBlock ctx src none
  let new : HeldBlock :=
    { h with addr := dst, byFill := true, cells := h.cells.map fun x => (x.1 - src + dst, x.2),
             sectors := h.sectors.map fun x => (x.1 - src / 64 + dst / 64, x.2) }
  ((if (c.shadowAt dst).isSome then some c else c.takeShadow dst)).map fun d =>
    { d with pm := { d.pm with shadow := d.pm.shadow.filter (·.addr ≠ dst) ++ [new] } }

/-- The copy of a row, whole or not at all (R239, R335). -/
def Core.copyRow (c : Core) (m : Memory) (p : KvPool) (e : Nat × Nat) : Option Core :=
  (List.range (16 * p.layers)).foldl (fun (r : Option Core) i =>
    r.bind fun d => d.copyBlock m p.ctx (p.page e.1 (i / 16) + 16384 * (i % 16)) (p.page e.2 (i / 16) + 16384 * (i % 16))) (some c)

/-- A pool's queued copies from a committed memory, and those that find no shadow block (R239, R335). -/
def Core.copyRows (c : Core) (m : Memory) (p : KvPool) : Core × List (Nat × Nat) :=
  p.copies.foldl (fun (q : Core × List (Nat × Nat)) e => match q.1.copyRow m p e with
    | some c => (c, q.2)
    | none => (q.1, q.2 ++ [e])) (c, [])

/-- KV_COPY_DONE (R239): the copies queued at the beat complete, each page from the old row as committed, as shadow
blocks that the context's tasks may read (R536), and the context's tasks may be admitted. Lines that the host caches are snooped
first (R440). A row that finds no shadow block waits for the next pick, and the context's tasks with it (R335). -/
def execKvCopyDone (ctx : Nat) (s : State) : Res :=
  if !s.operational || s.pick.phase ≠ .span then .next s else
  match s.core.pool ctx with
  | none => .next s
  | some p =>
    if !p.copying then .next s else
    let lines := fun (e : Nat × Nat) => (List.range p.layers).flatMap fun l =>
      s.awaited (p.page e.1 l) 262144 true ++ s.awaited (p.page e.2 l) 262144 false
    let held := p.copies.flatMap lines
    if !held.isEmpty then .next (s.snoop held) else
    let q := s.core.copyRows s.committed.mem p
    let s1 := { s with core := q.1.setPool ctx fun p => { p with copying := !q.2.isEmpty, copies := q.2 } }
    .next (if q.2.isEmpty then s1 else s1.memEvent 2)

/-- KVPIN (R236): a row's PINS rises, saturating; a free or nonexistent row is a context fault. -/
def execKvpin (t : TaskRef) (row : Nat) (s : State) : Res :=
  match s.core.taskCtx t, (s.core.task t).map Task.phase with
  | some x, some .running =>
    if !s.operational then .next s else
    match s.core.pool x with
    | none => .next (s.tellAborts (s.withCore fun c => c.raiseTask t 0x0A03 row))
    | some p =>
      if p.rows ≤ row || p.refs row = 0 then .next (s.tellAborts (s.withCore fun c => c.raiseTask t 0x0A03 row))
      else .next (s.withCore fun c => c.setPool x fun p =>
        { p with rowSt := modifyAt p.rowSt row fun r => (r.1, min 65535 (r.2 + 1)) })
  | _, _ => .next s

end Sys2Proof.Machine
end

