-- ==== Sys2Proof/Machine/Objects.lean ====
section
/-! DEFINITION. Sys2Proof/Machine/Objects.lean: object orders (11_memory.md, Tables 11-5 to 11-7): creation with its
checks, fill and placement, destruction, hints and moves, loads and stores. -/

namespace Sys2Proof.Machine

/-- Elements per tile-block row of a format (R138, R320). -/
def elemsPerRow (fmt : Nat) : Nat :=
  match fmt with
  | 0 => 64 | 1 => 64 | 2 => 128 | 3 => 128 | 4 => 32 | 5 => 32 | _ => 128

/-- Bytes of a matrix's layout (R138), with the scale plane of R146 for FP8. -/
def layoutBytes (fmt rows stride : Nat) : Nat :=
  let b := stride * ceilDiv rows 128
  16384 * (b + if fmt = 2 ∨ fmt = 3 then ceilDiv b 32 else 0)

/-- Class, mode, coding and format keep to Table 11-7. -/
def classOk (cls : Nat) (single : Bool) (coding fmt : Nat) : Bool :=
  let c2 := coding ≠ 2 || fmt = 0 || fmt = 4
  match cls with
  | 0 => !single && coding = 0
  | 1 => !single && coding ≤ 1
  | 2 => (coding = 0 || !single) && c2
  | 3 => coding = 0
  | 4 => coding = 0
  | _ => false

/-- The objects of the module, this or an absorbed one (R399), that a handle names a context of. -/
def Core.objsOf (c : Core) (handle : Nat) : List (Nat × Obj) :=
  let far := (c.ctxOf handle).elim false fun x => (c.ctx x).absorbedTag
  c.objs.filter fun p => decide (2 ^ 20 ≤ p.1) == far

/-- The `OBJ_CREATE` checks of R320, in its order of cases; true where one fails. `harness` gives the defaults in force
(mode 2) and the activation mask. -/
def objCreateBad (c : Core) (h : Nat) (o : OrderSt) : Bool :=
  let objs := c.objsOf o.ctx
  let id := o.arg 0x10 4; let cls := o.arg 0x14 1; let mode := o.arg 0x15 1; let fmt := o.arg 0x16 1
  let cod := o.arg 0x17 1; let size := o.arg 0x18 8; let rows := o.arg 0x20 4; let cols := o.arg 0x24 4
  let stride := o.arg 0x28 4; let flags := o.arg 0x31 1
  let dflt := c.draft.elim false fun d => (d.tier h).singleHome
  let single := if mode = 2 then dflt else mode = 1
  let act := c.draft.elim 1 fun d => (d.func h).act
  4 < cls || 2 < mode || 6 < fmt || 2 < cod
    || id = 0 || 0xFFFFFFFE < id || objs.any (fun p => p.2.id = id)
    || 1048576 ≤ objs.length
    || !classOk cls single cod fmt
    || ((cod = 1 || cod = 2) && cls = 2 && !bitOf act cod)
    || size % 16384 ≠ 0 || size < 16384 || 2 ^ 40 < size
    || (fmt ≠ 6 && (rows = 0 || cols = 0 || stride < ceilDiv cols (elemsPerRow fmt) || size < layoutBytes fmt rows stride))
    || (fmt = 6 && (rows ≠ 0 || cols ≠ 0 || stride ≠ 0))
    || (bitOf flags 1 && cls ≠ 2)

/-- The lowest free object-table index (R318): of this module's table, or of the twin's for an absorbed context (R399). -/
def Core.freeIndex (c : Core) (x : Nat) : Nat :=
  let base := if (c.ctx x).absorbedTag then 2 ^ 20 else 0
  base + ((List.range (c.objs.length + 1)).find? fun i => (c.obj (base + i)).isNone).getD c.objs.length

/-- T2 bytes of a set of objects. -/
def t2Bytes (objs : List (Nat × Obj)) : Nat := ((List.range 24).map (stackUsed objs)).sum

/-- The save areas of the twin's contexts (R122), in a harness or in all. -/
def Mirror.saveAreas (m : Mirror) (h : Option Nat) : Nat :=
  (m.ctxs.map fun k => if k.state ≠ .free ∧ h.elim true (· = k.harness) then ((getKey m.slots k.slot).getD 0) * 1835008 else 0).sum

/-- The pair is in SYNC with MIRROR = 1 (R321, R391). -/
def State.mirroring (s : State) : Bool :=
  s.twin.state = .sync && s.core.draft.elim false fun d => d.twin.mirror

/-- The orders of an opcode that the twin's journal has sealed for this beat and that both twins apply before this module's: those of the
twin with an even D (R391; log entry 198). -/
def State.twinCreates (s : State) (op : Nat) : List JEntry :=
  if s.mirroring && s.glb.address.getD 3 0 % 2 = 1 then
    s.twin.mirror.entries.filter fun e => e.kind = 1 && e.opcode = op && e.sealBeat = s.pick.counter
  else []

/-- The T2 bytes that those orders ask for, in a harness or in all: their objects, and the save areas of their contexts. -/
def State.twinAsks (s : State) (h : Option Nat) : Nat :=
  let m := s.twin.mirror
  let obj := fun (e : JEntry) => if h.elim true (· = (m.ctxs.getD (e.handle % 64) {}).harness) then
    storedBlock (byteAt e.bytes 0x17) (byteAt e.bytes 0x16) * (fieldAt e.bytes 0x18 8 / 16384) else 0
  let area := fun (e : JEntry) =>
    let id := byteAt e.bytes 0x10
    let mine := h.elim true fun h => (s.core.draft.bind fun d => d.slot id).elim false fun sl => sl.harness = h
    if mine then ((getKey m.slots id).getD 0) * 1835008 else 0
  ((s.twinCreates 0x20).map obj).sum + ((s.twinCreates 0x01).map area).sum

/-- The module-wide test of R391 on both twins: own use plus the other's use outside its persistent set, with the new
object added. The twin's use outside its persistent set is taken from its tables in the mirror. -/
def State.pairRoom (s : State) (add : Nat) : Bool :=
  let np := fun (l : List (Nat × Obj)) => t2Bytes (l.filter fun p => p.2.cls ≠ 0)
  let cap := 1144 * 2 ^ 30
  let saves := ((List.range 16).map (s.core.t2Used [])).sum + s.twin.mirror.saveAreas none + s.twinAsks none
  let mine := t2Bytes (s.core.objs ++ s.twin.mirror.objs.filter fun p => p.2.cls = 0)
  let its := t2Bytes (s.twin.mirror.objs ++ s.core.objs.filter fun p => p.2.cls = 0)
  mine + np s.twin.mirror.objs + saves + add ≤ cap && its + np s.core.objs + saves + add ≤ cap

/-- The room of a `PERSIST` object in the quota of the twin's harness of an id (R321). -/
def State.twinRoom (s : State) (h add : Nat) : Bool :=
  let m := s.twin.mirror
  let used := ((m.objs ++ s.core.objs.filter fun p => p.2.cls = 0).map fun p => if p.2.harness = h then
    (p.2.homes.filter fun x => match x with | .t2 _ => true | .t3 .. => false).length * storedBlock p.2.coding p.2.format else 0).sum
  used + m.saveAreas (some h) + s.twinAsks (some h) + add ≤ (getKey m.quotas h).getD 0

/-- The homes of a new object's blocks (R337), where quotas, stacks and, with MIRROR = 1, the twin have room (R321, R391); none in a
harness whose use a draft's lower quota has left above it (R327). -/
def State.newHomes (s : State) (x : Nat) (o : OrderSt) : Option (List Home) :=
  let c := s.core
  let h := (c.ctx x).harness
  let cls := o.arg 0x14 1; let fmt := o.arg 0x16 1; let cod := o.arg 0x17 1; let size := o.arg 0x18 8
  let stored := storedBlock cod fmt
  let tier := c.draft.map fun d => d.tier h
  let quota := tier.elim 0 fun t => t.quota
  let mirrorObjs := s.twin.mirror.objs.filter fun p => p.2.cls = 0
  let total := stored * (size / 16384)
  let twinRoom := !s.mirroring || (s.pairRoom total
    && (cls ≠ 0 || s.twinRoom h total))
  if twinRoom && c.t2Used c.objs h ≤ quota then placeAll (affinityDies (o.arg 0x30 1 % 16)) quota stored (tier.elim (0, 0) TierDef.window) (bitOf (o.arg 0x31 1) 1)
    (size / 16384) 0 (c.placeAcc mirrorObjs h)
  else none

/-- An `OBJ_CREATE` asks for a fill, or its coding does (R323). -/
def OrderSt.wantsFill (o : OrderSt) : Bool := bitOf (o.arg 0x31 1) 0 || o.arg 0x17 1 ≠ 0

/-- The object that an `OBJ_CREATE` makes at a beat (R318, Table 11-6). -/
def State.newObj (s : State) (x : Nat) (o : OrderSt) (homes : List Home) : Obj :=
  let h := (s.core.ctx x).harness
  let mode := o.arg 0x15 1; let flags := o.arg 0x31 1; let aff := o.arg 0x30 1 % 16
  { id := o.arg 0x10 4, ctx := x, cls := o.arg 0x14 1, format := o.arg 0x16 1, coding := o.arg 0x17 1, size := o.arg 0x18 8
    single := if mode = 2 then s.core.draft.elim false (fun d => (d.tier h).singleHome) else mode = 1
    rows := o.arg 0x20 4, cols := o.arg 0x24 4, stride := o.arg 0x28 4, lifetime := o.arg 0x2C 4
    affinity := if aff = 0 then 15 else aff, farOk := bitOf flags 1
    pattern := if bitOf flags 0 then o.arg 0x38 8 else 0
    harness := h, created := s.pick.counter, homes := homes, filling := o.wantsFill
    fillOrder := if o.wantsFill then some o.jno else none, fill := o.wantsFill }

/-- `OBJ_CREATE` on a context (R318 to R323, R337, R391). -/
def State.objCreate (s : State) (x : Nat) (o : OrderSt) : State :=
  let n := s.pick.counter
  if objCreateBad s.core (s.core.ctx x).harness o then s.withCore fun c => c.complete o.jno 0x0703 0 n else
  match s.newHomes x o with
  | none => (s.withCore fun c => c.complete o.jno 0x0702 0 n).memEvent 0
  | some homes =>
    let i := s.core.freeIndex x
    let s1 := s.withCore fun c => { c with objs := putKey c.objs i (s.newObj x o homes) }
    if o.wantsFill then s1.withCore fun c => c.setOrder o.jno fun o => { o with applied := true }
    else s1.withCore fun c => c.complete o.jno 0 (i % 2 ^ 20) n

/-- A tile block of fill data (R323): PATTERN every 8 bytes in logical element order, with the word rotation of R139 for
a shaped object and plain byte order for BYTES. -/
def fillBlock (shaped : Bool) (pattern : Nat) : Bytes :=
  let pat := leBytes 8 pattern
  (List.range 16384).map fun i =>
    if shaped then
      let r := i / 128
      let w := (i / 4 % 16 + 16 - r % 16) % 16
      pat.getD ((4 * w + i % 4) % 8) 0
    else pat.getD (i % 8) 0

/-- An engine's whole blocks are written for an order, and those that find no shadow block are left over (R335). -/
def Core.landBlocks (c : Core) (ctx : Nat) (jno : Option Nat) (fill : Bool) (ws : List (Nat × Bytes)) : Core × List Nat :=
  ws.foldl (fun (q : Core × List Nat) w =>
    let r := q.1.shadowWrite ctx w.1 w.2 fill
    if r.2 then (jno.elim r.1 fun j => r.1.noteWriter j w.1 w.2.length, q.2) else (q.1, w.1 :: q.2)) (c, [])

/-- OBJECT_FILL_DONE (R323): every block of the new object is written as a shadow block that the context's tasks may read
from now on (R536), once the host caches none of its lines (R440); the order's result is its index. Blocks that find no shadow block
wait for the next pick, and the context's tasks with them (R335). -/
def execObjectFillDone (i : Nat) (s : State) : Res :=
  if !s.operational || s.pick.phase ≠ .span then .next s else
  match s.core.obj i with
  | none => .next s
  | some o =>
    if !o.filling then .next s else
    let held := s.awaited (devAddr i 0) o.size false
    if !held.isEmpty then .next (s.snoop held) else
    let data := fillBlock (o.format ≠ 6) o.pattern
    let q := s.core.landBlocks o.ctx o.fillOrder true (((List.range o.blocks).filter fun t => !o.whole.contains t).map fun t => (devAddr i (16384 * t), data))
    if !q.2.isEmpty then .next (({ s with core := q.1 }).memEvent 2) else
    let s1 := ({ s with core := q.1 }).farPut (q.1.farDue ((List.range o.blocks).map fun t => devAddr i (16384 * t)))
    let c2 := s1.core.setObj i fun o => { o with filling := false, fillOrder := none }
    .next { s1 with core := match o.fillOrder with
      | some j => c2.complete j 0 (i % 2 ^ 20) s.pick.counter
      | none => c2 }

/-- An object is freed: its homes, cached lines, frame blocks, pending moves, and the apertures that target it (R325,
R438). -/
def Core.freeObj (c : Core) (i : Nat) : Core :=
  { c with
    objs := c.objs.filter (·.1 ≠ i)
    mem := { cells := dropKeys c.mem.cells (devAddr i 0) (2 ^ 40), sectors := dropKeys c.mem.sectors (devAddr i 0 / 64) (2 ^ 34) }
    moves := c.moves.filter (·.obj ≠ i)
    apertures := c.apertures.map fun a => if addrIndex a.2 = i ∧ bitOf a.2 0 then (a.1, a.2 - 1) else a
    onchip := { c.onchip with
      t1 := c.onchip.t1.map fun l => l.filter fun x => addrIndex (1024 * x.line) ≠ i
      frames := c.onchip.frames.map fun f => { f with blocks := f.blocks.filter fun b => addrIndex b ≠ i } }
    pm := { c.pm with shadow := c.pm.shadow.filter fun h => addrIndex h.addr ≠ i } }

/-- `OBJ_DESTROY` (R325). -/
def State.objDestroy (s : State) (x : Nat) (o : OrderSt) : State :=
  let n := s.pick.counter
  match s.core.objById x (o.arg 0x10 4) with
  | none => s.withCore fun c => c.complete o.jno 0x0703 0 n
  | some (i, _) =>
    if s.core.pools.any fun p => addrIndex p.data = i || addrIndex p.table = i || addrIndex p.tree = i then
      s.withCore fun c => c.complete o.jno 0x0703 0 n
    else s.withCore fun c => (c.freeObj i).complete o.jno 0 0 n

/-- A block that the new target or affinity moves to T2 (R338). -/
def hintToT2 (tier : Nat) (dies : List Nat) (h : Home) : Bool :=
  match h with
  | .t3 .. => tier = 0
  | .t2 sk => tier ≠ 1 && !dies.contains (sk / 6)

/-- The moves that `OBJ_HINT` lists (R338): toward T2 until the first block the quota or the stacks cannot hold, toward
T3, and blocks on dies the new affinity leaves out, whose quota they hold already. -/
def hintMoves (i : Nat) (o : Obj) (jno tier aff : Nat) (acc : PlaceAcc) (quota : Nat) (win : Nat × Nat) : List Move :=
  let stored := storedBlock o.coding o.format
  let dies := affinityDies aff
  let step := fun (st : List Move × PlaceAcc × Bool) (e : Home × Nat) =>
    let (l, p, stop) := st
    if stop then st else
    let toT2 := hintToT2 tier dies e.1
    let inT2 : Bool := match e.1 with
      | .t2 _ => true
      | .t3 .. => false
    let p0 := if inT2 then { p with quotaUsed := p.quotaUsed - stored } else p
    let toT3 : Bool := match e.1 with
      | .t2 _ => tier = 1
      | .t3 .. => false
    if toT2 then
      match placeOne dies (if inT2 then max quota p.quotaUsed else quota) stored win false e.2 p0 with
      | some (h, p') => (l ++ [⟨i, e.2, h, false, jno⟩], p', false)
      | none => (l, p, true)
    else if toT3 then
      match lowestFree p.t3 (2 * stored) win with
      | some off => (l ++ [⟨i, e.2, .t3 off false, false, jno⟩], { p with t3 := (off, 2 * stored) :: p.t3 }, false)
      | none => (l, p, true)
    else st
  (o.homes.zipIdx.foldl step ([], acc, false)).1

/-- The affinity that an `OBJ_HINT` leaves its object with (R338). -/
def OrderSt.hintAffinity (o : OrderSt) (ob : Obj) : Nat :=
  if o.arg 0x15 1 = 0xFF then ob.affinity else if o.arg 0x15 1 = 0 then 15 else o.arg 0x15 1

/-- The moves that an `OBJ_HINT` lists for its object. -/
def State.hintList (s : State) (i : Nat) (ob : Obj) (o : OrderSt) : List Move :=
  let td := s.core.draft.map fun d => d.tier ob.harness
  let acc := s.core.placeAcc (s.twin.mirror.objs.filter fun p => p.2.cls = 0) ob.harness
  hintMoves i ob o.jno (o.arg 0x14 1) (o.hintAffinity ob) acc (td.elim 0 fun t => t.quota) (td.elim (0, 0) TierDef.window)

/-- `OBJ_HINT` (R338). -/
def State.objHint (s : State) (x : Nat) (o : OrderSt) : State :=
  let n := s.pick.counter
  match s.core.objById x (o.arg 0x10 4) with
  | none => s.withCore fun c => c.complete o.jno 0x0703 0 n
  | some (i, ob) =>
    let tier := o.arg 0x14 1
    if tier = 1 && !ob.farOk then s.withCore fun c => c.complete o.jno 0x0703 0 n else
    let ms := s.hintList i ob o
    let wanted := ob.homes.any (hintToT2 tier (affinityDies (o.hintAffinity ob)))
    if wanted && ms.isEmpty then (s.withCore fun c => c.complete o.jno 0x0702 0 n).memEvent 0 else
    let s1 := s.withCore fun c =>
      { (c.setObj i fun b => { b with
        affinity := o.hintAffinity ob, lifetime := o.arg 0x18 4, target := if tier = 0xFF then b.target else some tier }) with moves := c.moves ++ ms }
    if ms.isEmpty then s1.withCore fun c => c.complete o.jno 0 0 n
    else s1.withCore fun c => c.setOrder o.jno fun o => { o with applied := true, tried := some ms.length }

/-- BLOCK_MOVE_DONE (R338): a listed block's copy to its new home completes, taking a shadow block until the commit step
switches it in. -/
def execBlockMoveDone (obj blk : Nat) (s : State) : Res :=
  if !s.operational || s.pick.phase ≠ .span then .next s else
  match s.core.moves.find? fun m => m.obj = obj && m.blk = blk && !m.copied with
  | none => .next s
  | some m =>
    let far := match m.dest with | .t3 .. => true | .t2 _ => false
    if (far && !s.linkUp) || !(s.farStalled (devAddr obj (16384 * blk)) 16384).isEmpty then .next s else
    match s.core.takeShadow (devAddr obj (16384 * blk)) with
    | none => .next (s.memEvent 2)
    | some c =>
      let a := devAddr obj (16384 * blk)
      let there := c.setObj obj fun o => { o with homes := setAt o.homes blk m.dest }
      let s1 := ({ s with core := c }).farPut ((there.farWriteOf a).map fun w => (a, w))
      .next (s1.withCore fun c => { c with moves := c.moves.map fun m =>
        if m.obj = obj ∧ m.blk = blk then { m with copied := true } else m })

/-- The commit step switches in the copied moves of blocks that the pick did not change; a block that changed is copied
again (R338). An order whose last block moved is complete. -/
def Core.switchMoves (c : Core) (n : Nat) : Core :=
  let touched := fun (m : Move) => (c.pm.shadow.any fun h => h.addr = devAddr m.obj (16384 * m.blk))
    || getKey c.changed (devAddr m.obj (16384 * m.blk)) = some n
  let ready := c.moves.filter fun m => m.copied && !touched m
  let left := (c.moves.filter fun m => !(m.copied && !touched m)).map fun m => { m with copied := false }
  let c1 := ready.foldl (fun (c : Core) m => c.setObj m.obj fun o =>
    { o with homes := setAt o.homes m.blk m.dest, whole := if o.whole.contains m.blk then o.whole else m.blk :: o.whole }) c
  let c2 := { c1 with moves := left }
  ready.foldl (fun (c : Core) m =>
    if left.any (·.jno = m.jno) then c
    else c.complete m.jno 0 (((c.order m.jno).bind OrderSt.tried).getD 0) n) c2

/-- The checks of `OBJ_LOAD` and `OBJ_STORE` (R326), addresses first (R108): the status, or the object they act on. -/
def Core.loadStoreCheck (c : Core) (x : Nat) (o : OrderSt) : Nat ⊕ (Nat × Obj) :=
  if o.arg 0x18 8 % 16384 ≠ 0 || o.arg 0x28 8 % 16384 ≠ 0 || o.arg 0x20 8 % 64 ≠ 0 then .inl 0x0109 else
  match c.objById x (o.arg 0x10 4) with
  | none => .inl 0x0703
  | some (i, ob) => if ob.size < o.arg 0x18 8 + o.arg 0x28 8 then .inl 0x0109 else .inr (i, ob)

/-- `OBJ_LOAD` and `OBJ_STORE` begin their transfer (R326). -/
def State.objTransfer (s : State) (x : Nat) (o : OrderSt) : State :=
  match s.core.loadStoreCheck x o with
  | .inl st => s.withCore fun c => c.complete o.jno st 0 s.pick.counter
  | .inr _ => s.withCore fun c => c.setOrder o.jno fun o => { o with applied := true }

/-- OBJ_LOAD_STORE_DONE (R326): the transfer has moved its range, once the host caches no line that a load writes and no
modified one that a store reads (R440) and what a store reads is sound (R361, R362); a host access or a write to T3 that failed gives MEM.FAR (R443). Blocks of a load that find no shadow block wait for the next pick (R335). -/
def execObjLoadStoreDone (jno : Nat) (host : HostView) (writeOk : Bool) (s : State) : Res :=
  if !s.operational || s.pick.phase ≠ .span then .next s else
  match s.core.order jno with
  | none => .next s
  | some o =>
    match s.core.ctxOf o.ctx with
    | none => .next s
    | some x =>
      if !o.applied || o.status.isSome || (o.opcode ≠ 0x23 && o.opcode ≠ 0x24) then .next s else
      let n := s.pick.counter
      match s.core.loadStoreCheck x o with
      | .inl st => .next (s.withCore fun c => c.complete jno st 0 n)
      | .inr (i, _) =>
        let a := devAddr i (o.arg 0x18 8)
        let held := s.awaited a (o.arg 0x28 8) (o.opcode = 0x24)
        if !s.linkUp then .next s else
        if !held.isEmpty then .next (s.snoop held) else
        if o.opcode = 0x23 then
          let s0 := s.hostFetch (o.arg 0x20 8) (o.arg 0x28 8)
          let far := (s0.withCore fun c => c.complete jno 0x0706 0 n).memEvent 3
          match hostRead host (o.arg 0x20 8) (o.arg 0x28 8) with
          | none => .next far
          | some data =>
            let blks := (List.range (data.length / 16384)).map fun k => (a + 16384 * k, (data.drop (16384 * k)).take 16384)
            let r := s.core.landBlocks x (some jno) false (blks.filter fun w => !o.landed.contains w.1)
            let done := (blks.map Prod.fst).filter fun b => !r.2.contains b
            let s1 := { s0 with core := r.1.setOrder jno fun o => { o with landed := done } }
            let due := s1.core.farDue (blks.map Prod.fst)
            .next (if !r.2.isEmpty then s1.memEvent 2
              else if !due.isEmpty && !writeOk then far
              else (s1.farPut due).withCore fun c => c.complete jno 0 0 n)
        else
          let drop := fun (s : State) => s.withCore fun c => { c with stores := c.stores.filter (·.1 ≠ jno) }
          let s1 := s.readAll (.engine ⟨jno, 0⟩) x [(a, o.arg 0x28 8)]
          if s1.core.faulting x || s1.core.rangesBlocked [(a, o.arg 0x28 8)] then .next (s.tellAborts s1)
          else if writeOk then
            match getKey s1.core.stores jno with
            | some data => .next (drop ((s1.hostPut (o.arg 0x20 8) data).withCore fun c => c.complete jno 0 0 n))
            | none => .next s1
          else .next (drop ((s1.withCore fun c => c.complete jno 0x0706 0 n).memEvent 3))

/-- The bytes that the `OBJ_STORE` orders applied at a beat move are those that it commits (R326). -/
def Core.takeStores (c : Core) : Core :=
  let new := (c.orders.filter fun o => o.opcode = 0x24 && o.applied && o.status.isNone && (getKey c.stores o.jno).isNone).filterMap fun o =>
    (c.ctxOf o.ctx).bind fun x => match c.loadStoreCheck x o with
      | .inr (i, _) => some (o.jno, c.memBytes c.mem (devAddr i (o.arg 0x18 8)) (o.arg 0x28 8))
      | .inl _ => none
  { c with stores := putAll c.stores new }

end Sys2Proof.Machine
end

