-- ==== Sys2Proof/Machine/TaskList.lean ====
section
/-! DEFINITION. Sys2Proof/Machine/TaskList.lean: task descriptors and live-range tables (Table 4-8, R124, R125), and the
checks of reed, shuttle, update and fill descriptors before a list is released (R207, R266, R291, R352). -/

namespace Sys2Proof.Machine

/-- The descriptor at 64 bytes of a task list (Table 4-8). -/
def readTaskDesc (d : Bytes) : TaskDesc :=
  { length := fieldAt d 0 4, undo := fieldAt d 4 2, cu := fieldAt d 6 2, engine := byteAt d 8
    deps := (List.range (min (byteAt d 9) 4)).map fun k => fieldAt d (0xC + 2 * k) 2
    code := fieldAt d 0x18 8, args := fieldAt d 0x20 8, live := fieldAt d 0x28 8 }

/-- The cases of R124 on one descriptor; true where one holds. -/
def taskDescBad (slotCus idx : Nat) (d : Bytes) : Bool :=
  let t := readTaskDesc d
  !zeroAt d 0xA 2 || !zeroAt d 0x14 4 || !zeroAt d 0x30 16 || 6 < t.engine || slotCus ≤ t.cu || 4 < byteAt d 9
    || 8192 < t.undo || t.deps.any fun k => idx ≤ k

/-- A range lies in one live object of the context (R317). -/
def Core.inObj (c : Core) (x a n : Nat) : Bool := (c.find x a n).isSome

/-- The binary32 pattern is neither infinite nor NaN. -/
def finite32 (b : Nat) : Bool := bits b 30 23 ≠ 255

/-- The binary32 pattern is above +0 and not NaN. -/
def positive32 (b : Nat) : Bool := !bitOf b 31 && b % 2 ^ 31 ≠ 0 && b ≤ 0x7F800000

/-- The id under which a context's groups are kept; an id past 255 names none (Table 3-7). -/
def Core.groupId (c : Core) (x id : Nat) : Nat :=
  if 256 ≤ id then id + 512 else id + if (c.ctx x).absorbedTag then 256 else 0

/-- The shuttle-descriptor checks of R207; true where one fails. -/
def Core.shuttleBad (c : Core) (x me : Nat) (d : Bytes) : Bool :=
  let vb := fieldAt d 0x18 4; let gb := fieldAt d 0x1C 4; let mb := fieldAt d 0x20 4
  let n := vb + gb + mb
  let sh := c.draft.elim 1 fun dr => (dr.func (c.ctx x).harness).shuttle
  let gd := c.draft.bind fun dr => dr.groups.find? (·.id = fieldAt d 2 2)
  let axes := gd.elim 0 fun g => ((List.range 4).filter (bitOf g.mask)).length
  1 < byteAt d 0 || 2 < byteAt d 1 || !zeroAt d 0x24 28 || !bitOf sh (byteAt d 1)
    || (match c.group (c.groupId x (fieldAt d 2 2)) with
        | none => true
        | some g => let z := g.members.length
          !g.members.contains me || axes = 0 || 2 < axes || z < 2 || 64 < z
            || fieldAt d 4 2 = 0 || z < fieldAt d 4 2 || (z ≤ fieldAt d 4 2 && vb ≠ 0))
    || (gb ≠ 0 && byteAt d 0 = 0) || n = 0
    || fieldAt d 8 8 % 16384 ≠ 0 || fieldAt d 0x10 8 % 16384 ≠ 0 || vb % 16384 ≠ 0 || gb % 16384 ≠ 0 || mb % 64 ≠ 0
    || 2 ^ 20 < mb || !c.inObj x (fieldAt d 8 8) n || !c.inObj x (fieldAt d 0x10 8) n

/-- The update-descriptor checks of R266; true where one fails. -/
def Core.updateBad (c : Core) (x : Nat) (d : Bytes) : Bool :=
  let opt := byteAt d 0; let cnt := fieldAt d 0xC 4; let first := fieldAt d 0x10 8
  let gsz := if byteAt d 2 = 1 then 2 else 4
  let msz := if byteAt d 1 = 1 then 2 else 4
  let arr := fun (off sz : Nat) => fieldAt d off 8 % 16384 ≠ 0 || !c.inObj x (fieldAt d off 8) ((first + cnt) * sz)
  let f := fun (k : Nat) => fieldAt d (0x58 + 4 * k) 4
  let used := if opt = 0 then [0, 1, 2, 3, 4, 5, 6, 7, 8] else [0, 1, 6]
  let norm := fieldAt d 0x40 8
  let bound := (c.draft.bind Draft.train).elim false fun t => t.bindings.contains (fieldAt d 4 4, fieldAt d 8 4)
  2 < opt || 1 < byteAt d 1 || 1 < byteAt d 2 || 8 ≤ byteAt d 3
    || cnt = 0 || cnt % 8192 ≠ 0 || first % 8192 ≠ 0 || arr 0x28 gsz
    || (if opt = 2 then norm = 0 || norm % 8 ≠ 0 || !c.inObj x norm 12
        else arr 0x18 2 || arr 0x20 2 || arr 0x30 msz || (opt = 0 && arr 0x38 msz)
          || !bound || used.any (fun k => !finite32 (f k)) || (opt = 0 && !positive32 (f 5))
          || (norm ≠ 0 && (norm % 4 ≠ 0 || !c.inObj x norm 4 || !finite32 (f 9) || !positive32 (f 9))))

/-- The fill-descriptor checks of R352; true where one fails. -/
def Core.fillBad (c : Core) (x : Nat) (d : Bytes) : Bool :=
  let op := byteAt d 0; let dst := fieldAt d 8 8; let src := fieldAt d 0x10 8; let n := fieldAt d 0x18 8
  let b := c.draft.elim 0 fun dr => (dr.tier (c.ctx x).harness).beam
  2 < op || !zeroAt d 2 6 || !zeroAt d 0x28 24 || n = 0 || n % 16384 ≠ 0 || dst % 16384 ≠ 0 || src % 16384 ≠ 0
    || (if op = 2 then 1 < byteAt d 1 || dst ≠ 0 || b = 0 || 8 * b * 2 ^ 20 < n
          || (c.find x src n).elim true fun p => p.2.cls ≠ 1
        else byteAt d 1 ≠ 0 || !c.inObj x dst n)
    || (op = 0 && src ≠ 0)
    || (op = 1 && (!c.inObj x src n || (src < dst + n && dst < src + n)))

/-- Element bytes of a reed type (Table 10-3). -/
def reedElem (t : Nat) : Nat :=
  match t with
  | 0 => 4 | 1 => 2 | 2 => 2 | 3 => 1 | 4 => 1 | 5 => 4 | _ => 1

/-- Bytes of a piece of `n` elements (R290). -/
def pieceBytes (t n : Nat) : Nat := if t = 3 ∨ t = 4 then n + n / 32 else n * reedElem t

/-- The dies of a DIES mask. -/
def diesOf (m : Nat) : List Nat := (List.range 4).filter (bitOf m)

/-- Elements of the send and the receive range of an operation (Table 10-2), for counts fixed in the descriptor. -/
def reedRanges (op np cnt : Nat) : Nat × Nat :=
  match op with
  | 0 => (cnt, cnt) | 1 => (np * cnt, cnt) | 2 => (cnt, np * cnt) | 3 => (np * cnt, np * cnt) | 4 => (cnt, cnt)
  | 5 => (cnt, 0) | 6 => (0, cnt) | 8 => (cnt, 0) | _ => (0, 0)

/-- The reed-descriptor checks of R291 at the task's die; true where one fails. -/
def Core.reedBad (c : Core) (x me die : Nat) (d : Bytes) : Bool :=
  let op := byteAt d 0; let ty := byteAt d 1; let oper := byteAt d 2; let fl := byteAt d 3
  let ch := byteAt d 6; let dies := byteAt d 7; let cnt := fieldAt d 8 8
  let g := c.group (c.groupId x (fieldAt d 4 2))
  let n := g.elim 0 fun g => g.members.length
  let np := n * (diesOf dies).length
  let es := reedElem ty
  let sa := fieldAt d 0x10 8; let ra := fieldAt d 0x18 8; let rb := fieldAt d 0x20 8
  let rng := reedRanges op np cnt
  let piece := pieceBytes ty cnt
  let sendB := if op = 2 ∨ op = 8 then piece else rng.1 * es
  let recvB := if op = 2 then np * piece else rng.2 * es
  let binds := (c.draft.bind Draft.train).elim [] TrainMap.bindings
  let acc := fun (a : Nat) => (c.obj (addrIndex a)).elim false fun o => binds.any fun b => b.2 = o.id
  9 < op || 5 < ty || 2 < oper || 32 ≤ fl || bits fl 3 2 = 3 || 16 ≤ dies || !zeroAt d 0x2A 2
    || (2 ≤ op && oper ≠ 0)
    || ((ty = 3 || ty = 4) && op ≠ 2 && op ≠ 8)
    || (match g with | none => true | some g => !g.members.contains me)
    || (32 ≤ ch && ch < 255)
    || dies = 0 || !bitOf dies die
    || ((op = 4 || op = 5 || op = 6) && np ≤ fieldAt d 0x28 2)
    || (if op = 7 then cnt ≠ 0 else cnt = 0)
    || ((ty = 3 || ty = 4) && cnt % 524288 ≠ 0)
    || (op ≤ 6 && (op ≠ 4 || ra ≠ 0) && rb < recvB)
    || sa % es ≠ 0 || ra % es ≠ 0 || fieldAt d 0x30 8 % 64 ≠ 0 || fieldAt d 0x38 8 % 64 ≠ 0
    || (sendB ≠ 0 && !c.inObj x sa sendB)
    || (rb ≠ 0 && op ≠ 5 && op ≠ 7 && (op ≠ 4 || ra ≠ 0) && !c.inObj x ra rb)
    || ((op = 8 || op = 9) && !c.inObj x (fieldAt d 0x38 8) (8 * np * if op = 9 then 2 else 1))
    || (bits fl 3 2 ≠ 0 && !c.inObj x (fieldAt d 0x30 8) (4 * n))
    || (bitOf fl 4 && (1 < op || oper ≠ 0 || 1 < ty))
    || (bitOf fl 1 && op ≠ 2 && op ≠ 8)
    || (bitOf fl 0 && 1 < op)
    || (bits fl 3 2 ≠ 0 && (op ≠ 2 || !binds.any fun b => b.1 = fieldAt d 0x2C 4))
    || (op ≠ 1 && (op ≠ 4 || ra ≠ 0) && (recvB ≠ 0 || (8 ≤ op && rb ≠ 0)) && acc (c.resolve x ra))

/-- An engine task's descriptor passes its check. -/
def Core.engineDescBad (c : Core) (x me : Nat) (slotFirst : Nat) (t : TaskDesc) : Bool :=
  let die := cuDie (slotFirst + t.cu)
  match t.engine with
  | 3 => !c.inObj x t.args 64 || c.reedBad x me die (c.readAs x t.args 64)
  | 4 => !c.inObj x t.args 64 || c.shuttleBad x me (c.readAs x t.args 64)
  | 5 => !c.inObj x t.args 128 || c.updateBad x (c.readAs x t.args 128)
  | 6 => !c.inObj x t.args 64 || c.fillBad x (c.readAs x t.args 64)
  | _ => false

/-- A range of a context reads: it lies in one of its objects, and every sector passes its check (R317, R357, R359). -/
def Core.readable (c : Core) (x a n : Nat) : Bool :=
  c.inObj x a n && (sectorsOf (c.resolve x a) n).all fun sec => c.syndrome (c.view x) sec = 0

/-- The entries of a live-range table, or none where R125 faults it. An entry of length 0 that starts inside another's range overlaps it
(log entry 148). -/
def Core.readLive (c : Core) (x slotCus a : Nat) : Option (List LiveEntry) :=
  if a = 0 then some [] else
  if !c.readable x a 8 then none else
  let n := c.readNat x a 4
  if c.readNat x (a + 4) 4 ≠ 0 || !c.readable x a (8 + 8 * n) then none else
  let es := (List.range n).map fun i =>
    let d := c.readAs x (a + 8 + 8 * i) 8
    (({ cu := fieldAt d 0 2, start := fieldAt d 2 2, len := fieldAt d 4 2, acc := byteAt d 6 = 1 } : LiveEntry),
      byteAt d 6 ≤ 1 && byteAt d 7 = 0)
  let l := es.map Prod.fst
  let lim := fun (e : LiveEntry) => if e.acc then 4096 else 24576
  let ok := es.all (·.2) && l.all (fun e => e.cu < slotCus && e.start + e.len ≤ lim e)
    && l.zipIdx.all fun e => (l.take e.2).all fun f =>
      f.cu ≠ e.1.cu || f.acc ≠ e.1.acc || f.start + f.len ≤ e.1.start || e.1.start + e.1.len ≤ f.start
  if ok then some l else none

/-- A released task, with what the order sequencer reads of its arguments: whether its `KIND` is 2 (R167; a read that
fails leaves it not so), and the weight object of its update round (R257). -/
def Core.newTask (c : Core) (x first : Nat) (d : TaskDesc) : Task :=
  let b := c.readAs x d.args 64
  let f := c.resolve x
  { desc := { d with code := f d.code, args := f d.args, live := f d.live }, cu := first + d.cu
    defer := d.engine ≤ 1 && c.readable x d.args 64 && bits (byteAt b 3) 5 4 = 2
    round := if d.engine = 5 && byteAt b 0 ≤ 1 then some (fieldAt b 4 4) else none }

/-- What the order sequencer reads of a `RUN` order as it checks the list (R124): the list, and the descriptors of its engine tasks. -/
def Core.listRanges (c : Core) (x : Nat) (o : OrderSt) : List (Nat × Nat) :=
  let list := o.arg 0x10 8
  let args := (List.range (o.arg 0x18 4)).filterMap fun i =>
    let d := readTaskDesc (c.readAs x (list + 64 * i) 64)
    let n := if d.engine = 5 then 128 else 64
    if 3 ≤ d.engine && d.engine ≤ 6 && c.inObj x d.args n then some (c.resolve x d.args, n) else none
  (c.resolve x list, 64 * o.arg 0x18 4) :: args

/-- RUN, once validated (R124): the whole list is checked, then its tasks are released; a task that can never fit is
TASK.UNFIT (R56), and a bad live-range table CTX.LIVE (R125), both context faults. What the list's own read meets goes by R361, R362 and
R440: while a repair or a snoop is awaited the order is not applied, and the next beat reads again. -/
def State.runOrder (s0 : State) (x : Nat) (o : OrderSt) : State :=
  let n := s0.pick.counter
  let cnt := o.arg 0x18 4
  match s0.core.slotOf x with
  | none => s0.withCore fun c => c.complete o.jno 0x0204 0 n
  | some sl =>
    if cnt = 0 || 65536 < cnt then s0.withCore fun c => c.complete o.jno 0x0204 0 n else
    let reads := s0.core.listRanges x o
    let s := s0.fresh.readAll (.engine ⟨o.jno, 0⟩) x reads
    let c := s.core
    let bad := s.withCore fun c => c.complete o.jno 0x0204 0 n
    if !c.need.isEmpty then s0.snoop c.need
    else if c.faulting x || c.rangesBlocked reads then s else
    let list := o.arg 0x10 8
    let me := if (c.ctx x).absorbedTag then twinAddr s.myAddr else s.myAddr
    let raws := (List.range cnt).map fun i => c.readAs x (list + 64 * i) 64
    if raws.zipIdx.any fun p => taskDescBad sl.cuCount p.2 p.1 || c.engineDescBad x me sl.firstCu (readTaskDesc p.1)
    then bad else
    let ds := raws.map readTaskDesc
    let tasks := ds.map (c.newTask x sl.firstCu)
    let s1 := s.withCore fun c => c.setOrder o.jno fun o => { o with applied := true, tasks := tasks }
    let span := spanCycles s.pick.pd10 s.pick.wd s.pick.plan
    let reserve := c.draft.elim 0 Draft.regionUndo
    ds.zipIdx.foldl (fun (s : State) p =>
      let t : TaskRef := ⟨o.jno, p.2⟩
      if span < p.1.length + 64 || reserve < p.1.undo || 8192 < p.1.undo then s.withCore fun c => c.raiseTask t 0x0202 0
      else if (c.readLive x sl.cuCount p.1.live).isNone then s.withCore fun c => c.raiseTask t 0x0505 0
      else s) s1

end Sys2Proof.Machine
end

