-- ==== Sys2Proof/Machine/Orders.lean ====
section
/-! DEFINITION. Sys2Proof/Machine/Orders.lean: orders, rings and records (04_orders.md): validation by R108, contexts, the
sampling of rings with the classification of Table 4-6, sealing, and records. -/

namespace Sys2Proof.Machine

/-- Opcodes of Table 4-3, 8-1 and 11-5 that are not reserved. -/
def opcodeKnown (op : Nat) : Bool :=
  op ≤ 3 || op = 0x10 || (0x20 ≤ op && op ≤ 0x24) || (0x30 ≤ op && op ≤ 0x36)

/-- Reserved ARGS bytes of an opcode, as (offset, length). -/
def argsReserved (op : Nat) : List (Nat × Nat) :=
  match op with
  | 0x00 => [(0x10, 104)] | 0x01 => [(0x11, 103)] | 0x02 => [(0x10, 104)] | 0x03 => [(0x10, 104)]
  | 0x10 => [(0x1C, 4), (0x30, 72)]
  | 0x20 => [(0x32, 6), (0x40, 56)] | 0x21 => [(0x14, 100)] | 0x22 => [(0x16, 2), (0x1C, 92)]
  | 0x23 => [(0x14, 4), (0x30, 72)] | 0x24 => [(0x14, 4), (0x30, 72)]
  | 0x30 => [(0x16, 2), (0x44, 52)] | 0x31 => [(0x10, 104)] | 0x32 => [(0x20, 88)] | 0x33 => [(0x18, 96)]
  | 0x34 => [(0x18, 96)] | 0x35 => [(0x14, 100)] | 0x36 => [(0x20, 88)]
  | _ => []

/-- The opcode names a context. -/
def takesContext (op : Nat) : Bool := 2 ≤ op

/-- Step 2 of R108: a reserved bit, byte or encoding is set. -/
def reservedBad (o : OrderSt) : Bool :=
  let b := o.bytes
  2 ≤ byteAt b 1 || !zeroAt b 3 1 || !zeroAt b 6 2 || !zeroAt b 0x78 4
    || (argsReserved o.opcode).any (fun r => !zeroAt b r.1 r.2)
    || (!takesContext o.opcode && fieldAt b 4 2 ≠ 0)
    || (o.opcode = 0x20 && (16 ≤ o.arg 0x30 1 || 4 ≤ o.arg 0x31 1))
    || (o.opcode = 0x22 && ((o.arg 0x14 1 ≠ 0 && o.arg 0x14 1 ≠ 1 && o.arg 0x14 1 ≠ 0xFF)
        || (16 ≤ o.arg 0x15 1 && o.arg 0x15 1 ≠ 0xFF)))

/-- Step 4 of R108 by Table 4-12: the status, or the context named. -/
def Core.contextCheck (c : Core) (o : OrderSt) : Nat ⊕ Nat :=
  match c.ctxOf o.ctx with
  | none => .inl 0x0105
  | some x =>
    let k := c.ctx x
    if k.client ≠ byteAt o.bytes 2 then .inl 0x0105
    else if k.destroy then .inl 0x0105
    else match k.state with
      | .faulted => if o.opcode = 0x02 ∨ o.opcode = 0x03 then .inr x else .inl 0x0507
      | .destroying => .inl 0x0105
      | .free => .inl 0x0105
      | _ => .inr x

/-- Step 5 of R108: an address lies outside the range its opcode allows. A result base or length of a `RUN` that is no multiple of 64
counts as such (log entry 145). -/
def Core.addressBad (c : Core) (x : Nat) (o : OrderSt) : Bool :=
  match o.opcode with
  | 0x10 =>
    let n := o.arg 0x18 4
    (1 ≤ n && n ≤ 65536 && !c.inObj x (o.arg 0x10 8) (64 * n))
      || o.arg 0x28 8 % 64 ≠ 0 || o.arg 0x20 8 % 64 ≠ 0
      || (o.arg 0x28 8 ≠ 0 && !c.inObj x (o.arg 0x20 8) (o.arg 0x28 8))
  | 0x30 => [0x28, 0x30, 0x38].any fun off => !c.inObj x (o.arg off 8) 1
  | 0x32 => (c.pool x).elim false fun p =>
      let n := o.arg 0x14 4 / p.tpp
      n ≠ 0 && (o.arg 0x18 8 % 64 ≠ 0 || !c.inObj x (o.arg 0x18 8) (8 * n))
  | 0x36 => !c.inObj x (o.arg 0x18 8) (8 * o.arg 0x14 4)
  | _ => false

/-- The client of a ring; rings 64 + i are those of the absorbed module, as the journal exchange gave them (R399). -/
def State.ringClient (s : State) (ring : Nat) : Nat :=
  if ring < 64 then (s.ord.regs.getD ring {}).client else (s.twin.mirror.rings.getD (ring - 64) {}).client

/-- The validation of R108 up to step 5: the status of the first failure. -/
def State.validate (s : State) (o : OrderSt) : Option Nat :=
  let c := s.core
  let client := byteAt o.bytes 2
  if !opcodeKnown o.opcode then some 0x0101
  else if reservedBad o then some 0x0102
  else if client ≠ s.ringClient o.ring || c.draft.elim true (fun d => d.jobLimits.getD client 0 = 0) then
    some 0x0104
  else if !takesContext o.opcode then none
  else match c.contextCheck o with
    | .inl st => some st
    | .inr x => if c.addressBad x o then some 0x0109 else none

/-- Jobs of a client (R120). -/
def Core.jobs (c : Core) (client : Nat) : Nat := (c.ctxs.filter fun x => x.state ≠ .free && x.client = client).length

/-- Contexts resident (R119). -/
def Core.resident (c : Core) : Nat := (c.ctxs.filter (·.state ≠ .free)).length

/-- `CTX_CREATE` (R119 to R122, R391). Where several of its conditions hold, the status is the first of FULL, SLOT, JOB_LIMIT and QUOTA
(log entry 144). One that came by an absorbed ring creates a context of the absorbed module: its handle
is in that module's terms, and the map gives it a handle here (R402, log entry 21). -/
def State.ctxCreate (s : State) (o : OrderSt) : State :=
  let c := s.core
  let n := s.pick.counter
  let fail := fun (st : Nat) => s.withCore fun c => c.complete o.jno st 0 n
  let client := byteAt o.bytes 2
  let twinN := if s.mirroring then (s.twin.mirror.ctxs.filter (·.state ≠ .free)).length + (s.twinCreates 0x01).length else 0
  if 64 ≤ c.resident + twinN then fail 0x0502 else
  match c.draft.bind fun d => (d.slot (o.arg 0x10 1)).map fun sl => (d, sl) with
  | none => fail 0x0503
  | some (d, sl) =>
    if s.mirroring && (getKey s.twin.mirror.slots sl.id).isNone then fail 0x0503 else
    if d.jobLimits.getD client 0 ≤ c.jobs client then fail 0x0501 else
    if (d.tier sl.harness).quota < c.t2Used c.objs sl.harness + sl.cuCount * 1835008 then fail 0x0504 else
    match (List.range 64).find? fun i => (c.ctx i).state = .free with
    | none => fail 0x0502
    | some i =>
      let next := fun (k : Nat) => if k = 255 then 1 else k + 1
      let inc := next (c.ctx i).inc
      let adopted := 64 ≤ o.ring || (s.twin.holds && (s.twin.adopt.getD o.ring none).isSome)
      let x : Ctx := { state := .idle, client := client, slot := sl.id, inc := inc, cls := sl.cls, harness := sl.harness
                       absorbedTag := adopted }
      let s1 := s.withCore fun c => c.setCtx i fun _ => x
      if adopted then
        let k := ((List.range 64).find? fun k => (s.twin.ctxMap.getD k none).isNone).getD 0
        let old := next (s.twin.mirror.ctxs.getD k {}).inc
        let s2 := s1.withCore fun c => c.complete o.jno 0 (old * 256 + k) n
        { s2 with twin := { s2.twin with
            ctxMap := setAt s2.twin.ctxMap k (some (inc * 256 + i))
            mirror := { s2.twin.mirror with ctxs := modifyAt s2.twin.mirror.ctxs k fun y => { y with inc := old } } } }
      else s1.withCore fun c => c.complete o.jno 0 (inc * 256 + i) n

/-- Every object and the pool of a context freed (R123). -/
def Core.freeCtxMemory (c : Core) (x : Nat) : Core :=
  let c1 := (c.objs.filter fun p => p.2.ctx = x).foldl (fun c p => c.freeObj p.1) c
  { c1 with pools := c1.pools.filter (·.ctx ≠ x) }

/-- A context leaves its slot's clusters. -/
def Core.leaveSlot (c : Core) (x : Nat) : Core :=
  { c with slots := c.slots.map fun sl =>
      { sl with holder := if sl.holder = some x then none else sl.holder
                run := if sl.holder = some x then 0 else sl.run
                chosen := if sl.chosen = some x then none else sl.chosen } }

/-- The reed channels bound to a context are unbound; instance counts stay (R488). -/
def Core.unbind (c : Core) (x : Nat) : Core :=
  { c with chans := c.chans.map fun ch => if ch.bound = some x then { ch with bound := none, state := .idle, parts := [] } else ch }

/-- `CTX_DESTROY` takes effect (R123). -/
def State.ctxDestroy (s : State) (x : Nat) (o : OrderSt) : State :=
  let fresh := fun (k : Ctx) => ({ inc := k.inc } : Ctx)
  s.withCore fun c => ((((c.freeCtxMemory x).leaveSlot x).unbind x).setCtx x fresh).complete o.jno 0 0 s.pick.counter

/-- The accepted orders of a context that are not determined complete with CTX.TORNDOWN, those below an acceptance rank; a
`CTX_RESET` takes effect after a teardown of its beat (R488). -/
def Core.tearOrders (c : Core) (x below beat : Nat) : Core :=
  { c with orders := c.orders.map fun p =>
      if c.ctxOf p.ctx = some x && p.acc < below && p.status.isNone && p.opcode ≠ 0x03 then
        { p.abortTasks with applied := true, status := some (0x0506, 0), doneAt := beat }
      else p }

/-- A context reset's effect on its context, at beat `n` (R488). -/
def Core.resetCtx (c : Core) (x n : Nat) : Core :=
  let c1 := c.unbind x
  let clear := fun (q : KvSeq) => match q.state with
    | .deferred => ({} : KvSeq)
    | .stalled => { q with state := .running, pending := 0 }
    | _ => q
  let turn := fun (p : KvPool) =>
    let q := { p with seqs := p.seqs.map (KvSeq.turn n clear), grows := 0 }
    if q = p then p else { q with lastBeat := n }
  let c2 := c1.setPool x turn
  let c3 := (c2.pool x).elim c2 c2.writePool
  let c4 := { c3 with pm := { c3.pm with charges := c3.pm.charges.filter fun e => e.1 ≠ x } }
  c4.setCtx x fun k =>
    { k with state := if k.destroy then .destroying else .idle, fault := 0, live := [], saved := none, restart := false }

/-- A context whose `CTX_DESTROY` ended without effect waits for none. -/
def Core.endDestroy (c : Core) (x : Nat) : Core :=
  if c.orders.any fun o => c.ctxOf o.ctx = some x && o.opcode = 0x02 && o.status.isNone then c
  else c.setCtx x fun k => { k with destroy := false, state := if k.state = .destroying then .idle else k.state }

/-- `CTX_RESET` takes effect at the commit step (R488). -/
def State.ctxReset (s : State) (x : Nat) (o : OrderSt) : State :=
  let n := s.pick.counter
  let s1 := s.withCore fun c => ((((c.resetCtx x n).tearOrders x o.acc n).endDestroy x).leaveSlot x).complete o.jno 0 0 n
  { s1 with glb := { s1.glb with lastReset := 3 } }

/-- A new pool (R226). DESIGN CHOICE (log 203): CHANGED_BEAT of its sequences starts at 0, not at the beat of the create. -/
def Core.mkPool (c : Core) (x : Nat) (o : OrderSt) (n : Nat) : KvPool :=
  let fn := c.draft.map fun d => d.func (c.ctx x).harness
  let kb := fn.elim 0 FuncDef.kvBytes
  { ctx := x, rows := o.arg 0x10 4, layers := o.arg 0x14 2, maxSeq := o.arg 0x18 4, maxRows := o.arg 0x1C 4
    seed := o.arg 0x20 8, data := c.resolve x (o.arg 0x28 8), table := c.resolve x (o.arg 0x30 8)
    tree := c.resolve x (o.arg 0x38 8), tpp := 262144 / kb, limit := fn.elim 1 FuncDef.kvLimit
    rowSt := List.replicate (o.arg 0x10 4) (0, 0), seqs := List.replicate (o.arg 0x18 4) {}
    ents := List.replicate (o.arg 0x40 4) {}, lastBeat := n }

/-- A `KV_POOL_CREATE` fails one of its conditions (R225, R226). -/
def Core.poolBad (c : Core) (x : Nat) (o : OrderSt) : Bool :=
  let rows := o.arg 0x10 4; let layers := o.arg 0x14 2; let maxSeq := o.arg 0x18 4; let maxRows := o.arg 0x1C 4
  let data := c.resolve x (o.arg 0x28 8); let table := c.resolve x (o.arg 0x30 8)
  let tree := c.resolve x (o.arg 0x38 8); let ents := o.arg 0x40 4
  let fn := c.draft.map fun d => d.func (c.ctx x).harness
  let kb := fn.elim 0 FuncDef.kvBytes
  let dataN := rows * layers * 262144
  let tableN := 64 + 64 * ceilDiv rows 8 + maxSeq * (64 * ceilDiv (64 + 4 * maxRows) 64)
  let treeN := 32 * ents
  let apart := fun (a n b m : Nat) => a + n ≤ b || b + m ≤ a
  let pow2 := (List.range 15).any fun k => ents = 1024 * 2 ^ k
  rows = 0 || 4194304 < rows || layers = 0 || 1024 < layers || maxSeq = 0 || 65536 < maxSeq || maxRows = 0
    || 65536 < maxRows || data % 262144 ≠ 0 || table % 16384 ≠ 0 || tree % 16384 ≠ 0 || !pow2
    || !c.inObj x data dataN || !c.inObj x table tableN || !c.inObj x tree treeN
    || !apart data dataN table tableN || !apart data dataN tree treeN || !apart table tableN tree treeN
    || (c.pool x).isSome || kb = 0

/-- `KV_POOL_CREATE` (R225, R226). -/
def State.kvPoolCreate (s : State) (x : Nat) (o : OrderSt) : State :=
  let n := s.pick.counter
  if s.core.poolBad x o then s.withCore fun c => c.complete o.jno 0x0A04 0 n
  else
    let p := s.core.mkPool x o n
    (s.withCore fun c => (({ c with pools := c.pools ++ [p] }).writePool p).complete o.jno 0 0 n).poolEvent

/-- The orders that wait for every earlier order of their context (R123, R319). -/
def isFenced (op : Nat) : Bool := op = 0x02 || op = 0x21 || op = 0x22 || op = 0x23 || op = 0x24

/-- Every earlier accepted order of the context was published in an earlier beat, so that an order that R123 or R319
holds back is due at this one. -/
def Core.dueNow (c : Core) (o : OrderSt) (n : Nat) : Bool :=
  !(c.earlier o).any (·.openAt n)

/-- An order is validated once, when the Exral first comes to execute it (R108); `CTX_DESTROY` then puts its context in
DESTROYING (Table 4-7). -/
def State.checkOrder (s : State) (o : OrderSt) : State :=
  if o.checked || o.status.isSome then s else
  match s.validate o with
  | some st => s.withCore fun c => (c.setOrder o.jno fun o => { o with checked := true }).complete o.jno st 0 s.pick.counter
  | none =>
    let s1 := s.withCore fun c => c.setOrder o.jno fun o => { o with checked := true }
    if o.opcode = 0x02 then
      match s1.core.ctxOf o.ctx with
      | some x => s1.withCore fun c => c.setCtx x fun k => { k with state := .destroying, destroy := true }
      | none => s1
    else s1

/-- A validated order that is due and not yet applied. -/
def State.ready (s : State) (j op : Nat) : Option OrderSt :=
  match s.core.order j with
  | some o =>
    if o.opcode = op && o.checked && !o.applied && o.status.isNone
        && (!isFenced op || s.core.dueNow o s.pick.counter) then some o else none
  | none => none

/-- A key-value order whose context has no pool when it is executed is KV.POOL (R247); one whose count is 0 breaks Table 8-1's "at least 1". -/
def State.kvPre (s : State) (o : OrderSt) : State :=
  let n := s.pick.counter
  let zero := (o.opcode = 0x32 || o.opcode = 0x34 || o.opcode = 0x36) && o.arg 0x14 4 = 0
  match (s.core.ctxOf o.ctx).bind s.core.pool with
  | none => s.withCore fun c => c.complete o.jno 0x0A04 0 n
  | some _ => if zero then s.withCore fun c => c.complete o.jno 0x0A06 0 n else s

/-- An order is applied, once validated; the page changes of the key-value orders follow together (R237), and a `CTX_RESET` takes effect at
the commit step (R488). -/
def State.effect (s : State) (o : OrderSt) : State :=
  let x := s.core.ctxOf o.ctx
  match o.opcode, x with
  | 0x00, _ => s.withCore fun c => c.complete o.jno 0 0 s.pick.counter
  | 0x01, _ => s.ctxCreate o
  | 0x02, some x => s.ctxDestroy x o
  | 0x03, _ => s
  | 0x10, some x => s.runOrder x o
  | 0x20, some x => s.objCreate x o
  | 0x21, some x => s.objDestroy x o
  | 0x22, some x => s.objHint x o
  | 0x23, some x => s.objTransfer x o
  | 0x24, some x => s.objTransfer x o
  | 0x30, some x => s.kvPoolCreate x o
  | _, _ => s.kvPre o

/-- One accepted order is validated and, when it is due, applied (R108, R319). -/
def State.applyOrder (s : State) (j op : Nat) : State :=
  match s.core.order j with
  | none => s
  | some o =>
    if o.opcode ≠ op then s else
    let s1 := s.checkOrder o
    match s1.ready j op with
    | some o1 => s1.effect o1
    | none => s1

/-- The Exral is at W − 3.0 µs of a window (Table 2-3). -/
def State.atConfig (s : State) : Bool := s.operational && s.pick.phase = .sealed

/-- The key-value orders of a context that this beat tries: validated and without a result. -/
def Core.kvDue (c : Core) (x : Nat) : List OrderSt :=
  c.orders.filter fun o => 0x31 ≤ o.opcode && o.opcode ≤ 0x36 && o.checked && o.status.isNone && c.ctxOf o.ctx = some x

/-- One key-value order validated and tried by itself. -/
def State.applyKv (s : State) (j op : Nat) : State :=
  let s1 := s.applyOrder j op
  match s1.core.order j with
  | none => s1
  | some o =>
    match s1.core.ctxOf o.ctx with
    | some x => if o.opcode = op && o.checked && o.status.isNone then s1.kvBeat x [o] else s1
    | none => s1

/-- A record's 32 bytes (Table 4-5, R112). -/
def recordBytes (r : OwedRec) (beat j n2 : Nat) : Bytes :=
  leBytes 8 r.seq ++ leBytes 4 r.result ++ leBytes 2 r.status ++ leBytes 1 r.typ ++ leBytes 1 r.flags ++ leBytes 8 beat
    ++ leBytes 4 r.index ++ leBytes 2 r.ctx ++ leBytes 2 ((j / n2) % 65535 + 1)

/-- Slots of a ring's record ring (R102). -/
def State.recSlots (s : State) (ring : Nat) : Nat := 2 * 2 ^ (s.ord.regs.getD ring {}).sizeLog2

/-- A record is the one that stands written at an index, whose `BEAT` is then that of the beat which wrote it first (R66). -/
def State.sameRecord (s : State) (r : OwedRec) (w : Nat × Nat × Bytes) : Bool :=
  recordBytes r (fieldAt w.2.2 0x10 8) w.2.1 (s.recSlots w.1) = w.2.2

/-- One record is written at the ring's next record index, as two partial host writes (R435); one that an abandoned beat wrote there is repeated
byte for byte (R66). -/
def State.writeRecord (s : State) (ring : Nat) (r : OwedRec) : State :=
  let n2 := s.recSlots ring
  let j := (s.core.rings.getD ring {}).recNext
  let old := s.ord.written.find? fun w => w.1 = ring && w.2.1 = j && s.sameRecord r w
  let b := old.elim (recordBytes r s.pick.counter j n2) (·.2.2)
  let a := (s.ord.regs.getD ring {}).records + 32 * (j % n2)
  let s1 := s.emits [.hostWrite .wrCur a (b.take 30), .hostWrite .wrCur (a + 30) (b.drop 30)]
  { s1 with
    core := { s1.core with rings := modifyAt s1.core.rings ring fun x => { x with recNext := j + 1 } }
    ord := { s1.ord with written :=
      if old.isSome then s1.ord.written else (ring, j, b) :: s1.ord.written.filter fun w => !(w.1 = ring && w.2.1 = j) }
    pick := { s1.pick with wrote := true } }

/-- Orders of a ring in flight (R103): accepted, and no completion published. -/
def Core.ringOpen (c : Core) (ring : Nat) : List OrderSt := c.orders.filter fun o => o.ring = ring && o.published.isNone

/-- Records a ring still owes (R103). -/
def Core.owedCount (c : Core) (ring : Nat) : Nat :=
  (c.rings.getD ring {}).owed.length + (c.ringOpen ring).length + 2 * (c.held.filter (·.ring = ring)).length

/-- Orders in flight (ORD_INFLIGHT). -/
def Core.inflight (c : Core) : Nat := (c.orders.filter (·.published.isNone)).length

/-- The classification of Table 4-6: kind, rejection status and duplicate information, against the ring's journal and
the entries taken and not yet sealed. Where no order has been accepted from the ring there is no H, for which R117 gives no value: any
SEQ is then above it, 0 included (log entry 143). -/
def classify (j : RingJnl) (held : List JEntry) (crcOk : Bool) (seq : Nat) : Nat × Nat × Option (Nat × Nat) :=
  let mine := (held.filter (·.kind = 1)).reverse.map fun e => (e.seq, 0, (none : Option (Nat × Nat)))
  let window := (mine ++ j.window).take 65536
  let h := (window.head?.map Prod.fst).or j.h
  if !crcOk then (2, 0x0103, none)
  else if h.elim true (· < seq) then (1, 0, none)
  else match window.find? (·.1 = seq) with
    | some (_, _, done) => (3, 0, done)
    | none => if seq < window.foldl (fun m e => min m e.1) (2 ^ 64) then (2, 0x0107, none) else (2, 0x0106, none)

/-- The context here of a handle of the absorbed module. -/
def State.absorbedCtx (s : State) (handle : Nat) : Option Nat :=
  if (s.twin.mirror.ctxs.getD (handle % 64) {}).handle (handle % 64) ≠ handle then none
  else (s.twin.ctxMap.getD (handle % 64) none).map (· % 64)

/-- A handle of the absorbed module as it is here; 0, which names no context, where it names none there (R399, R402). -/
def State.mapHandle (s : State) (handle : Nat) : Nat :=
  match s.absorbedCtx handle with
  | some x => s.core.handle x
  | none => 0

/-- One order entry becomes a journal entry (R117, Table 4-4). On a ring that continues one of an absorbed module, CONTEXT is a handle of
that module (R402); on the module that the address has passed back to, it is a handle as it stands (R403). -/
def State.entryOf (s : State) (ring idx : Nat) (b : Bytes) : JEntry :=
  let crcOk := crc32c (b.take 0x7C) = fieldAt b 0x7C 4
  let k := classify (s.ord.jnl.getD ring {}) (s.core.held.filter (·.ring = ring)) crcOk (fieldAt b 8 8)
  let field := fieldAt b 4 2
  let adopted := s.twin.holds && (s.twin.adopt.getD ring none).isSome && field ≠ 0
  { seq := fieldAt b 8 8, ringIndex := idx, ring := ring, client := byteAt b 2, opcode := byteAt b 0, kind := k.1
    ctx := field, handle := if adopted then s.mapHandle field else field
    status := k.2.1, crc := fieldAt b 0x7C 4, bytes := b, dup := k.2.2 }

/-- A ring is disabled or in error: it stops, and drains (R535). -/
def Core.stopRing (c : Core) (ring : Nat) : Core :=
  { c with rings := modifyAt c.rings ring fun r => { r with running := false, draining := r.draining || r.running } }

/-- A drained ring's H and window are cleared (R535, R118). -/
def State.drainRing (s : State) (ring : Nat) : State :=
  let r := s.core.rings.getD ring {}
  if r.draining && s.core.owedCount ring = 0 then
    { s with
      core := { s.core with rings := modifyAt s.core.rings ring fun r => { r with draining := false } }
      ord := { s.ord with jnl := modifyAt s.ord.jnl ring fun j => { j with h := none, window := [] } } }
  else s

/-- A ring stops; where it owes no record it has drained at once (R535). -/
def State.haltRing (s : State) (ring : Nat) : State := (s.withCore fun c => c.stopRing ring).drainRing ring

/-- A ring that a write of 0 to ENABLE stops since the last beat stops, be ENABLE 1 again by now (R535). -/
def State.ringStop (s : State) (ring : Nat) : State :=
  let reg := s.ord.regs.getD ring {}
  let r := s.core.rings.getD ring {}
  if r.running && (!reg.enable || r.stops ≠ reg.stops) then
    (s.haltRing ring).withCore fun c => { c with rings := modifyAt c.rings ring fun r => { r with stops := reg.stops } }
  else s

/-- The orders of the twin's ring that an adopting ring continues are its own (R402). -/
def State.adoptOrders (s : State) (ring : Nat) : State :=
  let old := (s.twin.adopt.getD ring none).elim 128 (64 + ·)
  s.withCore fun c => { c with orders := c.orders.map fun (o : OrderSt) => if o.ring = old then { o with ring := ring } else o }

/-- A ring whose start an abandoned beat took is as that beat started it, its indices at 0, with what it owes for the entries sealed then; it goes
on from its journal (R41, R106). -/
def State.resumeRing (s : State) (ring : Nat) : State :=
  let r := s.core.rings.getD ring {}
  let j := s.ord.jnl.getD ring {}
  if j.starts ≠ r.starts + 1 then s
  else (s.adoptOrders ring).withCore fun c =>
    { c with rings := setAt c.rings ring { running := true, starts := j.starts, stops := j.stops, owed := r.owed } }

/-- Sampling of an enabled ring begins (ORD_RING_CTRL.ENABLE): its indices start at 0; an adopting ring takes the twin
ring's client, H and window, and owes the records of its orders (R402). -/
def State.startRing (s : State) (ring : Nat) : State :=
  let reg := s.ord.regs.getD ring {}
  let r := s.core.rings.getD ring {}
  if !reg.enable || r.running || r.draining || r.error ≠ 0 || reg.sizeLog2 < 6 || 16 < reg.sizeLog2 then s
  else
    let from_ := (s.twin.adopt.getD ring none).bind fun i => s.twin.mirror.jnl[i]?
    let mine := fun (e : Nat × Nat × Option (Nat × Nat)) => (e.1, e.2.1 + 2 ^ 64, e.2.2)
    let j : RingJnl := match from_ with
      | some x => { x with taken := 0, window := x.window.map mine, starts := r.starts + 1, stops := reg.stops }
      | none => { starts := r.starts + 1, stops := reg.stops }
    let client := (s.twin.adopt.getD ring none).elim reg.client fun i => (s.twin.mirror.rings.getD i {}).client
    let s1 := s.adoptOrders ring
    { s1 with
      core := { s1.core with rings := setAt s1.core.rings ring { running := true, starts := r.starts + 1, stops := reg.stops } }
      ord := { s1.ord with
        jnl := setAt s1.ord.jnl ring j
        regs := modifyAt s1.ord.regs ring fun k => { k with client := client } } }

/-- One past the last record written to a ring, in an abandoned beat too (R66, R105). -/
def State.recEnd (s : State) (ring : Nat) : Nat :=
  ((s.ord.written.filter fun w => w.1 = ring).map fun w => w.2.1 + 1).foldl max (s.core.rings.getD ring {}).recNext

/-- What the control block of a sampled ring shows: its TAIL, or none where nothing is taken from it in this beat (R105,
R436). -/
def State.readControl (s : State) (host : HostView) (ring : Nat) : State × Option Nat :=
  let reg := s.ord.regs.getD ring {}
  let r := s.core.rings.getD ring {}
  if !r.running && !r.draining then (s, none) else
  match hostRead host reg.base 64 with
  | none => ((s.hostFetch reg.base 64).glbEvent 6, none)
  | some b =>
    let tail := fieldAt b 0 8
    let done := fieldAt b 8 8
    let n := 2 ^ reg.sizeLog2
    let taken := (s.ord.jnl.getD ring {}).taken
    let lag := (tail + 2 ^ 64 - taken % 2 ^ 64) % 2 ^ 64
    let okDone := done ≤ s.recEnd ring
    let s0 := s.hostFetch reg.base 64
    let s1 := if okDone then
        s0.withCore fun c => { c with rings := modifyAt c.rings ring fun r => { r with recDone := done } }
      else s0
    if !r.running && okDone then (s1, none)
    else if (r.running && n < lag) || !okDone then
      ((s1.haltRing ring).withCore fun c => { c with rings := modifyAt c.rings ring fun r => { r with error := 0x0108 } }, none)
    else (s1, some tail)

/-- The limits of R103 leave room for one more order of a ring, `got` having been taken in this beat. -/
def State.roomFor (s : State) (ring got : Nat) : Bool :=
  let reg := s.ord.regs.getD ring {}
  let r := s.core.rings.getD ring {}
  got < 512 && s.core.inflight + s.core.held.length < 65536
    && (r.recNext - r.recDone) + s.core.owedCount ring + 2 ≤ 2 * 2 ^ reg.sizeLog2

/-- One order is taken from a ring, if it has one and the limits allow (R103, R104). The state carried is the machine's,
the count taken, and the rings from which nothing (more) is taken. -/
def takeOne (host : HostView) (tails : List (Option Nat)) (p : State × Nat × List Nat) (ring : Nat) : State × Nat × List Nat :=
  let (s, got, off) := p
  match tails.getD ring none with
  | none => p
  | some tail =>
    let reg := s.ord.regs.getD ring {}
    let taken := (s.ord.jnl.getD ring {}).taken
    let mine := s.core.held.filter (·.ring = ring)
    let idx := taken + mine.length
    if off.contains ring || (tail + 2 ^ 64 - taken % 2 ^ 64) % 2 ^ 64 ≤ mine.length || !s.roomFor ring got then p else
    let a := reg.base + 4096 + 128 * (idx % 2 ^ reg.sizeLog2)
    match hostRead host a 128 with
    | none => ((s.hostFetch a 128).glbEvent 6, got, ring :: off)
    | some b => ((s.hostFetch a 128).withCore fun c => { c with held := c.held ++ [s.entryOf ring idx b] }, got + 1, off)

/-- The rings in the order of beat n's first pass (R104). -/
def ringOrder (n : Nat) : List Nat := (List.range 64).map fun i => (n + i) % 64

/-- Passes over the rings until one takes nothing (R104). -/
def takePasses (host : HostView) (tails : List (Option Nat)) (order : List Nat) : Nat → State × Nat × List Nat → State × Nat × List Nat
  | 0, p => p
  | fuel + 1, p =>
    let q := order.foldl (takeOne host tails) p
    if q.2.1 = p.2.1 then q else takePasses host tails order fuel q

/-- The rings that nothing is taken from in a beat because an entry's read failed lose what this beat took (R436). -/
def State.dropTaken (s : State) (before : List JEntry) (off : List Nat) : State :=
  s.withCore fun c => { c with held := c.held.filter fun e => !off.contains e.ring || before.contains e }

/-- RING_SAMPLE (R103 to R106, R434, R436), at 0.5 µs of the window. Ring sampling begins at the beat after the join beat
(R481), not without a draft (R97), not in DETACHED (R110), and its reads fail while the link is down (R428); a disabled ring stops all the same (R535). -/
def execRingSample (host : HostView) (s : State) : Res :=
  if !s.beating || s.pick.phase ≠ .opened then .next s else
  let s00 := { s with pick := { s.pick with phase := .sampled } }
  let s0 := if s.operational then (List.range 64).foldl State.ringStop ((List.range 64).foldl State.resumeRing s00) else s00
  if !s.operational || s.core.draft.isNone || s.twin.state = .detached || !s.pick.sampling || !s.linkUp then .next s0 else
  let s1 := (List.range 64).foldl State.startRing s0
  let st := (List.range 64).foldl (fun (p : State × List (Option Nat)) ring =>
    let r := p.1.readControl host ring
    (r.1, p.2 ++ [r.2])) (s1, [])
  let before := st.1.core.held
  let q := takePasses host st.2 (ringOrder s.pick.counter) 512 (st.1, 0, [])
  .next (q.1.dropTaken before q.2.2)

/-- The 64 bytes of a journal entry (Table 4-4). -/
def JEntry.encode (e : JEntry) : Bytes :=
  let b := leBytes 8 e.seq ++ leBytes 8 e.ringIndex ++ leBytes 8 e.sealBeat ++ leBytes 8 e.jno ++ leBytes 1 e.ring
    ++ leBytes 1 e.client ++ leBytes 1 e.opcode ++ leBytes 1 e.kind ++ leBytes 2 e.ctx ++ leBytes 2 e.status
    ++ leBytes 4 e.crc ++ leBytes 16 0
  b ++ leBytes 4 (crc32c b)

/-- One entry is sealed (R110): it takes its journal number, moves TAKEN, and enters the window when it is an acceptance
(Table 4-6). -/
def State.sealOne (s : State) (e0 : JEntry) : State :=
  let e := { e0 with jno := s.ord.sealed, sealBeat := s.pick.counter }
  let upd := fun (j : RingJnl) =>
    let j1 := { j with taken := e.ringIndex + 1 }
    if e.kind = 1 then { j1 with h := some e.seq, window := ((e.seq, e.jno, none) :: j1.window).take 65536 } else j1
  { s with
    core := { (s.core.takeEntry e) with held := s.core.held.filter (· ≠ e0) }
    ord := { s.ord with entries := s.ord.entries ++ [e], sealed := s.ord.sealed + 1,
                        lastSeal := s.pick.counter, jnl := modifyAt s.ord.jnl e.ring upd } }

/-- Entries are sealed ring by ring in order, as the pair state allows (R65, R110): on both twins only those confirmed,
and none after an unconfirmed one of its ring; alone still at the SYNC entry beat (R383). JNL_STATUS.SOLO follows the pair state at each seal deadline. -/
def State.sealAll (s : State) (confirmed : List (Nat × Nat)) : State :=
  let entry := s.twin.state = .sync && s.pick.counter < s.twin.syncFrom
  let both := (s.twin.state = .sync && !entry) || s.twin.state = .recopy
  let solo := entry || s.twin.state = .unpaired || s.twin.state = .handshake || s.twin.state = .copying || s.twin.state = .absorbed
  let s1 := if solo || both then { s with ord := { s.ord with solo := solo } } else s
  (s.core.held.foldl (fun (p : State × List Nat) e =>
    if p.2.contains e.ring then p
    else if solo || (both && confirmed.contains (e.ring, e.ringIndex)) then (p.1.sealOne e, p.2)
    else (p.1, e.ring :: p.2)) (s1, [])).1

/-- The owed acceptance and rejection records of a ring are written, then TAKEN where the control block does not show it: 0 once the
ring is started (R101, R113, R428, R435). -/
def State.writeOwed (s : State) (ring : Nat) : State :=
  let r := s.core.rings.getD ring {}
  let taken := (s.ord.jnl.getD ring {}).taken
  let s1 := r.owed.foldl (fun s r => s.writeRecord ring r) s
  let on := r.running || r.draining
  let s2 := s1.withCore fun c => { c with rings := modifyAt c.rings ring fun r =>
    { r with owed := [], takenOut := if on then some taken else r.takenOut } }
  if r.takenOut = some taken || !on then s2
  else s2.hostPut ((s.ord.regs.getD ring {}).base + 0x10) (leBytes 8 taken)

/-- A completion is held (R113): its notice or one of its held items is not stored by the twin (R389), its result range is not flushed (R441), or it
is of an absorbed ring that no ring continues yet (R402). -/
def State.completionHeld (s : State) (o : OrderSt) : Bool :=
  let paired := s.twin.state = .sync || s.twin.state = .recopy || s.twin.state = .hold
  let items := (s.twin.own.items.filter fun i => itemJno i.1 = o.jno).length
  (paired && !(o.stored && items ≤ o.itemsIn)) || 64 ≤ o.ring || (o.opcode = 0x10 && o.arg 0x28 8 ≠ 0 && !o.tasks.isEmpty && !o.flushed)

/-- An order's completion record. -/
def OrderSt.completion (o : OrderSt) : OwedRec :=
  { typ := 2, seq := o.seq, status := (o.status.getD (0, 0)).1, result := (o.status.getD (0, 0)).2
    flags := if o.reissued then 2 else 0, index := o.ringIndex, ctx := o.ctxField, jno := o.jno }

/-- A completion is published (R113): its record written, its result kept in the window for duplicates. -/
def State.publish (s : State) (o : OrderSt) : State :=
  let s1 := s.writeRecord o.ring o.completion
  let mend := fun (e : Nat × Nat × Option (Nat × Nat)) => if e.2.1 = o.jno then (e.1, e.2.1, some (o.status.getD (0, 0))) else e
  { s1 with
    core := s1.core.setOrder o.jno fun o => { o with published := some s.pick.counter }
    ord := { s1.ord with jnl := modifyAt s1.ord.jnl o.ring fun j => { j with window := j.window.map mend } } }

/-- Completions in the order of the beats that publish them, then of acceptance (R113). -/
def insertByDone (o : OrderSt) : List OrderSt → List OrderSt
  | [] => [o]
  | p :: l => if o.doneAt < p.doneAt ∨ (o.doneAt = p.doneAt ∧ o.acc < p.acc) then o :: p :: l else p :: insertByDone o l

/-- The completions due at this beat: determined in an earlier one (R66), each ring's in order, none past a held one. -/
def State.publishDue (s : State) : State :=
  let due := (s.core.orders.filter fun o =>
    o.published.isNone && o.status.isSome && o.doneAt < s.pick.counter).foldl (fun l o => insertByDone o l) []
  (due.foldl (fun (p : State × List Nat) o =>
    if p.2.contains o.ring then p
    else if p.1.completionHeld o then (p.1, o.ring :: p.2)
    else (p.1.publish o, p.2)) (s, [])).1

/-- A record that an abandoned beat wrote is repeated at its index (R66), whatever else the beat writes: it is one that the ring still owes, or a
completion. -/
def State.repeatOne (s : State) (w : Nat × Nat × Bytes) : State :=
  let r := s.core.rings.getD w.1 {}
  let done := fun (o : OrderSt) => o.ring = w.1 && o.published.isNone && o.status.isSome && s.sameRecord o.completion w
  if r.recNext ≠ w.2.1 then s else
  match r.owed.find? (s.sameRecord · w), s.core.orders.find? done with
  | some e, _ =>
    (s.writeRecord w.1 e).withCore fun c => { c with rings := modifyAt c.rings w.1 fun x => { x with owed := x.owed.erase e } }
  | none, some o => s.publish o
  | none, none => s

/-- The records that an abandoned beat wrote, repeated in the order of their indices (R66). -/
def State.repeatRecords (s : State) : State := (sortKey (fun w : Nat × Nat × Bytes => w.2.1) s.ord.written).foldl State.repeatOne s

/-- The records of the seal deadline (R111 to R113, R435), held while the link is down (R428). -/
def State.writeRecords (s : State) : State :=
  let s1 := if s.linkUp then ((List.range 64).foldl State.writeOwed s.repeatRecords).publishDue else s
  (List.range 64).foldl State.drainRing s1

end Sys2Proof.Machine
end

