-- ==== Sys2Proof/Machine/Operands.lean ====
section
/-! DEFINITION. Sys2Proof/Machine/Operands.lean: operand forms of the CU's units: local SRAM and accumulators by CU, FP32
rows, tile-block layout (R138, R139, R146), and matrix elements of every format (R145). -/

namespace Sys2Proof.Machine

/-- Bytes of a CU's local SRAM. -/
def sramBytes : Nat := 1572864

/-- The place of a local-SRAM byte. -/
def sramKey (cu off : Nat) : Nat := cu * 2 ^ 24 + off

/-- The place of an accumulator byte: four banks of 64 KiB (A0, A1, B0, B1). -/
def accKey (cu bank off : Nat) : Nat := cu * 2 ^ 18 + bank * 65536 + off

/-- A byte of local SRAM: as written, or what a place holds that no task wrote since the last beat (R17). -/
def Core.sramByte (c : Core) (n cu off : Nat) : Byte :=
  (getKey c.onchip.sram (sramKey cu off)).getD (if c.onchip.zero.contains cu then 0 else Config.staleSram (sramKey cu off) n)

/-- Bytes of local SRAM. -/
def Core.sramRead (c : Core) (n cu off len : Nat) : Bytes := (List.range len).map fun i => c.sramByte n cu (off + i)

/-- Bytes put into local SRAM. -/
def Core.sramWrite (c : Core) (cu off : Nat) (bs : Bytes) : Core :=
  { c with onchip := { c.onchip with sram := putBytes c.onchip.sram (sramKey cu off) bs } }

/-- The FP32 words of a row in local SRAM. -/
def Core.sramRow (c : Core) (n cu off len : Nat) : List Nat :=
  let bs := c.sramRead n cu off (4 * len)
  (List.range len).map fun i => fieldAt bs (4 * i) 4

/-- An FP32 word of an accumulator bank. -/
def Core.accWord (c : Core) (n cu bank i : Nat) : Nat :=
  leNat ((List.range 4).map fun k =>
    (getKey c.onchip.acc (accKey cu bank (4 * i + k))).getD
      (if c.onchip.zero.contains cu then 0 else Config.staleAcc (accKey cu bank (4 * i + k)) n))

/-- The contexts that hold a slot, with the slot's entry: what a preempted context's live entries name lies in its save area (R128). -/
def Core.slotHolders (c : Core) : List (Ctx × SlotDef) :=
  (c.draft.elim [] Draft.slots).filterMap fun sl => ((c.slots.getD sl.id {}).holder).map fun x => (c.ctxs.getD x {}, sl)

/-- Bytes that live-range tables keep on a CU, in local SRAM or in the accumulators (R16, R125). -/
def Core.keptOn (c : Core) (cu : Nat) (acc : Bool) : Nat :=
  (c.slotHolders.map fun p =>
    ((p.1.live.filter fun e => e.acc = acc && p.2.firstCu + e.cu = cu).map fun e => 64 * e.len).sum).sum

/-- The accumulator banks of a CU that live-range tables keep (R157). -/
def Core.keptBanks (c : Core) (cu : Nat) : List Nat :=
  (List.range 4).filter fun b => c.slotHolders.any fun p => p.1.live.any fun e =>
    e.acc && p.2.firstCu + e.cu = cu && 64 * e.start < 65536 * (b + 1) && 65536 * b < 64 * (e.start + e.len)

/-- Local SRAM free to one more allocation on a CU (R157). -/
def Core.sramFree (c : Core) (cu : Nat) : Nat :=
  sramBytes - c.keptOn cu false - ((c.running.filter fun p => p.2.cu = cu).map fun p => p.2.sram).sum

/-- TILE.OVERFLOW against a task (R16, Table 5-5): kind, bytes requested and bytes free. -/
def Core.overflow (c : Core) (t : TaskRef) (kind req free : Nat) : Core :=
  c.raiseTask t 0x0601 (kind * 2 ^ 60 + req % 2 ^ 24 * 2 ^ 24 + free % 2 ^ 24)

/-- An allocation of local SRAM by a task (R16, R157). -/
def Core.allocate (c : Core) (t : TaskRef) (cu bytes : Nat) : Core × Bool :=
  let free := c.sramFree cu
  if free < bytes then (c.overflow t 0 bytes free, false)
  else (c.setTask t fun x => { x with sram := x.sram + bytes }, true)

/-- Storage codes of matrix element formats: 0 BF16, 1 FP16, 2 E4M3, 3 E5M2, 4 FP32 (Table 5-2). -/
def fmtOf (k : Nat) : Fmt :=
  match k with
  | 0 => bf16 | 1 => fp16 | 2 => e4m3 | 3 => e5m2 | _ => fp32

/-- Bytes of an element. -/
def elemBytes (k : Nat) : Nat :=
  match k with
  | 0 => 2 | 1 => 2 | 2 => 1 | 3 => 1 | _ => 4

/-- Elements of a tile-block row (Table 5-1). -/
def rowElems (k : Nat) : Nat := 128 / elemBytes k

/-- The address of element (r, col) of a matrix of a format (R138, R139). -/
def matAddr (k addr stride r col : Nat) : Nat :=
  let e := rowElems k
  addr + 16384 * (r / 128 * stride + col / e) + rotByte (r % 128) (col % e * elemBytes k)

/-- A 64-byte line of a tile-block row laid out from its logical bytes (R139). -/
def rotLine (r : Nat) (b : Bytes) : Bytes :=
  let n := 4 * (r % 16)
  b.drop (64 - n) ++ b.take (64 - n)

/-- The writes of consecutive elements of row r from column c, each as its bytes: a whole line at once, the elements of a
part of one by themselves (R139). -/
def rowWrites (k addr stride r : Nat) : Nat → Nat → List Bytes → List (Nat × Bytes)
  | 0, _, _ => []
  | fuel + 1, c, vs =>
    if vs.isEmpty then [] else
    let e := 64 / elemBytes k
    let n := e - c % e
    let here := vs.take n
    let line := if here.length = e then [(matAddr k addr stride 0 c + 128 * (r % 128) + 16384 * (r / 128 * stride), rotLine r here.flatten)]
      else here.zipIdx.map fun p => (matAddr k addr stride r (c + p.2), p.1)
    line ++ rowWrites k addr stride r fuel (c + n) (vs.drop n)

/-- The address of the scale of element (r, col) of an FP8 matrix of `rows` rows (R146). -/
def scaleAddr (addr stride rows r col : Nat) : Nat :=
  let t := r / 128 * stride + col / 128
  addr + 16384 * (stride * ceilDiv rows 128) + 16384 * (t / 32) + 512 * (t % 32) + 4 * (r % 128) + col % 128 / 32

/-- Bytes a stored matrix of `rows` rows occupies: its block-rows of `stride` tile blocks each, and its scale plane (R138, R146). -/
def matSpan (k stride rows : Nat) : Nat :=
  let b := stride * ceilDiv rows 128
  16384 * (b + if k = 2 ∨ k = 3 then ceilDiv b 32 else 0)

/-- The tile blocks that rows [r0, r1) and columns [c0, c1) of a stored matrix lie in, the scale blocks of an FP8 one included, each read
whole (R146; log entry 195). -/
def matBlocks (k addr stride rows r0 r1 c0 c1 : Nat) : List Nat :=
  let e := rowElems k
  let brs := (List.range (ceilDiv r1 128 - r0 / 128)).map (r0 / 128 + ·)
  let bcs := (List.range (ceilDiv c1 e - c0 / e)).map (c0 / e + ·)
  let ts := brs.flatMap fun br => bcs.map fun bc => br * stride + bc
  let scales := if k = 2 ∨ k = 3 then
      (ts.map fun t => addr + 16384 * (stride * ceilDiv rows 128) + 16384 * (t / 32)).eraseDups else []
  ts.map (fun t => addr + 16384 * t) ++ scales

/-- A little-endian number in a memory. -/
def Core.numIn (c : Core) (m : Memory) (a n : Nat) : Nat := leNat (c.memBytes m a n)

/-- The value of element (r, col) of a stored operand as the arrays read it (R143, R145). -/
def Core.matElem (c : Core) (m : Memory) (k addr stride rows r col : Nat) : FV :=
  let v := c.numIn m (matAddr k addr stride r col) (elemBytes k)
  if k = 2 ∨ k = 3 then scaled (fmtOf k) true (c.numIn m (scaleAddr addr stride rows r col) 1) v
  else (fmtOf k).decode true v

end Sys2Proof.Machine
end

