-- ==== Sys2Proof/Machine/Sfu.lean ====
section
/-! DEFINITION. Sys2Proof/Machine/Sfu.lean: the special functions (R176 to R181). Where Tables 6-3 and 6-5 fix a result it is
that. Elsewhere the exact result is enclosed in fixed point, and the SFU's own is a free value within the bound of Table 6-3 around
it, monotone as R179 and R180 ask, and for exp, exp2, the logarithms, reciprocal and rsqrt a choice of the reduced argument (R176; log entry
50). -/

namespace Sys2Proof.Machine

/-- The result mode: FP32, or BF16 with the range rule of R154 (R177). -/
def sfuRound (bf : Bool) (v : FV) : Nat := if bf then bf16.narrow v else toF32 v

/-- The format of a result mode. -/
def sfuFmt (bf : Bool) : Fmt := if bf then bf16 else fp32

/-- The exponent of a value that is a power of two, if it is one. -/
def powerOfTwo : FV → Option Int
  | .fin _ m e => if m ≠ 0 ∧ 2 ^ Nat.log2 m = m then some (Nat.log2 m + e) else none
  | _ => none

/-- The integer a value is, if it is one. -/
def asInt : FV → Option Int
  | .fin n m e => if 0 ≤ e then some (signed n (m * 2 ^ e.toNat))
      else if m % 2 ^ (-e).toNat = 0 then some (signed n (m / 2 ^ (-e).toNat)) else none
  | _ => none

/-- a ≤ b for values that are not NaN. -/
def FV.le (a b : FV) : Bool := !b.lt a

/-- 1, in a result mode. -/
def sfuOne (bf : Bool) : Nat := sfuRound bf (.fin false 1 0)

/-- Results at infinities, zeros and outside the domain (Table 6-5), and the exact results of Table 6-3. -/
def sfuFixed (fn : Nat) (bf : Bool) (v : FV) : Option Nat :=
  let f := sfuFmt bf
  let one := sfuOne bf
  match fn, v with
  | _, .nan => some f.qnan
  | 0, .inf n => some (if n then 0 else f.infBits false)
  | 1, .inf n => some (if n then 0 else f.infBits false)
  | 2, .inf n => some (if n then f.qnan else f.infBits false)
  | 3, .inf n => some (if n then f.qnan else f.infBits false)
  | 4, .inf n => some (f.zeroBits n)
  | 5, .inf n => some (if n then f.qnan else 0)
  | 6, .inf n => some (if n then f.qnan else f.infBits false)
  | 7, .inf n => some (if n then 0 else one)
  | 8, .inf n => some (if n then f.zeroBits true else f.infBits false)
  | 9, .inf n => some (if n then f.zeroBits true else f.infBits false)
  | fn, .fin n m e =>
    if m = 0 then match fn with
      | 0 => some one
      | 1 => some one
      | 2 => some (f.infBits true)
      | 3 => some (f.infBits true)
      | 4 => some (f.infBits n)
      | 5 => some (f.infBits n)
      | 6 => some (f.zeroBits n)
      | 7 => some (sfuRound bf (.fin false 1 (-1)))
      | _ => some (f.zeroBits n)
    else match fn with
      | 1 => match asInt v with
        | some k => if -149 ≤ k then some (sfuRound bf (.fin false 1 k)) else none
        | none => none
      | 2 => if n then some f.qnan else if powerOfTwo v = some 0 then some 0 else none
      | 3 => if n then some f.qnan else (powerOfTwo v).map fun k => sfuRound bf (.ofInt k 0 false)
      | 4 => (powerOfTwo v).map fun k => sfuRound bf (.fin n 1 (-k))
      | 5 => if n then some f.qnan else match powerOfTwo v with
        | some k => if k % 2 = 0 then some (sfuRound bf (.fin false 1 (-(k / 2)))) else none
        | none => none
      | 6 => some (sfuRound bf (.sqrt v))
      | 9 => if n then (if FV.le (.fin false 10 0) (.fin false m e) then some (f.zeroBits true) else none)
        else if FV.le (.fin false 8 0) v then some (sfuRound bf v) else none
      | _ => none
  | _, _ => some f.qnan

/-- Fraction bits of the fixed-point numbers below: every binary32 value, and the square of one, is exact in them. -/
def fixBits : Nat := 320

/-- 1 in fixed point. -/
def fixOne : Nat := 2 ^ fixBits

/-- Terms z^(2i+1) ÷ (2i+1) of the inverse hyperbolic tangent, from the power p up. -/
def atanhGo : Nat → Nat → Nat → Nat → Nat
  | 0, _, _, _ => 0
  | n + 1, p, zz, i => if p = 0 then 0 else p / (2 * i + 1) + atanhGo n (p * zz / fixOne) zz (i + 1)

/-- The inverse hyperbolic tangent of z, at most 1/3. -/
def atanhFix (z : Nat) : Nat := atanhGo 220 z (z * z / fixOne) 0

/-- ln 2. -/
def fixLn2 : Nat := 2 * atanhFix (fixOne / 3)

/-- Terms of the arctangent of 1/q, signs alternating. -/
def atanGo (q : Int) : Nat → Int → Int → Int
  | 0, _, _ => 0
  | n + 1, p, i => p / (2 * i + 1) - atanGo q n (p / (q * q)) (i + 1)

/-- π, by Machin's formula. -/
def fixPi : Nat := (16 * atanGo 5 150 (fixOne / 5) 0 - 4 * atanGo 239 60 (fixOne / 239) 0).toNat

/-- Terms of the exponential of r, below 1, from term t up. -/
def expGo (r : Nat) : Nat → Nat → Nat → Nat
  | 0, _, _ => 0
  | n + 1, t, i => if t = 0 then 0 else t + expGo r n (t * r / fixOne / (i + 1)) (i + 1)

/-- The exponential of r, below 1. -/
def expFix (r : Nat) : Nat := expGo r 200 fixOne 0

/-- A positive number that lies in [lo × 2^e, hi × 2^e]. -/
structure Encl where
  lo : Nat
  hi : Nat
  e  : Int
  deriving DecidableEq, Repr

/-- A fixed-point result with the error of its truncations, in units of 2^-fixBits at the result's own exponent. -/
def Encl.near (v : Nat) (slack : Nat) (e : Int) : Encl := ⟨v - 2 ^ slack, v + 2 ^ slack, e - fixBits⟩

/-- A positive number so small, or a 1 minus one, that only its side of a limit is told. -/
def Encl.tiny : Encl := ⟨1, 1, -400⟩

/-- |x| in fixed point, for |x| below 2^9. -/
def fixAbs : FV → Nat
  | .fin _ m e => if 0 ≤ e then m * 2 ^ e.toNat * fixOne else m * fixOne / 2 ^ (-e).toNat
  | _ => 0

/-- x in fixed point. -/
def fixOf (v : FV) : Int := signed v.sign (fixAbs v)

/-- The exponential of a fixed-point number (Table 6-2). -/
def exactExp (x : Int) : Encl :=
  let n := x / fixLn2
  .near (expFix (x - n * fixLn2).toNat) 30 n

/-- 2 to a fraction t in [0, 1). -/
def exactExp2 (t : Nat) : Encl := .near (expFix (t * fixLn2 / fixOne)) 30 0

/-- An enclosure as a fixed-point number, where it is at most 1. -/
def Encl.fix (y : Encl) : Nat := if 0 ≤ y.e then y.lo * 2 ^ (y.e + fixBits).toNat else y.lo * fixOne / 2 ^ (-y.e).toNat

/-- |ln x|, for positive m × 2^e. -/
def fixLn (m : Nat) (e : Int) : Nat :=
  let k := Nat.log2 m
  ((e + k) * fixLn2 + 2 * atanhFix ((m - 2 ^ k) * fixOne / (m + 2 ^ k))).natAbs

/-- The logistic function of a number of magnitude `ax` (Table 6-2). -/
def exactSigmoid (neg : Bool) (ax : FV) : Encl :=
  if FV.le (.fin false 256 0) ax then (if neg then .tiny else ⟨2 ^ 400 - 1, 2 ^ 400, -400⟩)
  else
    let y := exactExp (-(fixAbs ax : Int))
    let d := fixOne + y.fix
    if neg then .near (y.lo * fixOne / d) 40 (y.e + fixBits) else .near (fixOne * fixOne / d) 40 0

/-- Terms of the normal integral: a × a²^n ÷ (1 · 3 · … · (2n + 1)). -/
def normGo (aa : Nat) : Nat → Nat → Nat → Nat
  | 0, _, _ => 0
  | n + 1, t, i => if t = 0 then 0 else t + normGo aa n (t * aa / fixOne / (2 * i + 3)) (i + 1)

/-- Φ of a number of magnitude a, at most 10 (Table 6-2, code 9). -/
def exactPhi (neg : Bool) (a : Nat) : Encl :=
  let aa := a * a / fixOne
  let c := isqrt (fixOne * fixOne * fixOne / (2 * fixPi))
  let p := (exactExp (-(aa / 2 : Nat))).fix * normGo aa 600 a 0 / fixOne * c / fixOne
  .near (if neg then fixOne / 2 - p else fixOne / 2 + p) 120 0

/-- An enclosure times m × 2^e. -/
def Encl.times (y : Encl) (m : Nat) (e : Int) : Encl := ⟨y.lo * m, y.hi * m, y.e + e⟩

/-- A quotient a ÷ b of whole numbers. -/
def exactDiv (a b : Nat) : Encl := ⟨a * fixOne / b, a * fixOne / b + 1, -(fixBits : Int)⟩

/-- 1 ÷ √(m × 2^e). -/
def exactRsqrt (m : Nat) (e : Int) : Encl :=
  let m' := if e % 2 = 0 then m else 2 * m
  let r := isqrt (fixOne * fixOne / m')
  ⟨r, r + 1, -(fixBits : Int) - e / 2⟩

/-- The error bound of a function in FP32 mode (Table 6-3): ulps, and an absolute bound 2^k at an argument of magnitude `ax`. -/
def sfuBound (fn : Nat) (ax : FV) : Nat × Option Int :=
  let close := FV.le (.fin false 1 (-1)) ax && FV.le ax (.fin false 2 0)
  match fn with
  | 0 => (2, none) | 2 => (2, if close then some (-25) else none) | 3 => (2, if close then some (-24) else none)
  | 7 => (2, none) | 8 => (3, none) | 9 => (4, some (-72)) | _ => (1, none)

/-- The largest finite pattern of a result mode. -/
def sfuTop (bf : Bool) : Nat := (sfuFmt bf).infBits false - 1

/-- The least and the greatest magnitude that Table 6-3 allows around an exact result, as patterns: the two nearest in BF16 mode, and
those within the bound in FP32 mode, one ulp of y being 2^(max(floor(log₂|y|), −126) − 23) (R178). Above a power of two, where the ulp
doubles, the least stays what it is just below, so that neither limit falls as y rises (R179). -/
def sfuSpan (bf : Bool) (bound : Nat × Option Int) (y : Encl) : Nat × Nat :=
  let f := sfuFmt bf
  let pat := fun (dir : Rnd) (v : FV) => if v.sign then 0 else min (sfuTop bf) (f.ieee dir v).1
  if bf then (pat .tz (.fin false y.lo y.e), pat .up (.fin false y.hi y.e))
  else
    let k := max (leadExp y.hi y.e) (-126)
    let dist := fun (k : Int) =>
      let u : FV := .fin false bound.1 (k - 23)
      bound.2.elim u fun a => if u.lt (.fin false 1 a) then .fin false 1 a else u
    let below := if k = -126 then 0 else pat .up (.add .ne (.fin false 1 k) (dist (k - 1)).neg)
    (max below (pat .up (.add .ne (.fin false y.lo y.e) (dist k).neg)), pat .tz (.add .ne (.fin false y.hi y.e) (dist k)))

/-- The range rule of R177 on an exact magnitude: zero, infinity, or neither. -/
def sfuRange (bf : Bool) (y : Encl) : Option Nat :=
  if bf && FV.lt (.fin false y.hi y.e) (.fin false 1 (-126)) then some 0
  else if FV.le (if bf then .fin false 511 119 else .fin false (2 ^ 25 - 1) 103) (.fin false y.lo y.e) then
    some ((sfuFmt bf).infBits false)
  else none

/-- A number that never decreases as p rises through the numbers of n bits, and is otherwise free: halves of the range below a value
that the free choice names, and above it. -/
def freeStep (g : Nat → Nat) : Nat → Nat → Nat → Nat → Nat → Nat
  | 0, node, lo, hi, _ => max lo (min hi (g node))
  | n + 1, node, lo, hi, p =>
    let m := max lo (min hi (g node))
    if p < 2 ^ n then freeStep g n (2 * node) lo m p else freeStep g n (2 * node + 1) m hi (p - 2 ^ n)

/-- The number of seams of Table 6-4 up to a reduced argument m × 2^-k in [1, 2), or in [1, 4) for rsqrt, at which FP32 results step
backward by one ulp (R180). -/
def backSteps (fn : Nat) (m k : Nat) : Nat :=
  let seams := if fn = 4 then [73, 90, 105, 119] else [78, 102, 152, 212]
  ((List.range 4).filter fun i => seams.getD i 0 * 2 ^ k ≤ 64 * m && Config.sfuBack fn i).length

/-- What the SFU delivers as the magnitude of a result (R178 to R180): free between the allowed patterns, not decreasing in the key where
`up` is set and not increasing otherwise, but for `back` backward steps. -/
def sfuPick (fn : Nat) (bf : Bool) (part nbits key : Nat) (up : Bool) (back : Nat) (span : Nat × Nat) : Nat :=
  let step := freeStep (Config.sfu fn bf part) nbits 1 0 (2 ^ 32) (if up then key else 2 ^ nbits - 1 - key)
  max span.1 (min span.2 (step + back))

/-- An allowed span cut to what lies between two patterns that monotony fixes. -/
def cutSpan (s : Nat × Nat) (lo hi : Nat) : Nat × Nat := (max s.1 (min lo hi), min s.2 (max lo hi))

/-- A result of exp, exp2, reciprocal or rsqrt whose exact value is y: by the range rule (R177), or the choice for the reduced argument,
scaled by 2^n (R176), or, where that is no normal number, the choice `whole` for the argument itself. -/
def sfuScaled (bf : Bool) (y : Encl) (n : Int) (reduced whole : Nat) : Nat :=
  let f := sfuFmt bf
  let scaled := if 1 ≤ ((reduced / 2 ^ f.mb : Nat) : Int) + n then min (sfuTop bf) ((reduced : Int) + n * 2 ^ f.mb).toNat else whole
  (sfuRange bf y).getD scaled

/-- A value within the span of its exact one, rounded once to the output mode. -/
def sfuRounded (bf : Bool) (span : Nat × Nat) (v : FV) : Nat := max span.1 (min span.2 ((sfuFmt bf).ieee .ne v).1)

/-- log₂(1 + t) in units of 2^-48, as the refinement of log and log2 leaves it, by the 23 bits of t: free, from 0 to 1, and not decreasing
(R176, R179). -/
def sfuLog (t : Nat) : Nat := freeStep (Config.sfu 2 false 3) 23 1 0 (2 ^ 48) t

/-- The magnitude that the SFU delivers for a finite nonzero argument, where nothing fixes it. `p` is the argument's magnitude as a
pattern. -/
def sfuMag (fn : Nat) (bf : Bool) (neg : Bool) (m : Nat) (e : Int) (p : Nat) : Nat :=
  let f := sfuFmt bf
  let v : FV := .fin neg m e
  let ax : FV := .fin false m e
  let pow := fun (k : Int) => min (sfuTop bf) (f.ieee .ne (.fin false 1 k)).1
  let far := FV.le (.fin false 256 0) ax
  let part := b2n neg
  let lead := leadExp m e
  let reach := fun (y : Encl) (part nbits key : Nat) (up : Bool) (lo hi : Nat) =>
    (sfuRange bf y).getD (sfuPick fn bf part nbits key up 0 (cutSpan (sfuSpan bf (sfuBound fn ax) y) lo hi))
  let bound := sfuBound fn ax
  let frac := (m - 2 ^ Nat.log2 m) * 2 ^ (23 - Nat.log2 m)
  let grown := fun (n : Int) (nbits key : Nat) (y : Encl) =>
    let red := sfuPick fn bf 2 nbits key true 0 (cutSpan (sfuSpan bf bound y) (pow 0) (pow 1))
    let yy : Encl := { y with e := y.e + n }
    sfuScaled bf yy n red (reach yy part 31 p (!neg) (if n < -149 then 0 else pow n) (pow (max (n + 1) (-149))))
  let logged := (lead * 2 ^ 48 + sfuLog frac).natAbs
  match fn with
  | 0 =>
    if far then (if neg then reach .tiny 1 31 p false 0 (pow (-149)) else f.infBits false)
    else
      let x := fixOf v
      let n := x / fixLn2
      let r := (x - n * fixLn2).toNat
      grown n 48 (r * 2 ^ 48 / fixLn2) (.near (expFix r) 30 0)
  | 1 =>
    if far then (if neg then reach .tiny 1 31 p false 0 (pow (-149)) else f.infBits false)
    else
      let x := fixOf v
      let n := x / fixOne
      let t := (x - n * fixOne).toNat
      grown n 149 (t / 2 ^ 171) (exactExp2 t)
  | 2 => sfuRounded bf (sfuSpan bf bound (.near (fixLn m e) 40 0)) (.fin false (logged * fixLn2) (-48 - (fixBits : Int)))
  | 3 => sfuRounded bf (sfuSpan bf bound (.near (fixLn m e * fixOne / fixLn2) 60 0)) (.fin false logged (-48))
  | 4 =>
    let k := Nat.log2 m
    let y := exactDiv (2 ^ k) m
    let back := fun (i : Nat) => if bf then 0 else 4 * i + backSteps fn m k
    let red := sfuPick fn bf 2 24 frac false (if bf then 0 else backSteps fn m k) (cutSpan (sfuSpan bf bound y) (pow (-1)) (pow 0))
    let yy : Encl := { y with e := y.e - lead }
    sfuScaled bf yy (-lead) red (sfuPick fn bf 0 31 p false (back (lead - 126).toNat)
      (cutSpan (sfuSpan bf bound yy) (pow (-lead - 1)) (pow (-lead))))
  | 5 =>
    let k := Nat.log2 m
    let odd := lead % 2 ≠ 0
    let m' := if odd then 2 * m else m
    let y := exactRsqrt m' (-(k : Int))
    let red := sfuPick fn bf 2 25 (frac + if odd then 2 ^ 24 else 0) false
      (if bf then 0 else backSteps fn m' k) (cutSpan (sfuSpan bf bound y) (pow (-1)) (pow 0))
    sfuScaled bf { y with e := y.e - lead / 2 } (-(lead / 2)) red red
  | 7 =>
    if neg then reach (exactSigmoid true ax) part 31 p false 0 (pow (-1))
    else reach (exactSigmoid false ax) part 31 p true (pow (-1)) (pow 0)
  | 8 =>
    let y := (exactSigmoid neg ax).times m e
    let beyond := neg && FV.lt (.fin false 12784645427610738 (-53)) (.mul ax (.fin false (10 ^ 16) (-53)))
    reach y (if beyond then 2 else part) 31 p (!beyond) 0 (sfuTop bf)
  | _ =>
    let y := (exactPhi neg (fixAbs ax)).times m e
    let beyond := neg && FV.lt (.fin false 7517915246935645 (-53)) (.mul ax (.fin false (10 ^ 16) (-53)))
    reach y (if beyond then 2 else part) 31 p (!beyond) 0 (if neg then sfuTop bf else pow 3)

/-- The sign of a result that nothing fixes. -/
def sfuNeg (fn : Nat) (v : FV) : Bool :=
  match fn with
  | 2 => v.lt (.fin false 1 0)
  | 3 => v.lt (.fin false 1 0)
  | 4 => v.sign
  | 8 => v.sign
  | 9 => v.sign
  | _ => false

/-- A special function of a binary32 argument (Table 6-2). -/
def sfu (fn : Nat) (bf : Bool) (arg : Nat) : Nat :=
  let v := ofF32 arg
  match sfuFixed fn bf v with
  | some r => r
  | none =>
    match v with
    | .fin neg m e => (sfuFmt bf).zeroBits (sfuNeg fn v) + sfuMag fn bf neg m e (arg % 2 ^ 31)
    | _ => (sfuFmt bf).qnan

end Sys2Proof.Machine
end

