-- ==== Sys2Proof/Machine/Product.lean ====
section
/-! DEFINITION. Sys2Proof/Machine/Product.lean: what a matrix array computes (05_arrays.md, 07_attention.md): product and
row-function descriptors, the walk, accumulation, the drain, the fused row function, and the descriptor checks. -/

namespace Sys2Proof.Machine

/-- A product descriptor (Table 5-2), with its address. -/
structure ProdDesc where
  shape : Nat
  fmtA  : Nat
  fmtB  : Nat
  flags : Nat
  out   : Nat
  round : Nat
  order : Nat
  res   : Nat
  m     : Nat
  n     : Nat
  k     : Nat
  sA    : Nat
  sB    : Nat
  sC    : Nat
  aA    : Nat
  aB    : Nat
  aC    : Nat
  first : Nat
  count : Nat
  step  : Nat
  at_   : Nat
  deriving DecidableEq, Repr

/-- A product descriptor read from its 64 bytes. -/
def readProd (b : Bytes) (a : Nat) : ProdDesc :=
  { shape := byteAt b 0, fmtA := byteAt b 1, fmtB := byteAt b 2, flags := byteAt b 3, out := byteAt b 4
    round := byteAt b 5, order := byteAt b 6, res := byteAt b 7, m := fieldAt b 8 4, n := fieldAt b 0xC 4
    k := fieldAt b 0x10 4, sA := fieldAt b 0x14 4, sB := fieldAt b 0x18 4, sC := fieldAt b 0x1C 4
    aA := fieldAt b 0x20 8, aB := fieldAt b 0x28 8, aC := fieldAt b 0x30 8, first := fieldAt b 0x38 4
    count := fieldAt b 0x3C 2, step := fieldAt b 0x3E 2, at_ := a }

def ProdDesc.transA (d : ProdDesc) : Bool := bitOf d.flags 0
def ProdDesc.transB (d : ProdDesc) : Bool := bitOf d.flags 1
def ProdDesc.accLoad (d : ProdDesc) : Bool := bitOf d.flags 2
def ProdDesc.fused (d : ProdDesc) : Bool := bitOf d.flags 3
def ProdDesc.kind (d : ProdDesc) : Nat := bits d.flags 5 4

/-- Tile size M × N × K of a shape (Table 5-4). -/
def shapeDims (s : Nat) : Nat × Nat × Nat :=
  match s with
  | 0 => (128, 128, 64) | 1 => (256, 64, 64) | 2 => (64, 256, 64) | 3 => (128, 64, 128) | _ => (64, 64, 256)

/-- The product reads FP8 operands. -/
def ProdDesc.fp8 (d : ProdDesc) : Bool := d.fmtB = 2 || d.fmtB = 3

/-- Bytes of the operand buffers of a shape (Table 5-4). -/
def operandBuffers (shape : Nat) (fp8 : Bool) : Nat :=
  match shape, fp8 with
  | 0, false => 65536 | 1, false => 81920 | 2, false => 81920 | 3, false => 98304 | _, false => 131072
  | 0, true => 33792 | 1, true => 42240 | 2, true => 42240 | 3, true => 50688 | _, true => 67584

/-- The storage code (Operands) of an output format. -/
def outCode (o : Nat) : Nat :=
  match o with
  | 1 => 0 | 2 => 1 | 3 => 2 | 4 => 3 | _ => 4

/-- Tile counts T_m and T_n. -/
def ProdDesc.grid (d : ProdDesc) : Nat × Nat := (ceilDiv d.m (shapeDims d.shape).1, ceilDiv d.n (shapeDims d.shape).2.1)

/-- K-steps of a tile. -/
def ProdDesc.ksteps (d : ProdDesc) : Nat := ceilDiv d.k (shapeDims d.shape).2.2

/-- The cycles of an unstalled, unfused product task (R136). -/
def ProdDesc.cycles (d : ProdDesc) : Nat := 64 + d.count * d.ksteps * (if d.fp8 then 256 else 512) + 128

/-- The walker's cell of index h, `k` doublings left (R160). -/
def hilbertGo : Nat → Nat → Nat → Nat → Nat → Nat × Nat
  | 0, _, _, x, y => (x, y)
  | k + 1, t, s, x, y =>
    let rx := t / 2 % 2
    let ry := Nat.xor t rx % 2
    let p := if ry = 0 then (if rx = 1 then (s - 1 - y, s - 1 - x) else (y, x)) else (x, y)
    hilbertGo k (t / 4) (2 * s) (p.1 + s * rx) (p.2 + s * ry)

/-- The least k with 2^k ≥ n. -/
def log2Up (n : Nat) : Nat := if n ≤ 1 then 0 else Nat.log2 (n - 1) + 1

/-- The tile of a walk index (R160). -/
def walkCell (order tm tn idx : Nat) : Nat × Nat :=
  if order = 1 then (idx / tn, idx % tn)
  else
    let k := log2Up (max tm tn)
    let cells := ((List.range (4 ^ k)).map fun h => hilbertGo k h 1 0 0).filter fun p => p.1 < tm && p.2 < tn
    cells.getD idx (0, 0)

/-- The walk indices of a task's tiles. -/
def ProdDesc.tiles (d : ProdDesc) : List Nat := (List.range d.count).map fun i => d.first + i * d.step

/-- The random-key block (R278). -/
structure KeyBlock where
  seed  : Nat
  step  : Nat
  layer : Nat
  pos   : Nat
  deriving DecidableEq, Repr

/-- The random-key block read from its 32 bytes. -/
def readKey (b : Bytes) : KeyBlock :=
  { seed := fieldAt b 0 8, step := fieldAt b 8 4, layer := fieldAt b 12 4, pos := fieldAt b 16 8 }

/-- The rounding mode of a descriptor on a stream (R155, R277). -/
def keyMode (stochastic : Bool) (key : KeyBlock) (stream : Nat) : RndMode :=
  if stochastic then some fun x => randBits key.seed stream key.step key.layer (key.pos + x) else none

/-- A descriptor rounds stochastically: by `ROUND`, or by the harness's default (R155). -/
def ProdDesc.stoch (d : ProdDesc) (dflt : Bool) : Bool := d.round = 1 || (d.round = 2 && dflt)

/-- Element (i, k) of operand A as the array reads it (R137). -/
def Core.elemA (c : Core) (mem : Memory) (d : ProdDesc) (i k : Nat) : FV :=
  if d.transA then c.matElem mem d.fmtA d.aA d.sA d.k k i else c.matElem mem d.fmtA d.aA d.sA d.m i k

/-- Element (k, j) of operand B, its address advanced by `off` (R190). -/
def Core.elemB (c : Core) (mem : Memory) (d : ProdDesc) (off k j : Nat) : FV :=
  if d.transB then c.matElem mem d.fmtB (d.aB + off) d.sB d.n j k
  else c.matElem mem d.fmtB (d.aB + off) d.sB d.k k j

/-- BF16 and FP16 accumulation: each product exact, each addition rounded once, k ascending (R150). -/
def dotFine (init : Nat) (ps : List (FV × FV)) : Nat :=
  ps.foldl (fun acc p => toF32 (.add .ne (ofF32 acc) (.mul p.1 p.2))) init

/-- FP8 accumulation: each 32-element block pair exact, scaled and rounded once, then added (R151). A block whose products are all −0 has
the exact sum +0: R151 gives no sign, and the sum starts at +0 here (log entry 150). -/
def dotBlocks : Nat → Nat → List (FV × FV) → Nat
  | 0, acc, _ => acc
  | fuel + 1, acc, ps =>
    if ps.isEmpty then acc else
    let p := (ps.take 32).foldl (fun a e => FV.add .ne a (.mul e.1 e.2)) (.fin false 0 0)
    dotBlocks fuel (toF32 (.add .ne (ofF32 acc) (ofF32 (toF32 p)))) (ps.drop 32)

/-- One accumulator over a run of operand pairs. -/
def dot (fp8 : Bool) (init : Nat) (ps : List (FV × FV)) : Nat :=
  if fp8 then dotBlocks (ps.length / 32 + 1) init ps else dotFine init ps

/-- The FP32 result of output element (i, j) (R150 to R152). -/
def Core.productElem (c : Core) (mem : Memory) (d : ProdDesc) (off i j : Nat) : Nat :=
  let init := if d.accLoad then c.numIn mem (matAddr 4 d.aC d.sC i j) 4 else 0
  dot d.fp8 init ((List.range d.k).map fun k => (c.elemA mem d i k, c.elemB mem d off k j))

/-- The bytes that a drain writes for one row's elements from column c0 (R153): values, and FP8 scales by 32-element
blocks. -/
def drainRow (d : ProdDesc) (mode : RndMode) (i c0 : Nat) (vs : List Nat) : List (Nat × Bytes) :=
  let k := outCode d.out
  let run := fun (c : Nat) (l : List Nat) =>
    rowWrites k d.aC d.sC i (l.length + 1) c (l.map (leBytes (elemBytes k)))
  let x := fun (j : Nat) => i * d.n + j
  if k = 4 then run c0 vs
  else if k ≤ 1 then run c0 (vs.zipIdx.map fun p => (fmtOf k).convert mode (x (c0 + p.2)) (ofF32 p.1))
  else
    let blocks := (List.range (ceilDiv vs.length 32)).map fun b => (c0 + 32 * b, (vs.drop (32 * b)).take 32)
    let qs := blocks.map fun b => (b.1, quantBlock (fmtOf k) mode (x b.1) (b.2.map ofF32))
    qs.map (fun q => (scaleAddr d.aC d.sC d.m i q.1, leBytes 1 q.2.1)) ++ run c0 (qs.flatMap fun q => q.2.2)

/-- The rows and columns of an output tile within the product (R140). -/
def ProdDesc.tileSpan (d : ProdDesc) (idx : Nat) : (Nat × Nat) × (Nat × Nat) :=
  let g := d.grid
  let cell := walkCell d.order g.1 g.2 idx
  let s := shapeDims d.shape
  ((cell.1 * s.1, min d.m (cell.1 * s.1 + s.1)), (cell.2 * s.2.1, min d.n (cell.2 * s.2.1 + s.2.1)))

/-- The tile blocks that an output tile's operands, and with `ACC_LOAD` its start, lie in (R140). -/
def ProdDesc.tileReads (d : ProdDesc) (idx : Nat) : List Nat :=
  let t := d.tileSpan idx
  let a := if d.transA then matBlocks d.fmtA d.aA d.sA d.k 0 d.k t.1.1 t.1.2
    else matBlocks d.fmtA d.aA d.sA d.m t.1.1 t.1.2 0 d.k
  let b := if d.transB then matBlocks d.fmtB d.aB d.sB d.n t.2.1 t.2.2 0 d.k
    else matBlocks d.fmtB d.aB d.sB d.k 0 d.k t.2.1 t.2.2
  let c := if d.accLoad then matBlocks 4 d.aC d.sC d.m t.1.1 t.1.2 t.2.1 t.2.2 else []
  a ++ b ++ c

/-- What one output tile writes (R150 to R155). -/
def Core.tileWrites (c : Core) (mem : Memory) (d : ProdDesc) (mode : RndMode) (idx : Nat) : List (Nat × Bytes) :=
  let t := d.tileSpan idx
  (List.range (t.1.2 - t.1.1)).flatMap fun r =>
    let i := t.1.1 + r
    drainRow d mode i t.2.1 ((List.range (t.2.2 - t.2.1)).map fun j => c.productElem mem d 0 i (t.2.1 + j))

/-- A row-function descriptor (Table 6-6), with its address. -/
structure RowDesc where
  fn     : Nat
  sfn    : Nat
  mask   : Nat
  bias   : Nat
  scale  : Nat
  head   : Nat
  res1   : Nat
  qpos   : Nat
  aBias  : Nat
  aKpos  : Nat
  adv    : Nat
  j      : Nat
  res2   : Nat
  aQdoc  : Nat
  aKdoc  : Nat
  at_    : Nat
  deriving DecidableEq, Repr

/-- A row-function descriptor read from its 64 bytes. -/
def readRow (b : Bytes) (a : Nat) : RowDesc :=
  { fn := byteAt b 0, sfn := byteAt b 1, mask := byteAt b 2, bias := byteAt b 3, scale := fieldAt b 4 4
    head := fieldAt b 8 2, res1 := fieldAt b 0xA 2, qpos := fieldAt b 0xC 4, aBias := fieldAt b 0x10 8
    aKpos := fieldAt b 0x18 8, adv := fieldAt b 0x20 8, j := fieldAt b 0x28 2, res2 := fieldAt b 0x2A 6
    aQdoc := fieldAt b 0x30 8, aKdoc := fieldAt b 0x38 8, at_ := a }

/-- The distance-bias table index of a score (R200). -/
def biasIndex (qpos kpos : Nat) : Nat :=
  let a := if kpos ≤ qpos then qpos - kpos else kpos - qpos
  let b := if a ≤ 32 then a
    else if 2 ^ 24 ≤ a then 109
    else
      let e := Nat.log2 a
      33 + 4 * (e - 5) + a / 2 ^ (e - 2) % 4
  if kpos ≤ qpos then b else 128 + b

/-- The score of row i and key n of block j (R191). -/
def Core.rowScore (c : Core) (mem : Memory) (r : RowDesc) (n i j nn acc : Nat) : Nat :=
  let q := (r.qpos + i) % 2 ^ 32
  let k := (c.numIn mem (r.aKpos + 4 * j) 4 + nn) % 2 ^ 32
  let a := fMul r.scale acc
  let b := if r.bias = 1 then c.numIn mem (r.aBias + 1024 * r.head + 4 * biasIndex q k) 4 else 0
  let doc := bitOf r.mask 1 && c.numIn mem (r.aQdoc + 4 * i) 4 ≠ c.numIn mem (r.aKdoc + 4 * (j * n + nn)) 4
  if (bitOf r.mask 0 && q < k) || doc then 0xFF800000 else fAdd a b

/-- What a row of the online softmax holds: m, l with the flags that the vector unit raised on the way to it (R173), and bank 1 (R164). -/
structure SoftRow where
  m : Nat
  l : FR
  o : List Nat
  deriving DecidableEq, Repr

/-- One key block on one row (R164, R192): scores to p, the row sum, the rescale of bank 1, the second product's K-steps. The vector
unit's own part, which raises flags, is all of it but the scores and maxima, which the drain path forms, and the exponentials (log entry
152). -/
def softStep (mode : Nat → Nat → Nat) (v : Nat → Nat → FV) (scores : List Nat) (r : SoftRow) : SoftRow :=
  let mNew := scores.foldl fMax r.m
  let masked := mNew = 0xFF800000
  let down := fun (a : Nat) => FR.sub .ne ⟨a, 0⟩ ⟨mNew, 0⟩
  let c := if masked then 0x3F800000 else sfu 0 false (down r.m).v
  let ps := scores.zipIdx.map fun e => if masked then 0 else mode e.2 (sfu 0 false (down e.1).v)
  let pv := ps.map fun p => bf16.decode true p
  let t := ps.foldl (fun (acc : FR) p => .add .ne acc ⟨toF32 (bf16.decode false p), 0⟩) ⟨0, 0⟩
  let l := FR.fma .ne r.l ⟨c, 0⟩ t
  let subs := if masked then [] else (r.m :: scores).map fun a => (down a).fl
  let scales := r.o.map fun a => (FR.mul .ne ⟨a, 0⟩ ⟨c, 0⟩).fl
  { m := mNew, l := { l with fl := (subs ++ scales).foldl Nat.lor l.fl }
    o := r.o.zipIdx.map fun e =>
      dotFine (fMul e.1 c) (pv.zipIdx.map fun p => (p.1, v p.2 e.2)) }

/-- The rounding of p to BF16, its position by Table 9-5. -/
def pMode (stoch : Bool) (key : KeyBlock) (n i j nn x : Nat) : Nat :=
  bf16.convert (keyMode stoch key 4) (i * 2 ^ 24 + j * n + nn) (ofF32 x)

/-- One row of a fused `SOFTMAX` task over its J key blocks (R164); with ACC_LOAD on the second descriptor o starts at the tile at C_ADDR
(R150; log entry 194). -/
def Core.softRow (c : Core) (mem : Memory) (d1 d2 : ProdDesc) (r : RowDesc) (stoch : Bool) (key : KeyBlock) (i : Nat) :
    SoftRow :=
  let start : SoftRow := { m := 0xFF800000, l := ⟨0, 0⟩, o := (List.range d2.n).map fun x =>
    if d2.accLoad then c.numIn mem (matAddr 4 d2.aC d2.sC i x) 4 else 0 }
  (List.range r.j).foldl (fun (row : SoftRow) j =>
    let scores := (List.range d1.n).map fun nn =>
      c.rowScore mem r d1.n i j nn (c.productElem mem d1 (j * r.adv) i nn)
    softStep (fun nn x => pMode stoch key d1.n i j nn x) (fun k x => c.elemB mem d2 (j * r.adv) k x) scores row) start

/-- The result of a row: divided by l, +0 where l is +0 (R164, R192). -/
def SoftRow.out (r : SoftRow) : List FR := r.o.map fun x => if r.l.v = 0 then ⟨0, r.l.fl⟩ else .div .ne ⟨x, 0⟩ r.l

/-- One row of a fused `ACT` task (R195). -/
def Core.actRow (c : Core) (mem : Memory) (d1 d2 : ProdDesc) (r : RowDesc) (stoch : Bool) (key : KeyBlock) (i : Nat) :
    List Nat :=
  let ps := (List.range d1.n).map fun nn =>
    pMode stoch key d1.n i 0 nn (sfu r.sfn false (fMul r.scale (c.productElem mem d1 0 i nn)))
  (List.range d2.n).map fun x =>
    let init := if d2.accLoad then c.numIn mem (matAddr 4 d2.aC d2.sC i x) 4 else 0
    dotFine init (ps.zipIdx.map fun p => (bf16.decode true p.1, c.elemB mem d2 0 p.2 x))

/-- What a fused task leaves: its writes, its rows' m and l (R196), and the two accumulator banks, row by row. -/
structure FusedEnd where
  writes : List (Nat × Bytes)
  rowML  : List (Nat × Nat)
  bank0  : List Nat
  bank1  : List Nat
  flags  : Nat
  deriving DecidableEq, Repr

/-- What a fused task writes and leaves (R164, R195, R196): bank 0 holds the first product of its last key block, bank 1 what the second
product has accumulated. It computes the whole M × N of its second product: FIRST, COUNT, STEP and ORDER, which the sequence of R164 does
not use, choose nothing (log entry 149). -/
def Core.fusedWrites (c : Core) (mem : Memory) (d1 d2 : ProdDesc) (r : RowDesc) (st1 st2 : Bool) (key : KeyBlock) : FusedEnd :=
  let mode := keyMode st2 key 0
  let off := if r.fn = 0 then (r.j - 1) * r.adv else 0
  let bank0 := (List.range d1.m).flatMap fun i => (List.range d1.n).map fun j => c.productElem mem d1 off i j
  if r.fn = 0 then
    let rows := (List.range d1.m).map fun i => c.softRow mem d1 d2 r st1 key i
    let outs := rows.map SoftRow.out
    { writes := outs.zipIdx.flatMap fun p => drainRow d2 mode p.2 0 (p.1.map FR.v), rowML := rows.map fun x => (x.m, x.l.v)
      bank0 := bank0, bank1 := rows.flatMap SoftRow.o, flags := (outs.flatten.map FR.fl).foldl Nat.lor 0 }
  else
    let rows := (List.range d1.m).map fun i => c.actRow mem d1 d2 r st1 key i
    { writes := rows.zipIdx.flatMap fun p => drainRow d2 mode p.2 0 p.1, rowML := [], bank0 := bank0, bank1 := rows.flatten
      flags := 0 }

/-- The tile blocks a fused task's products read. -/
def fusedReads (d1 d2 : ProdDesc) (r : RowDesc) : List Nat :=
  let a := if d1.transA then matBlocks d1.fmtA d1.aA d1.sA d1.k 0 d1.k 0 d1.m
    else matBlocks d1.fmtA d1.aA d1.sA d1.m 0 d1.m 0 d1.k
  let b := fun (d : ProdDesc) (off : Nat) => if d.transB then matBlocks d.fmtB (d.aB + off) d.sB d.n 0 d.n 0 d.k
    else matBlocks d.fmtB (d.aB + off) d.sB d.k 0 d.k 0 d.n
  let bs := (List.range (if r.fn = 0 then r.j else 1)).flatMap fun j => b d1 (j * r.adv) ++ b d2 (j * r.adv)
  let c := if d2.accLoad then matBlocks 4 d2.aC d2.sC d2.m 0 d2.m 0 d2.n else []
  (a ++ bs ++ c).eraseDups

/-- The ranges that a row function reads: the row of the distance-bias table that the task names, among them, and no more of the table
(R191, R201). -/
def RowDesc.reads (r : RowDesc) (d1 : ProdDesc) : List (Nat × Nat) :=
  if r.fn ≠ 0 then []
  else (r.aKpos, 4 * r.j) :: (if r.bias = 1 then [(r.aBias + 1024 * r.head, 1024)] else [])
    ++ (if bitOf r.mask 1 then [(r.aQdoc, 4 * d1.m), (r.aKdoc, 4 * r.j * d1.n)] else [])

/-- `TILE.FORMAT` on a descriptor (Table 5-5, R142, R147). -/
def ProdDesc.badFormat (d : ProdDesc) : Bool :=
  let fa := if d.fmtA = 4 then 0 else d.fmtA
  4 < d.fmtA || 3 < d.fmtB || 5 < d.out || 2 < d.round
    || !(fa = d.fmtB || (2 ≤ fa && 2 ≤ d.fmtB))
    || (2 ≤ fa && (d.transA || !d.transB))

/-- `TILE.MODE` on a descriptor by itself (Table 5-5, R150); `pos` is 0 for the first and 1 for the second of a fused
task, and 2 outside one. -/
def ProdDesc.badMode (d : ProdDesc) (pos : Nat) : Bool :=
  4 < d.shape || 1 < d.order || d.kind = 3 || 64 ≤ d.flags || d.res ≠ 0 || (d.accLoad && d.out ≠ 0)
    || (if pos = 0 then d.out ≠ 5 || 128 < d.m || d.fmtA = 4
        else if pos = 1 then d.fmtA ≠ 4 || d.out = 5
        else d.fused || d.fmtA = 4 || d.out = 5)

/-- The conditions of R163 that tie the two descriptors of a fused task. -/
def fusedBad (d1 d2 : ProdDesc) : Bool := d2.kind ≠ d1.kind || d1.m ≠ d2.m || d1.n ≠ d2.k

/-- The dY block that a step of a paired product reads, array A's operand A or array B's operand B (R166): the address of its first
element, and the tile blocks that it lies in. -/
def pairedBlocks (d : ProdDesc) (second : Bool) : List (Nat × List Nat) :=
  let g := d.grid
  let s := shapeDims d.shape
  d.tiles.flatMap fun idx =>
    let cell := walkCell d.order g.1 g.2 idx
    (List.range d.ksteps).map fun ks =>
      if second then
        let r := ks * s.2.2
        let c := cell.2 * s.2.1
        let r' := min d.k (r + s.2.2)
        let c' := min d.n (c + s.2.1)
        if d.transB then (matAddr d.fmtB d.aB d.sB c r, matBlocks d.fmtB d.aB d.sB d.n c c' r r')
        else (matAddr d.fmtB d.aB d.sB r c, matBlocks d.fmtB d.aB d.sB d.k r r' c c')
      else
        let r := cell.1 * s.1
        let c := ks * s.2.2
        let r' := min d.m (r + s.1)
        let c' := min d.k (c + s.2.2)
        if d.transA then (matAddr d.fmtA d.aA d.sA c r, matBlocks d.fmtA d.aA d.sA d.k c c' r r')
        else (matAddr d.fmtA d.aA d.sA r c, matBlocks d.fmtA d.aA d.sA d.m r r' c c')

/-- What R166 asks of a paired task, beyond each descriptor by itself: of the first, and of the second. What the two break together, a
step count or a dY block that differs, counts against the second (log entry 193). -/
def pairedBad (d1 d2 : ProdDesc) (allowed : Bool) : Bool × Bool :=
  (!allowed || d1.shape ≠ 0 || d1.kind ≠ 1 || !d1.transB,
   d2.shape ≠ 3 || d2.kind ≠ 2 || !d2.transA || !d2.accLoad || d2.out ≠ 0 || d2.order ≠ 1
    || d1.count * d1.ksteps ≠ d2.count * d2.ksteps || pairedBlocks d1 false ≠ pairedBlocks d2 true)

/-- `TILE.MODE` on a row-function descriptor (R190, R201). -/
def RowDesc.badMode (r : RowDesc) : Bool :=
  1 < r.fn || (r.fn = 0 && r.sfn ≠ 0) || (r.fn = 1 && 9 < r.sfn) || 4 ≤ r.mask || 1 < r.bias || r.res1 ≠ 0 || r.res2 ≠ 0
    || bits r.scale 30 23 = 255 || r.scale % 2 ^ 31 = 0 || r.adv % 16384 ≠ 0 || r.j = 0
    || (r.fn = 1 && (r.j ≠ 1 || r.mask ≠ 0 || r.bias ≠ 0))
    || (r.bias = 0 && r.aBias ≠ 0) || (r.bias = 1 && r.aBias % 1024 ≠ 0)
    || (!bitOf r.mask 1 && (r.aQdoc ≠ 0 || r.aKdoc ≠ 0))

/-- `TILE.RANGE` on a product descriptor (Table 5-5), a nonzero A_ADDR under FMT_A = ROW among them (log entry 192); `adv` is the extra bytes operand B advances over in a fused task. -/
def Core.rangeBad (c : Core) (x : Nat) (d : ProdDesc) (adv : Nat) : Bool :=
  let g := d.grid
  let inside := fun (a n : Nat) => (c.find x a n).isSome
  let mat := fun (k a stride rows cols more : Nat) =>
    a % 16384 ≠ 0 || stride < ceilDiv cols (rowElems k) || !inside a (matSpan k stride rows + more)
  d.m = 0 || d.n = 0 || d.k = 0 || d.count = 0 || d.step = 0 || g.1 * g.2 ≤ d.first + (d.count - 1) * d.step
    || (d.fmtA = 4 && d.aA ≠ 0)
    || (d.fmtA ≠ 4 && (if d.transA then mat d.fmtA d.aA d.sA d.k d.m 0 else mat d.fmtA d.aA d.sA d.m d.k 0))
    || (if d.transB then mat d.fmtB d.aB d.sB d.n d.k adv else mat d.fmtB d.aB d.sB d.k d.n adv)
    || d.aC % 16384 ≠ 0 || (d.out ≠ 5 && mat (outCode d.out) d.aC d.sC d.m d.n 0)

/-- `TILE.RANGE` on a row-function descriptor (R190, R201): an `ACT` task's J value has its address too, which may not be 0 (Table 6-6). -/
def Core.rowRangeBad (c : Core) (x : Nat) (d1 : ProdDesc) (r : RowDesc) : Bool :=
  let inside := fun (a n : Nat) => (c.find x a n).isSome
  !inside r.aKpos (4 * r.j)
    || (r.fn = 0 && ((r.bias = 1 && !inside r.aBias (1024 * (r.head + 1)))
    || (bitOf r.mask 1 && (!inside r.aQdoc (4 * d1.m) || !inside r.aKdoc (4 * r.j * d1.n)))))

/-- A product descriptor with its device addresses resolved (R399). -/
def ProdDesc.place (f : Nat → Nat) (d : ProdDesc) : ProdDesc := { d with aA := f d.aA, aB := f d.aB, aC := f d.aC }

/-- A row-function descriptor with its device addresses resolved (R399). -/
def RowDesc.place (f : Nat → Nat) (r : RowDesc) : RowDesc :=
  { r with aBias := f r.aBias, aKpos := f r.aKpos, aQdoc := f r.aQdoc, aKdoc := f r.aKdoc }

/-- What the tile engine reads at a task's start (R156, R278): its descriptors and its random-key block. -/
structure ProdTask where
  d1    : ProdDesc
  d2    : Option ProdDesc
  row   : Option RowDesc
  keyAt : Nat
  key   : Option Bytes
  deriving DecidableEq, Repr

/-- The default rounding of a context's harness is stochastic (Table 3-10). -/
def Core.stochDefault (c : Core) (x : Nat) : Bool :=
  c.draft.elim false fun d => bitOf (d.func (c.ctx x).harness).flags 3

/-- A product task's descriptors carry a second product descriptor, and a row function. -/
def prodParts (engine : Nat) (b1 : Bytes) : Bool × Bool :=
  let fused := bitOf (byteAt b1 3) 3
  (fused || engine = 1, fused && engine ≠ 1)

/-- The bytes of a product task's descriptors before its random-key block (R156). -/
def prodBytes (engine : Nat) (b1 : Bytes) : Nat :=
  64 + (if (prodParts engine b1).1 then 64 else 0) + (if (prodParts engine b1).2 then 64 else 0)

/-- A product task's descriptors from the bytes read at its `ARGS`, its addresses resolved by `f`; `dflt` is that the harness rounds
stochastically. A task that rounds so has a random-key block, which may be cut short (R278). -/
def parseProd (f : Nat → Nat) (dflt : Bool) (engine a : Nat) (b : Bytes) : ProdTask :=
  let at_ := fun (k : Nat) => (readProd ((b.drop k).take 64) (a + k)).place f
  let parts := prodParts engine b
  let n := prodBytes engine b
  let d1 := at_ 0
  let d2 := if parts.1 then some (at_ 64) else none
  let st := d1.stoch dflt || (d2.elim false fun d => d.stoch dflt)
  { d1 := d1, d2 := d2, row := if parts.2 then some ((readRow ((b.drop 128).take 64) (a + 128)).place f) else none
    keyAt := a + n, key := if st then some ((b.drop n).take 32) else none }

/-- The bytes that the tile engine reads at a task's `ARGS`: its descriptors, and a random-key block where the context has one there;
none where a descriptor lies in no object of the context (R317). -/
def Core.argBytes (c : Core) (x engine a : Nat) : Option Bytes :=
  if (c.find x a 64).isNone then none else
  let n := prodBytes engine (c.readAs x a 64)
  if (c.find x a n).isNone then none
  else some (c.readAs x a (if (c.find x a (n + 32)).isSome then n + 32 else n))

/-- A product task's descriptors, from the bytes read. -/
def Core.prodOf (c : Core) (x engine a : Nat) (b : Bytes) : ProdTask := parseProd (c.resolve x) (c.stochDefault x) engine a b

/-- The check of R169: the fault and the address of the first descriptor that breaks it. -/
def Core.prodCheck (c : Core) (x engine : Nat) (p : ProdTask) : Option (Nat × Nat) :=
  let fused := p.row.isSome
  let d2 := p.d2.getD p.d1
  let allowed := c.draft.elim false fun d => bitOf (d.func (c.ctx x).harness).flags 1
  let pb := if engine = 1 then pairedBad p.d1 d2 allowed else (false, false)
  let adv := p.row.elim 0 fun r => (r.j - 1) * r.adv
  let fmt := [(p.d1.badFormat, p.d1.at_), (p.d2.isSome && d2.badFormat, d2.at_)]
  let mode := [(p.d1.badMode (if fused then 0 else 2) || pb.1, p.d1.at_),
    (p.d2.isSome && (d2.badMode (if fused then 1 else 2) || pb.2 || (fused && fusedBad p.d1 d2)), d2.at_),
    (p.row.elim false RowDesc.badMode, p.row.elim 0 RowDesc.at_),
    (p.key.elim false (fun b => b.length = 32 && !zeroAt b 24 8), p.keyAt)]
  let range := [(c.rangeBad x p.d1 adv, p.d1.at_), (p.d2.isSome && c.rangeBad x d2 adv, d2.at_),
    (p.row.elim false (c.rowRangeBad x p.d1), p.row.elim 0 RowDesc.at_),
    (p.key.elim false (fun b => b.length ≠ 32), p.keyAt)]
  let first := fun (l : List (Bool × Nat)) (code : Nat) => (l.find? (·.1)).map fun e => (code, e.2)
  ((first fmt 0x0602).or (first mode 0x0603)).or (first range 0x0604)

end Sys2Proof.Machine
end

