-- ==== Sys2Proof/Machine/Arrays.lean ====
section
/-! DEFINITION. Sys2Proof/Machine/Arrays.lean: the tile engine on the machine (R156 to R169): reading and checking a task's
descriptors, allocation, reading operands with their marks and sector checks, the writes of the drain, lineage records
and repair tasks. -/

namespace Sys2Proof.Machine

/-- The sectors of a range are read by a task (R59, R362), up to its own end by a fault. -/
def State.readRange (s : State) (t : TaskRef) (a n : Nat) : State :=
  (sectorsOf a n).foldl (fun (s : State) sec =>
    if s.core.live t then s.readSector (some (.task t)) (64 * sec) {} else s) s

/-- Tile blocks as ranges. -/
def blockRanges (blks : List Nat) : List (Nat × Nat) := blks.map fun b => (b, 16384)

/-- A gather whose pieces feed a product (R302): its receive range and its task. -/
structure Feed where
  recv  : Nat
  bytes : Nat
  task  : TaskRef
  deriving DecidableEq, Repr

/-- The gathers that feed a product task (R302). -/
def Core.feeds (c : Core) (x : Nat) (t : TaskRef) : List Feed :=
  ((c.task t).elim [] fun k => k.desc.deps).filterMap fun d =>
    (c.task ⟨t.jno, d⟩).bind fun g =>
      let b := c.argsOf x g 64
      if g.desc.engine = 3 && (byteAt b 0 = 2 || byteAt b 0 = 8) && bitOf (byteAt b 3) 1 then
        some { recv := c.resolve x (fieldAt b 0x18 8), bytes := fieldAt b 0x20 8, task := ⟨t.jno, d⟩ }
      else none

/-- A block lies in part in a gather's receive range. -/
def Feed.touches (f : Feed) (blk : Nat) : Bool := f.recv < blk + 16384 && blk < f.recv + f.bytes

/-- The counts of a gather's participants, by the members' headers, this module's own among them (R297). -/
def Chan.rankCounts (k : Chan) (n dies : Nat) : List Nat :=
  (List.range n).flatMap fun r =>
    let h := if r = fieldAt k.hdr 0x14 2 then k.hdr else ((k.from_.find? (·.1 = r)).map Prod.snd).getD []
    List.replicate dies (fieldAt h 0x20 8)

/-- Where the pieces of a gather lie in its receive range, packed in rank order, and their bytes (R290, R297). -/
def pieceSpans (ty : Nat) (counts : List Nat) : List (Nat × Nat) :=
  counts.zipIdx.map fun e => (((counts.take e.2).map (pieceBytes ty)).sum, pieceBytes ty e.1)

/-- The arrival flags of the pieces that hold a block are set (R302), or the gather is done. -/
def Core.fed (c : Core) (x : Nat) (f : Feed) (blk : Nat) : Bool :=
  let done := (c.task f.task).elim false fun g => g.computed || g.phase = .ended
  let b := (c.task f.task).elim [] fun g => c.argsOf x g 64
  let flags := fun (ch : Chan) =>
    let n := (c.group ch.group).elim 0 fun g => g.members.length
    let spans := pieceSpans (byteAt b 1) (ch.rankCounts n (diesOf (byteAt b 7)).length)
    ch.state = .data && spans.zipIdx.all fun p =>
      f.recv + p.1.1 + p.1.2 ≤ blk || blk + 16384 ≤ f.recv + p.1.1 || ch.pieces.contains p.2
  !f.touches blk || done || c.chans.any fun ch => ch.parts.contains f.task && flags ch

/-- A feeding gather's own shadow block of a block (R302). -/
def Core.fedBlock (c : Core) (x : Nat) (fs : List Feed) (blk : Nat) : Option HeldBlock :=
  if fs.any fun f => f.touches blk then
    c.pm.shadow.find? fun h => h.addr = blk && h.ctx = x && !h.byFill
  else none

/-- An operand range is read (R140): what a feeding gather landed of it from its shadow block (R302), the rest as committed. -/
def State.readOperand (s : State) (t : TaskRef) (x : Nat) (fs : List Feed) (r : Nat × Nat) : State :=
  (sectorsOf r.1 r.2).foldl (fun (s : State) sec =>
    let landed := (s.core.fedBlock x fs (blockOf (64 * sec))).elim false fun h => getKey h.sectors sec = some .valid
    if !s.core.live t then s
    else if landed then s.withCore fun c => c.mark (64 * sec) 64
    else s.readSector (some (.task t)) (64 * sec) {}) s

/-- An operand block is read, and stands in the region's cache as the walker staged it (R161, R162). -/
def State.readStaged (s : State) (t : TaskRef) (x cu : Nat) (fs : List Feed) (blk : Nat) : State :=
  (s.readOperand t x fs (blk, 16384)).withCore fun c => c.stage (cuRegion cu) [blk]

/-- A product's operand blocks are read in turn, each staged before the next, and then what its row function reads. -/
def State.readOperands (s : State) (t : TaskRef) (x cu : Nat) (fs : List Feed) (blks : List Nat) (rs : List (Nat × Nat)) : State :=
  rs.foldl (fun s r => s.readOperand t x fs r) (blks.foldl (fun s b => s.readStaged t x cu fs b) s)

/-- Memory as a product task reads it: its context's view, with the shadow blocks of the gathers that feed it (R302). -/
def Core.opMem (c : Core) (x : Nat) (fs : List Feed) : Memory :=
  let own := c.pm.shadow.filter fun h => h.ctx = x && !h.byFill && fs.any fun f => f.touches h.addr
  own.foldl Memory.replaceBlock (c.view x)

/-- The blocks that the writes of one drain cover whole. -/
def wholeBlocks (ws : List (Nat × Bytes)) : List Nat :=
  let bytes := fun (b : Nat) => ((ws.filter fun w => blockOf w.1 = b).map fun w => w.2.length).sum
  ((ws.map fun w => blockOf w.1).eraseDups).filter fun b => 16384 ≤ bytes b

/-- The writes of a task's drain in turn, up to its own end by a fault; the whole bits of the blocks that it covers are set
(R370). -/
def State.taskWrites (s : State) (t : TaskRef) (x : Nat) (ws : List (Nat × Bytes)) : State :=
  let s1 := ws.foldl (fun s w => if s.core.live t then s.taskWrite t w.1 w.2 else s) s
  s1.withCore fun c => (wholeBlocks ws).foldl (fun c b => c.setWhole (c.resolve x b)) c

/-- The blocks of an output tile. -/
def ProdDesc.tileBlocks (d : ProdDesc) (idx : Nat) : List Nat :=
  let t := d.tileSpan idx
  matBlocks (outCode d.out) d.aC d.sC d.m t.1.1 t.1.2 t.2.1 t.2.2

/-- A lineage record is written for an output tile whose producer and inputs R367 allows, over the oldest of its die
(R368). -/
def Core.noteLineage (c : Core) (n x cu : Nat) (d : ProdDesc) (descBytes key : Bytes) (idx : Nat) : Core :=
  let changedNow := fun b => c.changed.any (fun e => e.1 = b && e.2 = 0) || (c.shadowAt b).isSome
  if d.accLoad || 2 < d.out || (d.tileReads idx).any changedNow then c
  else
    let l : Lineage :=
      { desc := descBytes.take 0x38 ++ leBytes 4 idx ++ leBytes 2 1 ++ descBytes.drop 0x3E, key := key, pick := n
        ctx := c.handle x, cu := cu, tile := d.tileBlocks idx, ins := d.tileReads idx }
    { c with onchip := { c.onchip with
        lineage := modifyAt c.onchip.lineage (cuDie cu) fun r => (l :: r).take 1048576 } }

/-- An accumulator bank takes an output tile's FP32 results, row by row. -/
def Core.fillBank (c : Core) (cu bank : Nat) (ws : List Nat) : Core :=
  { c with onchip := { c.onchip with acc := putBytes c.onchip.acc (accKey cu bank 0) (packVals 4 ws) } }

/-- An output tile is computed and drained (R150 to R156), its bank chosen by its number. -/
def State.runTile (s : State) (t : TaskRef) (x cu : Nat) (banks : List Nat) (d : ProdDesc) (mode : RndMode)
    (record : Option (Bytes × Bytes)) (mem : Memory) (idx no : Nat) : State :=
  let sp := d.tileSpan idx
  let acc := (List.range (sp.1.2 - sp.1.1)).flatMap fun r => (List.range (sp.2.2 - sp.2.1)).map fun j =>
    s.core.productElem mem d 0 (sp.1.1 + r) (sp.2.1 + j)
  let ws := s.core.tileWrites mem d mode idx
  let s1 := s.withCore fun c => c.fillBank cu (banks.getD (no % 2) (banks.getD 0 0)) acc
  let s2 := s1.taskWrites t x ws
  let s3 := record.elim s2 fun r => s2.withCore fun c => c.noteLineage s.pick.counter x cu d r.1 r.2 idx
  s3.withCore fun c => c.setTask t fun k => { k with tiles := k.tiles + 1 }

/-- One product of a task runs, from its first tile not yet drained; `base` tiles of the task come before the product's own. False where
a tile waits for memory. -/
def State.runTiles (s : State) (t : TaskRef) (x cu base : Nat) (banks : List Nat) (d : ProdDesc) (mode : RndMode)
    (record : Option (Bytes × Bytes)) : State × Bool :=
  let drained := ((s.core.task t).elim 0 Task.tiles) - base
  (d.tiles.zipIdx.drop drained).foldl (fun (p : State × Bool) e =>
    let s := p.1
    if !p.2 || !s.core.live t then p
    else
      let blks := d.tileReads e.1
      let fs := s.core.feeds x t
      if !(fs.all fun f => blks.all (s.core.fed x f)) then (s, false) else
      let s1 := s.readOperands t x cu fs blks []
      if !s1.core.live t then (s1, true)
      else if s1.core.rangesBlocked (blockRanges blks) then (s1, false)
      else (s1.runTile t x cu banks d mode record (s1.core.opMem x fs) e.1 e.2, true)) (s, true)

/-- A fused task runs (R164, R195): what it accumulated stays in its two banks, and its rows' m and l in the vector unit (R196). -/
def State.runFused (s : State) (t : TaskRef) (x : Nat) (k : Task) (d1 d2 : ProdDesc) (r : RowDesc) (key : KeyBlock) : State × Bool :=
  let dflt := s.core.stochDefault x
  let blks := fusedReads d1 d2 r
  let rs := r.reads d1
  let fs := s.core.feeds x t
  if !(fs.all fun f => (blks ++ rs.flatMap fun q => blocksOf q.1 q.2).all (s.core.fed x f)) then (s, false) else
  let s1 := s.readOperands t x k.cu fs blks rs
  if !s1.core.live t then (s1, true)
  else if s1.core.rangesBlocked (blockRanges blks ++ rs) then (s1, false)
  else
    let w := s1.core.fusedWrites (s1.core.opMem x fs) d1 d2 r (d1.stoch dflt) (d2.stoch dflt) key
    let s2 := s1.withCore fun c =>
      (c.fillBank k.cu (k.banks.getD 0 0) w.bank0).fillBank k.cu (k.banks.getD 1 0) w.bank1
    ((s2.taskWrites t x w.writes).withCore fun c => c.setTask t fun k => { k with rowML := w.rowML, flags := Nat.lor k.flags w.flags }, true)

/-- A task's operation is done. -/
def Core.computedTask (c : Core) (t : TaskRef) : Core := c.setTask t fun k => { k with computed := true }

/-- The products of a task as its descriptors, read at its start, give them (R150 to R168, R190 to R196). False where a part waits for
memory. -/
def State.runParts (s : State) (t : TaskRef) (x : Nat) (k : Task) (args : Bytes) : State × Bool :=
  let p := s.core.prodOf x k.desc.engine k.desc.args args
  let dflt := s.core.stochDefault x
  let keyB := (p.key.getD []).take 32
  let key := readKey keyB
  match p.d2, p.row with
  | some d2, some r => s.runFused t x k p.d1 d2 r key
  | some d2, none =>
    let r1 := s.runTiles t x k.cu 0 (k.banks.take 2) p.d1 (keyMode (p.d1.stoch dflt) key 0) none
    if r1.2 then r1.1.runTiles t x k.cu p.d1.count (k.banks.drop 2) d2 (keyMode (d2.stoch dflt) key 0) none else r1
  | none, _ =>
    let keyBytes := if p.key.isSome then keyB else List.replicate 32 0
    s.runTiles t x k.cu 0 k.banks p.d1 (keyMode (p.d1.stoch dflt) key 0) (some (args.take 64, keyBytes))

/-- A product task runs as far as it can. -/
def State.runProduct (s : State) (t : TaskRef) (x : Nat) : State :=
  match s.core.task t with
  | none => s
  | some k =>
    match k.args with
    | none => s
    | some b =>
      let run := s.runParts t x k b
      if run.1.core.live t && run.2 then run.1.withCore (·.computedTask t) else run.1

/-- Accumulator banks of an array that are free: not kept, and not another task's (R157). -/
def Core.freeBanks (c : Core) (cu : Nat) (arrayB : Bool) : List Nat :=
  (if arrayB then [2, 3] else [0, 1]).filter fun b => !(c.keptBanks cu).contains b
    && !(c.running.any fun p => p.2.cu = cu && p.2.banks.contains b)

/-- Step 1 of R157 on one array: the banks, or the overflow's bytes requested and free. -/
def Core.wantBanks (c : Core) (cu : Nat) (arrayB : Bool) (need : Nat) : (Nat × Nat) ⊕ List Nat :=
  let free := c.freeBanks cu arrayB
  if free.length < need then .inl (65536 * need, 65536 * free.length) else .inr (free.take need)

/-- The local-SRAM allocations of a product task in the order of R157, and the score stage of R194. -/
def prodAllocs (p : ProdTask) : List Nat :=
  let one := fun (d : ProdDesc) => operandBuffers d.shape d.fp8
  let drain := fun (d : ProdDesc) =>
    if d.out = 5 then [] else [(shapeDims d.shape).1 * (shapeDims d.shape).2.1 * elemBytes (outCode d.out)]
  let ds := p.d1 :: p.d2.toList
  ds.map one ++ ds.flatMap drain ++ (if p.row.isSome then [32768] else [])
    ++ p.row.elim [] fun r => if r.fn = 0 ∧ 2 ≤ r.j then [4 * p.d1.m * p.d1.n] else []

/-- Storage is allocated at a task's start (R157, R158, R163); false where it overflows. The detail of an accumulator overflow counts all
the banks that the task asks for at once, its bytes cut to the field's 24 bits (log entry 151); for a product larger than one bank the bytes
free are one bank's (log entry 191). -/
def Core.allocProduct (c : Core) (t : TaskRef) (cu : Nat) (arrayB : Bool) (p : ProdTask) : Core × Bool :=
  let d2 := p.d2.getD p.d1
  let fused := p.row.isSome
  let big := max (p.d1.m * p.d1.n) (d2.m * d2.n)
  let perTask := fun (d : ProdDesc) => if 1 < d.count then 2 else 1
  let banks : (Nat × Nat) ⊕ List Nat :=
    if fused && 16384 < big then .inl (4 * big, 65536)
    else if fused then c.wantBanks cu arrayB 2
    else if p.d2.isSome then
      match c.wantBanks cu false (perTask p.d1), c.wantBanks cu true (perTask d2) with
      | .inl e, _ => .inl e
      | _, .inl e => .inl e
      | .inr a, .inr b => .inr (a ++ List.replicate (2 - a.length) (a.getD 0 0) ++ b)
    else c.wantBanks cu arrayB (perTask p.d1)
  match banks with
  | .inl e => (c.overflow t 1 e.1 e.2, false)
  | .inr bs =>
    (prodAllocs p).foldl (fun (r : Core × Bool) n => if r.2 then r.1.allocate t cu n else r)
      (c.setTask t fun k => { k with banks := bs }, true)

/-- The tile engine at a product task's start (R156, R169): its descriptors are read, their sectors first, checked before any array
cycle, and storage allocated. Where a sector waits for a repair they are read again after it. -/
def State.readProduct (s : State) (t : TaskRef) (x : Nat) : State :=
  match s.core.task t with
  | none => s
  | some k =>
    match s.core.argBytes x k.desc.engine k.desc.args with
    | none => s.withCore fun c => c.raiseTask t 0x0704 k.desc.args
    | some b =>
      let key := (s.core.prodOf x k.desc.engine k.desc.args b).key.isSome
      let n := if key then b.length else min b.length (prodBytes k.desc.engine b)
      let a := s.core.resolve x k.desc.args
      let s1 := s.readRange t a n
      if !s1.core.live t || s1.core.rangesBlocked [(a, n)] then s1
      else
        let p := s1.core.prodOf x k.desc.engine k.desc.args b
        match s1.core.prodCheck x k.desc.engine p with
        | some e => s1.withCore fun c => c.raiseTask t e.1 e.2
        | none =>
          let r := s1.core.allocProduct t k.cu (k.unit = some .arrayB) p
          { s1 with core := if r.2 then r.1.setTask t fun k => { k with args := some b } else r.1 }

/-- A product task goes on as far as it can: its descriptors are read once, and its products run unless their writes wait (R386). -/
def State.goProduct (s : State) (t : TaskRef) (x : Nat) (stalls : State → Task → Bool) : State :=
  let fresh := (s.core.task t).elim false fun k => k.args.isNone
  let s1 := if fresh then s.orWait (.task t) fun s => s.readProduct t x else s
  match s1.core.task t with
  | some k =>
    if k.phase ≠ .running || k.args.isNone || stalls s1 k then s1 else s1.orWait (.task t) fun s => s.runProduct t x
  | none => s1

/-- A repair task (R369): the record's descriptor runs again, and rewrites only the sectors pending repair; operand sectors that step 1
repairs are fetched before. Where the task would not fit a span, or an input is not intact, the sector is poisoned (step 3 of Table 12-2). -/
def State.repairOne (s : State) (r : Repair) : State :=
  let a := 64 * r.sector
  let s1 := s.withCore (·.dropRepair r.sector)
  match s.intactLineage a with
  | none => s1.poisonSector r.sector r.log r.reader
  | some l =>
    let d := (readProd l.desc 0).place (s.core.resolve (l.ctx % 64))
    if spanCycles s.pick.period10 s.pick.windowUs s.pick.step < d.cycles + 64 then
      s1.poisonSector r.sector r.log r.reader
    else if !(s.core.badInputs l).isEmpty then (s.core.badInputs l).foldl (fun s sec => s.detect sec r.reader) s
    else
      let key := readKey l.key
      let x := l.ctx % 64
      let ws := s.core.tileWrites s.core.mem d (keyMode (d.stoch (s.core.stochDefault x)) key 0) d.first
      let bytes := ws.flatMap fun w => w.2.zipIdx.map fun b => (w.1 + b.2, b.1)
      let data := (List.range 64).map fun i =>
        ((bytes.find? fun b => b.1 = a + i).map Prod.snd).getD (s.core.memByte s.core.mem (a + i))
      let s2 := ((s1.repairWrite r.sector .valid (some data)).withCore fun c => c.patchStores a data).logOutcome r.log 1
      ({ s2 with integ := { s2.integ with recompute := s1.integ.recompute + 1 } }).integEvent 1

/-- The cycles of the repair task that a record gives (R136, R369). -/
def State.repairCycles (s : State) (l : Lineage) : Nat := ((readProd l.desc 0).place (s.core.resolve (l.ctx % 64))).cycles

/-- The next repair task of a context starts on array A of a CU (R369): it mends the pending sectors of its record, and takes the array for
its length. One that fits the span no more waits for the next. -/
def State.startRepair (s : State) (x cu cycle : Nat) : State :=
  match s.core.repairs.find? fun r => !r.fetch && r.ctx = x with
  | none => s
  | some r =>
    let span := spanCycles s.pick.period10 s.pick.windowUs s.pick.step
    let l := s.intactLineage (64 * r.sector)
    let len := l.elim 0 s.repairCycles
    if len + 64 ≤ span && span < cycle + len + 64 then s else
    let mine := s.core.repairs.filter fun q => !q.fetch && q.ctx = x && s.intactLineage (64 * q.sector) = l
    let runs := len + 64 ≤ span && l.elim false fun l => (s.core.badInputs l).isEmpty
    let s1 := mine.foldl State.repairOne s
    if runs then s1.withCore fun c => { c with pm := { c.pm with mending := (x, cu, cycle + len) :: c.pm.mending } } else s1

end Sys2Proof.Machine
end

