-- ==== Sys2Proof/Machine/Vector.lean ====
section
/-! DEFINITION. Sys2Proof/Machine/Vector.lean: the vector unit, the special-function unit and the row instructions
(06_rowwise.md; SMERGE and SFINAL of 07_attention.md), on the local SRAM of the task's CU. -/

namespace Sys2Proof.Machine

/-- The rounding directions a kernel selects. -/
def dirOf : RoundDir → Rnd
  | .nearestEven => .ne
  | .towardZero => .tz
  | .up => .up
  | .down => .dn

/-- The mode of a conversion: stochastic where the kernel gives a stream (Table 9-5). -/
def modeOf (sr : Option RandKey) : RndMode :=
  sr.map fun k => fun i => randBits k.seed k.stream k.step k.layer (k.pos + i)

/-- What one vector command reads and writes: it runs while its task runs, on the task's CU, its results becoming the
task's flags and the CU's local SRAM. A range past the end of local SRAM is an allocation that does not fit (R16). -/
def State.onVector (s : State) (t : TaskRef) (ends : List Nat) (f : Core → Nat → List (Nat × Bytes) × Nat) : Res :=
  match s.core.task t with
  | none => .next s
  | some x =>
    if !s.operational || x.phase ≠ .running || 2 < x.desc.engine then .next s
    else
      let past := ends.foldl max 0
      if sramBytes < past then .next (s.tellAborts (s.withCore fun c => c.overflow t 0 past (c.sramFree x.cu)))
      else
        let r := f s.core x.cu
        let c1 := r.1.foldl (fun (c : Core) w => c.sramWrite x.cu w.1 w.2) s.core
        .next { s with core := c1.setTask t fun y => { y with flags := Nat.lor y.flags r.2 } }

/-- Flags of several results together. -/
def flagsOf (l : List FR) : Nat := l.foldl (fun a r => Nat.lor a r.fl) 0

/-- A quiet result: a NaN becomes the canonical one. -/
def quiet (b : Nat) : Nat := if isNan32 b then 0x7FC00000 else b

/-- The rank of a value among the ten classes of IEEE 754: signaling NaN, quiet NaN, and −∞, −normal, −subnormal, −0, +0,
+subnormal, +normal, +∞. -/
def classOf (b : Nat) : Nat :=
  let e := bits b 30 23
  let m := b % 2 ^ 23
  if e = 255 ∧ m ≠ 0 then (if bitOf b 22 then 1 else 0)
  else
    let k := if e = 255 then 0 else if e ≠ 0 then 1 else if m ≠ 0 then 2 else 3
    if bitOf b 31 then 2 + k else 9 - k

/-- The INT32 bits of a value rounded by a direction (Table 6-1), with its flags. -/
def toInt32 (dir : Rnd) (b : Nat) : FR :=
  match ofF32 b with
  | .fin neg m e =>
    let s := splitAtExp m e 0
    let k := signed neg (s.1 + b2n (dir.up? neg s.1 s.2.1 s.2.2))
    if -(2 ^ 31 : Int) ≤ k ∧ k < 2 ^ 31 then { v := toI32 k, fl := if s.2.1 ≠ 0 then 16 else 0 }
    else { v := Config.intResult 3 b 0 % 2 ^ 32, fl := 1 }
  | _ => { v := Config.intResult 3 b 0 % 2 ^ 32, fl := 1 }

/-- A shift of an INT32 word; an amount of 32 or more gives a free value. -/
def shift32 (kind a n : Nat) : Nat :=
  if 32 ≤ n then Config.intResult kind a n % 2 ^ 32
  else match kind with
    | 0 => a * 2 ^ n % 2 ^ 32
    | 1 => a / 2 ^ n
    | _ => toI32 (i32 a / (2 ^ n : Nat))

/-- A compare's result: its code, and invalid for a NaN where the compare is an ordered one or for a signaling NaN. -/
def compareOf (a b : Nat) (ordered out : Bool) : FR :=
  let nan := isNan32 a || isNan32 b
  { v := Config.cmpCode out % 2 ^ 32, fl := b2n (signaling a || signaling b || (ordered && nan)) }

/-- An operand of a format narrower than FP32, exactly, a signaling NaN of it raising invalid (Table 6-1, R173); every NaN is the
canonical one (R172). -/
def FR.widen (f : Fmt) (a : Nat) : FR :=
  ⟨toF32 (f.decode false a), b2n ((f.decode false a).isNan && !f.e4m3 && !bitOf a (f.mb - 1))⟩

/-- A conversion to BF16 or FP16. -/
def convertFR (f : Fmt) (mode : RndMode) (i a : Nat) : FR :=
  let v := ofF32 a
  let r := f.convert mode i v
  { v := r, fl := convFlags v (f.decode false r) a }

/-- One element of a vector operation that is not a block conversion (Table 6-1). -/
def vecElem (op : VecOp) (dir : Rnd) (mode : RndMode) (i a b c : Nat) : FR :=
  match op with
  | .add => .add dir ⟨a, 0⟩ ⟨b, 0⟩
  | .sub => .sub dir ⟨a, 0⟩ ⟨b, 0⟩
  | .mul => .mul dir ⟨a, 0⟩ ⟨b, 0⟩
  | .fma => .fma dir ⟨a, 0⟩ ⟨b, 0⟩ ⟨c, 0⟩
  | .neg => ⟨quiet (Nat.xor a (2 ^ 31)), 0⟩
  | .abs => ⟨quiet (a % 2 ^ 31), 0⟩
  | .div => .div dir ⟨a, 0⟩ ⟨b, 0⟩
  | .sqrt => .sqrt dir ⟨a, 0⟩
  | .min => .min ⟨a, 0⟩ ⟨b, 0⟩
  | .max => .max ⟨a, 0⟩ ⟨b, 0⟩
  | .cmpLt => compareOf a b true ((ofF32 a).lt (ofF32 b))
  | .cmpLe => compareOf a b true (!(isNan32 a || isNan32 b) && FV.le (ofF32 a) (ofF32 b))
  | .cmpEq => compareOf a b false
      (!(isNan32 a || isNan32 b) && FV.le (ofF32 a) (ofF32 b) && FV.le (ofF32 b) (ofF32 a))
  | .cmpUn => compareOf a b false (isNan32 a || isNan32 b)
  | .select => ⟨quiet (if c = Config.cmpCode true % 2 ^ 32 then a else b), 0⟩
  | .classify => ⟨Config.classCode (classOf a) % 2 ^ 32, 0⟩
  | .toBf16 => convertFR bf16 mode i a
  | .toFp16 => convertFR fp16 mode i a
  | .toInt32 => toInt32 dir a
  | .ofBf16 => .widen bf16 a
  | .ofFp16 => .widen fp16 a
  | .ofInt32 => .ofFV dir [] (.ofInt (i32 a) 0 false) 0
  | .iadd => ⟨(a + b) % 2 ^ 32, 0⟩
  | .isub => ⟨(a + 2 ^ 32 - b) % 2 ^ 32, 0⟩
  | .ishl => ⟨shift32 0 a b, 0⟩
  | .ishrl => ⟨shift32 1 a b, 0⟩
  | .ishra => ⟨shift32 2 a b, 0⟩
  | .iand => ⟨Nat.land a b, 0⟩
  | .ior => ⟨Nat.lor a b, 0⟩
  | .ixor => ⟨Nat.xor a b, 0⟩
  | _ => ⟨0, 0⟩

/-- Bytes of a vector operation's source and result elements. -/
def vecWidths : VecOp → Nat × Nat
  | .readRowML => (4, 8)
  | .toBf16 => (4, 2) | .toFp16 => (4, 2) | .toE4m3 => (4, 1) | .toE5m2 => (4, 1)
  | .ofBf16 => (2, 4) | .ofFp16 => (2, 4) | .ofE4m3 => (1, 4) | .ofE5m2 => (1, 4)
  | _ => (4, 4)

/-- Bytes that a vector operation over n elements writes at its destination. -/
def vecOut (op : VecOp) (n : Nat) : Nat := if op = .readFlags then 4 else (vecWidths op).2 * n

/-- An FP8 block of a row converted (R148): its scale, and its elements with the flags of what each loses against the value that its
code stands for. -/
def fp8Block (f : Fmt) (mode : RndMode) (i : Nat) (vs : List Nat) : Nat × List FR :=
  let q := quantBlock f mode i (vs.map ofF32)
  (q.1, (vs.zip q.2).map fun p => ⟨p.2, convFlags (ofF32 p.1) (scaled f false q.1 p.2) p.1⟩)

/-- The FP8 blocks of a row converted in turn from element position i (R148): scales and elements. -/
def quantRow (f : Fmt) (mode : RndMode) : Nat → Nat → List Nat → List Nat × List FR
  | 0, _, _ => ([], [])
  | fuel + 1, i, vs =>
    if vs.isEmpty then ([], []) else
    let q := fp8Block f mode i (vs.take 32)
    let r := quantRow f mode fuel (i + 32) (vs.drop 32)
    (q.1 :: r.1, q.2 ++ r.2)

/-- An FP8 conversion back: exact, and a free value where the product lies outside FP32; with its flags. -/
def fp8Value (f : Fmt) (e8 v : Nat) : FR :=
  let r := fp32.ieee .ne (scaled f false e8 v)
  ⟨if r.2 < 4 then r.1 else Config.free 5 (e8 * 256 + v) % 2 ^ 32, Nat.lor r.2 (FR.widen f v).fl⟩

/-- The results of a vector operation over n elements: writes to local SRAM and flags. In an FP8 conversion the scales lie
at `b`; a fused task's m and l are read row by row (R196). -/
def vecResult (s : State) (t : TaskRef) (op : VecOp) (dir : Rnd) (mode : RndMode) (n dst a b k : Nat) (c : Core) (cu : Nat) :
    List (Nat × Bytes) × Nat :=
  let p := s.pick.counter
  let w := vecWidths op
  let src := c.sramRead p cu a (w.1 * n)
  let xa := fun i => fieldAt src (w.1 * i) w.1
  let sb := c.sramRead p cu b (4 * n)
  let sk := c.sramRead p cu k (4 * n)
  let toFp8 := fun (f : Fmt) =>
    let q := quantRow f mode (n / 32 + 1) 0 ((List.range n).map xa)
    ([(dst, packVals 1 (q.2.map FR.v)), (b, packVals 1 q.1)], flagsOf q.2)
  let ofFp8 := fun (f : Fmt) =>
    let rs := (List.range n).map fun i => fp8Value f (byteAt sb (i / 32)) (xa i)
    ([(dst, packVals 4 (rs.map FR.v))], flagsOf rs)
  match op with
  | .toE4m3 => toFp8 e4m3
  | .toE5m2 => toFp8 e5m2
  | .ofE4m3 => ofFp8 e4m3
  | .ofE5m2 => ofFp8 e5m2
  | .readFlags => ([(dst, leBytes 4 (Config.flagWord ((c.task t).elim 0 Task.flags)))], 0)
  | .clearFlags => ([], 0)
  | .readRowML => ([(dst, packVals 4 ((((c.task t).elim [] Task.rowML).take n).flatMap fun r => [r.1, r.2]))], 0)
  | _ =>
    let rs := (List.range n).map fun i => vecElem op dir mode i (xa i) (fieldAt sb (4 * i) 4) (fieldAt sk (4 * i) 4)
    ([(dst, packVals w.2 (rs.map FR.v))], flagsOf rs)

/-- VECTOR_OP (Table 6-1, R172, R173): a word-wise operation, conversion or flag access of a task's kernel. -/
def execVectorOp (t : TaskRef) (op : VecOp) (rm : RoundDir) (sr : Option RandKey) (n dst a b c : Nat) (s : State) : Res :=
  let w := vecWidths op
  let run := s.onVector t [dst + vecOut op n, a + w.1 * n, b + 4 * n, c + 4 * n]
    (vecResult s t op (dirOf rm) (modeOf sr) n dst a b c)
  match op with
  | .clearFlags => match s.core.task t with
    | some x => if s.operational && x.phase = .running && x.desc.engine ≤ 2 then
        .next (s.withCore fun c => c.setTask t fun y => { y with flags := 0 }) else .next s
    | none => .next s
  | _ => run

/-- One partial combined into another; a lane without elements leaves its partner as it is. -/
def joinLane (f : FR → FR → FR) : Option FR → Option FR → Option FR
  | some a, some b => some (f a b)
  | some a, none => some a
  | none, b => b

/-- One level of the tree of R174: partial 2j takes partial 2j + 1 as its right operand. -/
def treeLevel (f : FR → FR → FR) : List (Option FR) → List (Option FR)
  | a :: b :: l => joinLane f a b :: treeLevel f l
  | l => l

/-- The six levels of the tree of R174 over 64 lane partials. -/
def tree64 (f : FR → FR → FR) (l : List (Option FR)) : Option FR :=
  let g := treeLevel f
  (g (g (g (g (g (g l)))))).getD 0 none

/-- The elements of lane k of n, ascending. -/
def laneIdx (n k : Nat) : List Nat := (List.range ((n + 63 - k) / 64)).map fun j => 64 * j + k

/-- A sum by lanes and tree in a rounding direction (R172, R174), `step` adding element i. -/
def laneTree (dir : Rnd) (n : Nat) (step : FR → Nat → FR) : FR :=
  (tree64 (.add dir) ((List.range 64).map fun k => some ((laneIdx n k).foldl step ⟨0, 0⟩))).getD ⟨0, 0⟩

/-- The same to nearest even. -/
def laneSum (n : Nat) (step : FR → Nat → FR) : FR := laneTree .ne n step

/-- A maximum or minimum by lanes and tree (R174); a NaN is the canonical one (R172). DESIGN CHOICE (log 202): of a row
with no element, +0. -/
def laneBest (f : FR → FR → FR) (n : Nat) (x : Nat → FR) : FR :=
  let lane := fun k => match laneIdx n k with
    | [] => none
    | i :: l => some (l.foldl (fun a j => f a (x j)) (x i))
  let r := (tree64 f ((List.range 64).map lane)).getD ⟨0, 0⟩
  { r with v := quiet r.v }

/-- A row as its words. -/
def rowAt (l : List Nat) (i : Nat) : FR := ⟨l.getD i 0, 0⟩

/-- A row reduction (Table 6-1, R174); a sum of products adds each product by a fused multiply-add (R189). -/
def reduceRow (op : RowOp) (dir : Rnd) (a b : List Nat) : FR :=
  match op with
  | .sum => laneTree dir a.length fun s i => .add dir s (rowAt a i)
  | .sumProd => laneTree dir a.length fun s i => .fma dir (rowAt a i) (rowAt b i) s
  | .max => laneBest FR.max a.length (rowAt a)
  | .min => laneBest FR.min a.length (rowAt a)

/-- ROW_REDUCTION (R172, R174): the result goes to one FP32 word. -/
def execRowReduction (t : TaskRef) (op : RowForm) (n dst a b : Nat) (s : State) : Res :=
  s.onVector t [dst + 4, a + 4 * n, b + 4 * n] fun c cu =>
    let p := s.pick.counter
    let r := reduceRow op.op (dirOf op.dir) (c.sramRow p cu a n) (c.sramRow p cu b n)
    ([(dst, leBytes 4 r.v)], r.fl)

/-- SFU_REQUEST (R175 to R181): n FP32 arguments, results of 4 or 2 bytes by the output mode. A reserved function code of
Table 6-2 asks for nothing that the table names. -/
def execSfuRequest (t : TaskRef) (fn : Nat) (bf : Bool) (n dst a : Nat) (s : State) : Res :=
  if 9 < fn then .next s else
  let w := if bf then 2 else 4
  s.onVector t [dst + w * n, a + 4 * n] fun c cu =>
    ([(dst, packVals w ((c.sramRow s.pick.counter cu a n).map (sfu fn bf)))], 0)

/-- An element that is not finite. -/
def notFinite32 (b : Nat) : Bool := !(ofF32 b).isFin

/-- S1 and S2 of R182 for a row and a shift. -/
def moments (x : List Nat) (c : Nat) : FR × FR :=
  let d := fun i => FR.sub .ne (rowAt x i) ⟨c, 0⟩
  (laneSum x.length fun s i => .add .ne s (d i), laneSum x.length fun s i => .fma .ne (d i) (d i) s)

/-- Mean and variance from the moments of n elements (R182). -/
def meanVar (n c : Nat) (m : FR × FR) : FR × FR :=
  let nn : FR := ⟨fOfNat n, 0⟩
  let q := FR.div .ne m.1 nn
  let var := FR.div .ne (FR.sub .ne m.2 (FR.mul .ne m.1 q)) nn
  let v := if isNan32 var.v then var else if bitOf var.v 31 then { var with v := 0 } else var
  (FR.add .ne ⟨c, 0⟩ q, v)

/-- `ROWSTAT` on a row (R182 to R184). -/
def rowstat (x : List Nat) (shiftZero : Bool) : FR × FR :=
  let c := if shiftZero then 0 else x.getD 0 0
  let r := meanVar x.length c (moments x c)
  if x.any notFinite32 then ({ r.1 with v := 0x7FC00000 }, { r.2 with v := 0x7FC00000 }) else r

/-- What a chunk of a long row leaves to the kernel (R185): S1, S2, its count, and whether an element is not finite. -/
structure ChunkStat where
  s1  : FR
  s2  : FR
  n   : Nat
  bad : Bool
  deriving DecidableEq, Repr

/-- The moments of a chunk by a shift (R182, R185). -/
def chunkStat (x : List Nat) (c : Nat) : ChunkStat :=
  let m := moments x c
  { s1 := m.1, s2 := m.2, n := x.length, bad := x.any notFinite32 }

/-- The partials of two chunks, added in FP32 (R185). -/
def ChunkStat.plus (a b : ChunkStat) : ChunkStat :=
  { s1 := .add .ne a.s1 b.s1, s2 := .add .ne a.s2 b.s2, n := a.n + b.n, bad := a.bad || b.bad }

/-- The statistics of a row from its chunks in ascending order (R185). -/
def joinStat (c : Nat) : List ChunkStat → FR × FR
  | [] => (⟨0x7FC00000, 0⟩, ⟨0x7FC00000, 0⟩)
  | k :: l =>
    let z := l.foldl ChunkStat.plus k
    let r := meanVar z.n c (z.s1, z.s2)
    if z.bad then ({ r.1 with v := 0x7FC00000 }, { r.2 with v := 0x7FC00000 }) else r

/-- A chunk's record in local SRAM, of four words. -/
def ChunkStat.words (k : ChunkStat) : List Nat := [k.s1.v, k.s2.v, k.n, b2n k.bad]

/-- The chunk's record read back. -/
def readChunk (l : List Nat) (i : Nat) : ChunkStat :=
  { s1 := rowAt l (4 * i), s2 := rowAt l (4 * i + 1), n := l.getD (4 * i + 2) 0, bad := l.getD (4 * i + 3) 0 ≠ 0 }

/-- ROWSTAT (R182, R185): the mean and variance of a row of up to 65,536 elements, two FP32 words; the record of one chunk of a longer
row; or the mean and variance of the row whose n chunk records lie at `x`, 2^24 elements at most (log entry 153). -/
def execRowstat (t : TaskRef) (form : StatForm) (n dst x : Nat) (s : State) : Res :=
  if n = 0 || 65536 < n then .next s else
  let p := s.pick.counter
  match form with
  | .row zero => s.onVector t [dst + 8, x + 4 * n] fun c cu =>
    let r := rowstat (c.sramRow p cu x n) zero
    ([(dst, packVals 4 [r.1.v, r.2.v])], Nat.lor r.1.fl r.2.fl)
  | .chunk shift => s.onVector t [dst + 16, x + 4 * n] fun c cu =>
    let k := chunkStat (c.sramRow p cu x n) shift.toNat
    ([(dst, packVals 4 k.words)], Nat.lor k.s1.fl k.s2.fl)
  | .join shift => s.onVector t [dst + 8, x + 16 * n] fun c cu =>
    let l := c.sramRow p cu x (4 * n)
    let ks := (List.range n).map (readChunk l)
    if 2 ^ 24 < (ks.map ChunkStat.n).sum then ([], 0) else
    let r := joinStat shift.toNat ks
    ([(dst, packVals 4 [r.1.v, r.2.v])], Nat.lor r.1.fl r.2.fl)

/-- The normalized row of `LNORM` (R187, R188): r and the elements. DESIGN CHOICE (log 201): by R182 over the whole row, of more
than 65,536 elements too. -/
def lnormRow (x g b : List Nat) (eps : Nat) : Nat × Nat × List FR :=
  let st := rowstat x false
  let z := FR.add .ne st.2 ⟨eps, 0⟩
  let r := sfu 5 false z.v
  let ys := (List.range x.length).map fun i =>
    let w := if z.v = 0 then (⟨0, z.fl⟩ : FR) else .mul .ne (.sub .ne (rowAt x i) st.1) ⟨r, z.fl⟩
    FR.fma .ne w (rowAt g i) (rowAt b i)
  (st.1.v, r, ys)

/-- LNORM (R187, R188): the row, and at `stat` the mean and r. -/
def execLnorm (t : TaskRef) (n dst x gamma beta stat : Nat) (eps : BitVec 32) (s : State) : Res :=
  if n = 0 then .next s else
  s.onVector t [dst + 4 * n, x + 4 * n, gamma + 4 * n, beta + 4 * n, stat + 8] fun c cu =>
    let p := s.pick.counter
    let r := lnormRow (c.sramRow p cu x n) (c.sramRow p cu gamma n) (c.sramRow p cu beta n) eps.toNat
    ([(dst, packVals 4 (r.2.2.map FR.v)), (stat, packVals 4 [r.1, r.2.1])], flagsOf r.2.2)

/-- The normalized row of `RMSNORM` (R187, R188). -/
def rmsnormRow (x g : List Nat) (eps : Nat) : Nat × List FR :=
  let z := FR.add .ne (FR.div .ne (moments x 0).2 ⟨fOfNat x.length, 0⟩) ⟨eps, 0⟩
  let r := sfu 5 false z.v
  (r, (List.range x.length).map fun i =>
    FR.mul .ne (if z.v = 0 then (⟨0, z.fl⟩ : FR) else .mul .ne (rowAt x i) ⟨r, z.fl⟩) (rowAt g i))

/-- RMSNORM (R187, R188): the row, and at `stat` r. -/
def execRmsnorm (t : TaskRef) (n dst x gamma stat : Nat) (eps : BitVec 32) (s : State) : Res :=
  if n = 0 then .next s else
  s.onVector t [dst + 4 * n, x + 4 * n, gamma + 4 * n, stat + 4] fun c cu =>
    let p := s.pick.counter
    let r := rmsnormRow (c.sramRow p cu x n) (c.sramRow p cu gamma n) eps.toNat
    ([(dst, packVals 4 (r.2.map FR.v)), (stat, leBytes 4 r.1)], flagsOf r.2)

/-- The input gradient of a normalized row (R189), without the mean's term for `RMSNORM_BWD`. -/
def normBwdRow (x dy g : List Nat) (mean : Option Nat) (r : Nat) : List FR :=
  let n := x.length
  let nn : FR := ⟨fOfNat n, 0⟩
  let xh := fun i => FR.mul .ne (.sub .ne (rowAt x i) ⟨mean.getD 0, 0⟩) ⟨r, 0⟩
  let gi := fun i => FR.mul .ne (rowAt dy i) (rowAt g i)
  let a := laneSum n fun s i => .add .ne s (gi i)
  let b := laneSum n fun s i => .fma .ne (gi i) (xh i) s
  let an := FR.div .ne a nn
  let bn := FR.div .ne b nn
  (List.range n).map fun i =>
    let xb := FR.mul .ne (xh i) bn
    let inner := if mean.isSome then FR.add .ne an xb else xb
    FR.mul .ne ⟨r, 0⟩ (.sub .ne (gi i) inner)

/-- LNORM_BWD (R189), with mean and r at `stat`. -/
def execLnormBwd (t : TaskRef) (n dst x dy gamma stat : Nat) (s : State) : Res :=
  if n = 0 then .next s else
  s.onVector t [dst + 4 * n, x + 4 * n, dy + 4 * n, gamma + 4 * n, stat + 8] fun c cu =>
    let p := s.pick.counter
    let st := c.sramRow p cu stat 2
    let r := normBwdRow (c.sramRow p cu x n) (c.sramRow p cu dy n) (c.sramRow p cu gamma n) (some (st.getD 0 0)) (st.getD 1 0)
    ([(dst, packVals 4 (r.map FR.v))], flagsOf r)

/-- RMSNORM_BWD (R189), with r at `stat`. -/
def execRmsnormBwd (t : TaskRef) (n dst x dy gamma stat : Nat) (s : State) : Res :=
  if n = 0 then .next s else
  s.onVector t [dst + 4 * n, x + 4 * n, dy + 4 * n, gamma + 4 * n, stat + 4] fun c cu =>
    let p := s.pick.counter
    let st := c.sramRow p cu stat 1
    let r := normBwdRow (c.sramRow p cu x n) (c.sramRow p cu dy n) (c.sramRow p cu gamma n) none (st.getD 0 0)
    ([(dst, packVals 4 (r.map FR.v))], flagsOf r)

/-- One row of `SMERGE` (R197): each partial is o, m and l in one list of d + 2 words. A NaN in any part of either makes
every part of the result NaN. -/
def smergeRow (d : Nat) (a b : List Nat) : List FR :=
  let al := a.getD (d + 1) 0
  let bl := b.getD (d + 1) 0
  let keep := fun (l : List Nat) => l.map fun v => (⟨v, 0⟩ : FR)
  if (a ++ b).any isNan32 then List.replicate (d + 2) ⟨0x7FC00000, b2n ((a ++ b).any signaling)⟩
  else if bl = 0 then keep a
  else if al = 0 then keep b
  else
    let mm := FR.max (rowAt a d) (rowAt b d)
    let below := fun (m : FR) => let d := FR.sub .ne m mm; (⟨sfu 0 false d.v, d.fl⟩ : FR)
    let wa := FR.mul .ne (below (rowAt a d)) ⟨al, 0⟩
    let wb := FR.mul .ne (below (rowAt b d)) ⟨bl, 0⟩
    let l := FR.add .ne wa wb
    let os := (List.range d).map fun i =>
      FR.div .ne (FR.fma .ne (rowAt a i) wa (FR.mul .ne (rowAt b i) wb)) l
    os ++ [mm, l]

/-- SMERGE (R197): merges the span partial at `b` into the running partial at `a`, one row. -/
def execSmerge (t : TaskRef) (d a b : Nat) (s : State) : Res :=
  s.onVector t [a + 4 * (d + 2), b + 4 * (d + 2)] fun c cu =>
    let p := s.pick.counter
    let r := smergeRow d (c.sramRow p cu a (d + 2)) (c.sramRow p cu b (d + 2))
    ([(a, packVals 4 (r.map FR.v))], flagsOf r)

/-- SFINAL (R198): closes a running partial of one row: d BF16 outputs, then the FP32 log-sum-exp. -/
def execSfinal (t : TaskRef) (sr : Option RandKey) (d row dst a : Nat) (s : State) : Res :=
  s.onVector t [dst + 2 * d + 4, a + 4 * (d + 2)] fun c cu =>
    let p := s.pick.counter
    let x := c.sramRow p cu a (d + 2)
    let l := x.getD (d + 1) 0
    if isZero32 l then ([(dst, packVals 2 (List.replicate d 0) ++ leBytes 4 0x7F800000)], 0)
    else
      let os := (List.range d).map fun i => convertFR bf16 (modeOf sr) (row * d + i) (x.getD i 0)
      let lse := FR.add .ne (rowAt x d) ⟨sfu 2 false l, 0⟩
      ([(dst, packVals 2 (os.map FR.v) ++ leBytes 4 lse.v)], Nat.lor (flagsOf os) lse.fl)

end Sys2Proof.Machine
end

