-- ==== Sys2Proof/Machine/Train.lean ====
section
/-! DEFINITION. Sys2Proof/Machine/Train.lean: the update engine (R264 to R274) and the fill engine (R342, R351). -/

namespace Sys2Proof.Machine

/-- The optimizer fields of an update descriptor (Table 9-2). -/
structure UpdateDesc where
  opt   : Nat
  mom   : Nat
  gfmt  : Nat
  flags : Nat
  count : Nat
  first : Nat
  hi    : Nat
  lo    : Nat
  grad  : Nat
  m     : Nat
  v     : Nat
  norm  : Nat
  seed  : Nat
  step  : Nat
  layer : Nat
  par   : List Nat
  deriving DecidableEq, Repr

/-- An update descriptor read from its 128 bytes. -/
def readUpdate (b : Bytes) : UpdateDesc :=
  { opt := byteAt b 0, mom := byteAt b 1, gfmt := byteAt b 2, flags := byteAt b 3, count := fieldAt b 0xC 4
    first := fieldAt b 0x10 8, hi := fieldAt b 0x18 8, lo := fieldAt b 0x20 8, grad := fieldAt b 0x28 8
    m := fieldAt b 0x30 8, v := fieldAt b 0x38 8, norm := fieldAt b 0x40 8, seed := fieldAt b 0x48 8
    step := fieldAt b 0x50 4, layer := fieldAt b 0x54 4, par := (List.range 10).map fun k => fieldAt b (0x58 + 4 * k) 4 }

/-- An update descriptor with its device addresses resolved (R399). -/
def UpdateDesc.place (f : Nat → Nat) (d : UpdateDesc) : UpdateDesc :=
  { d with hi := f d.hi, lo := f d.lo, grad := f d.grad, m := f d.m, v := f d.v, norm := f d.norm }

/-- Parameter k of a descriptor: LR, B1, B2, OMB1, OMB2, EPS, WD, BC1, BC2, MAX_NORM. -/
def UpdateDesc.p (d : UpdateDesc) (k : Nat) : Nat := d.par.getD k 0

def UpdateDesc.gsz (d : UpdateDesc) : Nat := if d.gfmt = 1 then 2 else 4
def UpdateDesc.msz (d : UpdateDesc) : Nat := if d.mom = 1 then 2 else 4

/-- The clip factor of R274, or none where the task is skipped (R270). -/
def clipFactor (d : UpdateDesc) (s : Nat) : Option Nat :=
  if d.norm = 0 then some 0x3F800000
  else if (isNan32 s || s = 0x7F800000) && bitOf d.flags 0 then none
  else
    let n := fSqrt s
    let mx := d.p 9
    if !isNan32 n && FV.le (ofF32 n) (ofF32 mx) then some 0x3F800000 else some (fDiv mx n)

/-- What the update engine reads of one element: gradient, master, first and second moment, as FP32 patterns. -/
structure UpdElem where
  g : Nat
  w : Nat
  m : Nat
  v : Nat
  deriving DecidableEq, Repr

/-- The first moment, the second moment and the master after one element's update (R267, R268). -/
def updateElem (d : UpdateDesc) (c : Nat) (e : UpdElem) : Nat × Nat × Nat :=
  let g := fMul e.g c
  if d.opt = 0 then
    let m1 := fFma (d.p 1) e.m (fMul (d.p 3) g)
    let v1 := fFma (d.p 2) e.v (fMul (d.p 4) (fMul g g))
    let u := fDiv (fMul m1 (d.p 7)) (fAdd (fSqrt (fMul v1 (d.p 8))) (d.p 5))
    (m1, v1, fSub e.w (fMul (d.p 0) (fFma (d.p 6) e.w u)))
  else
    let m1 := fFma (d.p 1) e.m g
    (m1, e.v, fSub e.w (fMul (d.p 0) (fFma (d.p 6) e.w m1)))

/-- A moment as it is stored (R269). -/
def UpdateDesc.storeMoment (d : UpdateDesc) (stream x v : Nat) : Bytes :=
  if d.mom = 1 then leBytes 2 (bf16.stochastic (randBits d.seed stream d.step d.layer x) (ofF32 v)) else leBytes 4 v

/-- A gradient or moment as it is read (R265, R269). -/
def widen (sz v : Nat) : Nat := if sz = 2 then toF32 (bf16.decode false v) else v

/-- The reads of element i of an update task, through a reader of little-endian fields. -/
def UpdateDesc.elem (d : UpdateDesc) (rd : Nat → Nat → Nat) (i : Nat) : UpdElem :=
  let x := d.first + i
  { g := widen d.gsz (rd (d.grad + x * d.gsz) d.gsz), w := rd (d.hi + 2 * x) 2 * 65536 + rd (d.lo + 2 * x) 2
    m := widen d.msz (rd (d.m + x * d.msz) d.msz)
    v := if d.opt = 0 then widen d.msz (rd (d.v + x * d.msz) d.msz) else 0 }

/-- The arrays an AdamW or SGD task writes, each as one run of bytes (R267, R268). -/
def UpdateDesc.runs (d : UpdateDesc) (rd : Nat → Nat → Nat) (c : Nat) : List (Nat × Bytes) :=
  let r := (List.range d.count).map fun i => updateElem d c (d.elem rd i)
  [(d.hi + 2 * d.first, r.flatMap fun e => leBytes 2 (e.2.2 / 65536)),
   (d.lo + 2 * d.first, r.flatMap fun e => leBytes 2 e.2.2),
   (d.m + d.first * d.msz, r.zipIdx.flatMap fun e => d.storeMoment 2 (d.first + e.2) e.1.1)]
  ++ if d.opt = 0 then
    [(d.v + d.first * d.msz, r.zipIdx.flatMap fun e => d.storeMoment 3 (d.first + e.2) e.1.2.1)] else []

/-- FP64 addition, rounded to nearest even. -/
def dAdd (a b : Nat) : Nat := (fp64.ieee .ne (.add .ne (fp64.decode false a) (fp64.decode false b))).1

/-- One level of an FP64 tree (R174, R273). -/
def dLevel : List Nat → List Nat
  | a :: b :: l => dAdd a b :: dLevel l
  | l => l

/-- The sum of squares of R273, by lanes and tree in FP64. -/
def sumSquares (n : Nat) (g : Nat → Nat) : Nat :=
  let sq := fun i => FV.mul (ofF32 (g i)) (ofF32 (g i))
  let lane := fun k => (laneIdx n k).foldl (fun acc i => (fp64.ieee .ne (.add .ne (fp64.decode false acc) (sq i))).1) 0
  (dLevel (dLevel (dLevel (dLevel (dLevel (dLevel ((List.range 64).map lane))))))).getD 0 0

/-- What a `NORM` task writes at `NORM_ADDR` (R273). -/
def UpdateDesc.normBytes (d : UpdateDesc) (rd : Nat → Nat → Nat) : Bytes :=
  let s := sumSquares d.count fun i => widen d.gsz (rd (d.grad + (d.first + i) * d.gsz) d.gsz)
  let t := if bitOf d.flags 1 then dAdd (rd d.norm 8) s else s
  leBytes 8 t ++ if bitOf d.flags 2 then leBytes 4 (toF32 (fp64.decode false t)) else []

/-- The first of some ranges that reaches past the live objects of a context (R317). -/
def Core.outside (c : Core) (x : Nat) (rs : List (Nat × Nat)) : Option Nat :=
  (rs.find? fun r => r.2 ≠ 0 && (c.find x r.1 r.2).isNone).map Prod.fst

/-- An engine reads a range (R59, R317, R362), up to its task's own end by a fault. -/
def State.engineRange (s : State) (t : TaskRef) (x : Nat) (r : Nat × Nat) : State :=
  if !s.core.live t then s
  else if (s.core.outside x [r]).isSome then s.withCore fun c => c.raiseTask t 0x0704 r.1
  else (sectorsOf r.1 r.2).foldl (fun (s : State) sec =>
    if s.core.live t then s.readSector (some (.engine t)) (64 * sec) {} else s) s

/-- An engine reads ranges in turn. -/
def State.engineReads (s : State) (t : TaskRef) (x : Nat) (rs : List (Nat × Nat)) : State :=
  rs.foldl (fun s r => s.engineRange t x r) s

/-- An engine task writes its results into shadow blocks (R60). None where a pool is empty and it stalls (R335). -/
def Core.engineWrites (c : Core) (x : Nat) (ws : List (Nat × Bytes)) : Option Core :=
  ws.foldl (fun (r : Option Core) w => r.bind fun c =>
    let p := c.engineWrite x w.1 w.2 false
    if p.2 then some p.1 else none) (some c)

/-- The end of an engine task's own operation: its writes, an access outside the context's objects (R317), or the stall of R335. -/
def State.engineDone (s : State) (t : TaskRef) (x : Nat) (ws : List (Nat × Bytes)) : State :=
  match s.core.outside x (ws.map fun w => (w.1, w.2.length)) with
  | some a => s.withCore fun c => c.raiseTask t 0x0704 a
  | none =>
  let held := ws.flatMap fun w => s.awaited (s.core.resolve x w.1) w.2.length false
  if !held.isEmpty then s.noteSnoop held else
  match s.core.engineWrites x ws with
  | some c =>
    let s1 := ws.foldl (fun (s : State) w => s.cancelRepairs w.1 w.2.length) { s with core := c }
    let replayed := (c.task t).elim false fun k => k.round.isSome
    let note := fun (c : Core) (w : Nat × Bytes) =>
      if replayed then c.noteUpdate t.jno w.1 w.2.length else c.noteWriter t.jno w.1 w.2.length
    (s1.withCore fun c => ws.foldl note c).withCore (·.computedTask t)
  | none => s.memEvent 2

/-- An update task's own operation (R265 to R274). A skip leaves everything as it is and is counted (R270, R271). -/
def State.runUpdate (s : State) (t : TaskRef) (x : Nat) : State :=
  match s.core.task t with
  | none => s
  | some k =>
    let d := (readUpdate (s.core.argsOf x k 128)).place (s.core.resolve x)
    let rd := fun a n => s.core.numIn s.core.mem a n
    let arr := fun (a sz : Nat) => (a + d.first * sz, d.count * sz)
    let reads := (s.core.resolve x k.desc.args, 128) :: arr d.grad d.gsz ::
      (if d.opt = 2 then (if bitOf d.flags 1 then [(d.norm, 8)] else [])
       else [arr d.hi 2, arr d.lo 2, arr d.m d.msz] ++ (if d.opt = 0 then [arr d.v d.msz] else [])
        ++ (if d.norm ≠ 0 then [(d.norm, 4)] else []))
    let s1 := s.engineReads t x reads
    if !s1.core.live t || s1.core.rangesBlocked reads then s1
    else if d.opt = 2 then s1.engineDone t x [(d.norm, d.normBytes rd)]
    else match clipFactor d (rd d.norm 4) with
      | none => s1.withCore fun c => (c.setTask t fun k => { k with skips := 1 }).computedTask t
      | some c =>
        let item := HeldItem.replay t.jno (s.core.argsOf x k 128) (if d.norm = 0 then 0 else rd d.norm 4) (cuDie k.cu) k.desc.length
        let note := fun (q : Core) => { q with pm := { q.pm with replays := q.pm.replays ++ [(x, cuDie k.cu, item)] } }
        let persist := (s1.core.obj (addrIndex d.hi)).elim false fun o => o.cls = 0
        let s2 := s1.engineDone t x (d.runs rd c)
        if persist && (s2.core.task t).elim false Task.computed then s2.withCore note else s2

/-- The beam regions of a harness, and its frames' capacity in blocks. -/
def Core.beamCount (c : Core) (x : Nat) : Nat := c.draft.elim 0 fun d => (d.tier (c.ctx x).harness).beam

/-- A beam load lists the blocks that the commit step makes the frame's content (R342). -/
def Core.loadFrame (c : Core) (h no : Nat) (blks : List Nat) : Core :=
  let has := c.onchip.frames.any fun f => f.harness = h && f.no = no
  let set := fun (f : Frame) => if f.harness = h ∧ f.no = no then { f with loading := some blks } else f
  let fs := if has then c.onchip.frames.map set
    else c.onchip.frames ++ [{ harness := h, no := no, blocks := [], loading := some blks }]
  { c with onchip := { c.onchip with frames := fs } }

/-- A fill task's own operation (Table 11-10, R342, R351); no block of a single-home object stands in a frame (R331). -/
def State.runFill (s : State) (t : TaskRef) (x : Nat) : State :=
  match s.core.task t with
  | none => s
  | some k =>
    let b := s.core.argsOf x k 64
    let op := byteAt b 0
    let dst := s.core.resolve x (fieldAt b 8 8)
    let src := s.core.resolve x (fieldAt b 0x10 8)
    let n := fieldAt b 0x18 8
    let blks := (List.range (n / 16384)).map (16384 * ·)
    let reads := (s.core.resolve x k.desc.args, 64) :: if op = 0 then [] else [(src, n)]
    let s1 := s.engineReads t x reads
    if !s1.core.live t || s1.core.rangesBlocked reads then s1
    else if op = 0 then
      let shaped := (s1.core.obj (addrIndex dst)).elim false fun o => o.format ≠ 6
      let data := fillBlock shaped (fieldAt b 0x20 8)
      s1.engineDone t x (blks.map fun o => (dst + o, data))
    else if op = 1 then
      s1.engineDone t x (blks.map fun o => (dst + o, s1.core.memBytes s1.core.mem (src + o) 16384))
    else
      let single := (s1.core.obj (addrIndex src)).elim false Obj.single
      let held := if single then [] else blks.map (src + ·)
      s1.withCore fun c => (c.loadFrame (c.ctx x).harness (byteAt b 1) held).computedTask t

end Sys2Proof.Machine
end

