-- ==== Sys2Proof/Machine/Reed.lean ====
section
/-! DEFINITION. Sys2Proof/Machine/Reed.lean: collectives (10_reed.md): the header exchange, mismatches, counts, the order of
reduction, gathers, and what a lost or held module does to its groups. -/

namespace Sys2Proof.Machine

/-- A reed descriptor (Table 10-1). -/
structure ReedDesc where
  op    : Nat
  ty    : Nat
  oper  : Nat
  flags : Nat
  group : Nat
  ch    : Nat
  dies  : Nat
  count : Nat
  send  : Nat
  recv  : Nat
  recvN : Nat
  peer  : Nat
  src   : Nat
  vers  : Nat
  cnts  : Nat
  deriving DecidableEq, Repr

/-- A reed descriptor read from its 64 bytes. -/
def readReed (b : Bytes) : ReedDesc :=
  { op := byteAt b 0, ty := byteAt b 1, oper := byteAt b 2, flags := byteAt b 3, group := fieldAt b 4 2
    ch := byteAt b 6, dies := byteAt b 7, count := fieldAt b 8 8, send := fieldAt b 0x10 8, recv := fieldAt b 0x18 8
    recvN := fieldAt b 0x20 8, peer := fieldAt b 0x28 2, src := fieldAt b 0x2C 4, vers := fieldAt b 0x30 8
    cnts := fieldAt b 0x38 8 }

def ReedDesc.dieList (d : ReedDesc) : List Nat := diesOf d.dies
def ReedDesc.k (d : ReedDesc) : Nat := d.dieList.length
def ReedDesc.es (d : ReedDesc) : Nat := reedElem d.ty
def ReedDesc.c3 (d : ReedDesc) : Bool := bitOf d.flags 4
def ReedDesc.version (d : ReedDesc) : Nat := bits d.flags 3 2

/-- The packed address whose rank a context's tasks take: the twin's for an absorbed context (R33). -/
def State.rankAddr (s : State) (x : Nat) : Nat :=
  if (s.core.ctx x).absorbedTag then twinAddr s.myAddr else s.myAddr

/-- The rank of an address in a group. -/
def Group.rankOf (g : Group) (a : Nat) : Option Nat := g.members.findIdx? (· = a)

/-- A descriptor of a context's task as it stands: its group and its addresses as they are kept here (R33). -/
def Core.placeReed (c : Core) (x : Nat) (b : Bytes) : ReedDesc :=
  let d := readReed b
  let f := c.resolve x
  { d with group := c.groupId x d.group, send := f d.send, recv := f d.recv, vers := f d.vers, cnts := f d.cnts }

/-- The descriptor of a reed task. -/
def Core.reedDesc (c : Core) (t : TaskRef) : ReedDesc :=
  match c.task t, c.taskCtx t with
  | some k, some x => c.placeReed x (c.argsOf x k 64)
  | _, _ => readReed []

/-- What the tasks of one module part have equal (R289). -/
def ReedDesc.shared (d : ReedDesc) : ReedDesc := { d with send := 0, recv := 0, vers := 0, cnts := 0 }

/-- The channel a reed task takes: its own, or its group's default (Table 3-7), among those of its address. -/
def Core.reedChannel (c : Core) (x : Nat) (d : ReedDesc) : Nat :=
  let own := if d.ch = 0xFF then
      ((c.draft.bind fun dr => dr.groups.find? (·.id = d.group % 256)).elim 0 GroupDef.channel) else d.ch
  own % 32 + if (c.ctx x).absorbedTag then 32 else 0

/-- The instance count of a group on a channel, for a peer rank where counts are kept by peer (R288). -/
def Group.count (g : Group) (ch peer : Nat) : Nat :=
  ((g.counts.find? fun e => e.1 = ch && e.2.1 = peer).map fun e => e.2.2).getD 0

/-- The count rises by one. -/
def Group.bump (g : Group) (ch peer : Nat) : Group :=
  { g with counts := (ch, peer, g.count ch peer + 1) :: g.counts.filter fun e => !(e.1 = ch && e.2.1 = peer) }

/-- A group changed. -/
def Core.setGroup (c : Core) (id : Nat) (f : Group → Group) : Core :=
  { c with groups := c.groups.map fun g => if g.id = id then f g else g }

/-- The rank a count is kept for: the peer's for `SEND` and `RECV` (R288). -/
def ReedDesc.peerKey (d : ReedDesc) : Nat := if d.op = 5 ∨ d.op = 6 then d.peer / max d.k 1 else 0xFFFF

/-- The descriptor hash of a collective (R294). -/
def ReedDesc.hash (d : ReedDesc) (ch epoch inst : Nat) : Nat :=
  let v := d.op = 8 ∨ d.op = 9
  hashWords 0
    [d.op + d.ty * 256 + d.oper * 65536 + d.flags % 32 * 2 ^ 24, d.group % 256 + d.dies * 65536 + ch % 32 * 2 ^ 24, epoch,
     if v then 0xFFFFFFFF else d.count % 2 ^ 32, if v then 0xFFFFFFFF else d.count / 2 ^ 32, d.peer, inst, 0]

/-- The hashes that match in the other members' headers: the module's own; for a `SEND` or a `RECV`, which only its mirror image
completes, that of the opposite operation whose `PEER` is one of this module's participants (DEDUCED, log entry 66). -/
def ReedDesc.awaited (d : ReedDesc) (ch epoch inst me : Nat) : List Nat :=
  if d.op = 5 ∨ d.op = 6 then
    (List.range d.k).map fun i => { d with op := 11 - d.op, peer := me * d.k + i }.hash ch epoch inst
  else [d.hash ch epoch inst]

/-- A header frame (Table 10-4). -/
def headerFrame (hash group ch op epoch inst rank n version count pick : Nat) : Bytes :=
  let b := leBytes 8 hash ++ leBytes 2 (group % 256) ++ leBytes 1 ch ++ leBytes 1 op ++ leBytes 4 epoch ++ leBytes 4 inst
    ++ leBytes 2 rank ++ leBytes 2 n ++ leBytes 4 version ++ leBytes 4 0 ++ leBytes 8 count ++ leBytes 8 pick ++ leBytes 12 0
  b ++ leBytes 4 (crc32c b)

/-- A collective header's payload has a reserved bit or encoding set (Table 10-4). -/
def headerReserved (b : Bytes) : Bool :=
  !zeroAt b 0x1C 4 || !zeroAt b 0x30 12 || (byteAt b 0xA ≠ 0xFF && 32 ≤ byteAt b 0xA) || (byteAt b 0xB ≠ 0x80 && 10 ≤ byteAt b 0xB)

/-- The version of a weight object as a header carries it (R257). -/
def Core.objVersion (c : Core) (x id : Nat) : Nat :=
  match c.objById x id with
  | some (_, o) => o.versionNow
  | none => 0

/-- The ranks that must send a header (R293): every other member, or the peer alone. -/
def ReedDesc.others (d : ReedDesc) (g : Group) (me : Nat) : List Nat :=
  let all := (List.range g.members.length).filter (· ≠ me)
  if d.op = 5 ∨ d.op = 6 then all.filter (· = d.peerKey) else all

/-- A rank of a group is of the other address that this module holds (R33). -/
def State.rankInside (s : State) (g : Group) (me r : Nat) : Bool :=
  s.twin.holds && g.members.getD r 0 = twinAddr (g.members.getD me 0)

/-- Data goes to a rank in data frames, or crosses to the other address that this module holds (R33, R451). -/
def State.toRank (s : State) (ch : Nat) (g : Group) (me r : Nat) (data : Bytes) : State :=
  if s.rankInside g me r then s.withCore fun c => c.setChan ((ch + 32) % 64) fun y => { y with data := y.data ++ [(me, pad64 data)] }
  else s.sendBytes (ch % 32) (g.members.getD me 0) (g.members.getD r 0) data

/-- A header goes to a rank as a collective header frame (Table 16-2); a reed header takes its channel's `TRAFFIC`, a shuttle header its
direction's (log entry 183). -/
def State.sendHeader (s : State) (traffic : Nat) (g : Group) (me r : Nat) (hdr : Bytes) : State :=
  s.sendFrame 5 traffic (g.members.getD me 0) (g.members.getD r 0) hdr

/-- The part tasks of an instance with their descriptors, in die order. -/
def Core.reedParts (c : Core) (ch : Nat) : List (TaskRef × ReedDesc × Nat) :=
  let ps := (c.chan ch).parts.map fun t => (t, c.reedDesc t, cuDie ((c.task t).elim 0 Task.cu))
  (List.range 4).flatMap fun j => ps.filter fun p => p.2.2 = j

/-- A channel's instance as its steps use it: the channel, its group and this module's rank in it, the parts' tasks with their
descriptors in die order, the context, and the descriptor of the first part, which the others share but for its addresses. -/
structure ReedInst where
  k     : Chan
  g     : Group
  me    : Nat
  parts : List (TaskRef × ReedDesc)
  x     : Nat
  d     : ReedDesc
  deriving DecidableEq, Repr

/-- The members of the group. -/
def ReedInst.n (i : ReedInst) : Nat := i.g.members.length

/-- The participants (R286). -/
def ReedInst.np (i : ReedInst) : Nat := i.n * i.d.k

/-- The other ranks that the instance exchanges headers with. -/
def ReedInst.others (i : ReedInst) : List Nat := i.d.others i.g i.me

/-- The descriptors of the parts. -/
def ReedInst.descs (i : ReedInst) : List ReedDesc := i.parts.map Prod.snd

/-- The instance of a channel, while all its tasks run. -/
def State.inst (s : State) (ch : Nat) : Option ReedInst :=
  let c := s.core
  let k := c.chan ch
  match c.group k.group, c.reedParts ch with
  | some g, p :: ps =>
    let x := (c.taskCtx p.1).getD 0
    if !((p :: ps).all fun q => c.live q.1) then none
    else (g.rankOf (s.rankAddr x)).map fun me =>
      { k := k, g := g, me := me, parts := (p :: ps).map fun q => (q.1, q.2.1), x := x, d := p.2.1 }
  | _, _ => none

/-- The DETAIL of `COLL.MISMATCH` (Table 10-8). -/
def mismatchDetail (group ch sender : Nat) : Nat := group % 256 * 2 ^ 48 + ch * 2 ^ 40 + sender

/-- A group as it is kept for a channel's address. -/
def chanGroup (ch group : Nat) : Nat := group + if 32 ≤ ch ∧ ch < 64 then 256 else 0

/-- Reed tasks that have not ended and name a channel and a group: the group's pending instances (R296). -/
def Core.pendingOn (c : Core) (ch group : Nat) : Bool :=
  c.orders.any fun o => (c.ctxOf o.ctx).elim false fun x => o.tasks.any fun k =>
    k.desc.engine = 3 && (k.phase = .waiting || k.phase = .running)
      && (let d := c.placeReed x (c.argsOf x k 64); d.group = group && c.reedChannel x d = ch)

/-- A mismatch notice on a reed channel (R296): the current instance of either group faults, and a pending one faults when it
starts. -/
def State.mismatchNotice (s : State) (ch groupA groupB sender : Nat) : State :=
  let k := s.core.chan ch
  let hit := s.core.current ch && (k.group % 256 = groupA || k.group % 256 = groupB)
  let s1 := if hit then s.failInstance ch 0x0901 (mismatchDetail k.group (ch % 32) sender) else s
  let due := [groupA, groupB].eraseDups.filter fun g => s1.core.pendingOn ch (chanGroup ch g)
  s1.withCore fun c => c.setChan ch fun y =>
    { y with noticed := due.map (fun g => (g, sender)) ++ y.noticed.filter fun e => !due.contains e.1 }

/-- A mismatch found by this module (R296): notices to both groups, and the fault here, at both addresses it holds (R33). -/
def State.mismatch (s : State) (ch other sender : Nat) : State :=
  let g := (s.core.chan ch).group % 256
  let s1 := (s.emit (.collMismatch (ch % 32) g other sender)).reedEvent 0
  let s2 := s1.mismatchNotice ch g other sender
  if s.twin.holds then s2.mismatchNotice (otherChan ch) g other sender else s2

/-- An elements' list in a type: FP32 patterns, or INT32 words (R299). -/
def reedElems (ty : Nat) (b : Bytes) : List Nat :=
  let es := reedElem ty
  (List.range (b.length / es)).map fun i =>
    let v := fieldAt b (es * i) es
    match ty with
    | 1 => toF32 (bf16.decode false v)
    | 2 => toF32 (fp16.decode false v)
    | _ => v

/-- `combine` of R299. -/
def combine (ty oper a b : Nat) : Nat :=
  if ty = 5 then
    match oper with
    | 0 => (a + b) % 2 ^ 32
    | 1 => if i32 a < i32 b then b else a
    | _ => if i32 b < i32 a then b else a
  else match oper with
    | 0 => fAdd a b
    | 1 => fMax a b
    | _ => fMin a b

/-- `combine` where a term may be missing. -/
def combineOpt (ty oper : Nat) : Option Nat → Option Nat → Option Nat
  | some a, some b => some (combine ty oper a b)
  | some a, none => some a
  | none, b => b

/-- The module part of an element: dies in pairs (R299). -/
def modulePart (ty oper : Nat) (xs : List (Nat × Nat)) : Option Nat :=
  let at_ := fun j => (xs.find? (·.1 = j)).map Prod.snd
  combineOpt ty oper (combineOpt ty oper (at_ 0) (at_ 1)) (combineOpt ty oper (at_ 2) (at_ 3))

/-- The wire of R299: C3 (R349) where it is set. -/
def wireC3 (c3 : Bool) (v : Nat) : Nat := if c3 then toF32 (bf16.decode false (bf16.narrow (ofF32 v))) else v

/-- Node parts in ascending node order (R299): members are in rank order, so a node's two are adjacent. -/
def nodeParts (ty oper : Nat) (c3 : Bool) : List (Nat × Option Nat) → List (Option Nat)
  | (a, x) :: (b, y) :: l =>
    if a / 2 = b / 2 then combineOpt ty oper x (y.map (wireC3 c3)) :: nodeParts ty oper c3 l
    else x :: nodeParts ty oper c3 ((b, y) :: l)
  | [(_, x)] => [x]
  | [] => []
termination_by l => l.length

/-- One element of a reduction over the members' packed addresses and their dies' terms (R299). -/
def reduceElem (ty oper : Nat) (c3 : Bool) (xs : List (Nat × List (Nat × Nat))) : Nat :=
  match nodeParts ty oper c3 (xs.map fun p => (p.1, modulePart ty oper p.2)) with
  | [] => 0
  | r :: l => (l.foldl (fun run p => combineOpt ty oper (run.map (wireC3 c3)) p) r).getD 0

/-- The result as it is delivered (R299). -/
def deliver (ty v : Nat) : Bytes :=
  match ty with
  | 1 => leBytes 2 (bf16.narrow (ofF32 v))
  | 2 => leBytes 2 (fp16.narrow (ofF32 v))
  | _ => leBytes 4 v

/-- The bytes of memory an engine sends. -/
def Core.engineRead (c : Core) (a n : Nat) : Bytes := c.memBytes c.mem a n

/-- The send counts of an `ALL_TO_ALL_V` participant. -/
def Core.sendCounts (c : Core) (d : ReedDesc) (np : Nat) : List Nat :=
  (List.range np).map fun i => c.numIn c.mem (d.cnts + 8 * i) 8

/-- Prefix sum of counts before entry i. -/
def before (l : List Nat) (i : Nat) : Nat := (l.take i).sum

/-- The counts that one part of an `ALL_TO_ALL_V` sends to the participants of rank r (R297). -/
def Core.partCounts (c : Core) (d : ReedDesc) (np r : Nat) : Bytes :=
  ((c.sendCounts d np).drop (r * d.k)).take d.k |>.flatMap (leBytes 8)

/-- The ranges that the part that is the module's participant i sends to the participants of rank r, in die order (Table 10-2,
R297). -/
def Core.partRanges (c : Core) (d : ReedDesc) (np r me i : Nat) : List (Nat × Nat) :=
  let n := d.count * d.es
  let k := d.k
  let mine := (List.range k).map (r * k + ·)
  match d.op with
  | 0 => [(d.send, n)]
  | 1 => mine.map fun j => (d.send + j * n, n)
  | 2 => [(d.send, pieceBytes d.ty d.count)]
  | 3 => mine.map fun j => (d.send + j * n, n)
  | 4 => if d.peer = me * k + i then [(d.send, n)] else []
  | 5 => [(d.send, n)]
  | 8 => [(d.send, pieceBytes d.ty d.count)]
  | 9 =>
    let l := c.sendCounts d np
    mine.map fun j => (d.send + before l j * d.es, l.getD j 0 * d.es)
  | _ => []

/-- The bytes of some ranges. -/
def Core.readAll (c : Core) (rs : List (Nat × Nat)) : Bytes := rs.flatMap fun r => c.engineRead r.1 r.2

/-- What the parts of a module send to rank r, as the ranges of each in die order. -/
def Core.rankRanges (c : Core) (ds : List ReedDesc) (np r me : Nat) : List (List (Nat × Nat)) :=
  ds.zipIdx.map fun q => c.partRanges q.1 np r me q.2

/-- A range cut at the tile blocks. -/
def cutBlocks (r : Nat × Nat) : List (Nat × Nat) :=
  if r.2 = 0 then [] else (blocksOf r.1 r.2).map fun b =>
    let a := max r.1 b
    (a, min (r.1 + r.2) (b + 16384) - a)

/-- The numbers, in the order of its drains, of a product task's output tiles that cover a block. -/
def Core.tileNos (c : Core) (x : Nat) (y : Task) (blk : Nat) : List Nat :=
  match y.args.orElse fun _ => c.argBytes x y.desc.engine y.desc.args with
  | none => []
  | some b =>
    let p := c.prodOf x y.desc.engine y.desc.args b
    let of := fun (d : ProdDesc) (base : Nat) =>
      (d.tiles.zipIdx.filter fun e => (d.tileBlocks e.1).contains blk).map fun e => base + e.2
    of p.d1 0 ++ p.d2.elim [] fun d => of d p.d1.count

/-- A block of a streaming task's send range may leave (R301): the output tiles of its dependencies that cover it have drained, or, where
none covers it, its dependencies have ended. -/
def Core.drained (c : Core) (x : Nat) (t : TaskRef) (blk : Nat) : Bool :=
  let deps := ((c.task t).elim [] fun k => k.desc.deps).filterMap fun i => c.task ⟨t.jno, i⟩
  let covers := (deps.filter fun y => y.desc.engine ≤ 1).map fun y => (y, c.tileNos x y blk)
  if covers.all fun e => e.2.isEmpty then deps.all fun y => y.phase = .ended
  else covers.all fun e => e.1.computed || e.1.phase = .ended || e.2.all (· < e.1.tiles)

/-- The pieces that leave for rank r, in order, each with its part's task: tile block by tile block where the task streams (R301). -/
def Core.sendPieces (c : Core) (i : ReedInst) (r : Nat) : List (TaskRef × Nat × Nat) :=
  (i.parts.zip (c.rankRanges i.descs i.np r i.me)).flatMap fun p =>
    p.2.flatMap fun e => (if bitOf i.d.flags 0 then cutBlocks e else [e]).map fun e => (p.1.1, e)

/-- A piece may leave. -/
def Core.pieceReady (c : Core) (i : ReedInst) (p : TaskRef × Nat × Nat) : Bool :=
  !bitOf i.d.flags 0 || c.drained i.x p.1 (blockOf p.2.1)

/-- The whole send range of an instance may leave (R301). -/
def Core.streamReady (c : Core) (i : ReedInst) : Bool :=
  (List.range i.n).all fun r => (c.sendPieces i r).all (c.pieceReady i)

/-- What a reed task reads before any data moves: the send counts of an `ALL_TO_ALL_V`, and the version list that it checks. -/
def ReedDesc.listRanges (d : ReedDesc) (n np : Nat) : List (Nat × Nat) :=
  (if d.op = 9 then [(d.cnts, 8 * np)] else []) ++ (if d.version = 2 then [(d.vers, 4 * n)] else [])

/-- What a reed task reads whatever its rank, for the host's lines (R440). -/
def ReedDesc.readRanges (d : ReedDesc) (n np : Nat) : List (Nat × Nat) :=
  let piece := pieceBytes d.ty d.count
  (match d.op with
    | 0 => [(d.send, d.count * d.es)]
    | 1 => [(d.send, np * d.count * d.es)]
    | 2 => [(d.send, piece)]
    | 3 => [(d.send, np * d.count * d.es)]
    | 5 => [(d.send, d.count * d.es)]
    | 8 => [(d.send, piece)]
    | _ => []) ++ d.listRanges n np

/-- The parts of an instance read ranges in turn, each as its own task (R59, R317, R362). None where a part has faulted or waits for a
repair. -/
def State.partsRead (s : State) (rs : List (TaskRef × List (Nat × Nat))) (x : Nat) : State × Bool :=
  rs.foldl (fun (p : State × Bool) e =>
    if !p.2 then p else
    let s1 := p.1.engineReads e.1 x e.2
    (s1, s1.core.live e.1 && !s1.core.rangesBlocked e.2)) (s, true)

/-- A channel that takes data: the frames that found no credit land (R284). -/
def Chan.opened (k : Chan) (st : ChanState) : Chan :=
  { k with state := st, credits := [], data := k.data ++ k.excess.map (fun e => (e.rank, e.data)), excess := [] }

/-- The count phase of an `ALL_TO_ALL_V` begins: every other rank is sent the counts destined for it (R297), and what follows begins with
a frame of its own (log entry 184). -/
def State.sendCountPhase (s : State) (ch : Nat) : State :=
  match s.inst ch with
  | none => s
  | some i =>
    let s1 := i.others.foldl (fun (s : State) r =>
      s.toRank ch i.g i.me r (i.descs.flatMap fun d => s.core.partCounts d i.np r)) s
    s1.withCore fun c => c.setChan ch (Chan.opened · .counts)

/-- The data phase of an instance begins, and the instance can be served again (R309): for as long as its group is lost or in an epoch
of an absorption, and else for two picks more (R307). -/
def State.beginData (s : State) (ch : Nat) : State :=
  match s.inst ch with
  | none => s
  | some i =>
    let raw := fun (t : TaskRef) => (s.core.task t).elim [] fun k => s.core.argsOf i.x k 64
    let sv : Served :=
      { group := i.g.id, inst := i.k.inst, peer := i.k.peer, pick := s.pick.counter, ctx := i.x, me := i.me, hdr := i.k.hdr
        descs := i.parts.map fun p => raw p.1 }
    let keep := fun (v : Served) => s.pick.counter ≤ v.pick + 2 || (s.core.group v.group).elim false fun g => g.lost || g.served
    s.withCore fun c => c.setChan ch fun y => { y.opened .data with served := sv :: y.served.filter keep }

/-- What is ready of an instance's data leaves for a rank, once its sectors read sound (R301, R362): whole 64-byte units, and at the end of
the data what is left (R451). -/
def State.sendRank (s : State) (ch : Nat) (i : ReedInst) (r : Nat) : State :=
  let k := s.core.chan ch
  let all := s.core.sendPieces i r
  let n := (getKey k.sentTo r).getD 0
  let due := (all.drop n).takeWhile (s.core.pieceReady i)
  let q := s.partsRead (due.map fun p => (p.1, [p.2])) i.x
  if due.isEmpty || !q.2 then q.1
  else
    let b := (getKey k.carry r).getD [] ++ q.1.core.readAll (due.map Prod.snd)
    let m := if n + due.length = all.length then b.length else b.length / 64 * 64
    let s1 := q.1.withCore fun c => c.setChan ch fun y =>
      { y with sentTo := putKey y.sentTo r (n + due.length), carry := putKey y.carry r (b.drop m) }
    if m = 0 then s1 else s1.toRank ch i.g i.me r (b.take m)

/-- What is ready of an instance's data leaves for every other rank. -/
def State.sendData (s : State) (ch : Nat) : State :=
  match s.inst ch with
  | none => s
  | some i => if (s.core.chan ch).state = .data then i.others.foldl (fun s r => s.sendRank ch i r) s else s

/-- All that an instance sends has left. -/
def Core.allSent (c : Core) (ch : Nat) (i : ReedInst) : Bool :=
  i.others.all fun r => (c.sendPieces i r).length ≤ (getKey (c.chan ch).sentTo r).getD 0

/-- Bytes received from a rank, in order. -/
def Chan.fromRank (k : Chan) (r : Nat) : Bytes := (k.data.filter (·.1 = r)).flatMap Prod.snd

/-- The bytes a rank's data must have for the instance, where that is fixed by the descriptor. -/
def ReedDesc.expects (d : ReedDesc) (r : Nat) : Nat :=
  let n := d.count * d.es
  let k := d.k
  match d.op with
  | 0 => k * n
  | 1 => k * k * n
  | 3 => k * k * n
  | 4 => if d.peer / max k 1 = r then n else 0
  | 6 => if d.peer / max k 1 = r then k * n else 0
  | _ => 0

/-- What member r's die number j contributes to piece i, out of its bytes. -/
def ReedDesc.piece (d : ReedDesc) (b : Bytes) (j i : Nat) : Bytes :=
  let n := d.count * d.es
  let at_ := if d.op = 0 then j else j * d.k + i
  (b.drop (at_ * n)).take n

/-- The counts a member of an `ALL_TO_ALL_V` sent: for each of its dies, one for each participant of this module. They come
first (R297). -/
def countsFrom (k : Nat) (b : Bytes) : List (List Nat) :=
  (List.range k).map fun j => (List.range k).map fun i => fieldAt b (8 * (j * k + i)) 8

/-- Bytes of the frame units that carry `n` bytes (R451). -/
def units64 (n : Nat) : Nat := (n + 63) / 64 * 64

/-- The counts and pieces of an `ALL_TO_ALL_V` from a member, by its dies and this module's participants: the pieces follow the
counts' frame units in the same order. -/
def varPieces (k es : Nat) (b : Bytes) : List (List (Nat × Bytes)) :=
  let cs := countsFrom k b
  let flat := cs.flatten
  let body := b.drop (units64 (8 * k * k))
  cs.zipIdx.map fun r => r.1.zipIdx.map fun e => (e.1, (body.drop (before flat (r.2 * k + e.2) * es)).take (e.1 * es))

/-- The counts, and the pieces they name, are there. -/
def varWhole (k es : Nat) (b : Bytes) : Bool :=
  units64 (8 * k * k) ≤ b.length && (countsFrom k b).flatten.sum * es ≤ b.length - units64 (8 * k * k)

/-- Every piece of data that an instance waits for is there. -/
def Core.dataHere (c : Core) (ch : Nat) (i : ReedInst) : Bool :=
  let k := c.chan ch
  match i.d.op with
  | 2 => (List.range i.np).all k.pieces.contains
  | 8 => (List.range i.np).all k.pieces.contains
  | 9 => i.others.all fun r => varWhole i.d.k i.d.es (k.fromRank r)
  | _ => i.others.all fun r => i.d.expects r ≤ (k.fromRank r).length

/-- A count failure (R298): notices to every member, and the fault here. -/
def State.countFail (s : State) (ch : Nat) : State :=
  let k := s.core.chan ch
  let g := k.group % 256
  ((s.emit (.collCount (ch % 32) g k.inst)).failInstance ch 0x0903 0).tellOther ch g k.inst 0x0903

/-- The first part of an instance whose writes reach past its context's objects, with the address (R317). -/
def Core.partOutside (c : Core) (x : Nat) (ws : List (TaskRef × List (Nat × Bytes))) : Option (TaskRef × Nat) :=
  ws.findSome? fun e => (c.outside x (e.2.map fun w => (w.1, w.2.length))).map fun a => (e.1, a)

/-- The parts of an instance write into shadow blocks. Where one reaches past the live objects it faults instead (R317); a stall leaves
everything as it was (R335). -/
def State.partsWrite (s : State) (x : Nat) (ws : List (TaskRef × List (Nat × Bytes))) : State × Bool :=
  match s.core.partOutside x ws with
  | some e => (s.withCore fun c => c.raiseTask e.1 0x0704 e.2, false)
  | none =>
    match s.core.engineWrites x (ws.flatMap Prod.snd) with
    | some c =>
      ({ s with core := ws.foldl (fun c e => e.2.foldl (fun c w => c.noteWriter e.1.jno w.1 w.2.length) c) c }, true)
    | none => (s.memEvent 2, false)

/-- The parts' writes, each part then being done. What lands in a gradient accumulator goes to the twin's mirror too, which
confirms it before the part can end (R390). -/
def State.finishParts (s : State) (x : Nat) (ws : List (TaskRef × List (Nat × Bytes))) : State :=
  let r := s.partsWrite x ws
  if !r.2 then r.1
  else
    let binds := (s.core.draft.bind Draft.train).elim [] TrainMap.bindings
    let acc := fun (a : Nat) => (s.core.obj (addrIndex a)).elim false fun o => binds.any fun b => b.2 = o.id
    let fwds := fun (w : Nat × Bytes) => s.mirroring && acc w.1
    let fwd := (ws.flatMap Prod.snd).filter fwds
    let mine := ws.flatMap fun e => (e.2.filter fwds).map fun w => (e.1, w.1)
    (r.1.withCore fun c => { (ws.foldl (fun c e => c.computedTask e.1) c) with forwards := c.forwards ++ mine }).emits
      (fwd.map fun (w : Nat × Bytes) => Out.accForward w.1 w.2)

/-- What the module's own parts contribute to its participants, by part. -/
def Core.ownSends (c : Core) (i : ReedInst) : Bytes :=
  (c.rankRanges i.descs i.np i.me i.me).flatMap c.readAll

/-- The reduced elements for the module's participant p (R299). -/
def Core.reduceFor (c : Core) (k : Chan) (i : ReedInst) (p : Nat) : Bytes :=
  let d := i.d
  let mine := c.ownSends i
  let terms := i.g.members.zipIdx.map fun m =>
    let b := if m.2 = i.me then mine else k.fromRank m.2
    (m.1, d.dieList.zipIdx.map fun j => (j.1, reedElems d.ty (d.piece b j.2 p)))
  (List.range d.count).flatMap fun e =>
    deliver d.ty (reduceElem d.ty d.oper d.c3 (terms.map fun t => (t.1, t.2.map fun q => (q.1, q.2.getD e 0))))

/-- What the parts of an instance write once all its data is there, by part (Table 10-2, R297, R299, R300). Gathers have written their
pieces as they landed. -/
def Core.reedOutputs (c : Core) (k : Chan) (i : ReedInst) : List (List (Nat × Bytes)) :=
  let d := i.d
  let n := d.count * d.es
  let ranks := List.range i.n
  match d.op with
  | 0 => i.descs.map fun q => [(q.recv, c.reduceFor k i 0)]
  | 1 => i.descs.zipIdx.map fun q => [(q.1.recv, c.reduceFor k i q.2)]
  | 3 =>
    let mine := c.ownSends i
    i.descs.zipIdx.map fun q => [(q.1.recv, ranks.flatMap fun r =>
      (List.range d.k).flatMap fun j => d.piece (if r = i.me then mine else k.fromRank r) j q.2)]
  | 4 =>
    let root := d.peer / max d.k 1
    let data := if root = i.me then (i.descs[d.peer % max d.k 1]?).elim [] fun q => c.engineRead q.send n
      else (k.fromRank root).take n
    i.descs.map fun q => if q.recv = 0 then [] else [(q.recv, data)]
  | 6 => i.descs.map fun q => [(q.recv, ((k.fromRank d.peerKey).drop (d.peer % max d.k 1 * n)).take n)]
  | 9 =>
    let own := i.descs.map fun q =>
      let l := c.sendCounts q i.np
      (List.range d.k).map fun j =>
        let p := i.me * d.k + j
        (l.getD p 0, c.engineRead (q.send + before l p * d.es) (l.getD p 0 * d.es))
    let from_ := fun r => if r = i.me then own else varPieces d.k d.es (k.fromRank r)
    let got := fun j => ranks.flatMap fun r => (from_ r).map fun l => l.getD j (0, [])
    i.descs.zipIdx.map fun q =>
      [(q.1.recv, (got q.2).flatMap Prod.snd), (q.1.cnts + 8 * i.np, (got q.2).flatMap fun e => leBytes 8 e.1)]
  | _ => i.descs.map fun _ => []

/-- An instance in its data phase ends when it has sent and received all its data: its own contribution is read, and its outputs are
formed and written. -/
def State.tryFinish (s : State) (ch : Nat) : State :=
  match s.inst ch with
  | none => s
  | some i =>
    if (s.core.chan ch).state ≠ .data || !s.core.current ch || !s.core.dataHere ch i || !s.core.allSent ch i
        || !s.core.streamReady i then s
    else
      let own := i.parts.zip (s.core.rankRanges i.descs i.np i.me i.me)
      let q := if i.d.op = 2 ∨ i.d.op = 8 ∨ i.d.op = 5 then (s, true) else s.partsRead (own.map fun p => (p.1.1, p.2)) i.x
      if !q.2 then q.1
      else
        let ws := q.1.core.reedOutputs (q.1.core.chan ch) i
        q.1.finishParts i.x ((i.parts.map Prod.fst).zip ws)

/-- A gather's piece lands whole in every part's receive range, and its arrival flag is set (R302). -/
def State.landPiece (s : State) (ch piece : Nat) (data : Bytes) : State :=
  match s.inst ch with
  | none => s
  | some i =>
    let k := s.core.chan ch
    if k.pieces.contains piece then s else
    let slot := (pieceSpans i.d.ty (k.rankCounts i.n i.d.k)).getD piece (0, 0)
    let r := s.partsWrite i.x (i.parts.map fun q => (q.1, [(q.2.recv + slot.1, data.take slot.2)]))
    if r.2 then r.1.withCore fun c => c.setChan ch fun y => { y with pieces := piece :: y.pieces } else r.1

/-- The pieces of a gather that have come whole from a rank land; its bytes go once all its pieces are there (R302). -/
def State.landFrom (s : State) (ch : Nat) (i : ReedInst) (r : Nat) : State :=
  let k := s.core.chan ch
  let sizes := (((pieceSpans i.d.ty (k.rankCounts i.n i.d.k)).drop (r * i.d.k)).take i.d.k).map Prod.snd
  let b := k.fromRank r
  let land := fun (s : State) j =>
    if before sizes (j + 1) ≤ b.length then s.landPiece ch (r * i.d.k + j) ((b.drop (before sizes j)).take (sizes.getD j 0)) else s
  let s1 := (List.range i.d.k).foldl land s
  if (List.range i.d.k).all fun j => (s1.core.chan ch).pieces.contains (r * i.d.k + j) then
    s1.withCore fun c => c.setChan ch fun y => { y with data := y.data.filter (·.1 ≠ r) }
  else s1

/-- A gather's own pieces land once their sectors read sound. -/
def State.landOwn (s : State) (ch : Nat) (i : ReedInst) : State :=
  i.parts.zipIdx.foldl (fun (s : State) p =>
    let piece := i.me * i.d.k + p.2
    let range := (p.1.2.send, pieceBytes i.d.ty i.d.count)
    if (s.core.chan ch).pieces.contains piece then s else
    let q := s.partsRead [(p.1.1, [range])] i.x
    if q.2 then q.1.landPiece ch piece (q.1.core.readAll [range]) else q.1) s

/-- A gather's pieces land (R302). -/
def State.landHeld (s : State) (ch : Nat) : State :=
  match s.inst ch with
  | none => s
  | some i =>
    if (s.core.chan ch).state ≠ .data || (i.d.op ≠ 2 && i.d.op ≠ 8) then s
    else i.others.foldl (fun s r => s.landFrom ch i r) (s.landOwn ch i)

/-- The count phase ends once every other rank's counts are there (R297, R298): a received total that passes `RECV_BYTES` is a count
failure; otherwise the data phase begins. -/
def State.countsGo (s : State) (ch : Nat) : State :=
  match s.inst ch with
  | none => s
  | some i =>
    let k := s.core.chan ch
    let dk := i.d.k
    if k.state ≠ .counts || !(i.others.all fun r => units64 (8 * dk * dk) ≤ (k.fromRank r).length) then s else
    let own := i.descs.map fun q => ((s.core.sendCounts q i.np).drop (i.me * dk)).take dk
    let from_ := fun r => if r = i.me then own else countsFrom dk (k.fromRank r)
    let total := fun j => ((List.range i.n).flatMap fun r => (from_ r).map fun l => l.getD j 0).sum
    if i.descs.zipIdx.any fun q => q.1.recvN < total q.2 * i.d.es then s.countFail ch else s.beginData ch

/-- `SHARD.VERSION` against a task's order (R133, R262): the order is aborted and issued again at the beat, or, issued
again already, its context faults. Every member of the gather finds the same itself, and no other is told (Table 9-1). -/
def State.shardVersion (s : State) (ch : Nat) (t : TaskRef) (detail : Nat) : State :=
  match s.core.order t.jno with
  | none => s
  | some o =>
    let s1 := s.withCore fun c => c.setChan ch Chan.closed
    if o.reissued then s1.withCore fun c => c.raiseTask t 0x0801 detail
    else
      let cu := (s.core.task t).elim 0 Task.cu
      let stop := fun (k : Task) => if k.phase = .ended then k else { k with phase := .aborted, unit := none }
      ((s1.withCore fun c => c.setOrder t.jno fun o =>
        { o with again := some (cu, detail), tasks := o.tasks.map stop }).shuttleSweep).reedSweep

/-- The version check of a gather (R260, R303): the rank and version of the first that fails. -/
def versionBad (listed got : List Nat) : Option (Nat × Nat) :=
  (got.zipIdx.find? fun e => e.1 ≠ listed.getD e.2 0 || e.1 = 0xFFFFFFFF || listed.getD e.2 0 = 0xFFFFFFFF).map
    fun e => (e.2, e.1)

/-- The versions that the members' headers carry, in rank order. -/
def Chan.versions (k : Chan) (n me : Nat) : List Nat :=
  (List.range n).map fun r => fieldAt (if r = me then k.hdr else ((k.from_.find? (·.1 = r)).map Prod.snd).getD []) 0x18 4

/-- The check-mode gather of an instance whose own list a version does not agree with, as the part, the rank and the version (R303). -/
def Core.badVersion (c : Core) (ch : Nat) (i : ReedInst) : Option (TaskRef × Nat × Nat) :=
  if i.d.version ≠ 2 then none
  else i.parts.findSome? fun q =>
    (versionBad ((List.range i.n).map fun r => c.numIn c.mem (q.2.vers + 4 * r) 4) ((c.chan ch).versions i.n i.me)).map
      fun e => (q.1, e)

/-- The packed range that a part of an `ALL_TO_ALL_V` sends. -/
def Core.packed (c : Core) (d : ReedDesc) (np : Nat) : Nat × Nat := (d.send, (c.sendCounts d np).sum * d.es)

/-- What keeps an instance whose headers have matched from its data (R298): its pieces do not fit, or a packed send range runs past its
object. -/
def Core.countBad (c : Core) (ch : Nat) (i : ReedInst) : Bool :=
  let total := (((c.chan ch).rankCounts i.n i.d.k).map (pieceBytes i.d.ty)).sum
  (i.d.op = 8 && i.descs.any fun q => q.recvN < total)
    || (i.d.op = 9 && (c.outside i.x (i.descs.map fun q => c.packed q i.np)).isSome)

/-- The lists that the headers give each part to write: versions recorded (R259), and the counts of an `ALL_GATHER_V` (R297). -/
def Core.headerLists (c : Core) (ch : Nat) (i : ReedInst) : List (TaskRef × List (Nat × Bytes)) :=
  let k := c.chan ch
  i.parts.map fun q => (q.1,
    (if i.d.version = 1 then [(q.2.vers, (k.versions i.n i.me).flatMap (leBytes 4))] else [])
      ++ (if i.d.op = 8 then [(q.2.cnts, (k.rankCounts i.n i.d.k).flatMap (leBytes 8))] else []))

/-- The header exchange of an instance is complete (R288, R297, R298, R303): the count rises, once, versions and counts are
taken, and the count phase or the data phase begins. -/
def State.headersDone (s : State) (ch : Nat) : State :=
  match s.inst ch with
  | none => s
  | some i =>
    let s1 := if (s.core.chan ch).counted then s
      else s.withCore fun c => (c.setGroup i.g.id fun g => g.bump ch i.k.peer).setChan ch fun y => { y with counted := true }
    let q := s1.partsRead (i.parts.map fun p => (p.1, p.2.listRanges i.n i.np)) i.x
    if !q.2 then q.1 else
    match q.1.core.badVersion ch i with
    | some e => q.1.shardVersion ch e.1 (e.2.1 * 2 ^ 32 + e.2.2)
    | none =>
      if q.1.core.countBad ch i then q.1.countFail ch
      else
        let r := q.1.partsWrite i.x (q.1.core.headerLists ch i)
        if !r.2 then r.1 else if i.d.op = 9 then r.1.sendCountPhase ch else r.1.beginData ch

/-- One header from a member is compared with the current instance of its channel (R295). -/
def State.compareHeader (s : State) (ch src : Nat) (h : Bytes) : State :=
  let k := s.core.chan ch
  let g := s.core.group k.group
  let epoch := g.elim 0 Group.epoch
  let rank := (g.bind fun g => g.rankOf src).getD (fieldAt h 0x14 2)
  let hashes := match s.core.reedParts ch with
    | p :: _ => p.2.1.awaited ch epoch k.inst (fieldAt k.hdr 0x14 2)
    | [] => []
  if fieldAt h 8 2 = k.group % 256 && fieldAt h 0xC 4 = epoch && fieldAt h 0x10 4 = k.inst && hashes.contains (fieldAt h 0 8) then
    s.withCore fun c => c.setChan ch fun y => { y with from_ := (rank, h) :: y.from_.filter (·.1 ≠ rank) }
  else s.mismatch ch (fieldAt h 8 2) (fieldAt h 0x14 2)

/-- The group a header on a channel names, as it is kept for the channel's address. -/
def headerGroup (ch : Nat) (h : Bytes) : Nat := chanGroup ch (fieldAt h 8 2)

/-- A header's sender is a member of the group of a channel's instance (R295). -/
def Core.fromMember (c : Core) (ch src : Nat) : Bool := (c.group (c.chan ch).group).elim false fun g => g.members.contains src

/-- Every header that the current instance needs has matched. -/
def State.headersHere (s : State) (ch : Nat) : Bool :=
  (s.inst ch).elim false fun i => i.others.all fun r => i.k.from_.any (·.1 = r)

/-- An instance below this module's count, in an epoch begun by an absorption or a return, as it is served again (R309). -/
def Core.servedAgain (c : Core) (ch : Nat) (h : Bytes) : Option Served :=
  (c.group (headerGroup ch h)).bind fun g =>
    if !g.served || fieldAt h 0xC 4 ≠ g.epoch then none
    else (c.chan ch).served.find? fun v => v.group = g.id && v.inst = fieldAt h 0x10 4 && v.inst < g.count ch v.peer
      && (v.peer = 0xFFFF || v.peer = fieldAt h 0x14 2)

/-- The header of an instance that is served again: that of the group's epoch (R309). -/
def State.servedHeader (s : State) (ch : Nat) (v : Served) : Bytes :=
  match s.core.group v.group, v.descs with
  | some g, b :: _ =>
    let d := s.core.placeReed v.ctx b
    headerFrame (d.hash ch g.epoch v.inst) v.group (ch % 32) d.op g.epoch v.inst v.me g.members.length (fieldAt v.hdr 0x18 4) d.count
      s.pick.counter
  | _, _ => v.hdr

/-- The data that a re-serve sends to a rank, from the send range (R309), with the counts before it in an `ALL_TO_ALL_V`. -/
def Core.servedData (c : Core) (v : Served) (r : Nat) : Bytes :=
  let ds := v.descs.map (c.placeReed v.ctx)
  let np := ((c.group v.group).elim 0 fun g => g.members.length) * (ds.head?.elim 0 ReedDesc.k)
  (if ds.any (·.op = 9) then pad64 (ds.flatMap fun d => c.partCounts d np r) else [])
    ++ (c.rankRanges ds np r v.me).flatMap c.readAll

/-- What a re-serve reads for a rank. -/
def Core.servedRanges (c : Core) (v : Served) (r : Nat) : List (Nat × Nat) :=
  let ds := v.descs.map (c.placeReed v.ctx)
  let n := (c.group v.group).elim 0 fun g => g.members.length
  let np := n * (ds.head?.elim 0 ReedDesc.k)
  (ds.flatMap fun d => d.listRanges n np) ++ (c.rankRanges ds np r v.me).flatten

/-- The reed's and the shuttle's reads for a re-serve, which no task makes (R309). -/
def reServe : TaskRef := ⟨noOrder, 0⟩

/-- What a re-serve sends reads sound, or is repaired first (R361, R362). -/
def State.servedReads (s : State) (x : Nat) (rs : List (Nat × Nat)) : State × Bool :=
  let s1 := s.engineReads reServe x rs
  let clean := rs.all fun r => (sectorsOf r.1 r.2).all fun sec => s1.core.syndrome s1.core.mem sec = 0
  (s1, clean && !s1.core.rangesBlocked rs)

/-- An instance is served again to the sender of a header, out or at the other address held here (R33, R309); what does not read sound is
served once it is repaired. -/
def State.serve (s : State) (ch src : Nat) (h : Bytes) (v : Served) : State :=
  let r := fieldAt h 0x14 2
  let q := s.servedReads v.ctx (s.core.servedRanges v r)
  if !q.2 then q.1.withCore fun c => c.setChan ch fun y => { y with redo := y.redo ++ [(src, h)] } else
  let s1 := q.1
  let hdr := s1.servedHeader ch v
  let data := s1.core.servedData v r
  match s1.core.group v.group with
  | none => s1
  | some g =>
    let me := g.members.getD v.me 0
    if s.twin.holds && src = twinAddr me then s1.withCore fun c => c.setChan (otherChan ch) fun y =>
        { y with held := y.held ++ [(me, hdr)], data := y.data ++ [(v.me, pad64 data)] }
    else (s1.sendFrame 5 (ch % 32) me src hdr).sendBytes (ch % 32) me src data

/-- The re-serves that wait for a repair are tried again. -/
def State.serveRedo (s : State) (ch : Nat) : State :=
  let l := (s.core.chan ch).redo
  let s1 := s.withCore fun c => c.setChan ch fun y => { y with redo := [] }
  l.foldl (fun (s : State) e => (s.core.servedAgain ch e.2).elim s fun v => s.serve ch e.1 e.2 v) s1

/-- A header that crosses to the other address this module holds (R33): held there, or, for an instance that has ended there,
answered by a re-serve (R309). -/
def State.headerInside (s : State) (ch src : Nat) (h : Bytes) : State :=
  let other := otherChan ch
  match s.core.servedAgain other h with
  | some v => s.serve other src h v
  | none => s.withCore fun c => c.setChan other fun y => { y with held := y.held ++ [(src, h)] }

/-- The module part of an instance is whole (R289, R293): its header goes out; a notice that came before it faults it (R296). -/
def State.startInstance (s : State) (ch : Nat) : State :=
  match s.inst ch with
  | none => s
  | some i =>
    let k := s.core.chan ch
    let d := i.d
    let inst := i.g.count ch k.peer
    let version := if d.version ≠ 0 then s.core.objVersion i.x d.src else 0
    let hdr := headerFrame (d.hash ch i.g.epoch inst) k.group (ch % 32) d.op i.g.epoch inst i.me i.n version d.count s.pick.counter
    let s1 := s.withCore fun c => c.setChan ch fun y => { y with inst := inst, hdr := hdr }
    let s2 := i.others.foldl (fun (s : State) r =>
      if s.rankInside i.g i.me r then s.headerInside ch (i.g.members.getD i.me 0) hdr
      else s.sendHeader (ch % 32) i.g i.me r hdr) s1
    match k.noticed.find? (·.1 = k.group % 256) with
    | some e => s2.failInstance ch 0x0901 (mismatchDetail k.group (ch % 32) e.2)
    | none => s2

/-- An instance has started and waits for headers. -/
def Core.instanceOpen (c : Core) (ch : Nat) : Bool := (c.chan ch).state = .header && c.current ch

/-- The headers held for an instance that has started are compared (R295). -/
def State.compareHeld (s : State) (ch : Nat) : State :=
  if !s.core.instanceOpen ch then s else
  let mine := (s.core.chan ch).held.filter fun h => s.core.fromMember ch h.1
  let s1 := s.withCore fun c => c.setChan ch fun y => { y with held := y.held.filter fun h => !s.core.fromMember ch h.1 }
  mine.foldl (fun (s : State) h => if (s.core.chan ch).parts.isEmpty then s else s.compareHeader ch h.1 h.2) s1

/-- A channel's instance goes on as far as what has arrived lets it. -/
def State.poke (s : State) (ch : Nat) : State :=
  let s1 := (s.serveRedo ch).compareHeld ch
  let s2 := if s1.core.instanceOpen ch && s1.headersHere ch then s1.headersDone ch else s1
  (((s2.countsGo ch).sendData ch).landHeld ch).tryFinish ch

/-- The same, with the channel of the other address that this module holds, as often as one can wait for the other: for header,
counts and data (R33). -/
def State.settle (s : State) (ch : Nat) : State :=
  let s1 := s.poke ch
  if !s.twin.holds then s1
  else
    let o := otherChan ch
    [o, ch, o, ch, o].foldl State.poke s1

/-- No earlier reed task of the context stands before a task on its channel (R283): each that has not ended is the same instance's on
another die. -/
def Core.nextOn (c : Core) (x : Nat) (o : OrderSt) (idx : Nat) (t : Task) : Bool :=
  let d := c.placeReed x (c.argsOf x t 64)
  let ch := c.reedChannel x d
  let open_ := fun (k : Task) => k.desc.engine = 3 && (k.phase = .waiting || k.phase = .running)
  let beside := fun (k : Task) =>
    let e := c.placeReed x (c.argsOf x k 64)
    c.reedChannel x e ≠ ch || (e.shared = d.shared && cuDie k.cu ≠ cuDie t.cu)
  c.orders.all fun p => c.ctxOf p.ctx ≠ some x || p.tasks.zipIdx.all fun k =>
    !(p.acc < o.acc || (p.acc = o.acc && k.2 < idx)) || !open_ k.1 || beside k.1

/-- A reed task may start (R283, R285, R289, R308): its group stands and waits for no epoch, its channel is not another context's, and
has no instance, or one whose module part it completes; and it is its turn. -/
def Core.reedFree (c : Core) (x : Nat) (t : TaskRef) (k : Task) : Bool :=
  let d := c.placeReed x (c.argsOf x k 64)
  let y := c.chan (c.reedChannel x d)
  let joins := c.reedParts (c.reedChannel x d)
  (c.group d.group).elim false (fun g => !g.lost) && y.bound.elim true (· = x)
    && (c.order t.jno).elim false (fun o => c.nextOn x o t.idx k)
    && (y.parts.isEmpty
      || (y.state = .header && joins.length < d.k && joins.all fun p => p.2.1.shared = d.shared && p.2.2 ≠ cuDie k.cu && c.live p.1))

/-- The lines of a part's ranges that the host holds (R440). -/
def State.reedLines (s : State) (t : TaskRef) : List Nat :=
  let d := s.core.reedDesc t
  let n := (s.core.group d.group).elim 0 fun g => g.members.length
  ((d.readRanges n (n * d.k)).flatMap fun r => s.awaited r.1 r.2 true) ++ s.awaited d.recv d.recvN false

/-- A channel's instance starts once its module part is whole, its group waits for no epoch, and the host holds no line of its ranges
(R289, R308, R440); an instance that has started goes on. -/
def State.reedOpen (s : State) (ch : Nat) : State :=
  match s.inst ch with
  | none => s
  | some i =>
    if s.core.current ch then s.settle ch
    else if i.parts.length = i.d.k && !i.g.lost && i.parts.all fun p => (s.reedLines p.1).isEmpty then (s.startInstance ch).settle ch
    else s

/-- A reed task takes its place on its channel (R285, R289). -/
def Core.joinPart (c : Core) (t : TaskRef) (x : Nat) : Core :=
  let d := c.reedDesc t
  c.setChan (c.reedChannel x d) fun y =>
    if y.parts.contains t then y
    else if y.parts.isEmpty then
      { y with state := .header, group := d.group, bound := some x, peer := d.peerKey, parts := [t], hdr := [] }
    else { y with parts := y.parts ++ [t] }

/-- A running reed task is on its channel, and its instance goes as far as it can; where the host holds lines of its ranges it waits
for them (R440). -/
def State.joinReed (s : State) (t : TaskRef) (x : Nat) : State :=
  let s1 := s.withCore fun c => c.joinPart t x
  let ch := s.core.reedChannel x (s.core.reedDesc t)
  let lines := if (s1.core.chan ch).hdr.isEmpty then s1.reedLines t else []
  if lines.isEmpty then s1.reedOpen ch else s1.snoopWait lines (.task t)

/-- The headers held of groups whose epoch has turned are gone with the tasks that sent them (R308; log entry 155). -/
def Core.dropStale (c : Core) (ids : List Nat) : Core :=
  let stale := fun (id : Nat) (h : Bytes) => ids.contains id && (c.group id).elim false fun g => fieldAt h 0xC 4 < g.epoch
  { c with
    chans := c.chans.zipIdx.map fun k => { k.1 with held := k.1.held.filter fun h => !stale (headerGroup k.2 h.2) h.2 }
    shHeld := c.shHeld.filter fun h => !stale (fieldAt h 8 2) h }

/-- The shuttle transfers that groups no longer serve again: a module whose last completed beat is `b` runs those of later picks alone
again (R309). -/
def Core.dropServed (c : Core) (ids : List Nat) (b : Nat) : Core :=
  { c with shServed := (c.shServed.filter fun v => !ids.contains v.group || b < v.pick).map fun v =>
      if ids.contains v.group then { v with done := [] } else v }

/-- Groups enter the new epoch of an absorption or a return (R287, R309). -/
def Core.turnServed (c : Core) (hit : Group → Bool) (b : Nat) : Core :=
  let ids := (c.groups.filter hit).map Group.id
  let turned := c.groups.map fun (g : Group) => if hit g then { g with epoch := g.epoch + 1, lost := false, served := true } else g
  (({ c with groups := turned } : Core).dropStale ids).dropServed ids b

/-- A group whose module returned is in its new epoch (R485). -/
def Core.endHold (c : Core) (addr b : Nat) : Core := c.turnServed (fun g => g.lost && g.members.contains addr) b

/-- A header that shows that a held module is back: its group waits, and it names the next epoch (R485), which turns with the other
collective phases (R287). -/
def State.heardBack (s : State) (ch src : Nat) (h : Bytes) : State :=
  match s.core.group (headerGroup ch h) with
  | some g =>
    if g.lost && fieldAt h 0xC 4 = g.epoch + 1 && g.members.contains src && s.reed.holds.any (·.1 = src) then
      { s with reed := { s.reed with holds := s.reed.holds.map fun e => if e.1 = src then (src, e.2.1, true) else e } }
    else s
  | none => s

/-- A collective header arrives on a channel from an address (R295, R309): compared at once where its sender belongs to the current
instance's group, whatever the instance's phase (log entry 37), and held else. -/
def State.takeHeader (s0 : State) (ch src : Nat) (h : Bytes) : State :=
  let s := s0.heardBack ch src h
  match s.core.servedAgain ch h with
  | some v => s.serve ch src h v
  | none =>
    if s.core.current ch && s.core.fromMember ch src then (s.compareHeader ch src h).settle ch
    else s.withCore fun c => c.setChan ch fun y => { y with held := (y.held ++ [(src, h)]).take 4096 }

/-- The rank whose data of the coming or current instance an address sends: one whose header has come. Other data answers a
re-serve, and is discarded (R293, R309). -/
def Core.dataRank (c : Core) (ch src : Nat) : Option Nat :=
  let k := c.chan ch
  let matched := (c.group k.group).bind fun g => (g.rankOf src).bind fun r => if k.from_.any (·.1 = r) then some r else none
  matched.orElse fun _ => (k.held.find? fun h => h.1 = src).map fun h => fieldAt h.2 0x14 2

/-- A data frame of an instance arrives from a rank (R299). Before the data phase it takes one of its port's 16 credits of the channel; one
that finds none is not acknowledged until the channel takes it, and holds back no other channel's frames (R284). -/
def Chan.takeFrame (k : Chan) (f : OverFrame) : Chan :=
  if k.state = .data || k.state = .counts then { k with data := k.data ++ [(f.rank, f.data)] }
  else if (k.credits.filter (· = f.port)).length < 16 then { k with data := k.data ++ [(f.rank, f.data)], credits := f.port :: k.credits }
  else { k with excess := k.excess ++ [f] }

/-- The same, and the instance goes on. -/
def State.takeData (s : State) (ch : Nat) (f : OverFrame) : State := (s.withCore fun c => c.setChan ch (·.takeFrame f)).settle ch

/-- COUNT_NOTICE (R298): the instance of the group on the channel faults. -/
def execCountNotice (ch : Nat) (group : InstName) (s : State) : Res :=
  let k := s.core.chan ch
  if !s.operational || k.group % 256 ≠ group.group || k.inst ≠ group.inst || !s.core.current ch then .next s
  else .next (s.tellAborts (s.failInstance ch 0x0903 0))

/-- ABORT_NOTICE (R306, R211): a member still in the instance ends its task with `COLL.ABORTED`; one that has ended keeps its
output. -/
def execAbortNotice (ch : Nat) (group : InstName) (s : State) : Res :=
  let k := s.core.chan ch
  if s.operational && ch = 0xFF then .next (s.tellAborts (s.shuttleAborted group.group group.inst)) else
  if !s.operational || k.group % 256 ≠ group.group || k.inst ≠ group.inst || !s.core.current ch then .next s
  else .next (s.tellAborts (s.failInstance ch 0x0902 0))

/-- GATHER_PIECE_LANDED (R302). -/
def execGatherPieceLanded (ch piece : Nat) (data : Bytes) (s : State) : Res :=
  let gather := (s.inst ch).elim false fun i => i.d.op = 2 || i.d.op = 8
  if !s.operational || (s.core.chan ch).state ≠ .data || !gather then .next s else
  .next (s.tellAborts ((s.landPiece ch piece data).tryFinish ch))

/-- Reed and shuttle tasks of the groups that hold a lost or held module are interrupted, and their contexts restored at
the commit step (R308, R485). -/
def Core.interrupt (c : Core) (addr : Nat) : Core :=
  let hit := fun (id : Nat) => (c.group id).elim false fun g => g.members.contains addr
  let chans := c.chans.zipIdx.filter fun k => !k.1.parts.isEmpty && hit k.1.group
  let tasks := (chans.flatMap fun k => k.1.parts) ++ (c.shuttle.filter fun r => hit r.group).map ShuttleRun.task
  let c1 := tasks.foldl (fun (c : Core) t =>
    let c' := c.setTask t fun k => { k with phase := .waiting, unit := none, computed := false, args := none }
    match c.taskCtx t with
    | some x => c'.setCtx x fun y => { y with restart := true }
    | none => c') c
  { c1 with
    chans := c1.chans.map fun k => if !k.parts.isEmpty && hit k.group then { k.closed with state := .interrupted } else k
    shuttle := c1.shuttle.filter fun r => !hit r.group
    groups := c1.groups.map fun g => if g.members.contains addr then { g with lost := true } else g }

/-- LOSS_NOTICE (R308, R456): the groups of the lost module wait for their new epoch, and routes go round it. A loss notice
replaces a hold notice of the same module (R485); a neighbor's, which names no absorb beat, takes none away that the twin's has named. A `LINK.PORT`
of a port to the lost module that waits for its commit step is not reported beside the loss (Table 16-7). -/
def State.lossNotice (s : State) (addr beat : Nat) (absorbBeat : Option Nat) : State :=
  let s1 := s.withCore fun c => c.interrupt addr
  let old := (s.reed.losses.find? (·.1 = addr)).bind fun l => l.2.2
  let s2 := { s1 with
    reed := { s1.reed with
      lossAddr := addr, lossBeat := beat, lossKind := 2
      losses := (addr, beat, absorbBeat.or old) :: s1.reed.losses.filter (·.1 ≠ addr)
      holds := s1.reed.holds.filter (·.1 ≠ addr)
      absorbed := s1.reed.absorbed.filter (· ≠ addr) }
    opt := { s1.opt with detour := some addr }
    flog := { s1.flog with waiting := s1.flog.waiting.filter fun e => !(e.code = 0x0D10 && (s.port e.detail).neighbor = addr) } }
  (s2.reedEvent 1).optEvent 4

/-- LOSS_NOTICE. -/
def execLossNotice (addr beat : Nat) (absorbBeat : Option Nat) (s : State) : Res := .next (s.lossNotice addr beat absorbBeat)

/-- HOLD_NOTICE (R485): steps 1 to 3 of R308 on the groups that hold the address. -/
def execHoldNotice (addr beat : Nat) (s : State) : Res :=
  let s1 := s.withCore fun c => c.interrupt addr
  .next { s1 with reed := { s1.reed with holds := (addr, beat, false) :: s1.reed.holds.filter (·.1 ≠ addr) } }

/-- This module is the pick leader (R49, R52). -/
def State.isLeader (s : State) : Bool := s.pick.self

/-- LOSS_WAIT_EXPIRY (R310): the leader announces the drop of a lost module that nothing absorbed in its next marker, that of beat
b + 1 + LOSS_WAIT, and it is applied at the following beat. -/
def execLossWaitExpiry (s : State) : Res :=
  if !s.operational || !s.isLeader || s.reed.lossWait = 0 then .next s else
  match s.reed.losses.reverse.find? fun l => l.2.2.isNone with
  | none => .next s
  | some l =>
    if s.pick.counter < l.2.1 + 1 + s.reed.lossWait || s.reed.drops.any (·.2 = l.1) then .next s
    else .next { s with pick := { s.pick with drop := some l.1 } }

/-- The new epochs of an absorption (R33, R309): the groups that hold the address keep members and ranks. -/
def State.absorbEpoch (s : State) (addr : Nat) : State :=
  let ids := (s.core.groups.filter fun g => g.members.contains addr).map Group.id
  let b := (s.reed.losses.find? (·.1 = addr)).elim s.pick.counter fun l => l.2.1
  let s1 := s.withCore fun c => c.turnServed (fun g => g.members.contains addr) b
  let s2 := { s1 with reed := { s1.reed with
      lossKind := if s1.reed.lossAddr = addr then 1 else s1.reed.lossKind
      absorbed := addr :: s1.reed.absorbed.filter (· ≠ addr)
      losses := s1.reed.losses.filter (·.1 ≠ addr)
      drops := s1.reed.drops.filter (·.2 ≠ addr)
      epochBeat := if ids.isEmpty then s1.reed.epochBeat else s.pick.counter } }
  if ids.isEmpty then s2 else s2.reedEvent 2

/-- A drop is applied (R310): the groups that hold the address re-form without it, and the tasks that name them end with
`COLL.REFORMED`. -/
def State.applyDrop (s : State) (addr : Nat) : State :=
  let ids := (s.core.groups.filter fun g => g.members.contains addr).map Group.id
  let declared := ((s.core.draft.elim [] Draft.groups).filter fun g => g.holds addr).map fun g => (g.id, addr)
  let names := fun (c : Core) (o : OrderSt) (k : Task) =>
    match c.ctxOf o.ctx with
    | none => false
    | some x =>
      let b := c.argsOf x k 64
      (k.phase = .waiting || k.phase = .running)
        && ((k.desc.engine = 3 && ids.contains (c.groupId x (fieldAt b 4 2)))
          || (k.desc.engine = 4 && ids.contains (c.groupId x (fieldAt b 2 2))))
  let s1 := s.withCore fun c =>
    let c1 := c.orders.foldl (fun (c : Core) o =>
      match o.tasks.zipIdx.find? fun k => names c o k.1 with
      | some k => c.raiseTask ⟨o.jno, k.2⟩ 0x0904 0
      | none => c) c
    ({ c1 with
      groups := c1.groups.map fun (g : Group) => if g.members.contains addr then
        { g with epoch := g.epoch + 1, members := g.members.filter (· ≠ addr), dropped := true, lost := false } else g
      gone := declared ++ c1.gone.filter fun e => !declared.contains e } : Core).dropStale ids
  let s2 := { s1 with
    reed := { s1.reed with
      lossKind := if s1.reed.lossAddr = addr then 3 else s1.reed.lossKind
      losses := s1.reed.losses.filter (·.1 ≠ addr)
      drops := s1.reed.drops.filter (·.2 ≠ addr)
      epochBeat := if ids.isEmpty then s1.reed.epochBeat else s.pick.counter }
    opt := { s1.opt with detour := if s1.opt.detour = some addr then none else s1.opt.detour } }
  let s3 := if ids.isEmpty then s2 else s2.reedEvent 3
  if s1.opt.detour = some addr then s3.optEvent 4 else s3

/-- The collective phase turns of a beat (Table 2-3): absorptions first, then drops, then returns after a hold (R310,
R485). -/
def State.turnPhases (s : State) : State :=
  let n := s.pick.counter
  let abs := (s.reed.losses.filter fun l => l.2.2.elim false (· ≤ n)).map Prod.fst
  let s1 := abs.foldl State.absorbEpoch s
  let drops := (s1.reed.drops.filter fun d => d.1 ≤ n).map Prod.snd
  let s2 := drops.foldl State.applyDrop s1
  let back := s2.reed.holds.filter fun h => h.2.2
  back.foldl (fun (s : State) h =>
    { s with core := s.core.endHold h.1 h.2.1, reed := { s.reed with holds := s.reed.holds.filter (·.1 ≠ h.1), epochBeat := n } }) s2

/-- The channels that a commit step unbinds (R285): no instance, and no running or candidate task of the context that names
the channel. A notice is kept while an instance of its group is pending (R296). -/
def Core.unbindIdle (c : Core) : Core :=
  let candidate := fun (x : Nat) (k : Task) => k.phase = .running
    || (k.phase = .waiting && (c.slots.getD (c.ctx x).slot {}).holder = some x && k.desc.deps.all k.met.contains)
  let named := fun (ch x : Nat) => c.orders.any fun o => c.ctxOf o.ctx = some x && o.tasks.any fun k =>
    k.desc.engine = 3 && candidate x k && c.reedChannel x (c.placeReed x (c.argsOf x k 64)) = ch
  let tidy := fun (y : Chan) (ch : Nat) => { y with noticed := y.noticed.filter fun e => c.pendingOn ch (chanGroup ch e.1) }
  { c with chans := c.chans.zipIdx.map fun k =>
      let y := tidy k.1 k.2
      match y.bound with
      | some x => if y.parts.isEmpty && !named k.2 x then { y with bound := none, state := .idle } else y
      | none => y }

end Sys2Proof.Machine
end

