-- ==== Sys2Proof/Machine/Shuttle.lean ====
section
/-! DEFINITION. Sys2Proof/Machine/Shuttle.lean: the shuttle (07_attention.md, R204 to R215) and the arrival of headers and
mismatch notices (R295, R296). -/

namespace Sys2Proof.Machine

/-- A shuttle descriptor (Table 7-2). -/
structure ShuttleDesc where
  dir    : Nat
  coding : Nat
  group  : Nat
  step   : Nat
  part   : Nat
  send   : Nat
  recv   : Nat
  value  : Nat
  grad   : Nat
  info   : Nat
  deriving DecidableEq, Repr

/-- A shuttle descriptor read from its 64 bytes. -/
def readShuttle (b : Bytes) : ShuttleDesc :=
  { dir := byteAt b 0, coding := byteAt b 1, group := fieldAt b 2 2, step := fieldAt b 4 2, part := fieldAt b 6 2
    send := fieldAt b 8 8, recv := fieldAt b 0x10 8, value := fieldAt b 0x18 4, grad := fieldAt b 0x1C 4
    info := fieldAt b 0x20 4 }

/-- Bytes of either range. -/
def ShuttleDesc.bytes (d : ShuttleDesc) : Nat := d.value + d.grad + d.info

/-- Bytes of a value part that cross as one run (Table 7-4): in C2 its coded form; in C0 and C1 as they land. -/
def ShuttleDesc.coded (d : ShuttleDesc) : Nat := if d.coding = 2 then d.value / 64 * 33 else d.value

/-- Bytes that a run receives, C1 frames counted as they land. -/
def ShuttleDesc.wire (d : ShuttleDesc) : Nat := d.coded + d.grad + d.info

/-- The shuttle words of Table 10-5, hashed (R294). -/
def ShuttleDesc.hash (d : ShuttleDesc) (epoch : Nat) : Nat :=
  hashWords 0 [0x80 + d.dir * 256 + d.coding * 65536, d.group % 256, epoch, d.step + d.part * 65536, d.value, d.grad, d.info, 0]

/-- The index of a coordinate along an axis of a group (R79). -/
def axisIndex (ax : Nat × Nat × Nat) (x : Nat) : Nat := (x - ax.1) / max ax.2.2 1

/-- The ring position of an address (R204). -/
def GroupDef.ringPos (g : GroupDef) (addr : Nat) : Nat :=
  let a := unpackAddr addr
  let idx := fun i => axisIndex (g.axes.getD i (0, 1, 1)) (a.getD i 0)
  match (List.range 4).filter (bitOf g.mask) with
  | [i] => idx i
  | [i, j] =>
    let e := (g.axes.getD i (0, 1, 1)).2.1
    if idx j % 2 = 0 then idx j * e + idx i else idx j * e + (e - 1 - idx i)
  | _ => 0

/-- The ranks of the next and the previous member on the ring (R204, R205): `FWD` data goes to the next, `BWD` data to the
previous, so that for `BWD` the two change places. In a group re-formed by a drop (R310) the members left close up in the order of their old
positions: the spec does not say how the ring closes over a missing member (DESIGN CHOICE, log entry 196). -/
def Core.ringNeighbors (c : Core) (g : Group) (me dir : Nat) : Nat × Nat :=
  match c.draft.bind fun d => d.groups.find? (·.id = g.id % 256) with
  | none => (me, me)
  | some gd =>
    let order := sortKey (fun p : Nat × Nat => gd.ringPos p.1) g.members.zipIdx
    let z := order.length
    let p := (order.findIdx? (·.2 = me)).getD 0
    let at_ := fun i => (order.getD (i % z) (0, me)).2
    if dir = 0 then (at_ (p + 1), at_ (p + z - 1)) else (at_ (p + z - 1), at_ (p + 1))

/-- The address of a rank is one this module holds (R33). -/
def State.holdsRank (s : State) (g : Group) (r : Nat) : Bool :=
  let a := g.members.getD r 0
  a = s.myAddr || (s.twin.holds && a = twinAddr s.myAddr)

/-- The frames of a value part, block by block (R214, R215): under C1 the smaller of its C1 and C0 forms, which its length tells apart
(log entry 57). -/
def codeValue (coding : Nat) : Nat → Bytes → List Bytes
  | 0, _ => []
  | k + 1, b =>
    let blk := b.take 16384
    (if coding = 2 then encodeC2 false blk else if coding = 1 then encodeC1 false blk else blk) :: codeValue coding k (b.drop 16384)

/-- A frame of a value part under C1 as it lands (R214): a whole block is in C0. -/
def landFrame (data : Bytes) : Bytes := if data.length < 16384 then decodeC1 false data else data

/-- One block of a value part as it lands from its C2 form (R215): 8,192 elements, then 256 scales. -/
def landBlock (b : Bytes) : Bytes :=
  rotatedBlock ((List.range 8192).flatMap fun i => leBytes 2 (decodeC2 false (byteAt b (8192 + i / 32)) (byteAt b i)))

/-- The value part as it lands. -/
def landValue (coding : Nat) : Nat → Bytes → Bytes
  | 0, _ => []
  | k + 1, b =>
    if coding = 2 then landBlock (b.take 8448) ++ landValue coding k (b.drop 8448)
    else b.take 16384 ++ landValue coding k (b.drop 16384)

/-- A shuttle descriptor of a context's task as it stands. -/
def Core.placeShuttle (c : Core) (x : Nat) (b : Bytes) : ShuttleDesc :=
  let d := readShuttle b
  { d with group := c.groupId x d.group, send := c.resolve x d.send, recv := c.resolve x d.recv }

/-- The shuttle descriptor of a task. -/
def Core.shuttleDesc (c : Core) (t : TaskRef) : ShuttleDesc :=
  match c.task t, c.taskCtx t with
  | some k, some x => c.placeShuttle x (c.argsOf x k 64)
  | _, _ => readShuttle []

/-- The shuttle tasks that have not ended, with their descriptors: those of a group are its pending ones (R208). -/
def Core.shuttleTasks (c : Core) : List (TaskRef × Task × ShuttleDesc) :=
  c.orders.flatMap fun o => o.tasks.zipIdx.filterMap fun k =>
    if k.1.desc.engine = 4 && (k.1.phase = .waiting || k.1.phase = .running) then
      some (⟨o.jno, k.2⟩, k.1, c.shuttleDesc ⟨o.jno, k.2⟩)
    else none

/-- A running shuttle task changed. -/
def Core.setRun (c : Core) (t : TaskRef) (f : ShuttleRun → ShuttleRun) : Core :=
  { c with shuttle := c.shuttle.map fun r => if r.task = t then f r else r }

/-- A run still lacks the header of a rank. -/
def ShuttleRun.lacks (r : ShuttleRun) (rank : Nat) : Bool := (r.next = rank && !r.nextOk) || (r.prev = rank && !r.prevOk)

/-- A header of a rank has matched, and is kept for a task that may take the place (R305). -/
def ShuttleRun.matched (r : ShuttleRun) (rank : Nat) (h : Bytes) : ShuttleRun :=
  if r.next = rank && !r.nextOk then { r with nextOk := true, hdrs := r.hdrs ++ [h] } else { r with prevOk := true, hdrs := r.hdrs ++ [h] }

/-- A released shuttle task that has not sent its headers has a hash. -/
def Core.hashAwaited (c : Core) (group epoch hash : Nat) : Bool :=
  c.shuttleTasks.any fun k => k.2.2.group = group && k.2.2.hash epoch = hash && !c.shuttle.any fun r => r.task = k.1 && r.begun

/-- A mismatch notice of the shuttle (R208): every task of the groups that has begun faults, and one pending faults when it does. -/
def State.shuttleNotice (s : State) (groupA groupB sender : Nat) : State :=
  let of := fun (g : Nat) => g % 256 = groupA || g % 256 = groupB
  let hit := s.core.shuttle.filter fun r => r.begun && of r.group
  let s1 := (s.withCore fun c =>
    let c1 := hit.foldl (fun (c : Core) r => c.raiseTask r.task 0x0901 (mismatchDetail r.group 0xFF sender)) c
    { c1 with shuttle := c1.shuttle.filter fun r => !(r.begun && of r.group) })
  let due := ((s1.core.shuttleTasks.filter fun k => of k.2.2.group).map fun k => k.2.2.group).eraseDups
  s1.withCore fun c => { c with shNoticed := due.map (fun g => (g, sender)) ++ c.shNoticed.filter fun e => !due.contains e.1 }

/-- The notices of the shuttle that no pending task can meet any more are gone. -/
def Core.tidyShuttle (c : Core) : Core :=
  { c with shNoticed := c.shNoticed.filter fun e => c.shuttleTasks.any fun k => k.2.2.group = e.1 }

/-- A header that this module sent for a shuttle task, in the group's epoch. -/
def State.shuttleFrame (s : State) (d : ShuttleDesc) (g : Group) (me : Nat) : Bytes :=
  headerFrame (d.hash g.epoch) d.group 0xFF 0x80 g.epoch 0 me g.members.length 0 0 s.pick.counter

/-- Bytes of the previous member's range join the oldest run of the direction whose exchange with that member has matched and that still
lacks some (R208; log entry 186); under C1 a value block decoded (R214). -/
def Core.shuttleIn (c : Core) (dir group rank me : Nat) (data : Bytes) : Core :=
  let open_ := fun (r : ShuttleRun) =>
    r.prevOk && r.dir = dir && r.group = group && r.prev = rank && r.me = me && r.data.length < (c.shuttleDesc r.task).wire
  match c.shuttle.find? open_ with
  | some r =>
    let d := c.shuttleDesc r.task
    let lands := if d.coding = 1 && r.data.length < d.value then landFrame data else data
    c.setRun r.task fun y => { y with data := y.data ++ lands }
  | none => c

/-- The frames of a send range as it crosses (R214, R215). -/
def Core.shuttleFrames (c : Core) (d : ShuttleDesc) : List Bytes :=
  let raw := c.engineRead d.send d.bytes
  let rest := raw.drop d.value
  codeValue d.coding (d.value / 16384) raw ++ if rest.isEmpty then [] else [rest]

/-- The `TRAFFIC` of the shuttle's frames (Table 16-2). -/
def shuttleTraffic (dir : Nat) : Nat := 32 + dir % 2

/-- A send range goes to the next member in data frames, or to the other position that this module holds. -/
def State.shuttleOut (s : State) (d : ShuttleDesc) (g : Group) (me next : Nat) : State :=
  let frames := s.core.shuttleFrames d
  let src := g.members.getD me 0
  let dest := g.members.getD next 0
  if s.holdsRank g next then s.withCore fun c => frames.foldl (fun c b => c.shuttleIn d.dir g.id me next b) c
  else frames.foldl (fun (s : State) b => s.sendBytes (shuttleTraffic d.dir) src dest b) s

/-- A header of rank `me` goes to a member, or to the other position that this module holds. -/
def State.shuttleTell (s : State) (dir : Nat) (g : Group) (me rank : Nat) (h : Bytes) : State :=
  if s.holdsRank g rank then s.withCore fun c => { c with shHeld := c.shHeld ++ [h] }
  else s.sendHeader (shuttleTraffic dir) g me rank h

/-- A task that has ended here, and that a member begins in an epoch of an absorption or a return, is served again, once to each neighbor
(R213, R309). -/
def Core.shuttleServed (c : Core) (h : Bytes) : Option (ShServed × Group) :=
  (c.shServed.findSome? fun v => (c.group v.group).bind fun g =>
    let rank := fieldAt h 0x14 2
    if g.id % 256 = fieldAt h 8 2 && g.served && g.epoch = fieldAt h 0xC 4 && (v.next = rank || v.prev = rank) && !v.done.contains rank
        && (c.placeShuttle v.ctx v.desc).hash g.epoch = fieldAt h 0 8 then some (v, g)
    else none)

/-- A re-serve of the shuttle: the header, and for the next member the range, once it reads sound (R361, R362). The header that asks for it
is held until then. -/
def State.shuttleReserve (s : State) (v : ShServed) (g : Group) (rank : Nat) (h : Bytes) : State :=
  let d := s.core.placeShuttle v.ctx v.desc
  let q := if v.next = rank then s.servedReads v.ctx [(d.send, d.bytes)] else (s, true)
  if !q.2 then q.1.withCore fun c => { c with shHeld := c.shHeld ++ [h] } else
  let mark := fun (w : ShServed) => if w = v then { w with done := rank :: w.done } else w
  let s1 := (q.1.withCore fun c => { c with shServed := c.shServed.map mark }).shuttleTell d.dir g v.me rank (s.shuttleFrame d g v.me)
  if v.next = rank then s1.shuttleOut d g v.me rank else s1

/-- A mismatch of the shuttle found by this module (R208). -/
def State.shuttleMismatch (s : State) (group rank : Nat) : State :=
  ((s.emit (.collMismatch 0xFF group group rank)).reedEvent 0).shuttleNotice group group rank

/-- A shuttle header is compared (R208, R209): with the begun task of its hash; else it asks for a transfer that has ended here (R213); else it is
held for a released task of its hash or while no task of its group lacks the sender's; else it is a mismatch (log entry 20). -/
def State.shuttleHeader (s : State) (h : Bytes) : State :=
  let c := s.core
  let g := fieldAt h 8 2
  let rank := fieldAt h 0x14 2
  let lacks := fun (r : ShuttleRun) => r.begun && r.group % 256 = g && r.lacks rank
  let same := fun (r : ShuttleRun) => lacks r && r.epoch = fieldAt h 0xC 4 && r.hash = fieldAt h 0 8
  let hold := s.withCore fun c => { c with shHeld := c.shHeld ++ [h] }
  match c.shuttle.find? same with
  | some r => s.withCore fun c => c.setRun r.task fun y => y.matched rank h
  | none =>
    let awaited := fun (id : Nat) => c.hashAwaited id ((c.group id).elim 0 Group.epoch) (fieldAt h 0 8)
    match c.shuttleServed h with
    | some v => s.shuttleReserve v.1 v.2 rank h
    | none => if !awaited g && !awaited (g + 256) && c.shuttle.any lacks then s.shuttleMismatch g rank else hold

/-- The headers held are compared again. -/
def State.shuttleHeld (s : State) : State :=
  s.core.shHeld.foldl State.shuttleHeader { s with core := { s.core with shHeld := [] } }

/-- What waited to be served again until a repair is tried once more (R309, R362). -/
def State.serveAll (s : State) : State := ((List.range 64).foldl State.serveRedo s).shuttleHeld

/-- A run whose two headers matched sends its range (R208, R214, R362), and can be served again (R309). -/
def State.shuttleSend (s : State) (r : ShuttleRun) : State :=
  match s.core.task r.task, s.core.taskCtx r.task, s.core.group r.group with
  | some k, some x, some g =>
    let d := s.core.shuttleDesc r.task
    let reads := [(d.send, d.bytes)]
    let s1 := s.engineReads r.task x reads
    if !s1.core.live r.task || s1.core.rangesBlocked reads then s1 else
    let v : ShServed := { group := r.group, ctx := x, me := r.me, next := r.next, prev := r.prev, desc := s.core.argsOf x k 64
                          pick := s.pick.counter }
    let keep := fun (v : ShServed) => s.pick.counter ≤ v.pick + 2 || (s.core.group v.group).elim false fun g => g.lost || g.served
    let s2 := s1.withCore fun c =>
      { (c.setRun r.task fun y => { y with sent := true }) with shServed := v :: c.shServed.filter keep }
    s2.shuttleOut d g r.me r.next
  | _, _, _ => s

/-- A run that has sent and received its ranges writes what it received (R210, R211). -/
def State.shuttleLand (s : State) (r : ShuttleRun) : State :=
  match s.core.taskCtx r.task with
  | none => s
  | some x =>
    let d := s.core.shuttleDesc r.task
    if !r.sent || r.data.length < d.wire then s else
    let out := landValue d.coding (d.value / 16384) r.data ++ (r.data.drop d.coded).take (d.grad + d.info)
    let s1 := s.orWait (.task r.task) fun s => s.engineDone r.task x [(d.recv, out)]
    if (s1.core.task r.task).elim true Task.computed then
      s1.withCore fun c => { c with shuttle := c.shuttle.filter fun y => y.task ≠ r.task }
    else s1

/-- Every run goes as far as it can. -/
def State.shuttleGo (s : State) : State :=
  let s1 := (s.core.shuttle.filter fun r => r.nextOk && r.prevOk && !r.sent).foldl State.shuttleSend s
  s1.core.shuttle.foldl State.shuttleLand s1

/-- A shuttle task begins: its headers go to the next and the previous member (R208, R209), but not while its group waits for an epoch
(R308). A notice that came before it faults it. -/
def State.beginShuttle (s : State) (t : TaskRef) (x : Nat) : State :=
  let d := s.core.shuttleDesc t
  match s.core.group d.group with
  | none => s
  | some g =>
    match g.rankOf (s.rankAddr x) with
    | none => s
    | some me =>
      if g.lost then s else
      let nb := s.core.ringNeighbors g me d.dir
      let hdr := s.shuttleFrame d g me
      let s1 := s.withCore fun c => c.setRun t fun y =>
        { y with begun := true, dir := d.dir, group := d.group, name := d.step + d.part * 65536, hash := d.hash g.epoch, epoch := g.epoch, me := me, next := nb.1, prev := nb.2 }
      let s2 := [nb.1, nb.2].foldl (fun (s : State) r => s.shuttleTell d.dir g me r hdr) s1
      match s.core.shNoticed.find? (·.1 = d.group) with
      | some e => s2.withCore fun c =>
          let c1 := c.raiseTask t 0x0901 (mismatchDetail d.group 0xFF e.2)
          { c1 with shuttle := c1.shuttle.filter fun r => r.task ≠ t }
      | none => s2.shuttleHeld.shuttleGo

/-- A shuttle task may start: its group waits for no epoch (R213, R308). -/
def Core.shuttleFree (c : Core) (x : Nat) (k : Task) : Bool :=
  (c.group (c.placeShuttle x (c.argsOf x k 64)).group).elim false fun g => !g.lost

/-- A running shuttle task has a run, and begins once the host holds no line of its ranges (R440). One that has begun goes on as far
as it can (R211). -/
def State.joinShuttle (s : State) (t : TaskRef) (x : Nat) : State :=
  let d := s.core.shuttleDesc t
  let s1 := if s.core.shuttle.any (·.task = t) then s
    else s.withCore fun c => { c with shuttle := c.shuttle ++ [{ task := t, dir := d.dir, group := d.group }] }
  if s1.core.shuttle.any fun r => r.task = t && r.begun then s1.shuttleGo
  else
    let lines := s.awaited d.send d.bytes true ++ s.awaited d.recv d.bytes false
    if lines.isEmpty then s1.beginShuttle t x else s1.snoopWait lines (.task t)

/-- A header is one that Table 10-4 allows: its CRC holds, and it has no reserved bit set (R11). -/
def headerOk (hdr : Bytes) : Bool := hdr.length = 64 && !headerReserved hdr && crc32c (hdr.take 0x3C) = fieldAt hdr 0x3C 4

/-- A header frame arrives from an address (R293, R295): a bad one is dropped; a shuttle header meets the shuttle, any other its
channel. -/
def State.receiveHeader (s : State) (ch src : Nat) (hdr : Bytes) : State :=
  if !headerOk hdr then s
  else if byteAt hdr 0xB = 0x80 then ((s.heardBack 0xFF src hdr).shuttleHeader hdr).shuttleGo
  else if 64 ≤ ch then s
  else s.takeHeader ch src hdr

/-- Data of a collective or of the shuttle arrives on a port, by the `TRAFFIC` of its frame (Table 16-2), from an address to an
address. -/
def State.receiveData (s : State) (port seq traffic src dest : Nat) (data : Bytes) : State :=
  if traffic ≤ 31 then
    let ch := if dest = s.myAddr then traffic else traffic + 32
    (s.core.dataRank ch src).elim s fun r => s.takeData ch { port := port, seq := seq, rank := r, data := data }
  else
    match s.core.shuttle.find? fun r => r.prevOk && r.dir = traffic - 32
        && (s.core.group r.group).elim false fun g => g.members[r.prev]? = some src && g.members[r.me]? = some dest with
    | none => s
    | some r => (s.withCore fun c => c.shuttleIn r.dir r.group r.prev r.me data).shuttleGo

/-- COLL_HEADER_RECEIVED (R295). -/
def execCollHeaderReceived (ch : Nat) (hdr : HeaderFrame) (s : State) : Res :=
  if !s.operational then .next s else .next (s.tellAborts (s.receiveHeader ch hdr.src hdr.bytes))

/-- MISMATCH_NOTICE (R296, R208). -/
def execMismatchNotice (ch groupA : Nat) (groupB : Differing) (s : State) : Res :=
  if !s.operational then .next s
  else if ch = 0xFF then .next (s.tellAborts (s.shuttleNotice groupA groupB.group groupB.sender))
  else .next (s.tellAborts (s.mismatchNotice ch groupA groupB.group groupB.sender))

end Sys2Proof.Machine
end

