-- ==== Sys2Proof/Machine/Tasks.lean ====
section
/-! DEFINITION. Sys2Proof/Machine/Tasks.lean: admission and scheduling (R54, R63, R248 to R252), the end of a task, its
dependencies and its overrun (02_pick.md, 05_arrays.md, 09_training.md). -/

namespace Sys2Proof.Machine

/-- A span is in progress. -/
def State.inSpan (s : State) : Bool := s.operational && s.pick.phase = .span

/-- The pending repair tasks of a context (R369). -/
def Core.repairsOf (c : Core) (x : Nat) : List Repair := c.repairs.filter fun r => !r.fetch && r.ctx = x

/-- A context may have tasks admitted: it holds its slot (R127) and no other context of the slot is still being saved (R75), has no fault
of the pick but of a start at this very cycle (Table 4-9, R131, R170), no restore or restart before it (R128, R308, R360), no repair task that still runs (R369), no fill or copy of its own (R323, R239), and no write-back of its harness (R487). -/
def State.ctxAdmits (s : State) (x : Nat) : Bool :=
  let c := s.core
  let k := c.ctx x
  (k.state = .holding || k.state = .destroying) && !(c.ctxs.any fun y => y.state = .saving && y.slot = k.slot)
    && (c.slots.getD k.slot {}).holder = some x && !c.admitsNone x && !(c.pm.mending.any fun e => e.1 = x && c.cycle < e.2.2) && !k.restart && !k.restoring
    && !(c.objs.any fun p => p.2.ctx = x && p.2.filling)
    && !(s.twin.recopying.any fun i => (c.obj i).elim false fun o => o.ctx = x)
    && !((c.pool x).elim false KvPool.copying) && !s.mgt.harnessDue.contains k.harness

/-- Undo charges of a region, or of all of them (R63). -/
def Core.charged (c : Core) (region : Option Nat) : Nat :=
  ((c.pm.charges.filter fun e => region.elim true (e.2.1 = ·)).map fun e => e.2.2).sum

/-- The admission test of R54 at a cycle of the span. -/
def State.fits (s : State) (t : Task) (cycle : Nat) : Bool :=
  let reserve := s.core.draft.elim 0 Draft.regionUndo
  cycle + t.desc.length + 64 ≤ spanCycles s.pick.period10 s.pick.windowUs s.pick.step
    && t.desc.undo + s.core.charged (some (cuRegion t.cu)) ≤ reserve
    && t.desc.undo + s.core.charged none ≤ 8192

/-- Candidates in issue order (09_training.md): acceptance order, then task index. -/
def State.candidates (s : State) : List (TaskRef × Task × Nat) :=
  s.core.orders.flatMap fun o =>
    match s.core.ctxOf o.ctx with
    | none => []
    | some x =>
      if !s.ctxAdmits x || !(s.core.repairsOf x).isEmpty || o.again.isSome || s.core.heldBack o (·.openAt s.pick.counter) then [] else
      o.tasks.zipIdx.filterMap fun k =>
        if k.1.phase = .waiting && k.1.desc.deps.all k.1.met.contains then some (⟨o.jno, k.2⟩, k.1, x) else none

/-- A unit of a CU, or an engine, is busy. -/
def Core.unitBusy (c : Core) (cu : Nat) (u : ExecUnit) : Bool :=
  c.running.any fun p => p.2.cu = cu && (p.2.unit = some u
    || ((u = .arrayA || u = .arrayB) && p.2.desc.engine = 1))

/-- A unit of a CU is taken at a cycle: it is busy, array A by a repair task too (R369), or a task that started on it at this very cycle has been
aborted (R170). -/
def State.unitTaken (s : State) (cu cycle : Nat) (u : ExecUnit) : Bool :=
  let pair := fun (k : Task) => k.desc.engine = 1 && (u = .arrayA || u = .arrayB)
  s.core.unitBusy cu u || (u = .arrayA && s.core.pm.mending.any fun e => e.2.1 = cu && cycle < e.2.2) || s.core.orders.any fun o => o.tasks.any fun k =>
    k.phase = .aborted && k.cu = cu && k.startPick = s.pick.counter && k.startCycle = cycle && (k.unit = some u || (k.unit.isSome && pair k))

/-- An engine's engine number in task descriptors (Table 4-8). -/
def unitEngine : ExecUnit → Nat
  | .arrayA => 0 | .arrayB => 0 | .vector => 2 | .reed => 3 | .shuttle => 4 | .update => 5 | .fill => 6

/-- An engine has a task of its own running, and takes one at a time: the shuttle, update and fill engines of a die. A reed
task takes its channel instead (R283). -/
def Core.engineBusy (c : Core) (die : Nat) (u : ExecUnit) : Bool :=
  match u with
  | .reed => false
  | _ => c.running.any fun p => cuDie p.2.cu = die && p.2.unit = some u

/-- A context's harness defers weight gradients (R167, R251). -/
def Core.deferOn (c : Core) (x : Nat) : Bool := c.draft.elim false fun dr => bitOf (dr.func (c.ctx x).harness).flags 2

/-- The array tasks' choice of R248, R250 and R251 on one array of a CU. -/
def State.chooseArray (s : State) (cu cycle : Nat) (b : Bool) : Option (TaskRef × Task × Nat) :=
  let c := s.core
  let late := fun (p : TaskRef × Task × Nat) => p.2.1.defer && c.deferOn p.2.2
  let mine := s.candidates.filter fun p => p.2.1.cu = cu && p.2.1.desc.engine ≤ 1 && s.fits p.2.1 cycle
  let order := (mine.filter fun p => !late p) ++ mine.filter late
  let otherBusy := s.unitTaken cu cycle (if b then .arrayA else .arrayB)
  match order with
  | [] => none
  | p :: _ =>
    if p.2.1.desc.engine = 1 then (if otherBusy then none else some p)
    else if b && !otherBusy then none
    else some p

/-- The task that a unit starts at a cycle, if any. `i` is the CU for arrays and vector units and the die for engines. -/
def State.choose (s : State) (i : Nat) (u : ExecUnit) (cycle : Nat) : Option (TaskRef × Task × Nat) :=
  let c := s.core
  match u with
  | .arrayA => if s.unitTaken i cycle u then none else s.chooseArray i cycle false
  | .arrayB => if s.unitTaken i cycle u then none else s.chooseArray i cycle true
  | .vector =>
    if s.unitTaken i cycle u then none
    else s.candidates.find? fun p => p.2.1.cu = i && p.2.1.desc.engine = 2 && s.fits p.2.1 cycle
  | _ =>
    if c.engineBusy i u then none
    else s.candidates.find? fun p => cuDie p.2.1.cu = i && p.2.1.desc.engine = unitEngine u && s.fits p.2.1 cycle
      && (u ≠ .reed || c.reedFree p.2.2 p.1 p.2.1) && (u ≠ .shuttle || c.shuttleFree p.2.2 p.2.1)

/-- The dependency of a product on a feeding gather is met when the gather starts (R302), and that of a streaming reed task
on an array task when the array task starts (R301). -/
def Core.meetEarly (c : Core) (t : TaskRef) (k : Task) (x : Nat) : Core :=
  let feeds := k.desc.engine = 3 && (let b := c.argsOf x k 64
    (byteAt b 0 = 2 || byteAt b 0 = 8) && bitOf (byteAt b 3) 1)
  let meet := fun (y : Task) =>
    let streams := y.desc.engine = 3 && bitOf (byteAt (c.argsOf x y 64) 3) 0
    let early := (feeds && y.desc.engine ≤ 1) || (streams && k.desc.engine ≤ 1)
    if early && y.desc.deps.contains t.idx && !y.met.contains t.idx then { y with met := t.idx :: y.met } else y
  c.setOrder t.jno fun o => { o with tasks := o.tasks.map meet }

/-- A task waits for room among the held items of its die (R386). -/
def State.taskStalls (s : State) (x : Nat) (k : Task) : Bool :=
  let b := s.core.argsOf x k 128
  let range := fun (a n : Nat) => (blocksOf (s.core.resolve x a) n).any s.heldStall
  match k.desc.engine with
  | 3 => range (fieldAt b 0x18 8) (fieldAt b 0x20 8)
  | 4 => range (fieldAt b 0x10 8) (fieldAt b 0x18 4 + fieldAt b 0x1C 4 + fieldAt b 0x20 4)
  | 5 => if byteAt b 0 = 2 then range (fieldAt b 0x40 8) 12
    else s.core.persists (s.core.resolve x (fieldAt b 0x18 8)) && s.queueFull (cuDie k.cu) 132
  | 6 => byteAt b 0 ≠ 2 && range (fieldAt b 8 8) (fieldAt b 0x18 8)
  | e =>
    e < 2 && k.args.elim false fun b =>
      let p := s.core.prodOf x e k.desc.args b
      s.heldStall p.d1.aC || p.d2.elim false fun d => s.heldStall d.aC

/-- A running task's own operation, as far as it can go now. -/
def State.attempt (s : State) (t : TaskRef) : State :=
  match s.core.task t, s.core.taskCtx t with
  | some k, some x =>
    if k.phase ≠ .running || k.computed || s.core.stopped x || (2 < k.desc.engine && s.taskStalls x k) then s else
    match k.desc.engine with
    | 0 => s.goProduct t x fun s k => s.taskStalls x k
    | 1 => s.goProduct t x fun s k => s.taskStalls x k
    | 3 => s.joinReed t x
    | 4 => s.joinShuttle t x
    | 5 => s.orWait (.task t) fun s => s.runUpdate t x
    | 6 => s.orWait (.task t) fun s => s.runFill t x
    | _ => s
  | _, _ => s

/-- Instances whose tasks have gone on (R301). -/
def State.reedGo (s : State) : State :=
  (List.range 64).foldl (fun (s : State) ch => if s.core.current ch then s.poke ch else s) s

/-- A chosen task starts (R54, R63, R156). Where its context has a fault of the same cycle, it is aborted by that (Table 4-9, R131). -/
def State.startTask (s : State) (t : TaskRef) (k : Task) (x cycle : Nat) (u : ExecUnit) : State :=
  let charge := (x, cuRegion k.cu, k.desc.undo)
  let mark := fun (y : Task) =>
    { y with phase := .running, unit := some u, startPick := s.pick.counter, startCycle := cycle, taken := 0, computed := false,
             skips := 0, flags := 0, rowML := [], sram := 0, banks := [], tiles := 0
             args := if k.desc.engine ≤ 2 then none else some (s.core.argsOf x { y with args := none } 128) }
  let s1 := s.withCore fun c =>
    ({ c with cycle := cycle, pm := { c.pm with charges := charge :: c.pm.charges } }).setTask t mark
  let s2 := s1.withCore fun c => c.meetEarly t k x
  let s3 := if k.desc.engine = 2 then s2 else s2.attempt t
  let s4 := if s3.core.faulting x then s3.withCore fun c => c.abortCtx x else s3
  if k.desc.engine ≤ 1 then s4.reedGo else s4

/-- The context whose repair tasks array A of a CU runs next (R369): the holder of the slot whose lowest CU it is. -/
def State.repairHere (s : State) (cu cycle : Nat) : Option Nat :=
  let c := s.core
  (c.draft.bind fun d => d.slots.find? fun sl => sl.firstCu = cu).bind fun sl =>
    (c.slots.getD sl.id {}).holder.bind fun x =>
      if s.ctxAdmits x && !(c.repairsOf x).isEmpty && !s.unitTaken cu cycle .arrayA then some x else none

/-- The live entries that a task's LIVE table leaves on its CU (R125): those of the table that name the CU replace the CU's. The table is
read again as the task ends; a reading that is not valid then leaves the entries as they were (log entry 147). -/
def Core.keepLive (c : Core) (k : Task) (x : Nat) : Core :=
  match c.slotOf x with
  | none => c
  | some sl =>
    match c.readLive x sl.cuCount k.desc.live with
    | none => c
    | some l =>
      let cu := k.cu - sl.firstCu
      c.setCtx x fun y => { y with live := y.live.filter (·.cu ≠ cu) ++ l.filter (·.cu = cu) }

/-- The lines of a `RUN` order's result range that the host caches (R441). -/
def State.resultLines (s : State) (o : OrderSt) : List Nat :=
  match s.core.ctxOf o.ctx with
  | some x => if o.opcode = 0x10 && o.arg 0x28 8 ≠ 0 then s.tracked (s.core.resolve x (o.arg 0x20 8)) (o.arg 0x28 8) false else []
  | none => []

/-- A task ends (R157, R125, R271, R211): its storage is freed but for what its LIVE table keeps, and an order whose last
task ended is complete, the flush of its result range beginning (R441). DESIGN CHOICE (log 190): the LIVE table of an engine task, whose
CU field names a die only, governs no CU. -/
def State.finishTask (s : State) (t : TaskRef) (k : Task) (x : Nat) : State :=
  let n := s.pick.counter
  let s1 := s.withCore fun c =>
    let c1 := if k.desc.engine ≤ 2 then c.keepLive k x else c
    c1.setTask t fun y => { y with phase := .ended, unit := none, endPick := n, sram := 0, banks := [], rowML := [] }
  let free := fun (ch : Chan) =>
    let past := ch.parts.all fun q => (s1.core.task q).elim true fun y => y.phase = .ended
    if ch.parts.contains t && past then ch.closed else ch
  let s2 := s1.withCore fun c => { c with chans := c.chans.map free }
  match s2.core.order t.jno with
  | none => s2
  | some o =>
    if s2.core.faulting x || !(o.tasks.all fun y => y.phase = .ended) then s2
    else (s2.withCore fun c => c.complete t.jno 0 (o.tasks.map Task.skips).sum n).snoop (s2.resultLines o)

/-- An access of a task waits, for a snoop, a repair, a shadow block or the host link, or data that it forwards is not stored yet (R390). -/
def Core.hindered (c : Core) (t : TaskRef) : Bool := (c.forwards.any (·.1 = t)) || c.waits.any fun w => match w with
  | .task u => u = t
  | .write u _ _ => u = t
  | .read rd _ _ => readerTask (some rd) = some t
  | .image u _ _ _ => u = t

/-- TASK_END (R136): the task's own operation is done. A task still waiting for data, memory or a repair has not ended; nor has one whose
writes to T3 are not complete, and where one of them fails, `farOk` not being set, it ends with MEM.FAR (R443). -/
def execTaskEnd (d : TaskDone) (s : State) : Res :=
  if !s.inSpan then .next s else
  let t := d.ref
  let s1 := s.tellAborts (s.attempt t)
  match s1.core.task t, s1.core.taskCtx t with
  | some k, some x =>
    if k.phase ≠ .running || s1.core.faulting x || s1.core.hindered t || (k.desc.engine ≠ 2 && !k.computed) then .next s1
    else
      let due := s1.core.farDue (s1.core.farBlocks t.jno)
      if !due.isEmpty && !s1.linkUp then .next s1
      else if !due.isEmpty && !d.farOk then
        .next (s1.tellAborts ((s1.memEvent 3).withCore fun c => c.raiseTask t 0x0706 (due.headD (0, 0, [])).2.1))
      else .next (s1.tellAborts (((s1.farPut due).finishTask t k x).reedGo))
  | _, _ => .next s1

/-- DEPENDENCY_MET (R249): an array or vector task that has ended, or an engine task that ended in an earlier pick. -/
def execDependencyMet (t : TaskRef) (k : Nat) (s : State) : Res :=
  match s.core.task t, s.core.task ⟨t.jno, k⟩ with
  | some y, some d =>
    let ready := d.phase = .ended && (d.desc.engine ≤ 2 || d.endPick < s.pick.counter)
    if s.operational && y.desc.deps.contains k && !y.met.contains k && ready then
      .next (s.withCore fun c => c.setTask t fun y => { y with met := k :: y.met })
    else .next s
  | _, _ => .next s

/-- A task overruns at a cycle: it runs, or a fault of its context at the same cycle has aborted it, and it has raised none itself
(R131). -/
def Core.overruns (c : Core) (t : TaskRef) (k : Task) (cycle : Nat) : Bool :=
  let at_ := fun (f : CtxFault) => c.taskCtx t = some f.ctx && f.cycle = cycle
  k.phase = .running || (k.phase = .aborted && c.faults.any at_
    && !(c.faults.any fun f => f.jno = t.jno && f.idx = t.idx))

/-- TASK_OVERRUN (R55, R305, R306): a task still running at cycle L + 1 is a context fault. -/
def execTaskOverrun (t : TaskRef) (s : State) : Res :=
  if !s.inSpan then .next s else
  match s.core.task t with
  | some k =>
    let cycle := k.startCycle + k.desc.length + 1
    if k.startPick ≠ s.pick.counter || !s.core.overruns t k cycle then .next s else
    .next (s.tellAborts (s.withCore fun c => ({ c with cycle := cycle }).raiseTask t 0x0201 0))
  | none => .next s

end Sys2Proof.Machine
end

