-- ==== Sys2Proof/Machine/Staging.lean ====
section
/-! DEFINITION. Sys2Proof/Machine/Staging.lean: staging, checking, arming and applying a draft (03_draft.md, R80 to R100), and
the groups a draft gives this module (R79, R286, R287). -/

namespace Sys2Proof.Machine

/-- A draft command that is ignored (R83, R88). -/
def State.draftIgnored (s : State) : State := s.draftEvent 4

/-- A `CTX_CREATE` of this beat that took a slot of a withdrawn draft is executed again at the next beat: its context is free, and
the order stands as accepted (log entry 138). -/
def Core.recreate (c old : Core) (d : Option Draft) (n : Nat) : Core :=
  (List.range 64).foldl (fun (c : Core) x =>
    let k := c.ctx x
    let gone := k.state ≠ .free && (old.ctx x).state = .free && (d.bind fun q => q.slot k.slot) ≠ (c.draft.bind fun q => q.slot k.slot)
    if !gone then c else
    let again := fun (o : OrderSt) =>
      if o.opcode = 0x01 && o.doneAt = n && o.status = some (0, c.handle x) then
        { o with checked := false, applied := false, status := none, doneAt := 0 }
      else o
    { (c.setCtx x fun _ => old.ctx x) with orders := c.orders.map again }) c

/-- A group that holds an address enters its new epoch, by an absorption or a return (R309, R485). -/
def Group.turn (g : Group) (a : Nat) : Group :=
  if g.members.contains a then { g with epoch := g.epoch + 1, lost := false, served := true } else g

/-- A group re-forms without an address (R310). -/
def Group.drop (g : Group) (a : Nat) : Group :=
  if g.members.contains a then { g with epoch := g.epoch + 1, members := g.members.filter (· ≠ a), dropped := true, lost := false } else g

/-- A group that holds an address waits for its epoch (R308, R485). -/
def Group.wait (g : Group) (a : Nat) : Group := if g.members.contains a then { g with lost := true } else g

/-- What has met the groups since a draft was applied at this beat, on a group that the draft replaced: absorptions, drops, returns, a handback, and
losses and holds. -/
def State.sinceDraft (s : State) (p : Prior) (g : Group) : Group :=
  let r := s.reed
  let abs := r.absorbed.filter fun a => !p.reed.absorbed.contains a
  let drops := ((p.reed.drops.filter fun d => d.1 ≤ s.pick.counter && !r.drops.contains d).map Prod.snd).filter fun a => !abs.contains a
  let back := (p.reed.holds.filter fun h => h.2.2 && !r.holds.contains h).map Prod.fst
  let handed := if p.holds && !s.twin.holds then [twinAddr s.myAddr] else []
  let lost := (r.losses.map Prod.fst).filter fun a => !p.reed.losses.any (·.1 = a)
  let held := (r.holds.map Prod.fst).filter fun a => !p.reed.holds.any (·.1 = a)
  (lost ++ held).foldl Group.wait (handed.foldl Group.turn (back.foldl Group.turn (drops.foldl Group.drop (abs.foldl Group.turn g))))

/-- A draft applied at this beat and withdrawn before the commit step is discarded unapplied (R82, R83, R88): what it took the place of
is in force again, and what else the beat has changed stays. -/
def State.unapplyDraft (s : State) : State :=
  match s.draft.prior with
  | none => s
  | some p =>
    let d := s.committed.draft
    let moved := fun (i : Nat) => (d.bind fun q => q.slot i) ≠ (s.core.draft.bind fun q => q.slot i)
    let slots := s.core.slots.zipIdx.map fun e => if moved e.2 then p.slots.getD e.2 e.1 else e.1
    let entry := fun (q : Option Draft) (id : Nat) => (q.bind fun e => e.groups.find? (·.id = id % 256))
    let same := fun (g : Group) => entry d g.id = entry s.core.draft g.id
    let was := (p.groups.filter fun g => !same g).map (s.sinceDraft p)
    let limit := fun (q : KvPool) => { q with limit := d.elim q.limit fun e => (e.func (s.core.ctx q.ctx).harness).kvLimit }
    let frames := p.frames.filter fun f => !s.core.onchip.frames.any fun e => e.harness = f.harness && e.no = f.no
    let s1 := (s.withCore fun c => { (c.recreate s.committed d s.pick.counter) with
      draft := d, slots := slots, groups := c.groups.filter same ++ was, pools := c.pools.map limit
      gone := c.gone ++ p.gone.filter fun e => !c.gone.contains e
      onchip := { c.onchip with frames := c.onchip.frames ++ frames } }).followDraft d
    let turned := s1.core.groups.any fun g => p.groups.any fun k => k.id = g.id && k.epoch ≠ g.epoch
    let ended := p.pair = .sync && s1.twin.state = .unpaired && [16, 17].any fun q => (s1.port q).state = .up
    { s1 with
      draft := { s1.draft with due := false, prior := none }
      reed := { s1.reed with epochBeat := if turned then s1.reed.epochBeat else p.reed.epochBeat }
      twin := { s1.twin with state := if ended then .sync else s1.twin.state } }

/-- Any staged draft is discarded. -/
def State.dropStaged (s : State) (st : DraftState) : State :=
  let s1 := s.unapplyDraft
  { s1 with draft := { s1.draft with state := st, stagedId := 0, copy := [], readFail := none, due := false } }

/-- `STAGE` (R80, R82): the draft at DRAFT_STAGE_ADDR is to be read; any staged draft is discarded. DRAFT_STAGED_ID reads 0 until the
load has ended (log entry 139). -/
def State.stageCmd (s : State) : State :=
  let s1 := s.dropStaged .loading
  { s1 with draft := { s1.draft with from_ := s.draft.stageAddr, len := s.draft.stageLen } }

/-- `ARM` (R88). -/
def State.armCmd (s : State) : State :=
  let ok := s.draft.state = .checked || s.draft.state = .armed || s.draft.state = .missed
  if ok && s.pick.counter + 2 ≤ s.draft.applyBeat then
    let s1 := s.unapplyDraft
    { s1 with draft := { s1.draft with state := .armed, armedBeat := s.draft.applyBeat, due := false, lapsed := false } }
  else s.draftIgnored

/-- `DISARM` (R83, R88). -/
def State.disarmCmd (s : State) : State :=
  if s.draft.state = .armed then
    let s1 := s.unapplyDraft
    { s1 with draft := { s1.draft with state := .checked, due := false } }
  else s.draftIgnored

/-- `DISCARD` (R83). -/
def State.discardCmd (s : State) : State :=
  if s.draft.state = .empty || s.draft.state = .applied then s.draftIgnored else s.dropStaged .empty

/-- STAGE (R80, R82). -/
def execStage (s : State) : Res := if s.operational then .next s.stageCmd else .next s

/-- ARM (R88). -/
def execArm (s : State) : Res := if s.operational then .next s.armCmd else .next s

/-- DISARM (R83). -/
def execDisarm (s : State) : Res := if s.operational then .next s.disarmCmd else .next s

/-- DISCARD (R83). -/
def execDiscard (s : State) : Res := if s.operational then .next s.discardCmd else .next s

/-- The first 64-byte line of a host range whose read fails. -/
def firstBadLine (h : HostView) (a n : Nat) : Option Nat :=
  (List.range (ceilDiv n 64)).findSome? fun i =>
    if (hostRead h (a + 64 * i) (min 64 (n - 64 * i))).isNone then some (64 * i) else none

/-- DRAFT_LOAD_DONE (R80, R84, R428, R436), not while the host link is down: the copy is in the device reserve, and its check begins. R80 does not say when DRAFT_STAGED_ID
takes the new draft's id: it is set here, when the load ends (log entry 139). -/
def execDraftLoadDone (host : HostView) (s : State) : Res :=
  if !s.operational || s.draft.state ≠ .loading || !s.linkUp then .next s else
  let s1 := s.hostFetch s.draft.from_ s.draft.len
  match hostRead host s.draft.from_ s.draft.len with
  | some b => .next { s1 with draft := { s.draft with state := .checking, copy := b, stagedId := fieldAt b 0x10 8 } }
  | none =>
    let off := (firstBadLine host s.draft.from_ s.draft.len).getD 0
    .next { s1 with draft := { s.draft with state := .checking, readFail := some off } }

/-- The check of a staged draft: the first failing code and where it failed (R84, R85, R97, R436). -/
def State.checkStaged (s : State) : Option (Nat × Nat × Nat) :=
  match s.draft.readFail with
  | some off => some (0x0403, 0xFF, off)
  | none => draftCheck s.draft.copy s.draft.len (some s.geometry) s.core.draft .all

/-- DRAFT_CHECK_DONE (R84, R85). -/
def execDraftCheckDone (s : State) : Res :=
  if !s.operational || s.draft.state ≠ .checking then .next s else
  match s.checkStaged with
  | none => .next (({ s with draft := { s.draft with state := .checked } }).draftEvent 0)
  | some e =>
    .next (({ s with draft := { s.draft with
      state := .rejected, checkCode := e.1, whereSec := e.2.1, whereOff := e.2.2 } }).draftEvent 1)

/-- The slot entries that overlap a region. -/
def Draft.slotsOn (d : Draft) (r : Nat) : List SlotDef :=
  d.slots.filter fun sl => sl.firstCu < 32 * (r + 1) && 32 * r < sl.firstCu + sl.cuCount

/-- Condition 2 of Table 3-13 fails: a region whose harness or slot assignment changes holds a resident context or a live
object of its old harness. -/
def Core.harnessBusy (c : Core) (o d : Draft) : Bool :=
  let place := fun (q : Draft) (r : Nat) =>
    sortKey Prod.fst ((q.slotsOn r).map fun sl => (sl.id, sl.harness, sl.firstCu, sl.cuCount))
  (List.range 16).any fun r =>
    let old := o.harnessOfRegion r
    (old ≠ d.harnessOfRegion r || place o r ≠ place d r)
      && ((c.ctxs.any fun x => x.state ≠ .free && (o.slotsOn r).any fun sl => sl.id = x.slot)
        || c.objs.any fun p => some p.2.harness = old)

/-- Condition 3 of Table 3-13 fails: a slot that is removed or changed holds a resident context. -/
def Core.slotBusy (c : Core) (o d : Draft) : Bool :=
  o.slots.any fun sl => d.slot sl.id ≠ some sl && c.ctxs.any fun x => x.state ≠ .free && x.slot = sl.id

/-- The first failing apply condition of Table 3-13 at a beat, or 0 (R89, R90). -/
def State.applyTest (s : State) (d : Draft) (twinArmed : Option (Nat × Bytes)) : Nat :=
  let n := s.pick.counter
  match s.core.draft with
  | none => if s.twin.state = .sync && twinArmed ≠ some (n, d.twin.bytes) then 4 else 0
  | some o =>
    if s.core.harnessBusy o d then 2
    else if s.core.slotBusy o d then 3
    else if s.twin.state = .sync && twinArmed ≠ some (n, d.twin.bytes) then 4
    else 0

/-- A draft misses its beat (R89). -/
def State.missDraft (s : State) (reason : Nat) : State :=
  ({ s with draft := { s.draft with state := .missed, missReason := reason, due := false } }).draftEvent 3

/-- This beat is the join beat of a warm start, whose pick was not run (R484). -/
def State.warmJoin (s : State) : Bool := s.pick.warm && !s.pick.sampling

/-- An in-sync module sends its armed TWIN section and its named beat to its twin (R90). -/
def State.sendArmed (s : State) : State :=
  if s.draft.state = .armed && s.twin.state = .sync then s.emit (.draftSend (readDraft s.draft.copy).twin.bytes s.draft.armedBeat)
  else s

/-- The decision point's test of an armed draft (R42, R89): one whose beat a quiesce abandoned, whatever the counter is since, or has passed, or falls in the picks that a warm start does not
run, the join beat's among them (R484), has missed. -/
def State.testDraft (s : State) (twinArmed : Option (Nat × Bytes)) : State :=
  if s.draft.state ≠ .armed then s
  else if s.draft.lapsed || s.draft.armedBeat < s.pick.counter || (s.warmJoin && s.draft.armedBeat = s.pick.counter) then s.missDraft 1
  else if s.pick.counter < s.draft.armedBeat then s
  else
    match s.applyTest (readDraft s.draft.copy) twinArmed with
    | 0 => { s with draft := { s.draft with due := true } }
    | r => s.missDraft r

/-- The coordinates a group takes on an axis, for a member at an address (R79). -/
def GroupDef.coords (g : GroupDef) (addr x : Nat) : List Nat :=
  let ax := g.axes.getD x (0, 1, 1)
  if bitOf g.mask x then (List.range ax.2.1).map fun i => ax.1 + i * ax.2.2 else [(unpackAddr addr).getD x 0]

/-- The members of a group for a member at an address, in rank order (R79, R286): by node index, the even-D member first. -/
def GroupDef.membersOf (g : GroupDef) (lens : List Nat) (addr : Nat) : List Nat :=
  let all := (g.coords addr 0).flatMap fun a => (g.coords addr 1).flatMap fun b => (g.coords addr 2).flatMap fun c =>
    (g.coords addr 3).map fun d => [a, b, c, d]
  (sortKey (fun l => 2 * nodeIndex lens l + l.getD 3 0 % 2) all).map packAddr

/-- One group at a draft beat (R287, R93): new groups at epoch 1, changed ones one epoch on with counts cleared. A group that the
address does not belong to has no members here; one that a drop took from an absorbed address comes back with a changed entry alone (R310). -/
def Core.groupAt (c : Core) (old : Option Draft) (lens : List Nat) (addr shift : Nat) (g : GroupDef) : Option Group :=
  let fresh := if g.holds addr then g.membersOf lens addr else []
  let was := old.bind fun o => o.groups.find? (·.id = g.id)
  match c.group (g.id + shift), was with
  | some k, some w =>
    if w = g then some k
    else some { k with epoch := k.epoch + 1, members := fresh, counts := [], dropped := false, lost := false, served := false }
  | none, some w => if w = g then none else some { id := g.id + shift, epoch := 1, members := fresh, counts := [] }
  | _, none => some { id := g.id + shift, epoch := 1, members := fresh, counts := [] }

/-- The groups of this module, and of the address it has absorbed (R33, R287). -/
def State.draftGroups (s : State) (old : Option Draft) (d : Draft) : List Group :=
  let lens := s.geometry
  let mine := d.groups.filterMap (s.core.groupAt old lens s.myAddr 0)
  if s.twin.holds then mine ++ d.groups.filterMap (s.core.groupAt old lens (twinAddr s.myAddr) 256) else mine

/-- A slot at a draft beat: it keeps its holder and history where its entry is unchanged (R91). -/
def Core.slotAt (c : Core) (old : Option Draft) (d : Draft) (i : Nat) : Slot :=
  match d.slot i, old.bind fun o => o.slot i with
  | some a, some b => if a = b then c.slots.getD i {} else {}
  | _, _ => {}

/-- A draft is applied, section by section (R91 to R94): harnesses and slots, tiers, groups, shares, function modes, training
map, twin policy. A harness whose beam regions change loses its frames (R343). A group that is changed, added or removed turns
REED_EPOCH_BEAT (R93, R287). -/
def State.applyDraft (s : State) (d : Draft) : State :=
  let old := s.core.draft
  let groups := s.draftGroups old d
  let slots := (List.range 64).map (s.core.slotAt old d)
  let pools := s.core.pools.map fun p => { p with limit := (d.func (s.core.ctx p.ctx).harness).kvLimit }
  let changed := groups.any (fun g => (s.core.group g.id).elim true fun k => k.epoch ≠ g.epoch)
    || s.core.groups.any fun k => !groups.any (·.id = k.id)
  let same := fun (id : Nat) => (old.bind fun o => o.groups.find? (·.id = id)) = d.groups.find? (·.id = id)
  let rebeamed := fun (h : Nat) => old.elim false fun o => (o.tier h).beam ≠ (d.tier h).beam
  let s1 := s.withCore fun c => { c with
    draft := some d, slots := slots, groups := groups, pools := pools, gone := c.gone.filter fun e => same e.1
    onchip := { c.onchip with frames := c.onchip.frames.filter fun f => !rebeamed f.harness } }
  { s1 with
    pick := { s1.pick with pd10 := d.period10, wd := d.windowUs }
    reed := { s1.reed with epochBeat := if changed then s.pick.counter else s1.reed.epochBeat } }

/-- What the draft about to be applied takes the place of. -/
def State.priorOf (s : State) : Prior :=
  ⟨s.core.slots, s.core.groups, s.core.onchip.frames, s.reed, s.twin.state, s.twin.holds, s.core.gone⟩

/-- The draft of this beat is applied (R91): a boot draft at the join beat (R481), an armed draft at its beat. -/
def State.applyDue (s : State) : State :=
  match s.draft.boot with
  | some b => s.applyDraft (readDraft b)
  | none =>
    if s.draft.due then
      let s1 := s.applyDraft (readDraft s.draft.copy)
      { s1 with draft := { s1.draft with prior := some s.priorOf } }
    else s

/-- The application becomes final at the commit step (R91). -/
def State.draftFinal (s : State) : State :=
  match s.draft.boot with
  | some b =>
    ({ s with
      draft := { s.draft with boot := none, active := b, activeId := fieldAt b 0x10 8, activeBeat := s.pick.counter }
      flash := { s.flash with draftFresh := false } }).draftEvent 2
  | none =>
  if !s.draft.due then s else
  ({ s with
    draft := { s.draft with
      state := .applied, stagedId := 0, due := false, prior := none, active := s.draft.copy, copy := []
      activeId := fieldAt s.draft.copy 0x10 8, activeBeat := s.pick.counter }
    flash := { s.flash with draftFresh := false } }).draftEvent 2

end Sys2Proof.Machine
end

