-- ==== Sys2Proof/Machine/Twin.lean ====
section
/-! DEFINITION. Sys2Proof/Machine/Twin.lean: the pair (13_twin.md): pairing, what each twin keeps of the other, digests, the loss
of a twin and its absorption, handback, detach and drain. -/

namespace Sys2Proof.Machine

/-- A `TWIN_CTRL` command is ignored. -/
def State.twinIgnored (s : State) : State := s.twinEvent 5

/-- The TWIN section in force (Table 3-9). -/
def State.policy (s : State) : TwinPolicy := s.core.draft.elim (readTwin []) Draft.twin

/-- `TWIN_HASH` of the applied TWIN section (Table 13-3). -/
def State.twinHash (s : State) : Nat := hashWords 0 (u32Words 8 s.policy.bytes)

/-- A selvedge port is up. -/
def State.selvedgeUp (s : State) (p : Nat) : Bool := (s.opt.ports.getD (16 + p) {}).state = .up

/-- A hello frame (Table 13-3). -/
def State.hello (s : State) : Bytes :=
  let b := leBytes 8 s.pick.counter ++ s.glb.address.flatMap (leBytes 1) ++ leBytes 4 0x11520A48 ++ leBytes 8 s.twinHash
    ++ leBytes 4 s.fw.genVer ++ leBytes 4 s.fw.seqVer ++ leBytes 8 s.ord.sealed ++ leBytes 1 s.twin.role
    ++ leBytes 1 (b2n (s.twin.state = .absorbed)) ++ leBytes 18 0
  b ++ leBytes 4 (crc32c b)

/-- Hello frames leave on both selvedge ports (R381). -/
def State.sendHello (s : State) : State := s.emits ([16, 17].map fun p => .hello p s.hello)

/-- A failing pairing condition (Table 13-4, R409); out of HANDSHAKE the pair returns to UNPAIRED. -/
def State.pairFailed (s : State) (code : Nat) : State :=
  let st := if s.twin.state = .handshake then .unpaired else s.twin.state
  ({ s with twin := { s.twin with pairFail := code, state := st } }).report 0x0B02 0

/-- Pairing starts (R379, R380): the two modules attest each other, and hello frames are sent. -/
def State.startPairing (s : State) : State :=
  if s.twin.state ≠ .unpaired then s
  else
    let s1 := { s with freeCtr := s.freeCtr + 1 }
    if Config.attests s.freeCtr then ({ s1 with twin := { s1.twin with state := .handshake, pairFail := 0 } }).sendHello
    else s1.pairFailed 7

/-- The BAR0 source of the mailbox holds a command that is not done (R380, R502). -/
def State.bar0Busy (s : State) : Bool :=
  s.twin.pairAt || (s.mgt.waiting ++ s.mgt.due ++ s.mgt.longs).any fun c => c.src = .bar0

/-- `PAIR` (R380): the management plane starts pairing at the next beat window. -/
def State.pairCmd (s : State) : State :=
  if s.bar0Busy then s.twinIgnored else { s with twin := { s.twin with pairAt := true } }

/-- HELLO_TIMER (R379). -/
def execHelloTimer (s : State) : Res := if s.twin.state = .handshake then .next s.sendHello else .next s

/-- HANDSHAKE_TIMEOUT (R379). -/
def execHandshakeTimeout (s : State) : Res := if s.twin.state = .handshake then .next (s.pairFailed 8) else .next s

/-- The first failing condition of R381 on a received hello frame, or 0. -/
def State.helloCheck (s : State) (f : Bytes) : Nat :=
  let a := (List.range 4).map fun i => byteAt f (8 + i)
  let role := byteAt f 0x28
  let n := s.pick.counter
  let m := fieldAt f 0 8
  let roleOk := (role = 1 && s.twin.state = .absorbed) || (role = 0 && (s.twin.state = .unpaired || s.twin.state = .handshake))
  if packAddr a ≠ twinAddr s.myAddr || a.getD 3 0 = s.glb.address.getD 3 0 then 1
  else if fieldAt f 0xC 4 ≠ 0x11520A48 then 2
  else if !fwListed s.fw.manifest (fieldAt f 0x18 4) (fieldAt f 0x1C 4) then 3
  else if fieldAt f 0x10 8 ≠ s.twinHash || !s.policy.mirror then 4
  else if n + 1 < m || m + 1 < n then 5
  else if !roleOk then 6
  else 0

/-- The blocks that a copy of this module's persistent set sends (R382), and, from a module that holds its twin's address, those of the
absorbed contexts' objects for their replacement (R402). -/
def State.inCopy (s : State) (i : Nat) (o : Obj) : Bool :=
  (i < 2 ^ 20 && o.cls = 0) || (2 ^ 20 ≤ i && s.twin.state = .absorbed)

/-- Blocks leave for the twin, in the coding that MIRROR_CODING names (R382). -/
def State.sendCopy (s : State) (c : Core) (blks : List Nat) : State :=
  s.emits (blks.map fun b =>
    let raw := c.copyOf c.mem b
    let coded := if s.policy.coding = 1 then encodeC1 ((c.obj (addrIndex b)).elim false Obj.wide) raw.data else raw.data
    if coded.length < 16384 then .copySend true { raw with data := coded } else .copySend false raw)

/-- The instance counts that a completion notice carries (Table 13-5): those of the channels bound to the order's context. -/
def Core.noticeCounts (c : Core) (o : OrderSt) : List InstCount :=
  match c.ctxOf o.ctx with
  | none => []
  | some x => c.groups.flatMap fun g => (g.counts.filter fun e => (c.chan e.1).bound = some x).map fun e => ⟨g.id, e.1, e.2.1, e.2.2⟩

/-- The versions of the objects that an order's update rounds are of (R257). -/
def Core.roundVersions (c : Core) (o : OrderSt) : List (Nat × Nat) :=
  match c.ctxOf o.ctx with
  | none => []
  | some x => ((o.tasks.filterMap Task.round).eraseDups.filterMap (c.objById x)).map fun p => (p.1, p.2.version)

/-- An order's completion notice (Table 13-5). -/
def State.notice (s : State) (o : OrderSt) : Notice :=
  { jno := o.jno, seq := o.seq, ring := o.ring, status := (o.status.getD (0, 0)).1, result := (o.status.getD (0, 0)).2
    counts := s.core.noticeCounts o, items := (s.twin.own.items.filter fun i => itemJno i.1 = o.jno).length
    versions := s.core.roundVersions o }

/-- The whole copy leaves (R382, R402): every block of the committed objects that belong to it, and the journal entries, order copies and
notices of completions not yet published (Table 13-5). The tables go with each beat's exchange. -/
def State.startCopy (s : State) : State :=
  let s1 := s.sendCopy s.committed ((s.committed.objs.filter fun p => s.inCopy p.1 p.2).flatMap fun p =>
    (List.range p.2.blocks).map fun t => devAddr p.1 (16384 * t))
  let open_ := s1.core.orders.filter fun o => o.status.isSome && o.published.isNone
  (s1.emits (s1.ord.entries.map fun e => .journalSend e.encode e.bytes)).emits (open_.map fun o => .noticeSend (s1.notice o))

/-- The next beat after the twin's resume hello (R397, R485): the pair is in SYNC again, and the twin's groups enter their new epoch. -/
def State.resumed (s : State) : State :=
  if !s.twin.resume then s else
  if s.twin.state ≠ .hold then { s with twin := { s.twin with resume := false } } else
  let a := twinAddr s.myAddr
  let mark := fun (h : Nat × Nat × Bool) => if h.1 = a then (a, h.2.1, true) else h
  ({ s with twin := { s.twin with state := .sync, resume := false }, reed := { s.reed with holds := s.reed.holds.map mark } }).twinEvent 0

/-- HELLO_RECEIVED (R381, R382, R397, R402, R486). In COPYING the twin's hellos of its own HANDSHAKE may still come.
`fixed` codewords of the frame were corrected (R374). -/
def execHelloReceived (port : Nat) (frame : HelloFrame) (fixed : Nat) (s0 : State) : Res :=
  let s := s0.noteFec port fixed
  if !s.operational || frame.length ≠ 64 || crc32c (frame.take 0x3C) ≠ fieldAt frame 0x3C 4 || 2 < byteAt frame 0x28
      || !zeroAt frame 0x2A 18 then .next s else
  let role := byteAt frame 0x28
  let holds := byteAt frame 0x29
  match s.twin.state with
  | .hold => if role = 2 then .next { s with twin := { s.twin with resume := true } }
    else if holds = 1 then .next (s.halt 0x0C0A) else .next (s.pairFailed (s.helloCheck frame))
  | .sync => if holds = 1 && role ≠ 1 then .next (s.halt 0x0C0A)
    else if role = 2 then .next s else .next (s.pairFailed (s.helloCheck frame))
  | .handshake =>
    match s.helloCheck frame with
    | 0 => .next (({ s with twin := { s.twin with state := .copying, pairFail := 0, matched := false } }).sendHello.startCopy)
    | c => .next (s.pairFailed c)
  | .unpaired =>
    match s.helloCheck frame with
    | 0 => .next s.sendHello
    | c => .next (s.pairFailed c)
  | .absorbed =>
    match s.helloCheck frame with
    | 0 => .next (({ s with twin := { s.twin with replacing := true, copyDone := false, pairFail := 0 } }).sendHello.startCopy)
    | c => .next (s.pairFailed c)
  | .copying => .next s
  | _ => if role = 2 then .next s else .next (s.pairFailed (s.helloCheck frame))

/-- PAIR (R380). -/
def execPair (s : State) : Res := if s.operational then .next s.pairCmd else .next s

/-- A byte of the mirror. -/
def Mirror.byte (m : Mirror) (a : Nat) : Byte :=
  match getKey m.mem.cells a with
  | some b => b
  | none => Config.staleByte ((getKey m.objs (addrIndex a)).elim 0 Obj.created) a

/-- The bytes of a block of the mirror. -/
def Mirror.block (m : Mirror) (a : Nat) : Bytes :=
  let made := (getKey m.objs (addrIndex a)).elim 0 Obj.created
  cellRun (Config.staleByte made) (pickKeys m.mem.cells a 16384) a 16384

/-- Bytes written to the mirror: sectors covered whole become valid. -/
def Memory.mirrorWrite (m : Memory) (a : Nat) (data : Bytes) : Memory :=
  let whole := (sectorsOf a data.length).filter fun k => a ≤ 64 * k && 64 * k + 64 ≤ a + data.length
  { cells := putBytes m.cells a data, sectors := whole.foldl (fun l k => putKey l k .valid) m.sectors }

/-- What a write to the mirror brings: a run of bytes within a block, or a copied block. -/
inductive MirrorWrite
  | bytes (a : Nat) (data : Bytes)
  | copy (b : CopiedBlock)
  deriving DecidableEq, Repr

/-- The first byte that a write to the mirror changes. -/
def MirrorWrite.addr : MirrorWrite → Nat
  | .bytes a _ => a
  | .copy b => b.addr

/-- The bytes that a write to the mirror changes. -/
def MirrorWrite.length : MirrorWrite → Nat
  | .bytes _ d => d.length
  | .copy b => b.data.length

/-- A write to the mirror, done to a memory. -/
def MirrorWrite.to : MirrorWrite → Memory → Memory
  | .bytes a d, m => m.mirrorWrite a d
  | .copy b, m => m.putCopy b

/-- A run of bytes as writes that lie in one block each. -/
def runWrites (a : Nat) (data : Bytes) : List MirrorWrite :=
  (blockPieces (data.length / 16384 + 2) a data).map fun p => .bytes p.1 p.2

/-- The mirror's shadow block of an address, if the pick has one. -/
def Mirror.shadowAt (m : Mirror) (a : Nat) : Option HeldBlock := m.shadow.find? (·.addr = blockOf a)

/-- What the pick's writes have left of a block of the mirror. -/
def Mirror.now (m : Mirror) (a : Nat) : Memory :=
  (m.shadowAt a).elim m.mem fun h => { cells := h.cells, sectors := h.sectors }

/-- The stack that homes a block of the mirror. -/
def Mirror.stackOf (m : Mirror) (a : Nat) : Nat :=
  match (getKey m.objs (addrIndex a)).bind fun o => o.homes[addrOffset a / 16384]? with
  | some (.t2 st) => st
  | _ => 0

/-- The die whose queue a held item of the twin stands in (R386): a replay's is that of the engine that applies it, a block's the die of
the block's place in the mirror (log entry 78). -/
def Mirror.itemDie (m : Mirror) : HeldItem → Nat
  | .replay _ _ _ die _ => die
  | .block _ b => m.stackOf b.addr / 6
  | .copy b => m.stackOf b.addr / 6

/-- The queue of a die has no room left for one more block (R386): 64 MiB on each side. -/
def Mirror.queueFull (m : Mirror) (die : Nat) : Bool :=
  67108864 < ((m.items.filter fun i => m.itemDie i = die).map itemBytes).sum + 16384

/-- A write into the mirror's shadow block, which starts as the committed block; a repair of a sector that it covers is cancelled
(Table 12-4). -/
def Mirror.writeShadow (m : Mirror) (w : MirrorWrite) : Mirror :=
  let h := (m.shadowAt w.addr).getD (m.mem.takeBlock 64 (blockOf w.addr) none)
  let n := w.to { cells := h.cells, sectors := h.sectors }
  { m with
    shadow := { h with cells := n.cells, sectors := n.sectors } :: m.shadow.filter (·.addr ≠ blockOf w.addr)
    repairs := m.repairs.filter fun r => !r.covered w.addr w.length }

/-- A block of a stack's shadow pool is taken; none where the pool is empty (R333 to R335). -/
def Core.takePool (c : Core) (stack : Nat) : Option Core :=
  if c.pm.free.getD stack 0 = 0 then none else some { c with pm := { c.pm with free := modifyAt c.pm.free stack (· - 1) } }

/-- Writes to the mirror land in shadow blocks (R60, R387), all of them, or, where one finds no shadow block, none (R335). -/
def State.mirrorWrites (s : State) (ws : List MirrorWrite) : Option State :=
  ws.foldlM (fun (s : State) w =>
    let m := s.twin.mirror
    let room := if (m.shadowAt w.addr).isSome then some s.core else s.core.takePool (m.stackOf w.addr)
    room.map fun c => { s with core := c, twin := { s.twin with mirror := m.writeShadow w } }) s

/-- An item is a replay. -/
def isReplay : HeldItem → Bool
  | .replay .. => true
  | _ => false

/-- The commit step switches the mirror's shadow blocks in, and what the pick applied leaves the queue: the orders whose items are all
applied set the instance counts and the versions (R387). -/
def Mirror.turn (m : Mirror) : Mirror :=
  let ended := m.finished.filterMap fun j => m.notices.find? (·.jno = j)
  let new := ended.flatMap Notice.counts
  let latest := new.zipIdx.filter fun e => !(new.drop (e.2 + 1)).any fun q => q.group = e.1.group && q.ch = e.1.ch && q.peer = e.1.peer
  let counts := latest.map Prod.fst
  let vers := ended.flatMap Notice.versions
  let ver := fun (p : Nat × Obj) => (vers.reverse.find? (·.1 = p.1)).elim p fun v => (p.1, { p.2 with version := v.2, rounds := [] })
  let replays := m.taken.filter isReplay
  { m with
    mem := m.shadow.foldl Memory.replaceBlock m.mem, shadow := []
    items := m.taken.foldl (fun l i => l.erase i) m.items, taken := []
    released := m.released.filter fun j => !m.finished.contains j
    last := m.finished.getLast?.getD m.last
    counts := counts ++ m.counts.filter fun e => !counts.any fun q => q.group = e.group && q.ch = e.ch && q.peer = e.peer
    objs := m.objs.map ver
    replayed := (m.finished.isEmpty && m.replayed) || replays.any fun i => !m.finished.contains (itemJno i)
    finished := [], compare := false }

/-- The sectors of a run of bytes. -/
def sectorRuns : Nat → Bytes → List Bytes
  | 0, _ => []
  | n + 1, b => b.take 64 :: sectorRuns n (b.drop 64)

/-- The block hash of R393 over a block's bytes. -/
def blockHash (idx t : Nat) (b : Bytes) : Nat := hashWords (idx * 2 ^ 40 + t) ((sectorRuns 256 b).map crc32c)

/-- The digest of the PERSIST blocks of a set of objects (R393). -/
def digestOf (objs : List (Nat × Obj)) (rd : Nat → Bytes) : Nat :=
  ((objs.filter fun p => p.2.cls = 0).map fun p =>
    ((List.range p.2.blocks).map fun t => blockHash p.1 t (rd (devAddr p.1 (16384 * t)))).sum).sum % 2 ^ 64

/-- The digest of the mirror (R393). -/
def State.mirrorDigest (s : State) : Nat := digestOf s.twin.mirror.objs s.twin.mirror.block

/-- The mirror turns at the commit step, and its digest goes to the owner where an order that contained an update round has all its items
applied, or a re-copy is complete (R394, R395); the twin hears of a full queue that has room again (R386). -/
def State.turnMirror (s : State) : State :=
  let full := (List.range 4).filter s.twin.mirror.queueFull
  let send := s.twin.mirror.compare || (s.twin.state = .recopy && s.twin.recopied)
  let s0 := { s with twin := { s.twin with mirror := s.twin.mirror.turn } }
  let s1 := s0.emits ((full.filter fun d => !s0.twin.mirror.queueFull d).map Out.itemRoom)
  if send then s1.emit (.digestSend s1.mirrorDigest s1.twin.mirror.last) else s1

/-- This module's own objects, those of an absorbed module left out. -/
def Core.ownObjs (c : Core) : List (Nat × Obj) := c.objs.filter fun p => p.1 < 2 ^ 20

/-- The digest of this module's committed persistent set. -/
def State.ownDigest (s : State) : Nat := digestOf s.committed.ownObjs s.committed.blockNow

/-- The released digest after an order (R393, R394): in COPYING, and for a handback copy, that of the committed persistent set; of an
order that was not released since the pair's last entry into SYNC by a copy, that of the copy. -/
def State.releasedDigest (s : State) (jno : Nat) : Nat :=
  if s.twin.state = .copying || s.twin.state = .absorbed then s.ownDigest
  else (getKey s.twin.own.digests jno).getD s.twin.own.base

/-- The released block hashes at `SYNC` entry: those of the committed persistent set. -/
def State.startHashes (s : State) : State :=
  let objs := s.committed.ownObjs.filter fun p => p.2.cls = 0
  let rel := objs.flatMap fun p => (List.range p.2.blocks).map fun t =>
    (devAddr p.1 (16384 * t), blockHash p.1 t (s.committed.blockNow (devAddr p.1 (16384 * t))))
  let done := (s.core.orders.filter fun o => o.published.isSome).map OrderSt.jno
  { s with twin := { s.twin with own := { s.twin.own with
    rel := rel, digests := [], base := (rel.map Prod.snd).sum % 2 ^ 64, hashes := [], done := done, tell := [] } } }

/-- The pair enters `SYNC` from `COPYING` (R383). -/
def State.enterSync (s : State) : State :=
  (({ s with twin := { s.twin with
    state := .sync, matched := false, detected := false, syncFrom := s.pick.counter + 1 } }).startHashes).twinEvent 0

/-- SYNC_ENTRY at the decision point (R383). -/
def State.syncEntry (s : State) (twinReady : Bool) : State :=
  if s.twin.state = .copying && s.twin.matched && twinReady && s.twin.own.items.isEmpty then s.enterSync else s

/-- The digest that the owner keeps for each PERSIST object (R394), as released. -/
def State.objDigests (s : State) : List (Nat × Nat) :=
  (s.committed.ownObjs.filter fun p => p.2.cls = 0).map fun p =>
    (p.1, ((s.twin.own.rel.filter fun e => addrIndex e.1 = p.1).map Prod.snd).sum % 2 ^ 64)

/-- The objects whose digests here and at the twin differ (R395). -/
def differing (mine : List (Nat × Nat)) (theirs : List (Nat × Word)) : List Nat :=
  (theirs.filter fun e => (getKey mine e.1).getD 0 ≠ e.2.toNat).map Prod.fst
    ++ (mine.filter fun e => !theirs.any (·.1 = e.1)).map Prod.fst

/-- The digest of each object of the mirror (R395). -/
def State.mirrorDigests (s : State) : List (Nat × Nat) :=
  (s.twin.mirror.objs.filter fun p => p.2.cls = 0).map fun p => (p.1, digestOf [p] s.twin.mirror.block)

/-- The blocks of the objects listed. -/
def blocksIn (objs : List (Nat × Obj)) (l : List Nat) : List Nat :=
  (objs.filter fun p => l.contains p.1).flatMap fun p => (List.range p.2.blocks).map fun t => devAddr p.1 (16384 * t)

/-- Blocks of the mirror leave for their owner (R395). -/
def State.sendMirror (s : State) (blks : List Nat) : State :=
  let m := s.twin.mirror
  let bad := fun (b k : Nat) => match getKey m.mem.sectors (b / 64 + k) with | some (.bad y) => some (k, y) | _ => none
  s.emits (blks.map fun b => .copySend false { addr := b, data := m.block b, bad := (List.range 256).filterMap (bad b) })

/-- The twin's per-object digests come (R395), of its mirror and of its own set. Of every object of this module that differs, the blocks
leave for the twin, or, where the twin's mirror is authoritative, are re-copied onto this module; of every object of the twin that differs,
the blocks of this module's mirror leave where the twin has logged a detection. -/
def State.exchange (s : State) (objs own : List (Nat × Word)) (detected : Bool) : State :=
  let l := differing s.objDigests objs
  let s1 := if s.twin.detected then { s with twin := { s.twin with recopying := l } }
    else s.sendCopy s.committed (blocksIn s.committed.ownObjs l)
  if detected then s1.sendMirror (blocksIn s.twin.mirror.objs (differing s.mirrorDigests own)) else s1

/-- A digest mismatch (R395): both twins report it, and per-object digests of this module's set and of its mirror leave. -/
def State.diverged (s : State) : State :=
  ((({ s with twin := { s.twin with state := .recopy, recopying := [], recopied := false, matched := false } }).report 0x0B01 0).twinEvent 1).emit
    (.objDigests s.objDigests s.mirrorDigests s.twin.detected)

/-- The pair returns to SYNC once the re-copy is complete and the digests match (Table 13-2). -/
def State.recopyEnd (s : State) : State :=
  if s.twin.state = .recopy && s.twin.recopied && s.twin.matched then
    ({ s with twin := { s.twin with state := .sync, recopied := false, detected := false } }).twinEvent 0
  else s

/-- Every object of the absorbed set stands at the replacement as it does here (R403). -/
def State.absorbedSent (s : State) (own : List (Nat × Word)) : Bool :=
  (s.committed.objs.filter fun p => 2 ^ 20 ≤ p.1).all fun p =>
    (getKey own (p.1 - 2 ^ 20)).elim false fun d =>
      d.toNat = ((List.range p.2.blocks).map fun t =>
        blockHash (p.1 - 2 ^ 20) t (s.committed.blockNow (devAddr p.1 (16384 * t)))).sum % 2 ^ 64

/-- DIGEST_RECEIVED (R394, R395, R403). Per-object digests come of a twin that has found a mismatch, with whether it has logged a
detection, and of a replacement those of the absorbed set's objects that it holds. -/
def execDigestReceived (digest : Word) (jno : Nat) (objs : ObjDigests) (s : State) : Res :=
  if !s.operational then .next s else
  let ok := digest.toNat = s.releasedDigest jno
  let s1 := { s with twin := { s.twin with lastDigest := digest.toNat, matched := ok } }
  let clean := { s1 with twin := { s1.twin with detected := s.twin.detected && !ok } }
  let listed := !objs.mirror.isEmpty || !objs.own.isEmpty
  match s.twin.state with
  | .sync => if ok && !listed then .next clean else .next (if listed then s1.diverged.exchange objs.mirror objs.own objs.detected else s1.diverged)
  | .copying => .next clean
  | .recopy => .next (if listed then s1.exchange objs.mirror objs.own objs.detected else clean.recopyEnd)
  | .absorbed =>
    if s.twin.replacing then .next { clean with twin := { clean.twin with copyDone := s.twin.copyDone || (ok && s.absorbedSent objs.own) } }
    else .next s
  | _ => .next s

/-- `COMPARE` (R394): the mirror digest goes to the owner. -/
def State.compareCmd (s : State) : State :=
  if s.twin.state = .sync || s.twin.state = .recopy then s.emit (.digestSend s.mirrorDigest s.twin.mirror.last)
  else s.twinIgnored

/-- COMPARE (R394). -/
def execCompare (s : State) : Res := if s.operational then .next s.compareCmd else .next s

/-- The released digests after a re-copy onto this module (R393, R395): that of each order moves by what the blocks change. -/
def HeldSide.recopied (w : HeldSide) (new : List (Nat × Nat)) : HeldSide :=
  let known := new.filter fun e => w.rel.any (·.1 = e.1)
  let delta := (known.map fun e => e.2 + 2 ^ 64 - (getKey w.rel e.1).getD 0 % 2 ^ 64).sum
  { w with
    rel := putAll w.rel known, base := (w.base + delta) % 2 ^ 64
    digests := w.digests.map fun e => (e.1, (e.2 + delta) % 2 ^ 64) }

/-- RECOPY_DONE (R395): the blocks re-copied onto this module, and onto its mirror, are shadow blocks until the commit step, and the
re-copy is complete. Blocks that find no shadow block hold it up to the next pick (R335). -/
def execRecopyDone (own theirs : List CopiedBlock) (s : State) : Res :=
  if !s.operational || s.twin.state ≠ .recopy then .next s else
  let put := fun (q : Core × Bool) (w : CopiedBlock) =>
    match q.1.obj (addrIndex w.addr) with
    | some o => if q.1.holds w.addr w.data then q else
      let r := q.1.shadowCopy o.ctx w
      (r.1, q.2 && r.2)
    | none => q
  let q := own.foldl put (s.core, true)
  if !q.2 then .next (({ s with core := q.1 }).memEvent 2) else
  match ({ s with core := q.1 } : State).mirrorWrites (theirs.map .copy) with
  | none => .next (({ s with core := q.1 }).memEvent 2)
  | some s1 =>
    let hash := fun (w : CopiedBlock) => (w.addr, blockHash (addrIndex w.addr) (addrOffset w.addr / 16384) w.data)
    .next ({ s1 with twin := { s1.twin with
      recopying := [], recopied := true, matched := s1.twin.matched && theirs.isEmpty && own.isEmpty
      own := s1.twin.own.recopied (own.map hash) } }).recopyEnd

/-- A journal entry of the twin read from its 64 bytes, with its order (Table 4-4). -/
def readEntry (e order : Bytes) : JEntry :=
  { seq := fieldAt e 0 8, ringIndex := fieldAt e 8 8, sealBeat := fieldAt e 0x10 8, jno := fieldAt e 0x18 8
    ring := byteAt e 0x20 % 64, client := byteAt e 0x21, opcode := byteAt e 0x22, kind := byteAt e 0x23
    ctx := fieldAt e 0x24 2, handle := fieldAt e 0x24 2, status := fieldAt e 0x26 2, crc := fieldAt e 0x28 4, bytes := order }

/-- An accepted or refused entry moves its ring's TAKEN, H and window (Table 4-6). -/
def RingJnl.take (j : RingJnl) (e : JEntry) : RingJnl :=
  let j1 := { j with taken := e.ringIndex + 1 }
  if e.kind = 1 then { j1 with h := some e.seq, window := ((e.seq, e.jno, none) :: j1.window).take 65536 } else j1

/-- This module keeps a journal of its twin. -/
def State.keepsTwin (s : State) : Bool :=
  s.twin.state = .copying || s.twin.state = .sync || s.twin.state = .recopy || s.twin.state = .hold

/-- A journal entry has a reserved bit or encoding set (Table 4-4). -/
def entryReserved (e : Bytes) : Bool := !zeroAt e 0x2C 16 || 64 ≤ byteAt e 0x20 || byteAt e 0x23 = 0 || 4 ≤ byteAt e 0x23

/-- Two entries are of the same order as it was taken: one is sent again until it is sealed (R65, R110). -/
def JEntry.sameAs (e f : JEntry) : Bool := e.ring = f.ring && e.ringIndex = f.ringIndex && e.seq = f.seq && e.kind = f.kind && e.bytes = f.bytes

/-- JOURNAL_ENTRY_RECEIVED (R110, R384): the entry and its order copy are stored and confirmed, once however often they come (R406), and
are in the mirrored journal from the sealing on; an entry with a reserved bit set is not stored (R11). -/
def execJournalEntryReceived (entry order : Bytes) (s : State) : Res :=
  if !s.operational || !s.keepsTwin || entry.length ≠ 64 || entryReserved entry || crc32c (entry.take 0x3C) ≠ fieldAt entry 0x3C 4 then .next s else
  let e := readEntry entry order
  let m := s.twin.mirror
  let s1 := { s with twin := { s.twin with mirror := { m with arrived := (m.arrived.filter fun (f : JEntry) => !f.sameAs e) ++ [e] } } }
  .next (s1.emit (.entryStored e.ring e.ringIndex))

/-- One entry that has arrived joins the mirrored journal; one that was there under another number takes the new one. -/
def Mirror.seal (m : Mirror) (e : JEntry) : Mirror :=
  let old := m.entries.find? fun f => f.sameAs e
  let renumber := fun (w : Nat × Nat × Option (Nat × Nat)) => if old.any fun f => f.jno = w.2.1 then (w.1, e.jno, w.2.2) else w
  { m with
    entries := (m.entries.filter fun f => !f.sameAs e) ++ [e]
    jnl := modifyAt m.jnl e.ring fun j => if old.isSome then { j with window := j.window.map renumber } else j.take e }

/-- The twin's entries that have arrived are sealed at this beat (Table 13-5). -/
def State.sealTwin (s : State) : State :=
  if !s.keepsTwin then s else
  let m := s.twin.mirror
  { s with twin := { s.twin with mirror := { m.arrived.foldl Mirror.seal m with arrived := [] } } }

/-- COMPLETION_NOTICE_RECEIVED (R389): the twin stored a notice, and its completion may be published; or its queue of
a die's held items is full (R386); or a notice of the twin is kept (Table 13-5). -/
def execCompletionNoticeReceived (n : NoticeEvent) (s : State) : Res :=
  if !s.operational then .next s else
  match n with
  | .stored jno => .next (s.withCore fun c => c.setOrder jno fun o => { o with stored := o.status.isSome })
  | .itemsStored jno k => .next (s.withCore fun c => c.setOrder jno fun o => { o with itemsIn := max o.itemsIn k })
  | .forwardStored a => .next (s.withCore fun c => { c with forwards := c.forwards.filter (·.2 ≠ a) })
  | .queueFull die => .next { s with twin := { s.twin with own := { s.twin.own with full := setAt s.twin.own.full die true } } }
  | .twins q =>
    if !s.keepsTwin then .next s else
    let m := s.twin.mirror
    let mend := fun (e : Nat × Nat × Option (Nat × Nat)) => if e.2.1 = q.jno then (e.1, e.2.1, some (q.status, q.result)) else e
    let notices := (m.notices.filter fun (k : Notice) => k.jno ≠ q.jno) ++ [q]
    let jnl := m.jnl.map fun j => { j with window := j.window.map mend }
    .next (({ s with twin := { s.twin with mirror := { m with notices := notices, jnl := jnl } } }).emit (.noticeStored q.jno))

/-- HELD_ITEM_RECEIVED (R386, R382): a held item is stored in the device reserve, and confirmed; a block of a copy is written to the
mirror as a shadow block (R60), and where the pool is empty it is sent again. The sender hears when the queue has no room left for one
more block. -/
def execHeldItemReceived (item : HeldItem) (s : State) : Res :=
  if !s.operational || !s.keepsTwin then .next s else
  let m := s.twin.mirror
  match item with
  | .copy b => .next ((s.mirrorWrites [.copy b]).getD (s.memEvent 2))
  | _ =>
    let s1 := ({ s with twin := { s.twin with mirror := { m with items := m.items ++ [item] } } }).emit (.itemStored (itemJno item))
    let die := m.itemDie item
    .next (if s1.twin.mirror.queueFull die then s1.emit (.itemsFull die) else s1)

/-- What a held item writes to the mirror (R387): a replay runs the update engine's arithmetic on it, with the value read at
`NORM_ADDR` given. -/
def Mirror.itemWrites (m : Mirror) (i : HeldItem) : List MirrorWrite :=
  match i with
  | .block _ b => [.copy b]
  | .copy b => [.copy b]
  | .replay _ b norm _ _ =>
    let d := readUpdate b
    let byte := fun (a : Nat) => ({ m with mem := m.now a } : Mirror).byte a
    let rd := fun (a n : Nat) => leNat ((List.range n).map fun k => byte (a + k))
    (clipFactor d norm).elim [] fun c => (d.runs rd c).flatMap fun w => runWrites w.1 w.2

/-- The items of an order that the pick has not applied yet. -/
def Mirror.left (m : Mirror) : List HeldItem := m.taken.foldl (fun l i => l.erase i) m.items

/-- A write to a block of the drain's image, which is not drained yet, waits (R405). -/
def Twin.drainHolds (t : Twin) (ws : List MirrorWrite) : Bool :=
  t.drain.elim false fun d => ws.any fun w => (getKey d.2 (addrIndex w.addr)).isSome

/-- REPLAY_APPLY (R387): the next released item is applied, in shadow blocks, or, once an order's items are, the order is over: its
instance counts and versions are taken at the commit step and, if it contained an update round, the digests are compared (R394), which no
other order's items pass in that pick (log entry 181). -/
def execReplayApply (s : State) : Res :=
  let m := s.twin.mirror
  match m.released.find? fun j => !m.finished.contains j with
  | none => .next s
  | some j =>
    if !s.operational || m.compare then .next s else
    match m.left.find? fun i => itemJno i = j with
    | some i =>
      let ws := m.itemWrites i
      if s.twin.drainHolds ws then .next s else
      match s.mirrorWrites ws with
      | none => .next (s.memEvent 2)
      | some s1 => .next { s1 with twin := { s1.twin with mirror := { s1.twin.mirror with taken := s1.twin.mirror.taken ++ [i] } } }
    | none =>
      let update := (m.finished.isEmpty && m.replayed) || m.taken.any fun i => isReplay i && itemJno i = j
      .next { s with twin := { s.twin with mirror := { m with finished := m.finished ++ [j], compare := update } } }

/-- ACCUMULATOR_FORWARD_RECEIVED (R390): the data is stored in the mirror, and confirmed; where it finds no shadow block it is sent
again. -/
def execAccumulatorForwardReceived (addr : Nat) (data : Bytes) (s : State) : Res :=
  if !s.operational || !s.keepsTwin then .next s else
  match s.mirrorWrites (runWrites addr data) with
  | none => .next (s.memEvent 2)
  | some s1 => .next (s1.emit (.forwardStored addr))

/-- An object of the twin as it is kept here: the mirror of a PERSIST object is homed by R337 on this module (R385), and its version
moves at a release (Table 13-5), but in COPYING, where the copy brings it. -/
def State.mirrorObj (s : State) (objs : List (Nat × Obj)) (o : TwinObj) : Nat × Obj :=
  let old := getKey s.twin.mirror.objs o.index
  let far := o.homes.map fun h => h.elim (Home.t3 0 false) Home.t2
  let td := s.core.draft.map fun d => d.tier o.harness
  let acc := s.core.placeAcc (objs.filter fun p => p.2.cls = 0) o.harness
  let fresh := (placeAll (affinityDies o.affinity) (td.elim 0 fun t => t.quota) (storedBlock o.coding o.format) (0, 0) false
    (o.size / 16384) 0 acc).getD []
  let homes := if o.cls ≠ 0 then far
    else match old with
      | some k => if k.created = o.created then k.homes else fresh
      | none => fresh
  let same := if o.cls = 0 && s.twin.state ≠ .copying then old.filter fun k => k.created = o.created else none
  let rounds := if o.inUpdate then [noOrder] else []
  (o.index,
    { id := o.id, ctx := o.ctx, cls := o.cls, single := o.single, format := o.format, coding := o.coding, size := o.size
      rows := o.rows, cols := o.cols, stride := o.stride, lifetime := o.lifetime, affinity := o.affinity, farOk := o.farOk
      pattern := o.pattern, harness := o.harness, created := o.created, homes := homes
      version := same.elim o.version Obj.version, rounds := same.elim rounds Obj.rounds, fill := o.fill, mirrorTag := o.cls = 0 })

/-- A context of the twin's table as it is kept here: what it was doing is not mirrored, that it is FAULTED is (R384). -/
def twinCtx (c : TwinCtx) : Ctx :=
  { state := if c.fault.isSome then .faulted else .idle, fault := c.fault.getD 0, inc := c.inc, client := c.client, slot := c.slot
    cls := c.cls, harness := c.harness }

/-- The journal exchange brings the twin's tables (Table 13-5). -/
def State.takeTables (s : State) (t : TwinTables) : State :=
  let m := s.twin.mirror
  let objs := t.objs.foldl (fun l o => let e := s.mirrorObj l o; putKey l e.1 e.2) []
  let gone := (m.objs.filter fun p => (getKey objs p.1).elim true fun o => o.created ≠ p.2.created).map Prod.fst
  let mem := gone.foldl (fun (mem : Memory) i =>
    { cells := dropKeys mem.cells (devAddr i 0) (2 ^ 40), sectors := dropKeys mem.sectors (devAddr i 0 / 64) (2 ^ 34) }) m.mem
  let ctx := fun i => (t.ctxs.find? (·.index = i)).elim (m.ctxs.getD i {} |> fun c => ({ inc := c.inc } : Ctx)) fun c =>
    twinCtx c
  let ring := fun i => (t.rings.find? (·.ring = i)).elim (m.rings.getD i {}) fun r =>
    { m.rings.getD i {} with base := r.base, records := r.records, client := r.client, sizeLog2 := r.sizeLog2 }
  let kept := fun (i jno : Nat) => ((m.jnl.getD i {}).window.find? (·.2.1 = jno)).bind fun e => e.2.2
  let jnl := fun i => (t.rings.find? (·.ring = i)).elim (m.jnl.getD i {}) fun r =>
    { taken := r.taken, h := r.h, window := r.window.map fun e => (e.1, e.2.1, e.2.2.or (kept i e.2.1)) }
  { s with twin := { s.twin with mirror := { m with
      objs := objs, mem := mem, ctxs := (List.range 64).map ctx, rings := (List.range 64).map ring
      jnl := (List.range 64).map jnl, groups := t.groups, slots := t.slots, quotas := t.quotas
      released := m.released ++ t.released.filter fun j => !m.told.contains j
      told := m.told ++ t.released.filter fun j => !m.told.contains j } } }

/-- An object of this module as the journal exchange names it. -/
def Obj.toTwin (o : Obj) (i : Nat) : TwinObj :=
  { index := i, id := o.id, ctx := o.ctx, cls := o.cls, single := o.single, format := o.format, coding := o.coding, size := o.size
    rows := o.rows, cols := o.cols, stride := o.stride, lifetime := o.lifetime, affinity := o.affinity, farOk := o.farOk
    pattern := o.pattern, fill := o.fill, harness := o.harness, created := o.created, version := o.version, inUpdate := o.inUpdate
    homes := o.homes.map fun h => match h with | .t2 st => some st | .t3 .. => none }

/-- The contexts of a list as the journal exchange names them. -/
def twinCtxs (l : List Ctx) : List TwinCtx :=
  (l.zipIdx.filter fun k => k.1.state ≠ .free).map fun k =>
    ⟨k.2, k.1.inc, k.1.client, k.1.slot, k.1.cls, k.1.harness, if k.1.state = .faulted then some k.1.fault else none⟩

/-- A ring's configuration and journal as the exchange names it. -/
def RingJnl.toTwin (j : RingJnl) (ring : Nat) (r : RingReg) : TwinRing :=
  ⟨ring, r.base, r.records, r.client, r.sizeLog2, j.taken, j.h, j.window⟩

/-- What this module's journal exchange of the beat brings the twin (Table 13-5). -/
def State.ownTables (s : State) : TwinTables :=
  let c := s.core
  let ring := fun (i : Nat) => if (c.rings.getD i {}).running then some ((s.ord.jnl.getD i {}).toTwin i (s.ord.regs.getD i {})) else none
  let d := c.draft
  { objs := c.ownObjs.map fun p => p.2.toTwin p.1
    ctxs := twinCtxs (c.ctxs.map fun k => if k.absorbedTag then {} else k), rings := (List.range 64).filterMap ring
    groups := (c.groups.filter (·.id < 256)).map fun g => (g.id, g.epoch), released := s.twin.own.tell
    slots := (d.elim [] Draft.slots).map fun sl => (sl.id, sl.cuCount)
    quotas := (d.elim [] Draft.harnesses).map fun h => (h.id, (d.elim 0 fun d => (d.tier h.id).quota)), pools := [] }

/-- The journal exchange of a beat leaves for the twin (R384, R387). -/
def State.sendTables (s : State) : State :=
  if s.keepsTwin then { s with twin := { s.twin with own := { s.twin.own with tell := [] } } }.emit (.tablesSend s.ownTables) else s

/-- The picks that tasks of these lengths take on one engine, one after the other, each wholly in a task span (R54). -/
def packPicks (span : Nat) (lengths : List Nat) : Nat :=
  let r := lengths.foldl (fun (p : Nat × Nat) l => if p.1 ≠ 0 && p.2 + l + 64 ≤ span then (p.1, p.2 + l) else (p.1 + 1, l)) (0, 0)
  r.1

/-- The picks that the update engines need for the released items still queued, at their declared lengths (R398): each die's one after
the other, in spans of the pick's length (log entry 67). -/
def State.queuePicks (s : State) : Nat :=
  let m := s.twin.mirror
  let span := spanCycles s.pick.period10 s.pick.windowUs s.pick.step
  let of := fun (die : Nat) => m.items.filterMap fun i => match i with
    | .replay j _ _ d l => if d = die && m.released.contains j then some l else none
    | _ => none
  ((List.range 4).map fun die => packPicks span (of die)).foldl max 0

/-- The twin's order is complete as far as this module knows (R389): its notice is stored, with all its held items. -/
def Mirror.isDone (m : Mirror) (jno : Nat) : Bool :=
  m.notices.any fun q => q.jno = jno && q.items ≤ (m.items.filter fun i => itemJno i = jno).length

/-- The orders of the twin that count as complete when it is lost, though it did not tell of their release (R389, R398): each could be
published, and every order of its context before it is complete (log entry 182). -/
def Mirror.closeable (m : Mirror) : List Nat :=
  let orders := m.entries.filter (·.kind = 1)
  let before := fun (j : Nat) => (orders.find? (·.jno = j)).elim [] fun e => orders.filter fun f => f.ctx = e.ctx && f.jno < j
  (sortKey Notice.jno m.notices).foldl (fun (l : List Nat) q =>
    let past := (before q.jno).all fun f => m.told.contains f.jno || l.contains f.jno
    if m.isDone q.jno && !m.told.contains q.jno && past then l ++ [q.jno] else l) []

/-- This module begins to absorb its twin, whose last completed beat is given (R398): held items of orders not released are
discarded, fetches that are out come back "absent", and the loss notice names the absorb beat if AUTO_ABSORB is set, or the absorption is
`planned` (R404). -/
def State.startAbsorb (s0 : State) (b : Nat) (planned : Bool) : State :=
  let s := s0.dropFetches
  let m := s.twin.mirror
  let closed := m.closeable
  let rel := m.released ++ closed
  let m1 := { m with released := rel, closed := closed, items := m.items.filter fun i => rel.contains (itemJno i) }
  let q := ({ s with twin := { s.twin with mirror := m1 } }).queuePicks
  let a := if s.policy.autoAbsorb || planned then some (b + 4 + q) else none
  let addr := twinAddr s.myAddr
  let suspect := s.twin.state = .recopy
  let s1 := { s with twin := { s.twin with
    state := .absorbed, absorbAt := a, lastBeat := b, suspect := suspect, dropped := false, recopying := [], resume := false, mirror := m1 } }
  ((s1.withCore fun c => { c with forwards := [] }).lossNotice addr b a).emit (.lossNoticeOut addr b a)

/-- The pair ends without an absorption: what waited for the twin waits no more, and groups that hold the twin are told of its loss
(R308). -/
def State.unpair (s0 : State) (lost : Option Nat) : State :=
  let s := s0.dropFetches
  let s1 := ({ s with twin := { s.twin with state := .unpaired, resume := false } }).withCore fun c => { c with forwards := [] }
  match lost with
  | none => s1
  | some b => (s1.lossNotice (twinAddr s.myAddr) b none).emit (.lossNoticeOut (twinAddr s.myAddr) b none)

/-- The twin is lost (R396, R379): absorbed from SYNC, HOLD and RECOPY (Table 13-9), the pair ended from COPYING; a module in no pair
tells the system alone (R308). -/
def State.twinLost (s : State) (code b : Nat) : State :=
  match s.twin.state with
  | .sync => (s.report code 0).startAbsorb b false
  | .hold => (s.report code 0).startAbsorb b false
  | .recopy => (s.report code 0).startAbsorb b false
  | .copying => (s.report code 0).unpair (some b)
  | .handshake => s.unpair (some b)
  | .absorbed => { s with twin := { s.twin with replacing := false } }
  | _ => s

/-- TWIN_SILENCE_TIMEOUT (R396): in HOLD the twin is expected to be silent (R397). -/
def execTwinSilenceTimeout (s : State) : Res :=
  if !s.operational || s.twin.state = .hold then .next s else .next (s.twinLost 0x0B05 s.twin.lastBeat)

/-- QUIESCE_NOTICE_RECEIVED (R396, R397, R485): a warm start of the twin holds the pair, and the twin's groups wait; any other
notice, or a `HOLD` limit of 0, is a loss. -/
def execQuiesceNoticeReceived (_cause : Nat) (intent : Intent) (beat : Nat) (s : State) : Res :=
  if !s.operational then .next s else
  match intent, s.twin.state with
  | .warm, .sync =>
    let addr := twinAddr s.myAddr
    let s1 := ({ s with twin := { s.twin with state := .hold, lastBeat := beat, resume := false } }).dropFetches
    if s.twin.holdMs = 0 then .next (s1.twinLost 0x0B06 beat)
    else
      let s2 := s1.withCore fun c => c.interrupt addr
      .next (({ s2 with reed := { s2.reed with holds := (addr, beat, false) :: s2.reed.holds.filter (·.1 ≠ addr) } }).emit
        (.holdNoticeOut addr beat))
  | .warm, _ => .next s
  | .lost, .unpaired => .next (s.unpair (some beat))
  | .lost, .detached => .next ((s.lossNotice (twinAddr s.myAddr) beat none).emit (.lossNoticeOut (twinAddr s.myAddr) beat none))
  | .lost, _ => .next (s.twinLost 0x0B05 beat)

/-- HOLD_LIMIT_EXPIRY (R397). -/
def execHoldLimitExpiry (s : State) : Res :=
  if s.operational && s.twin.state = .hold then .next (s.twinLost 0x0B06 s.twin.lastBeat) else .next s

/-- FAILED_WARM_START_REPORT (R397, Table 13-2). -/
def execFailedWarmStartReport (s : State) : Res :=
  if s.operational && s.twin.state = .hold then .next (s.twinLost 0x0B06 s.twin.lastBeat) else .next s

/-- `ABSORB` (R398): names the absorb beat of a lost twin that nothing absorbs yet. -/
def State.absorbCmd (s : State) : State :=
  let a := s.twin.beat
  let waiting := s.twin.state = .absorbed && !s.twin.holds && s.twin.absorbAt.isNone
  if !waiting || s.twin.dropped || a < s.pick.counter + 2 then s.twinIgnored
  else
    let addr := twinAddr s.myAddr
    let b := s.twin.lastBeat
    (({ s with twin := { s.twin with absorbAt := some a } }).lossNotice addr b (some a)).emit (.lossNoticeOut addr b (some a))

/-- ABSORB (R398). -/
def execAbsorb (s : State) : Res := if s.operational then .next s.absorbCmd else .next s

/-- `HANDBACK` (R403). -/
def State.handbackCmd (s : State) : State :=
  if s.twin.state = .absorbed && s.twin.holds then { s with twin := { s.twin with handbackAt := some s.twin.beat } }
  else s.twinIgnored

/-- HANDBACK (R403). -/
def execHandback (s : State) : Res := if s.operational then .next s.handbackCmd else .next s

/-- `DETACH` (R404). -/
def State.detachCmd (s : State) : State :=
  if s.twin.state = .sync then { s with twin := { s.twin with detachAt := some s.twin.beat } } else s.twinIgnored

/-- DETACH (R404). -/
def execDetach (s : State) : Res := if s.operational then .next s.detachCmd else .next s

/-- `DRAIN` (R405): it is applied at the next beat. -/
def State.drainCmd (s : State) : State :=
  if s.twin.state = .sync && s.twin.drain.isNone && !s.twin.drainDue then
    { s with twin := { s.twin with drainDue := true, drainState := 1, drainBytes := 0 } }
  else s.twinIgnored

/-- The image of the mirror is taken at the beat that applies a `DRAIN` (R405). -/
def State.takeDrain (s : State) : State :=
  if !s.twin.drainDue then s
  else
    let objs := s.twin.mirror.objs.filter fun p => p.2.cls = 0
    { s with twin := { s.twin with drainDue := false, drain := some (s.twin.mirror.mem, objs) } }

/-- DRAIN (R405). -/
def execDrain (s : State) : Res := if s.operational then .next s.drainCmd else .next s

/-- The bytes of a drain (R405): for each object its record, then each block behind its length, in C1 where `MIRROR_CODING` names
it and it is smaller (Table 11-9). -/
def drainImage (c1 : Bool) (objs : List (Nat × Obj)) (rd : Nat → Bytes) : Bytes :=
  objs.flatMap fun p =>
    let o := p.2
    leBytes 4 o.id ++ leBytes 4 o.version ++ leBytes 8 o.size ++ leBytes 4 o.blocks ++ leBytes 1 o.coding ++ leBytes 43 0
      ++ (List.range o.blocks).flatMap fun t =>
        let raw := rd (devAddr p.1 (16384 * t))
        let b := if c1 then encodeC1 o.wide raw else raw
        leBytes 4 b.length ++ leBytes 4 (b2n (b.length < 16384)) ++ leBytes 56 0 ++ b

/-- DRAIN_DONE (R405): the image is written as far as the range goes. -/
def execDrainDone (s : State) : Res :=
  match s.twin.drain with
  | none => .next s
  | some d =>
    if !s.linkUp then .next s else
    let img := drainImage (s.policy.coding = 1) d.2 fun a => { s.twin.mirror with mem := d.1 }.block a
    let fits := img.length ≤ s.twin.drainLen
    let n := if fits then img.length else s.twin.drainLen / 64 * 64
    let s1 := if n = 0 then s else s.hostPut s.twin.drainAddr (img.take n)
    .next (({ s1 with twin := { s1.twin with
      drain := none, drainState := if fits then 2 else 3, drainBytes := n } }).twinEvent 4)

/-- What a selvedge port that went down does to the pair (R392). -/
def State.selvedgeGone (s : State) (p : Nat) (twinOnFabric : Bool) : State :=
  if s.selvedgeUp (1 - p) then s.report 0x0B03 0
  else match s.twin.state with
    | .absorbed => s
    | .hold => s
    | .unpaired => s
    | .handshake => s
    | .detached => s
    | _ => if twinOnFabric then (s.unpair none).report 0x0B04 0 else s

/-- A selvedge port is lost (R392). -/
def State.selvedgeLost (s : State) (p : Nat) (twinOnFabric : Bool) : State :=
  let down := fun (x : Port) => { x with state := PortState.failed, lastFault := 0x0D10 }
  (({ s with opt := { s.opt with ports := modifyAt s.opt.ports (16 + p) down } }).optEvent 0).selvedgeGone p twinOnFabric

/-- SELVEDGE_PORT_LOST (R392). -/
def execSelvedgePortLost (port : Nat) (twinOnFabric : Bool) (s : State) : Res :=
  if 1 < port || !s.selvedgeUp port then .next s else .next (s.selvedgeLost port twinOnFabric)

/-- The contexts of the absorbed module, by old index, with their handles here (R399). -/
def State.absorbCtxs (s : State) : State :=
  let next := fun (k : Nat) => if k = 255 then 1 else k + 1
  (List.range 64).foldl (fun (s : State) i =>
    let k := s.twin.mirror.ctxs.getD i {}
    if k.state = .free then s else
    match (List.range 64).find? fun j => (s.core.ctx j).state = .free with
    | none => s
    | some j =>
      let inc := next (s.core.ctx j).inc
      let x : Ctx := { k with inc := inc, absorbedTag := true }
      let s1 := s.withCore fun c => c.setCtx j fun _ => x
      { s1 with twin := { s1.twin with ctxMap := setAt s1.twin.ctxMap i (some (inc * 256 + j)) } }) s

/-- An object of the absorbed module stands in this module's table, at the homes given, in the context that its own has become. -/
def State.absorbObj (s : State) (p : Nat × Obj) (homes : List Home) (whole : List Nat) : State :=
  match (s.twin.ctxMap.getD (p.2.ctx % 64) none).map (· % 64) with
  | none => s
  | some x => s.withCore fun c =>
      { c with objs := putKey c.objs (2 ^ 20 + p.1) { p.2 with ctx := x, homes := homes, whole := whole, fillOrder := none, filling := p.2.cls ≠ 0 && p.2.fill } }

/-- New homes for an object of the absorbed module that its mirror does not hold (R337, R399). -/
def State.absorbHomes (s : State) (o : Obj) : List Home :=
  let td := s.core.draft.map fun d => d.tier o.harness
  (placeAll (affinityDies o.affinity) (td.elim 0 fun t => t.quota) (storedBlock o.coding o.format)
    (td.elim (0, 0) TierDef.window) o.farOk o.blocks 0 (s.core.placeAcc [] o.harness)).getD []

/-- The mirror becomes the home of the absorbed contexts' PERSIST objects; their others get new homes with no contents, filled
where R323 applies (R399). The mirror holds nothing more. -/
def State.absorbObjs (s : State) : State :=
  let m := s.twin.mirror
  let s1 := (m.objs.filter fun p => p.2.cls = 0).foldl (fun (s : State) p => s.absorbObj p p.2.homes (List.range p.2.blocks)) s
  let s2 := (m.objs.filter fun p => p.2.cls ≠ 0).foldl (fun (s : State) p => s.absorbObj p (s.absorbHomes p.2) []) s1
  { s2 with
    core := { s2.core with mem :=
      { cells := putAll s2.core.mem.cells (m.mem.cells.map fun e => (e.1 + 2 ^ 64, e.2))
        sectors := putAll s2.core.mem.sectors (m.mem.sectors.map fun e => (e.1 + 2 ^ 58, e.2)) } }
    twin := { s2.twin with mirror := { m with objs := [], mem := {}, repairs := [] } } }

/-- An order of the absorbed module as it is re-issued here (R399, R401), or, where its completion could be published there, as it
stands for its record (R402). -/
def State.absorbedOrder (s : State) (done : Option Notice) (e : JEntry) : OrderSt :=
  let o := { e.newOrder with
    jno := 2 ^ 64 + e.jno, acc := s.ord.sealed * 2 ^ 64 + 1 + e.jno, ring := 64 + e.ring
    ctx := if e.ctx = 0 then 0 else s.mapHandle e.ctx }
  match done with
  | none => { o with reissued := true }
  | some q => { o with checked := true, applied := true, status := some (q.status, q.result), stored := true, flushed := true }

/-- The result of an order of the twin, as its notice or its ring's window has it. -/
def Mirror.resultOf (m : Mirror) (e : JEntry) : Option (Nat × Nat) :=
  match m.notices.find? (·.jno = e.jno) with
  | some q => some (q.status, q.result)
  | none => ((m.jnl.getD e.ring {}).window.find? (·.2.1 = e.jno)).bind fun w => w.2.2

/-- The accepted orders of the absorbed module that had not completed, the unpublished completions, and the pools its contexts had
(R399, R402). An order that the twin told of as released has been published. -/
def State.absorbOrders (s : State) : State :=
  let m := s.twin.mirror
  let kinds := m.entries.filter (·.kind = 1)
  let published := fun (e : JEntry) => m.told.contains e.jno
    || ((m.notices.all (·.jno ≠ e.jno)) && (m.resultOf e).isSome)
  let owed := fun (e : JEntry) => if published e then none else
    some (s.absorbedOrder (m.notices.find? fun q => q.jno = e.jno && m.closed.contains q.jno) e)
  let ok := fun (e : JEntry) => (m.resultOf e).elim false fun r => r.1 = 0
  let made := kinds.filter fun e => e.opcode = 0x30 && ok e
    && !(kinds.any fun f => f.opcode = 0x31 && f.ctx = e.ctx && e.jno < f.jno && ok f)
  let pool := fun (c : Core) (e : JEntry) =>
    match s.absorbedCtx e.ctx with
    | none => c
    | some x =>
      if (c.pool x).isSome then c else
      let p := c.mkPool x e.newOrder s.pick.counter
      { c with pools := c.pools ++ [p] }.writePool p
  (s.withCore fun c =>
    let c1 := { c with orders := c.orders ++ kinds.filterMap owed }
    made.foldl pool c1).poolEvent

/-- The groups of the absorbed address, kept under id + 256: members and ranks stand, instance counts are those of the mirror,
and the epoch is the new one (R33, R309). A member that a drop took out stays out (R310). -/
def State.absorbGroups (s : State) : State :=
  let addr := twinAddr s.myAddr
  let m := s.twin.mirror
  let out := fun (g : GroupDef) (a : Nat) => s.core.gone.contains (g.id, a)
  let gs := (s.core.draft.elim [] Draft.groups).filter fun g => g.holds addr && !out g addr
  let new := fun (g : GroupDef) =>
    let mine := s.core.group g.id
    let epoch := match mine with
      | some k => if k.members.contains addr then k.epoch else (getKey m.groups g.id).getD 1 + 1
      | none => (getKey m.groups g.id).getD 1 + 1
    ({ id := g.id + 256, epoch := epoch, served := true
       members := (g.membersOf s.geometry addr).filter fun a => !out g a, dropped := s.core.gone.any fun e => e.1 = g.id
       counts := (m.counts.filter (·.group = g.id)).map fun e => (e.ch + 32, e.peer, e.count) } : Group)
  s.withCore fun c => { c with groups := c.groups.filter (fun g => g.id < 256) ++ gs.map new }

/-- The leadership leaves this module with address (0, 0, 0, 0) (R49): it has no time parent until a marker of the new leader comes. -/
def Pick.unlead (p : Pick) (addr : Nat) : Pick :=
  if addr = 0 && p.self then { p with self := false, depth := 0xFF, parent := none, seen := [], missed := 0 } else p

/-- The leadership comes to this module with address (0, 0, 0, 0) (R49). -/
def Pick.lead (p : Pick) (addr : Nat) : Pick :=
  if addr = 0 then { p with self := true, leader := some 0, depth := 0, parent := none, offsetPs := 0 } else p

/-- ABSORB_APPLY (R399), at W − 3.0 µs of the absorb beat; the epochs of step 2 turn with every module's (R309). -/
def State.absorbApply (s : State) : State :=
  match s.twin.absorbAt with
  | none => s
  | some a =>
    if s.twin.state ≠ .absorbed || s.twin.holds || s.pick.counter < a then s else
    let s0 := { s with twin := { s.twin with mirror := s.twin.mirror.turn } }
    let s1 := { s0 with twin := { s0.twin with holds := true, absorbAt := none }, pick := s0.pick.lead (twinAddr s.myAddr) }
    (((s1.absorbCtxs.absorbObjs).absorbOrders).absorbGroups).twinEvent 2

/-- What leaves with the address (R403): the absorbed contexts, with their objects, orders, pools, groups and channels. -/
def Core.dropAbsorbed (c : Core) : Core :=
  let gone := fun (x : Nat) => (c.ctx x).absorbedTag
  let c1 := (List.range 64).foldl (fun (c : Core) x => if gone x then c.leaveSlot x else c) c
  { c1 with
    ctxs := c1.ctxs.map fun k => if k.absorbedTag then { inc := k.inc } else k
    objs := c1.objs.filter fun p => p.1 < 2 ^ 20
    mem := { cells := c1.mem.cells.filter (·.1 < 2 ^ 64), sectors := c1.mem.sectors.filter (·.1 < 2 ^ 58) }
    orders := c1.orders.filter fun o => o.jno < 2 ^ 64 && !((c.ctxOf o.ctx).elim false gone)
    pools := c1.pools.filter fun p => !gone p.ctx
    moves := c1.moves.filter (·.obj < 2 ^ 20)
    groups := c1.groups.filter (·.id < 256)
    chans := c1.chans.take 32 ++ List.replicate 32 {} }

/-- The conditions of R403 at a beat. -/
def State.handbackDue (s : State) : Bool :=
  let named := s.twin.handbackAt.elim s.policy.autoHandback (· ≤ s.pick.counter)
  let open_ := s.core.orders.any fun o => o.published.isNone
    && (64 ≤ o.ring || (s.core.ctxOf o.ctx).elim false fun x => (s.core.ctx x).absorbedTag)
  s.twin.state = .absorbed && s.twin.holds && s.twin.replacing && named && s.twin.copyDone && !open_ && s.twin.own.items.isEmpty

/-- The group epochs of a handback or a return (R403). -/
def Core.newEpoch (c : Core) (addr : Nat) : Core :=
  { c with groups := c.groups.map fun g => if g.members.contains addr then
      { g with epoch := g.epoch + 1, lost := false, served := true } else g }

/-- The journals of the twin's rings that pass with its address (R403): of an adopted ring, that of the ring which continues it. -/
def State.passJnl (s : State) : List RingJnl :=
  s.twin.mirror.jnl.zipIdx.map fun p =>
    ((List.range 64).find? fun j => s.twin.adopt.getD j none = some p.2).elim p.1 fun j =>
      if (s.core.rings.getD j {}).starts = 0 then p.1 else s.ord.jnl.getD j {}

/-- A pool as it passes with its context, whose index there is given (R403). -/
def KvPool.toTwin (p : KvPool) (ctx : Nat) : TwinPool :=
  { params := [ctx, p.rows, p.layers, p.maxSeq, p.maxRows, p.seed, p.data % 2 ^ 64, p.table % 2 ^ 64, p.tree % 2 ^ 64, p.tpp, p.limit, p.lastBeat]
    rowSt := p.rowSt
    seqs := p.seqs.map fun q => (q.tokens, q.shared, q.state.code, q.changed, q.pending, q.entries)
    ents := p.ents.map fun e => [e.hash, e.row, e.parent, e.depth, e.children, e.lastUse] }

/-- A pool that has come with its context (R403). -/
def twinPool (p : TwinPool) : KvPool :=
  let v := fun (i : Nat) => p.params.getD i 0
  let st := fun (k : Nat) => if k = 1 then SeqState.deferred else if k = 2 then .running else if k = 3 then .stalled else .free
  { ctx := v 0, rows := v 1, layers := v 2, maxSeq := v 3, maxRows := v 4, seed := v 5, data := v 6, table := v 7, tree := v 8, tpp := v 9
    limit := v 10, lastBeat := v 11, rowSt := p.rowSt
    seqs := p.seqs.map fun q => ⟨q.1, q.2.1, st q.2.2.1, q.2.2.2.1, q.2.2.2.2.1, q.2.2.2.2.2⟩
    ents := p.ents.map fun e => ⟨e.getD 0 0, e.getD 1 0, e.getD 2 0, e.getD 3 0, e.getD 4 0, e.getD 5 0⟩ }

/-- What passes with the address (R403): the absorbed contexts with their original handles, their objects, and the rings. -/
def State.passTables (s : State) (jnl : List RingJnl) : TwinTables :=
  let m := s.twin.mirror
  let back := fun (x : Nat) => ((List.range 64).find? fun i => (s.twin.ctxMap.getD i none).any (· % 64 = x)).getD 0
  { objs := (s.core.objs.filter (2 ^ 20 ≤ ·.1)).map fun p => ({ p.2 with ctx := back p.2.ctx } : Obj).toTwin (p.1 - 2 ^ 20)
    ctxs := (twinCtxs m.ctxs).filter fun k => (s.twin.ctxMap.getD k.index none).any fun h => (s.core.ctxOf h).isSome
    rings := (jnl.zip m.rings).zipIdx.map fun p => p.1.1.toTwin p.2 p.1.2
    groups := (s.core.groups.filter (256 ≤ ·.id)).map fun g => (g.id - 256, g.epoch), released := [], slots := m.slots, quotas := m.quotas
    pools := (s.core.pools.filter fun p => (s.core.ctx p.ctx).absorbedTag).map fun p => p.toTwin (back p.ctx) }

/-- HANDBACK_APPLY (R403) on the absorbing module: the absorbed PERSIST set stays as the mirror of the replacement. -/
def State.handbackApply (s : State) : State :=
  if !s.handbackDue then s else
  let addr := twinAddr s.myAddr
  let c := s.core
  let keep := c.objs.filter fun p => 2 ^ 20 ≤ p.1 && p.2.cls = 0
  let mem : Memory :=
    { cells := (c.mem.cells.filter fun e => 2 ^ 64 ≤ e.1).map fun e => (e.1 - 2 ^ 64, e.2)
      sectors := (c.mem.sectors.filter fun e => 2 ^ 58 ≤ e.1).map fun e => (e.1 - 2 ^ 58, e.2) }
  let adopted := (List.range 64).filter fun j => (s.twin.adopt.getD j none).isSome
  let s1 := adopted.foldl State.haltRing (s.withCore fun c => c.dropAbsorbed.newEpoch addr)
  let off := fun (r : RingReg × Nat) => if adopted.contains r.2 then { r.1 with enable := false } else r.1
  let objs := keep.map fun (p : Nat × Obj) => (p.1 - 2 ^ 20, p.2)
  let jnl := s.passJnl
  let s2 := { s1 with
    ord := { s1.ord with regs := s1.ord.regs.zipIdx.map off }
    opt := { s1.opt with detour := none }
    pick := s1.pick.unlead addr
    reed := { s1.reed with epochBeat := s.pick.counter }
    twin := { s1.twin with
      state := .sync, holds := false, replacing := false, handbackAt := none, suspect := false, copyDone := false
      ctxMap := List.replicate 64 none
      mirror := { objs := objs, mem := mem, jnl := jnl, rings := s1.twin.mirror.rings
                  ctxs := s1.twin.mirror.ctxs } } }
  ((((s2.emit (.passSend (s.passTables jnl))).startHashes).twinEvent 3).twinEvent 0).optEvent 4

/-- The replacement takes its address and contexts (R403): contexts with their original handles, objects and their blocks, and
each adopted ring's H and window, which its ring naming that ring continues. -/
def State.takeBack (s : State) : State :=
  match s.twin.passed with
  | none => s
  | some (t, blocks) =>
    if s.twin.state ≠ .copying then s else
    let s1 := { s with twin := { s.twin with passed := none } }
    let ctx := fun (i : Nat) (k : Ctx) => (t.ctxs.find? (·.index = i)).elim k twinCtx
    let add := fun (c : Core) (o : TwinObj) =>
      let e := s.mirrorObj [] o
      let acc := c.placeAcc (s.twin.mirror.objs.filter fun p => p.2.cls = 0) o.harness
      let td := c.draft.map fun d => d.tier o.harness
      let homes := (placeAll (affinityDies o.affinity) (td.elim 0 fun t => t.quota)
        (storedBlock o.coding o.format) (td.elim (0, 0) TierDef.window) o.farOk (o.size / 16384) 0 acc).getD []
      { c with objs := putKey c.objs o.index { e.2 with homes := homes, mirrorTag := false } }
    let put := fun (c : Core) (w : CopiedBlock) => { c with mem := c.mem.putCopy w }
    let s2 := s1.withCore fun c =>
      let c1 := { c with ctxs := c.ctxs.zipIdx.map fun k => ctx k.2 k.1, pools := c.pools ++ t.pools.map twinPool }
      ((blocks.foldl put (t.objs.foldl add c1))).newEpoch s.myAddr
    let ring := fun (j : Nat) => (t.rings.find? (·.ring = j)).elim (s.twin.mirror.jnl.getD j {}) fun r =>
      { taken := r.taken, h := r.h, window := r.window }
    let s3 := { s2 with
      pick := s2.pick.lead s.myAddr
      reed := { s2.reed with epochBeat := s.pick.counter }
      twin := { s2.twin with
        state := .sync, role := 0, matched := false
        mirror := { s2.twin.mirror with jnl := (List.range 64).map ring } } }
    ((s3.startHashes).twinEvent 3).twinEvent 0

/-- `DETACH` applies (R404): at the first beat at or after the named one with no held item outstanding, the contexts pass to the
twin, and this module samples no ring. -/
def State.detachApply (s : State) : State :=
  match s.twin.detachAt with
  | none => s
  | some b =>
    if s.twin.state ≠ .sync || s.pick.counter < b || !s.twin.own.items.isEmpty then s else
    let empty := fun (c : Core) =>
      { c with
        ctxs := c.ctxs.map fun k => ({ inc := k.inc } : Ctx)
        slots := List.replicate 64 {}
        rings := List.replicate 64 {}
        orders := [], held := [], objs := [], pools := [], moves := [], mem := {}, faults := [], pm := {}
        repairs := [], groups := [], chans := List.replicate 64 {}, shuttle := [], shHeld := [] }
    let s1 := s.withCore empty
    { s1 with twin := { s1.twin with state := .detached, detachAt := none }, pick := s1.pick.unlead s.myAddr }

/-- The twin's `DETACH` applies (R404): this module absorbs it, with b the beat before. -/
def State.twinDetached (s : State) : State :=
  if s.twin.twinDetach && s.twin.state = .sync then
    ({ s with twin := { s.twin with twinDetach := false } }).startAbsorb (s.pick.counter - 1) true
  else s

/-- A draft beat that applies MIRROR = 0 ends the pair (Table 13-2). -/
def State.mirrorOff (s : State) : State :=
  if s.twin.state = .sync && !s.policy.mirror then s.unpair none else s

/-- An order's held items are released (R387): at the beat that publishes its completion, once every earlier accepted order of its
context has completed. Its block hashes join the released digest (R393). -/
def State.releaseItems (s : State) (o : OrderSt) : State :=
  if (s.core.earlier o).any (·.openAt (s.pick.counter + 1)) then s else
  let w := s.twin.own
  let mine := w.hashes.filter (·.1 = o.jno)
  let rel := mine.foldl (fun l e => putKey l e.2.1 e.2.2) w.rel
  let own : HeldSide := { w with
    items := w.items.filter fun i => itemJno i.1 ≠ o.jno
    hashes := w.hashes.filter (·.1 ≠ o.jno)
    rel := rel
    digests := putKey w.digests o.jno ((rel.map Prod.snd).sum % 2 ^ 64)
    done := o.jno :: w.done, tell := w.tell ++ [o.jno] }
  { s with twin := { s.twin with own := own } }

/-- The orders whose completion stands published are released in acceptance order (R387). -/
def State.releaseDue (s : State) : State :=
  if !s.keepsTwin then s
  else
    let w := s.twin.own
    let s1 := { s with twin := { s.twin with own := { w with done := w.done.filter fun j => (s.core.order j).isSome } } }
    (s.core.orders.filter fun o => o.published.isSome && !w.done.contains o.jno).foldl State.releaseItems s1

end Sys2Proof.Machine
end

