-- ==== Sys2Proof/Machine/Fabric.lean ====
section
/-! DEFINITION. Sys2Proof/Machine/Fabric.lean: optical ports, frames, routing, pick markers and laser cartridges
(16_optical.md). -/

namespace Sys2Proof.Machine

/-- The twin answers on the fabric: a D port that faces it is `UP` (R392). -/
def State.twinOnFabric (s : State) : Bool :=
  [12, 13, 14, 15].any fun p => (s.port p).state = .up && (s.port p).neighbor = twinAddr s.myAddr

/-- This module sends the loss notice of an address whose loss is not known yet, with no absorb beat (R308). -/
def State.sendLoss (s : State) (a : Nat) : State :=
  if s.reed.losses.any (·.1 = a) then s else (s.lossNotice a s.lastBeat none).emit (.lossNoticeOut a s.lastBeat none)

/-- The last port to a neighbor has gone down, and its twin is lost too: the neighbor is lost, and this module sends the loss notice
(R308); where the neighbor had absorbed its twin, for both addresses. It names no absorb beat, since nothing can absorb it (log entry 157). -/
def State.neighborGone (s : State) (a : Nat) : State :=
  let cut := (List.range 16).any (fun q => (s.port q).neighbor = a && (s.port q).state = .failed)
    && (List.range 16).all fun q => (s.port q).neighbor ≠ a || (s.port q).state ≠ .up
  let held := s.reed.absorbed.contains (twinAddr a)
  let alone := held || s.reed.losses.any (·.1 = twinAddr a) || (s.reed.lossAddr = twinAddr a && s.reed.lossKind = 3)
  if !s.operational || !cut || !alone || a = twinAddr s.myAddr || a = s.myAddr then s
  else if held then (s.sendLoss a).sendLoss (twinAddr a) else s.sendLoss a

/-- A port goes down (R452, R459, R455), also from the keepalive of standby: a fabric port's flows move, and `LINK.PORT` is reported, but
not beside the loss of the whole neighbor (Table 16-7). -/
def State.portDown (s : State) (p : Nat) : State :=
  if (s.port p).state ≠ .up && (s.port p).state ≠ .keepalive then s.setPort p fun k => { k with state := .failed }
  else if 16 ≤ p then s.selvedgeLost (p - 16) s.twinOnFabric
  else
    let s1 := ((s.setPort p fun k => { k with state := .failed, lastFault := 0x0D10 }).optEvent 0).neighborGone (s.port p).neighbor
    let s2 := if s1.opt.detour = some (s.port p).neighbor then s1 else s1.report 0x0D10 p
    s2.moveFlows p

/-- An ack covers frames of a port's replay buffer; a transit frame so covered is acknowledged where it came from (R453). -/
def State.takeAck (s : State) (p ack : Nat) : State :=
  let done := (s.port p).replay.filter fun r => seqBelow r.seq ack
  let s1 := s.setPort p fun k => { k with replay := k.replay.filter fun r => !seqBelow r.seq ack }
  (done.foldl (fun (s : State) r => match r.up with
    | some (q, _) => s.sendControl q 3 false
    | none => s) s1).sendStranded

/-- Every frame held by a port is sent again; the eighth sending without an ack takes the port down (R452). -/
def State.resend (s : State) (p : Nat) : State :=
  let held := (s.port p).replay
  if held.any fun r => 8 ≤ r.sends then s.portDown p
  else
    let more := fun (r : Replay) => { r with sends := r.sends + 1 }
    (s.setPort p fun k => { k with replay := k.replay.map more, resends := (k.resends + held.length) % 2 ^ 32 }).emits
      (held.map fun r => .frame p r.bytes)

/-- ACK_RECEIVED (R453). -/
def execAckReceived (port ack : Nat) (s : State) : Res := .next (s.takeAck port ack)

/-- NAK_RECEIVED (R452). -/
def execNakReceived (port ack : Nat) (s : State) : Res := .next ((s.takeAck port ack).resend port)

/-- ACK_TIMEOUT (R452). -/
def execAckTimeout (port : Nat) (s : State) : Res :=
  if (s.port port).replay.isEmpty then .next s else .next (s.resend port)

/-- IDLE_FRAME_TIMER (R452). -/
def execIdleFrameTimer (port : Nat) (s : State) : Res :=
  if (s.port port).state = .up || (s.port port).state = .keepalive then .next (s.sendControl port 0 false) else .next s

/-- PORT_RX_TIMEOUT (R452). -/
def execPortRxTimeout (port : Nat) (s : State) : Res :=
  if (s.port port).state = .up || (s.port port).state = .keepalive then .next (s.portDown port) else .next s

/-- The types that a port carries (R457). -/
def typeAllowed (port typ : Nat) : Bool := if 16 ≤ port then typ = 0 || typ = 1 || typ = 3 || typ = 9 else typ ≤ 8

/-- The types that a port carries in standby: idle, ack and marker (R463). -/
def typeInStandby (typ : Nat) : Bool := typ = 0 || typ = 1 || typ = 3

/-- An identify frame's payload has a wrong length or a reserved bit set (R458). -/
def identifyBad (b : Bytes) : Bool :=
  b.length ≠ 64 || !zeroAt b 7 1 || !zeroAt b 0xC 52 || 4096 ≤ fieldAt b 0 2 || 18 ≤ byteAt b 6

/-- A marker's payload (Table 16-4) has a reserved bit set. -/
def markerBad (b : Bytes) : Bool :=
  b.length ≠ 64 || 2 ≤ byteAt b 0x11 || !zeroAt b 0x17 1 || !zeroAt b 0x1C 36 || 4096 ≤ fieldAt b 0x12 2 || 4096 ≤ fieldAt b 0x18 2

/-- A payload that is no payload of its frame's type: a reserved bit or encoding is set, or a header's own CRC fails (R11, R295, R452). -/
def payloadBad (typ : Nat) (b : Bytes) : Bool :=
  match typ with
  | 1 => markerBad b
  | 2 => identifyBad b
  | 5 => !headerOk b
  | _ => false

/-- A frame is to be discarded (R452): its CRC or length fails, or a reserved bit or encoding is set, in its payload too. -/
def frameBad (port : Nat) (b : Bytes) : Bool :=
  let n := fieldAt b 2 2
  b.length ≠ 20 + 64 * n || 256 < n || crc32c (b.take (16 + 64 * n)) ≠ fieldAt b (16 + 64 * n) 4 || 35 < byteAt b 1
    || !typeAllowed port (byteAt b 0) || 4096 ≤ fieldAt b 8 2 || 4096 ≤ fieldAt b 0xA 2
    || payloadBad (byteAt b 0) ((b.drop 16).take (64 * n))

/-- An address is one that this module takes frames for (R33, R456). -/
def State.isMine (s : State) (a : Nat) : Bool := a = s.myAddr || (s.twin.holds && a = twinAddr s.myAddr)

/-- A frame for this module meets its engine (R299, R302, R214, R295). During a warm start frames for the module itself are
discarded (R483). The kinds of frame that have rows of their own have no payload here. -/
def State.deliver (s : State) (port : Nat) (b : Bytes) : State :=
  if !s.operational then s else
  let n := fieldAt b 2 2
  let payload := (b.drop 16).take (64 * n)
  let dest := fieldAt b 8 2
  match byteAt b 0 with
  | 4 => s.tellAborts (s.receiveData port (fieldAt b 4 4) (byteAt b 1) (fieldAt b 0xA 2) dest payload)
  | 5 => s.tellAborts (s.receiveHeader (byteAt payload 0xA % 32 + if dest = s.myAddr then 0 else 32) (fieldAt b 0xA 2) payload)
  | _ => s

/-- A frame that came in order goes where it belongs: one for this module is delivered and acknowledged; a transit frame is forwarded, or held
until a port can carry it, and acknowledged once its next hop has (R453, R456). -/
def State.routeFrame (s : State) (port : Nat) (frame : Bytes) : State :=
  let dest := fieldAt frame 8 2
  if s.isMine dest then (s.deliver port frame).sendControl port 3 false
  else if s.dropsFrame (fieldAt frame 0xA 2) dest then s.sendControl port 3 false
  else s.forwardOrHold frame (some (port, fieldAt frame 4 4))

/-- DATA_FRAME_RECEIVED (R374, R452 to R456). A bad or misplaced frame is answered with a NAK; one in order
brings its ack, and goes where it belongs. An idle or ack frame takes no sequence number and brings its ack alone (log entry 80). -/
def execDataFrameReceived (port : Nat) (f : PortFrame) (s0 : State) : Res :=
  let frame := f.bytes
  let k := s0.port port
  if k.state ≠ .up && k.state ≠ .keepalive then .next s0 else
  let s := s0.noteFec port f.fixed
  if frameBad port frame || fieldAt frame 4 4 ≠ k.rxSeq || (k.state = .keepalive && !typeInStandby (byteAt frame 0)) then
    .next (s.sendControl port 3 true)
  else
    let ack := fieldAt frame 0xC 4
    let control := byteAt frame 0 = 0 || byteAt frame 0 = 3
    let s1 := (s.setPort port fun k => { k with rxSeq := if control then k.rxSeq else (k.rxSeq + 1) % 2 ^ 32 }).takeAck port (ack % 2 ^ 31)
    let s2 := if 2 ^ 31 ≤ ack then s1.resend port else s1
    .next (if control then s2 else s2.routeFrame port frame)

/-- What Table 16-1 expects behind a port: the neighbor's address and port number. -/
def State.expected (s : State) (p : Nat) : Nat × Nat :=
  if 16 ≤ p then (twinAddr s.myAddr, p)
  else
    let axis := p / 4
    let up := p / 2 % 2 = 0
    (packAddr (stepAddr s.glb.axes s.glb.address axis up), if up then p + 2 else p - 2)

/-- IDENTIFY (R458, R452): an identify frame arrives on a port in training; one with a reserved bit set is answered with a NAK. -/
def execIdentify (port : Nat) (payload : Bytes) (s : State) : Res :=
  let k := s.port port
  if 18 ≤ port || (k.state ≠ .train && k.state ≠ .identify) then .next s
  else if identifyBad payload then .next (s.sendControl port 3 true) else
  let e := s.expected port
  let lens := (List.range 4).map fun i => byteAt payload (2 + i)
  let ok := fieldAt payload 0 2 = e.1 && byteAt payload 6 = e.2
    && (16 ≤ port || (lens = s.glb.axes && fieldAt payload 8 4 = 0x11520A48))
  let seen := fun (k : Port) => { k with lanes := 0xFF, neighbor := fieldAt payload 0 2 % 4096, nbPort := byteAt payload 6 % 32 }
  if ok then .next (s.setPort port fun k => { seen k with state := .measure })
  else .next (((s.setPort port fun k => { seen k with state := .held, lastFault := 0x0D11 }).report 0x0D11 port).optEvent 2)

/-- MEASURE_DONE (R458, R459, R380): the port is `UP`; the first fabric port to be so gives the geometry, and a selvedge port
reaches the management plane in the next snapshot. The first beat from which it is used is one that has not begun (R455, Table 16-7). -/
def execMeasureDone (port meanRoundTripPs : Nat) (s : State) : Res :=
  if 18 ≤ port || (s.port port).state ≠ .measure then .next s else
  let open_ := s.pick.phase ≠ .span && s.pick.phase ≠ .committed
  let up := fun (k : Port) =>
    { k with state := PortState.up, latency := meanRoundTripPs / 2, useFrom := s.pick.counter + if open_ then 2 else 1, txSeq := 0, rxSeq := 0, replay := [] }
  let s1 := (s.setPort port up).optEvent 1
  if 16 ≤ port then .next { s1 with twin := { s1.twin with portUp := true } }
  else .next { s1 with glb := { s1.glb with lens := s1.glb.axes } }

/-- PORT_STATE_TIMEOUT (R459, Table 16-3). -/
def execPortStateTimeout (port : Nat) (s : State) : Res :=
  let st := (s.port port).state
  if st = .train || st = .identify || st = .measure then .next (s.setPort port fun k => { k with state := .failed }) else .next s

/-- A port's training starts. -/
def State.train (s : State) (p : Nat) : State := s.setPort p fun k => { k with state := .train, lanes := 0 }

/-- PORT_RETRAIN_TIMER (Table 16-3). -/
def execPortRetrainTimer (port : Nat) (s : State) : Res :=
  if (s.port port).state = .failed then .next (s.train port) else .next s

/-- `RETRAIN` (R458): a disabled port stays down (R467). -/
def State.retrainCmd (s : State) (p : Nat) : State :=
  if 18 ≤ p || (s.port p).disabled then s
  else if (s.port p).state = .up then
    if p < 16 then ((s.train p).moveFlows p).optEvent 0 else ((s.train p).optEvent 0).selvedgeGone (p - 16) s.twinOnFabric
  else s.train p

/-- `DISABLE` (R467): the port goes down at the next beat. -/
def State.disableCmd (s : State) (p : Nat) : State := s.setPort p fun k => { k with disabling := true }

/-- `ENABLE` (R467). -/
def State.enableCmd (s : State) (p : Nat) : State :=
  if (s.port p).disabled || (s.port p).disabling then
    let was := (s.port p).disabled
    let s1 := s.setPort p fun k => { k with disabled := false, disabling := false }
    if was then s1.train p else s1
  else s

/-- The ports that `DISABLE` named go down at a beat, their flows moved and nothing reported (R467). -/
def State.applyDisable (s : State) : State :=
  (List.range 18).foldl (fun (s : State) p =>
    if !(s.port p).disabling then s else
    let s1 := s.setPort p fun k => { k with state := .down, disabled := true, disabling := false, lanes := 0 }
    if (s.port p).state ≠ .up then s1
    else if p < 16 then (s1.moveFlows p).optEvent 0
    else (s1.optEvent 0).selvedgeGone (p - 16) s.twinOnFabric) s

/-- RETRAIN (R458). -/
def execRetrain (port : Nat) (s : State) : Res := if s.operational then .next (s.retrainCmd port) else .next s

/-- DISABLE (R467). -/
def execDisable (port : Nat) (s : State) : Res := if s.operational then .next (s.disableCmd port) else .next s

/-- ENABLE (R467). -/
def execEnable (port : Nat) (s : State) : Res := if s.operational then .next (s.enableCmd port) else .next s

/-- LANE_LOST (R459). -/
def execLaneLost (port lane : Nat) (s : State) : Res :=
  let st := (s.port port).state
  if 18 ≤ port || 8 ≤ lane || !bitOf (s.port port).lanes lane || st = .down || st = .held || st = .failed then .next s
  else .next ((s.setPort port fun k => { k with lanes := k.lanes - 2 ^ lane }).portDown port)

/-- LINK_ISOLATED (R466). -/
def execLinkIsolated (s : State) : Res :=
  if s.operational && !((List.range 16).any fun p => (s.port p).state = .up) then .next (s.moduleFault 0x0D12 0) else .next s

/-- Active cartridges (OPT_LASER.ACTIVE). -/
def State.activeCarts (s : State) : Nat := (s.opt.carts.filter (· = .active)).length

/-- A cartridge's state changes. -/
def State.setCart (s : State) (c : Nat) (st : CartState) : State :=
  ({ s with opt := { s.opt with carts := setAt s.opt.carts c st } }).optEvent 3

/-- A cartridge fails (R464): reported, or, with fewer than five left, a module fault. A port in training restarts it
(Table 16-7). -/
def State.cartFail (s : State) (c : Nat) (st : CartState) : State :=
  let back := fun (k : Port) => if k.state = .identify || k.state = .measure then { k with state := PortState.train, lanes := 0 } else k
  let s1 := s.setCart c st
  let s2 := { s1 with opt := { s1.opt with ports := s1.opt.ports.map back } }
  let s3 := s2.report 0x0D13 c
  if s3.activeCarts < 5 then s3.moduleFault 0x0D14 c else s3

/-- LASER_CARTRIDGE_FAIL (R464). -/
def execLaserCartridgeFail (c : Nat) (s : State) : Res :=
  if s.opt.carts[c]? = some .active then .next (s.cartFail c .failed) else .next s

/-- CARTRIDGE_WARM_DONE (R464): it joins the distribution at the next beat. -/
def execCartridgeWarmDone (c : Nat) (s : State) : Res :=
  if s.opt.carts[c]? = some .warming && !s.opt.warm.contains c then
    .next { s with opt := { s.opt with warm := s.opt.warm ++ [c] } }
  else .next s

/-- The cartridges that have warmed up join at a beat. -/
def State.joinCarts (s : State) : State :=
  let s1 := s.opt.warm.foldl (fun (s : State) c => if s.opt.carts[c]? = some .warming then s.setCart c .active else s) s
  { s1 with opt := { s1.opt with warm := [] } }

/-- CARTRIDGE_LEVER_UNLOCK (R465): a removal, and a failure of a cartridge, in use or warming up, whose removal was not accepted. -/
def execCartridgeLeverUnlock (c : Nat) (s : State) : Res :=
  match s.opt.carts[c]? with
  | none => .next s
  | some .absent => .next s
  | some .active => .next (s.cartFail c .absent)
  | some .warming => .next (s.cartFail c .absent)
  | some _ => .next (s.setCart c .absent)

/-- CARTRIDGE_INSERT (R464). -/
def execCartridgeInsert (c : Nat) (s : State) : Res :=
  if s.opt.carts[c]? = some .absent then .next (s.setCart c .warming) else .next s

/-- The rank of a possible leader (R49, R52): node index, the even-D member first. -/
def State.leaderRank (s : State) (a : Nat) : Nat := 2 * nodeIndex s.glb.axes (unpackAddr a) + a % 2

/-- A leader is one that this module recognizes: the one it follows, or one that R52 ranks above. -/
def State.recognizes (s : State) (a : Nat) : Bool := s.pick.leader.elim true fun l => s.leaderRank a ≤ s.leaderRank l

/-- Relays of new leader fields leave on every fabric port that is up (R462). -/
def State.relayFields (s : State) (leader period window : Nat) (drop : Option Nat) : State :=
  if s.pick.sent = some (leader, period, window, drop) then s
  else
    let ports := (List.range 16).filter fun p => (s.port p).state = .up
    ({ s with pick := { s.pick with sent := some (leader, period, window, drop) } }).emits
      (ports.map fun p => .relay p leader period window drop)

/-- Leader fields are taken for a beat (R70, R310): period and window, and a drop. An increase is the last one at the beat that
announced it (R71); a drop of an address that is absorbed by now has no effect (Table 10-7). -/
def State.takeFields (s : State) (beat period window : Nat) (drop : Option Nat) : State :=
  let old := s.pick.coming.filter fun c => c.1 ≠ beat
  let drops := match drop with
    | some a => if s.isMine a || s.reed.absorbed.contains a || s.reed.drops.any (·.2 = a) then s.reed.drops else s.reed.drops ++ [(beat, a)]
    | none => s.reed.drops
  let known := s.pick.coming.getLast?.elim s.pick.period10 fun c => c.2.1
  { s with
    pick := { s.pick with
      coming := if period = 0 then old else old ++ [(beat, period, window)]
      lastRise := if known < period then some (beat - 1) else s.pick.lastRise }
    reed := { s.reed with drops := drops } }

/-- A period request of a module is noted, and goes on toward the leader (R70, R462). -/
def State.takeRequest (s : State) (src req : Nat) : State :=
  let old := (s.pick.asked.find? (·.1 = src)).elim 0 Prod.snd
  if old = req then s
  else
    let rest := s.pick.asked.filter (·.1 ≠ src)
    let s1 := { s with pick := { s.pick with asked := if req = 0 then rest else (src, req) :: rest } }
    if s.pick.self then s1 else match s.pick.parent with
      | some p => s1.emit (.request p src req)
      | none => s1

/-- After a change of time parent or of leader the requests outstanding go on to the new parent (R70, R462). -/
def State.forwardRequests (s : State) (old : Option Nat) : State :=
  match s.pick.parent with
  | some p => if old = some p then s else s.emits (s.pick.asked.map fun e => .request p e.1 e.2)
  | none => s

/-- The time parent among the ports heard: the recognized leader's, of least depth, then of least port (R460). A port whose last marker is more
than a beat older than the newest has fallen silent, and is none (R50; log entry 188). -/
def chooseParent (leader : Nat) (seen : List Heard) : Option Heard :=
  let newest := (seen.map Heard.beat).foldl max 0
  (seen.filter fun e => e.leader = leader && newest ≤ e.beat + 1).foldl (fun m e => match m with
    | none => some e
    | some y => if e.depth < y.depth ∨ (e.depth = y.depth ∧ e.port < y.port) then some e else some y) none

/-- The address that leads by R49 and is this module's: its own (0, 0, 0, 0), but for a replacement's, which its twin holds until the
handback (R403), or the absorbed one. -/
def State.leadsAs (s : State) : Option Nat :=
  if (s.myAddr = 0 && s.twin.role ≠ 1) || (s.twin.holds && twinAddr s.myAddr = 0) then some 0 else none

/-- The module joins the system pick (R481): its counter is given, its first beat is its join beat, which uses every port that is up; at (0, 0, 0, 0) it takes the
leadership (R49). A period taken over may have risen
just before, so the 64 picks of R71 run from here (log entry 136). -/
def State.joinPick (s : State) (counter : Nat) (leader : Option Nat) (parent : Option Nat) (depth period window : Nat) : State :=
  let lead := s.leadsAs.isSome || leader.isNone
  State.enterOp { s with
    pick := { s.pick with
      counter := counter, phase := .span, joining := false, sampling := false, self := lead
      leader := if lead then some (s.leadsAs.getD s.myAddr) else leader, parent := if lead then none else parent
      depth := if lead then 0 else depth, period10 := if period = 0 then 50 else period, windowUs := if window = 0 then 12 else window
      late := 0, missed := 0, seen := [], asked := [], coming := [], sent := none, drop := none
      lastRise := if leader.isNone then none else some counter }
    opt := { s.opt with ports := s.opt.ports.map fun k => { k with useFrom := 0 } } }

/-- The marker of the time parent: the offset is taken from it (R50; the big ones in a row are counted for R51)
and the fields the leader announces are taken for beat `n + 1` and passed on (R70, R71). -/
def State.takeParent (s : State) (leader : Nat) (b : Bytes) (theta : Int) : State :=
  let big : Bool := theta < -40000 || 40000 < theta
  let late := if big then min 8 (s.pick.late + 1) else 0
  let s1 := if big then s.pickEvent 3 else s
  let s2 := { s1 with pick := { s1.pick with offsetPs := theta, late := late, missed := 0 } }
  let drop := if bitOf (byteAt b 0x11) 0 then some (fieldAt b 0x18 2) else none
  let per := fieldAt b 0x14 2
  let win := byteAt b 0x16
  (s2.takeFields (fieldAt b 0 8 + 1) per win drop).relayFields leader per win drop

/-- The markers heard choose the time parent (R50); a new parent or a new leader is sent the requests that stand (R70). -/
def State.followMarker (s : State) (leader port : Nat) (b : Bytes) (theta : Int) (before : Option Nat) : State :=
  match chooseParent leader s.pick.seen with
  | none => s
  | some e =>
    let s1 := ({ s with pick := { s.pick with parent := some e.port, depth := e.depth + 1 } }).forwardRequests before
    if e.port ≠ port then s1 else s1.takeParent leader b theta

/-- A marker from a fabric port is taken by a module that is up (R50, R460 to R462). -/
def State.takeMarker (s : State) (port : Nat) (b : Bytes) (arrival : Int) : State :=
  let n := fieldAt b 0 8
  let depth := byteAt b 0x10
  let leader := fieldAt b 0x12 2
  let k := s.port port
  let theta : Int := i32 (fieldAt b 0xC 4) - (arrival - fieldAt b 8 4 - k.latency)
  if 16 ≤ port then s else
  let s0 := s.takeRequest k.neighbor (fieldAt b 0x1A 2)
  if depth = 0xFF || !s0.recognizes leader then { s0 with pick := { s0.pick with seen := s0.pick.seen.filter (·.port ≠ port) } }
  else if s0.pick.leader ≠ some leader && n ≠ s0.pick.counter && n + 1 ≠ s0.pick.counter then s0.moduleFault 0x0301 0
  else
    let live := fun (q : Nat) => (s.port q).state = .up || (s.port q).state = .keepalive
    let now : Heard := { port := port, depth := depth, theta := theta, leader := leader, beat := n }
    let seen := now :: s0.pick.seen.filter fun e => e.port ≠ port && live e.port
    let passed := s0.pick.leader.isSome && s0.pick.leader ≠ some leader
    let s1 := { s0 with pick := { s0.pick with seen := seen, leader := some leader, self := s0.pick.self && s0.isMine leader } }
    let s1 := if passed then s1.pickEvent 2 else s1
    if s1.pick.self then s1 else s1.followMarker leader port b theta (if passed then none else s0.pick.parent)

/-- The commit of beat n − 1 of the twin is known from its marker of beat n on a selvedge port (R398). -/
def State.twinMarker (s : State) (port n : Nat) : State :=
  if 16 ≤ port && s.twin.lastBeat < n - 1 then { s with twin := { s.twin with lastBeat := n - 1 } } else s

/-- MARKER_RECEIVED (R460 to R462, R481): a module that is joining joins at the first marker of a leader from a fabric port. A marker
with a reserved bit set is answered with a NAK (R452). -/
def execMarkerReceived (port : Nat) (payload : Bytes) (arrivalPs : Int) (s : State) : Res :=
  let st := (s.port port).state
  if st ≠ .up && st ≠ .keepalive then .next s
  else if markerBad payload then .next (s.sendControl port 3 true) else
  let n := fieldAt payload 0 8
  if s.pick.joining then
    if byteAt payload 0x10 = 0xFF || 16 ≤ port then .next s
    else .next (s.joinPick (n + 1) (some (fieldAt payload 0x12 2)) (some port) (byteAt payload 0x10 + 1) (fieldAt payload 0x14 2)
      (byteAt payload 0x16))
  else if s.beating then .next ((s.takeMarker port payload arrivalPs).twinMarker port n)
  else .next s

/-- JOIN_MARKER_TIMEOUT (R481): no marker within 64 ms; the counter starts at 0, and this module leads by R52. -/
def execJoinMarkerTimeout (s : State) : Res :=
  if s.pick.joining then .next (s.joinPick 0 none none 0 0 0) else .next s

/-- ALIGN_OFFSET_EXCEEDED (R51): the offset exceeded ±40 ns at 8 consecutive markers. -/
def execAlignOffsetExceeded (s : State) : Res :=
  if s.beating && 8 ≤ s.pick.late then .next (s.moduleFault 0x0301 0) else .next s

/-- LEADER_MARKER_TIMEOUT (R51): no leader marker for 32 ms. -/
def execLeaderMarkerTimeout (s : State) : Res :=
  if s.beating && !s.pick.self then .next (s.moduleFault 0x0301 0) else .next s

/-- R52 passes the leadership to a module: none holds (0, 0, 0, 0), six leader markers were missed, and the module named has the lowest
node index among those operational, this one included. -/
def State.takesOver (s : State) (node leader : Nat) : Bool :=
  s.operational && 6 ≤ s.pick.missed && !s.pick.self && !s.isMine 0 && leader ≠ 0 && leader < 4096
    && node = nodeIndex s.glb.axes (unpackAddr leader) && s.leaderRank leader ≤ s.leaderRank s.myAddr

/-- LEADER_TAKEOVER (R52): leadership passes to the module named, which continues the counter and the period in force: the 64 picks of R71 run
from here (log entry 136). Which modules
are operational is the event's own; it names the one with the lowest node index (log entry 137). -/
def execLeaderTakeover (node : Nat) (leader : Nat) (s : State) : Res :=
  if !s.takesOver node leader then .next s else
  let me := leader = s.myAddr
  .next ({ s with pick := { s.pick with
    leader := some leader, self := me, depth := if me then 0 else 0xFF, parent := none, seen := [], missed := 0
    offsetPs := if me then 0 else s.pick.offsetPs, late := 0, lastRise := some s.pick.counter } }.pickEvent 2)

/-- LEADER_RELAY (R462): fields of the recognized leader from the time parent apply and go on. A relay that arrives after its
beat's window is for the window of the pick in progress. -/
def execLeaderRelay (port : Nat) (leader period10 windowUs : Nat) (drop : Option Nat) (s : State) : Res :=
  if !s.beating || (s.port port).state ≠ .up || s.pick.parent ≠ some port || s.pick.leader ≠ some leader then .next s else
  let beat := if s.pick.phase = .span || s.pick.phase = .committed then s.pick.counter else s.pick.counter + 1
  .next ((s.takeFields beat period10 windowUs drop).relayFields leader period10 windowUs drop)

/-- PERIOD_REQUEST (R462, R70). -/
def execPeriodRequest (_port : Nat) (src req10 : Nat) (s : State) : Res :=
  if s.beating then .next (s.takeRequest src req10) else .next s

end Sys2Proof.Machine
end

