-- ==== Sys2Proof/Machine/Image.lean ====
section
/-! DEFINITION. Sys2Proof/Machine/Image.lean: the image instructions (14_image_ops.md): descriptor checks, the maps of S2C,
C2S and PATCH, pooling, and crop with resize. -/

namespace Sys2Proof.Machine

/-- An image descriptor (Table 14-1). -/
structure ImgDesc where
  op   : Nat
  fmt  : Nat
  kh   : Nat
  kw   : Nat
  sy   : Nat
  sx   : Nat
  dy   : Nat
  dx   : Nat
  pads : List Nat
  fl   : Nat
  res  : Bool
  n    : Nat
  h    : Nat
  w    : Nat
  c    : Nat
  oh   : Nat
  ow   : Nat
  src  : Nat
  dst  : Nat
  ss   : Nat
  ds   : Nat
  box  : Nat
  deriving DecidableEq, Repr

/-- An image descriptor read from its 64 bytes. -/
def readImg (b : Bytes) : ImgDesc :=
  { op := byteAt b 0, fmt := byteAt b 1, kh := byteAt b 2, kw := byteAt b 3, sy := byteAt b 4, sx := byteAt b 5
    dy := byteAt b 6, dx := byteAt b 7, pads := (List.range 4).map fun i => byteAt b (8 + i), fl := byteAt b 0xC
    res := zeroAt b 0xD 3, n := fieldAt b 0x10 4, h := fieldAt b 0x14 2, w := fieldAt b 0x16 2, c := fieldAt b 0x18 4
    oh := fieldAt b 0x1C 2, ow := fieldAt b 0x1E 2, src := fieldAt b 0x20 8, dst := fieldAt b 0x28 8
    ss := fieldAt b 0x30 4, ds := fieldAt b 0x34 4, box := fieldAt b 0x38 8 }

/-- A padding: top, bottom, left, right. -/
def ImgDesc.pad (d : ImgDesc) (i : Nat) : Nat := d.pads.getD i 0

/-- Channels of the output. -/
def ImgDesc.outC (d : ImgDesc) : Nat :=
  match d.op with
  | 0 => d.kh * d.kw * d.c
  | 1 => d.kh * d.kh * d.c
  | 2 => d.c / max (d.kh * d.kh) 1
  | _ => d.c

/-- `OH` and `OW` as R416 forms them, or none where there is no such output. -/
def ImgDesc.outDims (d : ImgDesc) : Option (Nat × Nat) :=
  let dim := fun (l p dil k st : Nat) =>
    if l + p < dil * (k - 1) + 1 then none else some ((l + p - dil * (k - 1) - 1) / max st 1 + 1)
  match d.op with
  | 1 => some (d.h / max d.kh 1, d.w / max d.kh 1)
  | 2 => some (d.h * d.kh, d.w * d.kh)
  | 5 => some (d.oh, d.ow)
  | _ => (dim d.h (d.pad 0 + d.pad 1) d.dy d.kh d.sy).bind fun a =>
      (dim d.w (d.pad 2 + d.pad 3) d.dx d.kw d.sx).map fun b => (a, b)

/-- The limits of Table 14-2 that the descriptor itself shows, and its reserved bits and encodings; true where one is
broken. -/
def ImgDesc.badMode (d : ImgDesc) : Bool :=
  let within := fun (v lo hi : Nat) => lo ≤ v && v ≤ hi
  let s := d.kh
  (d.fmt ≠ 0 && d.fmt ≠ 4) || 4 ≤ d.fl || !d.res || d.h = 0 || d.w = 0 || !within d.n 1 65536 || !within d.c 1 65536
    || (d.op ≠ 0 && (d.dy ≠ 1 || d.dx ≠ 1)) || (d.op ≠ 5 && d.box ≠ 0)
    || (match d.op with
      | 0 => !within d.kh 1 15 || !within d.kw 1 15 || 65536 < d.outC || !within d.sy 1 8 || !within d.sx 1 8
          || !within d.dy 1 8 || !within d.dx 1 8 || d.pads.any (7 < ·)
      | 5 => !within d.oh 1 256 || !within d.ow 1 256
      | 3 | 4 => !within d.kh 1 16 || !within d.kw 1 16 || !within d.sy 1 16 || !within d.sx 1 16
          || d.kh ≤ d.pad 0 || d.kh ≤ d.pad 1 || d.kw ≤ d.pad 2 || d.kw ≤ d.pad 3
      | _ => (s ≠ 2 && s ≠ 4 && s ≠ 8) || d.kw ≠ s || d.sy ≠ s || d.sx ≠ s || d.pads.any (· ≠ 0)
          || (d.op = 1 && (d.h % s ≠ 0 || d.w % s ≠ 0)) || (d.op = 2 && d.c % (s * s) ≠ 0))

/-- Rows of the source and of the output, which `CROP` forms once for each box. -/
def ImgDesc.srcRows (d : ImgDesc) : Nat := d.n * d.h * d.w
def ImgDesc.dstRows (d : ImgDesc) (boxes : Nat) : Nat := (if d.op = 5 then boxes else d.n) * d.oh * d.ow

/-- Bytes that the source and the output span. -/
def ImgDesc.srcSpan (d : ImgDesc) : Nat := matSpan d.fmt d.ss d.srcRows
def ImgDesc.dstSpan (d : ImgDesc) (boxes : Nat) : Nat := matSpan d.fmt d.ds (d.dstRows boxes)

/-- One operand lies in no object of the context with the descriptor's format (R412). -/
def Core.imgFormatBad (c : Core) (x : Nat) (d : ImgDesc) : Bool :=
  [d.src, d.dst].any fun a => (c.find x a 1).elim true fun p => p.2.format ≠ d.fmt

/-- The ranges of R415; true where one is broken. -/
def Core.imgRangeBad (c : Core) (x : Nat) (d : ImgDesc) (boxes : Nat) : Bool :=
  let e := rowElems d.fmt
  d.outDims ≠ some (d.oh, d.ow) || d.src % 16384 ≠ 0 || d.dst % 16384 ≠ 0
    || d.ss < ceilDiv d.c e || d.ds < ceilDiv d.outC e
    || !c.inObj x d.src d.srcSpan || !c.inObj x d.dst (d.dstSpan boxes)
    || (d.src < d.dst + d.dstSpan boxes && d.dst < d.src + d.srcSpan)

/-- A box: its image and its corners (R424). -/
structure Box where
  img : Nat
  y0  : Nat
  x0  : Nat
  y1  : Nat
  x1  : Nat
  ok  : Bool
  deriving DecidableEq, Repr

/-- Box b of a box list. -/
def readBox (l : Bytes) (b : Nat) : Box :=
  let e := (l.drop (64 + 32 * b)).take 32
  { img := fieldAt e 0 4, y0 := fieldAt e 8 4, x0 := fieldAt e 12 4, y1 := fieldAt e 16 4, x1 := fieldAt e 20 4
    ok := zeroAt e 4 4 && zeroAt e 24 8 }

/-- The source row of pixel (n, y, x) (R411). -/
def ImgDesc.pixel (d : ImgDesc) (n y x : Nat) : Nat := (n * d.h + y) * d.w + x

/-- The taps of a window that lie inside the image, in ascending (ky, kx) order, as source rows. -/
def ImgDesc.window (d : ImgDesc) (n i j : Nat) : List Nat :=
  (List.range d.kh).flatMap fun ky => (List.range d.kw).filterMap fun kx =>
    let y := i * d.sy + ky * d.dy
    let x := j * d.sx + kx * d.dx
    if y < d.pad 0 || x < d.pad 2 || d.h ≤ y - d.pad 0 || d.w ≤ x - d.pad 2 then none
    else some (d.pixel n (y - d.pad 0) (x - d.pad 2))

/-- The whole part of a binary32 value that is at least 0. -/
def floorNat (b : Nat) : Nat :=
  match ofF32 b with
  | .fin _ m e => if e < 0 then m / 2 ^ (-e).toNat else m * 2 ^ e.toNat
  | _ => 0

/-- A source coordinate of `CROP` (R425). -/
def cropCoord (lo hi size i out : Nat) : Nat :=
  let hm := fOfNat (size - 1)
  if out = 1 then fMul (fMul (fAdd lo hi) 0x3F000000) hm
  else fFma (fDiv (fMul (fSub hi lo) hm) (fOfNat (out - 1))) (fOfNat i) (fMul lo hm)

/-- A coordinate lies in an axis of a size (R425). -/
def inAxis (v size : Nat) : Bool := (ofF32 v).isFin && !(ofF32 v).lt (ofF32 0) && !(ofF32 (fOfNat (size - 1))).lt (ofF32 v)

/-- What a `CROP` output reads (R425): no pixel outside the image, one, or four with the weights. -/
inductive CropAt
  | outside
  | one (row : Nat)
  | four (a b c d fx fy : Nat)
  deriving DecidableEq, Repr

/-- The source of one `CROP` output pixel. -/
def ImgDesc.crop (d : ImgDesc) (b : Box) (i j : Nat) : CropAt :=
  let ys := cropCoord b.y0 b.y1 d.h i d.oh
  let xs := cropCoord b.x0 b.x1 d.w j d.ow
  if !inAxis ys d.h || !inAxis xs d.w then .outside
  else if !bitOf d.fl 1 then
    .one (d.pixel b.img (min (floorNat (fAdd ys 0x3F000000)) (d.h - 1)) (min (floorNat (fAdd xs 0x3F000000)) (d.w - 1)))
  else
    let y := floorNat ys; let x := floorNat xs
    let y' := min (y + 1) (d.h - 1); let x' := min (x + 1) (d.w - 1)
    .four (d.pixel b.img y x) (d.pixel b.img y x') (d.pixel b.img y' x) (d.pixel b.img y' x')
      (fSub xs (fOfNat x)) (fSub ys (fOfNat y))

/-- An output element: a copy of a source element, a constant, or a value formed from source elements. -/
inductive ImgElem
  | copy (row ch : Nat)
  | zero
  | fixed (v : Nat)
  | maxOf (rows : List Nat) (ch : Nat)
  | avgOf (rows : List Nat) (ch count : Nat)
  | lerp (a b c d fx fy ch : Nat)
  deriving DecidableEq, Repr

/-- Output element (row, col) of an image instruction (R419, R420, R422 to R425). -/
def ImgDesc.elem (d : ImgDesc) (boxes : List Box) (extra row col : Nat) : ImgElem :=
  let n := row / (d.oh * d.ow)
  let i := row / d.ow % d.oh
  let j := row % d.ow
  let s := d.kh
  match d.op with
  | 0 =>
    let tap := col / d.c
    let y := i * d.sy + tap / d.kw * d.dy
    let x := j * d.sx + tap % d.kw * d.dx
    if y < d.pad 0 || x < d.pad 2 || d.h ≤ y - d.pad 0 || d.w ≤ x - d.pad 2 then .zero
    else .copy (d.pixel n (y - d.pad 0) (x - d.pad 2)) (col % d.c)
  | 1 => .copy (d.pixel n (i * s + col / d.c / s) (j * s + col / d.c % s)) (col % d.c)
  | 2 =>
    let c' := d.c / (s * s)
    .copy (d.pixel n (i / s) (j / s)) ((i % s * s + j % s) * c' + col)
  | 3 => .maxOf (d.window n i j) col
  | 4 =>
    let l := d.window n i j
    .avgOf l col (if bitOf d.fl 0 then d.kh * d.kw else l.length)
  | _ => match d.crop (boxes.getD n ⟨0, 0, 0, 0, 0, true⟩) i j with
    | .outside => .fixed extra
    | .one r => .copy r col
    | .four a b c e fx fy => .lerp a b c e fx fy col

/-- The source rows an element reads, with its channel. -/
def ImgElem.reads : ImgElem → List (Nat × Nat)
  | .copy r ch => [(r, ch)]
  | .zero => []
  | .fixed _ => []
  | .maxOf l ch => l.map (·, ch)
  | .avgOf l ch _ => l.map (·, ch)
  | .lerp a b c d _ _ ch => [(a, ch), (b, ch), (c, ch), (d, ch)]

/-- An element's stored bits (R419 to R425), from a reader of stored source bits. A BF16 maximum is the upper half of its FP32 pattern, as it
is (R423). -/
def ImgElem.bits (fmt : Nat) (rd : Nat → Nat → Nat) (e : ImgElem) : Nat :=
  let f := fun (r ch : Nat) => if fmt = 0 then toF32 (bf16.decode false (rd r ch)) else rd r ch
  let out := fun (v : Nat) => if fmt = 0 then bf16.narrow (ofF32 v) else v
  let mix := fun (w a b : Nat) => fFma w (fSub b a) a
  match e with
  | .copy r ch => rd r ch
  | .zero => 0
  | .fixed v => out v
  | .maxOf l ch => (match l.map (f · ch) with
    | [] => 0
    | v :: vs => vs.foldl fMax v) / (if fmt = 0 then 65536 else 1)
  | .avgOf l ch n => out (fDiv (l.foldl (fun s r => fAdd s (f r ch)) 0) (fOfNat n))
  | .lerp a b c d fx fy ch => out (mix fy (mix fx (f a ch) (f b ch)) (mix fx (f c ch) (f d ch)))

/-- The elements of an output row: its channels, then +0 to the end of the plane (R413). -/
def ImgDesc.row (d : ImgDesc) (boxes : List Box) (extra r : Nat) : List ImgElem :=
  let e := rowElems d.fmt
  (List.range (ceilDiv d.outC e * e)).map fun c => if c < d.outC then d.elem boxes extra r c else .zero

/-- The sectors of the source that a list of elements reads. -/
def ImgDesc.sectors (d : ImgDesc) (es : List ImgElem) : List Nat :=
  ((es.flatMap ImgElem.reads).map fun p => matAddr d.fmt d.src d.ss p.1 p.2 / 64).eraseDups

/-- Bytes of an image instruction's staging buffer (R417). -/
def stagingBytes : Nat := 131072

/-- The output rows of an image instruction, with their elements. -/
def ImgDesc.rows (d : ImgDesc) (boxes : List Box) (extra : Nat) : List (Nat × List ImgElem) :=
  (List.range (d.dstRows boxes.length)).map fun r => (r, d.row boxes extra r)

/-- The sectors that an image instruction reads. -/
def ImgDesc.source (d : ImgDesc) (boxes : List Box) (extra : Nat) : List Nat := d.sectors ((d.rows boxes extra).flatMap Prod.snd)

/-- What an image instruction writes, from a reader of stored source bits. -/
def ImgDesc.writes (d : ImgDesc) (boxes : List Box) (extra : Nat) (rd : Nat → Nat → Nat) : List (Nat × Bytes) :=
  (d.rows boxes extra).flatMap fun p =>
    rowWrites d.fmt d.dst d.ds p.1 (p.2.length + 1) 0 (p.2.map fun e => leBytes (elemBytes d.fmt) (e.bits d.fmt rd))

/-- The stored bits of a source element, as a context's tasks read it. -/
def Core.imgBits (c : Core) (x : Nat) (d : ImgDesc) (r ch : Nat) : Nat :=
  c.numIn (c.view x) (matAddr d.fmt d.src d.ss r ch) (elemBytes d.fmt)

/-- An image instruction past its checks (R417 to R425): its staging buffer, where it does not hold it yet, its reads with their marks, its
writes. It frees the buffer as it ends, not while it waits. -/
def State.runImage (s : State) (t : TaskRef) (x cu desc : Nat) (d : ImgDesc) (boxes : List Box) (extra : Nat) (held : Bool) : State :=
  let a := if held then (s.core, true) else s.core.allocate t cu stagingBytes
  if !a.2 then { s with core := a.1 } else
  let s1 := { s with core := a.1 }
  let secs := d.source boxes extra
  let s2 := secs.foldl (fun (s : State) sec =>
    if s.core.faulting x then s else s.readSector (some (.task t)) (64 * sec) {}) s1
  let free := fun (s : State) => s.withCore fun c => c.setTask t fun y => { y with sram := y.sram - stagingBytes }
  if s2.core.faulting x then free s2 else
  let late := secs.filter fun sec => s2.core.repairs.any (·.sector = sec)
  if !late.isEmpty then s2.withCore fun c => { c with waits := c.waits ++ [.image t d.op desc true] } else
  let s3 := s2.taskWrites t x (d.writes boxes extra (s2.core.imgBits x d))
  if s3.unhindered then free s3 else s3

/-- An image instruction issues (R414, R415): the harness's bit and the descriptor are checked before anything is read or
allocated; the box list of a `CROP` is then read and checked. `held` is that it already holds its staging buffer. -/
def State.image (s : State) (t : TaskRef) (op desc : Nat) (held : Bool) : State :=
  match s.core.task t, s.core.taskCtx t with
  | some k, some x =>
    if !s.operational || k.phase ≠ .running || 2 < k.desc.engine then s else
    let fail := fun (s : State) (code : Nat) => s.withCore fun c => c.raiseTask t code desc
    let on := s.core.draft.elim false fun d => bitOf (d.func (s.core.ctx x).harness).flags 0
    if !on then fail s 0x0603
    else if sramBytes < desc + 64 then s.withCore fun c => c.overflow t 0 (desc + 64) (c.sramFree k.cu)
    else
      let f := s.core.resolve x
      let d0 := readImg (s.core.sramRead s.pick.counter k.cu desc 64)
      let d := { d0 with src := f d0.src, dst := f d0.dst, box := f d0.box }
      if d.op ≠ op && d.op < 6 then s
      else if 5 < d.op || d.badMode || s.core.imgFormatBad x d then fail s 0x0603
      else if op ≠ 5 then (if s.core.imgRangeBad x d 0 then fail s 0x0604 else s.runImage t x k.cu desc d [] 0 held)
      else if d.box % 64 ≠ 0 || !s.core.inObj x d.box 64 || s.core.imgRangeBad x d 1 then fail s 0x0604
      else
        let s1 := s.readRange t d.box 64
        if s1.core.faulting x then s1 else
        let cnt := s1.core.readNat x d.box 4
        if cnt = 0 || 65536 < cnt then fail s1 0x0603
        else if !s1.core.inObj x d.box (64 + 32 * cnt) then fail s1 0x0604
        else
          let s2 := s1.readRange t d.box (64 + 32 * cnt)
          if s2.core.faulting x then s2 else
          let l := s2.core.readAs x d.box (64 + 32 * cnt)
          let boxes := (List.range cnt).map (readBox l)
          if !zeroAt l 8 56 || boxes.any (!·.ok) then fail s2 0x0603
          else if boxes.any (d.n ≤ ·.img) || s2.core.imgRangeBad x d cnt then fail s2 0x0604
          else s2.runImage t x k.cu desc d boxes (fieldAt l 4 4) held
  | _, _ => s

/-- Local SRAM that a task has allocated. -/
def Core.sramOf (c : Core) (t : TaskRef) : Nat := (c.task t).elim 0 Task.sram

/-- An image instruction runs, or ends its task with a fault, which the task's group is told of (R306), or waits, keeping the staging buffer
that it had come to hold (R417). -/
def State.issueImage (s : State) (t : TaskRef) (op desc : Nat) (held : Bool) : State :=
  let r := s.fresh.image t op desc held
  if r.unhindered then s.tellAborts r
  else
    let got := s.core.sramOf t < r.core.sramOf t
    let s1 := if got then s.withCore fun c => c.setTask t fun y => { y with sram := y.sram + stagingBytes } else s
    s1.waitFor r (.image t op desc (held || got))

/-- PATCH (R420). -/
def execPatch (t : TaskRef) (desc : Nat) (s : State) : Res := .next (s.issueImage t 0 desc false)

/-- S2C (R419). -/
def execS2c (t : TaskRef) (desc : Nat) (s : State) : Res := .next (s.issueImage t 1 desc false)

/-- C2S (R419). -/
def execC2s (t : TaskRef) (desc : Nat) (s : State) : Res := .next (s.issueImage t 2 desc false)

/-- MAXPOOL (R422). -/
def execMaxpool (t : TaskRef) (desc : Nat) (s : State) : Res := .next (s.issueImage t 3 desc false)

/-- AVGPOOL (R423). -/
def execAvgpool (t : TaskRef) (desc : Nat) (s : State) : Res := .next (s.issueImage t 4 desc false)

/-- CROP (R424, R425). -/
def execCrop (t : TaskRef) (desc : Nat) (s : State) : Res := .next (s.issueImage t 5 desc false)

end Sys2Proof.Machine
end

