-- ==== Sys2Proof/Machine/Cxl.lean ====
section
/-! DEFINITION. Sys2Proof/Machine/Cxl.lean: the host link (15_cxl.md): its loss, training and resets, IDE failures, CXL.mem
through the apertures, the snoop filter, and the accesses that wait for it or for a repair. -/

namespace Sys2Proof.Machine

/-- CXL_LINK_DOWN (R428). -/
def execCxlLinkDown (s : State) : Res :=
  if !s.glb.up then .next s else
  let s1 := { s with glb := { s.glb with up := false } }
  if s.operational then .next ((s1.report 0x0D20 0).glbEvent 1) else .next s1

/-- A trained width and rate that the port supports (R426). -/
def linkOk (width rate : Nat) : Bool := (width = 2 || width = 4 || width = 8 || width = 16) && rate ≤ 2

/-- The link has trained (R427): a width below x16 or a rate below 64 GT/s is reported; a link that comes back is a recovery. -/
def State.trainCxl (s : State) (width rate : Nat) : State :=
  let again := !s.glb.up && s.glb.width ≠ 0
  let s1 := { s with glb := { s.glb with
    up := true, width := width, rate := rate, l0p := s.glb.state = .standby
    recoveries := if again then min 255 (s.glb.recoveries + 1) else s.glb.recoveries } }
  if width < 16 || rate < 2 then (s1.report 0x0D23 0).glbEvent 0 else s1

/-- CXL_LOST_TIMEOUT (R428): a limit of 0 never expires. -/
def execCxlLostTimeout (s : State) : Res :=
  if s.operational && !s.linkUp && s.glb.limitMs ≠ 0 then .next (s.moduleFault 0x0D21 0) else .next s

/-- The kinds of host reset that take the link out of L0 (R431). -/
def resetDropsLink : HostReset → Bool
  | .flr => false
  | .cxlReset => false
  | _ => true

/-- A requested warm start begins with its own quiesce (R469), in operational state, in standby and while only the host link is awaited
(log entry 92). -/
def State.requestWarm (s : State) : State := if s.beating then s.quiesce 0 0 else s

/-- HOST_LINK_RESET (R431): a warm start; the link trains again as the reset requires. -/
def execHostLinkReset (kind : HostReset) (s : State) : Res :=
  let s1 := s.requestWarm
  .next { s1 with glb := { s1.glb with up := s1.glb.up && !resetDropsLink kind } }

/-- IDE_MAC_FAILURE (R445): in containment mode the link is handled as down until it is re-keyed; in skid mode it is a module
fault, in operational state, in standby and during a warm start. -/
def execIdeMacFailure (s : State) : Res :=
  if !s.glb.ideIo && !s.glb.ideCm then .next s else
  let s1 := s.glbEvent 2
  if s.glb.skid && (s.beating || s.glb.state = .warm) then .next (s1.moduleFault 0x0D22 0)
  else .next (s1.noteDown ({ s1 with glb := { s1.glb with macBad := true } }.report 0x0D22 0))

/-- Bytes of the host land in a sector (R439): in working and committed memory, since host writes are no part of the pick
(R62), under the object's tag with a valid check word. Region-cache copies are invalidated, and lineage records of the block are
dropped. -/
def State.hostStore (s : State) (a : Nat) (data : Bytes) : State :=
  let s1 := (s.repairWrite (a / 64) .valid (some data)).cancelRepairs a 64
  let blk := blockOf a
  let lose := fun (l : List T1Line) => l.filter fun x => x.line ≠ a / 1024
  let s2 := s1.withCore fun c => { (c.dropLineage blk) with
    onchip := { (c.dropLineage blk).onchip with t1 := c.onchip.t1.map lose }
    changed := (blk, 0) :: c.changed.filter (·.1 ≠ blk) }
  match s.core.farAddr a with
  | some f => s2.emit (.farWrite (s2.uioAt f) f data)
  | none => s2

/-- The line of an object that an aperture in force maps an HPA to (R437, R438): the device address, and the object. -/
def State.aperture (s : State) (hpa : Nat) : Option (Nat × Obj) :=
  let off := hpa / 64 * 64 - s.glb.hdmBase
  let ap := s.core.apertures.find? fun e =>
    bitOf e.2 0 && 2 ^ 21 * bits e.1 19 0 ≤ off && off < 2 ^ 21 * (bits e.1 19 0 + bits e.1 59 40)
  ap.bind fun e =>
    let tgt := bits e.2 60 14 * 2 ^ 14
    let o := addrOffset tgt + (off - 2 ^ 21 * bits e.1 19 0)
    (s.core.obj (addrIndex tgt)).bind fun ob => if o < ob.size then some (devAddr (addrIndex tgt) o, ob) else none

/-- The HPA lies in the committed decoder (R437). -/
def State.hdmHit (s : State) (hpa : Nat) : Bool :=
  s.glb.hdmOn && s.glb.hdmBase ≤ hpa && hpa < s.glb.hdmBase + 2 ^ 28 * s.glb.hdmSize

/-- The sector of a host access waits for its repair. -/
def State.repairing (s : State) (a : Nat) : Bool := s.core.repairs.any (·.sector = a / 64)

/-- A read of the host is answered with the line's latest value, or with poison (R364, R365, R439). -/
def State.answerRead (s : State) (a : Nat) (bad : Bool) : State :=
  let poison := bad || s.core.syndrome s.core.mem (a / 64) ≠ 0
  s.emit (.cxlData (s.core.memBytes s.core.mem a 64) poison)

/-- A line that the host takes into its caches enters the snoop filter (R440). -/
def State.track (s : State) (line : Nat) : State :=
  if s.glb.filter.any (·.1 = line) then s else { s with glb := { s.glb with filter := s.glb.filter ++ [(line, true)] } }

/-- A line would be a new entry of the snoop filter, which is full (R440). -/
def State.filterFull (s : State) (line : Nat) : Bool := !(s.glb.filter.any (·.1 = line)) && 8388608 ≤ s.glb.filter.length

/-- An access of the host waits. -/
def State.hostHold (s : State) (w : HostWait) : State := { s with glb := { s.glb with hostWaits := s.glb.hostWaits ++ [w] } }

/-- Merges a partial host write with the line it lands on. -/
def mergeMask (old new : Bytes) (mask : List Bool) : Bytes :=
  (List.range 64).map fun i => if mask.getD i false then new.getD i 0 else old.getD i 0

/-- A host write lands, or, where a partial one meets poison, is dropped (R439). -/
def State.finishWrite (s : State) (a : Nat) (data : Bytes) (mask : List Bool) : State :=
  if mask.all id then s.hostStore a data
  else if s.core.syndrome s.core.mem (a / 64) ≠ 0 then s.glbEvent 4
  else s.hostStore a (mergeMask (s.core.memBytes s.core.mem a 64) data mask)

/-- A read of the host at T3 failed (R436, R439). -/
def State.farFails (s : State) (a : Nat) (err : ReadErr) : Bool := (s.core.farAddr a).isSome && err.flips ≠ 0

/-- A read of the host in an object (R439): while the link is down it waits (R428), and while the snoop filter is full, whose longest
tracked line is snooped (R440). -/
def State.serveRead (s : State) (a : Nat) (err : ReadErr) : State :=
  if !s.linkUp then s.hostHold (.read a err)
  else if s.filterFull (a / 64) then (s.snoop ((s.glb.filter.head?.map Prod.fst).toList)).hostHold (.read a err)
  else
    let bad := s.farFails a err
    let s1 := (s.readSector (some .host) a err).track (a / 64)
    if s1.repairing a then s1.hostHold (.read a {}) else s1.answerRead a bad

/-- A write of the host in an object (R439): the host then holds no modified copy of the line. A partial write reads its sector first; one
whose read of T3 fails is dropped (log entry 199). -/
def State.serveWrite (s : State) (a : Nat) (data : Bytes) (mask : List Bool) (err : ReadErr) : State :=
  if !s.linkUp then s.hostHold (.write a data mask err)
  else
    let clean := fun (e : Nat × Bool) => if e.1 = a / 64 then (e.1, false) else e
    let s0 := { s with glb := { s.glb with filter := s.glb.filter.map clean } }
    if mask.all id then s0.hostStore a data
    else
      let s1 := s0.readSector (some .host) a err
      if s0.farFails a err then s1.glbEvent 4
      else if s1.repairing a then s1.hostHold (.write a data mask {})
      else s1.finishWrite a data mask

/-- A read of the host outside the apertures' objects gives zeros (R439). -/
def State.serveZeros (s : State) : State := if s.linkUp then s.emit (.cxlData (leBytes 64 0) false) else s.hostHold .zeros

/-- The host accesses that waited go on as far as they can. -/
def State.hostGo (s : State) : State :=
  s.glb.hostWaits.foldl (fun (s : State) w => match w with
    | .read a e => if s.repairing a then s.hostHold w else s.serveRead a e
    | .zeros => s.serveZeros
    | .write a d m e => if s.repairing a then s.hostHold w else s.serveWrite a d m e)
    { s with glb := { s.glb with hostWaits := [] } }

/-- The accesses that waited for a snoop or a repair go on, or wait again. -/
def State.runWaits (s : State) : State :=
  let ws := s.core.waits
  let runs := fun (s : State) (t : TaskRef) => (s.core.task t).elim false fun k => k.phase = .running
  ws.foldl (fun (s : State) w => match w with
    | .task t => s.attempt t
    | .write t a d => if runs s t then s.tryWrite t a d else s
    | .read rd a e => s.orWait w fun s =>
        s.readSector (some rd) (((readerTask (some rd)).bind s.core.taskCtx).elim a fun x => s.core.resolve x a) e
    | .image t op d held => if runs s t then s.issueImage t op d held else s)
    (s.withCore fun c => { c with waits := [] })

/-- TASK_START (R248, R369): the accesses of the host that waited for a repair go on after it. -/
def execTaskStart (cu : Nat) (u : ExecUnit) (cycle : Nat) (s : State) : Res :=
  if !s.inSpan then .next s else
  let s1 := s.withCore fun c => { c with cycle := cycle }
  match (if u = .arrayA then s1.repairHere cu cycle else none) with
  | some x => .next (s1.tellAborts (s1.startRepair x cu cycle).hostGo)
  | none =>
    match s1.choose cu u cycle with
    | none => .next s
    | some p => .next (s.tellAborts (s1.startTask p.1 p.2.1 p.2.2 cycle u))

/-- What waited goes on: the host's accesses, those of the tasks, and, within a pick, what the running tasks do. -/
def State.resume (s : State) : State :=
  let s1 := s.hostGo.runWaits
  s.tellAborts (if s1.inSpan then (s1.core.running.map Prod.fst).foldl State.attempt s1 else s1)

/-- What the state of the host link brings with it: once it is up, a module that waited for its link alone enters operational state (R480),
or what the link held back goes on (R428); and its fall is reported. -/
def State.linkTurn (s t : State) : State := if !t.linkUp then s.noteDown t else if t.glb.ready then t.enterOp else t.resume

/-- CXL_LINK_TRAINED (R426, R427, R480). -/
def execCxlLinkTrained (width rate : Nat) (s : State) : Res :=
  if !linkOk width rate then .next s else .next (s.linkTurn (s.trainCxl width rate))

/-- HELD_QUEUE_ROOM (R386): the twin's queue of a die's held items has room again, and the writers that waited go on. -/
def execHeldQueueRoom (die : Nat) (s : State) : Res :=
  if 4 ≤ die then .next s
  else .next ({ s with twin := { s.twin with own := { s.twin.own with full := setAt s.twin.own.full die false } } }).resume

/-- TWIN_FETCH_RETURN (R363): the repair ends or goes on to steps 2 and 3, and the accesses that waited for it go on. -/
def execTwinFetchReturn (addr : Nat) (data : Option Bytes) (s : State) : Res :=
  .next (s.fetchReturn addr data).resume

/-- CXL_MEM_READ (R439, R446): served through the apertures in force; in no aperture or past the object zeros; outside
operational state poison. -/
def execCxlMemRead (hpa : Nat) (err : ReadErr) (s : State) : Res :=
  if !s.hdmHit hpa then .next s
  else if !s.operational then .next ((s.emit (.cxlData (leBytes 64 0) true)).glbEvent 4)
  else match s.aperture hpa with
    | none => .next (s.serveZeros.glbEvent 4)
    | some (a, _) => .next (s.serveRead a err)

/-- CXL_MEM_WRITE (R439, R446). -/
def execCxlMemWrite (hpa : Nat) (data : Bytes) (mask : WriteMask) (s : State) : Res :=
  if !s.hdmHit hpa then .next s
  else if !s.operational then .next (s.glbEvent 4)
  else match s.aperture hpa with
    | none => .next (s.glbEvent 4)
    | some (a, o) => .next (if o.cls ≤ 1 then s.glbEvent 4 else s.serveWrite a data mask.bits mask.err)

/-- BISNP_RESPONSE (R440): modified data of the host lands in the line's home, the line is tracked no more, and what waited for it
goes on. -/
def execBisnpResponse (line : Nat) (modified : Option Bytes) (s : State) : Res :=
  let live := s.operational && (s.core.obj (addrIndex (64 * line))).isSome
  let s1 := match modified with
    | some d => if live then (s.hostStore (64 * line) d).withCore fun c => c.patchStores (64 * line) d else s
    | none => s
  let s2 := { s1 with glb := { s1.glb with filter := s1.glb.filter.filter fun e => e.1 ≠ line } }
  let s3 := s2.withCore fun c => { c with snoops := c.snoops.filter (· ≠ line) }
  .next (s3.tellAborts s3.hostGo.runWaits)

/-- HDM_DECODER_COMMIT (R426, R437): HDM-DB with interleave ways 1, from 256 MiB to 1,152 GiB. -/
def execHdmDecoderCommit (base size256 ways : Nat) (hdmDb : Bool) (s : State) : Res :=
  if ways = 1 && hdmDb && 1 ≤ size256 && size256 ≤ 4608 then
    .next { s with glb := { s.glb with hdmBase := base, hdmSize := size256, hdmOn := true } }
  else .next (s.emit .commitError)

/-- CXL_CACHE_SNOOP (R433): every snoop is answered with RspIHitI. -/
def execCxlCacheSnoop (line : Nat) (s : State) : Res := .next (s.emit (.snoopRsp line))

/-- UIO_REQUEST_RECEIVED (R426): a UIO request, or one to another function, receives Unsupported Request. -/
def execUioRequestReceived (fn : Nat) (uio : Bool) (s : State) : Res :=
  if uio || fn ≠ 0 then .next (s.emit (.unsupportedRequest fn)) else .next s

end Sys2Proof.Machine
end

