-- ==== Sys2Proof/Machine/Power.lean ====
section
/-! DEFINITION. Sys2Proof/Machine/Power.lean: interrupts (R432), sensors (R518), limits and throttling (R513 to R516), emergencies
(R517, Table 18-8) and the 48 V inputs (R523 to R525). -/

namespace Sys2Proof.Machine

/-- A message of an MSI-X vector (R432): none while `GLB_IRQ_ENABLE` clears it; while the table masks it, its pending bit is set. -/
def State.interrupt (s : State) (v : Nat) : State :=
  if !bitOf s.glb.irqEnable v then s
  else if s.glb.msixMask.getD v true then { s with glb := { s.glb with msixPend := setAt s.glb.msixPend v true } }
  else s.emit (.msix v)

/-- An entry of the persistent settings store (R474). -/
structure Setting where
  key   : Nat
  value : Bytes
  deriving DecidableEq, Repr

/-- The entries of a settings store: key, length and value, each padded to 8 bytes (R474). -/
def readSettings : Nat → Bytes → List Setting
  | 0, _ => []
  | fuel + 1, b =>
    if b.length < 4 then [] else
    let n := fieldAt b 2 2
    ⟨fieldAt b 0 2, (b.drop 4).take n⟩ :: readSettings fuel (b.drop (8 * ceilDiv (4 + n) 8))

/-- The bytes of a settings store. -/
def settingBytes (l : List Setting) : Bytes :=
  l.flatMap fun e =>
    let b := leBytes 2 e.key ++ leBytes 2 e.value.length ++ e.value
    b ++ leBytes (8 * ceilDiv b.length 8 - b.length) 0

/-- The settings store's entries. -/
def State.settings (s : State) : List Setting :=
  s.flash.settings.current.elim [] fun b => readSettings (b.length / 8 + 1) b

/-- The value of a setting, with the defaults of R504. -/
def State.setting (s : State) (key : Nat) : Bytes :=
  match s.settings.find? (·.key = key) with
  | some e => e.value
  | none => if key = 0x0100 then [45] else []

/-- `INLET_LIMIT_C` (R504). -/
def State.inletLimit (s : State) : Nat := leNat (s.setting 0x0100)

/-- A sensor of Table 18-9, by ID. -/
def sensorOf (r : Readings) (id : Nat) : Nat := r.vals.getD (id - 1) 0

/-- Sensors 24 to 27 (Table 18-9). -/
def State.stateSensors (s : State) : List Nat :=
  [s.pick.step, s.glb.state.code, s.twin.state.code, s.activeCarts]

/-- A reading, in tenths of a degree, is at or above a threshold of Table 18-8, less a margin. -/
def hotAt (r : Readings) (junction stack optic : Nat) : Bool :=
  ([11, 12, 13, 14, 15].any fun i => junction ≤ sensorOf r i) || ([16, 17, 18, 19].any fun i => stack ≤ sensorOf r i) || optic ≤ sensorOf r 20

/-- A quantity is at or above its throttle threshold (Table 18-8). -/
def throttles (r : Readings) : Bool := hotAt r 1000 950 750

/-- The coolant report of Table 18-8. -/
def coolantBad (r : Readings) : Bool := 400 < sensorOf r 21 || sensorOf r 23 < 400

/-- A temperature or inlet emergency of Table 18-8. -/
def State.thermalEmergency (s : State) (r : Readings) : Bool := hotAt r 1100 1050 850 || 10 * s.inletLimit < sensorOf r 21

/-- A 48 V input in its operating range (R513). -/
def State.anyInput (s : State) : Bool := s.power.inputs.any (·.inRange)

/-- A `PWR` condition of Table 18-8 is active, for SMBALERT# (Table 18-1). -/
def State.pwrActive (s : State) (r : Readings) : Bool :=
  throttles r || coolantBad r || s.thermalEmergency r || s.mgt.limitW < sensorOf r 5 || s.power.inputs.any fun i => !i.inRange

/-- An emergency of Table 18-8 (R517): a quiesce with intent warm, where beats run. -/
def State.emergency (s : State) (code detail : Nat) : State :=
  if s.beating then (s.quiesce code detail).mgtEvent 2 else s.pwrReport code detail

/-- The state sensors that changed since the last snapshot are sent to each event receiver (Table 18-1). -/
def State.sensorEvents (s : State) : State :=
  let now := s.stateSensors
  let diff := (now.zipIdx.filter fun e => s.proto.lastSens.getD e.2 0 ≠ e.1).map fun e => (24 + e.2, e.1)
  let recv := fun (b : Binding) (r : Option Nat) => if r.isSome then diff.map fun (e : Nat × Nat) => Out.pldmEvent b e.1 e.2 else []
  ({ s with proto := { s.proto with lastSens := now } }).emits
    (recv .smbus (s.proto.receiver.getD 0 none) ++ recv .pcieVdm (s.proto.receiver.getD 1 none))

/-- A sensor snapshot (R518): values kept, reports and emergencies of Table 18-8 raised. -/
def State.snapshot (s : State) (r : Readings) : State :=
  let s1 := { s with
    mgt := { s.mgt with snap := r, snapBeat := s.pick.counter, inputW := r.pIn4, coolant := coolantBad r }
    power := { s.power with smbalert := s.pwrActive r } }
  let s2 := s1.sensorEvents
  let s3 := if coolantBad r && !s.mgt.coolant then s2.pwrReport 0x0E05 0 else s2
  if s.thermalEmergency r then s3.emergency 0x0E04 0 else s3

/-- SENSOR_SNAPSHOT (R518). -/
def execSensorSnapshot (r : Readings) (s : State) : Res := .next (s.snapshot r)

/-- The factor k of R514 in hundredths. -/
def powerFactor (step : Nat) : Int :=
  match step with
  | 0 => 100 | 1 => 81 | 2 => 65 | _ => 51

/-- The predicted input power at a step lies within the limit (R514), all multiplied by k(f_cur). -/
def withinLimit (pIn d limit cur step : Nat) : Bool :=
  (pIn : Int) * powerFactor cur + d * (powerFactor step - powerFactor cur) ≤ limit * powerFactor cur

/-- The power step of R514: the highest within the limit, or the lowest where none is. -/
def powerStep (r : Readings) (limit cur : Nat) : Nat :=
  ((List.range 4).find? fun x => withinLimit r.pIn4 r.dieP4 limit cur x).getD 3

/-- The target step of R514 and the cause that governs it (Table 18-7). -/
def State.targetStep (s : State) (r : Readings) : Nat × Nat :=
  let cur := s.pick.step
  let hot := throttles r
  let th := if hot then min 3 (cur + 1) else cur
  let pw := powerStep r s.mgt.limitW cur
  let t := max s.mgt.cap (max th pw)
  let cause := if cur < t then (if hot && th = t then 2 else if pw = t then 1 else 3)
    else if t = 0 || t = s.mgt.cap then 0 else s.mgt.cause
  (t, cause)

/-- The throttle decision at the opening of a beat window (R514, R515): target, request and the beat that latches, none where the step waits
for the stretched period. A rise that R516
waits to latch stands where nothing calls for a lower step. -/
def State.throttle (s : State) (r : Readings) : State :=
  let n := s.pick.counter
  let cur := s.pick.step
  let tc := s.targetStep r
  let rising := s.mgt.latchAt.isSome && s.mgt.target < cur && tc.1 ≤ cur && s.mgt.cap ≤ s.mgt.target
    && withinLimit r.pIn4 r.dieP4 s.mgt.limitW cur s.mgt.target && !throttles r
  if rising then s else
  let t := tc.1
  let low := max t cur
  let req := if s.pick.plan < low then stretched10 s.pick.pd10 s.pick.wd s.pick.plan low else 0
  let urgent := 11 * s.mgt.limitW < 10 * r.pIn4 || tc.2 = 2 || t ≤ s.pick.plan || req ≤ s.pick.period10
  let at_ := if cur < t && urgent then some n else none
  { s with
    mgt := { s.mgt with target := t, cause := tc.2, latchAt := at_ }
    pick := { s.pick with request10 := req } }

/-- A step is to be latched at this beat: its beat has come, or, for a lower one that waits for the stretched period, that period applies
(R70, R515). -/
def State.latchDue (s : State) : Bool :=
  match s.mgt.latchAt with
  | some a => a ≤ s.pick.counter
  | none => s.pick.step < s.mgt.target && s.pick.request10 ≤ s.pick.period10

/-- The step is latched at W − 2.0 µs of its beat (R68, R515, R516). -/
def State.latchStep (s : State) : State :=
  if !s.latchDue then s else
  let down := s.pick.step < s.mgt.target
  let s1 := { s with pick := { s.pick with step := s.mgt.target }, mgt := { s.mgt with latchAt := none } }
  let s2 := if down then s1.pwrReport 0x0E03 0 else s1
  if s.pick.step = s.mgt.target then s2 else s2.mgtEvent 1

/-- STEP_RISE (R516): 100 ms within the margins; the step rises by one, latched at the next W − 2.0 µs (R68), and a request no
longer needed is withdrawn (R71). Where no beat runs, the first that does latches it. -/
def execStepRise (r : Readings) (s : State) : Res :=
  let cur := s.pick.step
  if cur = 0 || cur ≤ s.mgt.cap || s.mgt.latchAt.isSome || cur < s.mgt.target || hotAt r 901 851 651 || 95 * s.mgt.limitW < 100 * r.pIn4
      || !withinLimit r.pIn4 r.dieP4 s.mgt.limitW cur (cur - 1) then .next s else
  let req := if s.pick.plan < cur - 1 then stretched10 s.pick.pd10 s.pick.wd s.pick.plan (cur - 1) else 0
  let s1 := { s with
    mgt := { s.mgt with target := cur - 1, latchAt := some (if s.beating then s.pick.counter else 0) }
    pick := { s.pick with request10 := req } }
  .next s1

/-- FLOW_EMERGENCY_TIMER (Table 18-8, R517). -/
def execFlowEmergencyTimer (s : State) : Res := .next (s.emergency 0x0E04 0)

/-- PWR_OVERLOAD (Table 18-8, R517). -/
def execPwrOverload (s : State) : Res := .next (s.emergency 0x0E06 0)

/-- The codes of module faults that reach meeting point 3 from a hardware detector (R533, Table 17-2). -/
def isModuleFault (code : Nat) : Bool :=
  [0x0301, 0x0707, 0x0708, 0x0709, 0x0D01, 0x0D12, 0x0D14, 0x0D21, 0x0D22, 0x0E07, 0x0F01, 0x0F02, 0x0F03].contains code

/-- The codes of emergencies (Table 18-10). -/
def isEmergency (code : Nat) : Bool := [0x0E02, 0x0E04, 0x0E06].contains code

/-- EMERGENCY_QUIESCE (R73, R37, R533): a module fault, an emergency, or, with cause 0, a requested reset. -/
def execEmergencyQuiesce (cause detail : Nat) (s : State) : Res :=
  if cause = 0 then .next s.requestWarm
  else if isEmergency cause then .next (s.emergency cause detail)
  else if isModuleFault cause then
    let s1 := s.moduleFault cause detail
    .next (if cause = 0x0E07 then s1.mgtEvent 2 else s1)
  else .next s

/-- An input changed. -/
def State.setInput (s : State) (i : Nat) (f : Input → Input) : State :=
  { s with power := { s.power with inputs := modifyAt s.power.inputs i f } }

/-- An input is lost (R523, R517): disconnected; `PWR.INPUT` is reported, or, with no input left, `PWR.INPUT_LOSS` follows. -/
def State.inputLost (s : State) (i : Nat) : State :=
  let s1 := s.setInput i fun x => { x with inRange := false, qualified := false, charged := false, connected := false }
  if !s.power.on then s1
  else if s1.anyInput then s1.pwrReport 0x0E01 0
  else ({ s1 with power := { s1.power with lost := true } }).emergency 0x0E02 i

/-- INPUT_VOLTAGE_CHANGE (R523, R524, R513): an input enters or leaves 40 V to 60 V; reverse polarity draws nothing and is
reported. -/
def execInputVoltageChange (input : Nat) (mv : Int) (s : State) : Res :=
  match s.power.inputs[input]? with
  | none => .next s
  | some x =>
    if 40000 ≤ mv && mv ≤ 60000 then
      let s1 := s.setInput input fun x => { x with inRange := true }
      .next { s1 with power := { s1.power with lost := false } }
    else if x.inRange then .next (s.inputLost input)
    else if mv < 0 && s.power.on then .next (s.pwrReport 0x0E01 0)
    else .next s

/-- INPUT_QUALIFIED (R523): in range for 100 ms and seated, the input begins to charge. -/
def execInputQualified (input : Nat) (s : State) : Res :=
  .next (s.setInput input fun x => { x with qualified := x.qualified || (x.inRange && x.seated) })

/-- BULK_CHARGE_DONE (R523): the first input to complete its charge begins step 1 of the cold start; a later one joins the load. -/
def execBulkChargeDone (input : Nat) (s : State) : Res :=
  match s.power.inputs[input]? with
  | none => .next s
  | some x =>
    if !x.qualified || !x.inRange then .next s else
    let s1 := s.setInput input fun x => { x with charged := true, connected := true }
    if s.power.on then .next s1
    else .next { s1 with power := { s1.power with on := true }, glb := { s1.glb with state := .cold } }

/-- A flash that loses its power while an image set is written: that set fails its manifest check (Table 17-8). -/
def Flash.tear (f : Flash) : Flash :=
  { f with setA := if f.writing && !f.copying then [] else f.setA, setB := if f.copying then [] else f.setB }

/-- POWER_DOWN_TIMEOUT (R517): no input came back; the module powers down, keeping its flash, and its next start is a cold start. -/
def execPowerDownTimeout (s : State) : Res :=
  if !s.power.lost then .next s
  else .next { State.reset with
    pending := s.pending, out := s.out ++ [.powerDown], flash := s.flash.tear, freeCtr := s.freeCtr
    power := { inputs := s.power.inputs } }

/-- PRESENCE_CONTACT_BREAK (R525): the break of both contacts is the loss of both inputs; of one, the loss of that input, which is
a report while the other is in range. -/
def execPresenceContactBreak (a b : Bool) (s : State) : Res :=
  let unseat := fun (s : State) (i : Nat) => s.setInput i fun x =>
    { x with seated := false, inRange := false, qualified := false, charged := false, connected := false }
  let one := fun (i : Nat) => (s.setInput i fun x => { x with seated := false }).inputLost i
  match a, b with
  | true, true =>
    let s1 := unseat (unseat s 0) 1
    if s.power.on then .next (({ s1 with power := { s1.power with lost := true } }).emergency 0x0E02 0) else .next s1
  | true, false => .next (one 0)
  | false, true => .next (one 1)
  | false, false => .next s

end Sys2Proof.Machine
end

