-- ==== Sys2Proof/Machine/Mgmt.lean ====
section
/-! DEFINITION. Sys2Proof/Machine/Mgmt.lean: the management mailbox (R38, R502 to R505, Table 18-4), the firmware images and their
checks (R475, R476, R506 to R509), and the debug unlock (R511). -/

namespace Sys2Proof.Machine

/-- A command as its source gives it: from the MGT block's request registers, or from an MCTP message (R496, R502). -/
def State.request (s : State) (src : MboxSource) (op : Nat) : MboxCmd :=
  match src with
  | .bar0 => ⟨src, s.mgt.reqTag, op, s.mgt.reqData.take s.mgt.reqLen⟩
  | .mctp _ _ tag payload => ⟨src, tag, op, payload⟩

/-- A command comes by BAR0. -/
def MboxCmd.isBar0 (c : MboxCmd) : Bool := c.src = .bar0

/-- A command comes on the SMBus binding (R503). -/
def MboxCmd.isSmbus (c : MboxCmd) : Bool :=
  match c.src with
  | .mctp .smbus .. => true
  | _ => false

/-- The limit that PLDM effecter 1 sets travels as a command of its own, which answers nothing here. -/
def effecterOp : Nat := 0x112

/-- Another command of the same source is not done (R502). -/
def State.sourceBusy (s : State) (c : MboxCmd) : Bool :=
  if c.isBar0 then s.bar0Busy
  else (s.mgt.waiting ++ s.mgt.due ++ s.mgt.longs).any fun k => !k.isBar0 && k.opcode ≠ effecterOp

/-- The bytes of an MCTP response (R496). -/
def responseBytes (op result tag beat detail : Nat) (resp : Bytes) : Bytes :=
  leBytes 1 op ++ leBytes 1 result ++ leBytes 2 tag ++ leBytes 4 resp.length ++ leBytes 8 beat ++ leBytes 2 detail ++ leBytes 6 0 ++ resp

/-- A response becomes ready (R502, R503): in the MGT block with vector 3 (R432), or in an MCTP message. `beat` is that of a beat
command's effect (R38). -/
def State.respond (s : State) (c : MboxCmd) (result detail : Nat) (beat : Option Nat) (resp : Bytes) : State :=
  if c.opcode = effecterOp then s else
  match c.src with
  | .bar0 =>
    let data := resp ++ s.mgt.respData.drop resp.length
    (({ s with mgt := { s.mgt with
      status := 3, result := result, detail := detail, tag := c.tag, respLen := resp.length
      respBeat := beat.getD s.mgt.respBeat, respData := data } }).mgtEvent 0).interrupt 3
  | .mctp b .. => s.emit (.mailbox b (responseBytes c.opcode result c.tag (beat.getD 0) detail resp))

/-- RESULT 0. -/
def State.respondOk (s : State) (c : MboxCmd) (resp : Bytes) : State := s.respond c 0 0 none resp

/-- RESULT 8, with a code in DETAIL and in the response. -/
def State.respondFailed (s : State) (c : MboxCmd) (code : Nat) : State := s.respond c 8 code none (leBytes 2 code)

/-- Opcodes of Table 18-4 that only the SMBus binding may send. -/
def smbusOnly (op : Nat) : Bool := op = 0x21 || op = 0x40 || op = 0x41

/-- The payload's length is the one that Table 18-4 gives the opcode. -/
def lengthOk (c : MboxCmd) : Bool :=
  let n := c.payload.length
  match c.opcode with
  | 0x04 => n = 2 | 0x10 => n = 2 | 0x11 => n = 1 | 0x12 => n = 2 | 0x13 => n = 1 | 0x14 => n = 2 | 0x15 => n = 1
  | 0x20 => n = 12
  | 0x21 => 4 ≤ n && n = 4 + fieldAt c.payload 2 2
  | 0x30 => 4 ≤ n && n ≤ 4092 && (n - 4) % 8 = 0
  | 0x32 => n = 1
  | 0x41 => n = 260
  | _ => n = 0

/-- An `ADDRESS` value that R474 accepts: lengths by R29, coordinates below them, reserved bytes 0. -/
def addressOk (v : Bytes) : Bool :=
  let lens := (List.range 4).map fun i => byteAt v (2 + i)
  let a := unpackAddr (fieldAt v 0 2)
  v.length = 8 && fieldAt v 0 2 < 4096 && fieldAt v 6 2 = 0 && lens.all (fun l => 2 ≤ l && l ≤ 8) && lens.getD 3 0 % 2 = 0
    && (List.range 4).all fun i => a.getD i 0 < lens.getD i 0

/-- A settings value is in its range (R474, R504). -/
def settingOk (key : Nat) (v : Bytes) : Bool :=
  match key with
  | 0x0001 => addressOk v
  | 0x0100 => v.length = 1 && 41 ≤ leNat v && leNat v ≤ 45
  | 0x0101 => v.length ≤ 64
  | _ => false

/-- The reserved byte of an MCTP request is 0 (R11, R496). -/
def MboxCmd.plain (c : MboxCmd) : Bool :=
  match c.src with
  | .bar0 => true
  | .mctp _ rsvd _ _ => rsvd = 0

/-- The arguments lie in their ranges (Table 18-4). -/
def argumentOk (c : MboxCmd) : Bool :=
  let b := byteAt c.payload 0
  let w := fieldAt c.payload 0 2
  match c.opcode with
  | 0x04 => w = 0x0001 || w = 0x0100 || w = 0x0101
  | 0x10 => b ≤ 1 || (b = 2 && byteAt c.payload 1 < 16)
  | 0x11 => b ≤ 1 | 0x12 => 1600 ≤ w && w ≤ 3200 | 0x13 => b ≤ 3 | 0x14 => w ≤ 48000 | 0x15 => b ≤ 5
  | 0x20 => fieldAt c.payload 0 8 % 64 = 0
  | 0x21 => settingOk w (c.payload.drop 4)
  | 0x30 => fieldAt c.payload 0 4 % 8 = 0 && fieldAt c.payload 0 4 + (c.payload.length - 4) ≤ 50331648
  | 0x32 => b ≤ 1
  | _ => true

/-- What an accepted command goes on with, after the tests of R502 and R503: busy, source, arguments. -/
def State.accept (s : State) (c : MboxCmd) (f : State → State) : State :=
  if s.sourceBusy c then s.respond c 4 0 none []
  else if smbusOnly c.opcode && !c.isSmbus then s.respond c 5 0 none []
  else if !c.plain || !lengthOk c || !argumentOk c then s.respond c 2 0 none []
  else f s

/-- The BAR0 source names the opcode of the command it issues. -/
def State.issue (s : State) (src : MboxSource) (op : Nat) : State :=
  if src = .bar0 then { s with mgt := { s.mgt with reqOp := op } } else s

/-- A response's bytes, cut or padded with zeros to a length. -/
def sized (n : Nat) (b : Bytes) : Bytes := (List.range n).map fun i => b.getD i 0

/-- The response of `GET_INFO`. -/
def State.infoBytes (s : State) : Bytes :=
  leBytes 4 0x11520A48 ++ leBytes 1 Config.stepping ++ leBytes 1 s.fw.set ++ leBytes 2 0 ++ leBytes 4 s.fw.genVer
    ++ leBytes 4 s.fw.seqVer ++ leBytes 4 s.fw.dieVer ++ sized 16 Config.serial ++ sized 64 (s.setting 0x0101)

/-- The response of `READ_SENSORS`: the latest snapshot (R518). -/
def State.sensorBytes (s : State) : Bytes :=
  leBytes 8 s.mgt.snapBeat ++ (List.range 23).flatMap (fun i => leBytes 4 (s.mgt.snap.vals.getD i 0)) ++ s.proto.lastSens.flatMap (leBytes 4)

/-- GET_INFO. -/
def State.getInfoCmd (s : State) (src : MboxSource) : State :=
  (s.issue src 0x01).accept (s.request src 0x01) fun s => s.respondOk (s.request src 0x01) s.infoBytes

/-- GET_INFO. -/
def execGetInfo (src : MboxSource) (s : State) : Res := .next (s.getInfoCmd src)

/-- GET_BOOT_RECORD (R473). -/
def State.getBootRecordCmd (s : State) (src : MboxSource) : State :=
  (s.issue src 0x02).accept (s.request src 0x02) fun s => s.respondOk (s.request src 0x02) s.bootRec

/-- GET_BOOT_RECORD (R473). -/
def execGetBootRecord (src : MboxSource) (s : State) : Res := .next (s.getBootRecordCmd src)

/-- READ_SENSORS (R518). -/
def State.readSensorsCmd (s : State) (src : MboxSource) : State :=
  (s.issue src 0x03).accept (s.request src 0x03) fun s => s.respondOk (s.request src 0x03) s.sensorBytes

/-- READ_SENSORS (R518). -/
def execReadSensors (src : MboxSource) (s : State) : Res := .next (s.readSensorsCmd src)

/-- READ_SETTING (R474, R504). -/
def State.readSettingCmd (s : State) (src : MboxSource) : State :=
  let c := s.request src 0x04
  (s.issue src 0x04).accept c fun s => s.respondOk c (s.setting (fieldAt c.payload 0 2))

/-- READ_SETTING (R474, R504). -/
def execReadSetting (src : MboxSource) (s : State) : Res := .next (s.readSettingCmd src)

/-- The module goes to a cold start (Table 17-1). -/
def State.coldRequest (s : State) : State := { s with glb := { s.glb with state := .cold, ready := false } }

/-- A cold reset waits for an image set that is being written (Table 18-11). -/
def State.imageBusy (s : State) : Bool := s.flash.writing || s.flash.copying

/-- The limit in force (R513). -/
def State.setLimit (s : State) (w : Nat) : State := { s with mgt := { s.mgt with limitW := w } }

/-- The manifest of a set is well formed and signed (R475). -/
def manifestOk (set : Bytes) (which : Nat) : Bool :=
  let entryRes := fun (b : Bytes) =>
    zeroAt b 1 3 && zeroAt b 28 36 && (byteAt b 0 ≠ 3 || zeroAt b 16 12)
  fieldAt set 0 4 = 0x54464E4D && fieldAt set 4 2 = 1 && byteAt set 6 = which && byteAt set 7 = 3 && zeroAt set 0xC 4
    && zeroAt set 0x214 (1024 - 0x214)
    && ([1, 2, 3].all fun t => (imageEntry set t).elim false entryRes)
    && Config.verify 0 (set.take 0x190) ((set.drop 0x190).take 132)

/-- An image's hash matches its entry (R475): a length, an aligned offset within the set, and SHA-512 of its bytes. -/
def hashOk (set : Bytes) (typ : Nat) : Bool :=
  (imageEntry set typ).elim false fun b =>
    let off := fieldAt b 8 4
    let n := fieldAt b 12 4
    off % 4096 = 0 && off + n ≤ 50331648 && Config.sha512 ((List.range n).map fun i => set.getD (off + i) 0) = (b.drop 64).take 64

/-- The compatibility check of R476. -/
def compatOk (set : Bytes) : Bool :=
  match imageEntry set 1, imageEntry set 2 with
  | some g, some q =>
    let qv := fieldAt q 4 4
    fwListed set (fieldAt g 4 4) qv
      && bitOf (fieldAt g 24 4) Config.stepping && bitOf (fieldAt q 24 4) Config.stepping && entryVersion set 3 = qv
  | _, _ => false

/-- The conditions of R508 on a warm activation: the same Genentand version, and, where the pair is in step, a twin whose manifest
lists the new sequencer version, which nothing in this model says (free). -/
def State.warmActivates (s : State) : Bool :=
  entryVersion s.flash.setA 1 = s.fw.genVer && (!s.inStep || Config.free 6 s.freeCtr % 2 = 1)

/-- A warm start may be requested: the control and data planes run, or are in standby. -/
def State.canWarm (s : State) : Bool := s.operational || s.glb.state = .standby

/-- A reset or an activation, at its beat window (R468, R508): cold, warm or harness. -/
def State.resetEffect (s : State) (c : MboxCmd) : State :=
  let n := some s.pick.counter
  let kind := byteAt c.payload 0
  if c.opcode = 0x32 then
    match s.flash.verdict with
    | some 0 =>
      if kind = 0 then (if s.imageBusy then s.respond c 4 0 n [] else (s.respond c 0 0 n []).coldRequest)
      else
        let s1 := { s with freeCtr := s.freeCtr + 1 }
        if !s.canWarm then s.respond c 3 0 n []
        else if s.warmActivates then
          let s2 := s1.respond c 0 0 n []
          ({ s2 with fw := { s2.fw with activate := true } }).requestWarm
        else s1.respond c 7 0 n []
    | some code => s.respond c 8 code n []
    | none =>
      if kind = 1 then s.respond c 7 0 n []
      else if s.imageBusy then s.respond c 4 0 n [] else (s.respond c 0 0 n []).coldRequest
  else if kind = 0 then (if s.imageBusy then s.respond c 4 0 n [] else (s.respond c 0 0 n []).coldRequest)
  else if kind = 1 then (if s.canWarm then (s.respond c 0 0 n []).requestWarm else s.respond c 3 0 n [])
  else { s with mgt := { s.mgt with due := s.mgt.due ++ [c] } }

/-- A limit or a clock cap takes effect at the opening of the window, where R513 and R514 put it; every other beat command waits there
for the draft of its beat (R38, R43). -/
def State.planeEffect (s : State) (c : MboxCmd) : State :=
  let n := some s.pick.counter
  let w := fieldAt c.payload 0 2
  match c.opcode with
  | 0x12 => (s.setLimit w).respond c 0 0 n []
  | 0x112 => s.setLimit w
  | 0x13 => ({ s with mgt := { s.mgt with cap := byteAt c.payload 0 } }).respond c 0 0 n []
  | _ => { s with mgt := { s.mgt with due := s.mgt.due ++ [c] } }

/-- A command is a reset for R505. -/
def isReset (c : MboxCmd) : Bool := c.opcode = 0x10 || c.opcode = 0x32

/-- A reset takes effect at this beat: nothing turns it away (R508, Table 18-11). Whether a harness is declared is found after the draft of
the beat (R43). -/
def State.resetGoes (s : State) (c : MboxCmd) : Bool :=
  let kind := byteAt c.payload 0
  if c.opcode = 0x32 then
    if kind = 0 then s.flash.verdict.all (· = 0) && !s.imageBusy else s.flash.verdict = some 0 && s.canWarm && s.warmActivates
  else if kind = 0 then !s.imageBusy
  else if kind = 1 then s.canWarm
  else s.operational

/-- A beat command takes effect where no reset cancels it; a reset that is turned away answers so. -/
def State.windowEffect (s : State) (c : MboxCmd) : State := if isReset c then s.resetEffect c else s.planeEffect c

/-- The beat commands that wait are taken at the opening of a window (R38): where a reset takes effect, the others are cancelled (R505); one
that is turned away cancels none. -/
def State.takeBeatCommands (s : State) : State :=
  let l := s.mgt.waiting
  let s0 := { s with mgt := { s.mgt with waiting := [] } }
  match l.find? fun c => isReset c && s.resetGoes c with
  | some r =>
    let others := (l.erase r).foldl (fun (s : State) c => s.respond c 6 0 (some s.pick.counter) []) s0
    others.resetEffect r
  | none => l.foldl State.windowEffect s0

/-- Standby is entered (R512): sampling stops, the link runs in L0p at x2 and the ports in KEEPALIVE (R446, R463). -/
def State.enterStandby (s : State) : State :=
  let keep := fun (k : Port) => if k.state = .up then { k with state := PortState.keepalive, lanes := 1 } else k
  ({ s with
    glb := { s.glb with state := .standby, l0p := true }
    opt := { s.opt with ports := s.opt.ports.map keep } }).mgtEvent 3

/-- A staged draft that a cold start, or a warm start that loads the boot draft, discards (R99). R99 does not name a draft in REJECTED: it
keeps its state and its id, and STAGE_LOST is not set for it (log entry 142). -/
def DraftState.staged : DraftState → Bool
  | .loading => true | .checking => true | .checked => true | .armed => true | .missed => true
  | _ => false

/-- The draft of a warm start, and of the end of standby, which runs the same row of Table 17-6 (R98, R99, R512): CHECKED or REJECTED is set as its check ends (R100). -/
def State.warmDraft (s : State) : State :=
  if !s.flash.draftFresh then s else
  let bad := fun (code sec off : Nat) =>
    ({ s with draft := { s.draft with checkCode := code, whereSec := sec, whereOff := off } }).draftEvent 1
  match s.flash.draft.current with
  | none => bad 0x0401 0xFF 0
  | some b =>
    match draftCheck b b.length (some s.geometry) s.core.draft .coldOnly with
    | some e => bad e.1 e.2.1 e.2.2
    | none =>
      let d := { s.draft with boot := some b, state := .empty, stagedId := 0, copy := [], readFail := none, due := false }
      let s1 := s.draftEvent 0
      if s.draft.state.staged then ({ s1 with draft := { d with event := s1.draft.event } }).draftEvent 5
      else { s1 with draft := { s1.draft with boot := some b } }

/-- Standby ends by the rows of Table 17-6 from 750 ms on (R512): the ports retrain, dirty lines are written back, T0 and accumulators are
cleared, the draft follows R98, and the module joins the pick again. -/
def State.leaveStandby (s : State) : State :=
  let back := fun (k : Port) => if k.state = .keepalive then { k with state := PortState.train, lanes := 0 } else k
  let clear := fun (c : Core) => { c with onchip := { c.onchip with
    sram := [], acc := [], zero := List.range 512
    t1 := c.onchip.t1.map fun l => l.map fun x => { x with dirty := 0, written := false } } }
  (({ s with
    glb := { s.glb with l0p := false, state := .mgmtOnly }
    core := clear s.core, committed := clear s.committed
    pick := { s.pick with joining := true, sampling := false }
    opt := { s.opt with ports := s.opt.ports.map back } }).warmDraft).mgtEvent 3

/-- `POWER_STATE` at its beat, after the draft (R512, Table 18-11). -/
def State.powerState (s : State) (c : MboxCmd) : State :=
  let n := some s.pick.counter
  if byteAt c.payload 0 = 1 then
    if s.operational && s.core.inflight = 0 && (s.twin.state = .unpaired || s.twin.state = .detached) then
      (s.respond c 0 0 n []).enterStandby
    else s.respond c 3 0 n []
  else if s.glb.state = .standby then (s.respond c 0 0 n []).leaveStandby
  else if s.operational then s.respond c 0 0 n []
  else s.respond c 3 0 n []

/-- A beat command that a draft of the same beat comes before (R43): a harness reset of a harness that the draft in force does not
declare is refused; the scrub rate (R370), a laser removal (R465) and the power state follow. -/
def State.lateEffect (s : State) (c : MboxCmd) : State :=
  let n := some s.pick.counter
  match c.opcode with
  | 0x10 =>
    let h := byteAt c.payload 1
    if !s.operational then s.respond c 3 0 n []
    else if s.core.draft.elim false fun d => (d.harness h).isSome then
      (({ s with mgt := { s.mgt with harnessNow := s.mgt.harnessNow ++ [h] } }).respond c 0 0 n [])
    else s.respond c 7 0 n []
  | 0x14 => ({ s with integ := { s.integ with rate := fieldAt c.payload 0 2 } }).respond c 0 0 n []
  | 0x15 =>
    if s.activeCarts < 6 then s.respond c 7 0 n []
    else (s.setCart (byteAt c.payload 0) .safe).respond c 0 0 n []
  | _ => s.powerState c

/-- The commands that waited for the draft of their beat take effect (R43). -/
def State.lateCommands (s : State) : State :=
  s.mgt.due.foldl State.lateEffect { s with mgt := { s.mgt with due := [] } }

/-- Mailbox commands wait for a beat while windows open, and while a quiesce or a warm start goes on (R38, R44). -/
def State.beatsAhead (s : State) : Bool := s.beating || s.glb.state = .warm || s.glb.state = .quiesce

/-- A beat command is accepted: it waits for a beat window, or, where none will open, takes effect at once. A request for a cold start
stops a warm start (Table 17-8). -/
def State.beatCommand (s : State) (c : MboxCmd) : State :=
  s.accept c fun s =>
    let busy := isReset c && byteAt c.payload 0 = 0 && s.imageBusy
    if busy then s.respond c 4 0 none []
    else
      let s1 := { s with mgt := { s.mgt with waiting := s.mgt.waiting ++ [c] } }
      let stop := s1.glb.state = .warm && isReset c && byteAt c.payload 0 = 0
      if s1.beatsAhead && !stop then (if c.isBar0 then { s1 with mgt := { s1.mgt with status := 2 } } else s1)
      else s1.takeBeatCommands.lateCommands

/-- RESET (R468, R505). -/
def State.resetCmd (s : State) (src : MboxSource) : State :=
  (s.issue src 0x10).beatCommand (s.request src 0x10)

/-- RESET (R468, R505). -/
def execReset (src : MboxSource) (s : State) : Res := .next (s.resetCmd src)

/-- POWER_STATE (R512). -/
def State.powerStateCmd (s : State) (src : MboxSource) : State :=
  (s.issue src 0x11).beatCommand (s.request src 0x11)

/-- POWER_STATE (R512). -/
def execPowerState (src : MboxSource) (s : State) : Res := .next (s.powerStateCmd src)

/-- POWER_LIMIT (R513). -/
def State.powerLimitCmd (s : State) (src : MboxSource) : State :=
  (s.issue src 0x12).beatCommand (s.request src 0x12)

/-- POWER_LIMIT (R513). -/
def execPowerLimit (src : MboxSource) (s : State) : Res := .next (s.powerLimitCmd src)

/-- CLOCK_CAP (R514). -/
def State.clockCapCmd (s : State) (src : MboxSource) : State :=
  (s.issue src 0x13).beatCommand (s.request src 0x13)

/-- CLOCK_CAP (R514). -/
def execClockCap (src : MboxSource) (s : State) : Res := .next (s.clockCapCmd src)

/-- SCRUB_RATE (R370). -/
def State.scrubRateCmd (s : State) (src : MboxSource) : State :=
  (s.issue src 0x14).beatCommand (s.request src 0x14)

/-- SCRUB_RATE (R370). -/
def execScrubRate (src : MboxSource) (s : State) : Res := .next (s.scrubRateCmd src)

/-- LASER_REMOVE (R464, R465). -/
def State.laserRemoveCmd (s : State) (src : MboxSource) : State :=
  (s.issue src 0x15).beatCommand (s.request src 0x15)

/-- LASER_REMOVE (R464, R465). -/
def execLaserRemove (src : MboxSource) (s : State) : Res := .next (s.laserRemoveCmd src)

/-- IMAGE_ACTIVATE (R508). -/
def State.imageActivateCmd (s : State) (src : MboxSource) : State :=
  (s.issue src 0x32).beatCommand (s.request src 0x32)

/-- IMAGE_ACTIVATE (R508). -/
def execImageActivate (src : MboxSource) (s : State) : Res := .next (s.imageActivateCmd src)

/-- A long command's work begins; its response comes when that ends (R503). -/
def State.startLong (s : State) (c : MboxCmd) : State :=
  { s with mgt := { s.mgt with longs := s.mgt.longs ++ [c], status := if c.isBar0 then 1 else s.mgt.status } }

/-- `BOOT_DRAFT` reads its draft and checks it, all but code 0x0420 (R96, R436). What it finds goes to `DETAIL` and the response alone:
DRAFT_EVENT and CHECK_CODE keep their values (R100; log entry 189). -/
def State.readBootDraft (s0 : State) (c : MboxCmd) (host : HostView) : State :=
  let len := fieldAt c.payload 8 4
  let s := s0.hostFetch (fieldAt c.payload 0 8) len
  let drop := fun (s : State) => { s with mgt := { s.mgt with longs := s.mgt.longs.erase c } }
  match hostRead host (fieldAt c.payload 0 8) len with
  | none => (drop s).respondFailed c 0x0403
  | some b =>
    match draftCheck b len (some s.geometry) none .none with
    | some e => (drop s).respondFailed c e.1
    | none => { s with flash := { s.flash with pendDraft := some b } }

/-- BOOT_DRAFT (R96): one that MGT_CTRL issued before is read now; otherwise the command is issued and read. -/
def execBootDraft (src : MboxSource) (host : HostView) (s : State) : Res :=
  let waiting := s.mgt.longs.find? fun k => k.opcode = 0x20 && k.isBar0 && src = .bar0
  match waiting with
  | some c => if s.flash.pendDraft.isSome then .next s else .next (s.readBootDraft c host)
  | none =>
    let c := s.request src 0x20
    .next ((s.issue src 0x20).accept c fun s => (s.startLong c).readBootDraft c host)

/-- SETTING_WRITE (R474, R504): the store's other bank is written (R472). -/
def State.settingWriteCmd (s : State) (src : MboxSource) : State :=
  let c := s.request src 0x21
  (s.issue src 0x21).accept c fun s =>
    ({ s with flash := { s.flash with pendKey := some (fieldAt c.payload 0 2, c.payload.drop 4) } }).startLong c

/-- SETTING_WRITE (R474, R504): the store's other bank is written (R472). -/
def execSettingWrite (src : MboxSource) (s : State) : Res := .next (s.settingWriteCmd src)

/-- Bytes placed in an image set at an offset. -/
def putImage (set : Bytes) (off : Nat) (data : Bytes) : Bytes :=
  let old := set ++ List.replicate (off + data.length - set.length) 0
  old.take off ++ data ++ old.drop (off + data.length)

/-- A new write of set A begins (R506): where set A was booted last, it is first copied to set B. -/
def State.startImage (s : State) : State :=
  { s with flash := { s.flash with verdict := none, copying := byteAt s.bootRec 1 = 0, staged := [] } }

/-- IMAGE_DATA (R506, R482): in recovery the set is gathered, and written only once it has been verified. -/
def State.imageDataCmd (s : State) (src : MboxSource) : State :=
  let c := s.request src 0x30
  let off := fieldAt c.payload 0 4
  (s.issue src 0x30).accept c fun s =>
    if s.glb.state = .recovery then
      let s1 := if off = 0 then { s with flash := { s.flash with staged := [] } } else s
      ({ s1 with flash := { s1.flash with staged := putImage s1.flash.staged off (c.payload.drop 4), verdict := none } }).respondOk c []
    else
      let s1 := if off = 0 then s.startImage else s
      ({ s1 with flash := { s1.flash with writing := true } }).startLong c

/-- IMAGE_DATA (R506, R482): in recovery the set is gathered, and written only once it has been verified. -/
def execImageData (src : MboxSource) (s : State) : Res := .next (s.imageDataCmd src)

/-- The verification of R507: 0, or the `BOOT` code of its first failing condition. -/
def State.verifySet (s : State) (set : Bytes) : Nat :=
  if !manifestOk set 0 || !([1, 2, 3].all fun t => hashOk set t) then 0x0C03
  else if !compatOk set then 0x0C01
  else if fieldAt set 8 4 < s.flash.rpmc then 0x0C04
  else 0

/-- The set in question is verified: set A, or, in recovery, the one gathered, which is then written (R482). -/
def State.verifyImage (s : State) : State × Nat :=
  if s.glb.state = .recovery then
    let code := s.verifySet s.flash.staged
    ({ s with flash := { s.flash with verdict := some code, writing := code = 0 } }, code)
  else
    let code := s.verifySet s.flash.setA
    ({ s with flash := { s.flash with verdict := some code } }, code)

/-- IMAGE_VERIFY (R507). -/
def State.imageVerifyCmd (s : State) (src : MboxSource) : State :=
  let c := s.request src 0x31
  (s.issue src 0x31).accept c fun s =>
    let r := s.verifyImage
    if r.2 = 0 then r.1.respondOk c (leBytes 2 0) else r.1.respondFailed c r.2

/-- IMAGE_VERIFY (R507). -/
def execImageVerify (src : MboxSource) (s : State) : Res := .next (s.imageVerifyCmd src)

/-- FW_COMMIT (R509): RPMC counter 0 rises to set A's security version. -/
def State.fwCommitCmd (s : State) (src : MboxSource) : State :=
  let c := s.request src 0x33
  (s.issue src 0x33).accept c fun s =>
    if s.fw.set = 0 && s.fw.opened && s.flash.rpmc < s.fw.secVer then
      ({ s with flash := { s.flash with rpmc := s.fw.secVer } }).respondOk c (leBytes 4 s.fw.secVer)
    else s.respond c 3 0 none []

/-- FW_COMMIT (R509): RPMC counter 0 rises to set A's security version. -/
def execFwCommit (src : MboxSource) (s : State) : Res := .next (s.fwCommitCmd src)

/-- DEBUG_CHALLENGE (R511): a fresh nonce, the latest alone being valid (Table 18-11). -/
def State.debugChallengeCmd (s : State) (src : MboxSource) : State :=
  let c := s.request src 0x40
  (s.issue src 0x40).accept c fun s =>
    ({ s with proto := { s.proto with nonce := some s.freeCtr }, freeCtr := s.freeCtr + 1 }).respondOk c (sized 32 (Config.nonce s.freeCtr))

/-- DEBUG_CHALLENGE (R511): a fresh nonce, the latest alone being valid (Table 18-11). -/
def execDebugChallenge (src : MboxSource) (s : State) : Res := .next (s.debugChallengeCmd src)

/-- A debug token verifies (R511, Table 18-5). -/
def State.tokenOk (s : State) (t : Bytes) : Bool :=
  fieldAt t 0 4 = 0x4B544244 && byteAt t 4 = 1 && (byteAt t 5 = 1 || byteAt t 5 = 2) && zeroAt t 6 2 && zeroAt t 0x68 24
    && (s.proto.nonce.elim false fun k => (t.drop 8).take 32 = sized 32 (Config.nonce k))
    && (t.drop 0x28).take 64 = Config.identityHash && Config.verify 1 (t.take 0x80) ((t.drop 0x80).take 132)

/-- DEBUG_UNLOCK (R510, R511): in management-only state or recovery; each nonce serves one attempt; at scope 2 the attestation key's
private half is erased. -/
def State.debugUnlockCmd (s : State) (src : MboxSource) : State :=
  let c := s.request src 0x41
  (s.issue src 0x41).accept c fun s =>
    if s.glb.state ≠ .mgmtOnly && s.glb.state ≠ .recovery then s.respond c 3 0 none []
    else
      let s1 := { s with proto := { s.proto with nonce := none } }
      if s.tokenOk c.payload then
        let scope := max s.proto.scope (byteAt c.payload 5)
        (({ s1 with
          proto := { s1.proto with scope := scope }
          glb := { s1.glb with ready := false }
          fw := { s1.fw with akErased := s1.fw.akErased || scope = 2 } }).mgtEvent 4).respondOk c []
      else s1.respond c 8 0 none []

/-- DEBUG_UNLOCK (R510, R511): in management-only state or recovery; each nonce serves one attempt; at scope 2 the attestation key's
private half is erased. -/
def execDebugUnlock (src : MboxSource) (s : State) : Res := .next (s.debugUnlockCmd src)

/-- A long command that waited for flash answers. -/
def State.endLong (s : State) (c : MboxCmd) (resp : Bytes) : State :=
  ({ s with mgt := { s.mgt with longs := s.mgt.longs.erase c } }).respondOk c resp

/-- The failed-start count is written as 0 (R506, R478). -/
def State.clearCount (s : State) : State := s.setBootRec fun b => b.set 0 0

/-- FLASH_WRITE_DONE (R472, R474, R482, R506): the long command answers; in recovery the cold start follows. -/
def execFlashWriteDone (job : FlashJob) (s : State) : Res :=
  let cmd := fun (op : Nat) => s.mgt.longs.find? (·.opcode = op)
  match job with
  | .imageCopy =>
    if !s.flash.copying then .next s
    else .next { s with flash := { s.flash with copying := false, setB := s.flash.setA } }
  | .imageSet =>
    match cmd 0x30 with
    | none => .next s
    | some c =>
      if s.flash.copying then .next s else
      let a := putImage s.flash.setA (fieldAt c.payload 0 4) (c.payload.drop 4)
      .next (({ s with flash := { s.flash with setA := a, writing := false, verdict := none } }).clearCount.endLong c [])
  | .pldmSet data =>
    if s.proto.update ≠ 1 then .next s
    else if s.glb.state = .recovery then
      .next { s with flash := { s.flash with staged := data, verdict := none }, proto := { s.proto with update := 2 } }
    else if s.flash.copying then .next s
    else .next (({ s with
      flash := { s.flash with setA := data, writing := false, verdict := none }, proto := { s.proto with update := 2 } }).clearCount)
  | .bootDraft =>
    match cmd 0x20, s.flash.pendDraft with
    | some c, some d =>
      .next (({ s with flash := { s.flash with draft := s.flash.draft.write d, draftFresh := true, pendDraft := none } }).endLong c
        (leBytes 2 0))
    | _, _ => .next s
  | .setting =>
    match cmd 0x21, s.flash.pendKey with
    | some c, some kv =>
      let l := s.settings.filter (·.key ≠ kv.1) ++ [⟨kv.1, kv.2⟩]
      .next (({ s with flash := { s.flash with settings := s.flash.settings.write (settingBytes l), pendKey := none } }).endLong c [])
    | _, _ => .next s
  | .recoveryImage =>
    if s.glb.state ≠ .recovery || !s.flash.writing then .next s
    else .next (({ s with flash := { s.flash with setA := s.flash.staged, staged := [], writing := false } }).clearCount.coldRequest)

/-- An opcode that Table 18-4 reserves (R503). -/
def State.unknownOp (s : State) (c : MboxCmd) : State :=
  if s.sourceBusy c then s.respond c 4 0 none [] else s.respond c 1 0 none []

/-- A GO of `MGT_CTRL` (R502) issues the command that `MGT_REQ` holds; `BOOT_DRAFT` then waits for its host memory. -/
def State.mailboxGo (s : State) : State :=
  match s.mgt.reqOp with
  | 0x01 => s.getInfoCmd .bar0
  | 0x02 => s.getBootRecordCmd .bar0
  | 0x03 => s.readSensorsCmd .bar0
  | 0x04 => s.readSettingCmd .bar0
  | 0x10 => s.resetCmd .bar0
  | 0x11 => s.powerStateCmd .bar0
  | 0x12 => s.powerLimitCmd .bar0
  | 0x13 => s.clockCapCmd .bar0
  | 0x14 => s.scrubRateCmd .bar0
  | 0x15 => s.laserRemoveCmd .bar0
  | 0x20 => s.accept (s.request .bar0 0x20) fun s => s.startLong (s.request .bar0 0x20)
  | 0x21 => s.settingWriteCmd .bar0
  | 0x30 => s.imageDataCmd .bar0
  | 0x31 => s.imageVerifyCmd .bar0
  | 0x32 => s.imageActivateCmd .bar0
  | 0x33 => s.fwCommitCmd .bar0
  | 0x40 => s.debugChallengeCmd .bar0
  | 0x41 => s.debugUnlockCmd .bar0
  | op => s.unknownOp (s.request .bar0 op)

end Sys2Proof.Machine
end

