-- ==== Sys2Proof/Machine/Window.lean ====
section
/-! DEFINITION. Sys2Proof/Machine/Window.lean: the beat window from its opening to W − 2.0 µs (Table 2-3): markers and the leader's
announcement, the slot decision, sealing, configuration, and the latch of clock step and period. -/

namespace Sys2Proof.Machine

/-- The leader sets the period (R70, R71): the largest of its draft's period and the requests outstanding before this window, no
lower before 64 picks after the last increase; it holds from the next beat on. -/
def State.announce (s : State) : State :=
  if !s.pick.self then s else
  let p := s.pick
  let want := min 400 (max p.pd10 (max ((p.asked.map Prod.snd).foldl max 0) p.request10))
  let cur := p.sent.elim p.period10 fun e => e.2.1
  let held := p.lastRise.elim false fun b => p.counter < b + 64
  let period := if want < cur && held then cur else want
  let s1 := s.takeFields (p.counter + 1) period p.wd p.drop
  { s1 with pick := { s1.pick with
      sent := some (p.leader.getD s.myAddr, period, p.wd, p.drop), drop := none } }

/-- The payload of this module's marker (Table 16-4). DEPART_PS, which the rules leave to the sender, is a free value. -/
def State.marker (s : State) : Bytes :=
  let p := s.pick
  let f := p.sent.getD (p.leader.getD 0, p.period10, p.windowUs, none)
  leBytes 8 p.counter ++ leBytes 4 (Config.free 4 p.counter) ++ leBytes 4 (toI32 (if p.self then 0 else p.offsetPs))
    ++ leBytes 1 (if p.leader.isNone then 0xFF else p.depth) ++ leBytes 1 (b2n f.2.2.2.isSome) ++ leBytes 2 f.1
    ++ leBytes 2 f.2.1 ++ leBytes 1 f.2.2.1 ++ leBytes 1 0 ++ leBytes 2 (f.2.2.2.getD 0) ++ leBytes 2 p.request10 ++ leBytes 36 0

/-- The marker leaves on every port that is `UP` or in `KEEPALIVE` (R50). -/
def State.sendMarkers (s : State) : State :=
  let ports := (List.range 18).filter fun p => (s.port p).state = .up || (s.port p).state = .keepalive
  s.emits (ports.map fun p => .marker p s.marker)

/-- Pairing starts at a window (R380): as `PAIR` asked, as a selvedge port came up while MIRROR = 1, or as step 12 of a cold start
(Table 13-2). With no draft in force pairing does not start (R97): a `PAIR` is then ignored (log entry 140). -/
def State.pairings (s : State) : State :=
  let drafted := s.core.draft.isSome
  let auto := s.twin.portUp && s.policy.mirror
  let go := drafted && (s.twin.pairAt || auto || s.twin.first)
  let s0 := if s.twin.pairAt && !drafted then s.twinIgnored else s
  let s1 := { s0 with twin := { s0.twin with
    pairAt := false, portUp := s.twin.portUp && !drafted, first := s.twin.first && !drafted } }
  if go then s1.startPairing else s1

/-- A module back from a warm start beside its twin sends its hello at its join beat (R397, R485). -/
def State.helloBack (s : State) : State := if s.twin.role = 2 && !s.pick.sampling then s.sendHello else s

/-- A copy to the twin starts over after this module's warm start (Table 13-9). -/
def State.copyAgain (s : State) : State :=
  if s.warmJoin && (s.twin.state = .copying || (s.twin.state = .absorbed && s.twin.replacing)) then s.startCopy else s

/-- BEAT_WINDOW_OPEN (R47, R50, R514, R518): at 0.0 µs the span is over. -/
def execBeatWindowOpen (r : Readings) (s : State) : Res :=
  if !s.beating || s.pick.phase ≠ .span || !s.core.running.isEmpty then .next s else
  let missed := if s.pick.self then 0 else s.pick.missed + 1
  let opened := { s with pick := { s.pick with phase := .opened, missed := missed, epochs := r.epochs }
                         core := { s.core with cycle := spanCycles s.pick.period10 s.pick.windowUs s.pick.step } }
  let s1 := opened.announce
  let s2 := s1.snapshot r
  if s2.glb.state ≠ s1.glb.state then .next (s1.sendMarkers.snapshot r) else
  let s3 := s2.beatStep State.takeBeatCommands
  if !s3.beating then .next { s3 with pick := { s3.pick with phase := .span } } else
  let s4 := (s3.beatStep fun s => s.throttle r).sendMarkers
  .next (if s4.operational then s4.beatStep fun s => s.resumed.pairings.helloBack.copyAgain else s4)

/-- A task waits on a dependency that neither is met nor has ended: its operands are not ready for the next pick. -/
def taskReady (o : OrderSt) (k : Task) : Bool :=
  k.desc.deps.all fun d => k.met.contains d || (o.tasks[d]?).elim false fun y => y.phase = .ended

/-- A context has ready work (R127): saved live state, or an accepted, uncompleted order with a task whose operands are ready, which
a re-issued `RUN` has from the join beat on (R484). An order that FENCE or an object order before it holds back is no ready work
(log entry 141). -/
def State.readyWork (s : State) (x : Nat) : Bool :=
  let k := s.core.ctx x
  let open_ := fun (y : Task) => y.phase = .waiting || (k.restart && y.phase = .aborted)
  let work := fun (o : OrderSt) => s.core.ctxOf o.ctx = some x && o.status.isNone
    && !s.core.heldBack o (·.pendingAt s.pick.counter)
    && (o.again.isSome || (o.reissued && o.opcode = 0x10 && !o.applied) || o.tasks.any fun y => open_ y && taskReady o y)
  k.saved.isSome || s.core.orders.any work

/-- The candidates of a slot (R127). -/
def State.slotCands (s : State) (slot : Nat) : List Nat :=
  (List.range 64).filter fun x =>
    let k := s.core.ctx x
    k.state ≠ .free && k.state ≠ .faulted && k.slot = slot && s.readyWork x

/-- The picks of the last 1,024 in which a class held a slot. -/
def heldPicks (sl : Slot) (cls : Nat) : Nat := (sl.hist.filter (· = some cls)).length

/-- The least of a list by a key, the earlier on a tie. -/
def leastBy (key : Nat → Nat) : List Nat → Option Nat
  | [] => none
  | x :: l => match leastBy key l with
    | some y => some (if key y < key x then y else x)
    | none => some x

/-- The choice of R127 among a slot's candidates. -/
def State.chooseHolder (s : State) (d : Draft) (sl : Slot) (cands : List Nat) : Option Nat :=
  let cls := fun x => d.cls (s.core.ctx x).cls
  let held := fun x => heldPicks sl (s.core.ctx x).cls
  let holds := fun (l : List Nat) => sl.holder.elim false l.contains
  if holds cands && sl.holder.elim false (fun h => !(cls h).preemptible) then sl.holder else
  let under := cands.filter fun x => held x * 100 ≤ (cls x).cap * 1024
  let c1 := if under.isEmpty then cands else under
  let top := (c1.map fun x => (cls x).priority).foldl max 0
  let c2 := c1.filter fun x => (cls x).priority = top
  if holds c2 && sl.run < 8 then sl.holder
  else (leastBy (fun x => held x * 1000 / (cls x).weight) c2).or sl.holder

/-- The decision for one slot of the draft, after the pick has been counted for its holder's class. -/
def State.decideSlot (s : State) (d : Draft) (sl : Slot) (i : Nat) : Slot :=
  let s1 := { sl with hist := (sl.holder.map (fun h => (s.core.ctx h).cls) :: sl.hist).take 1024, run := sl.run + 1 }
  { s1 with chosen := s.chooseHolder d s1 (s.slotCands i) }

/-- The pick's engine time of each slot goes to its holder's class, in a counter of 64 bits (R126). -/
def State.countShares (s : State) (d : Draft) : State :=
  let span := spanCycles s.pick.period10 s.pick.windowUs s.pick.step
  let add := fun (l : List Nat) (e : SlotDef) => ((s.core.slots.getD e.id {}).holder).elim l fun h =>
    modifyAt l (s.core.ctx h).cls fun t => (t + e.cuCount * span) % 2 ^ 64
  s.withCore fun c => { c with shareTime := d.slots.foldl add c.shareTime }

/-- The preemption and share decisions for the next pick (R126, R127). -/
def State.decideSlots (s : State) : State :=
  match s.core.draft with
  | none => s
  | some d =>
    let s1 := s.countShares d
    let slot := fun (p : Slot × Nat) => if (d.slot p.2).isSome then s.decideSlot d p.1 p.2 else p.1
    s1.withCore fun c => { c with slots := c.slots.zipIdx.map slot }

/-- Journal entries for the sampled orders go to the twin (R110). -/
def State.sendEntries (s : State) : State :=
  if !s.keepsTwin then s
  else s.emits (s.core.held.zipIdx.map fun e =>
    let j := { e.1 with jno := s.ord.sealed + e.2, sealBeat := s.pick.counter }
    .journalSend j.encode j.bytes)

/-- DECISION_POINT (R127, R89, R383), at 1.5 µs. -/
def execDecisionPoint (d : DecisionInputs) (s : State) : Res :=
  if !s.beating || s.pick.phase ≠ .sampled then .next s else
  let s0 := { s with pick := { s.pick with phase := .decided } }
  if !s.operational then .next s0 else
  let s1 := match d.tables with
    | some t => if s0.keepsTwin then s0.takeTables t else s0
    | none => s0
  let s2 := ({ s1 with twin := { s1.twin with passed := d.passed, twinDetach := d.detach } }).sendTables.sendEntries
  .next (s2.beatStep fun s => ((s.sendArmed.testDraft d.twinArmed).syncEntry d.twinReady).decideSlots)

/-- The die links that traffic between d0 and d3, and between d1 and d2, goes over in a pick (R339): the hub links of the two dies in an
even pick, and in an odd one those through d1 and through d0. -/
def dieRoutes (pick : Nat) : List (List Nat) := if pick % 2 = 0 then [[0, 3], [1, 2]] else [[4, 7], [4, 6]]

/-- PLACEMENT_DECIDE (R336, R339), at 2.0 µs: the decisions are a function of the draft, the object orders and the beat, and are those
that the orders' application computes; the routes between the dies are those of the next pick. -/
def execPlacementDecide (s : State) : Res :=
  if !s.beating || s.pick.phase ≠ .decided then .next s
  else .next (({ s with pick := { s.pick with phase := .placed } }).withCore fun c => { c with routes := dieRoutes (s.pick.counter + 1) })

/-- SEAL_DEADLINE (R65, R110 to R113), at W − 5.0 µs. -/
def execSealDeadline (confirmed : List (Nat × Nat)) (s : State) : Res :=
  if !s.beating || s.pick.phase ≠ .placed then .next s else
  let s0 := { s with pick := { s.pick with phase := .sealed } }
  if !s.operational then .next s0 else .next (((s0.sealAll confirmed).sealTwin.writeRecords).beatStep State.releaseDue)

/-- The groups turn (R309, R310, R485), the module back from a warm start among them; a drop of the twin's address ends its
absorption (R398). -/
def State.turnGroups (s : State) : State :=
  let s1 := s.turnPhases
  let lost := !s.twin.holds && s.reed.drops.any fun e => e.1 ≤ s.pick.counter && e.2 = twinAddr s.myAddr
  let gone := lost && s1.reed.lossKind = 3
  let s2 := if gone then { s1 with twin := { s1.twin with dropped := true } } else s1
  if s.warmJoin then
    { (s2.withCore fun c => c.newEpoch s.myAddr) with reed := { s2.reed with epochBeat := s.pick.counter } }
  else s2

/-- A beat passes an order over: of a context that faulted in the pick, only `CTX_RESET` is looked at (Table 4-9, R488), and of one in
FAULTED nothing behind its `CTX_RESET`. -/
def State.passesOver (s : State) (o : OrderSt) : Bool :=
  ((s.core.ctxOf o.ctx).elim false s.core.faulting && o.opcode ≠ 0x03) || s.core.behindReset o

/-- An accepted order is validated and, when due, applied at the beat. -/
def State.dueOrder (s : State) (o : OrderSt) : State := if s.passesOver o then s else s.applyOrder o.jno o.opcode

/-- An order's turn has come (R109, R119, R534): every order accepted before it that the beat looks at has been validated, and every
earlier `RUN` of its context has begun. -/
def State.inTurn (s : State) (o : OrderSt) : Bool :=
  !s.core.orders.any fun p => p.acc < o.acc && p.status.isNone
    && ((!p.checked && !s.passesOver p) || (p.ctx = o.ctx && p.opcode = 0x10 && !p.applied))

/-- The orders in acceptance order. -/
def Core.byAcc (c : Core) : List OrderSt := sortKey OrderSt.acc c.orders

/-- The orders of a beat are applied in acceptance order (R319, R123). -/
def State.applyOrders (s : State) : State := s.core.byAcc.foldl State.dueOrder s

/-- An order whose check-mode gather failed is issued again (R133, Table 9-1). -/
def State.reissue (s : State) (o : OrderSt) : State :=
  match o.again, s.core.ctxOf o.ctx with
  | some _, some x =>
    if s.core.faulting x then s else
    let leave := fun (ch : Chan) =>
      if ch.parts.any (·.jno = o.jno) then ch.closed else ch
    let s1 := s.withCore fun c =>
      { (c.setOrder o.jno fun o => { o with reissued := true, applied := false, tasks := [] }) with
        chans := c.chans.map leave, shuttle := c.shuttle.filter fun r => r.task.jno ≠ o.jno }
    (s1.core.order o.jno).elim s1 fun p => s1.runOrder x p
  | _, _ => s

/-- One aperture of R438, given those of lower index that stand: as it is in force, and whether it was dropped. -/
def Core.checkAperture (c : Core) (low : List (Nat × Nat)) (a : Nat × Nat) : (Nat × Nat) × Bool :=
  if !bitOf a.2 0 then (a, false) else
  let tgt := bits a.2 60 14 * 2 ^ 14
  let span := fun (e : Nat × Nat) => (bits e.1 19 0, bits e.1 19 0 + bits e.1 59 40)
  let clash := low.any fun e => bitOf e.2 0 && (span e).1 < (span a).2 && (span a).1 < (span e).2
  match (if tgt / 2 ^ 60 = 1 then c.obj (addrIndex tgt) else none) with
  | none => ((a.1, a.2 - 1), true)
  | some o =>
    if o.coding ≠ 0 || clash then ((a.1, a.2 - 1), true)
    else ((a.1, bits a.2 60 14 * 2 ^ 14 + (if o.cls ≤ 1 then 2 else 0) + 1), false)

/-- APERTURE_APPLY (R438), after the beat's object orders. -/
def State.applyApertures (s : State) : State :=
  let freed := fun (p : (Nat × Nat) × Nat) =>
    let was := s.committed.apertures.getD p.2 (0, 0)
    let now := s.core.apertures.getD p.2 (0, 0)
    if bitOf was.2 0 && !bitOf now.2 0 && bits was.2 60 14 = bits p.1.2 60 14 && bitOf p.1.2 0 then (p.1.1, p.1.2 - 1) else p.1
  let regs := s.glb.aperReg.zipIdx.map freed
  let r := regs.foldl (fun (q : List (Nat × Nat) × Bool) a =>
    let e := s.core.checkAperture q.1 a
    (q.1 ++ [e.1], q.2 || e.2)) ([], false)
  let s1 := { s with glb := { s.glb with aperReg := r.1, uioNow := s.glb.uio }, core := { s.core with apertures := r.1 } }
  if r.2 then s1.glbEvent 5 else s1

/-- KV_PAGE_CHANGES (R233, R237): each pool's changes of the beat, the 16,384 hash searches shared by all; then the joins that were
deferred too long end (R245). -/
def State.applyKvOrders (s : State) : State :=
  let pool := fun (s : State) (p : KvPool) =>
    s.kvBeat p.ctx (if s.core.faulting p.ctx then [] else sortKey OrderSt.acc (s.core.kvDue p.ctx))
  let s1 := s.core.pools.foldl pool s
  s1.core.byAcc.foldl State.kvStarve s1

/-- What W − 3.0 µs applies (Table 2-3): the draft, the groups' epochs, the pair's changes, orders, apertures, page changes, then
ports, cartridges and the commands that wait for the draft (R43). -/
def State.configure (s : State) : State :=
  let s1 := ((s.takeDrain.applyDue.mirrorOff).turnGroups).absorbApply
  let s2 := ((s1.handbackApply).takeBack.detachApply).twinDetached
  let again := s2.core.orders.filter fun o => o.again.isSome && !o.reissued
  let s3 := again.foldl State.reissue s2.applyOrders
  ((s3.applyApertures.applyKvOrders).applyDisable.joinCarts).lateCommands

/-- What W − 3.0 µs applies while the module does not run orders: a boot draft whose join beat this is (R97, R481), ports, cartridges and
the commands that wait for the draft. -/
def State.configureIdle (s : State) : State :=
  let s1 := if s.draft.boot.isSome then s.applyDue else s
  s1.applyDisable.joinCarts.lateCommands

/-- CONFIG_APPLY (R91, R237, R319, R438), at W − 3.0 µs. -/
def execConfigApply (s : State) : Res :=
  if !s.beating || s.pick.phase ≠ .sealed then .next s else
  let s1 := s.beatStep fun s => if s.operational then s.configure else s.configureIdle
  .next (if s1.beating then { s1 with pick := { s1.pick with phase := .applied } }
    else { s1 with pick := { s1.pick with phase := .span } })

/-- The period and window announced for a beat come into force (R53, R70, R94). -/
def State.latchPeriod (s : State) : State :=
  let n := s.pick.counter
  let new := (s.pick.coming.find? fun c => c.1 = n).elim (s.pick.period10, s.pick.windowUs) Prod.snd
  let moved := new ≠ (s.pick.period10, s.pick.windowUs)
  let differs := new ≠ (s.pick.pd10, s.pick.wd)
  let s1 := { s with pick := { s.pick with
    period10 := new.1, windowUs := new.2, differs := differs, coming := s.pick.coming.filter fun c => n < c.1
    plan := s.core.draft.elim s.pick.plan Draft.planClock } }
  let s2 := if moved then s1.pickEvent 1 else s1
  if differs && !s.pick.differs then s2.pickEvent 0 else s2

/-- CLOCK_LATCH (R68, R70), at W − 2.0 µs. -/
def execClockLatch (s : State) : Res :=
  if !s.beating || s.pick.phase ≠ .applied then .next s
  else .next (({ s with pick := { s.pick with phase := .latched } }).beatStep fun s => s.latchPeriod.latchStep)

end Sys2Proof.Machine
end

