-- ==== Sys2Proof/Machine/Commit.lean ====
section
/-! DEFINITION. Sys2Proof/Machine/Commit.lean: the commit step (R67, Table 2-3): teardowns and restores of contexts, the switch of
shadow blocks, versions, held items, slots, resets, interrupts and the pick counter. -/

namespace Sys2Proof.Machine

/-- A fault is reported before another: that of the earlier cycle, then of the lower CU, then of array A (R131, R170). -/
def CtxFault.before (f g : CtxFault) : Bool :=
  f.cycle < g.cycle || (f.cycle = g.cycle && (f.cu < g.cu || (f.cu = g.cu && !f.arrayB && g.arrayB)))

/-- The reported fault of several, by index (R131). -/
def reportedFault (l : List CtxFault) : Option (CtxFault × Nat) :=
  l.zipIdx.foldl (fun m f => match m with
    | none => some f
    | some g => if f.1.before g.1 then some f else some g) none

/-- The FLOG entry of a context fault (R131, R135); an order that has no ring here, or no order, shows ring 0x7F. -/
def State.flogFault (s : State) (f : CtxFault) (subsumed : Bool) : State :=
  let o := s.core.order f.jno
  s.flogWrite { code := f.code, ctx := s.core.handle f.ctx, cu := f.cu, ring := o.elim 0x7F fun o => min o.ring 0x7F
                subsumed := subsumed, pick := s.pick.counter, seq := o.elim 0 OrderSt.seq, detail := f.detail }

/-- An order of a restored context as the last beat left it: what its tasks, its fill or its load did in the pick is done again. -/
def Core.revertOrder (old : Core) (o : OrderSt) : OrderSt :=
  match old.order o.jno with
  | some q =>
    if (o.opcode = 0x10 || o.opcode = 0x20 || o.opcode = 0x23) && q.applied && q.status.isNone && o.reissued = q.reissued then
      { o with tasks := q.tasks, status := none, doneAt := q.doneAt, flushed := q.flushed }
    else o
  | none => o

/-- An object of a restored context: a fill or a load of the pick is undone with its shadow blocks. -/
def Core.revertObj (old : Core) (p : Nat × Obj) : Nat × Obj :=
  match old.obj p.1 with
  | some q =>
    if q.created = p.2.created then (p.1, { p.2 with filling := q.filling, fillOrder := q.fillOrder, whole := q.whole }) else p
  | none => p

/-- A pool of a restored context: copies of the pick are made again (R239). -/
def Core.revertPool (old : Core) (p : KvPool) : KvPool :=
  match old.pool p.ctx with
  | some q =>
    if q.copying then { p with copying := true, copies := (q.copies.filter fun e => !p.copies.contains e) ++ p.copies } else p
  | none => p

/-- The instance counts of a context's channels roll back (R288), also where an epoch that keeps them has turned in the pick; a draft
beat that clears them stands (R287). -/
def Core.revertCounts (c old : Core) (x : Nat) : Core :=
  let mine := fun (ch : Nat) => (c.chan ch).bound = some x
  let back := fun (g : Group) =>
    match old.group g.id with
    | some q =>
      if q.epoch = g.epoch || !g.counts.isEmpty then
        { g with counts := (g.counts.filter fun e => !mine e.1) ++ q.counts.filter fun e => mine e.1 }
      else g
    | none => g
  { c with groups := c.groups.map back }

/-- A key of local SRAM lies on a slot's CUs. -/
def onSramOf (sl : SlotDef) (k : Nat) : Bool := sl.firstCu ≤ k / 2 ^ 24 && k / 2 ^ 24 < sl.firstCu + sl.cuCount

/-- A key of the accumulators lies on a slot's CUs. -/
def onAccOf (sl : SlotDef) (k : Nat) : Bool := sl.firstCu ≤ k / 2 ^ 18 && k / 2 ^ 18 < sl.firstCu + sl.cuCount

/-- Local SRAM and accumulators of a slot's CUs return to what the last beat left. -/
def Onchip.revert (o old : Onchip) (sl : SlotDef) : Onchip :=
  { o with
    sram := putAll (o.sram.filter fun e => !onSramOf sl e.1) (old.sram.filter fun e => onSramOf sl e.1)
    acc := putAll (o.acc.filter fun e => !onAccOf sl e.1) (old.acc.filter fun e => onAccOf sl e.1) }

/-- A beam load of a context's objects in the pick is discarded (R342). -/
def Core.unload (c : Core) (x : Nat) : Core :=
  let mine := fun (l : List Nat) => l.any fun b => (c.obj (addrIndex b)).elim false fun o => o.ctx = x
  let drop := fun (f : Frame) => if f.loading.elim false mine then { f with loading := none } else f
  { c with onchip := { c.onchip with frames := c.onchip.frames.map drop } }

/-- A restore takes the pick's output tiles back: the records of the pick are dropped, and those that its writes dropped stand again
(R367). -/
def Core.revertLineage (c old : Core) (x n : Nat) : Core :=
  c.mapLineage fun r =>
    if r.ctx ≠ c.handle x then r
    else if r.pick = n then { r with dead := true }
    else { r with dead := r.dead && !(old.onchip.lineage.any fun l => l.contains { r with dead := false }) }

/-- Memory of a context is restored, with what stood in for the pick's effects on it (R64, R130, R369). -/
def Core.restoreWhole (c old : Core) (x n : Nat) : Core :=
  let blks := (c.pm.pre.filter (·.ctx = x)).map HeldBlock.addr
  let was := fun (b : Nat) => (getKey old.changed b).elim [] fun n => [(b, n)]
  let c1 := ((c.restoreCtx x).unload x).revertLineage old x n
  let c2 := c1.revertCounts old x
  let c3 := { c2 with
    orders := c2.orders.map fun o => if c2.ctxOf o.ctx = some x then old.revertOrder o else o
    objs := c2.objs.map fun p => if p.2.ctx = x then old.revertObj p else p
    pools := c2.pools.map fun p => if p.ctx = x then old.revertPool p else p
    changed := (c2.changed.filter fun e => !blks.contains e.1) ++ (blks.eraseDups).flatMap was
    onchip := (c2.slotOf x).elim c2.onchip fun sl => if (c2.slots.getD sl.id {}).holder = some x then c2.onchip.revert old.onchip sl
      else c2.onchip }
  match c3.pool x with
  | some p => if old.pool x = some p then c3 else c3.writePool p
  | none => c3

/-- The acceptance rank of a context's first `CTX_RESET` not yet completed: the orders accepted after it run normally (R488). -/
def Core.resetRank (c : Core) (x : Nat) : Nat :=
  (((c.orders.filter fun p => c.ctxOf p.ctx = some x && p.opcode = 0x03 && p.status.isNone).map OrderSt.acc).foldl min (2 ^ 200))

/-- CONTEXT_TEARDOWN (R130, R131, Table 4-9): the context's memory is restored and its live state discarded; the order that holds
the faulting task takes the fault's code, every other accepted order CTX.TORNDOWN, but for those behind a
`CTX_RESET`. -/
def State.teardown (s : State) (x : Nat) : State :=
  let mine := s.core.faults.filter (·.ctx = x)
  match reportedFault mine with
  | none => s
  | some (f, i) =>
    let n := s.pick.counter
    let s1 := mine.zipIdx.foldl (fun (s : State) g => s.flogFault g.1 (g.2 ≠ i)) s
    let gone := fun (k : Ctx) =>
      { k with state := .faulted, fault := f.code, live := [], saved := none, restart := false, restoring := false }
    s1.withCore fun c =>
      let c1 := c.restoreWhole s.committed x n
      let c2 := (c1.order f.jno).elim c1 fun o => if c1.ctxOf o.ctx = some x then
          (c1.setOrder f.jno OrderSt.abortTasks).complete f.jno f.code 0 n else c1
      let c3 := (((c2.tearOrders x (c2.resetRank x) n).endDestroy x).leaveSlot x).setCtx x gone
      { c3 with faults := c3.faults.filter (·.ctx ≠ x) }

/-- A context is restored without teardown, and its tasks of the pick run again (R308, R360, R369). -/
def State.restartOne (s : State) (x : Nat) : State :=
  if !(s.core.ctx x).restart then s else
  let back := fun (k : Ctx) =>
    let q := s.committed.ctx x
    if q.inc = k.inc then { k with live := q.live, saved := q.saved, restoring := q.restoring, restart := false }
    else { k with restart := false }
  s.withCore fun c => (c.restoreWhole s.committed x s.pick.counter).setCtx x back

/-- Every context that faulted is torn down, and every one to be restored is. -/
def State.settleContexts (s : State) : State :=
  (List.range 64).foldl (fun s x => (s.teardown x).restartOne x) (s.shuttleSweep.reedSweep)

/-- The FLOG entries of orders issued again, whose aborted tasks' charges end with the pick (Table 9-1). No completion reports such a
fault: SUBSUMED is 1 (Table of FLOG_ENTRY, R131; log entry 154). -/
def State.settleAgain (s : State) : State :=
  let log := fun (s : State) (o : OrderSt) => match o.again, s.core.ctxOf o.ctx with
    | some (cu, detail), some x =>
      s.flogFault { ctx := x, code := 0x0801, cu := cu, cycle := 0, jno := o.jno, detail := detail } true
    | _, _ => s
  let s1 := s.core.orders.foldl log s
  s1.withCore fun c => { c with orders := c.orders.map fun o => { o with again := none } }

/-- A shadow block becomes the block (R60, R333): region-cache lines, frames (R343) and lineage records of it go. -/
def Core.switchBlock (n : Nat) (c0 : Core) (h : HeldBlock) : Core :=
  let c := c0.dropLineage h.addr
  { c with
    mem := c.mem.replaceBlock h
    changed := (h.addr, n) :: c.changed.filter (·.1 ≠ h.addr)
    onchip := { c.onchip with
      t1 := c.onchip.t1.map fun l => l.filter fun e => e.line / 16 ≠ h.addr / 16384
      frames := c.onchip.frames.map fun f => { f with blocks := f.blocks.filter (· ≠ h.addr) } } }

/-- The frames take what the pick loaded (R342). -/
def Core.turnFrames (c : Core) : Core :=
  { c with onchip := { c.onchip with frames := c.onchip.frames.map fun f =>
      { f with blocks := f.loading.getD f.blocks, loading := none } } }

/-- A C2 block that the pick changed holds what its stored form decodes to (R344, R346), in its valid sectors. -/
def Core.quantizeBlock (c : Core) (b : Nat) (o : Obj) : Core :=
  let new := throughC2 o.wide (c.blockNow b)
  (List.range 256).foldl (fun (c : Core) k =>
    if getKey c.mem.sectors (b / 64 + k) = some .valid then
      { c with mem := { c.mem with cells := putBytes c.mem.cells (b + 64 * k) ((new.drop (64 * k)).take 64) } }
    else c) c

/-- The blocks that the pick changed. -/
def Core.changedAt (c : Core) (n : Nat) : List Nat := (c.changed.filter (·.2 = n)).map Prod.fst

/-- The C2 blocks that the pick changed are stored. -/
def Core.quantize (n : Nat) (c : Core) : Core :=
  (c.changedAt n).foldl (fun c b => match c.obj (addrIndex b) with
    | some o => if o.coding = 2 then c.quantizeBlock b o else c
    | none => c) c

/-- Shadow blocks and single-home writes switch in, and placement's copies (R60, R331, R334, R338). T3 writes that no task or engine has
waited for leave. -/
def State.switchIn (s : State) : State :=
  let n := s.pick.counter
  let c := s.core
  let stamp := c.changed.map fun e => if e.2 = 0 then (e.1, n) else e
  let shadows := c.pm.shadow.map HeldBlock.addr
  let own := (c.pm.pre.filter fun h => h.region.isNone).map HeldBlock.addr
  let c1 := c.pm.shadow.foldl (Core.switchBlock n) ({ c with changed := stamp }).turnFrames
  let c2 := c1.quantize n
  let flips := (shadows ++ own).eraseDups
  let c3 := flips.foldl Core.flipSlot c2
  let c4 := c3.switchMoves n
  let moved := (c.moves.filter fun m => m.copied && c4.homeOf (devAddr m.obj (16384 * m.blk)) = some m.dest).map fun m =>
    devAddr m.obj (16384 * m.blk)
  let left := fun (b : Nat) => (c4.farWriteOf b).filter fun w => getKey c.pm.farSent b ≠ some w.2
  let outs := if s.linkUp then ((flips ++ moved).eraseDups).flatMap left |>.map fun e => Out.farWrite (s.uioAt e.1) e.1 e.2 else []
  (({ s with core := c4 }).settleLog).emits outs

/-- Versions follow the update rounds whose tasks ended in the pick (R257, R258, R263). A round that a teardown broke leaves its object in
update until a later round is complete. -/
def Core.turnVersion (n : Nat) (c : Core) (o : OrderSt) : Core :=
  match c.ctxOf o.ctx with
  | none => c
  | some x =>
    ((o.tasks.filterMap Task.round).eraseDups).foldl (fun (c : Core) id =>
      let mine := o.tasks.filter fun k => k.round = some id
      let all := mine.all fun k => k.phase = .ended
      if !(mine.any fun k => k.phase = .ended && k.endPick = n) then c else
      match c.objById x id with
      | some (i, _) => c.setObj i fun ob =>
          let others := ob.rounds.filter fun j => j ≠ o.jno && (c.order j).elim false fun p => p.status.isNone
          if all then { ob with version := (ob.version + 1) % 0xFFFFFFFF, rounds := others }
          else { ob with rounds := o.jno :: ob.rounds.filter (· ≠ o.jno) }
      | none => c) c

/-- Completion notices of the orders determined in the pick go to the twin (R389), in COPYING too (R382), and at the SYNC entry beat those
of every completion not yet published. -/
def State.sendNotices (s : State) : State :=
  let paired := s.twin.state = .copying || s.twin.state = .sync || s.twin.state = .recopy || s.twin.state = .hold
  let entry := s.pick.counter + 1 = s.twin.syncFrom
  let new := s.core.orders.filter fun o =>
    o.status.isSome && !o.stored && o.published.isNone && (o.doneAt = s.pick.counter || entry)
  if paired then s.emits (new.map fun o => .noticeSend (s.notice o)) else s

/-- The hash of a block as committed (R393). -/
def Core.hashOf (c : Core) (b : Nat) : Nat := blockHash (addrIndex b) (addrOffset b / 16384) (c.blockNow b)

/-- The held items of the pick (R386): replays of update tasks, and the blocks of other writers, with the hashes they leave
(R393). They leave for the twin, but in COPYING, where the copy does (R382). -/
def State.holdItems (s : State) : State :=
  if !s.makesItems then s else
  let c := s.core
  let n := s.pick.counter
  let blks := c.heldBlocks
  let upd := c.pm.updated.filter fun w => c.persists w.1 && (getKey blks w.1).isNone
  let new : List (HeldItem × Nat) := (c.pm.replays.map fun r => (r.2.2, r.2.1))
    ++ blks.map fun w => (.block w.2 (c.copyOf c.mem w.1), c.stackOf w.1 / 6)
  let born := (c.ownObjs.filter fun p => p.2.cls = 0 && p.2.created = n).flatMap fun p =>
    (List.range p.2.blocks).map fun t => devAddr p.1 (16384 * t)
  let w := s.twin.own
  let rel := born.foldl (fun l b => putKey l b (c.hashOf b)) (w.rel.filter fun e => (c.obj (addrIndex e.1)).isSome)
  let own : HeldSide := { w with
    items := w.items ++ new
    hashes := w.hashes ++ (blks ++ upd).map fun e => (e.2, e.1, c.hashOf e.1)
    rel := rel }
  let s1 := { s with twin := { s.twin with own := own } }
  if s.twin.state = .copying then s1 else s1.emits (new.map fun (i : HeldItem × Nat) => .heldSend i.1)

/-- In `COPYING`, and while a replacement is copied to, a block that changes is sent again (R382), so that the digests are no longer
known to match. In `COPYING` the mirror's digest goes to the owner at every commit step (R383). -/
def State.recopyChanged (s0 : State) : State :=
  let s := if s0.twin.state = .copying then s0.emit (.digestSend s0.mirrorDigest s0.twin.mirror.last) else s0
  let hit := (s.core.changedAt s.pick.counter).filter fun b => (s.core.obj (addrIndex b)).elim false (s.inCopy (addrIndex b))
  if (s.twin.state = .copying || (s.twin.state = .absorbed && s.twin.replacing)) && !hit.isEmpty then
    ({ s with twin := { s.twin with matched := false, copyDone := false } }).sendCopy s.core hit
  else s

/-- The cells that a context's live entries keep (R125): local SRAM, and accumulators. -/
def Core.keptCells (c : Core) (x : Nat) : List Host.Cell × List Host.Cell :=
  match c.slotOf x with
  | none => ([], [])
  | some sl =>
    let live := (c.ctx x).live
    let at_ := fun (acc : Bool) (base : Nat → Nat) (k : Nat) => live.any fun e =>
      e.acc = acc && base (sl.firstCu + e.cu) + 64 * e.start ≤ k && k < base (sl.firstCu + e.cu) + 64 * (e.start + e.len)
    (c.onchip.sram.filter fun e => at_ false (fun cu => sramKey cu 0) e.1,
      c.onchip.acc.filter fun e => at_ true (fun cu => accKey cu 0 0) e.1)

/-- A preempted holder is being saved (R75, R128): what its live entries name, or what it still waits to have restored. -/
def Core.saveCtx (c : Core) (x : Nat) : Core :=
  c.setCtx x fun k =>
    { k with state := .saving, restoring := false
             saved := if k.restoring then k.saved else if k.live.isEmpty then none else some (c.keptCells x) }

/-- A chosen context takes its slot (R128). -/
def Core.holdCtx (c : Core) (x : Nat) : Core :=
  c.setCtx x fun k =>
    let st := if k.destroy then CtxState.destroying else .holding
    { k with state := st, restoring := k.saved.isSome }

/-- The slot passes to the context chosen at the decision point. -/
def Core.passSlot (c : Core) (i : Nat) : Core :=
  let sl := c.slots.getD i {}
  match sl.chosen with
  | none => c
  | some y =>
    if sl.holder = some y then c else
    let c1 := (sl.holder.elim c c.saveCtx).holdCtx y
    { c1 with slots := setAt c1.slots i { sl with holder := some y, run := 0, chosen := none } }

/-- The contexts that hold a slot. -/
def Core.holders (c : Core) : List Nat := c.slots.filterMap Slot.holder

/-- Local SRAM and accumulators keep across the beat what their holders' live entries name, and nothing else (R17, R125). -/
def Core.keepT0 (c : Core) : Core :=
  let kept := ((c.holders.filter fun x => !(c.ctx x).restoring).map c.keptCells)
  { c with onchip := { c.onchip with
      sram := c.onchip.sram.filter fun e => kept.any fun k => k.1.contains e
      acc := c.onchip.acc.filter fun e => kept.any fun k => k.2.contains e, zero := [] } }

/-- The context resets sealed in this beat (R488), after a teardown of their contexts. -/
def State.ctxResetOrder (s : State) (j : Nat) : State :=
  let s1 := (s.core.order j).elim s s.checkOrder
  match s1.ready j 0x03 with
  | some o => match s1.core.ctxOf o.ctx with
    | some x => (s1.teardown x).ctxReset x o
    | none => s1
  | none => s1

/-- HARNESS_RESET (R487, Table 17-7): each context of the harness is reset and its orders end. -/
def State.resetHarness (s : State) (h : Nat) : State :=
  let n := s.pick.counter
  let mine := (List.range 64).filter fun x => (s.core.ctx x).state ≠ .free && (s.core.ctx x).harness = h
  let one := fun (c : Core) (x : Nat) => (((c.resetCtx x n).tearOrders x (2 ^ 200) n).endDestroy x).leaveSlot x
  s.withCore fun c => mine.foldl one c

/-- The regions of a harness that is reset return to their state at cold start, and admission on them waits for the write-back (R487,
Table 17-7). -/
def State.clearHarness (s : State) (h : Nat) : State :=
  let regions := (List.range 16).filter fun r => s.core.draft.elim false fun d => bitOf ((d.harness h).elim 0 HarnessDef.regions) r
  let on := fun (cu : Nat) => regions.contains (cuRegion cu)
  let s1 := s.withCore fun c => { c with onchip := { c.onchip with
    t1 := c.onchip.t1.zipIdx.map fun l => if regions.contains l.2 then [] else l.1
    frames := c.onchip.frames.filter (·.harness ≠ h)
    sram := c.onchip.sram.filter fun e => !on (e.1 / 2 ^ 24)
    acc := c.onchip.acc.filter fun e => !on (e.1 / 2 ^ 18)
    zero := c.onchip.zero ++ (List.range 512).filter on } }
  { s1 with
    glb := { s1.glb with lastReset := 2 }
    mgt := { s1.mgt with harnessDue := s1.mgt.harnessDue ++ [h] } }

/-- The context resets of the beat, those of the harnesses that are reset among them (R487, R488): what they write to pool tables is in
the pick that commits. -/
def State.resetContexts (s : State) : State :=
  let resets := (s.core.byAcc.filter fun o => o.opcode = 0x03).map OrderSt.jno
  let s1 := resets.foldl State.ctxResetOrder s
  (s.mgt.harnessNow.eraseDups.foldl State.resetHarness s1).poolEvent

/-- The regions of the harness resets of this beat. -/
def State.harnessResets (s : State) : State :=
  let s1 := s.mgt.harnessNow.eraseDups.foldl State.clearHarness s
  { s1 with mgt := { s1.mgt with harnessNow := [] } }

/-- What a pick leaves behind: completed orders whose items are released, marks, charges, and the lines written in it. A record that an
abandoned beat wrote and no beat has repeated yet is kept (R66). -/
def State.sweep (s : State) : State :=
  let n := s.pick.counter
  let keep := fun (o : OrderSt) => o.published.isNone || s.twin.own.items.any fun i => itemJno i.1 = o.jno
  let s1 := s.withCore fun c => { c with
    orders := c.orders.filter keep
    pm := {}
    faults := []
    need := []
    waits := []
    kvLeft := (16384, false)
    cycle := 0
    onchip := { c.onchip with
      t1 := c.onchip.t1.map fun l => l.map fun e => { e with written := false }
      crcHits := c.onchip.crcHits.filter fun h => n < h.2.2 + 2 } }
  { s1 with ord := { s1.ord with written := s1.ord.written.filter fun w => (s1.core.rings.getD w.1 {}).recNext ≤ w.2.1 } }

/-- MSI_X_MESSAGE (R432): one message at most for each vector whose sources fired since the last beat. -/
def State.sendInterrupts (s : State) : State :=
  let m := s.pick.evMark
  let other := (List.range 8).any fun i =>
    let v := m.getD i 0
    (if i = 7 then v - v % 2 else v) ≠ 0
  let fire := fun (s : State) (e : Nat × Bool) => if e.2 then s.interrupt e.1 else s
  let fired : List (Nat × Bool) :=
    [(0, decide (s.flog.count ≠ s.pick.flogMark)), (1, other), (2, decide (m.getD 8 0 ≠ 0)), (4, s.pick.wrote)]
  let s1 := fired.foldl fire s
  { s1 with pick := { s1.pick with evMark := List.replicate 9 0, flogMark := s1.flog.count, wrote := false } }

/-- What the commit step does to the transactional state. -/
def State.commitCore (s : State) : State :=
  let s1 := s.flushReports.settleContexts.settleAgain.resetContexts.switchIn
  let n := s.pick.counter
  let s2 := s1.withCore fun c => (c.byAcc.foldl (Core.turnVersion n) c).unbindIdle.tidyShuttle.takeStores
  let s3 := ((s2.holdItems.turnMirror).recopyChanged).sendNotices
  let s4 := s3.withCore fun c => ((List.range 64).foldl Core.passSlot c).keepT0
  (s4.harnessResets).sweep

/-- The lines of the blocks that the commit step would change and that the host caches. -/
def State.switchLines (s : State) : List Nat := (s.core.pm.shadow.map HeldBlock.addr).flatMap fun b => s.tracked b 16384 false

/-- COMMIT_STEP (R48, R67), at W − 0.5 µs: the pick commits whole, and the counter names the next one. It is held in skid mode until every
MAC epoch received before the window opened has been verified, `verified` of them since the last command (R445), and until the host has
answered the snoops of the lines that it would change (R440). -/
def execCommitStep (s0 : State) : Res :=
  if !s0.beating || s0.pick.phase ≠ .latched then .next s0 else
  let s := { s0 with pick := { s0.pick with epochs := s0.pick.epochs - Config.epochsVerified s0.freeCtr } }
  if s.glb.skid && s.pick.epochs ≠ 0 then .next { s with freeCtr := s0.freeCtr + 1 }
  else if !s.switchLines.isEmpty then .next (s.snoop s.switchLines) else
  let s1 := ((s.commitCore).draftFinal).sendInterrupts
  let s2 := { s1 with
    pick := { s1.pick with phase := .committed, counter := s1.pick.counter + 1, sampling := true, warm := false }
    twin := { s1.twin with role := if s1.twin.role = 2 then 0 else s1.twin.role } }
  let s3 := s2.hostGo
  .next { s3 with committed := s3.core, undo := [] }

/-- PICK_BEGIN (Table 2-3), at W: admission opens, held frames go by the ports that came back (R455), what waited for a repair is served again (R309), a grow still stalled past its limit is a context fault (R245), and the
pool tables that waited for shadow blocks are written (R335). -/
def execPickBegin (s : State) : Res :=
  if !s.beating || s.pick.phase ≠ .committed then .next s else
  let s1 := { s.sendStranded with pick := { s.sendStranded.pick with phase := .span } }
  if s.operational then
    let s2 := s1.serveAll
    .next (s1.tellAborts ((s2.core.byAcc.foldl State.kvExhaust s2).withCore Core.writeDue).poolEvent)
  else .next s1

end Sys2Proof.Machine
end

