-- ==== Sys2Proof/Machine/Protocols.lean ====
section
/-! DEFINITION. Sys2Proof/Machine/Protocols.lean: the management protocols of Table 18-1: MCTP control, PLDM, SPDM, IDE key
management (R494 to R501), and JTAG (R510). What a standard gives a reply and this spec does not is a free value of the
configuration. -/

namespace Sys2Proof.Machine

/-- The place of a binding in lists kept by binding. -/
def Binding.idx : Binding → Nat
  | .smbus => 0
  | .pcieVdm => 1

/-- Completion codes of MCTP and PLDM: success, invalid data, unsupported (PRESUMED, DSP0236 and DSP0240; log entry 30). -/
def ccOk : Nat := 0
def ccInvalid : Nat := 2
def ccUnsupported : Nat := 5

/-- A reply of an MCTP control or PLDM command: completion code, then its values. -/
def State.reply (s : State) (b : Binding) (cmd : String) (vals : List Nat) : State := s.emit (.mctp b cmd vals)

/-- SET_ENDPOINT_ID (R495): endpoint IDs 0 and 255 are no IDs to be assigned, and 1 to 7 are reserved (PRESUMED, DSP0236). -/
def execSetEndpointId (b : Binding) (eid : Nat) (s : State) : Res :=
  if eid < 8 || 255 ≤ eid then .next (s.reply b "SET_ENDPOINT_ID" [ccInvalid])
  else .next (({ s with proto := { s.proto with eids := setAt s.proto.eids (Binding.idx b) eid } }).reply b "SET_ENDPOINT_ID" [ccOk, eid])

/-- GET_ENDPOINT_ID (R495). -/
def execGetEndpointId (b : Binding) (s : State) : Res :=
  .next (s.reply b "GET_ENDPOINT_ID" [ccOk, s.proto.eids.getD (Binding.idx b) 0])

/-- GET_ENDPOINT_UUID (R494). -/
def execGetEndpointUuid (b : Binding) (s : State) : Res := .next (s.reply b "GET_ENDPOINT_UUID" [ccOk, Config.reply 0 0])

/-- The MCTP message types of Table 18-1. -/
def messageTypes : List Nat := [0x00, 0x01, 0x05, 0x06, 0x7E]

/-- GET_MCTP_VERSION_SUPPORT (R494). -/
def execGetMctpVersionSupport (b : Binding) (msgType : Nat) (s : State) : Res :=
  if messageTypes.contains msgType || msgType = 0xFF then
    .next (s.reply b "GET_MCTP_VERSION_SUPPORT" [ccOk, Config.reply 1 msgType])
  else .next (s.reply b "GET_MCTP_VERSION_SUPPORT" [0x80])

/-- GET_MESSAGE_TYPE_SUPPORT (R494). -/
def execGetMessageTypeSupport (b : Binding) (s : State) : Res :=
  .next (s.reply b "GET_MESSAGE_TYPE_SUPPORT" (ccOk :: messageTypes))

/-- GET_VENDOR_DEFINED_MESSAGE_SUPPORT (R496): Sethied's PCI vendor ID, whose value the spec does not give. -/
def execGetVendorDefinedMessageSupport (b : Binding) (s : State) : Res :=
  .next (s.reply b "GET_VENDOR_DEFINED_MESSAGE_SUPPORT" [ccOk, Config.reply 2 0])

/-- GET_TID (R494). -/
def execGetTid (b : Binding) (s : State) : Res := .next (s.reply b "GET_TID" [ccOk, s.proto.tids.getD (Binding.idx b) 0])

/-- SET_TID (R494): 0x00 and 0xFF are reserved (PRESUMED, DSP0240). -/
def execSetTid (b : Binding) (tid : Nat) (s : State) : Res :=
  if tid = 0 || 255 ≤ tid then .next (s.reply b "SET_TID" [ccInvalid])
  else .next (({ s with proto := { s.proto with tids := setAt s.proto.tids (Binding.idx b) tid } }).reply b "SET_TID" [ccOk])

/-- The PLDM types of Table 18-1. -/
def pldmTypes : List Nat := [0, 2, 5]

/-- GET_PLDM_VERSION (R494). -/
def execGetPldmVersion (b : Binding) (pldmType : Nat) (s : State) : Res :=
  if pldmTypes.contains pldmType then .next (s.reply b "GET_PLDM_VERSION" [ccOk, Config.reply 3 pldmType])
  else .next (s.reply b "GET_PLDM_VERSION" [0x83])

/-- GET_PLDM_TYPES (R494). -/
def execGetPldmTypes (b : Binding) (s : State) : Res := .next (s.reply b "GET_PLDM_TYPES" (ccOk :: pldmTypes))

/-- GET_PLDM_COMMANDS (R494). -/
def execGetPldmCommands (b : Binding) (pldmType : Nat) (s : State) : Res :=
  if pldmTypes.contains pldmType then .next (s.reply b "GET_PLDM_COMMANDS" [ccOk, Config.reply 4 pldmType])
  else .next (s.reply b "GET_PLDM_COMMANDS" [0x83])

/-- GET_PDR (R494): the records of sensors 1 to 27 (Table 18-9). -/
def execGetPdr (b : Binding) (sensor : Nat) (s : State) : Res :=
  if 1 ≤ sensor && sensor ≤ 27 then .next (s.reply b "GET_PDR" [ccOk, Config.reply 5 sensor])
  else .next (s.reply b "GET_PDR" [0x82])

/-- SET_EVENT_RECEIVER (R494). -/
def execSetEventReceiver (b : Binding) (receiver : Nat) (s : State) : Res :=
  .next (({ s with proto := { s.proto with receiver := setAt s.proto.receiver (Binding.idx b) (some receiver) } }).reply b
    "SET_EVENT_RECEIVER" [ccOk])

/-- NUMERIC_EFFECTER_SET (R513): effecter 1 alone, from 1,600 W to 3,200 W, at the beat window of R38. -/
def execNumericEffecterSet (b : Binding) (effecter watts : Nat) (s : State) : Res :=
  if effecter ≠ 1 then .next (s.reply b "NUMERIC_EFFECTER_SET" [ccUnsupported])
  else if watts < 1600 || 3200 < watts then .next (s.reply b "NUMERIC_EFFECTER_SET" [ccInvalid])
  else
    let s1 := s.reply b "NUMERIC_EFFECTER_SET" [ccOk]
    let c : MboxCmd := ⟨.mctp b 0 0 [], 0, effecterOp, leBytes 2 watts⟩
    if s.beatsAhead then .next { s1 with mgt := { s1.mgt with waiting := s1.mgt.waiting ++ [c] } } else .next (s1.setLimit watts)

/-- REQUEST_UPDATE (R506): a new write of the image set; not while one is under way. -/
def execRequestUpdate (b : Binding) (s : State) : Res :=
  if s.proto.update ≠ 0 then .next (s.reply b "REQUEST_UPDATE" [0x81])
  else
    let s1 := if s.glb.state = .recovery then { s with flash := { s.flash with staged := [], verdict := none } } else
      let s2 := s.startImage
      { s2 with flash := { s2.flash with writing := true } }
    .next (({ s1 with proto := { s1.proto with update := 1 } }).reply b "REQUEST_UPDATE" [ccOk])

/-- VERIFY_COMPLETE (R507, R482). -/
def execVerifyComplete (b : Binding) (s : State) : Res :=
  if s.proto.update ≠ 2 then .next s
  else
    let r := s.verifyImage
    .next (({ r.1 with proto := { r.1.proto with update := 3 } }).reply b "VERIFY_COMPLETE" [r.2])

/-- ACTIVATE_FIRMWARE (R507): answered with "medium-specific reset"; self-contained activation is not supported (R494). -/
def execActivateFirmware (b : Binding) (selfContained : Bool) (s : State) : Res :=
  if s.proto.update ≠ 3 then .next (s.reply b "ACTIVATE_FIRMWARE" [0x80])
  else if selfContained then .next (s.reply b "ACTIVATE_FIRMWARE" [ccUnsupported])
  else if s.flash.verdict ≠ some 0 then .next (s.reply b "ACTIVATE_FIRMWARE" [ccInvalid])
  else .next (({ s with proto := { s.proto with update := 0 } }).reply b "ACTIVATE_FIRMWARE" [ccOk, Config.reply 6 0])

/-- GET_STATUS (R494). -/
def execGetStatus (b : Binding) (s : State) : Res := .next (s.reply b "GET_STATUS" [ccOk, s.proto.update])

/-- CANCEL_UPDATE (R494): what was written of set A stays. -/
def execCancelUpdate (b : Binding) (s : State) : Res :=
  if s.proto.update = 0 then .next (s.reply b "CANCEL_UPDATE" [0x80])
  else
    let writing := s.flash.writing && (s.glb.state = .recovery || s.proto.update ≠ 1)
    .next (({ s with proto := { s.proto with update := 0 }, flash := { s.flash with writing := writing } }).reply b "CANCEL_UPDATE" [ccOk])

/-- The place of an SPDM responder: MCTP or DOE. -/
def spdmIdx (doe : Bool) : Nat := if doe then 1 else 0

/-- An SPDM responder's state. -/
def State.spdmAt (s : State) (doe : Bool) : SpdmState := s.proto.spdm.getD (spdmIdx doe) .none

/-- An SPDM responder's state changes. -/
def State.setSpdm (s : State) (doe : Bool) (st : SpdmState) : State :=
  { s with proto := { s.proto with spdm := setAt s.proto.spdm (spdmIdx doe) st } }

/-- An SPDM response. -/
def State.spdmSend (s : State) (doe : Bool) (cmd : String) (vals : List Nat) : State := s.emit (.spdm doe cmd vals)

/-- A response with a signature of the attestation key (R498); at scope 2 it is an ERROR (R510). -/
def State.spdmSigned (s : State) (doe : Bool) (cmd : String) (vals : List Nat) : State :=
  if s.fw.akErased then s.emit (.spdmError doe)
  else ({ s with freeCtr := s.freeCtr + 1 }).spdmSend doe cmd (vals ++ [leNat (Config.keyed 0 s.freeCtr)])

/-- GET_VERSION (R494): the connection starts over. -/
def execGetVersion (doe : Bool) (s : State) : Res :=
  .next ((s.setSpdm doe .none).spdmSend doe "GET_VERSION" [Config.reply 7 0])

/-- GET_CAPABILITIES (R494). -/
def execGetCapabilities (doe : Bool) (s : State) : Res := .next (s.spdmSend doe "GET_CAPABILITIES" [Config.reply 8 0])

/-- NEGOTIATE_ALGORITHMS (R494): the algorithms of Table 18-1 and no others. -/
def execNegotiateAlgorithms (doe : Bool) (supported : Bool) (s : State) : Res :=
  if supported then .next ((s.setSpdm doe .negotiated).spdmSend doe "NEGOTIATE_ALGORITHMS" [Config.reply 9 0])
  else .next (s.emit (.spdmError doe))

/-- GET_DIGESTS (R498): the digest of slot 0's chain. -/
def execGetDigests (doe : Bool) (s : State) : Res :=
  if s.spdmAt doe = .none then .next (s.emit (.spdmError doe))
  else .next (s.spdmSend doe "GET_DIGESTS" [leNat (Config.sha512 Config.certificates)])

/-- GET_CERTIFICATE (R498): slot 0 alone (Table 18-1). -/
def execGetCertificate (doe : Bool) (slot : Nat) (s : State) : Res :=
  if s.spdmAt doe = .none || slot ≠ 0 then .next (s.emit (.spdmError doe))
  else .next (s.spdmSend doe "GET_CERTIFICATE" [leNat Config.certificates])

/-- CHALLENGE (R498, R500). -/
def execChallenge (doe : Bool) (slot : Nat) (nonce : Bytes) (s : State) : Res :=
  if s.spdmAt doe = .none || slot ≠ 0 then .next (s.emit (.spdmError doe))
  else .next (s.spdmSigned doe "CHALLENGE" [leNat nonce])

/-- The hash that a booted image's manifest entry holds of it. -/
def State.imageHash (s : State) (typ : Nat) : Bytes := (imageEntry s.fw.manifest typ).elim [] fun b => (b.drop 64).take 64

/-- A measurement of Table 18-3. -/
def State.measurement (s : State) (i : Nat) : Bytes :=
  match i with
  | 1 => Config.bootRomHash
  | 2 => Config.sha512 (s.fw.manifest.take 0x190)
  | 3 => s.fw.genHash
  | 4 => s.imageHash 2
  | 5 => s.imageHash 3
  | 6 => Config.sha512 s.draft.active
  | 7 => leBytes 1 s.proto.scope
  | _ => leBytes 4 s.flash.rpmc ++ leBytes 4 s.fw.secVer

/-- GET_MEASUREMENTS (R499): index 0 asks for their number and 0xFF for all (PRESUMED, DSP0274). -/
def execGetMeasurements (doe : Bool) (index : Nat) (s : State) : Res :=
  if s.spdmAt doe = .none then .next (s.emit (.spdmError doe))
  else if index = 0 then .next (s.spdmSigned doe "GET_MEASUREMENTS" [8])
  else if index = 0xFF then .next (s.spdmSigned doe "GET_MEASUREMENTS" ((List.range 8).map fun i => leNat (s.measurement (i + 1))))
  else if index ≤ 8 then .next (s.spdmSigned doe "GET_MEASUREMENTS" [leNat (s.measurement index)])
  else .next (s.emit (.spdmError doe))

/-- KEY_EXCHANGE (R501). -/
def execKeyExchange (doe : Bool) (slot : Nat) (s : State) : Res :=
  if s.spdmAt doe = .none || slot ≠ 0 || s.fw.akErased then .next (s.emit (.spdmError doe))
  else .next ((s.setSpdm doe .handshake).spdmSigned doe "KEY_EXCHANGE" [])

/-- FINISH (R501): the session is established. -/
def execFinish (doe : Bool) (verifies : Bool) (s : State) : Res :=
  if s.spdmAt doe ≠ .handshake then .next (s.emit (.spdmError doe))
  else if verifies then .next ((s.setSpdm doe .session).spdmSend doe "FINISH" [])
  else .next ((s.setSpdm doe .negotiated).emit (.spdmError doe))

/-- HEARTBEAT (R494): in a session. -/
def execHeartbeat (doe : Bool) (s : State) : Res :=
  if s.spdmAt doe = .session then .next (s.spdmSend doe "HEARTBEAT" []) else .next (s.emit (.spdmError doe))

/-- KEY_UPDATE (R494): in a session. -/
def execKeyUpdate (doe : Bool) (s : State) : Res :=
  if s.spdmAt doe = .session then .next (s.spdmSend doe "KEY_UPDATE" []) else .next (s.emit (.spdmError doe))

/-- END_SESSION (R501): the programmed IDE keys stay in force. -/
def execEndSession (doe : Bool) (s : State) : Res :=
  if s.spdmAt doe = .session then .next ((s.setSpdm doe .negotiated).spdmSend doe "END_SESSION" [])
  else .next (s.emit (.spdmError doe))

/-- IDE key management runs inside an SPDM session over DOE (R501, Table 18-1), for the two streams of R444. -/
def State.ideSession (s : State) : Bool := s.spdmAt true = .session

/-- QUERY (R494). -/
def execQuery (s : State) : Res :=
  if s.ideSession then .next (s.emit (.ideKm "QUERY" [2, Config.reply 10 0])) else .next (s.emit (.spdmError true))

/-- KEY_PROG (R501). -/
def execKeyProg (stream : Nat) (key : Bytes) (s : State) : Res :=
  if !s.ideSession || 2 ≤ stream then .next (s.emit (.spdmError true))
  else .next (({ s with proto := { s.proto with ideKeys := setAt s.proto.ideKeys stream (some key) } }).emit (.ideKm "KEY_PROG" [stream, 0]))

/-- The streams' state as GLB_LINK shows it. -/
def State.showIde (s : State) : State :=
  { s with glb := { s.glb with ideIo := s.proto.ideOn.getD 0 false, ideCm := s.proto.ideOn.getD 1 false } }

/-- K_SET_GO (R501, R445): traffic goes on under the programmed keys; a link that failed its MAC is re-keyed. The mode of the
CXL.cachemem stream, which the component registers set (Table 15-5), is a free value. -/
def execKSetGo (stream : Nat) (s : State) : Res :=
  if !s.ideSession || (s.proto.ideKeys.getD stream none).isNone then .next (s.emit (.spdmError true))
  else
    let skid := if stream = 1 then Config.free 7 s.freeCtr % 2 = 1 else s.glb.skid
    let s1 := { s with
      proto := { s.proto with ideOn := setAt s.proto.ideOn stream true }
      glb := { s.glb with macBad := false, skid := skid }
      freeCtr := s.freeCtr + 1 }
    let s2 := s1.showIde.emit (.ideKm "K_SET_GO" [stream])
    .next (s.linkTurn s2)

/-- K_SET_STOP (R444, R494): the stream is down, and with it, where IDE is required, the link. -/
def execKSetStop (stream : Nat) (s : State) : Res :=
  if !s.ideSession || 2 ≤ stream then .next (s.emit (.spdmError true))
  else
    let s1 := { s with proto := { s.proto with ideOn := setAt s.proto.ideOn stream false } }
    .next (s.noteDown (s1.showIde.emit (.ideKm "K_SET_STOP" [stream])))

/-- GET_KEY (R494). -/
def execGetKey (stream : Nat) (s : State) : Res :=
  match s.ideSession, s.proto.ideKeys.getD stream none with
  | true, some k => .next (s.emit (.ideKm "GET_KEY" [stream, leNat k]))
  | _, _ => .next (s.emit (.spdmError true))

/-- The scope that a JTAG instruction needs (R510). -/
def jtagScope : JtagInstr → Nat
  | .idcode => 0
  | .bypass => 0
  | .boundary => 1
  | .internalScan => 2
  | .coreDebug => 2

/-- JTAG_INSTRUCTION (R510): IDCODE and BYPASS always answer, the others within the unlocked scope. -/
def execJtagInstruction (i : JtagInstr) (s : State) : Res := .next (s.emit (.jtag i (decide (jtagScope i ≤ s.proto.scope))))

end Sys2Proof.Machine
end

