-- ==== Sys2Proof/Machine/Start.lean ====
section
/-! DEFINITION. Sys2Proof/Machine/Start.lean: cold start (Table 17-5, R477 to R482), warm start (Table 17-6, R483 to R486), and the
end of a harness reset (R487). -/

namespace Sys2Proof.Machine

/-- The failed-start count is written. -/
def State.setCount (s : State) (n : Nat) : State := s.setBootRec fun b => b.set 0 (BitVec.ofNat 8 n)

/-- The last cold-start step reached is written (R473). -/
def State.bootStep (s : State) (n : Nat) : State := s.setBootRec fun b => b.set 3 (BitVec.ofNat 8 n)

/-- A start that stops in management-only state, with the count as it stood before step 2 (R479). -/
def State.bootHalt (s : State) (code : Nat) : State :=
  (({ s with pick := { s.pick with joining := false } }).halt code).setCount s.fw.count

/-- A failed start: the count stays, and the module stays at its cold start (R479). -/
def State.bootFail (s : State) (code : Nat) : State := ({ s with pick := { s.pick with joining := false } }).bootCode code

/-- Recovery (R482): the ports are in `KEEPALIVE`. -/
def State.enterRecovery (s : State) : State :=
  let keep := fun (k : Port) => { k with state := PortState.keepalive, lanes := 1 }
  ({ s with
    glb := { s.glb with state := .recovery }
    opt := { s.opt with ports := s.opt.ports.map keep } }).bootCode 0x0C09

/-- The bytes of an image set. -/
def State.imageSet (s : State) (set : Nat) : Bytes := if set = 0 then s.flash.setA else s.flash.setB

/-- Steps 2 and 3 (R478, R479): the set that the count selects, or the other where its manifest fails; none in recovery. -/
def State.selectSet : Nat → State → State × Option Nat
  | 0, s => (s.enterRecovery, none)
  | fuel + 1, s =>
    let c := byteAt s.bootRec 0
    if 6 ≤ c then (s.enterRecovery, none)
    else
      let set := if c ≤ 2 then 0 else 1
      let img := s.imageSet set
      let s1 := ({ s with fw := { s.fw with count := c, set := set } }).setBootRec fun b =>
        ((b.set 0 (BitVec.ofNat 8 (c + 1))).set 1 (BitVec.ofNat 8 set)).set 3 3
      let bad := if !manifestOk img set then some 0x0C03 else if fieldAt img 8 4 < s.flash.rpmc then some 0x0C04 else none
      match bad with
      | some code => State.selectSet fuel ((s1.bootCode code).setCount (if set = 0 then 3 else 6))
      | none => (s1, some set)

/-- The firmware that runs, from its set's manifest (Table 17-4). -/
def Fw.of (f : Fw) (img : Bytes) : Fw :=
  { f with
    genVer := entryVersion img 1, seqVer := entryVersion img 2, dieVer := entryVersion img 3
    secVer := fieldAt img 8 4, manifest := img.take 1024
    genHash := (imageEntry img 1).elim [] fun b => (b.drop 64).take 64 }

/-- Step 10 (R459, R480): the ports that trained are `UP`, the others `FAILED`; the first fabric port gives the geometry. -/
def State.trainPorts (s : State) (up : List Nat) (lambdas : List Nat) : State :=
  let port := fun (p : Nat) =>
    if up.contains p then
      let e := s.expected p
      ({ state := .up, lanes := 0xFF, neighbor := e.1, nbPort := e.2, latency := lambdas.getD p 0 } : Port)
    else { state := .failed }
  let s1 := { s with opt := { s.opt with ports := (List.range 18).map port } }
  let s2 := if up.isEmpty then s1 else s1.optEvent 1
  if (List.range 16).any up.contains then { s2 with glb := { s2.glb with lens := s2.glb.axes } } else s2

/-- Step 11: the boot draft is loaded and checked (R97). -/
def State.loadBootDraft (s : State) : State :=
  let bad := fun (code sec off : Nat) =>
    ({ s with draft := { s.draft with state := .rejected, checkCode := code, whereSec := sec, whereOff := off } }).draftEvent 1
  match s.flash.draft.current with
  | none => bad 0x0401 0xFF 0
  | some b =>
    match draftCheck b b.length (some s.geometry) none .none with
    | some e => bad e.1 e.2.1 e.2.2
    | none => ({ s with draft := { s.draft with boot := some b }, twin := { s.twin with first := true } }).draftEvent 0

/-- The module listens for markers, or takes the first one at once (R481). -/
def State.join (s : State) (m : Option JoinMarker) : State :=
  match m with
  | some k => s.joinPick (k.beat + 1) (some k.leader) (some k.port) (k.depth + 1) k.period10 k.windowUs
  | none => { s with pick := { s.pick with joining := true } }

/-- Steps 10 to 12 of a cold start. -/
def State.coldLinks (s : State) (o : ColdObs) (address lens : List Nat) : State :=
  let cart := fun (c : Nat) => if o.lasers.getD c false then CartState.active else CartState.absent
  let s1 := { s with
    glb := { s.glb with address := address, axes := lens, ideIo := o.ideUp, ideCm := o.ideUp }
    proto := { s.proto with ideOn := [o.ideUp, o.ideUp] }
    opt := { s.opt with carts := (List.range 6).map cart }
    twin := { s.twin with role := b2n o.twinHolds } }
  let s2 := (s1.bootStep 10).trainPorts o.portsUp o.lambdas
  let s3 := match o.cxl with
    | some l => if linkOk l.1 l.2 then s2.trainCxl l.1 l.2 else s2
    | none => s2
  ((s3.bootStep 11).loadBootDraft).join o.marker

/-- The pattern sets of Table 12-5 that a checker takes, in order, as (count, expected answer): over the 608 bits of a codeword for the 24
stack checkers, and, without the address set, over the 2,048 bits of a frame for the 16 die-link endpoints. -/
def checkSets (checker : Nat) : List (Nat × CheckOut) :=
  if checker < 24 then [(4, .pass), (608, .detect), (2432, .detect), (577, .detect), (4, .detect), (1, .poison)]
  else [(4, .pass), (2048, .detect), (8192, .detect), (2017, .detect), (1, .poison)]

/-- What the pattern at a place of the sets must be answered with; none past the last. -/
def expectedOf : List (Nat × CheckOut) → Nat → Option CheckOut
  | [], _ => none
  | (n, o) :: l, p => if p < n then some o else expectedOf l (p - n)

/-- The first of the 40 checkers to answer a pattern of its sets otherwise than Table 12-5 expects (R375). -/
def failingChecker (answers : List (Nat × Nat × CheckOut)) : Option Nat :=
  (List.range 40).find? fun k => answers.any fun e => e.1 = k && (expectedOf (checkSets k) e.2.1).elim false (· ≠ e.2.2)

/-- Steps 4 to 9 of a cold start, with a set chosen. -/
def State.coldSteps (s : State) (o : ColdObs) (set : Nat) : State :=
  let img := s.imageSet set
  if !o.pufOk then (s.bootStep 4).bootHalt 0x0C05
  else
    let s5 := { (s.bootStep 5) with fw := (s.bootStep 5).fw.of img }
    if !([1, 2, 3].all fun t => hashOk img t) then s5.bootFail 0x0C03
    else if !compatOk img then (s5.bootStep 6).bootHalt 0x0C01
    else if o.hbmFail.isSome then (s5.bootStep 7).bootHalt 0x0C06
    else
      let s7 := { s5 with flash := { s5.flash with trainRec := List.range 24 } }
      if o.bistFail.isSome then (s7.bootStep 8).bootHalt 0x0C07
      else
        match failingChecker o.answers with
        | some k =>
          ({ s7 with integ := { s7.integ with stFailed := true, stDone := true, stChecker := k } }.bootStep 9).bootHalt 0x0C02
        | none =>
          let s9 := { (s7.bootStep 9) with integ := { s7.integ with stDone := true } }
          let v := s9.setting 0x0001
          if addressOk v then
            s9.coldLinks o (unpackAddr (fieldAt v 0 2)) ((List.range 4).map fun i => byteAt v (2 + i))
          else s9.bootHalt 0x0C0C

/-- The state in which a cold start begins: reset, with flash, power and the queue as they are (Table 17-7). -/
def State.coldBase (s : State) (straps : Nat) : State :=
  { State.reset with
    pending := s.pending, out := s.out, freeCtr := s.freeCtr
    flash := { s.flash with writing := false, copying := false, pendDraft := none, pendKey := none, staged := [] }
    power := { s.power with on := true }
    proto := { State.reset.proto with straps := straps }
    fw := { State.reset.fw with coldBoot := true } }

/-- COLD_START (R477 to R482): the steps of Table 17-5, up to the first that stops it. -/
def execColdStart (obs : ColdObs) (s : State) : Res :=
  if s.glb.state ≠ .cold then .next s else
  let s0 := s.coldBase obs.straps
  let s1 := if s.draft.state.staged then s0.draftEvent 5 else s0
  if !obs.railsOk then .next (s1.pwrReport 0x0E07 0)
  else
    let s2 := { s1 with power := { s1.power with rails := true } }
    if !obs.flashOk then .next { s2 with glb := { s2.glb with bootCode := 0x0C0E } }
    else
      let r := (s2.setBootRec fun b => (b.set 2 0).set 3 2).selectSet 3
      match r.2 with
      | none => .next r.1
      | some set => .next (r.1.coldSteps obs set)

/-- BOOT_STEP_TIMEOUT (R477, R479): step 1 is power sequencing; steps 7 to 9 stop the start; the others are failed starts. -/
def execBootStepTimeout (step : Nat) (s : State) : Res :=
  if s.glb.state ≠ .cold then .next s
  else if step = 1 then .next (s.pwrReport 0x0E07 0)
  else if 7 ≤ step && step ≤ 9 then .next ((s.bootStep step).bootHalt 0x0C08)
  else if (2 ≤ step && step ≤ 6) || step = 11 then .next ((s.bootStep step).bootFail 0x0C08)
  else .next s

/-- OPTICAL_TRAINING_LIMIT (R477, R480): ports that are not `UP` are `FAILED`, and the start goes on. -/
def execOpticalTrainingLimit (s : State) : Res :=
  if s.glb.state ≠ .cold then .next s else
  let stop := fun (k : Port) =>
    if k.state = .train || k.state = .identify || k.state = .measure then { k with state := PortState.failed } else k
  .next { s with opt := { s.opt with ports := s.opt.ports.map stop } }

/-- An accepted order as a warm start re-issues it (R484): one that has completed stays as it is, published or not (R66; log entry
6); the completion of another carries `REISSUED`, and a `RUN` starts over from its list. -/
def OrderSt.reissue (o : OrderSt) : OrderSt :=
  if o.status.isSome then o
  else if o.opcode = 0x10 then { o with reissued := true, applied := false, tasks := [] }
  else { o with reissued := true }

/-- What a warm start rebuilds (R484, Table 17-7): contexts without live state, orders re-issued, engines and on-chip storage empty,
region caches written back. -/
def Core.warmed (c : Core) : Core :=
  let ctx := fun (k : Ctx) =>
    let st := if k.state = .holding || k.state = .saving then CtxState.idle else k.state
    { k with state := st, live := [], saved := none, restart := false, restoring := false }
  { c with
    ctxs := c.ctxs.map ctx
    slots := c.slots.map fun sl => { sl with holder := none, run := 0, chosen := none }
    orders := c.orders.map OrderSt.reissue
    faults := [], pm := {}, shuttle := [], shHeld := [], need := [], waits := [], stores := []
    chans := c.chans.map fun ch => { ch.closed with hdr := [], held := [], noticed := [] }
    onchip := { c.onchip with
      sram := [], acc := [], zero := List.range 512, frames := []
      t1 := c.onchip.t1.map fun l => l.map fun x => { x with dirty := 0, written := false } } }

/-- The rest of a warm start whose rows all ended in time. -/
def State.warmSteps (s : State) (o : WarmObs) : State :=
  let img := s.flash.setA
  let fw := if s.fw.activate then { (s.fw.of img) with genHash := s.fw.genHash, set := 0, activate := false } else s.fw
  let c := s.core.warmed
  let s1 := { s with
    fw := fw, core := c, committed := c
    glb := { s.glb with lastReset := 1 }
    memr := { s.memr with select := 0 }
    pick := { s.pick with warm := true }
    mgt := { s.mgt with
      reqLen := 0, reqTag := 0, reqOp := 0, reqData := List.replicate 4096 0, harnessNow := [], harnessDue := [] }
    twin := { s.twin with beat := 0, copyDone := false }
    draft := { s.draft with
      from_ := if s.draft.state = DraftState.loading then s.draft.stageAddr else s.draft.from_
      len := if s.draft.state = DraftState.loading then s.draft.stageLen else s.draft.len } }
  let s2 := (s1.setBootRec fun b => b.set 2 1).warmDraft
  if o.holdsTwin then s2.halt 0x0C0A
  else
    let role := if s2.keepsTwin then 2 else s2.twin.role
    ({ s2 with twin := { s2.twin with role := role } }).join o.marker

/-- WARM_START (R483 to R486), after the quiesce. -/
def execWarmStart (obs : WarmObs) (s : State) : Res :=
  if s.glb.state ≠ .warm then .next s
  else if !obs.inTime || !obs.trainingOk || !obs.reserveOk || !obs.faultFree then .next s.warmFail
  else if s.fw.activate && s.verifySet s.flash.setA ≠ 0 then .next s.warmFail
  else .next (s.warmSteps obs)

/-- HARNESS_WRITEBACK_DONE (R487): admission on the harness's regions resumes. -/
def execHarnessWritebackDone (h : Nat) (s : State) : Res :=
  .next { s with mgt := { s.mgt with harnessDue := s.mgt.harnessDue.filter (· ≠ h) } }

end Sys2Proof.Machine
end

