-- ==== Sys2Proof/Machine/Registers.lean ====
section
/-! DEFINITION. Sys2Proof/Machine/Registers.lean: BAR0 (R7 to R9, R429, R430, Table 15-5): what each register reads, and what a write
to it does, field by field and by its access code. -/

namespace Sys2Proof.Machine

/-- The entry of a register array at an offset: `n` entries, `stride` apart, from `base`. -/
def regIndex (off base stride n : Nat) : Option Nat :=
  if base ≤ off ∧ (off - base) % stride = 0 ∧ (off - base) / stride < n then some ((off - base) / stride) else none

/-- The `GLB` block. -/
def State.glbReg (s : State) (off : Nat) : Option Nat :=
  let g := s.glb
  match off with
  | 0x00 => some (place 0x1152 48 + place Config.stepping 40 + 0x11520A48)
  | 0x08 => some (place g.bootCode 48 + place g.lastReset 4 + g.state.code)
  | 0x10 =>
    let l := fun i => g.lens.getD i 0
    some (place (nodeIndex g.lens g.address) 32 + place s.myAddr 20 + place (l 0) 12 + place (l 1) 8 + place (l 2) 4 + l 3)
  | 0x18 => some (place g.recoveries 24 + place (b2n g.skid) 18 + place (b2n g.ideCm) 17 + place (b2n g.ideIo) 16
      + place (if g.l0p then 2 else g.width) 8 + place g.rate 6 + place (b2n g.l0p) 2 + place (b2n g.up) 1)
  | 0x20 => some (place (b2n g.ideRequired) 16 + g.limitMs)
  | 0x28 => some (place g.hdmSize 1 + b2n g.hdmOn)
  | 0x30 => some g.event
  | 0x38 => some g.irqEnable
  | _ =>
    match regIndex off 0x100 8 8, regIndex off 0x1000 16 256, regIndex off 0x1008 16 256 with
    | some k, _, _ => let u := g.uio.getD k (0, 0, false); some (place u.1 42 + place u.2.1 20 + b2n u.2.2)
    | _, some i, _ => some (g.aperReg.getD i (0, 0)).1
    | _, _, some i => some (g.aperReg.getD i (0, 0)).2
    | _, _, _ => none

/-- The `PICK` block. -/
def State.pickReg (s : State) (off : Nat) : Option Nat :=
  let p := s.pick
  match off with
  | 0x00 => some p.counter
  | 0x08 => some (place (10000 * p.period10) 32 + 1000 * p.windowUs)
  | 0x10 => some (place (10000 * p.pd10) 32 + place (1000 * p.wd) 16 + b2n p.differs)
  | 0x18 => some (place p.late 32 + toI32 p.offsetPs)
  | 0x20 => some (place (b2n p.self) 63 + place (p.leader.getD 0) 20)
  | 0x28 => some (place (10000 * p.request10) 32 + place p.step 6 + place p.plan 4 + b2n (decide (p.pd10 < p.period10)))
  | 0x30 => some p.event
  | _ => none

/-- The `DRAFT` block. -/
def State.draftReg (s : State) (off : Nat) : Option Nat :=
  let d := s.draft
  match off with
  | 0x00 => some d.stageAddr
  | 0x08 => some d.stageLen
  | 0x10 => some 0
  | 0x18 => some d.applyBeat
  | 0x20 => some (place d.checkCode 48 + place d.missReason 40 + d.state.code)
  | 0x28 => some d.stagedId
  | 0x30 => some d.activeId
  | 0x38 => some d.activeBeat
  | 0x40 => some (place d.whereSec 32 + d.whereOff)
  | 0x48 => some d.event
  | _ => none

/-- The `ORD` block. -/
def State.ordReg (s : State) (off : Nat) : Option Nat :=
  if off = 0 then some s.core.inflight else
  match regIndex off 0x1000 8 256 with
  | none => none
  | some k =>
    let r := s.ord.regs.getD (k / 4) {}
    let c := s.core.rings.getD (k / 4) {}
    match k % 4 with
    | 0 => some r.base
    | 1 => some r.records
    | 2 => some (place r.client 8 + place r.sizeLog2 3 + b2n r.enable)
    | _ => some (place c.error 48 + place (b2n c.draining) 1 + b2n c.running)

/-- The `JNL` block. -/
def State.jnlReg (s : State) (off : Nat) : Option Nat :=
  match off with
  | 0x00 => some s.ord.sealed
  | 0x08 => some (place (b2n s.ord.solo) 16 + s.core.held.length)
  | 0x10 => some s.ord.lastSeal
  | _ => none

/-- The `CTX` block. -/
def State.ctxReg (s : State) (off : Nat) : Option Nat :=
  (regIndex off 0x1000 8 64).map fun i =>
    let x := s.core.ctx i
    place x.fault 48 + place x.client 40 + place x.slot 32 + place x.inc 24 + place x.cls 20 + x.state.code

/-- The `SHARE` block. -/
def State.shareReg (s : State) (off : Nat) : Option Nat :=
  match regIndex off 0 8 16, regIndex off 0x1000 8 256 with
  | some k, _ => some (s.core.shareTime.getD k 0)
  | _, some c => some (place (s.core.draft.elim 0 fun d => d.jobLimits.getD c 0) 16 + s.core.jobs c)
  | _, _ => none

/-- The encoding of REED_CHAN.STATE. -/
def ChanState.code : ChanState → Nat
  | .idle => 0 | .header => 1 | .counts => 2 | .data => 3 | .interrupted => 4

/-- Channels 0 to 31 with a property, as bits. -/
def chanBits (l : List Chan) (f : Chan → Bool) : Nat :=
  ((l.take 32).zipIdx.map fun p => place (b2n (f p.1)) p.2).sum

/-- The `REED` block. -/
def State.reedReg (s : State) (off : Nat) : Option Nat :=
  let r := s.reed
  match off with
  | 0x00 => some r.lossWait
  | 0x08 => some (place (chanBits s.core.chans fun k => k.state ≠ .idle) 32 + chanBits s.core.chans fun k => !k.held.isEmpty)
  | 0x10 => some (place r.lossAddr 36 + r.lossKind)
  | 0x18 => some r.lossBeat
  | 0x20 => some r.epochBeat
  | 0x28 => some r.event
  | _ =>
    match regIndex off 0x1000 8 32, regIndex off 0x2000 8 256 with
    | some c, _ =>
      let k := s.core.chans.getD c {}
      some (place k.inst 32 + place k.state.code 28 + place (k.bound.getD 0) 22 + place (b2n k.bound.isSome) 21 + k.group)
    | _, some g =>
      match s.core.group g with
      | none => some 0
      | some k => some (place k.epoch 32 + place k.members.length 8 + place (b2n k.dropped) 1 + b2n (k.members.contains s.myAddr))
    | _, _ => none

/-- The version of a shard as it reads (R257). -/
def Obj.versionReg (o : Obj) : Nat := o.versionNow

/-- T2 bytes of an object at stored size (R322). -/
def Obj.t2Bytes (o : Obj) : Nat :=
  (o.homes.filter fun h => match h with | .t2 _ => true | .t3 .. => false).length * storedBlock o.coding o.format

/-- The `MEM` block: objects and use as committed at the last completed beat. -/
def State.memReg (s : State) (off : Nat) : Option Nat :=
  let c := s.committed
  let o := c.obj s.memr.select
  match off with
  | 0x00 => some (c.draft.elim 0 fun d => b2n d.fast)
  | 0x08 => some c.objs.length
  | 0x10 => some s.memr.event
  | 0x18 => some c.moves.length
  | 0x40 => some s.memr.select
  | 0x48 => some (o.elim 0 fun k => place k.id 32 + place k.cls 29 + place (b2n k.single) 28 + place k.coding 26 + place 1 25
      + place k.affinity 21 + place k.ctx 15)
  | 0x50 => some (o.elim 0 fun k =>
      let n := (k.homes.filter fun h => match h with | .t2 _ => true | .t3 .. => false).length
      place n 32 + (k.homes.length - n))
  | 0x58 => some (o.elim 0 Obj.versionReg)
  | _ =>
    match regIndex off 0x100 8 24, regIndex off 0x1000 16 16, regIndex off 0x1008 16 16 with
    | some st, _, _ => some (c.pm.free.getD st 0)
    | _, some h, _ =>
      let used := (c.objs.map fun p => if p.2.harness = h then ceilDiv p.2.t2Bytes 1024 else 0).sum
      some (place (c.draft.elim 0 fun d => (d.tier h).quotaMib * 2 ^ 10) 32 + used)
    | _, _, some h =>
      let used := ((t3Ranges c.objs h).map Prod.snd).sum
      some (place (c.draft.elim 0 fun d => (d.tier h).t3Size / 2 ^ 20) 32 + ceilDiv used (2 ^ 20))
    | _, _, _ => none

/-- The `INTEG` block. -/
def State.integReg (s : State) (off : Nat) : Option Nat :=
  let g := s.integ
  match off with
  | 0x00 => some g.rate
  | 0x08 => some (place g.passes 32 + g.lastS)
  | 0x10 => some g.detect
  | 0x18 => some (place g.twin 32 + g.recompute)
  | 0x20 => some g.poison
  | 0x28 => some (place (b2n g.stFailed) 7 + place (b2n g.stDone) 6 + g.stChecker)
  | 0x30 => some g.event
  | 0x800 => some g.logCount
  | _ =>
    match regIndex off 0x100 8 24, regIndex off 0x200 8 8, regIndex off 0x1000 8 512 with
    | some st, _, _ => some (place (g.stackDet.getD st 0) 32 + g.onDie.getD st 0)
    | _, some l, _ => some (g.link.getD l 0)
    | _, _, some k =>
      match getKey g.log (k / 2) with
      | none => some 0
      | some e =>
        if k % 2 = 0 then some (place e.outcome 60 + place e.source 56 + place e.tag 40 + place e.stack 30 + e.sector)
        else some e.beat
    | _, _, _ => none

/-- The `TWIN` block. -/
def State.twinReg (s : State) (off : Nat) : Option Nat :=
  let t := s.twin
  match off with
  | 0x00 => some (place t.pairFail 8 + place (b2n t.replacing) 7 + place (b2n t.suspect) 6 + place (b2n (s.selvedgeUp 1)) 5
      + place (b2n (s.selvedgeUp 0)) 4 + t.state.code)
  | 0x08 => some 0
  | 0x10 => some t.beat
  | 0x18 => some t.holdMs
  | 0x20 => some t.mirror.last
  | 0x28 => some t.lastDigest
  | 0x30 =>
    let queued := (t.mirror.items.filter fun i => t.mirror.released.contains (itemJno i)).length
    some (place queued 32 + t.own.items.length)
  | 0x38 => some t.drainAddr
  | 0x40 => some t.drainLen
  | 0x48 => some (place (t.drainBytes / 64) 2 + t.drainState)
  | 0x50 => some t.event
  | _ =>
    match regIndex off 0x1000 8 64, regIndex off 0x1400 8 64 with
    | some i, _ => some ((t.ctxMap.getD i none).elim 0 fun h => 2 ^ 16 + h)
    | _, some j => some (place (b2n (t.adopt.getD j none).isSome) 7 + t.adoptNo.getD j 0)
    | _, _ => none

/-- The `OPT` block. -/
def State.optReg (s : State) (off : Nat) : Option Nat :=
  let o := s.opt
  match off with
  | 0x300 => some (place s.activeCarts 24 + (o.carts.zipIdx.map fun p => place p.1.code (4 * p.2)).sum)
  | 0x308 => some 0
  | 0x310 => some (o.detour.elim 0 fun a => 2 ^ 15 + a)
  | 0x318 => some o.event
  | _ =>
    match regIndex off 0 8 18, regIndex off 0x100 8 18, regIndex off 0x200 8 18 with
    | some p, _, _ =>
      let k := s.port p
      some (place k.lastFault 48 + place k.neighbor 36 + place k.nbPort 31 + place k.lanes 4 + k.state.code)
    | _, some p, _ => some (place (s.port p).resends 32 + (s.port p).fecFixed)
    | _, _, some p => some (s.port p).latency
    | _, _, _ => none

/-- The `MGT` block. -/
def State.mgtReg (s : State) (off : Nat) : Option Nat :=
  let m := s.mgt
  match off with
  | 0x00 => some (place m.reqLen 32 + place m.reqTag 16 + m.reqOp)
  | 0x08 => some 0
  | 0x10 => some (place m.detail 48 + place m.respLen 32 + place m.tag 16 + place m.result 8 + m.status)
  | 0x18 => some m.respBeat
  | 0x20 => some (place m.limitW 48 + place m.inputW 32 + place m.cause 5 + place m.cap 3 + place m.target 1
      + b2n (decide (m.cap < s.pick.step)))
  | 0x28 => some m.event
  | _ =>
    match regIndex off 0x1000 8 512, regIndex off 0x2000 8 512 with
    | some k, _ => some (fieldAt m.reqData (8 * k) 8)
    | _, some k => some (fieldAt m.respData (8 * k) 8)
    | _, _ => none

/-- The `FLOG` block. -/
def State.flogReg (s : State) (off : Nat) : Option Nat :=
  if off = 0 then some s.flog.count else
  (regIndex off 0x1000 8 1024).map fun k =>
    match getKey s.flog.entries (k / 4) with
    | none => 0
    | some e =>
      match k % 4 with
      | 0 => place e.code 48 + place e.ctx 32 + place e.cu 14 + place e.ring 7 + b2n e.subsumed
      | 1 => e.pick
      | 2 => e.seq
      | _ => e.detail

/-- The 64-bit register at an offset of the blocks `GLB` to `FLOG`, if one is defined there (Table 15-5). -/
def State.blockReg (s : State) (off : Nat) : Option Nat :=
  let o := off % 0x10000
  match off / 0x10000 with
  | 0x00 => s.glbReg o
  | 0x01 => s.pickReg o
  | 0x02 => s.draftReg o
  | 0x03 => s.ordReg o
  | 0x04 => s.jnlReg o
  | 0x05 => s.ctxReg o
  | 0x06 => s.shareReg o
  | 0x08 => s.reedReg o
  | 0x0A => s.memReg o
  | 0x0C => s.integReg o
  | 0x0D => s.twinReg o
  | 0x0E => s.optReg o
  | 0x0F => s.mgtReg o
  | 0x10 => s.flogReg o
  | _ => none

/-- The MSI-X table and the pending bits (Table 15-5), in the layout of the PCI specification (PRESUMED): four words for each vector,
bit 0 of the last masking it. -/
def State.msixReg (s : State) (off : Nat) : Option Nat :=
  if 0xF00000 ≤ off && off < 0xF01000 then
    let k := (off - 0xF00000) / 8
    some (if 10 ≤ k then 0
      else if k % 2 = 0 then s.glb.msixTable.getD k 0
      else s.glb.msixTable.getD k 0 + place (b2n (s.glb.msixMask.getD (k / 2) true)) 32)
  else if 0xF80000 ≤ off && off < 0xF81000 then
    some (if off / 8 * 8 = 0xF80000 then (s.glb.msixPend.zipIdx.map fun p => place (b2n p.1) p.2).sum else 0)
  else none

/-- An image with the covered bits replaced. -/
def mergeReg (old m v : Nat) : Nat := Nat.lor (old - Nat.land old m) (Nat.land v m)

/-- The CXL component registers (Table 15-5). -/
def componentReg (off : Nat) : Bool := 0xE00000 ≤ off && off < 0xE10000

/-- A component register, whose contents the spec leaves to CXL 3.1: a free value at reset and after each write (log entry 200). -/
def State.compReg (s : State) (off : Nat) : Option Nat :=
  if componentReg off then some ((getKey s.glb.comp off).getD (Config.componentReset off % 2 ^ 64)) else none

/-- A write to a component register. -/
def State.writeComp (s : State) (off m v : Nat) : State :=
  let old := (s.compReg off).getD 0
  { s with glb := { s.glb with comp := putKey s.glb.comp off (Config.componentWrite off old (mergeReg old m v) % 2 ^ 64) } }

/-- `FLOG` answers in management-only state too, where the module stopped there by a quiesce (R533; log entry 197). -/
def State.keepsFlog (s : State) : Bool := s.glb.state = .mgmtOnly && !s.glb.ready && s.ord.quiesced.isSome

/-- An offset's block answers in the module's state (R430). -/
def State.answers (s : State) (off : Nat) : Bool :=
  s.operational || off / 0x10000 = 0 || (off / 0x10000 = 0x10 && s.keepsFlog) || off / 0x10000 = 0x0F || componentReg off || (s.msixReg off).isSome

/-- A BAR0 read of an aligned 64-bit word as it answers: all ones where the block does not (R430), none in a reserved range. -/
def State.readReg (s : State) (off : Nat) : Option Nat :=
  if !s.answers off then some (2 ^ 64 - 1) else (s.blockReg off).or ((s.msixReg off).or (s.compReg off))

/-- An access is bad (R429): of another size, unaligned, or in a reserved range. -/
def State.badAccess (s : State) (off size : Nat) : Bool :=
  (size ≠ 4 && size ≠ 8) || off % size ≠ 0
    || (!componentReg off && (s.blockReg (off / 8 * 8)).isNone && (s.msixReg off).isNone)

/-- The bits of the 64-bit register that an access covers (R429). -/
def laneMask (off size : Nat) : Nat :=
  if size = 8 then 2 ^ 64 - 1 else if off % 8 = 0 then 2 ^ 32 - 1 else 2 ^ 64 - 2 ^ 32

/-- The value written, in its lanes. -/
def laneValue (off size v : Nat) : Nat :=
  if size = 8 then v % 2 ^ 64 else if off % 8 = 0 then v % 2 ^ 32 else v % 2 ^ 32 * 2 ^ 32

/-- W1C (Table 0-2): each 1 written clears its bit. -/
def clearBits (old v : Nat) : Nat := old - Nat.land old v

/-- `ORD_RING_CTRL.ENABLE` written 1 (R535): a rise clears `ERROR`; sampling begins at a beat. -/
def State.ringOn (s : State) (ring : Nat) : State :=
  if 64 ≤ ring || (s.ord.regs.getD ring {}).enable then s
  else { s with
    ord := { s.ord with regs := modifyAt s.ord.regs ring fun r => { r with enable := true } }
    core := { s.core with rings := modifyAt s.core.rings ring fun r => { r with error := 0 } }
    committed := { s.committed with rings := modifyAt s.committed.rings ring fun r => { r with error := 0 } } }

/-- `ORD_RING_CTRL.ENABLE` written 0 (R535): sampling stops from the next beat. -/
def State.ringOff (s : State) (ring : Nat) : State :=
  { s with ord := { s.ord with regs := modifyAt s.ord.regs ring fun r => { r with enable := false, stops := r.stops + 1 } } }

/-- A ring's configuration written: `SIZE_LOG2` outside 6 to 16 leaves that field (R9). -/
def State.writeRing (s : State) (k m v : Nat) : State :=
  let ring := k / 4
  let old := (s.ordReg (0x1000 + 8 * k)).getD 0
  let w := mergeReg old m v
  match k % 4 with
  | 0 => { s with ord := { s.ord with regs := modifyAt s.ord.regs ring fun r => { r with base := w / 4096 * 4096 } } }
  | 1 => { s with ord := { s.ord with regs := modifyAt s.ord.regs ring fun r => { r with records := w / 64 * 64 } } }
  | 2 =>
    let size := bits w 7 3
    let s1 := { s with ord := { s.ord with regs := modifyAt s.ord.regs ring fun r =>
      { r with client := bits w 15 8, sizeLog2 := if 6 ≤ size && size ≤ 16 then size else r.sizeLog2 } } }
    if bitOf w 0 then s1.ringOn ring else s1.ringOff ring
  | _ => s

/-- Writes to `GLB`. -/
def State.writeGlb (s : State) (off m v : Nat) : State :=
  let g := s.glb
  let w := mergeReg ((s.glbReg off).getD 0) m v
  match off with
  | 0x20 =>
    let t := { s with glb := { g with ideRequired := bitOf w 16, limitMs := bits w 15 0 } }
    if s.linkUp = t.linkUp then t else s.linkTurn t
  | 0x30 => { s with glb := { g with event := clearBits g.event (Nat.land v m) } }
  | 0x38 => { s with glb := { g with irqEnable := bits w 4 0 } }
  | _ =>
    match regIndex off 0x100 8 8, regIndex off 0x1000 16 256, regIndex off 0x1008 16 256 with
    | some k, _, _ => { s with glb := { g with uio := setAt g.uio k (bits w 63 42, bits w 41 20, bitOf w 0) } }
    | _, some i, _ =>
      { s with glb := { g with aperReg := modifyAt g.aperReg i fun e => (place (bits w 59 40) 40 + bits w 19 0, e.2) } }
    | _, _, some i =>
      { s with glb := { g with aperReg := modifyAt g.aperReg i fun e =>
        (e.1, place (bits w 60 14) 14 + place (b2n (bitOf e.2 1)) 1 + b2n (bitOf w 0)) } }
    | _, _, _ => s

/-- Writes to `DRAFT`. -/
def State.writeDraft (s : State) (off m v : Nat) : State :=
  let d := s.draft
  let w := mergeReg ((s.draftReg off).getD 0) m v
  match off with
  | 0x00 => { s with draft := { d with stageAddr := w / 64 * 64 } }
  | 0x08 => { s with draft := { d with stageLen := bits w 20 0 } }
  | 0x10 =>
    match bits (Nat.land v m) 3 0 with
    | 1 => s.stageCmd
    | 2 => s.armCmd
    | 3 => s.disarmCmd
    | 4 => s.discardCmd
    | _ => s
  | 0x18 => { s with draft := { d with applyBeat := w } }
  | 0x48 => { s with draft := { d with event := clearBits d.event (Nat.land v m) } }
  | _ => s

/-- Writes to `TWIN`. -/
def State.writeTwin (s : State) (off m v : Nat) : State :=
  let t := s.twin
  let w := mergeReg ((s.twinReg off).getD 0) m v
  match off with
  | 0x08 =>
    match bits (Nat.land v m) 3 0 with
    | 1 => s.pairCmd
    | 2 => s.absorbCmd
    | 3 => s.handbackCmd
    | 4 => s.detachCmd
    | 5 => s.compareCmd
    | 6 => s.drainCmd
    | _ => s
  | 0x10 => { s with twin := { t with beat := w } }
  | 0x18 => { s with twin := { t with holdMs := bits w 15 0 } }
  | 0x38 => { s with twin := { t with drainAddr := w / 64 * 64 } }
  | 0x40 => { s with twin := { t with drainLen := w } }
  | 0x50 => { s with twin := { t with event := clearBits t.event (Nat.land v m) } }
  | _ =>
    match regIndex off 0x1400 8 64 with
    | some j => { s with twin := { t with
        adopt := setAt t.adopt j (if bitOf w 7 then some (bits w 5 0) else none), adoptNo := setAt t.adoptNo j (bits w 5 0) } }
    | none => s

/-- Writes to `OPT`. -/
def State.writeOpt (s : State) (off m v : Nat) : State :=
  let w := Nat.land v m
  match off with
  | 0x308 =>
    let p := bits w 12 8
    match bits w 3 0 with
    | 1 => s.retrainCmd p
    | 2 => s.disableCmd p
    | 3 => s.enableCmd p
    | _ => s
  | 0x318 => { s with opt := { s.opt with event := clearBits s.opt.event w } }
  | _ => s

/-- The opcodes of Table 18-4. -/
def mailboxOps : List Nat :=
  [0x01, 0x02, 0x03, 0x04, 0x10, 0x11, 0x12, 0x13, 0x14, 0x15, 0x20, 0x21, 0x30, 0x31, 0x32, 0x33, 0x40, 0x41]

/-- Writes to `MGT`: a reserved opcode leaves its field as it was (R9; log entry 146). -/
def State.writeMgt (s : State) (off m v : Nat) : State :=
  let g := s.mgt
  let w := mergeReg ((s.mgtReg off).getD 0) m v
  match off with
  | 0x00 => { s with mgt := { g with reqLen := bits w 44 32, reqTag := bits w 31 16, reqOp := if mailboxOps.contains (bits w 7 0) then bits w 7 0 else g.reqOp } }
  | 0x08 => if bitOf (Nat.land v m) 0 then s.mailboxGo else s
  | 0x28 => { s with mgt := { g with event := clearBits g.event (Nat.land v m) } }
  | _ =>
    match regIndex off 0x1000 8 512 with
    | some k => { s with mgt := { g with reqData := g.reqData.take (8 * k) ++ leBytes 8 w ++ g.reqData.drop (8 * k + 8) } }
    | none => s

/-- Writes to the blocks `GLB` to `FLOG`; a register without a writable field ignores them (R7). -/
def State.writeBlock (s : State) (off m v : Nat) : State :=
  let o := off % 0x10000
  let w1c := Nat.land v m
  match off / 0x10000 with
  | 0x00 => s.writeGlb o m v
  | 0x01 => if o = 0x30 then { s with pick := { s.pick with event := clearBits s.pick.event w1c } } else s
  | 0x02 => s.writeDraft o m v
  | 0x03 => (regIndex o 0x1000 8 256).elim s fun k => s.writeRing k m v
  | 0x08 =>
    if o = 0 then { s with reed := { s.reed with lossWait := bits (mergeReg s.reed.lossWait m v) 15 0 } }
    else if o = 0x28 then { s with reed := { s.reed with event := clearBits s.reed.event w1c } }
    else s
  | 0x0A =>
    if o = 0x10 then { s with memr := { s.memr with event := clearBits s.memr.event w1c } }
    else if o = 0x40 then { s with memr := { s.memr with select := bits (mergeReg s.memr.select m v) 19 0 } }
    else s
  | 0x0C => if o = 0x30 then { s with integ := { s.integ with event := clearBits s.integ.event w1c } } else s
  | 0x0D => s.writeTwin o m v
  | 0x0E => s.writeOpt o m v
  | 0x0F => s.writeMgt o m v
  | _ => s

/-- A write to the MSI-X table (PRESUMED, as above): unmasking a vector whose message is pending sends it. -/
def State.writeMsix (s : State) (off m v : Nat) : State :=
  let k := (off - 0xF00000) / 8
  if off < 0xF00000 || 0xF01000 ≤ off || 10 ≤ k then s
  else
    let w := mergeReg ((s.msixReg off).getD 0) m v
    let g := s.glb
    if k % 2 = 0 then { s with glb := { g with msixTable := setAt g.msixTable k (w / 4 * 4) } }
    else
      let s1 := { s with glb := { g with
        msixTable := setAt g.msixTable k (bits w 31 0), msixMask := setAt g.msixMask (k / 2) (bitOf w 32) } }
      if !bitOf w 32 && g.msixPend.getD (k / 2) false then
        ({ s1 with glb := { s1.glb with msixPend := setAt s1.glb.msixPend (k / 2) false } }).interrupt (k / 2)
      else s1

/-- A bad access of R429: it reads 0 or is ignored, and REG_ACCESS is set. -/
def State.refuseAccess (s : State) : State := s.glbEvent 3

/-- REGISTER_WRITE (R7 to R9, R429, R430). What a write to a CXL component register leaves in it is a free value. -/
def execRegisterWrite (off size : Nat) (v : Word) (s : State) : Res :=
  if !s.answers off then .next s
  else if s.badAccess off size then .next s.refuseAccess
  else
    let w := off / 8 * 8
    let m := laneMask off size
    let x := laneValue off size v.toNat
    .next (if componentReg off then s.writeComp w m x else if (s.msixReg w).isSome then s.writeMsix w m x else s.writeBlock w m x)

/-- BAR0_BAD_ACCESS (R429, R430): a read answers 0, or all ones in a block that does not answer. -/
def execBar0BadAccess (write : Bool) (off size : Nat) (s : State) : Res :=
  if !s.answers off then .next (if write then s else s.emit (.readData (2 ^ 64 - 1)))
  else if !s.badAccess off size then .next s
  else .next ((if write then s else s.emit (.readData 0)).refuseAccess)

/-- RING_ENABLE (R535). -/
def execRingEnable (ring : Nat) (s : State) : Res := if s.operational then .next (s.ringOn ring) else .next s

/-- RING_DISABLE (R535). -/
def execRingDisable (ring : Nat) (s : State) : Res := if s.operational then .next (s.ringOff ring) else .next s

end Sys2Proof.Machine
end

