-- ==== Sys2Proof/Machine/Singles.lean ====
section
/-! DEFINITION. Sys2Proof/Machine/Singles.lean: the rows of single orders and of background work that ends: each order's own step of
CONFIG_APPLY, or of COMMIT_STEP for a context reset, taken by itself. -/

namespace Sys2Proof.Machine

/-- One accepted order is validated and applied at W − 3.0 µs, when its turn has come; out of turn it waits for CONFIG_APPLY. -/
def State.orderRow (s : State) (j op : Nat) : State :=
  match s.core.order j with
  | some o => if s.atConfig && o.opcode = op && s.inTurn o then s.dueOrder o else s
  | none => s

/-- Another key-value order of the context waits or is new, so that a beat takes them together, in the order of Table 8-7. -/
def Core.kvBusy (c : Core) (o : OrderSt) : Bool :=
  c.orders.any fun p => p.jno ≠ o.jno && p.ctx = o.ctx && 0x30 ≤ p.opcode && p.opcode ≤ 0x36 && p.status.isNone

/-- One accepted key-value order, the only one of its context, is validated and tried at W − 3.0 µs, when its turn has come and the beat
has not tried it yet; otherwise it waits for CONFIG_APPLY (R237). -/
def State.kvRow (s : State) (j op : Nat) : State :=
  match s.core.order j with
  | some o =>
    if s.atConfig && !s.passesOver o && s.inTurn o && !s.core.kvBusy o && o.lastTry ≠ some s.pick.counter then s.applyKv j op else s
  | none => s

/-- NOP. -/
def execNop (jno : Nat) (s : State) : Res := .next (s.orderRow jno 0x00)

/-- CTX_CREATE (R119 to R122). -/
def execCtxCreate (jno : Nat) (s : State) : Res := .next (s.orderRow jno 0x01)

/-- CTX_DESTROY (R123). -/
def execCtxDestroy (jno : Nat) (s : State) : Res := .next (s.orderRow jno 0x02)

/-- CTX_RESET (R488), at the commit step. -/
def execCtxReset (jno : Nat) (s : State) : Res :=
  if s.operational && s.pick.phase = .latched then .next (s.ctxResetOrder jno) else .next s

/-- RUN (R124). -/
def execRun (jno : Nat) (s : State) : Res := .next (s.orderRow jno 0x10)

/-- OBJ_CREATE (R318 to R323, R337). -/
def execObjCreate (jno : Nat) (s : State) : Res := .next (s.orderRow jno 0x20)

/-- OBJ_DESTROY (R325). -/
def execObjDestroy (jno : Nat) (s : State) : Res := .next (s.orderRow jno 0x21)

/-- OBJ_HINT (R338). -/
def execObjHint (jno : Nat) (s : State) : Res := .next (s.orderRow jno 0x22)

/-- OBJ_LOAD (R326). -/
def execObjLoad (jno : Nat) (s : State) : Res := .next (s.orderRow jno 0x23)

/-- OBJ_STORE (R326). -/
def execObjStore (jno : Nat) (s : State) : Res := .next (s.orderRow jno 0x24)

/-- KV_POOL_CREATE (R225, R226). -/
def execKvPoolCreate (jno : Nat) (s : State) : Res := .next (s.orderRow jno 0x30)

/-- KV_POOL_DESTROY (R247). -/
def execKvPoolDestroy (jno : Nat) (s : State) : Res := .next (s.kvRow jno 0x31)

/-- KV_JOIN (R233, R242). -/
def execKvJoin (jno : Nat) (s : State) : Res := .next (s.kvRow jno 0x32)

/-- KV_FORK (R238). -/
def execKvFork (jno : Nat) (s : State) : Res := .next (s.kvRow jno 0x33)

/-- KV_GROW (R238, R244). -/
def execKvGrow (jno : Nat) (s : State) : Res := .next (s.kvRow jno 0x34)

/-- KV_LEAVE (R246). -/
def execKvLeave (jno : Nat) (s : State) : Res := .next (s.kvRow jno 0x35)

/-- KV_PUBLISH (R234). -/
def execKvPublish (jno : Nat) (s : State) : Res := .next (s.kvRow jno 0x36)

/-- KV_ADMIT_STARVED (R245), at W − 3.0 µs. -/
def execKvAdmitStarved (jno : Nat) (s : State) : Res :=
  match s.core.order jno with
  | some o => if s.atConfig then .next (s.kvStarve o) else .next s
  | none => .next s

/-- KV_EXHAUSTED (R245), in the pick after the last try. -/
def execKvExhausted (jno : Nat) (s : State) : Res :=
  match s.core.order jno with
  | some o => if s.inSpan then .next (s.kvExhaust o) else .next s
  | none => .next s

/-- LIVE_STATE_SAVE_DONE (R75, Table 4-7): a preempted context is saved. -/
def execLiveStateSaveDone (ctx : Nat) (s : State) : Res :=
  if s.operational && (s.core.ctx ctx).state = .saving then
    .next (s.withCore fun c => c.setCtx ctx fun k => { k with state := if k.destroy then .destroying else .idle })
  else .next s

/-- LIVE_STATE_RESTORE_DONE (R128): a context's saved live state is back on its slot's CUs, once no other is being saved from
them. -/
def execLiveStateRestoreDone (ctx : Nat) (s : State) : Res :=
  let k := s.core.ctx ctx
  let busy := s.core.ctxs.any fun y => y.state = .saving && y.slot = k.slot
  match k.saved with
  | some cells =>
    if !s.operational || !k.restoring || busy then .next s
    else .next (s.withCore fun c =>
      { (c.setCtx ctx fun k => { k with saved := none, restoring := false }) with
        onchip := { c.onchip with sram := putAll c.onchip.sram cells.1, acc := putAll c.onchip.acc cells.2 } })
  | none => .next s

/-- The dirty bits of a line's sectors in a range are cleared: they have reached their homes. -/
def T1Line.clean (l : T1Line) (a n : Nat) : T1Line :=
  let stays := (List.range 16).filter fun i =>
    bitOf l.dirty i && (1024 * l.line + 64 * i + 64 ≤ a || a + n ≤ 1024 * l.line + 64 * i)
  { l with dirty := (stays.map (2 ^ ·)).sum }

/-- RESULT_FLUSH_DONE (R441): an ended order's result range is flushed, and none of its lines is held by the host. -/
def execResultFlushDone (jno : Nat) (s : State) : Res :=
  match s.core.order jno with
  | none => .next s
  | some o =>
    if !s.operational || o.opcode ≠ 0x10 || o.status.isNone || o.arg 0x28 8 = 0 then .next s else
    let held := s.resultLines o
    if !held.isEmpty then .next (s.snoop held) else
    let a := ((s.core.ctxOf o.ctx).elim (o.arg 0x20 8)) fun x => s.core.resolve x (o.arg 0x20 8)
    .next (s.withCore fun c =>
      { (c.setOrder jno fun o => { o with flushed := true }) with
        onchip := { c.onchip with t1 := c.onchip.t1.map fun l => l.map fun e => e.clean a (o.arg 0x28 8) } })

end Sys2Proof.Machine
end

