-- ==== Sys2Proof/Machine/Dispatch.lean ====
section
/-! DEFINITION. Sys2Proof/Machine/Dispatch.lean: the arms of exec, one for each constructor of Instr. -/

namespace Sys2Proof.Machine

def exec (i : Instr) (s : State) : Host.Outcome State Fault Refusal :=
  match i with
  | .beatWindowOpen r => Sys2Proof.Machine.execBeatWindowOpen r s
  | .ringSample host => Sys2Proof.Machine.execRingSample host s
  | .decisionPoint d => Sys2Proof.Machine.execDecisionPoint d s
  | .placementDecide => Sys2Proof.Machine.execPlacementDecide s
  | .sealDeadline confirmed => Sys2Proof.Machine.execSealDeadline confirmed s
  | .configApply => Sys2Proof.Machine.execConfigApply s
  | .clockLatch => Sys2Proof.Machine.execClockLatch s
  | .commitStep => Sys2Proof.Machine.execCommitStep s
  | .pickBegin => Sys2Proof.Machine.execPickBegin s
  | .registerWrite off size v => Sys2Proof.Machine.execRegisterWrite off size v s
  | .bar0BadAccess write off size => Sys2Proof.Machine.execBar0BadAccess write off size s
  | .stage => Sys2Proof.Machine.execStage s
  | .draftLoadDone host => Sys2Proof.Machine.execDraftLoadDone host s
  | .draftCheckDone => Sys2Proof.Machine.execDraftCheckDone s
  | .arm => Sys2Proof.Machine.execArm s
  | .disarm => Sys2Proof.Machine.execDisarm s
  | .discard => Sys2Proof.Machine.execDiscard s
  | .ringEnable ring => Sys2Proof.Machine.execRingEnable ring s
  | .ringDisable ring => Sys2Proof.Machine.execRingDisable ring s
  | .pair => Sys2Proof.Machine.execPair s
  | .absorb => Sys2Proof.Machine.execAbsorb s
  | .handback => Sys2Proof.Machine.execHandback s
  | .detach => Sys2Proof.Machine.execDetach s
  | .compare => Sys2Proof.Machine.execCompare s
  | .drain => Sys2Proof.Machine.execDrain s
  | .drainDone => Sys2Proof.Machine.execDrainDone s
  | .retrain port => Sys2Proof.Machine.execRetrain port s
  | .disable port => Sys2Proof.Machine.execDisable port s
  | .enable port => Sys2Proof.Machine.execEnable port s
  | .getInfo src => Sys2Proof.Machine.execGetInfo src s
  | .getBootRecord src => Sys2Proof.Machine.execGetBootRecord src s
  | .readSensors src => Sys2Proof.Machine.execReadSensors src s
  | .readSetting src => Sys2Proof.Machine.execReadSetting src s
  | .reset src => Sys2Proof.Machine.execReset src s
  | .powerState src => Sys2Proof.Machine.execPowerState src s
  | .powerLimit src => Sys2Proof.Machine.execPowerLimit src s
  | .clockCap src => Sys2Proof.Machine.execClockCap src s
  | .scrubRate src => Sys2Proof.Machine.execScrubRate src s
  | .laserRemove src => Sys2Proof.Machine.execLaserRemove src s
  | .bootDraft src host => Sys2Proof.Machine.execBootDraft src host s
  | .settingWrite src => Sys2Proof.Machine.execSettingWrite src s
  | .imageData src => Sys2Proof.Machine.execImageData src s
  | .imageVerify src => Sys2Proof.Machine.execImageVerify src s
  | .imageActivate src => Sys2Proof.Machine.execImageActivate src s
  | .fwCommit src => Sys2Proof.Machine.execFwCommit src s
  | .debugChallenge src => Sys2Proof.Machine.execDebugChallenge src s
  | .debugUnlock src => Sys2Proof.Machine.execDebugUnlock src s
  | .nop jno => Sys2Proof.Machine.execNop jno s
  | .ctxCreate jno => Sys2Proof.Machine.execCtxCreate jno s
  | .ctxDestroy jno => Sys2Proof.Machine.execCtxDestroy jno s
  | .ctxReset jno => Sys2Proof.Machine.execCtxReset jno s
  | .run jno => Sys2Proof.Machine.execRun jno s
  | .objCreate jno => Sys2Proof.Machine.execObjCreate jno s
  | .objDestroy jno => Sys2Proof.Machine.execObjDestroy jno s
  | .objHint jno => Sys2Proof.Machine.execObjHint jno s
  | .objLoad jno => Sys2Proof.Machine.execObjLoad jno s
  | .objStore jno => Sys2Proof.Machine.execObjStore jno s
  | .kvPoolCreate jno => Sys2Proof.Machine.execKvPoolCreate jno s
  | .kvPoolDestroy jno => Sys2Proof.Machine.execKvPoolDestroy jno s
  | .kvJoin jno => Sys2Proof.Machine.execKvJoin jno s
  | .kvFork jno => Sys2Proof.Machine.execKvFork jno s
  | .kvGrow jno => Sys2Proof.Machine.execKvGrow jno s
  | .kvLeave jno => Sys2Proof.Machine.execKvLeave jno s
  | .kvPublish jno => Sys2Proof.Machine.execKvPublish jno s
  | .kvAdmitStarved jno => Sys2Proof.Machine.execKvAdmitStarved jno s
  | .kvExhausted jno => Sys2Proof.Machine.execKvExhausted jno s
  | .taskStart cu u cycle => Sys2Proof.Machine.execTaskStart cu u cycle s
  | .taskEnd t => Sys2Proof.Machine.execTaskEnd t s
  | .dependencyMet t k => Sys2Proof.Machine.execDependencyMet t k s
  | .taskOverrun t => Sys2Proof.Machine.execTaskOverrun t s
  | .memoryWrite t addr data => Sys2Proof.Machine.execMemoryWrite t addr data s
  | .sectorRead rd addr err => Sys2Proof.Machine.execSectorRead rd addr err s
  | .twinFetchRequest addr => Sys2Proof.Machine.execTwinFetchRequest addr s
  | .twinFetchReturn addr data => Sys2Proof.Machine.execTwinFetchReturn addr data s
  | .scrubRead die err => Sys2Proof.Machine.execScrubRead die err s
  | .onchipCrcFail loc => Sys2Proof.Machine.execOnchipCrcFail loc s
  | .memOnchip loc => Sys2Proof.Machine.execMemOnchip loc s
  | .vectorOp t op rm sr n dst a b c => Sys2Proof.Machine.execVectorOp t op rm sr n dst a b c s
  | .rowReduction t op n dst a b => Sys2Proof.Machine.execRowReduction t op n dst a b s
  | .sfuRequest t fn bf16 n dst a => Sys2Proof.Machine.execSfuRequest t fn bf16 n dst a s
  | .rowstat t form n dst x => Sys2Proof.Machine.execRowstat t form n dst x s
  | .lnorm t n dst x gamma beta stat eps => Sys2Proof.Machine.execLnorm t n dst x gamma beta stat eps s
  | .rmsnorm t n dst x gamma stat eps => Sys2Proof.Machine.execRmsnorm t n dst x gamma stat eps s
  | .lnormBwd t n dst x dy gamma stat => Sys2Proof.Machine.execLnormBwd t n dst x dy gamma stat s
  | .rmsnormBwd t n dst x dy gamma stat => Sys2Proof.Machine.execRmsnormBwd t n dst x dy gamma stat s
  | .smerge t d a b => Sys2Proof.Machine.execSmerge t d a b s
  | .sfinal t sr d row dst a => Sys2Proof.Machine.execSfinal t sr d row dst a s
  | .kvpin t row => Sys2Proof.Machine.execKvpin t row s
  | .patch t desc => Sys2Proof.Machine.execPatch t desc s
  | .s2c t desc => Sys2Proof.Machine.execS2c t desc s
  | .c2s t desc => Sys2Proof.Machine.execC2s t desc s
  | .maxpool t desc => Sys2Proof.Machine.execMaxpool t desc s
  | .avgpool t desc => Sys2Proof.Machine.execAvgpool t desc s
  | .crop t desc => Sys2Proof.Machine.execCrop t desc s
  | .objectFillDone obj => Sys2Proof.Machine.execObjectFillDone obj s
  | .kvCopyDone ctx => Sys2Proof.Machine.execKvCopyDone ctx s
  | .blockMoveDone obj blk => Sys2Proof.Machine.execBlockMoveDone obj blk s
  | .liveStateSaveDone ctx => Sys2Proof.Machine.execLiveStateSaveDone ctx s
  | .liveStateRestoreDone ctx => Sys2Proof.Machine.execLiveStateRestoreDone ctx s
  | .resultFlushDone jno => Sys2Proof.Machine.execResultFlushDone jno s
  | .heldQueueRoom die => Sys2Proof.Machine.execHeldQueueRoom die s
  | .collHeaderReceived ch hdr => Sys2Proof.Machine.execCollHeaderReceived ch hdr s
  | .mismatchNotice ch groupA groupB => Sys2Proof.Machine.execMismatchNotice ch groupA groupB s
  | .countNotice ch group => Sys2Proof.Machine.execCountNotice ch group s
  | .abortNotice ch group => Sys2Proof.Machine.execAbortNotice ch group s
  | .lossNotice addr beat absorbBeat => Sys2Proof.Machine.execLossNotice addr beat absorbBeat s
  | .holdNotice addr beat => Sys2Proof.Machine.execHoldNotice addr beat s
  | .gatherPieceLanded ch piece data => Sys2Proof.Machine.execGatherPieceLanded ch piece data s
  | .lossWaitExpiry => Sys2Proof.Machine.execLossWaitExpiry s
  | .dataFrameReceived port frame => Sys2Proof.Machine.execDataFrameReceived port frame s
  | .ackReceived port ack => Sys2Proof.Machine.execAckReceived port ack s
  | .nakReceived port ack => Sys2Proof.Machine.execNakReceived port ack s
  | .ackTimeout port => Sys2Proof.Machine.execAckTimeout port s
  | .idleFrameTimer port => Sys2Proof.Machine.execIdleFrameTimer port s
  | .portRxTimeout port => Sys2Proof.Machine.execPortRxTimeout port s
  | .markerReceived port payload arrivalPs => Sys2Proof.Machine.execMarkerReceived port payload arrivalPs s
  | .alignOffsetExceeded => Sys2Proof.Machine.execAlignOffsetExceeded s
  | .leaderMarkerTimeout => Sys2Proof.Machine.execLeaderMarkerTimeout s
  | .leaderTakeover node leader => Sys2Proof.Machine.execLeaderTakeover node leader s
  | .joinMarkerTimeout => Sys2Proof.Machine.execJoinMarkerTimeout s
  | .leaderRelay port leader period10 windowUs drop => Sys2Proof.Machine.execLeaderRelay port leader period10 windowUs drop s
  | .periodRequest port src req10 => Sys2Proof.Machine.execPeriodRequest port src req10 s
  | .identify port payload => Sys2Proof.Machine.execIdentify port payload s
  | .measureDone port meanRoundTripPs => Sys2Proof.Machine.execMeasureDone port meanRoundTripPs s
  | .portStateTimeout port => Sys2Proof.Machine.execPortStateTimeout port s
  | .portRetrainTimer port => Sys2Proof.Machine.execPortRetrainTimer port s
  | .laneLost port lane => Sys2Proof.Machine.execLaneLost port lane s
  | .linkIsolated => Sys2Proof.Machine.execLinkIsolated s
  | .laserCartridgeFail c => Sys2Proof.Machine.execLaserCartridgeFail c s
  | .cartridgeWarmDone c => Sys2Proof.Machine.execCartridgeWarmDone c s
  | .cartridgeLeverUnlock c => Sys2Proof.Machine.execCartridgeLeverUnlock c s
  | .dieLinkFrame link frame => Sys2Proof.Machine.execDieLinkFrame link frame s
  | .linkDie link => Sys2Proof.Machine.execLinkDie link s
  | .helloTimer => Sys2Proof.Machine.execHelloTimer s
  | .helloReceived port frame fixed => Sys2Proof.Machine.execHelloReceived port frame fixed s
  | .handshakeTimeout => Sys2Proof.Machine.execHandshakeTimeout s
  | .journalEntryReceived entry order => Sys2Proof.Machine.execJournalEntryReceived entry order s
  | .completionNoticeReceived n => Sys2Proof.Machine.execCompletionNoticeReceived n s
  | .heldItemReceived item => Sys2Proof.Machine.execHeldItemReceived item s
  | .replayApply => Sys2Proof.Machine.execReplayApply s
  | .accumulatorForwardReceived addr data => Sys2Proof.Machine.execAccumulatorForwardReceived addr data s
  | .digestReceived digest jno objs => Sys2Proof.Machine.execDigestReceived digest jno objs s
  | .recopyDone own theirs => Sys2Proof.Machine.execRecopyDone own theirs s
  | .selvedgePortLost port twinOnFabric => Sys2Proof.Machine.execSelvedgePortLost port twinOnFabric s
  | .quiesceNoticeReceived cause intent beat => Sys2Proof.Machine.execQuiesceNoticeReceived cause intent beat s
  | .twinSilenceTimeout => Sys2Proof.Machine.execTwinSilenceTimeout s
  | .holdLimitExpiry => Sys2Proof.Machine.execHoldLimitExpiry s
  | .cxlLinkDown => Sys2Proof.Machine.execCxlLinkDown s
  | .cxlLinkTrained width rate => Sys2Proof.Machine.execCxlLinkTrained width rate s
  | .cxlLostTimeout => Sys2Proof.Machine.execCxlLostTimeout s
  | .hostLinkReset kind => Sys2Proof.Machine.execHostLinkReset kind s
  | .ideMacFailure => Sys2Proof.Machine.execIdeMacFailure s
  | .cxlMemRead hpa err => Sys2Proof.Machine.execCxlMemRead hpa err s
  | .cxlMemWrite hpa data mask => Sys2Proof.Machine.execCxlMemWrite hpa data mask s
  | .bisnpResponse line modified => Sys2Proof.Machine.execBisnpResponse line modified s
  | .hdmDecoderCommit base size256 ways hdmDb => Sys2Proof.Machine.execHdmDecoderCommit base size256 ways hdmDb s
  | .emergencyQuiesce cause detail => Sys2Proof.Machine.execEmergencyQuiesce cause detail s
  | .warmStart obs => Sys2Proof.Machine.execWarmStart obs s
  | .coldStart obs => Sys2Proof.Machine.execColdStart obs s
  | .bootStepTimeout step => Sys2Proof.Machine.execBootStepTimeout step s
  | .opticalTrainingLimit => Sys2Proof.Machine.execOpticalTrainingLimit s
  | .sensorSnapshot r => Sys2Proof.Machine.execSensorSnapshot r s
  | .flowEmergencyTimer => Sys2Proof.Machine.execFlowEmergencyTimer s
  | .pwrOverload => Sys2Proof.Machine.execPwrOverload s
  | .stepRise r => Sys2Proof.Machine.execStepRise r s
  | .inputVoltageChange input mv => Sys2Proof.Machine.execInputVoltageChange input mv s
  | .inputQualified input => Sys2Proof.Machine.execInputQualified input s
  | .bulkChargeDone input => Sys2Proof.Machine.execBulkChargeDone input s
  | .powerDownTimeout => Sys2Proof.Machine.execPowerDownTimeout s
  | .presenceContactBreak a b => Sys2Proof.Machine.execPresenceContactBreak a b s
  | .setEndpointId b eid => Sys2Proof.Machine.execSetEndpointId b eid s
  | .getEndpointId b => Sys2Proof.Machine.execGetEndpointId b s
  | .getEndpointUuid b => Sys2Proof.Machine.execGetEndpointUuid b s
  | .getMctpVersionSupport b msgType => Sys2Proof.Machine.execGetMctpVersionSupport b msgType s
  | .getMessageTypeSupport b => Sys2Proof.Machine.execGetMessageTypeSupport b s
  | .getVendorDefinedMessageSupport b => Sys2Proof.Machine.execGetVendorDefinedMessageSupport b s
  | .getTid b => Sys2Proof.Machine.execGetTid b s
  | .setTid b tid => Sys2Proof.Machine.execSetTid b tid s
  | .getPldmVersion b pldmType => Sys2Proof.Machine.execGetPldmVersion b pldmType s
  | .getPldmTypes b => Sys2Proof.Machine.execGetPldmTypes b s
  | .getPldmCommands b pldmType => Sys2Proof.Machine.execGetPldmCommands b pldmType s
  | .getPdr b sensor => Sys2Proof.Machine.execGetPdr b sensor s
  | .setEventReceiver b receiver => Sys2Proof.Machine.execSetEventReceiver b receiver s
  | .numericEffecterSet b effecter watts => Sys2Proof.Machine.execNumericEffecterSet b effecter watts s
  | .requestUpdate b => Sys2Proof.Machine.execRequestUpdate b s
  | .verifyComplete b => Sys2Proof.Machine.execVerifyComplete b s
  | .activateFirmware b selfContained => Sys2Proof.Machine.execActivateFirmware b selfContained s
  | .getStatus b => Sys2Proof.Machine.execGetStatus b s
  | .cancelUpdate b => Sys2Proof.Machine.execCancelUpdate b s
  | .getVersion doe => Sys2Proof.Machine.execGetVersion doe s
  | .getCapabilities doe => Sys2Proof.Machine.execGetCapabilities doe s
  | .negotiateAlgorithms doe supported => Sys2Proof.Machine.execNegotiateAlgorithms doe supported s
  | .getDigests doe => Sys2Proof.Machine.execGetDigests doe s
  | .getCertificate doe slot => Sys2Proof.Machine.execGetCertificate doe slot s
  | .challenge doe slot nonce => Sys2Proof.Machine.execChallenge doe slot nonce s
  | .getMeasurements doe index => Sys2Proof.Machine.execGetMeasurements doe index s
  | .keyExchange doe slot => Sys2Proof.Machine.execKeyExchange doe slot s
  | .finish doe verifies => Sys2Proof.Machine.execFinish doe verifies s
  | .heartbeat doe => Sys2Proof.Machine.execHeartbeat doe s
  | .keyUpdate doe => Sys2Proof.Machine.execKeyUpdate doe s
  | .endSession doe => Sys2Proof.Machine.execEndSession doe s
  | .query => Sys2Proof.Machine.execQuery s
  | .keyProg stream key => Sys2Proof.Machine.execKeyProg stream key s
  | .kSetGo stream => Sys2Proof.Machine.execKSetGo stream s
  | .kSetStop stream => Sys2Proof.Machine.execKSetStop stream s
  | .getKey stream => Sys2Proof.Machine.execGetKey stream s
  | .objLoadStoreDone jno host writeOk => Sys2Proof.Machine.execObjLoadStoreDone jno host writeOk s
  | .harnessWritebackDone h => Sys2Proof.Machine.execHarnessWritebackDone h s
  | .flashWriteDone job => Sys2Proof.Machine.execFlashWriteDone job s
  | .jtagInstruction ins => Sys2Proof.Machine.execJtagInstruction ins s
  | .cxlCacheSnoop line => Sys2Proof.Machine.execCxlCacheSnoop line s
  | .uioRequestReceived fn uio => Sys2Proof.Machine.execUioRequestReceived fn uio s
  | .cartridgeInsert c => Sys2Proof.Machine.execCartridgeInsert c s
  | .failedWarmStartReport => Sys2Proof.Machine.execFailedWarmStartReport s

end Sys2Proof.Machine
end

