-- ==== Sys2Proof/Safety.lean ====
section
/-! DEFINITION. Sys2Proof/Safety.lean: what the statements about every step speak of: the canonical form of the memories, the moves
of the pair, and the commands that begin the module anew. -/

namespace Sys2Proof.Machine

/-- The device memories are in canonical form: the working one, the committed one, the mirror of the twin's, and
what an abandoned beat gives the mirror back (R41). -/
def State.MemOk (s : State) : Prop :=
  s.core.mem.wf ∧ s.committed.mem.wf ∧ s.twin.mirror.mem.wf ∧ ∀ e ∈ s.undo, e.1.twin.mirror.mem.wf

/-- The moves of Table 13-2, and that of Table 13-9 for a twin lost in `RECOPY` (log entry 40). -/
def pairMoves : List (PairState × PairState) :=
  [(.unpaired, .handshake), (.handshake, .copying), (.handshake, .unpaired), (.copying, .sync), (.copying, .unpaired),
   (.recopy, .unpaired), (.sync, .hold), (.hold, .sync), (.hold, .absorbed), (.sync, .absorbed), (.sync, .recopy),
   (.recopy, .sync), (.sync, .unpaired), (.absorbed, .sync), (.sync, .detached), (.recopy, .absorbed)]

/-- The commands that begin the module anew: the cold start, and the power-down that a cold start follows (R10, R517). -/
def beginsAnew : Instr → Bool
  | .coldStart _ => true
  | .powerDownTimeout => true
  | _ => false

/-- A bit of an event register after a write is what it was, cleared where a 1 was written (W1C, Table 0-2). -/
def Cleared (old : Nat) (v : Word) (new : Nat) : Prop := ∀ i, new.testBit i = (old.testBit i && !v.toNat.testBit i)

/-- A command runs: `exec` answers the next state `t`. -/
abbrev Runs (c : Instr) (s t : State) : Prop := exec c s = .next t

/-- A mailbox command passes the tests of R502 and R503: its source is not busy, may send it, and gives it arguments in range. -/
def MboxOk (s : State) (src : MboxSource) (op : Nat) : Prop :=
  let c := s.request src op
  s.sourceBusy c = false ∧ (smbusOnly op = true → c.isSmbus = true) ∧ c.plain = true ∧ lengthOk c = true ∧ argumentOk c = true

/-- A response is ready for its source (R502, R503): by BAR0 in the MGT block, its bytes at the start of MGT_RESP_DATA, by MCTP as the
last message sent. -/
def Answered (src : MboxSource) (op result detail : Nat) (beat : Option Nat) (resp : Bytes) (s t : State) : Prop :=
  match src with
  | .bar0 =>
    t.mgt.status = 3 ∧ t.mgt.result = result ∧ t.mgt.detail = detail ∧ t.mgt.tag = s.mgt.reqTag ∧ t.mgt.respLen = resp.length ∧
      t.mgt.respData.take resp.length = resp ∧ t.mgt.respBeat = beat.getD s.mgt.respBeat ∧ t.mgt.event.testBit 0 = true
  | .mctp b _ tag _ => t.out = s.out ++ [.mailbox b (responseBytes op result tag (beat.getD 0) detail resp)] ∧ t.mgt.status = s.mgt.status

/-- Nothing changed but the response and status of the mailbox, what left the module, the pending bits of MSI-X and the marks of
events. -/
def MgmtOnly (s t : State) : Prop :=
  t = { s with
    out := t.out
    mgt := { s.mgt with
      reqOp := t.mgt.reqOp, status := t.mgt.status, result := t.mgt.result, detail := t.mgt.detail, tag := t.mgt.tag
      respLen := t.mgt.respLen, respBeat := t.mgt.respBeat, respData := t.mgt.respData, event := t.mgt.event }
    glb := { s.glb with msixPend := t.glb.msixPend }
    pick := { s.pick with evMark := t.pick.evMark } }

/-- No beat window will open, and no other command waits: a beat command takes effect at once. -/
def State.AtOnce (s : State) : Prop := s.beatsAhead = false ∧ s.mgt.waiting = [] ∧ s.mgt.due = []

/-- The order with a journal number has been applied and its result is determined at this beat. -/
def Ended (t : State) (j status result : Nat) : Prop :=
  ∃ o, t.core.order j = some o ∧ o.applied = true ∧ o.status = some (status, result) ∧ o.doneAt = t.pick.counter

/-- An accepted order that nothing has looked at yet passes R108, and nothing holds it back: no fault of its context in the pick, no
reset it stands behind, no order accepted before it whose turn comes first (R109, R119, R534), and, where it is fenced by R123 or R319,
no earlier order of its context. -/
def OrderReady (s : State) (j op : Nat) (o : OrderSt) : Prop :=
  s.core.order j = some o ∧ o.opcode = op ∧ o.checked = false ∧ o.applied = false ∧ o.status = none ∧ s.validate o = none ∧
    s.inTurn o = true ∧ s.core.behindReset o = false ∧ (s.core.ctxOf o.ctx).elim false s.core.faulting = false ∧
    (isFenced op = true → s.core.dueNow o s.pick.counter = true)

/-- A key-value order that is ready and that this beat has not tried, the only one of its context, with its context and pool. -/
def KvReady (s : State) (j op : Nat) (o : OrderSt) (x : Nat) (p : KvPool) : Prop :=
  s.atConfig = true ∧ OrderReady s j op o ∧ s.core.kvBusy o = false ∧ o.lastTry ≠ some s.pick.counter ∧ s.core.ctxOf o.ctx = some x ∧
    s.core.pool x = some p

/-- A running task of a CU, or of its arrays or vector unit (engines 0 to 2), whose kernel commands the vector unit. -/
def OnCu (s : State) (t : TaskRef) (k : Task) : Prop :=
  s.operational = true ∧ s.core.task t = some k ∧ k.phase = .running ∧ k.desc.engine ≤ 2

/-- What a command of the vector unit leaves: its task's sticky flags, none of them cleared (R173), and the CU's local SRAM, where only
the ranges of its results may differ, as (offset, bytes). Nothing else changes. -/
def VecRan (s : State) (t : TaskRef) (k : Task) (ranges : List (Nat × Nat)) (u : State) : Prop :=
  u = { s with core := { s.core with orders := u.core.orders, onchip := { s.core.onchip with sram := u.core.onchip.sram } } } ∧
  (∃ f, u.core.task t = some { k with flags := f } ∧ ∀ i, k.flags.testBit i = true → f.testBit i = true) ∧
  (∀ j, j ≠ t.jno → u.core.order j = s.core.order j) ∧
  ∀ q, (∀ r ∈ ranges, q < sramKey k.cu r.1 ∨ sramKey k.cu r.1 + r.2 ≤ q) → getKey u.core.onchip.sram q = getKey s.core.onchip.sram q

/-- A context fault against a task's context. Where this module holds the twin's address too, a transfer that the abort breaks off may end at
that address as well (R33, R306). -/
def OneFault (s : State) (x code detail : Nat) (u : State) : Prop :=
  ∃ f more, u.core.faults = s.core.faults ++ f :: more ∧ (s.twin.holds = false → more = []) ∧ f.ctx = x ∧ f.code = code ∧ f.detail = detail

/-- A context fault against a task's context, and nothing written. -/
def Faulted (s : State) (x code detail : Nat) (u : State) : Prop :=
  OneFault s x code detail u ∧ u.core.mem = s.core.mem ∧ u.core.onchip.sram = s.core.onchip.sram ∧ u.committed = s.committed

/-- An image instruction past the checks of R415 finds what its own effect takes: room for its staging buffer (R417), every sector that it
reads clean and in no block that it writes, those blocks unread in the pick so far, in objects that its context's tasks may write (not
WINDOWED ones, R317), and a shadow block for each should the region's cache have no line for it (R329, R330). -/
def ImageReady (s : State) (x cu : Nat) (d : ImgDesc) (boxes : List Box) (extra : Nat) (list : List Nat) : Prop :=
  let ws := d.writes boxes extra (s.core.imgBits x d)
  let blks := (ws.flatMap fun w => blocksOf w.1 w.2.length).eraseDups
  stagingBytes ≤ s.core.sramFree cu ∧
  (∀ sec ∈ list ++ d.source boxes extra, s.core.syndrome s.core.mem sec = 0 ∧ ¬ blockOf (64 * sec) ∈ blks) ∧
  (∀ w ∈ ws, ∃ i o, s.core.find x w.1 w.2.length = some (i, o) ∧ o.cls ≠ 1) ∧
  ∀ b ∈ blks, ¬ b ∈ s.core.pm.marks ∧ ∀ st, s.core.homeOf b = some (.t2 st) → blks.length ≤ s.core.pm.free.getD st 0

/-- What an image instruction leaves that completed: memory as its writes make it and nothing else of it changed, the blocks that it read
marked, its staging buffer free again, no fault, and its task running on as before. -/
def ImageRan (s : State) (t : TaskRef) (k : Task) (x : Nat) (d : ImgDesc) (boxes : List Box) (extra : Nat) (u : State) : Prop :=
  let ws := d.writes boxes extra (s.core.imgBits x d)
  (∀ q, u.core.memByte u.core.mem q = s.core.memByte (ws.foldl (fun m w => s.core.writeMem m w.1 w.2) s.core.mem) q) ∧
  (∀ q, (∀ w ∈ ws, q < w.1 ∨ w.1 + w.2.length ≤ q) → u.core.memByte u.core.mem q = s.core.memByte s.core.mem q) ∧
  (∀ sec ∈ d.source boxes extra, blockOf (64 * sec) ∈ u.core.pm.marks) ∧
  u.core.faults = s.core.faults ∧ u.core.task t = some k ∧ (∀ j, j ≠ t.jno → u.core.order j = s.core.order j) ∧
  u.core.onchip.sram = s.core.onchip.sram ∧ u.core.ctxs = s.core.ctxs ∧ u.core.waits = s.core.waits ∧ u.committed = s.committed

/-- The emergency quiesce (Table 2-5): the state of the last completed beat is back, the quiesce is recorded with that beat and its cause,
the twin is told, the trigger is logged with the datum that its code defines (R533), and the module is where Table 17-2 leads from the cause. -/
def Quiesced (s : State) (cause detail : Nat) (u : State) : Prop :=
  u.core.mem = s.committed.mem ∧ u.core.objs = s.committed.objs ∧ u.core.ctxs = s.committed.ctxs ∧ u.core.draft = s.committed.draft ∧
  u.committed = s.committed ∧ u.pick.phase = .span ∧ u.ord.quiesced = some (s.pick.counter - 1, cause) ∧
  .quiesceNotice cause (quiesceIntent cause) (s.pick.counter - 1) ∈ u.out ∧
  (cause ≠ 0 → ∃ e ∈ u.flog.entries, e.2.code = cause ∧ e.2.detail = codeDetail cause detail) ∧
  u.glb.state = if cause ∈ [0, 0x0E02, 0x0E04, 0x0E06] ∨ (cause ∈ [0x0D21, 0x0D12, 0x0301, 0x0D22] ∧ s.inStep = false) then .warm else .mgmtOnly

/-- The twin is lost (R396, R398): this module begins to absorb it from its last completed beat on, tells the torus, and keeps of the
items held only those of orders released, or complete as far as it knows; what waited for the twin waits no more (Table 12-4). -/
def LostTwin (s : State) (code beat : Nat) (u : State) : Prop :=
  u.twin.state = .absorbed ∧ u.twin.lastBeat = beat ∧ u.twin.absorbAt = (if s.policy.autoAbsorb then some (beat + 4 + u.queuePicks) else none) ∧
  .lossNoticeOut (twinAddr s.myAddr) beat u.twin.absorbAt ∈ u.out ∧ u.opt.detour = some (twinAddr s.myAddr) ∧
  (∀ i, i ∈ u.twin.mirror.items ↔ i ∈ s.twin.mirror.items ∧ (itemJno i ∈ s.twin.mirror.released ∨ itemJno i ∈ s.twin.mirror.closeable)) ∧
  (∀ r ∈ u.core.repairs, r.fetch = false) ∧ u.core.forwards = [] ∧
  u.flog.waiting = s.flog.waiting ++ [s.reportEntry code 0] ∧ (s.core.repairs = [] → u.core.mem = s.core.mem) ∧ u.core.objs = s.core.objs ∧ u.pick.counter = s.pick.counter

end Sys2Proof.Machine
end

