-- ==== Sys2Proof/Certificates/Slice0/Obligations.lean ====
section
/-! DEFINITION. Sys2Proof/Certificates/Slice0/Obligations.lean: the statements about the block. -/

open Sys2Proof Sys2Proof.Machine

/-- A block takes one command at a time from the front of its queue, and idles where none waits. -/
def Obligations.StepRunsFront : Prop :=
  (∀ (c : Instr) (rest : List Instr) (s : State),
    step { s with pending := c :: rest } = exec c { s with pending := rest }) ∧
  ∀ s : State, s.pending = [] → step s = .next s

/-- A step takes exactly the front command off the queue: no command's effect puts one in, takes one out or reorders the rest. -/
def Obligations.QueueLosesFront : Prop :=
  ∀ (c : Instr) (rest : List Instr) (s t : State), s.pending = c :: rest → step s = .next t → t.pending = rest

/-- Every command completes in every state: none stops the block by a fault or a refusal. -/
def Obligations.EveryCommandCompletes : Prop := ∀ (c : Instr) (s : State), ∃ t, exec c s = .next t

/-- RPMC counter 0 never falls, and rises only by `FW_COMMIT`, to the booted security version (R509). -/
def Obligations.SecurityVersionNeverFalls : Prop :=
  ∀ (n : Nat) (s t : State), n ≤ s.flash.rpmc → step s = .next t → n ≤ t.flash.rpmc

/-- The torus address is fixed but at a cold start, which takes it from the settings store (R474), and the strap pins are read then only. -/
def Obligations.AddressFixedOnceStarted : Prop :=
  ∀ (c : Instr) (s t : State), exec c s = .next t → beginsAnew c = false →
    t.glb.address = s.glb.address ∧ t.proto.straps = s.proto.straps

/-- The pair moves only by Table 13-2, one move in a command, and at most two where CONFIG_APPLY applies several changes of one beat
(R379); a cold start puts it in `UNPAIRED`. An abandoned beat takes its moves back (R41), and so does a draft command that withdraws the
draft whose application ended the pair in the same beat window (R82, R83, R88). The move from `RECOPY` to `ABSORBED` is Table 13-9's, by
log entry 40. -/
def Obligations.PairMovesByTable : Prop :=
  ∀ (c : Instr) (s t : State), exec c s = .next t →
    if beginsAnew c then t.twin.state = s.twin.state ∨ t.twin.state = .unpaired
    else t.twin.state = s.twin.state ∨ (s.twin.state, t.twin.state) ∈ pairMoves ∨
      (c = .configApply ∧ ∃ m, (s.twin.state, m) ∈ pairMoves ∧ (m, t.twin.state) ∈ pairMoves) ∨
      (t.undo = [] ∧ ∃ e ∈ s.undo, t.twin.state = e.1.twin.state) ∨
      (s.twin.state = .unpaired ∧ t.twin.state = .sync ∧ t.draft.prior = none ∧ ∃ p, s.draft.prior = some p ∧ p.pair = .sync)

/-- Every step keeps the device memories in canonical form. -/
def Obligations.StepKeepsMemoryCanonical : Prop :=
  ∀ s t : State, s.MemOk → step s = .next t → t.MemOk

/-- What reset leaves: the memories are canonical and list nothing, and the registers hold the values of their headings. -/
def Obligations.ResetState : Prop :=
  State.reset.MemOk ∧ State.reset.core.mem = {} ∧ State.reset.pending = [] ∧ State.reset.twin.state = .unpaired ∧
  State.reset.readReg 0x00000 = some 0x1152000011520A48 ∧ State.reset.mgtReg 0x20 = some (3200 * 2 ^ 48) ∧
  State.reset.reedReg 0 = some 2048 ∧ State.reset.integReg 0 = some 344 ∧ State.reset.twinReg 0x18 = some 4000 ∧
  State.reset.glbReg 0x20 = some 1000 ∧ State.reset.flogReg 0 = some 0 ∧ State.reset.draftReg 0x20 = some 0

/-! ## Beat window -/

/-- The nine steps of Table 2-3 in their order: each completes when the one before it has, and moves the phase on; only the commit step
counts the pick (R48), and only the latch changes the clock step (R68). Traffic between two pairs of dies takes the links of R339, by the
pick that comes. The opening is stated where no emergency of Table 18-8
is read and no mailbox command waits, the application where none waits for its draft, and the commit step where nothing holds it: in skid
mode no MAC epoch of before the window is unverified (R445), and the host caches no line of a block that it changes (R440). -/
def Obligations.BeatStepsRun : Prop :=
  (∀ (r : Readings) (s : State), s.beating = true → s.pick.phase = .span → s.core.running = [] → s.thermalEmergency r = false →
    s.mgt.waiting = [] → ∃ t, Runs (.beatWindowOpen r) s t ∧ t.pick.phase = .opened ∧ t.pick.counter = s.pick.counter ∧
      t.pick.step = s.pick.step ∧ t.mgt.snap = r ∧ t.mgt.snapBeat = s.pick.counter ∧ t.core = { s.core with cycle := t.core.cycle }) ∧
  (∀ (host : HostView) (s : State), s.beating = true → s.pick.phase = .opened → ∃ t, Runs (.ringSample host) s t ∧
      t.pick = { s.pick with phase := .sampled, event := t.pick.event, evMark := t.pick.evMark } ∧ t.twin = s.twin ∧ t.mgt = s.mgt ∧
      t.flash = s.flash ∧ t.committed = s.committed ∧ t.core.mem = s.core.mem ∧ t.core.objs = s.core.objs ∧
      ∃ l, t.out = s.out ++ l ∧ ∀ o ∈ l, ∃ a n, o = .hostRead .rdCurr a n) ∧
  (∀ (d : DecisionInputs) (s : State), s.beating = true → s.pick.phase = .sampled → ∃ t, Runs (.decisionPoint d) s t ∧
      t.pick.phase = .decided ∧ t.pick.counter = s.pick.counter ∧ t.core.orders = s.core.orders ∧ t.core.mem = s.core.mem ∧
      t.committed = s.committed ∧ (s.draft.state ≠ .armed → t.draft = s.draft)) ∧
  (∀ s : State, s.beating = true → s.pick.phase = .decided →
    Runs .placementDecide s { s with pick := { s.pick with phase := .placed }
                                     core := { s.core with routes := dieRoutes (s.pick.counter + 1) } }) ∧
  (∀ (l : List (Nat × Nat)) (s : State), s.beating = true → s.pick.phase = .placed → ∃ t, Runs (.sealDeadline l) s t ∧
      t.pick.phase = .sealed ∧ t.pick.counter = s.pick.counter ∧ t.core.mem = s.core.mem ∧ t.committed = s.committed) ∧
  (∀ s : State, s.beating = true → s.pick.phase = .sealed → s.mgt.due = [] → ∃ t, Runs .configApply s t ∧
      t.pick.phase = .applied ∧ t.pick.counter = s.pick.counter ∧ t.pick.step = s.pick.step) ∧
  (∀ s : State, s.beating = true → s.pick.phase = .applied → ∃ t, Runs .clockLatch s t ∧
      t.pick.phase = .latched ∧ t.pick.counter = s.pick.counter ∧ t.core = s.core ∧ t.committed = s.committed ∧
      t.pick.step = (if s.latchPeriod.latchDue then s.mgt.target else s.pick.step)) ∧
  (∀ s : State, s.beating = true → s.pick.phase = .latched → (s.glb.skid = true → s.pick.epochs ≤ Config.epochsVerified s.freeCtr) →
    s.switchLines = [] → ∃ t, Runs .commitStep s t ∧
      t.pick.phase = .committed ∧ t.pick.counter = s.pick.counter + 1 ∧ t.pick.step = s.pick.step ∧ t.committed = t.core) ∧
  (∀ s : State, s.beating = true → s.pick.phase = .committed → ∃ t, Runs .pickBegin s t ∧
      t.pick = { s.pick with phase := .span, evMark := t.pick.evMark } ∧ t.committed = s.committed ∧
      (s.opt.stranded = [] → (∀ ch, (s.core.chan ch).redo = []) → s.core.shHeld = [] → (∀ o ∈ s.core.orders, o.tried = none) →
        t.out = s.out))

/-- A module that seals alone seals every order it holds at the deadline, in turn: none is left held, and each takes the next
journal number (R110). -/
def Obligations.SealingAloneSealsAll : Prop :=
  ∀ (l : List (Nat × Nat)) (s : State), s.operational = true → s.pick.phase = .placed →
    (s.twin.state = .unpaired ∨ s.twin.state = .handshake ∨ s.twin.state = .copying ∨ s.twin.state = .absorbed) →
    ∃ t, Runs (.sealDeadline l) s t ∧ t.core.held = [] ∧ t.ord.sealed = s.ord.sealed + s.core.held.length ∧
      t.ord.entries.length = s.ord.entries.length + s.core.held.length ∧ t.ord.solo = true

/-- A step that is due is latched at W − 2.0 µs and none else, and the announced period and window come into force then; a lower step that
waits for a stretched period is due where that period applies (R68, R53, R515). The
commit step commits the pick whole: the state of the completed beat is the working state, the faults and the reports of the pick are gone,
and of the records that an abandoned beat wrote those stay that no beat has repeated yet (R58, R66, R67); what the pick wrote to the twin's
mirror is switched in with it (R60, R387). In skid mode it waits until every
MAC epoch received before the window opened is verified, and only counts those verified (R445); how many are is a free value. -/
def Obligations.LatchAndCommit : Prop :=
  ∀ s : State, s.beating = true →
    (s.pick.phase = .applied → ∃ t, Runs .clockLatch s t ∧
      (t.pick.period10, t.pick.windowUs) =
        ((s.pick.coming.find? fun c => c.1 = s.pick.counter).elim (s.pick.period10, s.pick.windowUs) Prod.snd) ∧
      (s.mgt.latchAt = none → t.pick.step =
        if s.pick.step < s.mgt.target ∧ s.pick.request10 ≤ t.pick.period10 then s.mgt.target else s.pick.step) ∧
      (∀ a, s.mgt.latchAt = some a → s.pick.counter < a → t.pick.step = s.pick.step) ∧
      (∀ a, s.mgt.latchAt = some a → a ≤ s.pick.counter → t.pick.step = s.mgt.target ∧ t.mgt.latchAt = none)) ∧
    let v := Config.epochsVerified s.freeCtr
    s.pick.phase = .latched →
      (s.glb.skid = true → v < s.pick.epochs →
        Runs .commitStep s { s with pick := { s.pick with epochs := s.pick.epochs - v }, freeCtr := s.freeCtr + 1 }) ∧
      ((s.glb.skid = true → s.pick.epochs ≤ v) → s.switchLines = [] → s.glb.hostWaits = [] → ∃ t, Runs .commitStep s t ∧
        t.committed = t.core ∧ t.pick.counter = s.pick.counter + 1 ∧ t.core.faults = [] ∧ t.flog.waiting = [] ∧
        t.twin.mirror = s.twin.mirror.turn ∧
        ∀ w ∈ t.ord.written, w ∈ s.ord.written ∧ (t.core.rings.getD w.1 {}).recNext ≤ w.2.1)

/-! ## Registers -/

/-- The draft commands in operational state: what each does to the DRAFT block where it is accepted (R80, R82, R83, R88), and that
nothing else changes; but where the armed draft was applied in this beat window and is not committed yet, STAGE, DISARM, DISCARD and ARM
for a later beat discard it unapplied: the draft of the last completed beat is in force again, and the groups' epoch beat with it, where
nothing but the draft turned an epoch in the window. -/
def Obligations.DraftCommandsAct : Prop :=
  ∀ s : State, s.operational = true →
    (s.draft.prior = none →
      Runs .stage s { s with draft := { s.draft with
        state := .loading, stagedId := 0, copy := [], readFail := none, due := false, from_ := s.draft.stageAddr, len := s.draft.stageLen } } ∧
      (s.draft.state ∈ [.checked, .armed, .missed] → s.pick.counter + 2 ≤ s.draft.applyBeat →
        Runs .arm s { s with draft := { s.draft with state := .armed, armedBeat := s.draft.applyBeat, due := false, lapsed := false } }) ∧
      (s.draft.state = .armed → Runs .disarm s { s with draft := { s.draft with state := .checked, due := false } }) ∧
      (s.draft.state ∈ [.loading, .checking, .checked, .armed, .rejected, .missed] →
        Runs .discard s { s with draft := { s.draft with
          state := .empty, stagedId := 0, copy := [], readFail := none, due := false } })) ∧
    ∀ p, s.draft.prior = some p → s.draft.state = .armed →
      let withdrawn := fun (t : State) => t.draft.prior = none ∧ t.draft.due = false ∧ t.core.draft = s.committed.draft ∧
        ((∀ g ∈ t.core.groups, ∀ k ∈ p.groups, k.id = g.id → k.epoch = g.epoch) → t.reed.epochBeat = p.reed.epochBeat) ∧ t.core.mem = s.core.mem ∧ t.core.objs = s.core.objs ∧ t.committed = s.committed ∧
        t.pick.counter = s.pick.counter
      (∀ e ∈ [(Instr.stage, DraftState.loading), (.disarm, .checked), (.discard, .empty)],
        ∃ t, Runs e.1 s t ∧ t.draft.state = e.2 ∧ withdrawn t) ∧
      (s.pick.counter + 2 ≤ s.draft.applyBeat →
        ∃ t, Runs .arm s t ∧ t.draft.state = .armed ∧ t.draft.armedBeat = s.draft.applyBeat ∧ withdrawn t)

/-- A load ends with the copy of the buffer and its `STAGED_ID` (when `STAGED_ID` is taken is the model's choice, log entry 139), or with
the first 64-byte line that could not be read (R436); while the host link is down nothing is read (R428); the check then ends in `CHECKED` or, by the first check that fails, in `REJECTED`
with its code and place, and the draft in force stays (R84, R85). A load or a check done where none is under way changes nothing. -/
def Obligations.DraftIsCheckedOnce : Prop :=
  ∀ s : State, s.operational = true →
    (∀ (host : HostView) (b : Bytes), s.draft.state = .loading → s.linkUp = true → hostRead host s.draft.from_ s.draft.len = some b →
      Runs (.draftLoadDone host) s { s with
        out := s.out ++ [.hostRead .rdCurr s.draft.from_ s.draft.len]
        draft := { s.draft with state := .checking, copy := b, stagedId := fieldAt b 0x10 8 } }) ∧
    (∀ (host : HostView) (k : Nat), s.draft.state = .loading → s.linkUp = true → hostRead host s.draft.from_ s.draft.len = none → 64 * k < s.draft.len →
      hostRead host (s.draft.from_ + 64 * k) (min 64 (s.draft.len - 64 * k)) = none →
      (∀ j < k, hostRead host (s.draft.from_ + 64 * j) (min 64 (s.draft.len - 64 * j)) ≠ none) →
      Runs (.draftLoadDone host) s { s with
        out := s.out ++ [.hostRead .rdCurr s.draft.from_ s.draft.len]
        draft := { s.draft with state := .checking, readFail := some (64 * k) } }) ∧
    (∀ host : HostView, s.draft.state ≠ .loading ∨ s.linkUp = false → Runs (.draftLoadDone host) s s) ∧
    (s.draft.state ≠ .checking → Runs .draftCheckDone s s) ∧
    (s.draft.state = .checking → ∃ t, Runs .draftCheckDone s t ∧ t.core = s.core ∧ t.committed = s.committed ∧
      t = { s with draft := t.draft, pick := { s.pick with evMark := t.pick.evMark } } ∧
      (s.checkStaged = none → t.draft = { s.draft with state := .checked, event := orBit s.draft.event 0 }) ∧
      (∀ e, s.checkStaged = some e → t.draft = { s.draft with
        state := .rejected, checkCode := e.1, whereSec := e.2.1, whereOff := e.2.2, event := orBit s.draft.event 1 }) ∧
      (∀ off, s.draft.readFail = some off → s.checkStaged = some (0x0403, 0xFF, off)) ∧
      (s.draft.readFail = none →
        s.checkStaged = draftCheck s.draft.copy s.draft.len (some s.geometry) s.core.draft .all))

/-- A 1 written to a bit of an event register clears it, a 0 leaves it, and a write changes nothing else (R100). -/
def Obligations.EventBitsClearByWritingOne : Prop :=
  ∀ (v : Word) (s : State),
    (∃ t, Runs (.registerWrite 0x00030 8 v) s t ∧ Cleared s.glb.event v t.glb.event ∧
      t = { s with glb := { s.glb with event := t.glb.event } }) ∧
    (∃ t, Runs (.registerWrite 0xF0028 8 v) s t ∧ Cleared s.mgt.event v t.mgt.event ∧
      t = { s with mgt := { s.mgt with event := t.mgt.event } }) ∧
    (s.operational = true →
      (∃ t, Runs (.registerWrite 0x10030 8 v) s t ∧ Cleared s.pick.event v t.pick.event ∧
        t = { s with pick := { s.pick with event := t.pick.event } }) ∧
      (∃ t, Runs (.registerWrite 0x20048 8 v) s t ∧ Cleared s.draft.event v t.draft.event ∧
        t = { s with draft := { s.draft with event := t.draft.event } }) ∧
      (∃ t, Runs (.registerWrite 0x80028 8 v) s t ∧ Cleared s.reed.event v t.reed.event ∧
        t = { s with reed := { s.reed with event := t.reed.event } }) ∧
      (∃ t, Runs (.registerWrite 0xA0010 8 v) s t ∧ Cleared s.memr.event v t.memr.event ∧
        t = { s with memr := { s.memr with event := t.memr.event } }) ∧
      (∃ t, Runs (.registerWrite 0xC0030 8 v) s t ∧ Cleared s.integ.event v t.integ.event ∧
        t = { s with integ := { s.integ with event := t.integ.event } }) ∧
      (∃ t, Runs (.registerWrite 0xD0050 8 v) s t ∧ Cleared s.twin.event v t.twin.event ∧
        t = { s with twin := { s.twin with event := t.twin.event } }) ∧
      ∃ t, Runs (.registerWrite 0xE0318 8 v) s t ∧ Cleared s.opt.event v t.opt.event ∧
        t = { s with opt := { s.opt with event := t.opt.event } })

/-- Register writes that complete: a plain field, a read-only register, which keeps its value, and a ring's base, whose
low 12 bits stay 0; a block that does not answer drops a write (R7, R8, R430). `IDE_REQUIRED` set in operational state where no stream is
up takes the host link down: that is reported (R444). A CXL component register takes a value that the write and its content fix, and
reads it back; what it is, is a free value. -/
def Obligations.RegisterWritesComplete : Prop :=
  ∀ (v : Word) (s : State),
    (let t := { s with glb := { s.glb with ideRequired := v.getLsbD 16, limitMs := v.toNat % 2 ^ 16 } };
      (t.linkUp = s.linkUp → Runs (.registerWrite 0x00020 8 v) s t) ∧
      (s.linkUp = true → t.linkUp = false → s.operational = true → ∃ u, Runs (.registerWrite 0x00020 8 v) s u ∧
        u.glb = { t.glb with event := orBit s.glb.event 1 } ∧ u.core = s.core ∧
        (s.beating = true → u.flog.waiting = s.flog.waiting ++ [s.reportEntry 0x0D20 0]))) ∧
    (∀ off, 0xE00000 ≤ off → off < 0xE10000 → off % 8 = 0 → (s.compReg off).getD 0 < 2 ^ 64 → ∃ t, Runs (.registerWrite off 8 v) s t ∧
      t.readReg off = some (Config.componentWrite off ((s.compReg off).getD 0) v.toNat % 2 ^ 64) ∧
      t = { s with glb := { s.glb with comp := t.glb.comp } }) ∧
    Runs (.registerWrite 0x00000 8 v) s s ∧
    (s.operational = true →
      (s.draft.stageAddr < 2 ^ 64 → Runs (.registerWrite 0x20000 8 v) s { s with draft := { s.draft with stageAddr := v.toNat / 64 * 64 } }) ∧
      Runs (.registerWrite 0x10000 8 v) s s ∧
      (∀ ring < 64, ∃ t, Runs (.registerWrite (0x31000 + 32 * ring) 8 v) s t ∧ t = { s with ord := { s.ord with regs := t.ord.regs } } ∧
        (s.ord.regs.length = 64 → (s.ord.regs.getD ring {}).base < 2 ^ 64 →
          (t.ord.regs.getD ring {}).base = v.toNat / 4096 * 4096))) ∧
    (s.operational = false → Runs (.registerWrite 0x20000 8 v) s s)

/-- A bad access sets `REG_ACCESS` (bit 3 of GLB_EVENT) and does nothing else; a read so answered returns 0 (R429). -/
def Obligations.BadAccessIsIgnored : Prop :=
  ∀ (off size : Nat) (s : State), s.answers off = true → s.badAccess off size = true →
    (∃ t, Runs (.bar0BadAccess true off size) s t ∧ t.glb.event = orBit s.glb.event 3 ∧
      t = { s with glb := { s.glb with event := t.glb.event }, pick := { s.pick with evMark := t.pick.evMark } }) ∧
    (∃ t, Runs (.bar0BadAccess false off size) s t ∧ t.glb.event = orBit s.glb.event 3 ∧ t.out = s.out ++ [.readData 0] ∧
      t = { s with out := t.out, glb := { s.glb with event := t.glb.event }, pick := { s.pick with evMark := t.pick.evMark } }) ∧
    ∀ v, ∃ t, Runs (.registerWrite off size v) s t ∧ t.glb.event = orBit s.glb.event 3 ∧
      t = { s with glb := { s.glb with event := t.glb.event }, pick := { s.pick with evMark := t.pick.evMark } }

/-- `ENABLE` of a ring: a rise clears its `ERROR`, and writing 0 clears `ENABLE` alone; every other ring stays (R535). -/
def Obligations.RingEnableClearsError : Prop :=
  ∀ (ring : Nat) (s : State), s.operational = true → ring < 64 → s.ord.regs.length = 64 → s.core.rings.length = 64 →
    ((s.ord.regs.getD ring {}).enable = false → ∃ t, Runs (.ringEnable ring) s t ∧
      t.ord.regs.getD ring {} = { s.ord.regs.getD ring {} with enable := true } ∧
      t.core.rings.getD ring {} = { s.core.rings.getD ring {} with error := 0 } ∧
      (∀ j, j ≠ ring → t.ord.regs.getD j {} = s.ord.regs.getD j {} ∧ t.core.rings.getD j {} = s.core.rings.getD j {}) ∧
      t = { s with ord := { s.ord with regs := t.ord.regs }, core := { s.core with rings := t.core.rings }
                   committed := { s.committed with rings := t.committed.rings } }) ∧
    ∃ t, Runs (.ringDisable ring) s t ∧ t.ord.regs.getD ring {} = { s.ord.regs.getD ring {} with enable := false, stops := (s.ord.regs.getD ring {}).stops + 1 } ∧
      (∀ j, j ≠ ring → t.ord.regs.getD j {} = s.ord.regs.getD j {}) ∧ t = { s with ord := { s.ord with regs := t.ord.regs } }

/-- The TWIN_CTRL commands where they are accepted: `PAIR` starts pairing at the next beat window, where a draft is in force (R97, R380):
the twin attests and hello frames leave, or pairing fails with code 7; `ABSORB` names the absorb beat of a lost twin and tells the
fabric (R398), `HANDBACK` and `DETACH` take the beat named (R403, R404), `COMPARE` sends the mirror digest (R394), and `DRAIN` waits for
its beat, takes the mirror's image there, and ends with it written, whole or, where the range is too short, its first 64-byte units (R405). -/
def Obligations.TwinCommandsAct : Prop :=
  ∀ s : State, s.operational = true →
    (s.bar0Busy = false → Runs .pair s { s with twin := { s.twin with pairAt := true } }) ∧
    (∀ r : Readings, s.twin.pairAt = true → s.core.draft.isSome = true → s.twin.state = .unpaired → s.pick.phase = .span →
      s.core.running = [] → s.thermalEmergency r = false → s.mgt.waiting = [] → ∃ t, Runs (.beatWindowOpen r) s t ∧
        t.pick.phase = .opened ∧ t.twin.pairAt = false ∧
        (Config.attests s.freeCtr = true → t.twin.state = .handshake ∧ t.twin.pairFail = 0 ∧
          ∀ p ∈ [16, 17], ∃ f, Out.hello p f ∈ t.out) ∧
        (Config.attests s.freeCtr = false → t.twin.state = .unpaired ∧ t.twin.pairFail = 7)) ∧
    (s.twin.state = .absorbed → s.twin.holds = false → s.twin.absorbAt = none → s.twin.dropped = false →
      s.pick.counter + 2 ≤ s.twin.beat → ∃ t, Runs .absorb s t ∧ t.twin = { s.twin with absorbAt := some s.twin.beat, event := t.twin.event } ∧
        t.out.getLast? = some (.lossNoticeOut (twinAddr s.myAddr) s.twin.lastBeat (some s.twin.beat)) ∧ t.core.mem = s.core.mem) ∧
    (s.twin.state = .absorbed → s.twin.holds = true → Runs .handback s { s with twin := { s.twin with handbackAt := some s.twin.beat } }) ∧
    (s.twin.state = .sync → Runs .detach s { s with twin := { s.twin with detachAt := some s.twin.beat } }) ∧
    (s.twin.state ∈ [.sync, .recopy] →
      Runs .compare s { s with out := s.out ++ [.digestSend s.mirrorDigest s.twin.mirror.last] }) ∧
    (s.twin.state = .sync → s.twin.drain = none → s.twin.drainDue = false →
      Runs .drain s { s with twin := { s.twin with drainDue := true, drainState := 1, drainBytes := 0 } }) ∧
    (s.twin.drainDue = true → s.pick.phase = .sealed → ∃ t, Runs .configApply s t ∧ t.twin.drainDue = false ∧
      t.twin.drain = some (s.twin.mirror.mem, s.twin.mirror.objs.filter fun p => p.2.cls = 0)) ∧
    (∀ d, s.twin.drain = some d → s.linkUp = true →
      let img := drainImage (s.policy.coding = 1) d.2 fun a => { s.twin.mirror with mem := d.1 }.block a
      ∃ t, Runs .drainDone s t ∧ t.twin.drain = none ∧ t.twin.event = orBit s.twin.event 4 ∧
        (img.length ≤ s.twin.drainLen → t.twin.drainState = 2 ∧ t.twin.drainBytes = img.length) ∧
        (s.twin.drainLen < img.length → t.twin.drainState = 3 ∧ t.twin.drainBytes = s.twin.drainLen / 64 * 64) ∧
        (t.twin.drainBytes = 0 → t.out = s.out) ∧
        (t.twin.drainBytes ≠ 0 → t.out = (s.hostPut s.twin.drainAddr (img.take t.twin.drainBytes)).out) ∧
        t.core = s.core ∧ t.committed = s.committed ∧ t.twin.state = s.twin.state ∧ t.twin.mirror = s.twin.mirror)

/-- A command that its block's state does not allow is ignored: `CMD_REJECTED` (bit 4 of DRAFT_EVENT, bit 5 of TWIN_EVENT) is set, and
nothing else changes but the mark of that event (R83, R88). -/
def Obligations.CommandsIgnored : Prop :=
  ∀ (c : Instr) (s : State), s.operational = true →
    (((c = .discard ∧ s.draft.state ∈ [.empty, .applied]) ∨ (c = .disarm ∧ s.draft.state ≠ .armed) ∨
      (c = .arm ∧ (s.draft.state ∈ [.empty, .loading, .checking, .rejected, .applied] ∨ s.draft.applyBeat < s.pick.counter + 2))) →
    ∃ t, Runs c s t ∧ (∀ i, t.draft.event.testBit i = (s.draft.event.testBit i || i == 4)) ∧
      t = { s with draft := { s.draft with event := t.draft.event }, pick := { s.pick with evMark := t.pick.evMark } }) ∧
    (((c = .pair ∧ s.bar0Busy = true) ∨ (c = .handback ∧ (s.twin.state ≠ .absorbed ∨ s.twin.holds = false)) ∨
      (c = .detach ∧ s.twin.state ≠ .sync) ∨ (c = .compare ∧ s.twin.state ≠ .sync ∧ s.twin.state ≠ .recopy) ∨
      (c = .drain ∧ (s.twin.state ≠ .sync ∨ s.twin.drain.isSome ∨ s.twin.drainDue = true)) ∨
      (c = .absorb ∧ (s.twin.state ≠ .absorbed ∨ s.twin.holds = true ∨ s.twin.absorbAt.isSome ∨ s.twin.beat < s.pick.counter + 2))) →
    ∃ t, Runs c s t ∧ (∀ i, t.twin.event.testBit i = (s.twin.event.testBit i || i == 5)) ∧
      t = { s with twin := { s.twin with event := t.twin.event }, pick := { s.pick with evMark := t.pick.evMark } })

/-! ## Mailbox -/

/-- The commands that read answer at once with the bytes Table 18-4 gives them, and change nothing beside the response. -/
def Obligations.MailboxReadsAnswer : Prop :=
  ∀ (src : MboxSource) (s : State),
    (MboxOk s src 0x01 → ∃ t, Runs (.getInfo src) s t ∧ Answered src 0x01 0 0 none s.infoBytes s t ∧ MgmtOnly s t) ∧
    (MboxOk s src 0x02 → ∃ t, Runs (.getBootRecord src) s t ∧ Answered src 0x02 0 0 none s.bootRec s t ∧ MgmtOnly s t) ∧
    (MboxOk s src 0x03 → ∃ t, Runs (.readSensors src) s t ∧ Answered src 0x03 0 0 none s.sensorBytes s t ∧ MgmtOnly s t) ∧
    (MboxOk s src 0x04 → ∃ t, Runs (.readSetting src) s t ∧
      Answered src 0x04 0 0 none (s.setting (fieldAt (s.request src 0x04).payload 0 2)) s t ∧ MgmtOnly s t)

/-- Where beat windows open, a beat command that passes its tests waits for the next one, behind those that wait already, and by BAR0
its status is waiting; nothing else changes (R38). -/
def Obligations.BeatCommandsWait : Prop :=
  ∀ (src : MboxSource) (s : State) (e : Instr × Nat), s.beating = true → s.imageBusy = false →
    e ∈ [(.reset src, 0x10), (.powerState src, 0x11), (.powerLimit src, 0x12), (.clockCap src, 0x13), (.scrubRate src, 0x14),
      (.laserRemove src, 0x15), (.imageActivate src, 0x32)] → MboxOk s src e.2 → s.glb.state ≠ .warm →
    ∃ t, Runs e.1 s t ∧ t.mgt.waiting = s.mgt.waiting ++ [s.request src e.2] ∧
      t = { s with mgt := { s.mgt with waiting := t.mgt.waiting, reqOp := t.mgt.reqOp, status := t.mgt.status } } ∧
      (src = .bar0 → t.mgt.status = 2) ∧ (src ≠ .bar0 → t.mgt.status = s.mgt.status ∧ t.mgt.reqOp = s.mgt.reqOp)

/-- Where no window will open, a beat command takes effect at once and answers with the beat: a limit, a cap, a scrub rate, a
cartridge made safe, and the cold start that a reset or an activation asks for (R464, R468, R508, R513, R514; that it happens at once
is the model's choice, in the log). -/
def Obligations.BeatCommandsAtOnce : Prop :=
  ∀ (src : MboxSource) (s : State), s.AtOnce →
    let arg := fun op => fieldAt (s.request src op).payload 0 2
    let byte := fun op => byteAt (s.request src op).payload 0
    let n := some s.pick.counter
    (MboxOk s src 0x12 → ∃ t, Runs (.powerLimit src) s t ∧ Answered src 0x12 0 0 n [] s t ∧
      MgmtOnly { s with mgt := { s.mgt with limitW := arg 0x12 } } t) ∧
    (MboxOk s src 0x13 → ∃ t, Runs (.clockCap src) s t ∧ Answered src 0x13 0 0 n [] s t ∧
      MgmtOnly { s with mgt := { s.mgt with cap := byte 0x13 } } t) ∧
    (MboxOk s src 0x14 → ∃ t, Runs (.scrubRate src) s t ∧ Answered src 0x14 0 0 n [] s t ∧
      MgmtOnly { s with integ := { s.integ with rate := arg 0x14 } } t) ∧
    (MboxOk s src 0x15 → s.activeCarts = 6 → ∃ t, Runs (.laserRemove src) s t ∧ Answered src 0x15 0 0 n [] s t ∧
      t.opt.carts = s.opt.carts.set (byte 0x15) .safe ∧ MgmtOnly { s with opt := { s.opt with carts := t.opt.carts, event := t.opt.event } } t) ∧
    (MboxOk s src 0x10 → byte 0x10 = 0 → s.imageBusy = false → ∃ t, Runs (.reset src) s t ∧ Answered src 0x10 0 0 n [] s t ∧
      t.glb.state = .cold ∧ t.glb.ready = false ∧ t.core = s.core ∧ t.flash = s.flash ∧ t.power = s.power) ∧
    (MboxOk s src 0x32 → byte 0x32 = 0 → s.imageBusy = false → s.flash.verdict = some 0 → ∃ t, Runs (.imageActivate src) s t ∧
      Answered src 0x32 0 0 n [] s t ∧ t.glb.state = .cold ∧ t.flash = s.flash ∧ t.core = s.core)

/-- A power limit or a cap that waits takes effect at the opening of the next window (R38, R513, R514). A scrub rate, a laser removal and
`POWER_STATE` take effect with the configuration of their beat, behind its draft (R43): standby is left into management-only state,
joining the pick again (R512). -/
def Obligations.WaitingCommandsTakeEffectAtTheBeat : Prop :=
  ∀ (c : MboxCmd) (s : State),
    (∀ r : Readings, s.beating = true → s.pick.phase = .span → s.core.running = [] → s.thermalEmergency r = false → s.mgt.waiting = [c] →
      ∃ t, Runs (.beatWindowOpen r) s t ∧ t.mgt.waiting = [] ∧
        (c.opcode = 0x12 ∨ c.opcode = 0x112 → t.mgt.limitW = fieldAt c.payload 0 2) ∧ (c.opcode = 0x13 → t.mgt.cap = byteAt c.payload 0) ∧
        (c.opcode = 0x11 ∨ c.opcode = 0x14 ∨ c.opcode = 0x15 → t.mgt.due = s.mgt.due ++ [c])) ∧
    (c.opcode = 0x14 → s.mgt.due = [c] → s.beating = true → s.pick.phase = .sealed →
      ∃ t, Runs .configApply s t ∧ t.mgt.due = [] ∧ t.integ.rate = fieldAt c.payload 0 2) ∧
    (c.opcode = 0x15 → s.mgt.due = [c] → s.beating = true → s.pick.phase = .sealed → s.opt.warm = [] → s.activeCarts = 6 →
      ∃ t, Runs .configApply s t ∧ t.mgt.due = [] ∧ t.opt.carts = s.opt.carts.set (byteAt c.payload 0) .safe) ∧
    (c.opcode = 0x11 → s.mgt.due = [c] → s.glb.state = .standby → s.pick.phase = .sealed →
      ∃ t, Runs .configApply s t ∧ t.mgt.due = [] ∧
        (byteAt c.payload 0 = 0 → t.glb.state = .mgmtOnly ∧ t.pick.joining = true ∧ t.core.onchip.sram = [] ∧ t.core.onchip.acc = [] ∧
          t.core.mem = s.core.mem) ∧
        (byteAt c.payload 0 = 1 → t.glb.state = .standby))

/-- The tests of R502 and R503 in their order: `BUSY` (4), then `AUTH` (5), then `BAD_ARGUMENT` (2), with nothing done. -/
def Obligations.MailboxRefusals : Prop :=
  ∀ (src : MboxSource) (s : State) (e : Instr × Nat),
    e ∈ [(.getInfo src, 0x01), (.getBootRecord src, 0x02), (.readSensors src, 0x03), (.readSetting src, 0x04), (.reset src, 0x10),
      (.powerState src, 0x11), (.powerLimit src, 0x12), (.clockCap src, 0x13), (.scrubRate src, 0x14), (.laserRemove src, 0x15),
      (.settingWrite src, 0x21), (.imageData src, 0x30), (.imageVerify src, 0x31), (.imageActivate src, 0x32), (.fwCommit src, 0x33),
      (.debugChallenge src, 0x40), (.debugUnlock src, 0x41)] →
    let c := s.request src e.2
    (s.sourceBusy c = true → ∃ t, Runs e.1 s t ∧ Answered src e.2 4 0 none [] s t ∧ MgmtOnly s t) ∧
    (s.sourceBusy c = false → smbusOnly e.2 = true → c.isSmbus = false →
      ∃ t, Runs e.1 s t ∧ Answered src e.2 5 0 none [] s t ∧ MgmtOnly s t) ∧
    (s.sourceBusy c = false → (smbusOnly e.2 = true → c.isSmbus = true) → (c.plain && lengthOk c && argumentOk c) = false →
      ∃ t, Runs e.1 s t ∧ Answered src e.2 2 0 none [] s t ∧ MgmtOnly s t)

/-- The commands that write flash begin their work, and no answer leaves yet: a boot draft that passes its check, a setting, and image
data, which outside recovery starts, at offset 0, with the copy of set A where it was booted; in recovery it is gathered and answered at
once (R96, R474, R482, R506). -/
def Obligations.FlashCommandsBegin : Prop :=
  ∀ (src : MboxSource) (s : State),
    let begun := fun (op : Nat) (f : Flash) => { s with
      flash := f
      mgt := { s.mgt with longs := s.mgt.longs ++ [s.request src op], status := if src = .bar0 then 1 else s.mgt.status
                          reqOp := if src = .bar0 then op else s.mgt.reqOp } }
    let payload := fun (op : Nat) => (s.request src op).payload
    (∀ (host : HostView) (b : Bytes), MboxOk s src 0x20 → s.mgt.longs = [] →
      hostRead host (fieldAt (payload 0x20) 0 8) (fieldAt (payload 0x20) 8 4) = some b →
      draftCheck b (fieldAt (payload 0x20) 8 4) (some s.geometry) none .none = none →
      Runs (.bootDraft src host) s { begun 0x20 { s.flash with pendDraft := some b } with
        out := s.out ++ [.hostRead .rdCurr (fieldAt (payload 0x20) 0 8) (fieldAt (payload 0x20) 8 4)] }) ∧
    (MboxOk s src 0x21 →
      Runs (.settingWrite src) s (begun 0x21 { s.flash with pendKey := some (fieldAt (payload 0x21) 0 2, (payload 0x21).drop 4) })) ∧
    (MboxOk s src 0x30 → s.glb.state ≠ .recovery → Runs (.imageData src) s (begun 0x30 (
      if fieldAt (payload 0x30) 0 4 = 0 then
        { s.flash with writing := true, verdict := none, copying := decide (byteAt s.bootRec 1 = 0), staged := [] }
      else { s.flash with writing := true }))) ∧
    (MboxOk s src 0x30 → s.glb.state = .recovery →
      let off := fieldAt (payload 0x30) 0 4
      let old := if off = 0 then [] else s.flash.staged
      ∃ t, Runs (.imageData src) s t ∧ Answered src 0x30 0 0 none [] s t ∧
        t.flash = { s.flash with staged := putImage old off ((payload 0x30).drop 4), verdict := none } ∧
        MgmtOnly { s with flash := t.flash } t)

/-- `IMAGE_VERIFY` keeps the verdict it answers; `FW_COMMIT` raises RPMC counter 0 to set A's security version; a challenge gives a
nonce that the next replaces; an unlock takes the token's scope and uses the nonce up (R507, R509, R511). -/
def Obligations.ImageAndDebugCommands : Prop :=
  ∀ (src : MboxSource) (s : State),
    (MboxOk s src 0x31 → s.glb.state ≠ .recovery → s.verifySet s.flash.setA = 0 → ∃ t, Runs (.imageVerify src) s t ∧
      Answered src 0x31 0 0 none (leBytes 2 0) s t ∧ t.flash = { s.flash with verdict := some 0 } ∧ MgmtOnly { s with flash := t.flash } t) ∧
    (∀ code, MboxOk s src 0x31 → s.glb.state ≠ .recovery → s.verifySet s.flash.setA = code → code ≠ 0 → ∃ t,
      Runs (.imageVerify src) s t ∧ Answered src 0x31 8 code none (leBytes 2 code) s t ∧
      t.flash = { s.flash with verdict := some code } ∧ MgmtOnly { s with flash := t.flash } t) ∧
    (MboxOk s src 0x33 → s.fw.set = 0 → s.fw.opened = true → s.flash.rpmc < s.fw.secVer → ∃ t, Runs (.fwCommit src) s t ∧
      Answered src 0x33 0 0 none (leBytes 4 s.fw.secVer) s t ∧ t.flash = { s.flash with rpmc := s.fw.secVer } ∧
      MgmtOnly { s with flash := t.flash } t) ∧
    (MboxOk s src 0x33 → s.fw.secVer ≤ s.flash.rpmc → ∃ t, Runs (.fwCommit src) s t ∧ Answered src 0x33 3 0 none [] s t ∧ MgmtOnly s t) ∧
    (MboxOk s src 0x40 → ∃ t, Runs (.debugChallenge src) s t ∧
      Answered src 0x40 0 0 none (sized 32 (Config.nonce s.freeCtr)) s t ∧ t.proto = { s.proto with nonce := some s.freeCtr } ∧
      t.freeCtr = s.freeCtr + 1 ∧ MgmtOnly { s with proto := t.proto, freeCtr := t.freeCtr } t) ∧
    (MboxOk s src 0x41 → s.glb.state ∈ [.mgmtOnly, .recovery] → s.tokenOk (s.request src 0x41).payload = true → ∃ t,
      Runs (.debugUnlock src) s t ∧ Answered src 0x41 0 0 none [] s t ∧ t.proto.nonce = none ∧ t.proto.scope = max s.proto.scope (byteAt (s.request src 0x41).payload 5) ∧
      (t.proto.scope = 2 → t.fw.akErased = true) ∧ t.glb.ready = false ∧ t.core = s.core ∧ t.flash = s.flash)

/-- Each flash write ends with its own effect (R472, R474, R482, R506). -/
def Obligations.FlashWritesEnd : Prop :=
  ∀ s : State,
    (s.flash.copying = true → Runs (.flashWriteDone .imageCopy) s { s with flash := { s.flash with copying := false, setB := s.flash.setA } }) ∧
    (∀ c, s.mgt.longs.find? (·.opcode = 0x30) = some c → s.flash.copying = false → ∃ t, Runs (.flashWriteDone .imageSet) s t ∧
      t.flash.setA = putImage s.flash.setA (fieldAt c.payload 0 4) (c.payload.drop 4) ∧ t.flash.setB = s.flash.setB ∧
      t.flash.writing = false ∧ t.flash.verdict = none ∧ t.mgt.longs = s.mgt.longs.erase c ∧ byteAt t.bootRec 0 = 0 ∧ t.core = s.core) ∧
    (∀ c d, s.mgt.longs.find? (·.opcode = 0x20) = some c → s.flash.pendDraft = some d → ∃ t, Runs (.flashWriteDone .bootDraft) s t ∧
      t.flash.draft.current = some d ∧ t.flash.draftFresh = true ∧ t.flash.pendDraft = none ∧ t.flash.settings = s.flash.settings ∧
      t.core = s.core) ∧
    (∀ c k v, s.mgt.longs.find? (·.opcode = 0x21) = some c → s.flash.pendKey = some (k, v) → ∃ t, Runs (.flashWriteDone .setting) s t ∧
      t.flash.settings.current = some (settingBytes (s.settings.filter (·.key ≠ k) ++ [⟨k, v⟩])) ∧ t.flash.draft = s.flash.draft ∧
      t.core = s.core) ∧
    (s.glb.state = .recovery → s.flash.writing = true → ∃ t, Runs (.flashWriteDone .recoveryImage) s t ∧ t.flash.setA = s.flash.staged ∧
      t.glb.state = .cold ∧ t.flash.writing = false)

/-! ## Orders -/

/-- A NOP that is ready completes with status 0 and changes no other order and nothing else (R108). -/
def Obligations.NopCompletes : Prop :=
  ∀ (j : Nat) (o : OrderSt) (s : State), s.atConfig = true → OrderReady s j 0x00 o →
    ∃ t, Runs (.nop j) s t ∧ Ended t j 0 0 ∧ t = { s with core := { s.core with orders := t.core.orders } } ∧
      ∀ k, k ≠ j → t.core.order k = s.core.order k

/-- `CTX_CREATE` makes the context of the lowest free index, with the next incarnation, and answers its handle: the incarnation in
[15:8], zero in [7:6] and the index in [5:0] (R119 to R121). No other context, order, object or byte changes. While the pair mirrors, a
slot that the twin's draft lacks is `CTX.SLOT`, and no context is made (R391). -/
def Obligations.ContextIsCreated : Prop :=
  ∀ (j i : Nat) (o : OrderSt) (d : Draft) (sl : SlotDef) (s : State), s.atConfig = true → OrderReady s j 0x01 o →
    s.core.draft = some d → d.slot (o.arg 0x10 1) = some sl →
    (s.mirroring = true →
      s.core.resident + ((s.twin.mirror.ctxs.filter (·.state ≠ .free)).length + (s.twinCreates 0x01).length) < 64 →
      getKey s.twin.mirror.slots sl.id = none →
      ∃ t, Runs (.ctxCreate j) s t ∧ Ended t j 0x0503 0 ∧ t = { s with core := { s.core with orders := t.core.orders } }) ∧
    (s.mirroring = false → s.twin.holds = false → o.ring < 64 →
    s.core.resident < 64 → s.core.jobs (byteAt o.bytes 2) < d.jobLimits.getD (byteAt o.bytes 2) 0 →
    s.core.t2Used s.core.objs sl.harness + sl.cuCount * 1835008 ≤ (d.tier sl.harness).quota →
    s.core.ctxs.length = 64 → i < 64 → (s.core.ctx i).state = .free → (∀ k < i, (s.core.ctx k).state ≠ .free) →
    ∃ t, Runs (.ctxCreate j) s t ∧ (t.core.ctx i).state = .idle ∧ (t.core.ctx i).client = byteAt o.bytes 2 ∧
      (t.core.ctx i).slot = sl.id ∧ (t.core.ctx i).inc = (if (s.core.ctx i).inc = 255 then 1 else (s.core.ctx i).inc + 1) ∧
      ((s.core.ctx i).inc ≤ 255 → 1 ≤ (t.core.ctx i).inc ∧ (t.core.ctx i).inc ≤ 255) ∧ t.core.ctxOf 0 = none ∧
      t.core.ctxOf ((t.core.ctx i).inc * 256 + i) = some i ∧
      Ended t j 0 ((t.core.ctx i).inc * 256 + i) ∧ (∀ k, k ≠ i → t.core.ctx k = s.core.ctx k) ∧
      (∀ k, k ≠ j → t.core.order k = s.core.order k) ∧
      t = { s with core := { s.core with orders := t.core.orders, ctxs := t.core.ctxs } })

/-- `CTX_DESTROY` frees the context's index, its objects and its pool, and completes (R123). `CTX_RESET` at the commit step returns its
context to IDLE with no fault code, live entries or saved state, keeps its handle and its objects, and completes; the register LAST_RESET
names a context reset (R488). -/
def Obligations.ContextEndsOrStartsOver : Prop :=
  ∀ (j x : Nat) (o : OrderSt) (s : State), s.core.ctxOf o.ctx = some x → s.core.ctxs.length = 64 →
    (s.atConfig = true → OrderReady s j 0x02 o →
      ∃ t, Runs (.ctxDestroy j) s t ∧ Ended t j 0 0 ∧ t.core.ctx x = { inc := (s.core.ctx x).inc } ∧ t.core.pool x = none ∧
        (∀ p ∈ t.core.objs, p.2.ctx ≠ x ∧ p ∈ s.core.objs) ∧ (∀ k, k ≠ x → t.core.ctx k = s.core.ctx k) ∧
        (∀ k, k ≠ j → t.core.order k = s.core.order k) ∧ (∀ q ∈ s.core.pools, q.ctx ≠ x → q ∈ t.core.pools)) ∧
    (s.operational = true → s.pick.phase = .latched → OrderReady s j 0x03 o → s.core.faulting x = false →
      ∃ t, Runs (.ctxReset j) s t ∧ Ended t j 0 0 ∧ (t.core.ctx x).state = .idle ∧ (t.core.ctx x).fault = 0 ∧
        (t.core.ctx x).live = [] ∧ (t.core.ctx x).saved = none ∧ (t.core.ctx x).inc = (s.core.ctx x).inc ∧ t.glb.lastReset = 3 ∧
        t.core.mem = s.core.mem ∧ t.committed = s.committed)

/-- `RUN` releases one task for each descriptor of its list, none of them running yet, where the sectors of the list and of the tasks'
descriptors pass their check and every descriptor passes R124; the order goes on without a status. With an empty list it completes with
`TASK.LIST`. -/
def Obligations.RunReleasesItsTasks : Prop :=
  ∀ (j x : Nat) (o : OrderSt) (sl : SlotDef) (s : State), s.atConfig = true → OrderReady s j 0x10 o →
    s.core.ctxOf o.ctx = some x → s.core.slotOf x = some sl →
    let n := o.arg 0x18 4
    let raws := (List.range n).map fun i => s.core.readAs x (o.arg 0x10 8 + 64 * i) 64
    let me := if (s.core.ctx x).absorbedTag then twinAddr s.myAddr else s.myAddr
    (n = 0 ∨ 65536 < n → ∃ t, Runs (.run j) s t ∧ Ended t j 0x0204 0 ∧ t = { s with core := { s.core with orders := t.core.orders } }) ∧
    (1 ≤ n → n ≤ 65536 → s.glb.filter = [] → s.linkUp = true → s.core.rangesBlocked (s.core.listRanges x o) = false →
      (∀ r ∈ s.core.listRanges x o, ∀ sec ∈ sectorsOf r.1 r.2, s.core.syndrome s.core.mem sec = 0) → (∀ p ∈ raws.zipIdx, taskDescBad sl.cuCount p.2 p.1 = false ∧
        s.core.engineDescBad x me sl.firstCu (readTaskDesc p.1) = false) →
      ∃ t, Runs (.run j) s t ∧ (∃ o', t.core.order j = some o' ∧ o'.applied = true ∧ o'.status = none ∧
          o'.tasks.map Task.desc = raws.map (fun b => (s.core.newTask x sl.firstCu (readTaskDesc b)).desc) ∧
          ∀ k ∈ o'.tasks, k.phase = .waiting) ∧
        t = { s with core := { s.core with orders := t.core.orders, faults := t.core.faults, need := [], starved := false
                                           pm := { s.core.pm with marks := t.core.pm.marks } } })

/-- `OBJ_CREATE` makes its object at the lowest free index with the homes that R337 gives; without a fill it completes with that
index, else it waits for the fill. No other object changes, and no byte of memory (R318 to R323). -/
def Obligations.ObjectIsCreated : Prop :=
  ∀ (j x : Nat) (o : OrderSt) (homes : List Home) (s : State), s.atConfig = true → OrderReady s j 0x20 o →
    s.core.ctxOf o.ctx = some x → objCreateBad s.core (s.core.ctx x).harness o = false → s.newHomes x o = some homes →
    let i := s.core.freeIndex x
    ∃ t ob, Runs (.objCreate j) s t ∧ t.core.obj i = some ob ∧ ob.ctx = x ∧ ob.id = o.arg 0x10 4 ∧ ob.size = o.arg 0x18 8 ∧
      ob.homes = homes ∧ ob.created = s.pick.counter ∧ ob.filling = o.wantsFill ∧
      (o.wantsFill = false → Ended t j 0 (i % 2 ^ 20)) ∧
      (o.wantsFill = true → ∃ o', t.core.order j = some o' ∧ o'.applied = true ∧ o'.status = none) ∧
      (∀ k, k ≠ i → t.core.obj k = s.core.obj k) ∧ (∀ k, k ≠ j → t.core.order k = s.core.order k) ∧
      t = { s with core := { s.core with orders := t.core.orders, objs := t.core.objs } }

/-- `OBJ_DESTROY` frees the object it names, where no pool uses it, and every other object stays; `OBJ_HINT` whose list of moves is
empty, because none is wanted, sets affinity, lifetime and target tier and completes, and where tier 2 has no room for one of those wanted
it is `MEM.QUOTA` and sets none; else it lists its moves and waits for them; `OBJ_LOAD` and `OBJ_STORE` that pass
their checks begin their transfer (R325, R326, R338). -/
def Obligations.ObjectOrdersAct : Prop :=
  ∀ (j x i : Nat) (o : OrderSt) (ob : Obj) (s : State), s.atConfig = true → s.core.ctxOf o.ctx = some x →
    s.core.objById x (o.arg 0x10 4) = some (i, ob) → s.core.obj i = some ob →
    (OrderReady s j 0x21 o → (∀ p ∈ s.core.pools, addrIndex p.data ≠ i ∧ addrIndex p.table ≠ i ∧ addrIndex p.tree ≠ i) →
      ∃ t, Runs (.objDestroy j) s t ∧ Ended t j 0 0 ∧ t.core.obj i = none ∧ (∀ k, k ≠ i → t.core.obj k = s.core.obj k) ∧
        (∀ m ∈ t.core.moves, m.obj ≠ i) ∧ (∀ k, k ≠ j → t.core.order k = s.core.order k) ∧ t.core.ctxs = s.core.ctxs) ∧
    (OrderReady s j 0x22 o → (o.arg 0x14 1 = 1 → ob.farOk = true) →
      let tier := o.arg 0x14 1
      let toT2 := ob.homes.any (hintToT2 tier (affinityDies (o.hintAffinity ob)))
      let told := { ob with affinity := o.hintAffinity ob, lifetime := o.arg 0x18 4, target := if tier = 0xFF then ob.target else some tier }
      (s.hintList i ob o = [] → toT2 = false → ∃ t, Runs (.objHint j) s t ∧ Ended t j 0 0 ∧ t.core.obj i = some told ∧
        t.core.mem = s.core.mem ∧ t.core.moves = s.core.moves) ∧
      (s.hintList i ob o = [] → toT2 = true → ∃ t, Runs (.objHint j) s t ∧ Ended t j 0x0702 0 ∧ t.memr.event = orBit s.memr.event 0 ∧
        t.core.objs = s.core.objs ∧ t.core.mem = s.core.mem ∧ t.core.moves = s.core.moves) ∧
      (s.hintList i ob o ≠ [] → ∃ t, Runs (.objHint j) s t ∧ t.core.moves = s.core.moves ++ s.hintList i ob o ∧
        t.core.obj i = some told ∧ (∃ o', t.core.order j = some o' ∧ o'.applied = true ∧ o'.status = none) ∧ t.core.mem = s.core.mem)) ∧
    (∀ e ∈ [(Instr.objLoad j, 0x23), (Instr.objStore j, 0x24)], OrderReady s j e.2 o → s.core.loadStoreCheck x o = .inr (i, ob) →
      ∃ t, Runs e.1 s t ∧ (∃ o', t.core.order j = some o' ∧ o'.applied = true ∧ o'.status = none) ∧
        t = { s with core := { s.core with orders := t.core.orders } })

/-- `KV_POOL_CREATE` that meets R225 and R226 makes a pool of free rows, free sequences and empty tree entries, and completes;
`KV_POOL_DESTROY` ends a pool whose sequences are all free (R247). -/
def Obligations.PoolsAreCreatedAndDestroyed : Prop :=
  ∀ (j x : Nat) (o : OrderSt) (s : State),
    (s.atConfig = true → OrderReady s j 0x30 o → s.core.ctxOf o.ctx = some x → s.core.poolBad x o = false →
      ∃ t p, Runs (.kvPoolCreate j) s t ∧ Ended t j 0 0 ∧ t.core.pool x = some p ∧ p.rows = o.arg 0x10 4 ∧
        p.maxSeq = o.arg 0x18 4 ∧ (∀ r, p.refs r = 0) ∧ (∀ q, (p.seq q).state = .free) ∧ (∀ e ∈ p.ents, e.row = 0xFFFFFFFF) ∧
        (∀ q ∈ s.core.pools, q ∈ t.core.pools) ∧ t.core.ctxs = s.core.ctxs) ∧
    (∀ p, KvReady s j 0x31 o x p → (∀ q ∈ p.seqs, q.state = .free) →
      ∃ t, Runs (.kvPoolDestroy j) s t ∧ Ended t j 0 0 ∧ t.core.pool x = none ∧
        (∀ q ∈ s.core.pools, q.ctx ≠ x → q ∈ t.core.pools) ∧ t.core.ctxs = s.core.ctxs)

/-- A join, the first of its beat to be searched, that finds its sequence free and enough free rows runs: it shares the rows of its leading hits, takes the lowest free rows
for the rest, each with one reference, and answers the number of hits (R233, R240, R242). -/
def Obligations.JoinTakesRows : Prop :=
  ∀ (j x : Nat) (o : OrderSt) (p : KvPool) (s : State), KvReady s j 0x32 o x p →
    let n := s.pick.counter
    let q := o.arg 0x10 4
    let k := o.arg 0x14 4
    let p0 := p.releasePins n
    let hs := p0.hits (s.core.hashList x (o.arg 0x18 8) (k / p.tpp)) 0
    let shared := hs.map fun e => (p0.ents.getD e {}).row
    let p1 := shared.foldl (fun p row => p.setRefs row (· + 1)) p0
    let need := ceilDiv k p.tpp - hs.length
    q < p.maxSeq → q < p.seqs.length → (p.seq q).state = .free → o.tried = none → 1 ≤ k → ceilDiv k p.tpp ≤ p.maxRows →
    need ≤ p1.freeRows.length → s.core.kvLeft.2 = false →
    ∃ t p', Runs (.kvJoin j) s t ∧ Ended t j 0 hs.length ∧ t.core.pool x = some p' ∧
      p'.seq q = { tokens := k, shared := hs.length, state := .running, changed := n, entries := shared ++ p1.freeRows.take need } ∧
      (∀ k', k' ≠ q → p'.seq k' = p.seq k') ∧ (∀ k', k' ≠ j → t.core.order k' = s.core.order k')

/-- A fork copies its parent's sequence, one reference more on each of its rows (R238). A grow of a running sequence whose last row is
full, or its own, takes the rows it needs (R238, R244). -/
def Obligations.ForkAndGrow : Prop :=
  ∀ (j x : Nat) (o : OrderSt) (p : KvPool) (s : State),
    let q := o.arg 0x10 4
    (KvReady s j 0x33 o x p →
      let par := p.seq (o.arg 0x14 4)
      q < p.maxSeq → q < p.seqs.length → o.arg 0x14 4 < p.maxSeq → (p.seq q).state = .free → par.state = .running →
      ∃ t p', Runs (.kvFork j) s t ∧ Ended t j 0 par.entries.length ∧ t.core.pool x = some p' ∧
        p'.seq q = { par with pending := 0, changed := s.pick.counter } ∧ (∀ k, k ≠ q → p'.seq k = p.seq k) ∧
        ∀ r < p.rowSt.length, p'.refs r = p.refs r + par.entries.count r) ∧
    (KvReady s j 0x34 o x p →
      let k := o.arg 0x14 4
      let old := p.seq q
      let need := ceilDiv (old.tokens + k) p.tpp - old.entries.length
      q < p.seqs.length → p.growBad q k = none → old.state = .running → 1 ≤ k →
      (old.tokens % p.tpp = 0 ∨ p.refs (old.entries.getD (old.entries.length - 1) 0) ≤ 1) → need ≤ p.freeRows.length →
      ∃ t p', Runs (.kvGrow j) s t ∧ Ended t j 0 need ∧ t.core.pool x = some p' ∧
        p'.seq q = { old with tokens := old.tokens + k, entries := old.entries ++ p.freeRows.take need, state := .running
                              pending := 0, changed := s.pick.counter } ∧
        (∀ k', k' ≠ q → p'.seq k' = p.seq k'))

/-- A leave frees its sequence and takes one reference from each of its rows (R246); a publish inserts from depth 0 on the
rows that the tree lacks, each with one reference more, answers their number and leaves every sequence as it is; of one row that the tree
holds, nothing is inserted (R234). A join deferred past its limit ends with `KV.ADMIT_STARVED` and frees its sequence; a grow stalled
past its limit is a context fault `KV.EXHAUSTED` (R245). -/
def Obligations.SequencesEndAndPublish : Prop :=
  ∀ (j x : Nat) (o : OrderSt) (p : KvPool) (s : State),
    let q := o.arg 0x10 4
    (KvReady s j 0x35 o x p → q < p.maxSeq → q < p.seqs.length → (p.seq q).state = .running →
      ∃ t p', Runs (.kvLeave j) s t ∧ Ended t j 0 0 ∧ t.core.pool x = some p' ∧ p'.seq q = { changed := s.pick.counter } ∧
        (∀ k, k ≠ q → p'.seq k = p.seq k) ∧ ∀ r < p.rowSt.length, p'.refs r = p.refs r - (p.seq q).entries.count r) ∧
    (KvReady s j 0x36 o x p → q < p.maxSeq → 1 ≤ o.arg 0x14 4 → o.arg 0x14 4 * p.tpp ≤ (p.seq q).tokens →
      let n := s.pick.counter
      let p0 := p.releasePins n
      let hs := s.core.hashList x (o.arg 0x18 8) (o.arg 0x14 4)
      let ins := KvPool.publishRows n (p.seq q) hs 0 0xFFFFFFFF 0 p0
      let row := (p.seq q).entries.getD 0 0
      ∃ t p', Runs (.kvPublish j) s t ∧ Ended t j 0 ins.2 ∧ ins.2 ≤ o.arg 0x14 4 ∧ t.core.pool x = some p' ∧ p'.seqs = p.seqs ∧
        p'.ents = ins.1.ents ∧ p'.ents.length = p.ents.length ∧ p'.rowSt = ins.1.rowSt ∧
        (o.arg 0x14 4 = 1 → (p0.search (hs.getD 0 0) 0).isSome = true → ins.2 = 0 ∧ p'.ents = p0.ents) ∧
        (∀ sl, o.arg 0x14 4 = 1 → p0.search (hs.getD 0 0) 0 = none → p0.slotFor (hs.getD 0 0) = some sl → sl < p.ents.length →
          ins.2 = 1 ∧ (p'.ents.getD sl {}).row = row ∧ (p'.ents.getD sl {}).hash = hs.getD 0 0 ∧ (p'.ents.getD sl {}).depth = 0 ∧
          (row < p.rowSt.length → p'.refs row = p.refs row + 1))) ∧
    ∀ a, s.core.order j = some o → s.core.ctxOf o.ctx = some x → s.core.pool x = some p → o.status = none → o.tried = some a →
      (s.atConfig = true → o.opcode = 0x32 → o.lastTry = some s.pick.counter → a + p.limit ≤ s.pick.counter →
        q < p.seqs.length → (p.seq q).state = .deferred →
        ∃ t p', Runs (.kvAdmitStarved j) s t ∧ Ended t j 0x0A02 0 ∧ t.core.pool x = some p' ∧
          p'.seq q = { changed := s.pick.counter } ∧ ∀ k, k ≠ q → p'.seq k = p.seq k) ∧
      (s.inSpan = true → o.opcode = 0x34 → a + p.limit < s.pick.counter → s.core.faulting x = false →
        ∃ t f, Runs (.kvExhausted j) s t ∧ t.core.faults = s.core.faults ++ [f] ∧ f.ctx = x ∧ f.code = 0x0A01 ∧ f.jno = j ∧
          t = { s with core := { s.core with orders := t.core.orders, faults := t.core.faults } })

/-! ## Tasks, memory and background work -/

/-- A vector unit starts the task that it chooses: one that waits, on its CU, with its dependencies met and room in the span (R54, R249),
and charges its undo (R63). A task whose own operation is done ends, and with the last its order completes (R136); a dependency
that has ended is met (R249); a task past its length is a context fault (R55). A task that wrote tier 3 ends with those writes sent, and
where one of them fails it is the context fault `MEM.FAR` instead (R443). -/
def Obligations.TasksRunAndEnd : Prop :=
  ∀ (t : TaskRef) (k : Task) (x : Nat) (s : State), s.core.task t = some k → s.core.taskCtx t = some x →
    (∀ cu cycle, s.inSpan = true → s.core.faulting x = false →
      { s with core := { s.core with cycle := cycle } }.choose cu .vector cycle = some (t, k, x) →
      k.phase = .waiting ∧ k.cu = cu ∧ k.desc.engine = 2 ∧ (∀ d ∈ k.desc.deps, d ∈ k.met) ∧
      cycle + k.desc.length + 64 ≤ spanCycles s.pick.period10 s.pick.windowUs s.pick.step ∧
      ∃ u, Runs (.taskStart cu .vector cycle) s u ∧
        (∃ k', u.core.task t = some k' ∧ k'.phase = .running ∧ k'.unit = some .vector ∧ k'.startPick = s.pick.counter ∧
          k'.startCycle = cycle ∧ k'.desc = k.desc) ∧
        u.core.pm.charges = (x, cuRegion cu, k.desc.undo) :: s.core.pm.charges ∧ u.core.mem = s.core.mem ∧ u.out = s.out) ∧
    (∀ farOk, s.inSpan = true → k.phase = .running → k.desc.engine = 2 → s.core.faulting x = false → (∀ ch, s.core.current ch = false) →
      s.core.hindered t = false → s.core.farDue (s.core.farBlocks t.jno) = [] →
      ∃ u, Runs (.taskEnd ⟨t, farOk⟩) s u ∧ (∃ k', u.core.task t = some k' ∧ k'.phase = .ended ∧ k'.unit = none ∧ k'.endPick = s.pick.counter) ∧
        (∀ o, s.core.order t.jno = some o → o.status = none → (∀ i y, o.tasks[i]? = some y → i = t.idx ∨ y.phase = .ended) →
          Ended u t.jno 0 (o.tasks.map Task.skips).sum) ∧
        (∀ j, j ≠ t.jno → u.core.order j = s.core.order j) ∧ u.core.mem = s.core.mem) ∧
    (∀ b w due, s.inSpan = true → k.phase = .running → k.desc.engine = 2 → s.core.faulting x = false → s.core.hindered t = false →
      s.core.farDue (s.core.farBlocks t.jno) = (b, w) :: due → s.linkUp = true →
      (∃ u, Runs (.taskEnd ⟨t, false⟩) s u ∧ Faulted s x 0x0706 (w.1 % 2 ^ 64) u ∧ u.memr.event = orBit s.memr.event 3) ∧
      ((∀ ch, s.core.current ch = false) → ∃ u, Runs (.taskEnd ⟨t, true⟩) s u ∧ (∃ k', u.core.task t = some k' ∧ k'.phase = .ended) ∧
        ∀ e ∈ (b, w) :: due, .farWrite (s.uioAt e.2.1) e.2.1 e.2.2 ∈ u.out)) ∧
    (∀ n d, s.operational = true → s.core.task ⟨t.jno, n⟩ = some d → n ∈ k.desc.deps → n ∉ k.met → d.phase = .ended →
      (d.desc.engine ≤ 2 ∨ d.endPick < s.pick.counter) →
      ∃ u, Runs (.dependencyMet t n) s u ∧ u.core.task t = some { k with met := n :: k.met } ∧
        u = { s with core := { s.core with orders := u.core.orders } }) ∧
    (s.inSpan = true → k.phase = .running → k.startPick = s.pick.counter →
      ∃ u more, Runs (.taskOverrun t) s u ∧ (∃ k', u.core.task t = some k' ∧ k'.phase = .aborted) ∧ u.core.mem = s.core.mem ∧
        u.core.faults = s.core.faults ++
          { ctx := x, code := 0x0201, cu := k.cu, cycle := k.startCycle + k.desc.length + 1, jno := t.jno, detail := 0, idx := t.idx
            arrayB := decide (k.unit = some .arrayB) } :: more ∧ (s.twin.holds = false → more = []))

/-- A task's write into one tile block that finds a line lands there: the bytes it writes read as written and every other byte as
before. Outside the context's objects it is `MEM.ACCESS`, in a WINDOWED object a context fault, and nothing is written (R59, R317, R329). -/
def Obligations.TaskWritesLand : Prop :=
  ∀ (t : TaskRef) (k : Task) (x addr : Nat) (data : Bytes) (s : State), s.operational = true → s.core.task t = some k →
    s.core.taskCtx t = some x → k.phase = .running → data ≠ [] → s.twin.state = .unpaired → s.glb.filter = [] → s.linkUp = true →
    let a := s.core.resolve x addr
    (∀ i o, s.core.find x addr data.length = some (i, o) → o.cls ≠ 1 → s.core.faulting x = false → s.core.mem.wf →
      blockOf (a + data.length - 1) = blockOf a → o.single = false → (s.core.touchRange (cuRegion k.cu) a data.length).2 = true →
      ¬ blockOf a ∈ s.core.pm.marks → s.core.filledShadow x a = false →
      ∃ u, Runs (.memoryWrite t addr data) s u ∧
        (∀ n, n < data.length → u.core.memByte u.core.mem (a + n) = data.getD n 0) ∧
        (∀ b, (b < a ∨ a + data.length ≤ b) → u.core.memByte u.core.mem b = s.core.memByte s.core.mem b) ∧
        getKey u.core.pm.writers (blockOf a) = some t.jno ∧ u.core.faults = s.core.faults ∧ u.core.orders = s.core.orders ∧
        u.core.objs = s.core.objs ∧ u.committed = s.committed) ∧
    (s.core.find x addr data.length = none → ∃ u, Runs (.memoryWrite t addr data) s u ∧ Faulted s x 0x0704 (addr % 2 ^ 64) u) ∧
    ∀ i o, s.core.find x addr data.length = some (i, o) → o.cls = 1 → ∃ u, Runs (.memoryWrite t addr data) s u ∧ Faulted s x 0x0705 0 u

/-- A task's read of a clean sector marks its block, one of a poisoned sector or outside the context's objects is a context fault, and
a failing check is counted and marks the block (R59, R317, R361, R365); one that a beam frame or a line of the CU's region cache serves
meets no stored sector (R343, R161); what the stack's own ECC corrected is counted for its stack (R354). A scrub read of a clean sector only
moves the die's cursor (R370). A clean region-cache line that fails is dropped, and a dirty one or a failing local SRAM restarts its
context; a location's third failure in consecutive picks is the module fault `MEM.ONCHIP` (R360). A twin fetch is answered with the
mirror's sector or "absent", and a fetched copy is written in place (R363). -/
def Obligations.SectorsAreRead : Prop :=
  ∀ (s : State),
    (∀ (t : TaskRef) (x addr : Nat) (err : ReadErr), s.operational = true → s.core.taskCtx t = some x → s.glb.filter = [] → s.linkUp = true →
      let a := s.core.resolve x addr
      let syn := s.core.readSyndrome s.core.mem (a / 64) err.flips
      let integ := if err.onDie = 0 then s.integ else (s.noteOnDie (s.core.stackOf a) err.onDie).integ
      (s.core.find x addr 1 = none → ∃ u, Runs (.sectorRead (.task t) addr err) s u ∧ Faulted s x 0x0704 (addr % 2 ^ 64) u) ∧
      (s.core.find x addr 1 ≠ none → s.core.framed (some (.task t)) a = true → ∃ u, Runs (.sectorRead (.task t) addr err) s u ∧
        blockOf a ∈ u.core.pm.marks ∧ u.core.faults = s.core.faults ∧ u.core.mem = s.core.mem ∧ u.integ = integ ∧ u.out = s.out) ∧
      (∀ k, s.core.task t = some k → s.core.find x addr 1 ≠ none → s.core.framed (some (.task t)) a = false →
        s.core.t1Holds (cuRegion k.cu) a = true → ∃ u, Runs (.sectorRead (.task t) addr err) s u ∧
        blockOf a ∈ u.core.pm.marks ∧ u.core.faults = s.core.faults ∧ u.core.mem = s.core.mem ∧ u.integ = integ ∧ u.out = s.out) ∧
      (∀ k, s.core.task t = some k → s.core.find x addr 1 ≠ none → s.core.framed (some (.task t)) a = false →
        s.core.t1Holds (cuRegion k.cu) a = false → s.core.readSource (some (.task t)) a = s.core.mem →
        (err.flips = 0 ∨ s.core.farAddr a = none) →
        (syn = 0 → ∃ u, Runs (.sectorRead (.task t) addr err) s u ∧ blockOf a ∈ u.core.pm.marks ∧ u.core.mem = s.core.mem ∧
          u.core.faults = s.core.faults ∧ u.integ = integ) ∧
        (syn = 0xFFFFFFFF → ∃ u, Runs (.sectorRead (.task t) addr err) s u ∧ Faulted s x 0x0701 (64 * (a / 64) % 2 ^ 64) u ∧ u.integ = integ) ∧
        (syn ≠ 0 → syn ≠ 0xFFFFFFFF → s.core.repairs = [] → ∃ u, Runs (.sectorRead (.task t) addr err) s u ∧
          blockOf a ∈ u.core.pm.marks ∧ u.integ.detect = s.integ.detect + 1 ∧ u.integ.logCount = s.integ.logCount + 1))) ∧
    (∀ die sec, s.operational = true → s.integ.rate ≠ 0 → die < 4 → (s.scrubItems die)[s.integ.cursor.getD die 0]? = some (.own sec) →
      s.core.syndrome s.core.mem sec = 0 → s.integ.cursor.getD die 0 + 1 < (s.scrubItems die).length →
      s.integ.wraps.foldl min (s.integ.wraps.headD 0) ≤ s.integ.passes →
      Runs (.scrubRead die {}) s { s with
        integ := { s.integ with cursor := s.integ.cursor.set die (s.integ.cursor.getD die 0 + 1) }, freeCtr := s.freeCtr + 1 }) ∧
    (∀ loc, s.operational = true → (s.noteFailure loc).failedThrice loc = true → ∃ u, Runs (.onchipCrcFail loc) s u ∧ Quiesced s 0x0708 0 u) ∧
    (∀ region addr, s.operational = true → (s.noteFailure (.t1 region addr)).failedThrice (.t1 region addr) = false →
      ((∀ l ∈ s.core.onchip.t1.getD region [], l.line = addr / 1024 → l.dirty = 0 ∧ l.written = false) →
        ∃ u, Runs (.onchipCrcFail (.t1 region addr)) s u ∧
        (∀ l ∈ u.core.onchip.t1.getD region [], l.line ≠ addr / 1024) ∧
        (∀ r, r ≠ region → u.core.onchip.t1.getD r [] = s.core.onchip.t1.getD r []) ∧
        u = { s with core := { s.core with onchip := { s.core.onchip with t1 := u.core.onchip.t1, crcHits := u.core.onchip.crcHits } } }) ∧
      ∀ l ob, l ∈ s.core.onchip.t1.getD region [] → l.line = addr / 1024 → (l.dirty ≠ 0 ∨ l.written = true) →
        s.core.obj (addrIndex addr) = some ob → ob.ctx < s.core.ctxs.length → ∃ u, Runs (.onchipCrcFail (.t1 region addr)) s u ∧
        (u.core.ctx ob.ctx).restart = true ∧ u.core.mem = s.core.mem ∧ u.core.faults = s.core.faults) ∧
    (∀ cu off x, s.operational = true → s.core.ctxOfCu cu = some x → x < s.core.ctxs.length →
      (s.noteFailure (.sram cu off)).failedThrice (.sram cu off) = false → ∃ u, Runs (.onchipCrcFail (.sram cu off)) s u ∧ (u.core.ctx x).restart = true ∧
        (∀ y, y ≠ x → u.core.ctx y = s.core.ctx y) ∧ u.core.mem = s.core.mem ∧ u.core.faults = s.core.faults) ∧
    (∀ addr, (s.twin.state ≠ .sync → Runs (.twinFetchRequest addr) s { s with out := s.out ++ [.fetchAnswer addr none] }) ∧
      (s.twin.state = .sync → addr < mirrorBit → getKey s.twin.mirror.mem.sectors (addr / 64) = some .valid → ∃ d : Bytes, d.length = 64 ∧
        (∀ i b, i < 64 → getKey s.twin.mirror.mem.cells (64 * (addr / 64) + i) = some b → d[i]? = some b) ∧
        Runs (.twinFetchRequest addr) s { s with out := s.out ++ [.fetchAnswer addr (some d)] })) ∧
    ∀ (addr : Nat) (d : Bytes) (r : Repair), s.core.repairs.find? (fun r => r.sector = addr / 64 && r.fetch) = some r → d.length = 64 →
      s.glb.hostWaits = [] → s.core.waits = [] → s.core.running = [] → getKey s.core.pm.parts (addr / 64) = none →
      ∃ u, Runs (.twinFetchReturn addr (some d)) s u ∧ getKey u.core.mem.sectors (addr / 64) = some .valid ∧
        (∀ i < 64, getKey u.core.mem.cells (64 * (addr / 64) + i) = d[i]? ∧ getKey u.committed.mem.cells (64 * (addr / 64) + i) = d[i]?) ∧
        (∀ q ∈ u.core.repairs, q.sector ≠ addr / 64) ∧ u.integ.twin = s.integ.twin + 1 ∧ u.integ.detect = s.integ.detect ∧
        u.core.objs = s.core.objs ∧ u.core.orders = s.core.orders

/-- Background work that ends: a fill whose blocks all landed gives its order the object's index (R323), a pool's copies are done, or the
rows that found no shadow block stay queued (R239, R335), a listed
block is copied (R338), a save leaves its context idle, or being destroyed (R75), a restore brings its live state back (R128), a result range is
flushed (R441), a die's queue of held items has room (R386), a load or store completes, or its blocks that found no shadow block wait (R326, R335), and a harness's write-back (R487). -/
def Obligations.BackgroundWorkEnds : Prop :=
  ∀ s : State, s.operational = true → s.pick.phase = .span → s.glb.filter = [] → s.linkUp = true →
    (∀ i j o q, s.core.obj i = some o → o.filling = true → o.fillOrder = some j → s.core.order j = some q → q.status = none → i < 2 ^ 20 →
      (s.core.landBlocks o.ctx (some j) true (((List.range o.blocks).filter fun t => !o.whole.contains t).map fun t =>
        (devAddr i (16384 * t), fillBlock (o.format ≠ 6) o.pattern))).2 = [] →
      o.size ≤ 2 ^ 40 → ∃ u, Runs (.objectFillDone i) s u ∧ Ended u j 0 i ∧
        (∃ w, u.core.obj i = some { o with filling := false, whole := w, fillOrder := none } ∧ ∀ t < o.blocks, t ∈ w) ∧
        (∀ k, k ≠ j → u.core.order k = s.core.order k) ∧ (∀ k, k ≠ i → u.core.obj k = s.core.obj k) ∧ u.committed = s.committed) ∧
    (∀ x p, s.core.pool x = some p → p.copying = true → ∃ u, Runs (.kvCopyDone x) s u ∧
      (let left := (s.core.copyRows s.committed.mem p).2
       u.core.pool x = some { p with copying := decide (left ≠ []), copies := left } ∧
       (left ≠ [] → u.memr.event = orBit s.memr.event 2) ∧ (left = [] → u.memr = s.memr)) ∧
      u.core.orders = s.core.orders ∧ u.core.objs = s.core.objs ∧ u.core.mem = s.core.mem ∧ u.committed = s.committed) ∧
    (∀ obj blk m, s.core.moves.find? (fun m => m.obj = obj && m.blk = blk && !m.copied) = some m →
      (s.core.takeShadow (devAddr obj (16384 * blk))).isSome = true →
      ∃ u, Runs (.blockMoveDone obj blk) s u ∧ u.core.moves.length = s.core.moves.length ∧
        (∀ y ∈ u.core.moves, y.obj = obj → y.blk = blk → y.copied = true) ∧ u.core.mem = s.core.mem ∧ u.core.objs = s.core.objs) ∧
    (∀ x, x < s.core.ctxs.length → (s.core.ctx x).state = .saving → ∃ u, Runs (.liveStateSaveDone x) s u ∧
      u.core.ctx x = { s.core.ctx x with state := if (s.core.ctx x).destroy then .destroying else .idle } ∧ (∀ y, y ≠ x → u.core.ctx y = s.core.ctx y) ∧
      u = { s with core := { s.core with ctxs := u.core.ctxs } }) ∧
    (∀ x cells, x < s.core.ctxs.length → (s.core.ctx x).saved = some cells → (s.core.ctx x).restoring = true →
      (∀ y ∈ s.core.ctxs, y.state = .saving → y.slot ≠ (s.core.ctx x).slot) → ∃ u, Runs (.liveStateRestoreDone x) s u ∧
      u.core.ctx x = { s.core.ctx x with saved := none, restoring := false } ∧ u.core.onchip.sram = putAll s.core.onchip.sram cells.1 ∧
      u.core.onchip.acc = putAll s.core.onchip.acc cells.2 ∧ (∀ y, y ≠ x → u.core.ctx y = s.core.ctx y) ∧ u.core.mem = s.core.mem) ∧
    (∀ j o, s.core.order j = some o → o.opcode = 0x10 → o.status.isSome = true → o.arg 0x28 8 ≠ 0 →
      ∃ u, Runs (.resultFlushDone j) s u ∧ u.core.order j = some { o with flushed := true } ∧ u.core.mem = s.core.mem ∧ u.out = s.out) ∧
    (∀ die < 4, s.glb.hostWaits = [] → s.core.waits = [] → s.core.running = [] → Runs (.heldQueueRoom die) s
      { s with twin := { s.twin with own := { s.twin.own with full := s.twin.own.full.set die false } } }) ∧
    (∀ h, Runs (.harnessWritebackDone h) s { s with mgt := { s.mgt with harnessDue := s.mgt.harnessDue.filter (· ≠ h) } }) ∧
    ∀ (j x i : Nat) (o : OrderSt) (ob : Obj) (host : HostView), s.core.order j = some o → s.core.ctxOf o.ctx = some x → o.applied = true →
      o.status = none → s.core.loadStoreCheck x o = .inr (i, ob) →
      (o.opcode = 0x23 → ∀ data, hostRead host (o.arg 0x20 8) (o.arg 0x28 8) = some data →
        let a := devAddr i (o.arg 0x18 8)
        let blks := (List.range (data.length / 16384)).map fun k => (a + 16384 * k, (data.drop (16384 * k)).take 16384)
        let r := s.core.landBlocks x (some j) false (blks.filter fun w => !o.landed.contains w.1)
        let due := r.1.farDue (blks.map Prod.fst)
        (∀ ok, r.2 = [] → (ok = true ∨ due = []) → ∃ u, Runs (.objLoadStoreDone j host ok) s u ∧ Ended u j 0 0 ∧
          u.out = s.out ++ .hostRead .rdCurr (o.arg 0x20 8) (o.arg 0x28 8) :: due.map (fun e => .farWrite (s.uioAt e.2.1) e.2.1 e.2.2) ∧
          u.core.pm.shadow = r.1.pm.shadow ∧ u.core.mem = s.core.mem) ∧
        (r.2 = [] → due ≠ [] → ∃ u, Runs (.objLoadStoreDone j host false) s u ∧ Ended u j 0x0706 0 ∧ u.core.mem = s.core.mem ∧
          u.memr.event = orBit s.memr.event 3) ∧
        (∀ ok, r.2 ≠ [] → ∃ u o', Runs (.objLoadStoreDone j host ok) s u ∧ u.core.order j = some o' ∧ o'.status = none ∧
          (∀ w ∈ blks, w.1 ∈ o'.landed ↔ w.1 ∉ r.2) ∧ u.memr.event = orBit s.memr.event 2)) ∧
      (∀ ok, o.opcode = 0x23 → hostRead host (o.arg 0x20 8) (o.arg 0x28 8) = none →
        ∃ u, Runs (.objLoadStoreDone j host ok) s u ∧ Ended u j 0x0706 0 ∧ u.core.mem = s.core.mem ∧ u.memr.event = orBit s.memr.event 3) ∧
      let read := devAddr i (o.arg 0x18 8)
      (o.opcode = 0x24 → s.core.faulting x = false → s.core.rangesBlocked [(read, o.arg 0x28 8)] = false →
        (∀ sec ∈ sectorsOf read (o.arg 0x28 8), s.core.syndrome s.core.mem sec = 0) → ∀ data, getKey s.core.stores j = some data →
        (∃ u, Runs (.objLoadStoreDone j host true) s u ∧ Ended u j 0 0 ∧ u.core.mem = s.core.mem ∧
          u.out = (s.hostPut (o.arg 0x20 8) data).out) ∧
        ∃ u, Runs (.objLoadStoreDone j host false) s u ∧ Ended u j 0x0706 0 ∧ u.core.mem = s.core.mem ∧ u.out = s.out ∧
          u.memr.event = orBit s.memr.event 3)

/-! ## Vector unit, special functions, row instructions, image instructions -/

/-- A command of the vector unit, of the special-function unit or a row instruction completes where its task runs and its ranges fit
local SRAM: only its results' bytes and the task's flags change. `CLEAR_FLAGS` clears the flags (R172 to R174, R182 to R189,
R197, R198). A range past the end of local SRAM is an allocation that does not fit, `TILE.OVERFLOW` (R16; that it holds of every
operand range is the model's reading, log entry 51). -/
def Obligations.VectorCommandsRun : Prop :=
  ∀ (t : TaskRef) (k : Task) (s : State), OnCu s t k →
    (∀ op rm sr n dst a b c, op ≠ .clearFlags → dst + vecOut op n ≤ sramBytes → a + (vecWidths op).1 * n ≤ sramBytes →
      b + 4 * n ≤ sramBytes → c + 4 * n ≤ sramBytes →
      ∃ u, Runs (.vectorOp t op rm sr n dst a b c) s u ∧
        VecRan s t k ((dst, vecOut op n) :: if op = .toE4m3 ∨ op = .toE5m2 then [(b, ceilDiv n 32)] else []) u) ∧
    (∀ rm sr n dst a b c, ∃ u, Runs (.vectorOp t .clearFlags rm sr n dst a b c) s u ∧ u.core.task t = some { k with flags := 0 } ∧
      u = { s with core := { s.core with orders := u.core.orders } }) ∧
    (∀ op rm n dst a b, dst + 4 ≤ sramBytes → a + 4 * n ≤ sramBytes → b + 4 * n ≤ sramBytes →
      ∃ u, Runs (.rowReduction t ⟨op, rm⟩ n dst a b) s u ∧ VecRan s t k [(dst, 4)] u) ∧
    (∀ fn bf n dst a, fn ≤ 9 → dst + (if bf then 2 else 4) * n ≤ sramBytes → a + 4 * n ≤ sramBytes →
      ∃ u, Runs (.sfuRequest t fn bf n dst a) s u ∧ VecRan s t k [(dst, (if bf then 2 else 4) * n)] u) ∧
    (∀ fn bf n dst a x, fn ≤ 9 → s.core.taskCtx t = some x → sramBytes < a + 4 * n → ∃ u detail, Runs (.sfuRequest t fn bf n dst a) s u ∧
      Faulted s x 0x0601 detail u ∧ u.core.onchip.acc = s.core.onchip.acc) ∧
    (∀ z n dst x, 1 ≤ n → n ≤ 65536 → dst + 8 ≤ sramBytes → x + 4 * n ≤ sramBytes →
      ∃ u, Runs (.rowstat t (.row z) n dst x) s u ∧ VecRan s t k [(dst, 8)] u) ∧
    (∀ c n dst x, 1 ≤ n → n ≤ 65536 →
      (dst + 16 ≤ sramBytes → x + 4 * n ≤ sramBytes → ∃ u, Runs (.rowstat t (.chunk c) n dst x) s u ∧ VecRan s t k [(dst, 16)] u) ∧
      (dst + 8 ≤ sramBytes → x + 16 * n ≤ sramBytes → ∃ u, Runs (.rowstat t (.join c) n dst x) s u ∧ VecRan s t k [(dst, 8)] u)) ∧
    (∀ n dst x g b st eps, 1 ≤ n → dst + 4 * n ≤ sramBytes → x + 4 * n ≤ sramBytes → g + 4 * n ≤ sramBytes → b + 4 * n ≤ sramBytes →
      st + 8 ≤ sramBytes →
      (∃ u, Runs (.lnorm t n dst x g b st eps) s u ∧ VecRan s t k [(dst, 4 * n), (st, 8)] u) ∧
      (∃ u, Runs (.rmsnorm t n dst x g st eps) s u ∧ VecRan s t k [(dst, 4 * n), (st, 4)] u) ∧
      (∃ u, Runs (.lnormBwd t n dst x b g st) s u ∧ VecRan s t k [(dst, 4 * n)] u) ∧
      ∃ u, Runs (.rmsnormBwd t n dst x b g st) s u ∧ VecRan s t k [(dst, 4 * n)] u) ∧
    (∀ d a b, a + 4 * (d + 2) ≤ sramBytes → b + 4 * (d + 2) ≤ sramBytes →
      ∃ u, Runs (.smerge t d a b) s u ∧ VecRan s t k [(a, 4 * (d + 2))] u) ∧
    ∀ sr d row dst a, dst + 2 * d + 4 ≤ sramBytes → a + 4 * (d + 2) ≤ sramBytes →
      ∃ u, Runs (.sfinal t sr d row dst a) s u ∧ VecRan s t k [(dst, 2 * d + 4)] u

/-- The words of integer operations, and the exact rows of the row instructions: addition and subtraction wrap at 32 bits; a merge with a wholly masked span leaves the running
partial as it is (R197); a row with l = 0 closes with zeros and a log-sum-exp of +∞ (R198). -/
def Obligations.RowResults : Prop :=
  ∀ (t : TaskRef) (k : Task) (s : State), OnCu s t k → let p := s.pick.counter
    (∀ rm sr n dst a b c, dst + 4 * n ≤ sramBytes → a + 4 * n ≤ sramBytes → b + 4 * n ≤ sramBytes → c + 4 * n ≤ sramBytes →
      ∀ op ∈ [(VecOp.iadd, fun x y => (x + y) % 2 ^ 32), (VecOp.isub, fun x y => (x + 2 ^ 32 - y) % 2 ^ 32), (VecOp.iand, Nat.land),
        (VecOp.ior, Nat.lor), (VecOp.ixor, Nat.xor)],
      ∃ u, Runs (.vectorOp t op.1 rm sr n dst a b c) s u ∧ u.core.sramRow p k.cu dst n =
        List.zipWith op.2 (s.core.sramRow p k.cu a n) (s.core.sramRow p k.cu b n)) ∧
    (∀ d a b, a + 4 * (d + 2) ≤ sramBytes → b + 4 * (d + 2) ≤ sramBytes → (s.core.sramRow p k.cu b (d + 2)).getD (d + 1) 0 = 0 →
      (∀ v ∈ s.core.sramRow p k.cu a (d + 2) ++ s.core.sramRow p k.cu b (d + 2), isNan32 v = false) →
      ∃ u, Runs (.smerge t d a b) s u ∧ u.core.sramRow p k.cu a (d + 2) = s.core.sramRow p k.cu a (d + 2)) ∧
    ∀ sr d row dst a, dst + 2 * d + 4 ≤ sramBytes → a + 4 * (d + 2) ≤ sramBytes →
      (s.core.sramRow p k.cu a (d + 2)).getD (d + 1) 0 = 0 →
      ∃ u, Runs (.sfinal t sr d row dst a) s u ∧ u.core.sramRead p k.cu dst (2 * d) = List.replicate (2 * d) 0 ∧
        u.core.sramRow p k.cu (dst + 2 * d) 1 = [0x7F800000]

/-- For a row of n identical finite values x, `ROWSTAT` shifted by its first element returns a variance of exactly +0 and a mean equal
in value to x: x itself, or +0 for −0 (R183). -/
def Obligations.ConstantRowHasNoVariance : Prop :=
  ∀ (t : TaskRef) (k : Task) (n dst x v : Nat) (s : State), OnCu s t k → 1 ≤ n → n ≤ 65536 → dst + 8 ≤ sramBytes →
    x + 4 * n ≤ sramBytes → s.core.sramRow s.pick.counter k.cu x n = List.replicate n v → notFinite32 v = false →
    ∃ u, Runs (.rowstat t (.row false) n dst x) s u ∧ u.core.sramRow s.pick.counter k.cu dst 2 = [if v = 0x80000000 then 0 else v, 0]

/-- `ROWSTAT` never returns a negative variance or −0 as a variance, and a NaN or infinite element makes the mean and the variance the
canonical NaN, whatever the shift (R184); of chunks' records too, the variance is never negative (R185). -/
def Obligations.VarianceIsNeverNegative : Prop :=
  ∀ (t : TaskRef) (k : Task) (z : Bool) (n dst x : Nat) (s : State), OnCu s t k → 1 ≤ n → n ≤ 65536 → dst + 8 ≤ sramBytes →
    (x + 4 * n ≤ sramBytes →
      ∃ u m v, Runs (.rowstat t (.row z) n dst x) s u ∧ u.core.sramRow s.pick.counter k.cu dst 2 = [m, v] ∧ v < 0x80000000 ∧
        ((∃ e ∈ s.core.sramRow s.pick.counter k.cu x n, notFinite32 e = true) → m = 0x7FC00000 ∧ v = 0x7FC00000)) ∧
    ∀ c, x + 16 * n ≤ sramBytes →
      (((List.range n).map (readChunk (s.core.sramRow s.pick.counter k.cu x (4 * n)))).map ChunkStat.n).sum ≤ 2 ^ 24 →
      ∃ u m v, Runs (.rowstat t (.join c) n dst x) s u ∧ u.core.sramRow s.pick.counter k.cu dst 2 = [m, v] ∧ v < 0x80000000

/-- `KVPIN` adds 1 to the `PINS` of a row of the context's pool, saturating at 65,535, and changes no other row; where the row's `REFS`
is 0 or the row id is not below `ROWS` it raises `KV.PIN`, the row id in `DETAIL` (R236). -/
def Obligations.PinsCountUpToTheirLimit : Prop :=
  ∀ (t : TaskRef) (k : Task) (x row : Nat) (p : KvPool) (s : State), OnCu s t k → s.core.taskCtx t = some x → s.core.pool x = some p →
    (row < p.rows → row < p.rowSt.length → p.refs row ≠ 0 → ∃ u p', Runs (.kvpin t row) s u ∧
      u.core.pool x = some p' ∧ p'.rowSt.getD row (0, 0) = (p.refs row, min 65535 ((p.rowSt.getD row (0, 0)).2 + 1)) ∧
      (∀ r, r ≠ row → p'.rowSt.getD r (0, 0) = p.rowSt.getD r (0, 0)) ∧ p'.seqs = p.seqs ∧ u.core.faults = s.core.faults ∧
      u.core.mem = s.core.mem ∧ u.core.orders = s.core.orders) ∧
    ((p.rows ≤ row ∨ p.refs row = 0) → ∃ u, Runs (.kvpin t row) s u ∧ Faulted s x 0x0A03 (row % 2 ^ 64) u)

/-- An image instruction issues where its harness has the bit and its descriptor passes the checks of R415, and completes where its operands
can be read and written: its elements go where R417 to R425 say, its reads mark their blocks, and the staging buffer is free again (R417);
in another harness, or with a bad mode, form or box list, it is `TILE.MODE` and with a bad range `TILE.RANGE`, before anything is read,
allocated or written. -/
def Obligations.ImageInstructionsIssue : Prop :=
  ∀ (t : TaskRef) (k : Task) (x desc op : Nat) (c : Instr) (s : State), OnCu s t k → s.core.taskCtx t = some x → s.glb.filter = [] → s.linkUp = true →
    (c, op) ∈ [(Instr.patch t desc, 0), (.s2c t desc, 1), (.c2s t desc, 2), (.maxpool t desc, 3), (.avgpool t desc, 4), (.crop t desc, 5)] →
    let on := s.core.draft.elim false fun d => bitOf (d.func (s.core.ctx x).harness).flags 0
    let d0 := readImg (s.core.sramRead s.pick.counter k.cu desc 64)
    let d : ImgDesc := { d0 with src := s.core.resolve x d0.src, dst := s.core.resolve x d0.dst, box := s.core.resolve x d0.box }
    (on = false → ∃ u, Runs c s u ∧ Faulted s x 0x0603 (desc % 2 ^ 64) u) ∧
    (on = true → desc + 64 ≤ sramBytes → d.op = op → (d.badMode = true ∨ s.core.imgFormatBad x d = true) → ∃ u, Runs c s u ∧ Faulted s x 0x0603 (desc % 2 ^ 64) u) ∧
    (on = true → desc + 64 ≤ sramBytes → d.op = op → d.badMode = false → s.core.imgFormatBad x d = false →
      s.core.faulting x = false → s.core.repairs = [] → s.core.pm.shadow = [] → s.twin.state = .unpaired →
      (op ≠ 5 → s.core.imgRangeBad x d 0 = true → ∃ u, Runs c s u ∧ Faulted s x 0x0604 (desc % 2 ^ 64) u) ∧
      (op ≠ 5 → s.core.imgRangeBad x d 0 = false → ImageReady s x k.cu d [] 0 [] → ∃ u, Runs c s u ∧ ImageRan s t k x d [] 0 u) ∧
      ∀ cnt, op = 5 → d.box % 64 = 0 → s.core.imgRangeBad x d 1 = false → cnt ≠ 0 → cnt ≤ 65536 →
        s.core.readNat x d.box 4 = cnt → s.core.inObj x d.box (64 + 32 * cnt) = true →
        let l := s.core.readAs x d.box (64 + 32 * cnt)
        let boxes := (List.range cnt).map (readBox l)
        zeroAt l 8 56 = true → (∀ b ∈ boxes, b.ok = true ∧ b.img < d.n) → s.core.imgRangeBad x d cnt = false →
        ImageReady s x k.cu d boxes (fieldAt l 4 4) (sectorsOf d.box (64 + 32 * cnt)) →
        ∃ u, Runs c s u ∧ ImageRan s t k x d boxes (fieldAt l 4 4) u)

/-! ## Collectives, fabric and time -/

/-- The notices and headers of the reed: a header whose CRC fails or that has a reserved bit set is dropped, one that no instance takes yet is held (R293, R295);
a mismatch, count or abort notice faults the instance of its group with its code and frees the channel, and a count or abort notice of
another instance changes nothing (R296, R298, R306; that such a notice carries the instance count is the model's reading, in the log); a
gather's piece lands (R302); a loss or hold notice makes its groups wait and is remembered (R308, R485); and a leader announces the drop of a
lost module once its wait has passed (R310). -/
def Obligations.CollectivesProceed : Prop :=
  ∀ s : State, s.operational = true →
    (∀ ch src (h : Bytes), (h.length ≠ 64 ∨ headerReserved h = true ∨ crc32c (h.take 0x3C) ≠ fieldAt h 0x3C 4) →
      Runs (.collHeaderReceived ch ⟨src, h⟩) s s) ∧
    (∀ ch src (h : Bytes), h.length = 64 → headerReserved h = false → crc32c (h.take 0x3C) = fieldAt h 0x3C 4 → byteAt h 0xB ≠ 0x80 → ch < 64 → s.core.chans.length = 64 →
      s.reed.holds = [] → (∀ g ∈ s.core.groups, g.served = false) → (s.core.current ch = false ∨ s.core.fromMember ch src = false) →
      (s.core.chan ch).held.length < 4096 →
      ∃ u, Runs (.collHeaderReceived ch ⟨src, h⟩) s u ∧ u.core.chan ch = { s.core.chan ch with held := (s.core.chan ch).held ++ [(src, h)] } ∧
        (∀ k, k ≠ ch → u.core.chan k = s.core.chan k) ∧ u = { s with core := { s.core with chans := u.core.chans } }) ∧
    (∀ ch t ps x, ch < 64 → s.core.chans.length = 64 → (s.core.chan ch).parts = t :: ps → s.core.taskCtx t = some x → s.core.current ch = true →
      let k := s.core.chan ch
      let g := k.group % 256
      (∀ sender < 65536, ∃ u, Runs (.mismatchNotice ch g ⟨g, sender⟩) s u ∧ Faulted s x 0x0901 (g * 2 ^ 48 + ch % 32 * 2 ^ 40 + sender) u ∧
        (u.core.chan ch).state = .idle ∧ (u.core.chan ch).parts = []) ∧
      (∃ u, Runs (.countNotice ch ⟨g, k.inst⟩) s u ∧ Faulted s x 0x0903 0 u ∧ (u.core.chan ch).state = .idle ∧ (u.core.chan ch).parts = []) ∧
      (∃ u, Runs (.abortNotice ch ⟨g, k.inst⟩) s u ∧ Faulted s x 0x0902 0 u ∧ (u.core.chan ch).state = .idle ∧ (u.core.chan ch).parts = []) ∧
      ∀ n, n ≠ k.inst → Runs (.countNotice ch ⟨g, n⟩) s s ∧ Runs (.abortNotice ch ⟨g, n⟩) s s) ∧
    (∀ ch i piece (data : Bytes) c1, ch < 64 → s.core.chans.length = 64 → (s.core.chan ch).state = .data → s.inst ch = some i →
      (i.d.op = 2 ∨ i.d.op = 8) → piece ∉ (s.core.chan ch).pieces → (∃ q < i.np, q ≠ piece ∧ q ∉ (s.core.chan ch).pieces) →
      let slot := (pieceSpans i.d.ty ((s.core.chan ch).rankCounts i.n i.d.k)).getD piece (0, 0)
      let ws := i.parts.map fun q => (q.1, [(q.2.recv + slot.1, data.take slot.2)])
      s.core.partOutside i.x ws = none → s.core.engineWrites i.x (ws.flatMap Prod.snd) = some c1 →
      ∃ u, Runs (.gatherPieceLanded ch piece data) s u ∧ piece ∈ (u.core.chan ch).pieces ∧ u.core.pm.shadow = c1.pm.shadow ∧
        u.core.mem = s.core.mem ∧ u.core.faults = s.core.faults) ∧
    (∀ addr beat ab, ∃ u, Runs (.lossNotice addr beat ab) s u ∧ 
      (addr, beat, ab.or ((s.reed.losses.find? (·.1 = addr)).bind fun l => l.2.2)) ∈ u.reed.losses ∧ u.reed.lossAddr = addr ∧
      u.reed.lossBeat = beat ∧ u.reed.lossKind = 2 ∧ u.reed.event = orBit s.reed.event 1 ∧ u.opt.detour = some addr ∧
      u.opt.event = orBit s.opt.event 4 ∧ (∀ g ∈ u.core.groups, addr ∈ g.members → g.lost = true) ∧
      (∀ g ∈ s.core.groups, addr ∉ g.members → g ∈ u.core.groups) ∧ (∀ e ∈ u.reed.holds, e.1 ≠ addr) ∧ u.core.mem = s.core.mem) ∧
    (∀ addr beat, ∃ u, Runs (.holdNotice addr beat) s u ∧ (addr, beat, false) ∈ u.reed.holds ∧ u.reed.losses = s.reed.losses ∧
      (∀ g ∈ u.core.groups, addr ∈ g.members → g.lost = true) ∧ (∀ g ∈ s.core.groups, addr ∉ g.members → g ∈ u.core.groups) ∧
      u.opt = s.opt ∧ u.core.mem = s.core.mem) ∧
    ∀ addr beat, s.pick.self = true → s.reed.lossWait ≠ 0 → s.reed.losses = [(addr, beat, none)] → beat + 1 + s.reed.lossWait ≤ s.pick.counter →
      (∀ d ∈ s.reed.drops, d.2 ≠ addr) →
      Runs .lossWaitExpiry s { s with pick := { s.pick with drop := some addr } }

/-- Frames on a port that is up: a bad or misplaced one is answered with a NAK and taken no further; one for this module is taken in
order and acknowledged, with the codewords that the FEC corrected counted (R374); no ack covers a transit frame that is still held; an ack frees what it covers; a NAK or a missing ack sends every held frame again, and the eighth sending
without an ack, or silence, takes the port down (R452, R453, R459). When the last port to a neighbor whose twin is lost goes down, the
neighbor is lost too, and this module tells the torus (R308; how it finds this is the model's reading, log entry 157). -/
def Obligations.FramesAreAcknowledged : Prop :=
  ∀ (p : Nat) (s : State), p < 16 → s.opt.ports.length = 18 → (s.port p).state = .up →
    let k := s.port p
    let control := fun (rx : Nat) (typ : Nat) (nak : Nat) => Out.frame p (frameBytes typ 34 k.txSeq k.neighbor s.myAddr (rx % 2 ^ 31 + nak) [])
    (s.heldFrom p = [] → ∀ (b : Bytes) fixed, (frameBad p b = true ∨ fieldAt b 4 4 ≠ k.rxSeq) →
      Runs (.dataFrameReceived p ⟨b, fixed⟩) s { s.noteFec p fixed with out := s.out ++ [control k.rxSeq 3 (2 ^ 31)] }) ∧
    (s.heldFrom p = [] → s.opt.stranded = [] → ∀ (b : Bytes) fixed, frameBad p b = false → fieldAt b 4 4 = k.rxSeq → fieldAt b 8 2 = s.myAddr → k.replay = [] → fieldAt b 0xC 4 < 2 ^ 31 →
      byteAt b 0 ≠ 0 → byteAt b 0 ≠ 3 → byteAt b 0 ≠ 4 → byteAt b 0 ≠ 5 → ∃ u, Runs (.dataFrameReceived p ⟨b, fixed⟩) s u ∧
        u.port p = { k with rxSeq := (k.rxSeq + 1) % 2 ^ 32, fecFixed := (k.fecFixed + fixed) % 2 ^ 32 } ∧
        u.out = s.out ++ [control ((k.rxSeq + 1) % 2 ^ 32) 3 0] ∧ (∀ q, q ≠ p → u.port q = s.port q) ∧ u.core = s.core) ∧
    (s.opt.stranded = [] → ∀ (b : Bytes) fixed, frameBad p b = false → fieldAt b 4 4 = k.rxSeq → k.replay = [] → fieldAt b 0xC 4 < 2 ^ 31 →
      (byteAt b 0 = 0 ∨ byteAt b 0 = 3) → ∃ u, Runs (.dataFrameReceived p ⟨b, fixed⟩) s u ∧ u = s.noteFec p fixed) ∧
    (∀ ack, (∀ r ∈ k.replay, r.up = none) → s.opt.stranded = [] → ∃ u, Runs (.ackReceived p ack) s u ∧
      u.port p = { k with replay := k.replay.filter fun r => !seqBelow r.seq ack } ∧ (∀ q, q ≠ p → u.port q = s.port q) ∧
      u = { s with opt := { s.opt with ports := u.opt.ports } }) ∧
    (∀ c ∈ [Instr.nakReceived p 0, .ackTimeout p], s.opt.stranded = [] → (∀ r ∈ k.replay, r.sends < 8 ∧ seqBelow r.seq 0 = false) → k.replay ≠ [] →
      ∃ u, Runs c s u ∧ u.out = s.out ++ k.replay.map (fun r => .frame p r.bytes) ∧
        (u.port p).replay = k.replay.map (fun r => { r with sends := r.sends + 1 }) ∧
        (u.port p).resends = (k.resends + k.replay.length) % 2 ^ 32 ∧ (∀ q, q ≠ p → u.port q = s.port q) ∧ u.core = s.core) ∧
    (∀ r, k.replay = [r] → 8 ≤ r.sends → ∃ u, Runs (.ackTimeout p) s u ∧ (u.port p).state = .failed ∧ (u.port p).lastFault = 0x0D10 ∧
      (∀ r ∈ (u.port p).replay, False) ∧ (s.reed.losses = [] → s.reed.absorbed = [] → s.reed.lossKind ≠ 3 → u.core = s.core)) ∧
    (s.heldFrom p = [] → Runs (.idleFrameTimer p) s { s with out := s.out ++ [control k.rxSeq 0 0] }) ∧
    (∀ n, s.heldFrom p = [n] → n < k.rxSeq → k.rxSeq < 2 ^ 32 → Runs (.idleFrameTimer p) s { s with out := s.out ++ [control n 0 0] }) ∧
    (∀ a beat ab, k.neighbor = a → s.operational = true → k.replay = [] → (∀ q < 16, q ≠ p → (s.port q).neighbor ≠ a ∨ (s.port q).state ≠ .up) →
      (twinAddr a, beat, ab) ∈ s.reed.losses → (∀ e ∈ s.reed.losses, e.1 ≠ a) → a ≠ twinAddr s.myAddr → a ≠ s.myAddr →
      ∃ u, Runs (.portRxTimeout p) s u ∧ .lossNoticeOut a s.lastBeat none ∈ u.out ∧ (a, s.lastBeat, none) ∈ u.reed.losses ∧
        (u.port p).state = .failed) ∧
    (k.replay = [] → s.opt.detour = none → s.beating = true → s.reed.losses = [] → s.reed.absorbed = [] → s.reed.lossKind ≠ 3 → ∃ u, Runs (.portRxTimeout p) s u ∧
      u.port p = { k with state := .failed, lastFault := 0x0D10, replay := [] } ∧
      u.opt.event = orBit s.opt.event 0 ∧ u.flog.waiting = s.flog.waiting ++ [s.reportEntry 0x0D10 p] ∧ (∀ q, q ≠ p → u.port q = s.port q) ∧
      u.out = s.out ∧ u.core = s.core)

/-- Ports train by Table 16-3: an identify frame that tells what is expected goes on to measurement and one that does not holds the
port; the measurement brings it up, usable from the next beat; a state that takes too long fails, and is trained again; a lost lane
takes the port down; `RETRAIN`, `DISABLE` and `ENABLE` act on their port (R458, R459, R467). -/
def Obligations.PortsTrain : Prop :=
  ∀ (p : Nat) (s : State), p < 16 → s.opt.ports.length = 18 → s.beating = true →
    let k := s.port p
    (∀ b : Bytes, (k.state = .train ∨ k.state = .identify) → b.length = 64 → zeroAt b 7 1 = true → zeroAt b 0xC 52 = true →
      fieldAt b 0 2 < 4096 → byteAt b 6 < 18 →
      let ok := fieldAt b 0 2 = (s.expected p).1 ∧ byteAt b 6 = (s.expected p).2 ∧
        (List.range 4).map (fun i => byteAt b (2 + i)) = s.glb.axes ∧ fieldAt b 8 4 = 0x11520A48
      ∃ u, Runs (.identify p b) s u ∧ (u.port p).neighbor = fieldAt b 0 2 % 4096 ∧ (u.port p).nbPort = byteAt b 6 % 32 ∧
        (ok → (u.port p).state = .measure ∧ u.flog = s.flog) ∧
        (¬ ok → (u.port p).state = .held ∧ (u.port p).lastFault = 0x0D11 ∧ u.opt.event = orBit s.opt.event 2 ∧
          u.flog.waiting = s.flog.waiting ++ [s.reportEntry 0x0D11 p]) ∧ (∀ q, q ≠ p → u.port q = s.port q) ∧ u.core = s.core) ∧
    (∀ rt, k.state = .measure → ∃ u, Runs (.measureDone p rt) s u ∧ (u.port p).state = .up ∧ (u.port p).latency = rt / 2 ∧
      (u.port p).useFrom = s.pick.counter + (if s.pick.phase = .span ∨ s.pick.phase = .committed then 1 else 2) ∧ u.opt.event = orBit s.opt.event 1 ∧ u.glb.lens = s.glb.axes ∧
      (∀ q, q ≠ p → u.port q = s.port q) ∧ u.core = s.core) ∧
    ((k.state = .train ∨ k.state = .identify ∨ k.state = .measure) → ∃ u, Runs (.portStateTimeout p) s u ∧ u.port p = { k with state := .failed } ∧
      u = { s with opt := { s.opt with ports := u.opt.ports } }) ∧
    (k.state = .failed → ∃ u, Runs (.portRetrainTimer p) s u ∧ u.port p = { k with state := .train, lanes := 0 } ∧
      u = { s with opt := { s.opt with ports := u.opt.ports } }) ∧
    (∀ lane < 8, k.lanes.testBit lane = true → k.state = .up → ∃ u, Runs (.laneLost p lane) s u ∧ (u.port p).state = .failed ∧
      (u.port p).lastFault = 0x0D10 ∧ (s.reed.losses = [] → s.reed.absorbed = [] → s.reed.lossKind ≠ 3 → u.core = s.core)) ∧
    (s.operational = true →
      (k.disabled = false → k.state ≠ .up → ∃ u, Runs (.retrain p) s u ∧ u.port p = { k with state := .train, lanes := 0 } ∧
        u = { s with opt := { s.opt with ports := u.opt.ports } }) ∧
      (k.disabled = true → Runs (.retrain p) s s) ∧
      (∃ u, Runs (.disable p) s u ∧ u.port p = { k with disabling := true } ∧ u = { s with opt := { s.opt with ports := u.opt.ports } }) ∧
      (k.disabled = true → ∃ u, Runs (.enable p) s u ∧ u.port p = { k with state := .train, lanes := 0, disabled := false, disabling := false } ∧
        u = { s with opt := { s.opt with ports := u.opt.ports } }))

/-- Laser cartridges and die links: a failed or pulled cartridge leaves the distribution and is reported while five are left, one that
has warmed up joins at a beat, one inserted warms up (R464, R465); a die-link frame that fails is counted and asked for again,
and a good one ends the row of failures (R373). -/
def Obligations.CartridgesAndDieLinks : Prop :=
  ∀ (c : Nat) (s : State), s.opt.carts.length = 6 → c < 6 → s.beating = true →
    (s.opt.carts[c]? = some .active → 6 ≤ s.activeCarts → ∃ u, Runs (.laserCartridgeFail c) s u ∧ u.opt.carts = s.opt.carts.set c .failed ∧
      u.opt.event = orBit s.opt.event 3 ∧ u.flog.waiting = s.flog.waiting ++ [s.reportEntry 0x0D13 c] ∧ u.glb = s.glb ∧ u.core = s.core) ∧
    (s.opt.carts[c]? = some .warming → c ∉ s.opt.warm →
      Runs (.cartridgeWarmDone c) s { s with opt := { s.opt with warm := s.opt.warm ++ [c] } }) ∧
    (∀ st ∈ [CartState.failed, .safe], s.opt.carts[c]? = some st → ∃ u, Runs (.cartridgeLeverUnlock c) s u ∧
      u.opt.carts = s.opt.carts.set c .absent ∧ u.opt.event = orBit s.opt.event 3 ∧ u.flog = s.flog ∧ u.core = s.core) ∧
    (((s.opt.carts[c]? = some .active ∧ 6 ≤ s.activeCarts) ∨ (s.opt.carts[c]? = some .warming ∧ 5 ≤ s.activeCarts)) → ∃ u, Runs (.cartridgeLeverUnlock c) s u ∧ u.opt.carts = s.opt.carts.set c .absent ∧
      u.flog.waiting = s.flog.waiting ++ [s.reportEntry 0x0D13 c] ∧ u.glb = s.glb ∧ u.core = s.core) ∧
    (s.opt.carts[c]? = some .absent → ∃ u, Runs (.cartridgeInsert c) s u ∧ u.opt.carts = s.opt.carts.set c .warming ∧
      u.opt.event = orBit s.opt.event 3 ∧ u.flog = s.flog ∧ u.core = s.core) ∧
    ∀ link < 8, ∀ frame : Bytes,
      (dieFrameOk frame = true → Runs (.dieLinkFrame link frame) s { s with integ := { s.integ with linkFail := s.integ.linkFail.set link 0 } }) ∧
      (dieFrameOk frame = false → s.integ.linkFail.getD link 0 < 16 → ∃ u, Runs (.dieLinkFrame link frame) s u ∧
        u.integ.linkFail = s.integ.linkFail.set link (s.integ.linkFail.getD link 0 + 1) ∧
        (link < s.integ.link.length → u.integ.link.getD link 0 = s.integ.link.getD link 0 + 1) ∧ u.out = s.out ++ [.retry link] ∧
        u = { s with out := u.out, integ := { s.integ with link := u.integ.link, linkFail := u.integ.linkFail } })

/-- A module that listens joins the pick at the first marker of a leader, at the beat after the marker's (R481), or alone at beat 0 where
none comes; a marker of the leader followed sets the offset from it (R460); after six missed markers of a leader
leadership passes to the module named, not ranked behind this one (R52; that the event names it is the model's, log entry 137); a relay
of the leader's fields applies at its beat and goes on (R462); a period request is noted, or withdrawn by 0 (R70). -/
def Obligations.TimeIsShared : Prop :=
  ∀ s : State,
    (∀ p (b : Bytes) arrival, p < 16 → (s.port p).state = .up → markerBad b = false → s.pick.joining = true → byteAt b 0x10 ≠ 0xFF → s.leadsAs = none →
      s.proto.scope = 0 → s.linkUp = true → ∃ u, Runs (.markerReceived p b arrival) s u ∧ u.glb.state = .operational ∧
        u.pick.counter = fieldAt b 0 8 + 1 ∧ u.pick.joining = false ∧ u.pick.leader = some (fieldAt b 0x12 2) ∧ u.pick.self = false ∧
        u.pick.parent = some p ∧ u.pick.depth = byteAt b 0x10 + 1 ∧ u.core = s.core) ∧
    (s.pick.joining = true → s.proto.scope = 0 → s.linkUp = true → ∃ u, Runs .joinMarkerTimeout s u ∧ u.glb.state = .operational ∧ u.pick.counter = 0 ∧
      u.pick.joining = false ∧ u.pick.self = true ∧ u.pick.leader = some (s.leadsAs.getD s.myAddr) ∧ u.core = s.core) ∧
    (∀ p (b : Bytes) arrival, s.beating = true → s.pick.joining = false → p < 16 → (s.port p).state = .up → markerBad b = false →
      byteAt b 0x10 ≠ 0xFF → s.pick.leader = some (fieldAt b 0x12 2) → s.pick.self = false → s.pick.seen = [] →
      let theta : Int := i32 (fieldAt b 0xC 4) - (arrival - fieldAt b 8 4 - (s.port p).latency)
      ∃ u, Runs (.markerReceived p b arrival) s u ∧ u.pick.parent = some p ∧ u.pick.depth = byteAt b 0x10 + 1 ∧ u.pick.offsetPs = theta ∧
        (-40000 ≤ theta → theta ≤ 40000 → u.pick.late = 0) ∧ u.pick.counter = s.pick.counter ∧ u.core = s.core ∧ u.glb = s.glb) ∧
    (∀ node l, s.takesOver node l = false → Runs (.leaderTakeover node l) s s) ∧
    (∀ node l, s.operational = true → 6 ≤ s.pick.missed → s.pick.self = false → s.isMine 0 = false → l ≠ 0 → l < 4096 →
      node = nodeIndex s.glb.axes (unpackAddr l) → s.leaderRank l ≤ s.leaderRank s.myAddr → ∃ u, Runs (.leaderTakeover node l) s u ∧
      u.pick.leader = some l ∧ (u.pick.self = true ↔ l = s.myAddr) ∧ u.pick.counter = s.pick.counter ∧ u.pick.period10 = s.pick.period10 ∧
      u.pick.lastRise = some s.pick.counter ∧ u.pick.event = orBit s.pick.event 2 ∧ u = { s with pick := u.pick }) ∧
    (∀ p l per win, s.beating = true → (s.port p).state = .up → s.pick.parent = some p → s.pick.leader = some l → per ≠ 0 → s.pick.phase = .span →
      ∃ u, Runs (.leaderRelay p l per win none) s u ∧ (s.pick.counter, per, win) ∈ u.pick.coming ∧
        (∀ c ∈ u.pick.coming, c.1 = s.pick.counter → c = (s.pick.counter, per, win)) ∧ u.pick.counter = s.pick.counter ∧ u.core = s.core) ∧
    ∀ p src req, s.beating = true → s.pick.self = true → ∃ u, Runs (.periodRequest p src req) s u ∧
      ((u.pick.asked.find? (·.1 = src)).elim 0 Prod.snd = req) ∧
      (∀ q, q ≠ src → u.pick.asked.find? (·.1 = q) = s.pick.asked.find? (·.1 = q)) ∧ u = { s with pick := { s.pick with asked := u.pick.asked } }

/-! ## Twin, host link, starts and power -/

/-- The pair's exchanges: hello frames pair two modules that match and report a condition that fails (R379, R381, R409), and what the FEC corrected in one is counted (R374); entries, notices and
held items of the twin are kept and confirmed, and entries join the mirrored journal as they are sealed (R384, R386, R389); a released item is
applied to the mirror's shadow blocks, which the commit step switches in, but not to a block that a drain has yet to read (R387, R405); a
forwarded sum is stored and confirmed (R390); digests that differ begin a re-copy, which ends in SYNC once the digests match, or waits for
shadow blocks (R394, R395, R335); and a selvedge port lost beside one that is up is reported (R392). -/
def Obligations.TwinExchanges : Prop :=
  ∀ s : State, s.operational = true →
    (s.twin.state = .handshake →
      Runs .helloTimer s { s with out := s.out ++ [.hello 16 s.hello, .hello 17 s.hello] } ∧
      (∃ u, Runs .handshakeTimeout s u ∧ u.twin = { s.twin with state := .unpaired, pairFail := 8 } ∧
        u = { s with twin := u.twin, flog := { s.flog with waiting := s.flog.waiting ++ [s.reportEntry 0x0B02 0] } }) ∧
      ∀ p (f : Bytes) fixed, f.length = 64 → crc32c (f.take 0x3C) = fieldAt f 0x3C 4 → byteAt f 0x28 ≤ 2 → zeroAt f 0x2A 18 = true →
        (s.helloCheck f = 0 → ∃ u, Runs (.helloReceived p f fixed) s u ∧
          u.twin = { s.twin with state := .copying, pairFail := 0, matched := false } ∧
          u = { s.noteFec p fixed with twin := u.twin, out := u.out }) ∧
        (s.helloCheck f ≠ 0 → ∃ u, Runs (.helloReceived p f fixed) s u ∧
          u.twin = { s.twin with state := .unpaired, pairFail := s.helloCheck f } ∧
          u = { s.noteFec p fixed with twin := u.twin, flog := { s.flog with waiting := s.flog.waiting ++ [s.reportEntry 0x0B02 0] } })) ∧
    (s.twin.state = .unpaired → ∀ p (f : Bytes) fixed, f.length = 64 → crc32c (f.take 0x3C) = fieldAt f 0x3C 4 → byteAt f 0x28 ≤ 2 →
      zeroAt f 0x2A 18 = true → s.helloCheck f ≠ 0 → Runs (.helloReceived p f fixed) s { s.noteFec p fixed with
        twin := { s.twin with pairFail := s.helloCheck f }
        flog := { s.flog with waiting := s.flog.waiting ++ [s.reportEntry 0x0B02 0] } }) ∧
    (s.twin.state = .sync ∨ s.twin.state = .recopy →
      (∀ e o : Bytes, e.length = 64 → crc32c (e.take 0x3C) = fieldAt e 0x3C 4 → entryReserved e = false →
        let j := readEntry e o
        Runs (.journalEntryReceived e o) s { s with
          out := s.out ++ [.entryStored j.ring j.ringIndex]
          twin := { s.twin with mirror := { s.twin.mirror with arrived := (s.twin.mirror.arrived.filter fun f => !f.sameAs j) ++ [j] } } }) ∧
      (∀ l e, s.pick.phase = .placed → s.twin.mirror.arrived = [e] → ∃ u, Runs (.sealDeadline l) s u ∧ e ∈ u.twin.mirror.entries ∧
        u.twin.mirror.arrived = [] ∧ u.twin.mirror.mem = s.twin.mirror.mem) ∧
      (∀ j o, s.core.order j = some o →
        (∃ u, Runs (.completionNoticeReceived (.stored j)) s u ∧ u.core.order j = some { o with stored := o.status.isSome } ∧
          (∀ k, k ≠ j → u.core.order k = s.core.order k) ∧ u.twin = s.twin) ∧
        ∀ n, ∃ u, Runs (.completionNoticeReceived (.itemsStored j n)) s u ∧ u.core.order j = some { o with itemsIn := max o.itemsIn n } ∧
          (∀ k, k ≠ j → u.core.order k = s.core.order k) ∧ u.twin = s.twin) ∧
      (∀ a, Runs (.completionNoticeReceived (.forwardStored a)) s
        { s with core := { s.core with forwards := s.core.forwards.filter (·.2 ≠ a) } }) ∧
      (∀ q, ∃ u, Runs (.completionNoticeReceived (.twins q)) s u ∧
        u.twin.mirror.notices = s.twin.mirror.notices.filter (·.jno ≠ q.jno) ++ [q] ∧ u.out = s.out ++ [.noticeStored q.jno] ∧ u.core = s.core) ∧
      (∀ i, (∀ b, i ≠ .copy b) →
        let m := { s.twin.mirror with items := s.twin.mirror.items ++ [i] }
        let full := 67108864 < ((m.items.filter fun k => m.itemDie k = m.itemDie i).map itemBytes).sum + 16384
        Runs (.heldItemReceived i) s { s with
          out := s.out ++ .itemStored (itemJno i) :: if full then [.itemsFull (m.itemDie i)] else []
          twin := { s.twin with mirror := m } }) ∧
      (∀ die < 4, Runs (.completionNoticeReceived (.queueFull die)) s
        { s with twin := { s.twin with own := { s.twin.own with full := s.twin.own.full.set die true } } }) ∧
      (∀ b, (∀ t, s.mirrorWrites [.copy b] = some t → Runs (.heldItemReceived (.copy b)) s t) ∧
        (s.mirrorWrites [.copy b] = none → ∃ u, Runs (.heldItemReceived (.copy b)) s u ∧ u.memr.event = orBit s.memr.event 2 ∧
          u.twin = s.twin ∧ u.core = s.core)) ∧
      (∀ a (d : Bytes), d ≠ [] → blockOf (a + d.length - 1) = blockOf a →
        ((s.twin.mirror.shadowAt a).isSome = true ∨ (s.core.takePool (s.twin.mirror.stackOf a)).isSome = true) →
        ∃ u, Runs (.accumulatorForwardReceived a d) s u ∧ (∀ i < d.length, getKey (u.twin.mirror.now a).cells (a + i) = d[i]?) ∧
          (∀ b, blockOf b ≠ blockOf a → u.twin.mirror.shadowAt b = s.twin.mirror.shadowAt b) ∧ u.twin.mirror.mem = s.twin.mirror.mem ∧
          u.out = s.out ++ [.forwardStored a] ∧ u.core.mem = s.core.mem ∧ u.core.orders = s.core.orders) ∧
      (s.twin.state = .recopy →
        (s.twin.matched = true → ∃ u, Runs (.recopyDone [] []) s u ∧ u.twin.state = .sync ∧ u.twin.recopying = [] ∧
          u.twin.detected = false ∧ u.twin.event = orBit s.twin.event 0 ∧ u.core = s.core) ∧
        (∀ theirs t, theirs ≠ [] → s.mirrorWrites (theirs.map .copy) = some t → ∃ u, Runs (.recopyDone [] theirs) s u ∧
          u.twin.state = .recopy ∧ u.twin.recopied = true ∧ u.twin.recopying = [] ∧ u.twin.mirror = t.twin.mirror ∧ u.core = t.core) ∧
        (∀ (w : CopiedBlock) o c ok, s.core.obj (addrIndex w.addr) = some o → s.core.holds w.addr w.data = false →
          s.core.shadowCopy o.ctx w = (c, ok) →
          (ok = true → ∃ u, Runs (.recopyDone [w] []) s u ∧ u.twin.state = .recopy ∧ u.twin.recopied = true ∧ u.twin.recopying = [] ∧
            u.core = c) ∧
          (ok = false → ∃ u, Runs (.recopyDone [w] []) s u ∧ u.twin = s.twin ∧ u.memr.event = orBit s.memr.event 2 ∧ u.core = c)) ∧
        ∀ (d : Word) j det, s.twin.recopied = true → d.toNat = s.releasedDigest j → ∃ u, Runs (.digestReceived d j ⟨[], [], det⟩) s u ∧
          u.twin.state = .sync ∧ u.twin.recopied = false ∧ u.twin.detected = false ∧ u.core = s.core)) ∧
    (∀ j, s.twin.mirror.released.find? (fun j => !s.twin.mirror.finished.contains j) = some j → s.twin.mirror.compare = false →
      let next := s.twin.mirror.left.find? fun i => itemJno i = j
      (∀ i, next = some i →
        let ws := s.twin.mirror.itemWrites i
        (s.twin.drainHolds ws = true → Runs .replayApply s s) ∧
        (s.twin.drainHolds ws = false → s.mirrorWrites ws = none →
          ∃ u, Runs .replayApply s u ∧ u.memr.event = orBit s.memr.event 2 ∧ u.twin = s.twin ∧ u.core = s.core) ∧
        (∀ t, s.twin.drainHolds ws = false → s.mirrorWrites ws = some t → ∃ u, Runs .replayApply s u ∧
          u.twin.mirror.shadow = t.twin.mirror.shadow ∧ u.twin.mirror.mem = s.twin.mirror.mem ∧
          u.twin.mirror.taken = s.twin.mirror.taken ++ [i] ∧ u.twin.mirror.items = s.twin.mirror.items ∧
          (∀ b : CopiedBlock, i = .block j b → ∀ n < b.data.length,
            getKey (u.twin.mirror.now b.addr).cells (b.addr + n) = b.data[n]?))) ∧
      (next = none → ∃ u, Runs .replayApply s u ∧ u.twin.mirror.finished = s.twin.mirror.finished ++ [j] ∧
        u.twin.mirror.mem = s.twin.mirror.mem ∧ u.core = s.core)) ∧
    (∀ (d : Word) j objs own det, s.twin.state = .sync →
      (d.toNat = s.releasedDigest j → objs = [] → own = [] → ∃ u, Runs (.digestReceived d j ⟨objs, own, det⟩) s u ∧ u.twin.state = .sync ∧
        u.twin.lastDigest = d.toNat ∧ u.twin.detected = false ∧ u.flog = s.flog) ∧
      (d.toNat ≠ s.releasedDigest j ∨ objs ≠ [] ∨ own ≠ [] → ∃ u, Runs (.digestReceived d j ⟨objs, own, det⟩) s u ∧ u.twin.state = .recopy ∧
        u.twin.lastDigest = d.toNat ∧ u.twin.event = orBit s.twin.event 1 ∧
        u.flog.waiting = s.flog.waiting ++ [s.reportEntry 0x0B01 0] ∧ u.core = s.core)) ∧
    ∀ p fab, p < 2 → s.opt.ports.length = 18 → s.selvedgeUp 0 = true → s.selvedgeUp 1 = true → ∃ u, Runs (.selvedgePortLost p fab) s u ∧
      u.selvedgeUp p = false ∧ u.selvedgeUp (1 - p) = true ∧ u.opt.event = orBit s.opt.event 0 ∧ u.twin = s.twin ∧
      u.flog.waiting = s.flog.waiting ++ [s.reportEntry 0x0B03 0] ∧ u.core = s.core

/-- The loss of a twin: silence in SYNC, a notice of a lost module, and in HOLD the end of the limit or a failed warm start make this module
absorb it (R396 to R398); a notice of its warm start holds the pair (R397). -/
def Obligations.TwinIsLostOrHeld : Prop :=
  ∀ s : State, s.operational = true →
    (s.twin.state = .sync → (∃ u, Runs .twinSilenceTimeout s u ∧ LostTwin s 0x0B05 s.twin.lastBeat u) ∧
      ∀ cause beat, (∃ u, Runs (.quiesceNoticeReceived cause .lost beat) s u ∧ LostTwin s 0x0B05 beat u) ∧
        (s.twin.holdMs ≠ 0 → ∃ u, Runs (.quiesceNoticeReceived cause .warm beat) s u ∧ u.twin.state = .hold ∧ u.twin.lastBeat = beat ∧
          (twinAddr s.myAddr, beat, false) ∈ u.reed.holds ∧ u.flog = s.flog ∧ (s.core.repairs = [] → u.core.mem = s.core.mem))) ∧
    (s.twin.state = .hold → ∀ c ∈ [Instr.holdLimitExpiry, .failedWarmStartReport], ∃ u, Runs c s u ∧ LostTwin s 0x0B06 s.twin.lastBeat u)

/-- The host link: it goes down and trains (R426 to R428); a MAC failure in containment mode takes it out of use (R445); a read of a
clean line gives its bytes, outside every aperture zeros, and outside operational state poison, and waits while the link is down or the snoop
filter full (R428, R439, R440); a full write lands, and one to a
PERSIST or WINDOWED object is dropped (R439, R446); a snoop's response frees its line (R440); a decoder is committed (R437); snoops and
UIO requests are answered (R426, R433). -/
def Obligations.HostLinkAnswers : Prop :=
  ∀ s : State,
    (s.glb.up = true → s.operational = true → ∃ u, Runs .cxlLinkDown s u ∧ u.glb.up = false ∧ u.glb.event = orBit s.glb.event 1 ∧
      u.flog.waiting = s.flog.waiting ++ [s.reportEntry 0x0D20 0] ∧ u.core = s.core) ∧
    (∀ w r, linkOk w r = true → s.glb.ready = false → s.glb.hostWaits = [] → s.core.waits = [] → s.core.running = [] → ∃ u, Runs (.cxlLinkTrained w r) s u ∧ u.glb.up = true ∧ u.glb.width = w ∧ u.glb.rate = r ∧
      ((w < 16 ∨ r < 2) → (4 ≤ w ∨ s.linkUp = false ∨ s.operational = false) → u.glb.event = orBit s.glb.event 0) ∧
      (w = 2 → s.linkUp = true → s.operational = true → u.glb.event = orBit (orBit s.glb.event 0) 1 ∧ u.linkUp = false ∧
        (s.beating = true → u.flog.waiting = s.flog.waiting ++ [s.reportEntry 0x0D23 0, s.reportEntry 0x0D20 0])) ∧ (w = 16 → r = 2 → u.flog = s.flog) ∧ u.glb.state = s.glb.state ∧ u.core = s.core) ∧
    ((s.glb.ideIo = true ∨ s.glb.ideCm = true) → s.glb.skid = false → ∃ u, Runs .ideMacFailure s u ∧ u.glb.macBad = true ∧ u.linkUp = false ∧
      (s.linkUp = false ∨ s.operational = false → u.glb.event = orBit s.glb.event 2) ∧
      (s.linkUp = true → s.operational = true → u.glb.event = orBit (orBit s.glb.event 2) 1) ∧ u.core = s.core) ∧
    (∀ hpa, s.hdmHit hpa = true →
      (s.operational = false → ∃ u, Runs (.cxlMemRead hpa {}) s u ∧ u.out = s.out ++ [.cxlData (leBytes 64 0) true] ∧ u.glb.event = orBit s.glb.event 4) ∧
      (s.operational = true → s.linkUp = false → s.aperture hpa = none → ∃ u, Runs (.cxlMemRead hpa {}) s u ∧ u.out = s.out ∧
        u.glb.hostWaits = s.glb.hostWaits ++ [.zeros]) ∧
      (s.operational = true → s.linkUp = true → s.aperture hpa = none → ∃ u, Runs (.cxlMemRead hpa {}) s u ∧ u.out = s.out ++ [.cxlData (leBytes 64 0) false]) ∧
      (∀ a o, s.operational = true → s.aperture hpa = some (a, o) →
        (s.linkUp = false → ∀ err, Runs (.cxlMemRead hpa err) s { s with glb := { s.glb with hostWaits := s.glb.hostWaits ++ [.read a err] } }) ∧
        (s.linkUp = true → s.filterFull (a / 64) = true → ∀ err, ∃ u, Runs (.cxlMemRead hpa err) s u ∧
          u.glb.hostWaits = s.glb.hostWaits ++ [.read a err] ∧ u.glb.filter = s.glb.filter)) ∧
      (∀ a o, s.operational = true → s.linkUp = true → s.aperture hpa = some (a, o) → s.core.syndrome s.core.mem (a / 64) = 0 → s.core.repairs = [] →
        s.glb.filter.length < 8388608 → ∃ u, Runs (.cxlMemRead hpa {}) s u ∧
          u.out = s.out ++ [.cxlData (s.core.memBytes s.core.mem a 64) false] ∧ (∃ m, (a / 64, m) ∈ u.glb.filter) ∧ u.core = s.core) ∧
      (∀ a o (d : Bytes) m err, s.operational = true → s.linkUp = true → s.aperture hpa = some (a, o) → m.all id = true →
        getKey s.core.pm.parts (a / 64) = none →
        (o.cls ≤ 1 → ∃ u, Runs (.cxlMemWrite hpa d ⟨m, err⟩) s u ∧ u.glb.event = orBit s.glb.event 4 ∧ u.core = s.core ∧ u.committed = s.committed) ∧
        (2 ≤ o.cls → d.length = 64 → ∃ u, Runs (.cxlMemWrite hpa d ⟨m, err⟩) s u ∧ getKey u.core.mem.sectors (a / 64) = some .valid ∧
          (∀ i < 64, getKey u.core.mem.cells (64 * (a / 64) + i) = d[i]? ∧ getKey u.committed.mem.cells (64 * (a / 64) + i) = d[i]?) ∧
          (∀ b, b < 64 * (a / 64) ∨ 64 * (a / 64) + 64 ≤ b → getKey u.core.mem.cells b = getKey s.core.mem.cells b) ∧ u.core.objs = s.core.objs))) ∧
    (∀ line, s.core.waits = [] → s.glb.hostWaits = [] → ∃ u, Runs (.bisnpResponse line none) s u ∧ (∀ e ∈ u.glb.filter, e.1 ≠ line) ∧ (line ∉ u.core.snoops) ∧
      u = { s with glb := { s.glb with filter := u.glb.filter }, core := { s.core with snoops := u.core.snoops } }) ∧
    (∀ base size, 1 ≤ size → size ≤ 4608 → Runs (.hdmDecoderCommit base size 1 true) s
      { s with glb := { s.glb with hdmBase := base, hdmSize := size, hdmOn := true } }) ∧
    (∀ base size ways db, (ways ≠ 1 ∨ db = false ∨ size = 0 ∨ 4608 < size) →
      Runs (.hdmDecoderCommit base size ways db) s { s with out := s.out ++ [.commitError] }) ∧
    (∀ line, Runs (.cxlCacheSnoop line) s { s with out := s.out ++ [.snoopRsp line] }) ∧
    ∀ fn uio, (uio = true ∨ fn ≠ 0) → Runs (.uioRequestReceived fn uio) s { s with out := s.out ++ [.unsupportedRequest fn] }

/-- Module faults, emergencies, host resets and requested resets quiesce a module in operational state (R73, R431, R469, R517): the state
of the last completed beat is back, the cause is recorded and told, and the module goes on by Table 17-2. -/
def Obligations.FaultsQuiesce : Prop :=
  ∀ s : State, s.operational = true →
    (∀ link, link < 8 → 17 ≤ s.integ.linkFail.getD link 0 → ∃ u, Runs (.linkDie link) s u ∧ Quiesced s 0x0D01 link u) ∧
    (∀ link frame, link < 8 → dieFrameOk frame = false → 16 ≤ s.integ.linkFail.getD link 0 →
      ∃ u, Runs (.dieLinkFrame link frame) s u ∧ Quiesced s 0x0D01 link u) ∧
    (∃ u, Runs .flowEmergencyTimer s u ∧ Quiesced s 0x0E04 0 u) ∧ (∃ u, Runs .pwrOverload s u ∧ Quiesced s 0x0E06 0 u) ∧
    (∃ u, Runs (.emergencyQuiesce 0 0) s u ∧ Quiesced s 0 0 u) ∧
    (∀ cause detail, isModuleFault cause = true ∨ isEmergency cause = true →
      ∃ u, Runs (.emergencyQuiesce cause detail) s u ∧ Quiesced s cause detail u) ∧
    (∀ k, ∃ u, Runs (.hostLinkReset k) s u ∧ Quiesced s 0 0 u ∧ (k ∈ [.perst, .hotReset, .linkDisable, .secondaryBus] → u.glb.up = false) ∧
      (k ∈ [.flr, .cxlReset] → u.glb.up = s.glb.up)) ∧
    (s.linkUp = false → s.glb.limitMs ≠ 0 → ∃ u, Runs .cxlLostTimeout s u ∧ Quiesced s 0x0D21 0 u) ∧
    (8 ≤ s.pick.late → ∃ u, Runs .alignOffsetExceeded s u ∧ Quiesced s 0x0301 0 u) ∧
    (s.pick.self = false → ∃ u, Runs .leaderMarkerTimeout s u ∧ Quiesced s 0x0301 0 u) ∧
    ((∀ p < 16, (s.port p).state ≠ .up) → ∃ u, Runs .linkIsolated s u ∧ Quiesced s 0x0D12 0 u) ∧
    (∀ loc, 2 ≤ s.pick.counter → (∀ i ≤ 2, ((locKey loc).1, (locKey loc).2, s.pick.counter - i) ∈ s.core.onchip.crcHits) →
      ∃ u, Runs (.memOnchip loc) s u ∧ Quiesced s 0x0708 0 u) ∧
    ((s.glb.ideIo = true ∨ s.glb.ideCm = true) → s.glb.skid = true → ∃ u, Runs .ideMacFailure s u ∧ Quiesced s 0x0D22 0 u) ∧
    (s.power.on = true → ∃ u, Runs (.presenceContactBreak true true) s u ∧ Quiesced s 0x0E02 0 u)

/-- Starts: a cold start whose steps all succeed takes its address and axes from the settings, has no committed contents, and listens for
markers; the sixth failed start is recovery (R478 to R482). A warm start whose rows end in time keeps contexts, objects and memory,
re-issues its orders, and listens; one that does not end in time fails and cold starts (R483 to R486). A boot step past its limit
and the limit of optical training end as Table 17-5 says (R477). -/
def Obligations.StartsProceed : Prop :=
  ∀ s : State,
    (s.glb.state = .cold → ∀ o : ColdObs, o.railsOk = true → o.flashOk = true → o.marker = none →
      (6 ≤ byteAt s.bootRec 0 → ∃ u, Runs (.coldStart o) s u ∧ u.glb.state = .recovery ∧ u.core.mem = {} ∧ u.flash.rpmc = s.flash.rpmc) ∧
      (byteAt s.bootRec 0 ≤ 2 → s.bootRec.length = 6 → manifestOk s.flash.setA 0 = true → s.flash.rpmc ≤ fieldAt s.flash.setA 8 4 → o.pufOk = true →
        (∀ t ∈ [1, 2, 3], hashOk s.flash.setA t = true) → compatOk s.flash.setA = true → o.hbmFail = none → o.bistFail = none → failingChecker o.answers = none →
        addressOk (s.setting 0x0001) = true → o.cxl = none →
        ∃ u, Runs (.coldStart o) s u ∧ u.pick.joining = true ∧ u.glb.address = unpackAddr (fieldAt (s.setting 0x0001) 0 2) ∧
          u.glb.axes = (List.range 4).map (fun i => byteAt (s.setting 0x0001) (2 + i)) ∧ u.fw.set = 0 ∧ u.fw.secVer = fieldAt s.flash.setA 8 4 ∧
          u.core = {} ∧ u.committed = {} ∧ u.twin.state = .unpaired ∧ u.integ.stDone = true ∧ u.flash.rpmc = s.flash.rpmc ∧
          u.proto.straps = o.straps ∧ byteAt u.bootRec 0 = byteAt s.bootRec 0 + 1)) ∧
    (s.glb.state = .cold → ∀ n,
      (7 ≤ n → n ≤ 9 → ∃ u, Runs (.bootStepTimeout n) s u ∧ u.glb.state = .mgmtOnly ∧ u.glb.bootCode = 0x0C08 ∧ u.core = s.core) ∧
      ((2 ≤ n ∧ n ≤ 6) ∨ n = 11 → ∃ u, Runs (.bootStepTimeout n) s u ∧ u.glb.state = .cold ∧ u.glb.bootCode = 0x0C08 ∧ u.core = s.core)) ∧
    (s.glb.state = .cold → ∃ u, Runs .opticalTrainingLimit s u ∧ (∀ p : Port, p ∈ u.opt.ports → p.state ∉ ([.train, .identify, .measure] : List PortState)) ∧
      (∀ (i : Nat) (p : Port), s.opt.ports[i]? = some p → p.state ∉ ([.train, .identify, .measure] : List PortState) → u.opt.ports[i]? = some p) ∧
      u = { s with opt := { s.opt with ports := u.opt.ports } }) ∧
    (s.glb.state = .warm → ∀ o : WarmObs,
      (o.inTime = false → ∃ u, Runs (.warmStart o) s u ∧ u.glb.state = .cold ∧ u.glb.bootCode = 0x0C0B) ∧
      (o.inTime = true → o.trainingOk = true → o.reserveOk = true → o.faultFree = true → o.holdsTwin = false → o.marker = none →
        s.fw.activate = false → ∃ u, Runs (.warmStart o) s u ∧ u.pick.joining = true ∧ u.glb.lastReset = 1 ∧ u.core.mem = s.core.mem ∧
          u.core.objs = s.core.objs ∧ u.core.pools = s.core.pools ∧ u.core.orders = s.core.orders.map OrderSt.reissue ∧
          (∀ i, (u.core.ctx i).inc = (s.core.ctx i).inc ∧ (u.core.ctx i).live = [] ∧ (u.core.ctx i).saved = none) ∧
          u.core.onchip.sram = [] ∧ u.core.onchip.acc = [] ∧ u.committed = u.core ∧ u.twin.state = s.twin.state ∧ u.ord.entries = s.ord.entries))

/-- Sensors and inputs: a snapshot keeps its readings (R518); a clock step rises by one where every margin of R516 holds; an input in
range that qualifies and charges starts the module or joins its load (R523); a lost input is reported while another is in range; a
module that powers down keeps its flash alone (R517). -/
def Obligations.PowerIsTracked : Prop :=
  ∀ s : State,
    (∀ r, s.thermalEmergency r = false → ∃ u, Runs (.sensorSnapshot r) s u ∧ u.mgt.snap = r ∧ u.mgt.snapBeat = s.pick.counter ∧ u.mgt.inputW = r.pIn4 ∧
      u.mgt.coolant = coolantBad r ∧ u.power.smbalert = s.pwrActive r ∧ u.proto.lastSens = s.stateSensors ∧ u.core = s.core ∧ u.pick.step = s.pick.step) ∧
    (∀ r, s.beating = true → s.mgt.cap < s.pick.step → s.mgt.latchAt = none → s.mgt.target ≤ s.pick.step → hotAt r 901 851 651 = false → 100 * r.pIn4 ≤ 95 * s.mgt.limitW →
      withinLimit r.pIn4 r.dieP4 s.mgt.limitW s.pick.step (s.pick.step - 1) = true → ∃ u, Runs (.stepRise r) s u ∧ u.mgt.target = s.pick.step - 1 ∧
        u.mgt.latchAt = some s.pick.counter ∧ u.pick.step = s.pick.step ∧ u.core = s.core) ∧
    (∀ i x (mv : Int), s.power.inputs[i]? = some x →
      (40000 ≤ mv → mv ≤ 60000 → Runs (.inputVoltageChange i mv) s
        { s with power := { s.power with inputs := s.power.inputs.set i { x with inRange := true }, lost := false } }) ∧
      (mv < 40000 → x.inRange = true → s.power.on = true → (∃ k y, k ≠ i ∧ s.power.inputs[k]? = some y ∧ y.inRange = true) → s.beating = true →
        ∃ u, Runs (.inputVoltageChange i mv) s u ∧ u.flog.waiting = s.flog.waiting ++ [s.reportEntry 0x0E01 0] ∧ u.mgt.event = orBit s.mgt.event 2 ∧
          u.power.inputs[i]? = some { x with inRange := false, qualified := false, charged := false, connected := false } ∧ u.core = s.core) ∧
      (x.inRange = true → x.seated = true → Runs (.inputQualified i) s
        { s with power := { s.power with inputs := s.power.inputs.set i { x with qualified := true } } }) ∧
      (x.qualified = true → x.inRange = true → ∃ u, Runs (.bulkChargeDone i) s u ∧ u.power.on = true ∧
        u.power.inputs = s.power.inputs.set i { x with charged := true, connected := true } ∧ (s.power.on = false → u.glb.state = .cold) ∧
        (s.power.on = true → u.glb = s.glb))) ∧
    (s.power.lost = true → ∃ u, Runs .powerDownTimeout s u ∧ (s.flash.writing = false → s.flash.copying = false → u.flash = s.flash) ∧
      (s.flash.writing = true → s.flash.copying = false → manifestOk u.flash.setA 0 = false ∧ u.flash.setB = s.flash.setB) ∧
      (s.flash.copying = true → manifestOk u.flash.setB 1 = false ∧ u.flash.setA = s.flash.setA) ∧ u.out = s.out ++ [.powerDown] ∧ u.core = {} ∧ u.committed = {} ∧
      u.glb = {} ∧ u.power.on = false) ∧
    (∀ x y, s.power.on = true → s.beating = true → s.power.inputs[0]? = some x → s.power.inputs[1]? = some y → y.inRange = true →
      ∃ u, Runs (.presenceContactBreak true false) s u ∧
      u.flog.waiting = s.flog.waiting ++ [s.reportEntry 0x0E01 0] ∧ u.power.on = true ∧
      u.power.inputs[0]? = some { seated := false, inRange := false, qualified := false, charged := false, connected := false } ∧ u.core = s.core)

/-! ## Management protocols -/

/-- MCTP control and PLDM: every request is answered on its binding. Endpoint and terminus IDs are kept, and the fixed tables
of Table 18-1 are told, and what a reply holds beside them is a value that the spec leaves open; a reserved ID, type, sensor or effecter
is refused; an update's request starts a new write of the image set, its verification keeps the verdict it answers, and it ends in
activation or is cancelled (R494, R495, R506, R507, R513). The completion codes are the model's (PRESUMED, log entry 30). -/
def Obligations.PldmAnswers : Prop :=
  ∀ (b : Binding) (s : State),
    let sends := fun (cmd : String) (vals : List Nat) => { s with out := s.out ++ [Out.mctp b cmd vals] }
    (∀ eid, (8 ≤ eid → eid < 255 → Runs (.setEndpointId b eid) s
        { sends "SET_ENDPOINT_ID" [ccOk, eid] with proto := { s.proto with eids := s.proto.eids.set (Binding.idx b) eid } }) ∧
      ((eid < 8 ∨ 255 ≤ eid) → Runs (.setEndpointId b eid) s (sends "SET_ENDPOINT_ID" [ccInvalid]))) ∧
    (∀ tid, (1 ≤ tid → tid < 255 → Runs (.setTid b tid) s
        { sends "SET_TID" [ccOk] with proto := { s.proto with tids := s.proto.tids.set (Binding.idx b) tid } }) ∧
      ((tid = 0 ∨ 255 ≤ tid) → Runs (.setTid b tid) s (sends "SET_TID" [ccInvalid]))) ∧
    Runs (.getEndpointId b) s (sends "GET_ENDPOINT_ID" [ccOk, s.proto.eids.getD (Binding.idx b) 0]) ∧
    Runs (.getTid b) s (sends "GET_TID" [ccOk, s.proto.tids.getD (Binding.idx b) 0]) ∧
    Runs (.getEndpointUuid b) s (sends "GET_ENDPOINT_UUID" [ccOk, Config.reply 0 0]) ∧
    Runs (.getVendorDefinedMessageSupport b) s (sends "GET_VENDOR_DEFINED_MESSAGE_SUPPORT" [ccOk, Config.reply 2 0]) ∧
    Runs (.getMessageTypeSupport b) s (sends "GET_MESSAGE_TYPE_SUPPORT" [ccOk, 0, 1, 5, 6, 0x7E]) ∧
    Runs (.getPldmTypes b) s (sends "GET_PLDM_TYPES" [ccOk, 0, 2, 5]) ∧
    (∀ k, (k ∈ [0, 1, 5, 6, 0x7E, 0xFF] →
        Runs (.getMctpVersionSupport b k) s (sends "GET_MCTP_VERSION_SUPPORT" [ccOk, Config.reply 1 k])) ∧
      (k ∉ [0, 1, 5, 6, 0x7E, 0xFF] → Runs (.getMctpVersionSupport b k) s (sends "GET_MCTP_VERSION_SUPPORT" [0x80])) ∧
      (k ∈ [0, 2, 5] → Runs (.getPldmVersion b k) s (sends "GET_PLDM_VERSION" [ccOk, Config.reply 3 k]) ∧
        Runs (.getPldmCommands b k) s (sends "GET_PLDM_COMMANDS" [ccOk, Config.reply 4 k])) ∧
      (k ∉ [0, 2, 5] → Runs (.getPldmVersion b k) s (sends "GET_PLDM_VERSION" [0x83]) ∧
        Runs (.getPldmCommands b k) s (sends "GET_PLDM_COMMANDS" [0x83])) ∧
      (1 ≤ k → k ≤ 27 → Runs (.getPdr b k) s (sends "GET_PDR" [ccOk, Config.reply 5 k])) ∧
      (k = 0 ∨ 27 < k → Runs (.getPdr b k) s (sends "GET_PDR" [0x82])) ∧
      Runs (.setEventReceiver b k) s
        { sends "SET_EVENT_RECEIVER" [ccOk] with proto := { s.proto with receiver := s.proto.receiver.set (Binding.idx b) (some k) } }) ∧
    (∀ w, 1600 ≤ w → w ≤ 3200 →
      (s.beatsAhead = true → Runs (.numericEffecterSet b 1 w) s
        { sends "NUMERIC_EFFECTER_SET" [ccOk] with mgt := { s.mgt with waiting := s.mgt.waiting ++ [⟨.mctp b 0 0 [], 0, 0x112, leBytes 2 w⟩] } }) ∧
      (s.beatsAhead = false → ∃ u, Runs (.numericEffecterSet b 1 w) s u ∧ u.mgt.limitW = w ∧
        u.out = s.out ++ [.mctp b "NUMERIC_EFFECTER_SET" [ccOk]] ∧ u.core = s.core)) ∧
    (∀ e w, (e ≠ 1 → Runs (.numericEffecterSet b e w) s (sends "NUMERIC_EFFECTER_SET" [ccUnsupported])) ∧
      (w < 1600 ∨ 3200 < w → Runs (.numericEffecterSet b 1 w) s (sends "NUMERIC_EFFECTER_SET" [ccInvalid]))) ∧
    Runs (.getStatus b) s (sends "GET_STATUS" [ccOk, s.proto.update]) ∧
    (s.proto.update = 0 → Runs (.requestUpdate b) s { sends "REQUEST_UPDATE" [ccOk] with
      proto := { s.proto with update := 1 }
      flash := { s.flash with
        verdict := none, staged := []
        writing := s.flash.writing || decide (s.glb.state ≠ .recovery)
        copying := if s.glb.state = .recovery then s.flash.copying else decide (byteAt s.bootRec 1 = 0) } }) ∧
    (s.proto.update ≠ 0 → Runs (.requestUpdate b) s (sends "REQUEST_UPDATE" [0x81])) ∧
    (s.proto.update = 2 → Runs (.verifyComplete b) s { sends "VERIFY_COMPLETE" [s.verifyImage.2] with
      proto := { s.proto with update := 3 }, flash := s.verifyImage.1.flash }) ∧
    (s.proto.update = 3 → s.flash.verdict = some 0 → Runs (.activateFirmware b false) s
      { sends "ACTIVATE_FIRMWARE" [ccOk, Config.reply 6 0] with proto := { s.proto with update := 0 } }) ∧
    (s.proto.update = 3 → s.flash.verdict ≠ some 0 → Runs (.activateFirmware b false) s (sends "ACTIVATE_FIRMWARE" [ccInvalid])) ∧
    (s.proto.update = 3 → Runs (.activateFirmware b true) s (sends "ACTIVATE_FIRMWARE" [ccUnsupported])) ∧
    (∀ self, s.proto.update ≠ 3 → Runs (.activateFirmware b self) s (sends "ACTIVATE_FIRMWARE" [0x80])) ∧
    (s.proto.update = 0 → Runs (.cancelUpdate b) s (sends "CANCEL_UPDATE" [0x80])) ∧
    (s.proto.update ≠ 0 → Runs (.cancelUpdate b) s { sends "CANCEL_UPDATE" [ccOk] with
      proto := { s.proto with update := 0 }
      flash := { s.flash with writing := s.flash.writing && (decide (s.glb.state = .recovery) || decide (s.proto.update ≠ 1)) } })

/-- SPDM and IDE key management: a connection negotiates, attests with signed responses while the attestation key is whole, and
establishes a session; a request out of place is an ERROR. Inside a DOE session the keys of the two streams are programmed, started
and stopped, which takes a host link that needs them down (R444, R498 to R501). JTAG answers within the unlocked scope (R510). -/
def Obligations.SpdmAnswers : Prop :=
  ∀ (doe : Bool) (s : State),
    let err := { s with out := s.out ++ [Out.spdmError doe] }
    let moves := fun (st : SpdmState) (o : Out) =>
      { s with out := s.out ++ [o], proto := { s.proto with spdm := s.proto.spdm.set (if doe then 1 else 0) st } }
    let tells := fun (cmd : String) (vals : List Nat) => { s with out := s.out ++ [Out.spdm doe cmd vals] }
    let sig := leNat (Config.keyed 0 s.freeCtr)
    let signs := fun (cmd : String) (vals : List Nat) => { tells cmd (vals ++ [sig]) with freeCtr := s.freeCtr + 1 }
    Runs (.getVersion doe) s (moves .none (.spdm doe "GET_VERSION" [Config.reply 7 0])) ∧
    Runs (.getCapabilities doe) s (tells "GET_CAPABILITIES" [Config.reply 8 0]) ∧
    Runs (.negotiateAlgorithms doe true) s (moves .negotiated (.spdm doe "NEGOTIATE_ALGORITHMS" [Config.reply 9 0])) ∧
    Runs (.negotiateAlgorithms doe false) s err ∧
    (s.spdmAt doe = .none → Runs (.getDigests doe) s err ∧ (∀ slot n, Runs (.getCertificate doe slot) s err ∧ Runs (.challenge doe slot n) s err ∧
      Runs (.keyExchange doe slot) s err) ∧ ∀ i, Runs (.getMeasurements doe i) s err) ∧
    (s.spdmAt doe ≠ .none →
      Runs (.getDigests doe) s (tells "GET_DIGESTS" [leNat (Config.sha512 Config.certificates)]) ∧
      Runs (.getCertificate doe 0) s (tells "GET_CERTIFICATE" [leNat Config.certificates]) ∧
      (∀ slot n, slot ≠ 0 → Runs (.getCertificate doe slot) s err ∧ Runs (.challenge doe slot n) s err ∧ Runs (.keyExchange doe slot) s err) ∧
      (∀ i, 8 < i → i ≠ 0xFF → Runs (.getMeasurements doe i) s err) ∧
      (s.fw.akErased = false →
        (∀ n, Runs (.challenge doe 0 n) s (signs "CHALLENGE" [leNat n])) ∧
        (∀ i, 1 ≤ i → i ≤ 8 → Runs (.getMeasurements doe i) s (signs "GET_MEASUREMENTS" [leNat (s.measurement i)])) ∧
        Runs (.getMeasurements doe 0) s (signs "GET_MEASUREMENTS" [8]) ∧
        Runs (.getMeasurements doe 0xFF) s (signs "GET_MEASUREMENTS" ((List.range 8).map fun i => leNat (s.measurement (i + 1)))) ∧
        Runs (.keyExchange doe 0) s { moves .handshake (.spdm doe "KEY_EXCHANGE" [sig]) with freeCtr := s.freeCtr + 1 }) ∧
      (s.fw.akErased = true → (∀ n, Runs (.challenge doe 0 n) s err) ∧ Runs (.keyExchange doe 0) s err ∧
        ∀ i, i ≤ 8 ∨ i = 0xFF → Runs (.getMeasurements doe i) s err)) ∧
    (s.spdmAt doe = .handshake → Runs (.finish doe true) s (moves .session (.spdm doe "FINISH" [])) ∧
      Runs (.finish doe false) s (moves .negotiated (.spdmError doe))) ∧
    (s.spdmAt doe = .session → Runs (.heartbeat doe) s { s with out := s.out ++ [.spdm doe "HEARTBEAT" []] } ∧
      Runs (.keyUpdate doe) s { s with out := s.out ++ [.spdm doe "KEY_UPDATE" []] } ∧
      Runs (.endSession doe) s (moves .negotiated (.spdm doe "END_SESSION" []))) ∧
    (s.spdmAt doe ≠ .session → Runs (.heartbeat doe) s err ∧ Runs (.keyUpdate doe) s err ∧ Runs (.endSession doe) s err) ∧
    (s.ideSession = true →
      Runs .query s { s with out := s.out ++ [.ideKm "QUERY" [2, Config.reply 10 0]] } ∧
      ∀ k < 2, (∀ key, Runs (.keyProg k key) s
          { s with out := s.out ++ [.ideKm "KEY_PROG" [k, 0]], proto := { s.proto with ideKeys := s.proto.ideKeys.set k (some key) } }) ∧
        (∃ u, Runs (.kSetStop k) s u ∧ u.proto.ideOn = s.proto.ideOn.set k false ∧ u.out = s.out ++ [.ideKm "K_SET_STOP" [k]] ∧ u.core = s.core ∧
          (s.operational = true → s.linkUp = true → u.linkUp = false → u.glb.event = orBit s.glb.event 1)) ∧
        (∀ key, s.proto.ideKeys[k]? = some (some key) →
          Runs (.getKey k) s { s with out := s.out ++ [.ideKm "GET_KEY" [k, leNat key]] } ∧
          (s.glb.hostWaits = [] → s.core.waits = [] → s.core.running = [] → ∃ u, Runs (.kSetGo k) s u ∧ u.proto.ideOn = s.proto.ideOn.set k true ∧ u.glb.macBad = false ∧ u.out = s.out ++ [.ideKm "K_SET_GO" [k]] ∧
            u.core = s.core))) ∧
    ∀ i, Runs (.jtagInstruction i) s { s with out := s.out ++ [.jtag i (decide ((match i with
      | .idcode => 0 | .bypass => 0 | .boundary => 1 | .internalScan => 2 | .coreDebug => 2) ≤ s.proto.scope))] }
end

