-- ==== Sys2Proof/Laws/Frame.lean ====
section
/-! SUPPORT. Sys2Proof/Laws/Frame.lean: what each shared operation leaves alone: the queue, the security counter, the address and the
straps (Root), the pick's counter, phase and step with the module state (Clock), the pair state (Pair), or all of them (Still). -/

set_option linter.unusedSimpArgs false

namespace Sys2Proof.Machine

/-- Nothing of the queue, the security counter, the address, the straps, the pick's counter, phase and step, the pair state and
the module state differs. -/
@[reducible] def Still (t s : State) : Prop := t.pending = s.pending ∧ t.flash.rpmc = s.flash.rpmc ∧ t.glb.address = s.glb.address ∧ t.proto.straps = s.proto.straps ∧ t.pick.counter = s.pick.counter ∧ t.pick.phase = s.pick.phase ∧ t.pick.step = s.pick.step ∧ t.twin.state = s.twin.state ∧ t.glb.state = s.glb.state
theorem foldl_Still {α : Type} (f : State → α → State) (h : ∀ s a, Still (f s a) s) (l : List α) (s : State) : Still (l.foldl f s) s := by
  induction l generalizing s with
  | nil => simp [Still]
  | cons a l ih =>
    have h2 := ih (f s a)
    have h1 := h s a
    exact ⟨h2.1.trans h1.1, h2.2.1.trans h1.2.1, h2.2.2.1.trans h1.2.2.1, h2.2.2.2.1.trans h1.2.2.2.1, h2.2.2.2.2.1.trans h1.2.2.2.2.1, h2.2.2.2.2.2.1.trans h1.2.2.2.2.2.1, h2.2.2.2.2.2.2.1.trans h1.2.2.2.2.2.2.1, h2.2.2.2.2.2.2.2.1.trans h1.2.2.2.2.2.2.2.1, h2.2.2.2.2.2.2.2.2.trans h1.2.2.2.2.2.2.2.2⟩
@[simp] theorem foldl_Still_pending {α : Type} (f : State → α → State) (h : ∀ s a, Still (f s a) s) (l : List α) (s : State) : (l.foldl f s).pending = s.pending := (foldl_Still f h l s).1
@[simp] theorem foldl_Still_rpmc {α : Type} (f : State → α → State) (h : ∀ s a, Still (f s a) s) (l : List α) (s : State) : (l.foldl f s).flash.rpmc = s.flash.rpmc := (foldl_Still f h l s).2.1
@[simp] theorem foldl_Still_addr {α : Type} (f : State → α → State) (h : ∀ s a, Still (f s a) s) (l : List α) (s : State) : (l.foldl f s).glb.address = s.glb.address := (foldl_Still f h l s).2.2.1
@[simp] theorem foldl_Still_straps {α : Type} (f : State → α → State) (h : ∀ s a, Still (f s a) s) (l : List α) (s : State) : (l.foldl f s).proto.straps = s.proto.straps := (foldl_Still f h l s).2.2.2.1
@[simp] theorem foldl_Still_counter {α : Type} (f : State → α → State) (h : ∀ s a, Still (f s a) s) (l : List α) (s : State) : (l.foldl f s).pick.counter = s.pick.counter := (foldl_Still f h l s).2.2.2.2.1
@[simp] theorem foldl_Still_phase {α : Type} (f : State → α → State) (h : ∀ s a, Still (f s a) s) (l : List α) (s : State) : (l.foldl f s).pick.phase = s.pick.phase := (foldl_Still f h l s).2.2.2.2.2.1
@[simp] theorem foldl_Still_step {α : Type} (f : State → α → State) (h : ∀ s a, Still (f s a) s) (l : List α) (s : State) : (l.foldl f s).pick.step = s.pick.step := (foldl_Still f h l s).2.2.2.2.2.2.1
@[simp] theorem foldl_Still_twin {α : Type} (f : State → α → State) (h : ∀ s a, Still (f s a) s) (l : List α) (s : State) : (l.foldl f s).twin.state = s.twin.state := (foldl_Still f h l s).2.2.2.2.2.2.2.1
@[simp] theorem foldl_Still_mode {α : Type} (f : State → α → State) (h : ∀ s a, Still (f s a) s) (l : List α) (s : State) : (l.foldl f s).glb.state = s.glb.state := (foldl_Still f h l s).2.2.2.2.2.2.2.2
theorem Still_trans {a b c : State} (h : Still a b) (g : Still b c) : Still a c := ⟨h.1.trans g.1, h.2.1.trans g.2.1, h.2.2.1.trans g.2.2.1, h.2.2.2.1.trans g.2.2.2.1, h.2.2.2.2.1.trans g.2.2.2.2.1, h.2.2.2.2.2.1.trans g.2.2.2.2.2.1, h.2.2.2.2.2.2.1.trans g.2.2.2.2.2.2.1, h.2.2.2.2.2.2.2.1.trans g.2.2.2.2.2.2.2.1, h.2.2.2.2.2.2.2.2.trans g.2.2.2.2.2.2.2.2⟩
@[simp] theorem elim_Still_pending {α : Type} (o : Option α) (d : State) (f : α → State) (h : ∀ a, Still (f a) d) : (o.elim d f).pending = d.pending := by cases o; rfl; exact (h _).1
@[simp] theorem elim_Still_rpmc {α : Type} (o : Option α) (d : State) (f : α → State) (h : ∀ a, Still (f a) d) : (o.elim d f).flash.rpmc = d.flash.rpmc := by cases o; rfl; exact (h _).2.1
@[simp] theorem elim_Still_addr {α : Type} (o : Option α) (d : State) (f : α → State) (h : ∀ a, Still (f a) d) : (o.elim d f).glb.address = d.glb.address := by cases o; rfl; exact (h _).2.2.1
@[simp] theorem elim_Still_straps {α : Type} (o : Option α) (d : State) (f : α → State) (h : ∀ a, Still (f a) d) : (o.elim d f).proto.straps = d.proto.straps := by cases o; rfl; exact (h _).2.2.2.1
@[simp] theorem elim_Still_counter {α : Type} (o : Option α) (d : State) (f : α → State) (h : ∀ a, Still (f a) d) : (o.elim d f).pick.counter = d.pick.counter := by cases o; rfl; exact (h _).2.2.2.2.1
@[simp] theorem elim_Still_phase {α : Type} (o : Option α) (d : State) (f : α → State) (h : ∀ a, Still (f a) d) : (o.elim d f).pick.phase = d.pick.phase := by cases o; rfl; exact (h _).2.2.2.2.2.1
@[simp] theorem elim_Still_step {α : Type} (o : Option α) (d : State) (f : α → State) (h : ∀ a, Still (f a) d) : (o.elim d f).pick.step = d.pick.step := by cases o; rfl; exact (h _).2.2.2.2.2.2.1
@[simp] theorem elim_Still_twin {α : Type} (o : Option α) (d : State) (f : α → State) (h : ∀ a, Still (f a) d) : (o.elim d f).twin.state = d.twin.state := by cases o; rfl; exact (h _).2.2.2.2.2.2.2.1
@[simp] theorem elim_Still_mode {α : Type} (o : Option α) (d : State) (f : α → State) (h : ∀ a, Still (f a) d) : (o.elim d f).glb.state = d.glb.state := by cases o; rfl; exact (h _).2.2.2.2.2.2.2.2
/-- Nothing of the queue, the security counter, the address and the straps differs. -/
@[reducible] def Root (t s : State) : Prop := t.pending = s.pending ∧ t.flash.rpmc = s.flash.rpmc ∧ t.glb.address = s.glb.address ∧ t.proto.straps = s.proto.straps
theorem foldl_Root {α : Type} (f : State → α → State) (h : ∀ s a, Root (f s a) s) (l : List α) (s : State) : Root (l.foldl f s) s := by
  induction l generalizing s with
  | nil => simp [Root]
  | cons a l ih =>
    have h2 := ih (f s a)
    have h1 := h s a
    exact ⟨h2.1.trans h1.1, h2.2.1.trans h1.2.1, h2.2.2.1.trans h1.2.2.1, h2.2.2.2.trans h1.2.2.2⟩
@[simp] theorem foldl_Root_pending {α : Type} (f : State → α → State) (h : ∀ s a, Root (f s a) s) (l : List α) (s : State) : (l.foldl f s).pending = s.pending := (foldl_Root f h l s).1
@[simp] theorem foldl_Root_rpmc {α : Type} (f : State → α → State) (h : ∀ s a, Root (f s a) s) (l : List α) (s : State) : (l.foldl f s).flash.rpmc = s.flash.rpmc := (foldl_Root f h l s).2.1
@[simp] theorem foldl_Root_addr {α : Type} (f : State → α → State) (h : ∀ s a, Root (f s a) s) (l : List α) (s : State) : (l.foldl f s).glb.address = s.glb.address := (foldl_Root f h l s).2.2.1
@[simp] theorem foldl_Root_straps {α : Type} (f : State → α → State) (h : ∀ s a, Root (f s a) s) (l : List α) (s : State) : (l.foldl f s).proto.straps = s.proto.straps := (foldl_Root f h l s).2.2.2
theorem Root_trans {a b c : State} (h : Root a b) (g : Root b c) : Root a c := ⟨h.1.trans g.1, h.2.1.trans g.2.1, h.2.2.1.trans g.2.2.1, h.2.2.2.trans g.2.2.2⟩
@[simp] theorem elim_Root_pending {α : Type} (o : Option α) (d : State) (f : α → State) (h : ∀ a, Root (f a) d) : (o.elim d f).pending = d.pending := by cases o; rfl; exact (h _).1
@[simp] theorem elim_Root_rpmc {α : Type} (o : Option α) (d : State) (f : α → State) (h : ∀ a, Root (f a) d) : (o.elim d f).flash.rpmc = d.flash.rpmc := by cases o; rfl; exact (h _).2.1
@[simp] theorem elim_Root_addr {α : Type} (o : Option α) (d : State) (f : α → State) (h : ∀ a, Root (f a) d) : (o.elim d f).glb.address = d.glb.address := by cases o; rfl; exact (h _).2.2.1
@[simp] theorem elim_Root_straps {α : Type} (o : Option α) (d : State) (f : α → State) (h : ∀ a, Root (f a) d) : (o.elim d f).proto.straps = d.proto.straps := by cases o; rfl; exact (h _).2.2.2
/-- Nothing of the pick's counter, phase and step and of the module state differs. -/
@[reducible] def Clock (t s : State) : Prop := t.pick.counter = s.pick.counter ∧ t.pick.phase = s.pick.phase ∧ t.pick.step = s.pick.step ∧ t.glb.state = s.glb.state
theorem foldl_Clock {α : Type} (f : State → α → State) (h : ∀ s a, Clock (f s a) s) (l : List α) (s : State) : Clock (l.foldl f s) s := by
  induction l generalizing s with
  | nil => simp [Clock]
  | cons a l ih =>
    have h2 := ih (f s a)
    have h1 := h s a
    exact ⟨h2.1.trans h1.1, h2.2.1.trans h1.2.1, h2.2.2.1.trans h1.2.2.1, h2.2.2.2.trans h1.2.2.2⟩
@[simp] theorem foldl_Clock_counter {α : Type} (f : State → α → State) (h : ∀ s a, Clock (f s a) s) (l : List α) (s : State) : (l.foldl f s).pick.counter = s.pick.counter := (foldl_Clock f h l s).1
@[simp] theorem foldl_Clock_phase {α : Type} (f : State → α → State) (h : ∀ s a, Clock (f s a) s) (l : List α) (s : State) : (l.foldl f s).pick.phase = s.pick.phase := (foldl_Clock f h l s).2.1
@[simp] theorem foldl_Clock_step {α : Type} (f : State → α → State) (h : ∀ s a, Clock (f s a) s) (l : List α) (s : State) : (l.foldl f s).pick.step = s.pick.step := (foldl_Clock f h l s).2.2.1
@[simp] theorem foldl_Clock_mode {α : Type} (f : State → α → State) (h : ∀ s a, Clock (f s a) s) (l : List α) (s : State) : (l.foldl f s).glb.state = s.glb.state := (foldl_Clock f h l s).2.2.2
theorem Clock_trans {a b c : State} (h : Clock a b) (g : Clock b c) : Clock a c := ⟨h.1.trans g.1, h.2.1.trans g.2.1, h.2.2.1.trans g.2.2.1, h.2.2.2.trans g.2.2.2⟩
@[simp] theorem elim_Clock_counter {α : Type} (o : Option α) (d : State) (f : α → State) (h : ∀ a, Clock (f a) d) : (o.elim d f).pick.counter = d.pick.counter := by cases o; rfl; exact (h _).1
@[simp] theorem elim_Clock_phase {α : Type} (o : Option α) (d : State) (f : α → State) (h : ∀ a, Clock (f a) d) : (o.elim d f).pick.phase = d.pick.phase := by cases o; rfl; exact (h _).2.1
@[simp] theorem elim_Clock_step {α : Type} (o : Option α) (d : State) (f : α → State) (h : ∀ a, Clock (f a) d) : (o.elim d f).pick.step = d.pick.step := by cases o; rfl; exact (h _).2.2.1
@[simp] theorem elim_Clock_mode {α : Type} (o : Option α) (d : State) (f : α → State) (h : ∀ a, Clock (f a) d) : (o.elim d f).glb.state = d.glb.state := by cases o; rfl; exact (h _).2.2.2
/-- The pair state is the same. -/
@[reducible] def Pair (t s : State) : Prop := t.twin.state = s.twin.state
theorem foldl_Pair {α : Type} (f : State → α → State) (h : ∀ s a, Pair (f s a) s) (l : List α) (s : State) : Pair (l.foldl f s) s := by
  induction l generalizing s with
  | nil => simp [Pair]
  | cons a l ih =>
    have h2 := ih (f s a)
    have h1 := h s a
    exact h2.trans h1
@[simp] theorem foldl_Pair_twin {α : Type} (f : State → α → State) (h : ∀ s a, Pair (f s a) s) (l : List α) (s : State) : (l.foldl f s).twin.state = s.twin.state := (foldl_Pair f h l s)
theorem Pair_trans {a b c : State} (h : Pair a b) (g : Pair b c) : Pair a c := h.trans g
@[simp] theorem elim_Pair_twin {α : Type} (o : Option α) (d : State) (f : α → State) (h : ∀ a, Pair (f a) d) : (o.elim d f).twin.state = d.twin.state := by cases o; rfl; exact (h _)
/-- The queue is the same. -/
@[reducible] def Pend (t s : State) : Prop := t.pending = s.pending
theorem foldl_Pend {α : Type} (f : State → α → State) (h : ∀ s a, Pend (f s a) s) (l : List α) (s : State) : Pend (l.foldl f s) s := by
  induction l generalizing s with
  | nil => simp [Pend]
  | cons a l ih =>
    have h2 := ih (f s a)
    have h1 := h s a
    exact h2.trans h1
@[simp] theorem foldl_Pend_pending {α : Type} (f : State → α → State) (h : ∀ s a, Pend (f s a) s) (l : List α) (s : State) : (l.foldl f s).pending = s.pending := (foldl_Pend f h l s)
theorem Pend_trans {a b c : State} (h : Pend a b) (g : Pend b c) : Pend a c := h.trans g
@[simp] theorem elim_Pend_pending {α : Type} (o : Option α) (d : State) (f : α → State) (h : ∀ a, Pend (f a) d) : (o.elim d f).pending = d.pending := by cases o; rfl; exact (h _)
/-- The security counter is the same. -/
@[reducible] def Rpmc (t s : State) : Prop := t.flash.rpmc = s.flash.rpmc
theorem foldl_Rpmc {α : Type} (f : State → α → State) (h : ∀ s a, Rpmc (f s a) s) (l : List α) (s : State) : Rpmc (l.foldl f s) s := by
  induction l generalizing s with
  | nil => simp [Rpmc]
  | cons a l ih =>
    have h2 := ih (f s a)
    have h1 := h s a
    exact h2.trans h1
@[simp] theorem foldl_Rpmc_rpmc {α : Type} (f : State → α → State) (h : ∀ s a, Rpmc (f s a) s) (l : List α) (s : State) : (l.foldl f s).flash.rpmc = s.flash.rpmc := (foldl_Rpmc f h l s)
theorem Rpmc_trans {a b c : State} (h : Rpmc a b) (g : Rpmc b c) : Rpmc a c := h.trans g
@[simp] theorem elim_Rpmc_rpmc {α : Type} (o : Option α) (d : State) (f : α → State) (h : ∀ a, Rpmc (f a) d) : (o.elim d f).flash.rpmc = d.flash.rpmc := by cases o; rfl; exact (h _)
/-- The address and the straps are the same. -/
@[reducible] def Site (t s : State) : Prop := t.glb.address = s.glb.address ∧ t.proto.straps = s.proto.straps
theorem foldl_Site {α : Type} (f : State → α → State) (h : ∀ s a, Site (f s a) s) (l : List α) (s : State) : Site (l.foldl f s) s := by
  induction l generalizing s with
  | nil => simp [Site]
  | cons a l ih =>
    have h2 := ih (f s a)
    have h1 := h s a
    exact ⟨h2.1.trans h1.1, h2.2.trans h1.2⟩
@[simp] theorem foldl_Site_addr {α : Type} (f : State → α → State) (h : ∀ s a, Site (f s a) s) (l : List α) (s : State) : (l.foldl f s).glb.address = s.glb.address := (foldl_Site f h l s).1
@[simp] theorem foldl_Site_straps {α : Type} (f : State → α → State) (h : ∀ s a, Site (f s a) s) (l : List α) (s : State) : (l.foldl f s).proto.straps = s.proto.straps := (foldl_Site f h l s).2
theorem Site_trans {a b c : State} (h : Site a b) (g : Site b c) : Site a c := ⟨h.1.trans g.1, h.2.trans g.2⟩
@[simp] theorem elim_Site_addr {α : Type} (o : Option α) (d : State) (f : α → State) (h : ∀ a, Site (f a) d) : (o.elim d f).glb.address = d.glb.address := by cases o; rfl; exact (h _).1
@[simp] theorem elim_Site_straps {α : Type} (o : Option α) (d : State) (f : α → State) (h : ∀ a, Site (f a) d) : (o.elim d f).proto.straps = d.proto.straps := by cases o; rfl; exact (h _).2

theorem Still.root {t s : State} (h : Still t s) : Root t s := ⟨h.1, h.2.1, h.2.2.1, h.2.2.2.1⟩
theorem Still.clock {t s : State} (h : Still t s) : Clock t s := ⟨h.2.2.2.2.1, h.2.2.2.2.2.1, h.2.2.2.2.2.2.1, h.2.2.2.2.2.2.2.2⟩
theorem Still.pair {t s : State} (h : Still t s) : Pair t s := h.2.2.2.2.2.2.2.1
@[simp] theorem State.withCore_still (s : State) (f : Core → Core) : Still (s.withCore f) s := ⟨rfl,rfl,rfl,rfl,rfl,rfl,rfl,rfl,rfl⟩

theorem foldl_pair {α β : Type} (f : State × β → α → State × β) (h : ∀ p a, Still (f p a).1 p.1) (l : List α) (p : State × β) :
    Still (l.foldl f p).1 p.1 := by
  induction l generalizing p with
  | nil => exact ⟨rfl, rfl, rfl, rfl, rfl, rfl, rfl, rfl, rfl⟩
  | cons a l ih => exact Still_trans (ih (f p a)) (h p a)

@[simp] theorem State.emit_still (s : State) (o : Out) : Still (State.emit s o) s := by
  unfold State.emit; try dsimp only
  (repeat' split) <;> simp [Still]

@[simp] theorem State.emits_still (s : State) (os : List Out) : Still (State.emits s os) s := by
  unfold State.emits; try dsimp only
  (repeat' split) <;> simp [Still]

@[simp] theorem State.noteEvent_still (s : State) (i bit : Nat) : Still (State.noteEvent s i bit) s := by
  unfold State.noteEvent; try dsimp only
  (repeat' split) <;> simp [Still]

@[simp] theorem State.glbEvent_still (s : State) (bit : Nat) : Still (State.glbEvent s bit) s := by
  unfold State.glbEvent; try dsimp only
  (repeat' split) <;> simp [Still]

@[simp] theorem State.pickEvent_still (s : State) (bit : Nat) : Still (State.pickEvent s bit) s := by
  unfold State.pickEvent; try dsimp only
  (repeat' split) <;> simp [Still]

@[simp] theorem State.draftEvent_still (s : State) (bit : Nat) : Still (State.draftEvent s bit) s := by
  unfold State.draftEvent; try dsimp only
  (repeat' split) <;> simp [Still]

@[simp] theorem State.twinEvent_still (s : State) (bit : Nat) : Still (State.twinEvent s bit) s := by
  unfold State.twinEvent; try dsimp only
  (repeat' split) <;> simp [Still]

@[simp] theorem State.optEvent_still (s : State) (bit : Nat) : Still (State.optEvent s bit) s := by
  unfold State.optEvent; try dsimp only
  (repeat' split) <;> simp [Still]

@[simp] theorem State.reedEvent_still (s : State) (bit : Nat) : Still (State.reedEvent s bit) s := by
  unfold State.reedEvent; try dsimp only
  (repeat' split) <;> simp [Still]

@[simp] theorem State.memEvent_still (s : State) (bit : Nat) : Still (State.memEvent s bit) s := by
  unfold State.memEvent; try dsimp only
  (repeat' split) <;> simp [Still]

@[simp] theorem State.integEvent_still (s : State) (bit : Nat) : Still (State.integEvent s bit) s := by
  unfold State.integEvent; try dsimp only
  (repeat' split) <;> simp [Still]

@[simp] theorem State.mgtEvent_still (s : State) (bit : Nat) : Still (State.mgtEvent s bit) s := by
  unfold State.mgtEvent; try dsimp only
  (repeat' split) <;> simp [Still]

@[simp] theorem State.flogWrite_still (s : State) (e : FlogEntry) : Still (State.flogWrite s e) s := by
  unfold State.flogWrite; try dsimp only
  (repeat' split) <;> simp [Still]

@[simp] theorem State.flushReports_still (s : State) : Still (State.flushReports s) s := by
  unfold State.flushReports; try dsimp only
  (repeat' split) <;> simp [Still]

@[simp] theorem State.beatStep_rpmc (s : State) (f : State → State) : (s.beatStep f).flash.rpmc = (f s).flash.rpmc := by
  unfold State.beatStep; dsimp only; split <;> rfl

@[simp] theorem State.beatStep_pending (s : State) (f : State → State) : (s.beatStep f).pending = (f s).pending := by
  unfold State.beatStep; dsimp only; split <;> rfl

@[simp] theorem State.beatStep_addr (s : State) (f : State → State) : (s.beatStep f).glb.address = (f s).glb.address := by
  unfold State.beatStep; dsimp only; split <;> rfl

@[simp] theorem State.beatStep_straps (s : State) (f : State → State) : (s.beatStep f).proto.straps = (f s).proto.straps := by
  unfold State.beatStep; dsimp only; split <;> rfl

@[simp] theorem State.beatStep_counter (s : State) (f : State → State) : (s.beatStep f).pick.counter = (f s).pick.counter := by
  unfold State.beatStep; dsimp only; split <;> rfl

@[simp] theorem State.beatStep_phase (s : State) (f : State → State) : (s.beatStep f).pick.phase = (f s).pick.phase := by
  unfold State.beatStep; dsimp only; split <;> rfl

@[simp] theorem State.beatStep_step (s : State) (f : State → State) : (s.beatStep f).pick.step = (f s).pick.step := by
  unfold State.beatStep; dsimp only; split <;> rfl

@[simp] theorem State.beatStep_twin (s : State) (f : State → State) : (s.beatStep f).twin.state = (f s).twin.state := by
  unfold State.beatStep; dsimp only; split <;> rfl

@[simp] theorem State.beatStep_mode (s : State) (f : State → State) : (s.beatStep f).glb.state = (f s).glb.state := by
  unfold State.beatStep; dsimp only; split <;> rfl

@[simp] theorem State.report_still (s : State) (code detail : Nat) : Still (State.report s code detail) s := by
  unfold State.report; try dsimp only
  (repeat' split) <;> simp [Still]

@[simp] theorem State.noteDown_still (s t : State) : Still (s.noteDown t) t := by
  unfold State.noteDown
  split <;> simp [Still]

@[simp] theorem State.pwrReport_still (s : State) (code detail : Nat) : Still (State.pwrReport s code detail) s := by
  unfold State.pwrReport; try dsimp only
  (repeat' split) <;> simp [Still]

@[simp] theorem State.noteSnoop_still (s : State) (lines : List Nat) : Still (State.noteSnoop s lines) s := by
  unfold State.noteSnoop; try dsimp only
  (repeat' split) <;> simp [Still]

@[simp] theorem State.snoop_still (s : State) (lines : List Nat) : Still (State.snoop s lines) s := by
  unfold State.snoop; try dsimp only
  (repeat' split) <;> simp [Still]

@[simp] theorem State.snoopWait_still (s : State) (lines : List Nat) (w : Wait) : Still (State.snoopWait s lines w) s := by
  unfold State.snoopWait; try dsimp only
  (repeat' split) <;> simp [Still]

@[simp] theorem State.waitFor_still (s r : State) (w : Wait) : Still (State.waitFor s r w) s := by
  unfold State.waitFor; try dsimp only
  (repeat' split) <;> simp [Still]

@[simp] theorem State.fresh_still (s : State) : Still (State.fresh s) s := by
  unfold State.fresh; try dsimp only
  (repeat' split) <;> simp [Still]

@[simp] theorem State.orWait_still (s : State) (w : Wait) (f : State → State) (hf : ∀ s, Still (f s) s) : Still (State.orWait s w f) s := by
  unfold State.orWait; dsimp only
  split
  · exact hf s.fresh
  · exact State.waitFor_still _ _ _

@[simp] theorem State.hostPut_still (s : State) (a : Nat) (data : Bytes) : Still (State.hostPut s a data) s := by
  unfold State.hostPut; try dsimp only
  (repeat' split) <;> simp [Still]

@[simp] theorem State.hostFetch_still (s : State) (a n : Nat) : Still (State.hostFetch s a n) s := by
  unfold State.hostFetch; try dsimp only
  (repeat' split) <;> simp [Still]

@[simp] theorem State.failInstance_still (s : State) (ch code detail : Nat) : Still (State.failInstance s ch code detail) s := by
  unfold State.failInstance; try dsimp only
  (repeat' split) <;> simp [Still]

@[simp] theorem State.tellOther_still (s : State) (ch group inst code : Nat) : Still (State.tellOther s ch group inst code) s := by
  unfold State.tellOther; try dsimp only
  (repeat' split) <;> first | (simp [Still]; done) | (refine Still_trans (foldl_Still _ (fun s a => ?_) _ _) ?_ <;> (try dsimp only) <;> (repeat' split) <;> simp [Still])

@[simp] theorem State.reedSweep_still (s : State) : Still (State.reedSweep s) s := by
  unfold State.reedSweep
  refine Still_trans (State.withCore_still _ _) (foldl_Still _ (fun s a => ?_) _ _)
  dsimp only
  (repeat' split) <;> simp [Still]

@[simp] theorem State.shuttleAborted_still (s : State) (group name : Nat) : Still (State.shuttleAborted s group name) s := by
  unfold State.shuttleAborted; try dsimp only
  (repeat' split) <;> simp [Still]

@[simp] theorem State.shuttleSweep_still (s : State) : Still (State.shuttleSweep s) s := by
  unfold State.shuttleSweep; try dsimp only
  (repeat' split) <;> first | (simp [Still]; done) | (refine Still_trans (foldl_Still _ (fun s a => ?_) _ _) ?_ <;> (try dsimp only) <;> (repeat' split) <;> simp [Still])

@[simp] theorem State.tellAborts_still (s t : State) : Still (s.tellAborts t) t := by
  unfold State.tellAborts
  split <;> simp [Still]

/-- Where no fault is raised, no abort is told. -/
theorem State.tellAborts_same (s t : State) (h : t.core.faults = s.core.faults) : s.tellAborts t = t := if_pos h

@[simp] theorem State.logOutcome_still (s : State) (i outcome : Nat) : Still (State.logOutcome s i outcome) s := by
  unfold State.logOutcome; try dsimp only
  (repeat' split) <;> simp [Still]

@[simp] theorem State.cancelRepairs_still (s : State) (a : Nat) (n : Nat) : Still (State.cancelRepairs s a n) s := by
  unfold State.cancelRepairs
  exact foldl_Still (fun (s : State) (r : Repair) => s.logOutcome r.log 4) (fun s r => State.logOutcome_still s _ _) _ s

@[simp] theorem State.settleLog_still (s : State) : Still (State.settleLog s) s := by
  unfold State.settleLog; try dsimp only
  (repeat' split) <;> first | (simp [Still]; done) | (refine Still_trans (foldl_Still _ (fun s a => ?_) _ _) ?_ <;> (try dsimp only) <;> (repeat' split) <;> simp [Still])

@[simp] theorem State.taskWrite_still (s : State) (t : TaskRef) (a : Nat) (data : Bytes) : Still (State.taskWrite s t a data) s := by
  unfold State.taskWrite; try dsimp only
  (repeat' split) <;> first | (simp [Still]; done) | (refine Still_trans (foldl_Still _ (fun s a => ?_) _ _) ?_ <;> (try dsimp only) <;> (repeat' split) <;> simp [Still])

@[simp] theorem State.farPut_still (s : State) (due : List (Nat × Nat × Bytes)) : Still (State.farPut s due) s := by
  unfold State.farPut; try dsimp only
  (repeat' split) <;> simp [Still]

@[simp] theorem State.setBootRec_still (s : State) (f : Bytes → Bytes) : Still (State.setBootRec s f) s := by
  unfold State.setBootRec; try dsimp only
  (repeat' split) <;> simp [Still]

@[simp] theorem State.bootCode_still (s : State) (code : Nat) : Still (State.bootCode s code) s := by
  unfold State.bootCode; try dsimp only
  (repeat' split) <;> simp [Still]

@[simp] theorem State.enterOp_root (s : State) : Root (State.enterOp s) s := by
  unfold State.enterOp; try dsimp only
  (repeat' split) <;> simp [Root]

@[simp] theorem State.enterOp_pair (s : State) : Pair (State.enterOp s) s := by
  unfold State.enterOp; try dsimp only
  (repeat' split) <;> simp [Pair]

@[simp] theorem State.followDraft_still (s : State) (d : Option Draft) : Still (State.followDraft s d) s := by
  unfold State.followDraft; try dsimp only
  (repeat' split) <;> simp [Still]

@[simp] theorem State.undoStep_root (s : State) (e : Aside × Aside) : Root (State.undoStep s e) s := by
  unfold State.undoStep; try dsimp only
  (repeat' split) <;> first | (simp [Root]; done) | (refine Root_trans (foldl_Root _ (fun s a => ?_) _ _) ?_ <;> (try dsimp only) <;> (repeat' split) <;> simp [Root])

@[simp] theorem State.undoBeat_root (s : State) : Root (State.undoBeat s) s := by
  unfold State.undoBeat
  exact Root_trans ⟨rfl, rfl, rfl, rfl⟩ (foldl_Root _ State.undoStep_root _ _)

@[simp] theorem State.unpublish_still (s : State) : Still (State.unpublish s) s := by
  unfold State.unpublish; try dsimp only
  (repeat' split) <;> first | (simp [Still]; done) | (refine Still_trans (foldl_Still _ (fun s a => ?_) _ _) ?_ <;> (try dsimp only) <;> (repeat' split) <;> simp [Still])

@[simp] theorem State.rollback_root (s : State) : Root (State.rollback s) s := by
  unfold State.rollback; try dsimp only
  (repeat' split) <;> simp [Root]

@[simp] theorem State.halt_root (s : State) (code : Nat) : Root (State.halt s code) s := by
  unfold State.halt; try dsimp only
  (repeat' split) <;> simp [Root]

@[simp] theorem State.halt_pair (s : State) (code : Nat) : Pair (State.halt s code) s := by
  unfold State.halt; try dsimp only
  (repeat' split) <;> simp [Pair]

@[simp] theorem State.holdNotice_still (s : State) : Still (State.holdNotice s) s := by
  unfold State.holdNotice; try dsimp only
  (repeat' split) <;> simp [Still]

@[simp] theorem State.quiesce_root (s : State) (cause detail : Nat) : Root (State.quiesce s cause detail) s := by
  unfold State.quiesce; try dsimp only
  (repeat' split) <;> simp [Root]

@[simp] theorem State.warmFail_root (s : State) : Root (State.warmFail s) s := by
  unfold State.warmFail; try dsimp only
  (repeat' split) <;> simp [Root]

@[simp] theorem State.warmFail_pair (s : State) : Pair (State.warmFail s) s := by
  unfold State.warmFail; try dsimp only
  (repeat' split) <;> simp [Pair]

@[simp] theorem State.moduleFault_root (s : State) (code detail : Nat) : Root (State.moduleFault s code detail) s := by
  unfold State.moduleFault; try dsimp only
  (repeat' split) <;> simp [Root]

@[simp] theorem State.logEvent_still (s : State) (e : IntegEntry) : Still (State.logEvent s e) s := by
  unfold State.logEvent; try dsimp only
  (repeat' split) <;> first | (simp [Still]; done) | (refine Still_trans (foldl_Still _ (fun s a => ?_) _ _) ?_ <;> (try dsimp only) <;> (repeat' split) <;> simp [Still])

@[simp] theorem State.logDetect_still (s : State) (a : Nat) (rd : Option Reader) (outcome : Nat) : Still (State.logDetect s a rd outcome) s := by
  unfold State.logDetect; try dsimp only
  (repeat' split) <;> simp [Still]

@[simp] theorem State.repairWrite_still (s : State) (sec : Nat) (st : SectorSt) (data : Option Bytes) : Still (State.repairWrite s sec st data) s := by
  unfold State.repairWrite; try dsimp only
  (repeat' split) <;> simp [Still]

@[simp] theorem State.poisonSector_still (s : State) (sec log : Nat) (rd : Option Reader) : Still (State.poisonSector s sec log rd) s := by
  unfold State.poisonSector; try dsimp only
  (repeat' split) <;> simp [Still]

@[simp] theorem State.detectAgain_still (s : State) (r : Repair) (rd : Option Reader) : Still (State.detectAgain s r rd) s := by
  unfold State.detectAgain; try dsimp only
  (repeat' split) <;> first | (simp [Still]; done) | (refine Still_trans (foldl_Still _ (fun s a => ?_) _ _) ?_ <;> (try dsimp only) <;> (repeat' split) <;> simp [Still])

@[simp] theorem State.detect_still (s : State) (sec : Nat) (rd : Option Reader) : Still (State.detect s sec rd) s := by
  unfold State.detect; try dsimp only
  (repeat' split) <;> simp [Still]

@[simp] theorem State.noteOnDie_still (s : State) (stack n : Nat) : Still (State.noteOnDie s stack n) s := by
  unfold State.noteOnDie; try dsimp only
  (repeat' split) <;> simp [Still]

@[simp] theorem State.storeError_still (s : State) (sec : Nat) (flips : BitVec 608) : Still (State.storeError s sec flips) s := by
  unfold State.storeError; try dsimp only
  (repeat' split) <;> simp [Still, -Nat.reducePow]

@[simp] theorem State.readAgain_still (s : State) (sec : Nat) (rd : Option Reader) : Still (State.readAgain s sec rd) s := by
  unfold State.readAgain; try dsimp only
  (repeat' split) <;> simp [Still]

@[simp] theorem State.readSector_still (s0 : State) (rd : Option Reader) (a : Nat) (err : ReadErr) : Still (State.readSector s0 rd a err) s0 := by
  unfold State.readSector; try dsimp only
  (repeat' split) <;> simp [Still]

@[simp] theorem State.readAll_still (s : State) (rd : Reader) (x : Nat) (rs : List (Nat × Nat)) : Still (State.readAll s rd x rs) s := by
  unfold State.readAll; try dsimp only
  (repeat' split) <;> first | (simp [Still]; done) | (refine Still_trans (foldl_Still _ (fun s a => ?_) _ _) ?_ <;> (try dsimp only) <;> (repeat' split) <;> simp [Still])

@[simp] theorem State.fetched_still (s : State) (log : Nat) : Still (State.fetched s log) s := by
  unfold State.fetched; try dsimp only
  (repeat' split) <;> first | (simp [Still]; done) | (refine Still_trans (foldl_Still _ (fun s a => ?_) _ _) ?_ <;> (try dsimp only) <;> (repeat' split) <;> simp [Still])

@[simp] theorem State.mirrorRepair_still (s : State) (sec : Nat) (st : SectorSt) (data : Option Bytes) : Still (State.mirrorRepair s sec st data) s := by
  unfold State.mirrorRepair; try dsimp only
  (repeat' split) <;> first | (simp [Still]; done) | (refine Still_trans (foldl_Still _ (fun s a => ?_) _ _) ?_ <;> (try dsimp only) <;> (repeat' split) <;> simp [Still])

@[simp] theorem State.mirrorPoison_still (s : State) (sec log : Nat) : Still (State.mirrorPoison s sec log) s := by
  unfold State.mirrorPoison; try dsimp only
  (repeat' split) <;> first | (simp [Still]; done) | (refine Still_trans (foldl_Still _ (fun s a => ?_) _ _) ?_ <;> (try dsimp only) <;> (repeat' split) <;> simp [Still])

@[simp] theorem State.mirrorReturn_still (s : State) (sec : Nat) (data : Option Bytes) : Still (State.mirrorReturn s sec data) s := by
  unfold State.mirrorReturn; try dsimp only
  (repeat' split) <;> first | (simp [Still]; done) | (refine Still_trans (foldl_Still _ (fun s a => ?_) _ _) ?_ <;> (try dsimp only) <;> (repeat' split) <;> simp [Still])

@[simp] theorem State.fetchReturn_still (s : State) (addr : Nat) (data : Option Bytes) : Still (State.fetchReturn s addr data) s := by
  unfold State.fetchReturn; try dsimp only
  (repeat' split) <;> simp [Still]

@[simp] theorem State.dropFetches_still (s : State) : Still (State.dropFetches s) s := by
  unfold State.dropFetches; try dsimp only
  (repeat' split) <;> simp [Still]

@[simp] theorem State.scrubReserve_root (s : State) (kind copy die : Nat) (err : ReadErr) : Root (State.scrubReserve s kind copy die err) s := by
  unfold State.scrubReserve; try dsimp only
  (repeat' split) <;> simp [Root]

@[simp] theorem State.scrubLineage_still (s : State) (die i : Nat) (err : ReadErr) : Still (State.scrubLineage s die i err) s := by
  unfold State.scrubLineage; try dsimp only
  (repeat' split) <;> simp [Still]

@[simp] theorem State.scrubMirror_still (s : State) (sec : Nat) (err : ReadErr) : Still (State.scrubMirror s sec err) s := by
  unfold State.scrubMirror; try dsimp only
  (repeat' split) <;> first | (simp [Still]; done) | (refine Still_trans (foldl_Still _ (fun s a => ?_) _ _) ?_ <;> (try dsimp only) <;> (repeat' split) <;> simp [Still])

@[simp] theorem State.noteFailure_still (s : State) (loc : OnchipLoc) : Still (State.noteFailure s loc) s := by
  unfold State.noteFailure; try dsimp only
  (repeat' split) <;> simp [Still]

@[simp] theorem State.loseLink_root (s : State) (link : Nat) : Root (State.loseLink s link) s := by
  unfold State.loseLink; try dsimp only
  (repeat' split) <;> simp [Root]

@[simp] theorem State.tryWrite_still (s : State) (t : TaskRef) (addr : Nat) (data : Bytes) : Still (s.tryWrite t addr data) s := by
  unfold State.tryWrite; dsimp only
  split
  · exact State.snoopWait_still _ _ _
  · exact State.orWait_still _ _ _ fun s => State.taskWrite_still _ _ _ _

@[simp] theorem State.poolEvent_still (s : State) : Still (State.poolEvent s) s := by
  unfold State.poolEvent; try dsimp only
  (repeat' split) <;> first | (simp [Still]; done) | (refine Still_trans (foldl_Still _ (fun s a => ?_) _ _) ?_ <;> (try dsimp only) <;> (repeat' split) <;> simp [Still])

@[simp] theorem State.kvBeat_still (s : State) (x : Nat) (js : List OrderSt) : Still (s.kvBeat x js) s := by
  unfold State.kvBeat; dsimp only
  (repeat' split) <;> simp [Still]

@[simp] theorem State.kvStarve_still (s : State) (o : OrderSt) : Still (State.kvStarve s o) s := by
  unfold State.kvStarve; try dsimp only
  (repeat' split) <;> simp [Still]

@[simp] theorem State.kvExhaust_still (s : State) (o : OrderSt) : Still (State.kvExhaust s o) s := by
  unfold State.kvExhaust; try dsimp only
  (repeat' split) <;> simp [Still]

@[simp] theorem State.objCreate_still (s : State) (x : Nat) (o : OrderSt) : Still (State.objCreate s x o) s := by
  unfold State.objCreate; try dsimp only
  (repeat' split) <;> simp [Still]

@[simp] theorem State.objDestroy_still (s : State) (x : Nat) (o : OrderSt) : Still (State.objDestroy s x o) s := by
  unfold State.objDestroy; try dsimp only
  (repeat' split) <;> simp [Still]

@[simp] theorem State.objHint_still (s : State) (x : Nat) (o : OrderSt) : Still (State.objHint s x o) s := by
  unfold State.objHint; try dsimp only
  (repeat' split) <;> simp [Still]

@[simp] theorem State.objTransfer_still (s : State) (x : Nat) (o : OrderSt) : Still (State.objTransfer s x o) s := by
  unfold State.objTransfer; try dsimp only
  (repeat' split) <;> simp [Still]

@[simp] theorem State.runOrder_still (s0 : State) (x : Nat) (o : OrderSt) : Still (State.runOrder s0 x o) s0 := by
  unfold State.runOrder; try dsimp only
  (repeat' split) <;> simp [Still, apply_ite State.pending, apply_ite State.flash, apply_ite Flash.rpmc, apply_ite State.glb, apply_ite Glb.address, apply_ite State.proto, apply_ite Proto.straps, apply_ite State.pick, apply_ite Pick.counter, apply_ite Pick.phase, apply_ite Pick.step, apply_ite State.twin, apply_ite Twin.state, apply_ite Glb.state]

@[simp] theorem State.readRange_still (s : State) (t : TaskRef) (a n : Nat) : Still (State.readRange s t a n) s := by
  unfold State.readRange; try dsimp only
  (repeat' split) <;> first | (simp [Still]; done) | (refine Still_trans (foldl_Still _ (fun s a => ?_) _ _) ?_ <;> (try dsimp only) <;> (repeat' split) <;> simp [Still])

@[simp] theorem State.readOperand_still (s : State) (t : TaskRef) (x : Nat) (fs : List Feed) (r : Nat × Nat) : Still (State.readOperand s t x fs r) s := by
  unfold State.readOperand; try dsimp only
  (repeat' split) <;> first | (simp [Still]; done) | (refine Still_trans (foldl_Still _ (fun s a => ?_) _ _) ?_ <;> (try dsimp only) <;> (repeat' split) <;> simp [Still])

@[simp] theorem State.readStaged_still (s : State) (t : TaskRef) (x cu : Nat) (fs : List Feed) (blk : Nat) : Still (State.readStaged s t x cu fs blk) s := by
  unfold State.readStaged; try dsimp only
  (repeat' split) <;> simp [Still]

@[simp] theorem State.readOperands_still (s : State) (t : TaskRef) (x cu : Nat) (fs : List Feed) (blks : List Nat) (rs : List (Nat × Nat)) : Still (State.readOperands s t x cu fs blks rs) s := by
  unfold State.readOperands; try dsimp only
  (repeat' split) <;> first | (simp [Still]; done) | (refine Still_trans (foldl_Still _ (fun s a => ?_) _ _) ?_ <;> (try dsimp only) <;> (repeat' split) <;> simp [Still])

@[simp] theorem State.taskWrites_still (s : State) (t : TaskRef) (x : Nat) (ws : List (Nat × Bytes)) : Still (State.taskWrites s t x ws) s := by
  unfold State.taskWrites; try dsimp only
  refine foldl_Still _ (fun s a => ?_) _ _; try dsimp only
  (repeat' split) <;> simp [Still]

@[simp] theorem State.runTile_still (s : State) (t : TaskRef) (x cu : Nat) (banks : List Nat) (d : ProdDesc) (mode : RndMode) (record : Option (Bytes × Bytes)) (mem : Memory) (idx no : Nat) : Still (State.runTile s t x cu banks d mode record mem idx no) s := by
  unfold State.runTile; try dsimp only
  (repeat' split) <;> first | (simp [Still]; done) | (refine Still_trans (foldl_Still _ (fun s a => ?_) _ _) ?_ <;> (try dsimp only) <;> (repeat' split) <;> simp [Still])

@[simp] theorem State.runTiles_still (s : State) (t : TaskRef) (x cu base : Nat) (banks : List Nat) (d : ProdDesc) (mode : RndMode)
    (record : Option (Bytes × Bytes)) : Still (s.runTiles t x cu base banks d mode record).1 s := by
  unfold State.runTiles
  refine foldl_pair _ (fun p a => ?_) _ (s, true)
  dsimp only
  (repeat' split) <;> simp [Still]

@[simp] theorem State.runFused_still (s : State) (t : TaskRef) (x : Nat) (k : Task) (d1 d2 : ProdDesc) (r : RowDesc) (key : KeyBlock) :
    Still (s.runFused t x k d1 d2 r key).1 s := by
  unfold State.runFused; dsimp only
  (repeat' split) <;> simp [Still]

@[simp] theorem State.runParts_still (s : State) (t : TaskRef) (x : Nat) (k : Task) (args : Bytes) : Still (s.runParts t x k args).1 s := by
  unfold State.runParts; dsimp only
  (repeat' split) <;> simp [Still]

@[simp] theorem State.runProduct_still (s : State) (t : TaskRef) (x : Nat) : Still (State.runProduct s t x) s := by
  unfold State.runProduct
  split
  · simp [Still]
  split
  · simp [Still]
  dsimp only
  (repeat' split) <;> simp [Still]

@[simp] theorem State.readProduct_still (s : State) (t : TaskRef) (x : Nat) : Still (State.readProduct s t x) s := by
  unfold State.readProduct; try dsimp only
  (repeat' split) <;> first | (simp [Still]; done) | (refine Still_trans (foldl_Still _ (fun s a => ?_) _ _) ?_ <;> (try dsimp only) <;> (repeat' split) <;> simp [Still])

@[simp] theorem State.goProduct_still (s : State) (t : TaskRef) (x : Nat) (stalls : State → Task → Bool) : Still (s.goProduct t x stalls) s := by
  unfold State.goProduct; dsimp only
  have h1 : Still (if ((s.core.task t).elim false fun k => k.args.isNone) = true then s.orWait (.task t) fun s => s.readProduct t x else s) s := by
    split
    · exact State.orWait_still _ _ _ fun s => State.readProduct_still _ _ _
    · exact ⟨rfl, rfl, rfl, rfl, rfl, rfl, rfl, rfl, rfl⟩
  (repeat' split) <;> first
    | exact h1
    | exact Still_trans (State.orWait_still _ _ _ fun s => State.runProduct_still _ _ _) h1
    | (simp [Still]; done)

@[simp] theorem State.repairOne_still (s : State) (r : Repair) : Still (State.repairOne s r) s := by
  unfold State.repairOne; try dsimp only
  (repeat' split) <;> simp [Still]

@[simp] theorem State.startRepair_still (s : State) (x cu cycle : Nat) : Still (State.startRepair s x cu cycle) s := by
  unfold State.startRepair; try dsimp only
  (repeat' split) <;> simp [Still]

@[simp] theorem State.engineRange_still (s : State) (t : TaskRef) (x : Nat) (r : Nat × Nat) : Still (State.engineRange s t x r) s := by
  unfold State.engineRange; try dsimp only
  (repeat' split) <;> first | (simp [Still]; done) | (refine Still_trans (foldl_Still _ (fun s a => ?_) _ _) ?_ <;> (try dsimp only) <;> (repeat' split) <;> simp [Still])

@[simp] theorem State.engineReads_still (s : State) (t : TaskRef) (x : Nat) (rs : List (Nat × Nat)) : Still (State.engineReads s t x rs) s := by
  unfold State.engineReads; try dsimp only
  (repeat' split) <;> simp [Still, apply_ite State.pending, apply_ite State.flash, apply_ite Flash.rpmc, apply_ite State.glb, apply_ite Glb.address, apply_ite State.proto, apply_ite Proto.straps, apply_ite State.pick, apply_ite Pick.counter, apply_ite Pick.phase, apply_ite Pick.step, apply_ite State.twin, apply_ite Twin.state, apply_ite Glb.state]

@[simp] theorem State.engineDone_still (s : State) (t : TaskRef) (x : Nat) (ws : List (Nat × Bytes)) : Still (State.engineDone s t x ws) s := by
  unfold State.engineDone; try dsimp only
  (repeat' split) <;> simp [Still]

@[simp] theorem State.runUpdate_still (s : State) (t : TaskRef) (x : Nat) : Still (State.runUpdate s t x) s := by
  unfold State.runUpdate; try dsimp only
  (repeat' split) <;> simp [Still]

@[simp] theorem State.runFill_still (s : State) (t : TaskRef) (x : Nat) : Still (State.runFill s t x) s := by
  unfold State.runFill; try dsimp only
  (repeat' split) <;> simp [Still]

@[simp] theorem State.setPort_still (s : State) (p : Nat) (f : Port → Port) : Still (State.setPort s p f) s := by
  unfold State.setPort; try dsimp only
  (repeat' split) <;> simp [Still]

@[simp] theorem State.sendControl_still (s : State) (p : Nat) (typ : Nat) (nak : Bool) : Still (State.sendControl s p typ nak) s := by
  unfold State.sendControl
  exact State.emit_still _ _

theorem State.forward_still (s : State) (frame : Bytes) (up : Option (Nat × Nat)) (t : State) (e : s.forward frame up = some t) : Still t s := by
  unfold State.forward at e; dsimp only at e
  obtain ⟨p, -, rfl⟩ := Option.map_eq_some_iff.mp e
  simp [Still]

@[simp] theorem State.forwardOrHold_still (s : State) (frame : Bytes) (up : Option (Nat × Nat)) : Still (State.forwardOrHold s frame up) s := by
  unfold State.forwardOrHold; dsimp only
  split
  · exact ⟨rfl, rfl, rfl, rfl, rfl, rfl, rfl, rfl, rfl⟩
  · cases h : s.forward frame up with
    | none => exact ⟨rfl, rfl, rfl, rfl, rfl, rfl, rfl, rfl, rfl⟩
    | some t => exact State.forward_still _ _ _ _ h

@[simp] theorem State.moveFlows_still (s : State) (p : Nat) : Still (State.moveFlows s p) s := by
  unfold State.moveFlows; dsimp only
  exact Still_trans (foldl_Still _ (fun s r => State.forwardOrHold_still _ _ _) _ _) (State.setPort_still _ _ _)

@[simp] theorem State.sendStranded_still (s : State) : Still (State.sendStranded s) s := by
  unfold State.sendStranded
  exact Still_trans (foldl_Still _ (fun s r => State.forwardOrHold_still _ _ _) _ _) ⟨rfl, rfl, rfl, rfl, rfl, rfl, rfl, rfl, rfl⟩

@[simp] theorem State.sendFrame_still (s : State) (typ traffic src dest : Nat) (payload : Bytes) : Still (State.sendFrame s typ traffic src dest payload) s := by
  unfold State.sendFrame; try dsimp only
  (repeat' split) <;> simp [Still]

@[simp] theorem State.sendBytes_still (s : State) (traffic src dest : Nat) (data : Bytes) : Still (s.sendBytes traffic src dest data) s := by
  unfold State.sendBytes
  exact foldl_Still _ (fun s p => State.sendFrame_still _ _ _ _ _ _) _ _

@[simp] theorem State.toRank_still (s : State) (ch : Nat) (g : Group) (me r : Nat) (data : Bytes) : Still (State.toRank s ch g me r data) s := by
  unfold State.toRank; try dsimp only
  (repeat' split) <;> simp [Still]

@[simp] theorem State.sendHeader_still (s : State) (traffic : Nat) (g : Group) (me r : Nat) (hdr : Bytes) : Still (State.sendHeader s traffic g me r hdr) s := by
  unfold State.sendHeader; try dsimp only
  (repeat' split) <;> simp [Still]

@[simp] theorem State.mismatchNotice_still (s : State) (ch groupA groupB sender : Nat) : Still (State.mismatchNotice s ch groupA groupB sender) s := by
  unfold State.mismatchNotice; try dsimp only
  (repeat' split) <;> first | (simp [Still]; done) | (refine Still_trans (foldl_Still _ (fun s a => ?_) _ _) ?_ <;> (try dsimp only) <;> (repeat' split) <;> simp [Still])

@[simp] theorem State.mismatch_still (s : State) (ch other sender : Nat) : Still (State.mismatch s ch other sender) s := by
  unfold State.mismatch; try dsimp only
  (repeat' split) <;> simp [Still]

@[simp] theorem State.partsRead_still (s : State) (rs : List (TaskRef × List (Nat × Nat))) (x : Nat) : Still (s.partsRead rs x).1 s := by
  unfold State.partsRead
  refine foldl_pair _ (fun p a => ?_) _ (s, true)
  dsimp only
  (repeat' split) <;> simp [Still]

@[simp] theorem State.sendCountPhase_still (s : State) (ch : Nat) : Still (State.sendCountPhase s ch) s := by
  unfold State.sendCountPhase; try dsimp only
  (repeat' split) <;> simp [Still, apply_ite State.pending, apply_ite State.flash, apply_ite Flash.rpmc, apply_ite State.glb, apply_ite Glb.address, apply_ite State.proto, apply_ite Proto.straps, apply_ite State.pick, apply_ite Pick.counter, apply_ite Pick.phase, apply_ite Pick.step, apply_ite State.twin, apply_ite Twin.state, apply_ite Glb.state]

@[simp] theorem State.beginData_still (s : State) (ch : Nat) : Still (State.beginData s ch) s := by
  unfold State.beginData; try dsimp only
  (repeat' split) <;> first | (simp [Still]; done) | (refine Still_trans (foldl_Still _ (fun s a => ?_) _ _) ?_ <;> (try dsimp only) <;> (repeat' split) <;> simp [Still])

@[simp] theorem State.sendRank_still (s : State) (ch : Nat) (i : ReedInst) (r : Nat) : Still (State.sendRank s ch i r) s := by
  unfold State.sendRank; try dsimp only
  (repeat' split) <;> first | (simp [Still]; done) | (refine Still_trans (foldl_Still _ (fun s a => ?_) _ _) ?_ <;> (try dsimp only) <;> (repeat' split) <;> simp [Still])

@[simp] theorem State.sendData_still (s : State) (ch : Nat) : Still (State.sendData s ch) s := by
  unfold State.sendData; try dsimp only
  (repeat' split) <;> simp [Still, apply_ite State.pending, apply_ite State.flash, apply_ite Flash.rpmc, apply_ite State.glb, apply_ite Glb.address, apply_ite State.proto, apply_ite Proto.straps, apply_ite State.pick, apply_ite Pick.counter, apply_ite Pick.phase, apply_ite Pick.step, apply_ite State.twin, apply_ite Twin.state, apply_ite Glb.state]

@[simp] theorem State.countFail_still (s : State) (ch : Nat) : Still (State.countFail s ch) s := by
  unfold State.countFail; try dsimp only
  (repeat' split) <;> simp [Still]

@[simp] theorem State.partsWrite_still (s : State) (x : Nat) (ws : List (TaskRef × List (Nat × Bytes))) : Still (s.partsWrite x ws).1 s := by
  unfold State.partsWrite
  (repeat' split) <;> simp [Still]

@[simp] theorem State.finishParts_still (s : State) (x : Nat) (ws : List (TaskRef × List (Nat × Bytes))) : Still (State.finishParts s x ws) s := by
  unfold State.finishParts; try dsimp only
  (repeat' split) <;> first | (simp [Still]; done) | (refine Still_trans (foldl_Still _ (fun s a => ?_) _ _) ?_ <;> (try dsimp only) <;> (repeat' split) <;> simp [Still])

@[simp] theorem State.tryFinish_still (s : State) (ch : Nat) : Still (State.tryFinish s ch) s := by
  unfold State.tryFinish; try dsimp only
  (repeat' split) <;> simp [Still]

@[simp] theorem State.landPiece_still (s : State) (ch piece : Nat) (data : Bytes) : Still (State.landPiece s ch piece data) s := by
  unfold State.landPiece; try dsimp only
  (repeat' split) <;> simp [Still]

@[simp] theorem State.landFrom_still (s : State) (ch : Nat) (i : ReedInst) (r : Nat) : Still (State.landFrom s ch i r) s := by
  unfold State.landFrom; try dsimp only
  (repeat' split) <;> first | (simp [Still]; done) | (refine Still_trans (foldl_Still _ (fun s a => ?_) _ _) ?_ <;> (try dsimp only) <;> (repeat' split) <;> simp [Still])

@[simp] theorem State.landOwn_still (s : State) (ch : Nat) (i : ReedInst) : Still (State.landOwn s ch i) s := by
  unfold State.landOwn; try dsimp only
  (repeat' split) <;> first | (simp [Still]; done) | (refine Still_trans (foldl_Still _ (fun s a => ?_) _ _) ?_ <;> (try dsimp only) <;> (repeat' split) <;> simp [Still])

@[simp] theorem State.landHeld_still (s : State) (ch : Nat) : Still (State.landHeld s ch) s := by
  unfold State.landHeld
  split
  · simp [Still]
  split
  · simp [Still]
  exact Still_trans (foldl_Still _ (fun s a => by simp [Still]) _ _) (by simp [Still])

@[simp] theorem State.countsGo_still (s : State) (ch : Nat) : Still (State.countsGo s ch) s := by
  unfold State.countsGo; try dsimp only
  (repeat' split) <;> simp [Still, apply_ite State.pending, apply_ite State.flash, apply_ite Flash.rpmc, apply_ite State.glb, apply_ite Glb.address, apply_ite State.proto, apply_ite Proto.straps, apply_ite State.pick, apply_ite Pick.counter, apply_ite Pick.phase, apply_ite Pick.step, apply_ite State.twin, apply_ite Twin.state, apply_ite Glb.state]

@[simp] theorem State.shardVersion_still (s : State) (ch : Nat) (t : TaskRef) (detail : Nat) : Still (State.shardVersion s ch t detail) s := by
  unfold State.shardVersion; try dsimp only
  (repeat' split) <;> first | (simp [Still]; done) | (refine Still_trans (foldl_Still _ (fun s a => ?_) _ _) ?_ <;> (try dsimp only) <;> (repeat' split) <;> simp [Still])

@[simp] theorem State.headersDone_still (s : State) (ch : Nat) : Still (State.headersDone s ch) s := by
  unfold State.headersDone; try dsimp only
  (repeat' split) <;> simp [Still]

@[simp] theorem State.compareHeader_still (s : State) (ch src : Nat) (h : Bytes) : Still (State.compareHeader s ch src h) s := by
  unfold State.compareHeader; try dsimp only
  (repeat' split) <;> first | (simp [Still]; done) | (refine Still_trans (foldl_Still _ (fun s a => ?_) _ _) ?_ <;> (try dsimp only) <;> (repeat' split) <;> simp [Still])

@[simp] theorem State.servedReads_still (s : State) (x : Nat) (rs : List (Nat × Nat)) : Still (State.servedReads s x rs).1 s := by
  unfold State.servedReads; try dsimp only
  (repeat' split) <;> simp [Still]

@[simp] theorem State.serve_still (s : State) (ch src : Nat) (h : Bytes) (v : Served) : Still (State.serve s ch src h v) s := by
  unfold State.serve; try dsimp only
  (repeat' split) <;> simp [Still]

@[simp] theorem State.serveRedo_still (s : State) (ch : Nat) : Still (State.serveRedo s ch) s := by
  unfold State.serveRedo; try dsimp only
  (repeat' split) <;> simp [Still]

@[simp] theorem State.headerInside_still (s : State) (ch src : Nat) (h : Bytes) : Still (State.headerInside s ch src h) s := by
  unfold State.headerInside; try dsimp only
  (repeat' split) <;> first | (simp [Still]; done) | (refine Still_trans (foldl_Still _ (fun s a => ?_) _ _) ?_ <;> (try dsimp only) <;> (repeat' split) <;> simp [Still])

@[simp] theorem State.startInstance_still (s : State) (ch : Nat) : Still (State.startInstance s ch) s := by
  unfold State.startInstance; try dsimp only
  (repeat' split) <;> simp [Still, apply_ite State.pending, apply_ite State.flash, apply_ite Flash.rpmc, apply_ite State.glb, apply_ite Glb.address, apply_ite State.proto, apply_ite Proto.straps, apply_ite State.pick, apply_ite Pick.counter, apply_ite Pick.phase, apply_ite Pick.step, apply_ite State.twin, apply_ite Twin.state, apply_ite Glb.state]

@[simp] theorem State.compareHeld_still (s : State) (ch : Nat) : Still (State.compareHeld s ch) s := by
  unfold State.compareHeld; try dsimp only
  (repeat' split) <;> simp [Still, apply_ite State.pending, apply_ite State.flash, apply_ite Flash.rpmc, apply_ite State.glb, apply_ite Glb.address, apply_ite State.proto, apply_ite Proto.straps, apply_ite State.pick, apply_ite Pick.counter, apply_ite Pick.phase, apply_ite Pick.step, apply_ite State.twin, apply_ite Twin.state, apply_ite Glb.state]

@[simp] theorem State.poke_still (s : State) (ch : Nat) : Still (State.poke s ch) s := by
  unfold State.poke; try dsimp only
  (repeat' split) <;> simp [Still, apply_ite State.pending, apply_ite State.flash, apply_ite Flash.rpmc, apply_ite State.glb, apply_ite Glb.address, apply_ite State.proto, apply_ite Proto.straps, apply_ite State.pick, apply_ite Pick.counter, apply_ite Pick.phase, apply_ite Pick.step, apply_ite State.twin, apply_ite Twin.state, apply_ite Glb.state]

@[simp] theorem State.settle_still (s : State) (ch : Nat) : Still (State.settle s ch) s := by
  unfold State.settle; try dsimp only
  (repeat' split) <;> simp [Still, apply_ite State.pending, apply_ite State.flash, apply_ite Flash.rpmc, apply_ite State.glb, apply_ite Glb.address, apply_ite State.proto, apply_ite Proto.straps, apply_ite State.pick, apply_ite Pick.counter, apply_ite Pick.phase, apply_ite Pick.step, apply_ite State.twin, apply_ite Twin.state, apply_ite Glb.state]

@[simp] theorem State.reedOpen_still (s : State) (ch : Nat) : Still (State.reedOpen s ch) s := by
  unfold State.reedOpen; try dsimp only
  (repeat' split) <;> first | (simp [Still]; done) | (refine Still_trans (foldl_Still _ (fun s a => ?_) _ _) ?_ <;> (try dsimp only) <;> (repeat' split) <;> simp [Still])

@[simp] theorem State.joinReed_still (s : State) (t : TaskRef) (x : Nat) : Still (State.joinReed s t x) s := by
  unfold State.joinReed; try dsimp only
  (repeat' split) <;> simp [Still]

@[simp] theorem State.heardBack_still (s : State) (ch src : Nat) (h : Bytes) : Still (State.heardBack s ch src h) s := by
  unfold State.heardBack; try dsimp only
  (repeat' split) <;> first | (simp [Still]; done) | (refine Still_trans (foldl_Still _ (fun s a => ?_) _ _) ?_ <;> (try dsimp only) <;> (repeat' split) <;> simp [Still])

@[simp] theorem State.takeHeader_still (s0 : State) (ch src : Nat) (h : Bytes) : Still (State.takeHeader s0 ch src h) s0 := by
  unfold State.takeHeader; try dsimp only
  (repeat' split) <;> simp [Still]

@[simp] theorem State.takeData_still (s : State) (ch : Nat) (f : OverFrame) : Still (State.takeData s ch f) s := by
  unfold State.takeData; try dsimp only
  (repeat' split) <;> simp [Still]

@[simp] theorem State.lossNotice_still (s : State) (addr beat : Nat) (absorbBeat : Option Nat) : Still (State.lossNotice s addr beat absorbBeat) s := by
  unfold State.lossNotice; try dsimp only
  (repeat' split) <;> simp [Still]

@[simp] theorem State.absorbEpoch_still (s : State) (addr : Nat) : Still (State.absorbEpoch s addr) s := by
  unfold State.absorbEpoch; try dsimp only
  (repeat' split) <;> simp [Still]

@[simp] theorem State.applyDrop_still (s : State) (addr : Nat) : Still (State.applyDrop s addr) s := by
  unfold State.applyDrop; try dsimp only
  (repeat' split) <;> simp [Still]

@[simp] theorem State.turnPhases_still (s : State) : Still (State.turnPhases s) s := by
  unfold State.turnPhases; try dsimp only
  (repeat' split) <;> simp [Still]

@[simp] theorem State.shuttleNotice_still (s : State) (groupA groupB sender : Nat) : Still (State.shuttleNotice s groupA groupB sender) s := by
  unfold State.shuttleNotice; try dsimp only
  (repeat' split) <;> first | (simp [Still]; done) | (refine Still_trans (foldl_Still _ (fun s a => ?_) _ _) ?_ <;> (try dsimp only) <;> (repeat' split) <;> simp [Still])

@[simp] theorem State.shuttleOut_still (s : State) (d : ShuttleDesc) (g : Group) (me next : Nat) : Still (State.shuttleOut s d g me next) s := by
  unfold State.shuttleOut; try dsimp only
  (repeat' split) <;> first | (simp [Still]; done) | (refine Still_trans (foldl_Still _ (fun s a => ?_) _ _) ?_ <;> (try dsimp only) <;> (repeat' split) <;> simp [Still])

@[simp] theorem State.shuttleTell_still (s : State) (dir : Nat) (g : Group) (me rank : Nat) (h : Bytes) : Still (State.shuttleTell s dir g me rank h) s := by
  unfold State.shuttleTell; try dsimp only
  (repeat' split) <;> first | (simp [Still]; done) | (refine Still_trans (foldl_Still _ (fun s a => ?_) _ _) ?_ <;> (try dsimp only) <;> (repeat' split) <;> simp [Still])

@[simp] theorem State.shuttleReserve_still (s : State) (v : ShServed) (g : Group) (rank : Nat) (h : Bytes) : Still (State.shuttleReserve s v g rank h) s := by
  unfold State.shuttleReserve; try dsimp only
  (repeat' split) <;> first | (simp [Still]; done) | (refine Still_trans (foldl_Still _ (fun s a => ?_) _ _) ?_ <;> (try dsimp only) <;> (repeat' split) <;> simp [Still])

@[simp] theorem State.shuttleMismatch_still (s : State) (group rank : Nat) : Still (State.shuttleMismatch s group rank) s := by
  unfold State.shuttleMismatch; try dsimp only
  (repeat' split) <;> first | (simp [Still]; done) | (refine Still_trans (foldl_Still _ (fun s a => ?_) _ _) ?_ <;> (try dsimp only) <;> (repeat' split) <;> simp [Still])

@[simp] theorem State.shuttleHeader_still (s : State) (h : Bytes) : Still (State.shuttleHeader s h) s := by
  unfold State.shuttleHeader; try dsimp only
  (repeat' split) <;> first | (simp [Still]; done) | (refine Still_trans (foldl_Still _ (fun s a => ?_) _ _) ?_ <;> (try dsimp only) <;> (repeat' split) <;> simp [Still])

@[simp] theorem State.shuttleHeld_still (s : State) : Still (State.shuttleHeld s) s := by
  unfold State.shuttleHeld; try dsimp only
  (repeat' split) <;> simp [Still]

@[simp] theorem State.serveAll_still (s : State) : Still (State.serveAll s) s := by
  unfold State.serveAll; try dsimp only
  (repeat' split) <;> simp [Still]

@[simp] theorem State.shuttleSend_still (s : State) (r : ShuttleRun) : Still (State.shuttleSend s r) s := by
  unfold State.shuttleSend; try dsimp only
  (repeat' split) <;> simp [Still]

@[simp] theorem State.shuttleLand_still (s : State) (r : ShuttleRun) : Still (State.shuttleLand s r) s := by
  unfold State.shuttleLand; try dsimp only
  (repeat' split) <;> simp [Still]

@[simp] theorem State.shuttleGo_still (s : State) : Still (State.shuttleGo s) s := by
  unfold State.shuttleGo; try dsimp only
  (repeat' split) <;> simp [Still]

@[simp] theorem State.beginShuttle_still (s : State) (t : TaskRef) (x : Nat) : Still (State.beginShuttle s t x) s := by
  unfold State.beginShuttle; try dsimp only
  (repeat' split) <;> first | (simp [Still]; done) | (refine Still_trans (foldl_Still _ (fun s a => ?_) _ _) ?_ <;> (try dsimp only) <;> (repeat' split) <;> simp [Still])

@[simp] theorem State.joinShuttle_still (s : State) (t : TaskRef) (x : Nat) : Still (State.joinShuttle s t x) s := by
  unfold State.joinShuttle; try dsimp only
  (repeat' split) <;> simp [Still]

@[simp] theorem State.receiveHeader_still (s : State) (ch src : Nat) (hdr : Bytes) : Still (State.receiveHeader s ch src hdr) s := by
  unfold State.receiveHeader; try dsimp only
  (repeat' split) <;> simp [Still]

@[simp] theorem State.receiveData_still (s : State) (port seq traffic src dest : Nat) (data : Bytes) : Still (State.receiveData s port seq traffic src dest data) s := by
  unfold State.receiveData; try dsimp only
  (repeat' split) <;> first | (simp [Still]; done) | (refine Still_trans (foldl_Still _ (fun s a => ?_) _ _) ?_ <;> (try dsimp only) <;> (repeat' split) <;> simp [Still])

@[simp] theorem State.ctxCreate_still (s : State) (o : OrderSt) : Still (State.ctxCreate s o) s := by
  unfold State.ctxCreate; try dsimp only
  (repeat' split) <;> simp [Still]

@[simp] theorem State.ctxDestroy_still (s : State) (x : Nat) (o : OrderSt) : Still (State.ctxDestroy s x o) s := by
  unfold State.ctxDestroy; try dsimp only
  (repeat' split) <;> simp [Still]

@[simp] theorem State.ctxReset_still (s : State) (x : Nat) (o : OrderSt) : Still (State.ctxReset s x o) s := by
  unfold State.ctxReset; try dsimp only
  (repeat' split) <;> simp [Still]

@[simp] theorem State.kvPoolCreate_still (s : State) (x : Nat) (o : OrderSt) : Still (State.kvPoolCreate s x o) s := by
  unfold State.kvPoolCreate; try dsimp only
  (repeat' split) <;> simp [Still]

@[simp] theorem State.checkOrder_still (s : State) (o : OrderSt) : Still (State.checkOrder s o) s := by
  unfold State.checkOrder; try dsimp only
  (repeat' split) <;> simp [Still]

@[simp] theorem State.kvPre_still (s : State) (o : OrderSt) : Still (State.kvPre s o) s := by
  unfold State.kvPre; try dsimp only
  (repeat' split) <;> simp [Still]

@[simp] theorem State.effect_still (s : State) (o : OrderSt) : Still (State.effect s o) s := by
  unfold State.effect; try dsimp only
  (repeat' split) <;> simp [Still]

@[simp] theorem State.applyOrder_still (s : State) (j op : Nat) : Still (State.applyOrder s j op) s := by
  unfold State.applyOrder; try dsimp only
  (repeat' split) <;> simp [Still]

@[simp] theorem State.applyKv_still (s : State) (j : Nat) (op : Nat) : Still (State.applyKv s j op) s := by
  unfold State.applyKv; (try dsimp only)
  (repeat' split) <;> first | (simp [Still]; done) | exact Still_trans (State.kvBeat_still _ _ _ _) (by simp [Still])

@[simp] theorem State.writeRecord_still (s : State) (ring : Nat) (r : OwedRec) : Still (State.writeRecord s ring r) s := by
  unfold State.writeRecord; try dsimp only
  (repeat' split) <;> simp [Still]

@[simp] theorem State.drainRing_still (s : State) (ring : Nat) : Still (State.drainRing s ring) s := by
  unfold State.drainRing; try dsimp only
  (repeat' split) <;> simp [Still]

@[simp] theorem State.haltRing_still (s : State) (ring : Nat) : Still (State.haltRing s ring) s := by
  unfold State.haltRing; try dsimp only
  (repeat' split) <;> simp [Still]

@[simp] theorem State.ringStop_still (s : State) (ring : Nat) : Still (State.ringStop s ring) s := by
  unfold State.ringStop; try dsimp only
  (repeat' split) <;> first | (simp [Still]; done) | (refine Still_trans (foldl_Still _ (fun s a => ?_) _ _) ?_ <;> (try dsimp only) <;> (repeat' split) <;> simp [Still])

@[simp] theorem State.adoptOrders_still (s : State) (ring : Nat) : Still (State.adoptOrders s ring) s := by
  unfold State.adoptOrders; try dsimp only
  (repeat' split) <;> simp [Still]

@[simp] theorem State.resumeRing_still (s : State) (ring : Nat) : Still (State.resumeRing s ring) s := by
  unfold State.resumeRing; try dsimp only
  (repeat' split) <;> simp [Still]

@[simp] theorem State.startRing_still (s : State) (ring : Nat) : Still (State.startRing s ring) s := by
  unfold State.startRing; try dsimp only
  (repeat' split) <;> simp [Still]

@[simp] theorem State.readControl_still (s : State) (host : HostView) (ring : Nat) : Still (State.readControl s host ring).1 s := by
  unfold State.readControl; try dsimp only
  (repeat' split) <;> simp [Still]

@[simp] theorem State.dropTaken_still (s : State) (before : List JEntry) (off : List Nat) : Still (State.dropTaken s before off) s := by
  unfold State.dropTaken; try dsimp only
  (repeat' split) <;> simp [Still]

@[simp] theorem State.sealOne_still (s : State) (e0 : JEntry) : Still (State.sealOne s e0) s := by
  unfold State.sealOne; try dsimp only
  (repeat' split) <;> simp [Still]

@[simp] theorem State.sealAll_still (s : State) (confirmed : List (Nat × Nat)) : Still (State.sealAll s confirmed) s := by
  unfold State.sealAll; dsimp only
  refine Still_trans (foldl_pair _ (fun p a => ?_) _ (_, _)) ?_ <;> try dsimp only
  all_goals (repeat' split) <;> simp [Still]

@[simp] theorem State.writeOwed_still (s : State) (ring : Nat) : Still (State.writeOwed s ring) s := by
  unfold State.writeOwed; try dsimp only
  (repeat' split) <;> simp [Still]

@[simp] theorem State.publish_still (s : State) (o : OrderSt) : Still (State.publish s o) s := by
  unfold State.publish; try dsimp only
  (repeat' split) <;> simp [Still]

@[simp] theorem State.publishDue_still (s : State) : Still (State.publishDue s) s := by
  unfold State.publishDue; dsimp only
  refine foldl_pair _ (fun p a => ?_) _ (s, _)
  (repeat' split) <;> simp [Still]

@[simp] theorem State.repeatOne_still (s : State) (w : Nat × Nat × Bytes) : Still (State.repeatOne s w) s := by
  unfold State.repeatOne; try dsimp only
  (repeat' split) <;> simp [Still]

@[simp] theorem State.repeatRecords_still (s : State) : Still (State.repeatRecords s) s := by
  unfold State.repeatRecords; try dsimp only
  (repeat' split) <;> simp [Still]

@[simp] theorem State.writeRecords_still (s : State) : Still (State.writeRecords s) s := by
  unfold State.writeRecords; try dsimp only
  (repeat' split) <;> simp [Still]

@[simp] theorem State.attempt_still (s : State) (t : TaskRef) : Still (State.attempt s t) s := by
  unfold State.attempt; try dsimp only
  (repeat' split) <;> first | (simp [Still]; done) | (refine Still_trans (State.orWait_still _ _ _ fun s => ?_) ?_ <;> simp [Still])

@[simp] theorem State.reedGo_still (s : State) : Still (State.reedGo s) s := by
  unfold State.reedGo; try dsimp only
  refine foldl_Still _ (fun s a => ?_) _ _; try dsimp only
  (repeat' split) <;> simp [Still]

@[simp] theorem State.startTask_still (s : State) (t : TaskRef) (k : Task) (x cycle : Nat) (u : ExecUnit) : Still (State.startTask s t k x cycle u) s := by
  unfold State.startTask; try dsimp only
  (repeat' split) <;> simp [Still]

@[simp] theorem State.finishTask_still (s : State) (t : TaskRef) (k : Task) (x : Nat) : Still (State.finishTask s t k x) s := by
  unfold State.finishTask; try dsimp only
  (repeat' split) <;> simp [Still]

@[simp] theorem State.runImage_still (s : State) (t : TaskRef) (x cu desc : Nat) (d : ImgDesc) (boxes : List Box) (extra : Nat) (held : Bool) : Still (State.runImage s t x cu desc d boxes extra held) s := by
  unfold State.runImage; try dsimp only
  (repeat' split) <;> simp [Still, apply_ite State.pending, apply_ite State.flash, apply_ite Flash.rpmc, apply_ite State.glb, apply_ite Glb.address, apply_ite State.proto, apply_ite Proto.straps, apply_ite State.pick, apply_ite Pick.counter, apply_ite Pick.phase, apply_ite Pick.step, apply_ite State.twin, apply_ite Twin.state, apply_ite Glb.state, -Nat.reducePow]

@[simp] theorem State.image_still (s : State) (t : TaskRef) (op desc : Nat) (held : Bool) : Still (State.image s t op desc held) s := by
  unfold State.image; try dsimp only
  (repeat' split) <;> simp [Still, apply_ite State.pending, apply_ite State.flash, apply_ite Flash.rpmc, apply_ite State.glb, apply_ite Glb.address, apply_ite State.proto, apply_ite Proto.straps, apply_ite State.pick, apply_ite Pick.counter, apply_ite Pick.phase, apply_ite Pick.step, apply_ite State.twin, apply_ite Twin.state, apply_ite Glb.state]

@[simp] theorem State.issueImage_still (s : State) (t : TaskRef) (op desc : Nat) (held : Bool) : Still (State.issueImage s t op desc held) s := by
  unfold State.issueImage; try dsimp only
  (repeat' split) <;> simp [Still]

@[simp] theorem State.draftIgnored_still (s : State) : Still (State.draftIgnored s) s := by
  unfold State.draftIgnored; try dsimp only
  (repeat' split) <;> simp [Still]

@[simp] theorem State.unapplyDraft_root (s : State) : Root (State.unapplyDraft s) s := by
  unfold State.unapplyDraft
  split
  · exact ⟨rfl, rfl, rfl, rfl⟩
  dsimp only
  generalize hx : State.followDraft (State.withCore s _) _ = t
  have h : Still t s := hx ▸ Still_trans (State.followDraft_still _ _) (State.withCore_still _ _)
  exact ⟨h.1, h.2.1, h.2.2.1, h.2.2.2.1⟩

@[simp] theorem State.unapplyDraft_clock (s : State) : Clock (State.unapplyDraft s) s := by
  unfold State.unapplyDraft
  split
  · exact ⟨rfl, rfl, rfl, rfl⟩
  dsimp only
  generalize hx : State.followDraft (State.withCore s _) _ = t
  have h : Still t s := hx ▸ Still_trans (State.followDraft_still _ _) (State.withCore_still _ _)
  exact ⟨h.2.2.2.2.1, h.2.2.2.2.2.1, h.2.2.2.2.2.2.1, h.2.2.2.2.2.2.2.2⟩

@[simp] theorem State.dropStaged_root (s : State) (st : DraftState) : Root (State.dropStaged s st) s := by
  unfold State.dropStaged; try dsimp only
  (repeat' split) <;> first | (simp [Root]; done) | (refine Root_trans (foldl_Root _ (fun s a => ?_) _ _) ?_ <;> (try dsimp only) <;> (repeat' split) <;> simp [Root])

@[simp] theorem State.dropStaged_clock (s : State) (st : DraftState) : Clock (State.dropStaged s st) s := by
  unfold State.dropStaged; try dsimp only
  (repeat' split) <;> first | (simp [Clock]; done) | (refine Clock_trans (foldl_Clock _ (fun s a => ?_) _ _) ?_ <;> (try dsimp only) <;> (repeat' split) <;> simp [Clock])

@[simp] theorem State.stageCmd_root (s : State) : Root (State.stageCmd s) s := by
  unfold State.stageCmd; try dsimp only
  (repeat' split) <;> first | (simp [Root]; done) | (refine Root_trans (foldl_Root _ (fun s a => ?_) _ _) ?_ <;> (try dsimp only) <;> (repeat' split) <;> simp [Root])

@[simp] theorem State.stageCmd_clock (s : State) : Clock (State.stageCmd s) s := by
  unfold State.stageCmd; try dsimp only
  (repeat' split) <;> first | (simp [Clock]; done) | (refine Clock_trans (foldl_Clock _ (fun s a => ?_) _ _) ?_ <;> (try dsimp only) <;> (repeat' split) <;> simp [Clock])

@[simp] theorem State.armCmd_root (s : State) : Root (State.armCmd s) s := by
  unfold State.armCmd; try dsimp only
  (repeat' split) <;> first | (simp [Root]; done) | (refine Root_trans (foldl_Root _ (fun s a => ?_) _ _) ?_ <;> (try dsimp only) <;> (repeat' split) <;> simp [Root])

@[simp] theorem State.armCmd_clock (s : State) : Clock (State.armCmd s) s := by
  unfold State.armCmd; try dsimp only
  (repeat' split) <;> first | (simp [Clock]; done) | (refine Clock_trans (foldl_Clock _ (fun s a => ?_) _ _) ?_ <;> (try dsimp only) <;> (repeat' split) <;> simp [Clock])

@[simp] theorem State.disarmCmd_root (s : State) : Root (State.disarmCmd s) s := by
  unfold State.disarmCmd; try dsimp only
  (repeat' split) <;> first | (simp [Root]; done) | (refine Root_trans (foldl_Root _ (fun s a => ?_) _ _) ?_ <;> (try dsimp only) <;> (repeat' split) <;> simp [Root])

@[simp] theorem State.disarmCmd_clock (s : State) : Clock (State.disarmCmd s) s := by
  unfold State.disarmCmd; try dsimp only
  (repeat' split) <;> first | (simp [Clock]; done) | (refine Clock_trans (foldl_Clock _ (fun s a => ?_) _ _) ?_ <;> (try dsimp only) <;> (repeat' split) <;> simp [Clock])

@[simp] theorem State.discardCmd_root (s : State) : Root (State.discardCmd s) s := by
  unfold State.discardCmd; try dsimp only
  (repeat' split) <;> first | (simp [Root]; done) | (refine Root_trans (foldl_Root _ (fun s a => ?_) _ _) ?_ <;> (try dsimp only) <;> (repeat' split) <;> simp [Root])

@[simp] theorem State.discardCmd_clock (s : State) : Clock (State.discardCmd s) s := by
  unfold State.discardCmd; try dsimp only
  (repeat' split) <;> first | (simp [Clock]; done) | (refine Clock_trans (foldl_Clock _ (fun s a => ?_) _ _) ?_ <;> (try dsimp only) <;> (repeat' split) <;> simp [Clock])

@[simp] theorem State.missDraft_still (s : State) (reason : Nat) : Still (State.missDraft s reason) s := by
  unfold State.missDraft; try dsimp only
  (repeat' split) <;> simp [Still]

@[simp] theorem State.sendArmed_still (s : State) : Still (State.sendArmed s) s := by
  unfold State.sendArmed; try dsimp only
  (repeat' split) <;> first | (simp [Still]; done) | (refine Still_trans (foldl_Still _ (fun s a => ?_) _ _) ?_ <;> (try dsimp only) <;> (repeat' split) <;> simp [Still])

@[simp] theorem State.testDraft_still (s : State) (twinArmed : Option (Nat × Bytes)) : Still (State.testDraft s twinArmed) s := by
  unfold State.testDraft; try dsimp only
  (repeat' split) <;> simp [Still]

@[simp] theorem State.applyDraft_still (s : State) (d : Draft) : Still (State.applyDraft s d) s := by
  unfold State.applyDraft; try dsimp only
  (repeat' split) <;> simp [Still]

@[simp] theorem State.applyDue_still (s : State) : Still (State.applyDue s) s := by
  unfold State.applyDue; try dsimp only
  (repeat' split) <;> simp [Still]

@[simp] theorem State.draftFinal_still (s : State) : Still (State.draftFinal s) s := by
  unfold State.draftFinal; try dsimp only
  (repeat' split) <;> simp [Still]

@[simp] theorem State.twinIgnored_still (s : State) : Still (State.twinIgnored s) s := by
  unfold State.twinIgnored; try dsimp only
  (repeat' split) <;> simp [Still]

@[simp] theorem State.sendHello_still (s : State) : Still (State.sendHello s) s := by
  unfold State.sendHello; try dsimp only
  (repeat' split) <;> simp [Still]

@[simp] theorem State.pairFailed_root (s : State) (code : Nat) : Root (State.pairFailed s code) s := by
  unfold State.pairFailed; try dsimp only
  (repeat' split) <;> simp [Root]

@[simp] theorem State.pairFailed_clock (s : State) (code : Nat) : Clock (State.pairFailed s code) s := by
  unfold State.pairFailed; try dsimp only
  (repeat' split) <;> simp [Clock]

@[simp] theorem State.startPairing_root (s : State) : Root (State.startPairing s) s := by
  unfold State.startPairing; try dsimp only
  (repeat' split) <;> simp [Root]

@[simp] theorem State.startPairing_clock (s : State) : Clock (State.startPairing s) s := by
  unfold State.startPairing; try dsimp only
  (repeat' split) <;> simp [Clock]

@[simp] theorem State.pairCmd_still (s : State) : Still (State.pairCmd s) s := by
  unfold State.pairCmd; try dsimp only
  (repeat' split) <;> simp [Still]

@[simp] theorem State.sendCopy_still (s : State) (c : Core) (blks : List Nat) : Still (State.sendCopy s c blks) s := by
  unfold State.sendCopy; try dsimp only
  (repeat' split) <;> first | (simp [Still]; done) | (refine Still_trans (foldl_Still _ (fun s a => ?_) _ _) ?_ <;> (try dsimp only) <;> (repeat' split) <;> simp [Still])

@[simp] theorem State.startCopy_still (s : State) : Still (State.startCopy s) s := by
  unfold State.startCopy; try dsimp only
  (repeat' split) <;> first | (simp [Still]; done) | (refine Still_trans (foldl_Still _ (fun s a => ?_) _ _) ?_ <;> (try dsimp only) <;> (repeat' split) <;> simp [Still])

@[simp] theorem State.resumed_root (s : State) : Root (State.resumed s) s := by
  unfold State.resumed; try dsimp only
  (repeat' split) <;> simp [Root]

@[simp] theorem State.resumed_clock (s : State) : Clock (State.resumed s) s := by
  unfold State.resumed; try dsimp only
  (repeat' split) <;> simp [Clock]

@[simp] theorem State.turnMirror_still (s : State) : Still (State.turnMirror s) s := by
  unfold State.turnMirror; try dsimp only
  (repeat' split) <;> simp [Still]

@[simp] theorem State.startHashes_still (s : State) : Still (State.startHashes s) s := by
  unfold State.startHashes; try dsimp only
  (repeat' split) <;> simp [Still]

@[simp] theorem State.enterSync_root (s : State) : Root (State.enterSync s) s := by
  unfold State.enterSync; try dsimp only
  (repeat' split) <;> simp [Root]

@[simp] theorem State.enterSync_clock (s : State) : Clock (State.enterSync s) s := by
  unfold State.enterSync; try dsimp only
  (repeat' split) <;> simp [Clock]

@[simp] theorem State.syncEntry_root (s : State) (twinReady : Bool) : Root (State.syncEntry s twinReady) s := by
  unfold State.syncEntry; try dsimp only
  (repeat' split) <;> simp [Root]

@[simp] theorem State.syncEntry_clock (s : State) (twinReady : Bool) : Clock (State.syncEntry s twinReady) s := by
  unfold State.syncEntry; try dsimp only
  (repeat' split) <;> simp [Clock]

@[simp] theorem State.sendMirror_still (s : State) (blks : List Nat) : Still (State.sendMirror s blks) s := by
  unfold State.sendMirror; try dsimp only
  (repeat' split) <;> simp [Still]

@[simp] theorem State.exchange_still (s : State) (objs own : List (Nat × Word)) (detected : Bool) : Still (State.exchange s objs own detected) s := by
  unfold State.exchange; try dsimp only
  (repeat' split) <;> simp [Still]

@[simp] theorem State.diverged_root (s : State) : Root s.diverged s := by
  unfold State.diverged; try dsimp only
  simp [Root]

@[simp] theorem State.diverged_clock (s : State) : Clock s.diverged s := by
  unfold State.diverged; try dsimp only
  simp [Clock]

@[simp] theorem State.recopyEnd_root (s : State) : Root (State.recopyEnd s) s := by
  unfold State.recopyEnd; try dsimp only
  (repeat' split) <;> simp [Root]

@[simp] theorem State.recopyEnd_clock (s : State) : Clock (State.recopyEnd s) s := by
  unfold State.recopyEnd; try dsimp only
  (repeat' split) <;> simp [Clock]

@[simp] theorem State.compareCmd_still (s : State) : Still (State.compareCmd s) s := by
  unfold State.compareCmd; try dsimp only
  (repeat' split) <;> simp [Still]

@[simp] theorem State.sealTwin_still (s : State) : Still (State.sealTwin s) s := by
  unfold State.sealTwin; try dsimp only
  (repeat' split) <;> simp [Still]

@[simp] theorem State.takeTables_still (s : State) (t : TwinTables) : Still (State.takeTables s t) s := by
  unfold State.takeTables; try dsimp only
  (repeat' split) <;> simp [Still]

@[simp] theorem State.sendTables_still (s : State) : Still (State.sendTables s) s := by
  unfold State.sendTables; try dsimp only
  (repeat' split) <;> first | (simp [Still]; done) | (refine Still_trans (foldl_Still _ (fun s a => ?_) _ _) ?_ <;> (try dsimp only) <;> (repeat' split) <;> simp [Still])

@[simp] theorem State.startAbsorb_root (s0 : State) (b : Nat) (planned : Bool) : Root (State.startAbsorb s0 b planned) s0 := by
  unfold State.startAbsorb; try dsimp only
  (repeat' split) <;> simp [Root]

@[simp] theorem State.startAbsorb_clock (s0 : State) (b : Nat) (planned : Bool) : Clock (State.startAbsorb s0 b planned) s0 := by
  unfold State.startAbsorb; try dsimp only
  (repeat' split) <;> simp [Clock]

@[simp] theorem State.unpair_root (s0 : State) (lost : Option Nat) : Root (State.unpair s0 lost) s0 := by
  unfold State.unpair; try dsimp only
  (repeat' split) <;> simp [Root]

@[simp] theorem State.unpair_clock (s0 : State) (lost : Option Nat) : Clock (State.unpair s0 lost) s0 := by
  unfold State.unpair; try dsimp only
  (repeat' split) <;> simp [Clock]

@[simp] theorem State.twinLost_root (s : State) (code b : Nat) : Root (State.twinLost s code b) s := by
  unfold State.twinLost; try dsimp only
  (repeat' split) <;> simp [Root]

@[simp] theorem State.twinLost_clock (s : State) (code b : Nat) : Clock (State.twinLost s code b) s := by
  unfold State.twinLost; try dsimp only
  (repeat' split) <;> simp [Clock]

@[simp] theorem State.absorbCmd_still (s : State) : Still (State.absorbCmd s) s := by
  unfold State.absorbCmd; try dsimp only
  (repeat' split) <;> simp [Still]

@[simp] theorem State.handbackCmd_still (s : State) : Still (State.handbackCmd s) s := by
  unfold State.handbackCmd; try dsimp only
  (repeat' split) <;> simp [Still]

@[simp] theorem State.detachCmd_still (s : State) : Still (State.detachCmd s) s := by
  unfold State.detachCmd; try dsimp only
  (repeat' split) <;> simp [Still]

@[simp] theorem State.drainCmd_still (s : State) : Still (State.drainCmd s) s := by
  unfold State.drainCmd; try dsimp only
  (repeat' split) <;> simp [Still]

@[simp] theorem State.takeDrain_still (s : State) : Still (State.takeDrain s) s := by
  unfold State.takeDrain; try dsimp only
  (repeat' split) <;> simp [Still]

@[simp] theorem State.selvedgeGone_root (s : State) (p : Nat) (twinOnFabric : Bool) : Root (State.selvedgeGone s p twinOnFabric) s := by
  unfold State.selvedgeGone; try dsimp only
  (repeat' split) <;> simp [Root]

@[simp] theorem State.selvedgeGone_clock (s : State) (p : Nat) (twinOnFabric : Bool) : Clock (State.selvedgeGone s p twinOnFabric) s := by
  unfold State.selvedgeGone; try dsimp only
  (repeat' split) <;> simp [Clock]

@[simp] theorem State.selvedgeLost_root (s : State) (p : Nat) (twinOnFabric : Bool) : Root (State.selvedgeLost s p twinOnFabric) s := by
  unfold State.selvedgeLost; try dsimp only
  (repeat' split) <;> simp [Root]

@[simp] theorem State.selvedgeLost_clock (s : State) (p : Nat) (twinOnFabric : Bool) : Clock (State.selvedgeLost s p twinOnFabric) s := by
  unfold State.selvedgeLost; try dsimp only
  (repeat' split) <;> simp [Clock]

@[simp] theorem State.absorbCtxs_still (s : State) : Still (State.absorbCtxs s) s := by
  unfold State.absorbCtxs; try dsimp only
  refine foldl_Still _ (fun s a => ?_) _ _; try dsimp only
  (repeat' split) <;> simp [Still]

@[simp] theorem State.absorbObj_still (s : State) (p : Nat × Obj) (homes : List Home) (whole : List Nat) : Still (State.absorbObj s p homes whole) s := by
  unfold State.absorbObj; try dsimp only
  (repeat' split) <;> first | (simp [Still]; done) | (refine Still_trans (foldl_Still _ (fun s a => ?_) _ _) ?_ <;> (try dsimp only) <;> (repeat' split) <;> simp [Still])

@[simp] theorem State.absorbObjs_still (s : State) : Still (State.absorbObjs s) s := by
  unfold State.absorbObjs; dsimp only
  exact Still_trans (foldl_Still (fun (s : State) (p : Nat × Obj) => s.absorbObj p (s.absorbHomes p.2) []) (fun s p => State.absorbObj_still s _ _ _) _ _)
    (foldl_Still (fun (s : State) (p : Nat × Obj) => s.absorbObj p p.2.homes (List.range p.2.blocks)) (fun s p => State.absorbObj_still s _ _ _) _ _)

@[simp] theorem State.absorbOrders_still (s : State) : Still (State.absorbOrders s) s := by
  unfold State.absorbOrders; try dsimp only
  (repeat' split) <;> simp [Still]

@[simp] theorem State.absorbGroups_still (s : State) : Still (State.absorbGroups s) s := by
  unfold State.absorbGroups; try dsimp only
  (repeat' split) <;> simp [Still]

@[simp] theorem Pick.unlead_counter (p : Pick) (addr : Nat) : (p.unlead addr).counter = p.counter := by
  unfold Pick.unlead; split <;> rfl

@[simp] theorem Pick.unlead_phase (p : Pick) (addr : Nat) : (p.unlead addr).phase = p.phase := by
  unfold Pick.unlead; split <;> rfl

@[simp] theorem Pick.unlead_step (p : Pick) (addr : Nat) : (p.unlead addr).step = p.step := by
  unfold Pick.unlead; split <;> rfl

@[simp] theorem Pick.lead_counter (p : Pick) (addr : Nat) : (p.lead addr).counter = p.counter := by
  unfold Pick.lead; split <;> rfl

@[simp] theorem Pick.lead_phase (p : Pick) (addr : Nat) : (p.lead addr).phase = p.phase := by
  unfold Pick.lead; split <;> rfl

@[simp] theorem Pick.lead_step (p : Pick) (addr : Nat) : (p.lead addr).step = p.step := by
  unfold Pick.lead; split <;> rfl

@[simp] theorem State.absorbApply_still (s : State) : Still (State.absorbApply s) s := by
  unfold State.absorbApply; try dsimp only
  (repeat' split) <;> simp [Still]

@[simp] theorem State.handbackApply_root (s : State) : Root (State.handbackApply s) s := by
  unfold State.handbackApply; try dsimp only
  (repeat' split) <;> simp [Root]

@[simp] theorem State.handbackApply_clock (s : State) : Clock (State.handbackApply s) s := by
  unfold State.handbackApply; try dsimp only
  (repeat' split) <;> simp [Clock]

@[simp] theorem State.takeBack_root (s : State) : Root (State.takeBack s) s := by
  unfold State.takeBack; try dsimp only
  (repeat' split) <;> simp [Root]

@[simp] theorem State.takeBack_clock (s : State) : Clock (State.takeBack s) s := by
  unfold State.takeBack; try dsimp only
  (repeat' split) <;> simp [Clock]

@[simp] theorem State.detachApply_root (s : State) : Root (State.detachApply s) s := by
  unfold State.detachApply; try dsimp only
  (repeat' split) <;> simp [Root]

@[simp] theorem State.detachApply_clock (s : State) : Clock (State.detachApply s) s := by
  unfold State.detachApply; try dsimp only
  (repeat' split) <;> simp [Clock]

@[simp] theorem State.twinDetached_root (s : State) : Root (State.twinDetached s) s := by
  unfold State.twinDetached; try dsimp only
  (repeat' split) <;> simp [Root]

@[simp] theorem State.twinDetached_clock (s : State) : Clock (State.twinDetached s) s := by
  unfold State.twinDetached; try dsimp only
  (repeat' split) <;> simp [Clock]

@[simp] theorem State.mirrorOff_root (s : State) : Root (State.mirrorOff s) s := by
  unfold State.mirrorOff; try dsimp only
  (repeat' split) <;> simp [Root]

@[simp] theorem State.mirrorOff_clock (s : State) : Clock (State.mirrorOff s) s := by
  unfold State.mirrorOff; try dsimp only
  (repeat' split) <;> simp [Clock]

@[simp] theorem State.releaseItems_still (s : State) (o : OrderSt) : Still (State.releaseItems s o) s := by
  unfold State.releaseItems; try dsimp only
  (repeat' split) <;> simp [Still]

@[simp] theorem State.releaseDue_still (s : State) : Still (State.releaseDue s) s := by
  unfold State.releaseDue; try dsimp only
  (repeat' split) <;> simp [Still]

@[simp] theorem State.sendLoss_still (s : State) (a : Nat) : Still (State.sendLoss s a) s := by
  unfold State.sendLoss; try dsimp only
  (repeat' split) <;> simp [Still]

@[simp] theorem State.neighborGone_still (s : State) (a : Nat) : Still (State.neighborGone s a) s := by
  unfold State.neighborGone; try dsimp only
  (repeat' split) <;> first | (simp [Still]; done) | (refine Still_trans (foldl_Still _ (fun s a => ?_) _ _) ?_ <;> (try dsimp only) <;> (repeat' split) <;> simp [Still])

@[simp] theorem State.portDown_root (s : State) (p : Nat) : Root (State.portDown s p) s := by
  unfold State.portDown; try dsimp only
  (repeat' split) <;> simp [Root]

@[simp] theorem State.portDown_clock (s : State) (p : Nat) : Clock (State.portDown s p) s := by
  unfold State.portDown; try dsimp only
  (repeat' split) <;> simp [Clock]

@[simp] theorem State.takeAck_still (s : State) (p : Nat) (ack : Nat) : Still (State.takeAck s p ack) s := by
  unfold State.takeAck; dsimp only
  refine Still_trans (State.sendStranded_still _) (Still_trans (foldl_Still _ (fun s r => ?_) _ _) (State.setPort_still _ _ _))
  split <;> simp [Still]

@[simp] theorem State.resend_root (s : State) (p : Nat) : Root (State.resend s p) s := by
  unfold State.resend; try dsimp only
  (repeat' split) <;> simp [Root]

@[simp] theorem State.resend_clock (s : State) (p : Nat) : Clock (State.resend s p) s := by
  unfold State.resend; try dsimp only
  (repeat' split) <;> simp [Clock]

@[simp] theorem State.deliver_still (s : State) (port : Nat) (b : Bytes) : Still (State.deliver s port b) s := by
  unfold State.deliver; try dsimp only
  (repeat' split) <;> first | (simp [Still]; done) | (refine Still_trans (foldl_Still _ (fun s a => ?_) _ _) ?_ <;> (try dsimp only) <;> (repeat' split) <;> simp [Still])

@[simp] theorem State.noteFec_still (s : State) (p n : Nat) : Still (State.noteFec s p n) s := by
  unfold State.noteFec; try dsimp only
  (repeat' split) <;> simp [Still]

@[simp] theorem State.routeFrame_still (s : State) (port : Nat) (frame : Bytes) : Still (State.routeFrame s port frame) s := by
  unfold State.routeFrame; try dsimp only
  (repeat' split) <;> simp [Still]

@[simp] theorem State.train_still (s : State) (p : Nat) : Still (State.train s p) s := by
  unfold State.train; try dsimp only
  (repeat' split) <;> simp [Still]

@[simp] theorem State.retrainCmd_root (s : State) (p : Nat) : Root (State.retrainCmd s p) s := by
  unfold State.retrainCmd; try dsimp only
  (repeat' split) <;> simp [Root]

@[simp] theorem State.retrainCmd_clock (s : State) (p : Nat) : Clock (State.retrainCmd s p) s := by
  unfold State.retrainCmd; try dsimp only
  (repeat' split) <;> simp [Clock]

@[simp] theorem State.disableCmd_still (s : State) (p : Nat) : Still (State.disableCmd s p) s := by
  unfold State.disableCmd; try dsimp only
  (repeat' split) <;> simp [Still]

@[simp] theorem State.enableCmd_still (s : State) (p : Nat) : Still (State.enableCmd s p) s := by
  unfold State.enableCmd; try dsimp only
  (repeat' split) <;> simp [Still]

@[simp] theorem State.applyDisable_root (s : State) : Root (State.applyDisable s) s := by
  unfold State.applyDisable; try dsimp only
  refine foldl_Root _ (fun s a => ?_) _ _; try dsimp only
  (repeat' split) <;> simp [Root]

@[simp] theorem State.applyDisable_clock (s : State) : Clock (State.applyDisable s) s := by
  unfold State.applyDisable; try dsimp only
  refine foldl_Clock _ (fun s a => ?_) _ _; try dsimp only
  (repeat' split) <;> simp [Clock]

@[simp] theorem State.setCart_still (s : State) (c : Nat) (st : CartState) : Still (State.setCart s c st) s := by
  unfold State.setCart; try dsimp only
  (repeat' split) <;> simp [Still]

@[simp] theorem State.cartFail_root (s : State) (c : Nat) (st : CartState) : Root (State.cartFail s c st) s := by
  unfold State.cartFail; try dsimp only
  (repeat' split) <;> simp [Root]

@[simp] theorem State.joinCarts_still (s : State) : Still (State.joinCarts s) s := by
  unfold State.joinCarts; try dsimp only
  refine foldl_Still _ (fun s a => ?_) _ _; try dsimp only
  (repeat' split) <;> simp [Still]

@[simp] theorem State.relayFields_still (s : State) (leader period window : Nat) (drop : Option Nat) : Still (State.relayFields s leader period window drop) s := by
  unfold State.relayFields; try dsimp only
  (repeat' split) <;> simp [Still]

@[simp] theorem State.takeFields_still (s : State) (beat period window : Nat) (drop : Option Nat) : Still (State.takeFields s beat period window drop) s := by
  unfold State.takeFields; try dsimp only
  (repeat' split) <;> simp [Still]

@[simp] theorem State.takeRequest_still (s : State) (src req : Nat) : Still (State.takeRequest s src req) s := by
  unfold State.takeRequest; try dsimp only
  (repeat' split) <;> simp [Still]

@[simp] theorem State.forwardRequests_still (s : State) (old : Option Nat) : Still (State.forwardRequests s old) s := by
  unfold State.forwardRequests; try dsimp only
  (repeat' split) <;> first | (simp [Still]; done) | (refine Still_trans (foldl_Still _ (fun s a => ?_) _ _) ?_ <;> (try dsimp only) <;> (repeat' split) <;> simp [Still])

@[simp] theorem State.joinPick_root (s : State) (counter : Nat) (leader : Option Nat) (parent : Option Nat) (depth period window : Nat) : Root (State.joinPick s counter leader parent depth period window) s := by
  unfold State.joinPick; try dsimp only
  (repeat' split) <;> simp [Root]

@[simp] theorem State.joinPick_pair (s : State) (counter : Nat) (leader : Option Nat) (parent : Option Nat) (depth period window : Nat) : Pair (State.joinPick s counter leader parent depth period window) s := by
  unfold State.joinPick; try dsimp only
  (repeat' split) <;> simp [Pair]

@[simp] theorem State.takeParent_still (s : State) (leader : Nat) (b : Bytes) (theta : Int) : Still (State.takeParent s leader b theta) s := by
  unfold State.takeParent; try dsimp only
  (repeat' split) <;> first | (simp [Still]; done) | (refine Still_trans (foldl_Still _ (fun s a => ?_) _ _) ?_ <;> (try dsimp only) <;> (repeat' split) <;> simp [Still])

@[simp] theorem State.followMarker_still (s : State) (leader port : Nat) (b : Bytes) (theta : Int) (before : Option Nat) : Still (State.followMarker s leader port b theta before) s := by
  unfold State.followMarker; try dsimp only
  (repeat' split) <;> first | (simp [Still]; done) | (refine Still_trans (foldl_Still _ (fun s a => ?_) _ _) ?_ <;> (try dsimp only) <;> (repeat' split) <;> simp [Still])

@[simp] theorem State.takeMarker_root (s : State) (port : Nat) (b : Bytes) (arrival : Int) : Root (State.takeMarker s port b arrival) s := by
  unfold State.takeMarker; try dsimp only
  (repeat' split) <;> simp [Root]

@[simp] theorem State.twinMarker_still (s : State) (port n : Nat) : Still (State.twinMarker s port n) s := by
  unfold State.twinMarker; try dsimp only
  (repeat' split) <;> simp [Still]

@[simp] theorem State.trainCxl_still (s : State) (width rate : Nat) : Still (State.trainCxl s width rate) s := by
  unfold State.trainCxl; try dsimp only
  (repeat' split) <;> simp [Still]

@[simp] theorem State.requestWarm_root (s : State) : Root (State.requestWarm s) s := by
  unfold State.requestWarm; try dsimp only
  (repeat' split) <;> simp [Root]

@[simp] theorem State.hostStore_still (s : State) (a : Nat) (data : Bytes) : Still (State.hostStore s a data) s := by
  unfold State.hostStore; try dsimp only
  (repeat' split) <;> simp [Still]

@[simp] theorem State.answerRead_still (s : State) (a : Nat) (bad : Bool) : Still (State.answerRead s a bad) s := by
  unfold State.answerRead; try dsimp only
  (repeat' split) <;> simp [Still]

@[simp] theorem State.track_still (s : State) (line : Nat) : Still (State.track s line) s := by
  unfold State.track; try dsimp only
  (repeat' split) <;> simp [Still]

@[simp] theorem State.hostHold_still (s : State) (w : HostWait) : Still (State.hostHold s w) s := by
  unfold State.hostHold; try dsimp only
  (repeat' split) <;> simp [Still]

@[simp] theorem State.finishWrite_still (s : State) (a : Nat) (data : Bytes) (mask : List Bool) : Still (State.finishWrite s a data mask) s := by
  unfold State.finishWrite; try dsimp only
  (repeat' split) <;> simp [Still]

@[simp] theorem State.serveRead_still (s : State) (a : Nat) (err : ReadErr) : Still (State.serveRead s a err) s := by
  unfold State.serveRead; try dsimp only
  (repeat' split) <;> simp [Still]

@[simp] theorem State.serveWrite_still (s : State) (a : Nat) (data : Bytes) (mask : List Bool) (err : ReadErr) : Still (State.serveWrite s a data mask err) s := by
  unfold State.serveWrite; try dsimp only
  (repeat' split) <;> simp [Still]

@[simp] theorem State.serveZeros_still (s : State) : Still (State.serveZeros s) s := by
  unfold State.serveZeros; try dsimp only
  (repeat' split) <;> simp [Still]

@[simp] theorem State.hostGo_still (s : State) : Still (State.hostGo s) s := by
  unfold State.hostGo; try dsimp only
  refine foldl_Still _ (fun s a => ?_) _ _; try dsimp only
  (repeat' split) <;> simp [Still]

@[simp] theorem State.runWaits_still (s : State) : Still (State.runWaits s) s := by
  unfold State.runWaits; try dsimp only
  refine foldl_Still _ (fun s a => ?_) _ _; try dsimp only
  (repeat' split) <;> simp [Still]

@[simp] theorem State.resume_still (s : State) : Still (State.resume s) s := by
  unfold State.resume; try dsimp only
  (repeat' split) <;> simp [Still]

@[simp] theorem State.linkTurn_root (s t : State) : Root (s.linkTurn t) t := by
  unfold State.linkTurn; (repeat' split) <;> simp [Root]

@[simp] theorem State.linkTurn_pair (s t : State) : Pair (s.linkTurn t) t := by
  unfold State.linkTurn; (repeat' split) <;> simp [Pair]

@[simp] theorem State.interrupt_still (s : State) (v : Nat) : Still (State.interrupt s v) s := by
  unfold State.interrupt; try dsimp only
  (repeat' split) <;> simp [Still]

@[simp] theorem State.emergency_root (s : State) (code detail : Nat) : Root (State.emergency s code detail) s := by
  unfold State.emergency; try dsimp only
  (repeat' split) <;> simp [Root]

@[simp] theorem State.sensorEvents_still (s : State) : Still (State.sensorEvents s) s := by
  unfold State.sensorEvents; try dsimp only
  (repeat' split) <;> simp [Still]

@[simp] theorem State.snapshot_root (s : State) (r : Readings) : Root (State.snapshot s r) s := by
  unfold State.snapshot; try dsimp only
  (repeat' split) <;> simp [Root]

@[simp] theorem State.throttle_still (s : State) (r : Readings) : Still (State.throttle s r) s := by
  unfold State.throttle; try dsimp only
  (repeat' split) <;> simp [Still]

@[simp] theorem State.latchStep_root (s : State) : Root (State.latchStep s) s := by
  unfold State.latchStep; try dsimp only
  (repeat' split) <;> simp [Root]

@[simp] theorem State.latchStep_pair (s : State) : Pair (State.latchStep s) s := by
  unfold State.latchStep; try dsimp only
  (repeat' split) <;> simp [Pair]

@[simp] theorem State.setInput_still (s : State) (i : Nat) (f : Input → Input) : Still (State.setInput s i f) s := by
  unfold State.setInput; try dsimp only
  (repeat' split) <;> simp [Still]

@[simp] theorem State.inputLost_root (s : State) (i : Nat) : Root (State.inputLost s i) s := by
  unfold State.inputLost; try dsimp only
  (repeat' split) <;> simp [Root]

@[simp] theorem Flash.tear_rpmc (f : Flash) : f.tear.rpmc = f.rpmc := rfl

@[simp] theorem State.respond_still (s : State) (c : MboxCmd) (result detail : Nat) (beat : Option Nat) (resp : Bytes) : Still (State.respond s c result detail beat resp) s := by
  unfold State.respond; try dsimp only
  (repeat' split) <;> simp [Still]

@[simp] theorem State.respondOk_still (s : State) (c : MboxCmd) (resp : Bytes) : Still (State.respondOk s c resp) s := by
  unfold State.respondOk; try dsimp only
  (repeat' split) <;> simp [Still]

@[simp] theorem State.respondFailed_still (s : State) (c : MboxCmd) (code : Nat) : Still (State.respondFailed s c code) s := by
  unfold State.respondFailed; try dsimp only
  (repeat' split) <;> simp [Still]

@[simp] theorem State.accept_still (s : State) (c : MboxCmd) (f : State → State) (hf : ∀ s, Still (f s) s) : Still (State.accept s c f) s := by
  unfold State.accept; (try dsimp only)
  (repeat' split) <;> first | exact hf _ | simp [Still]

@[simp] theorem State.issue_still (s : State) (src : MboxSource) (op : Nat) : Still (State.issue s src op) s := by
  unfold State.issue; try dsimp only
  (repeat' split) <;> simp [Still]

@[simp] theorem State.getInfoCmd_still (s : State) (src : MboxSource) : Still (State.getInfoCmd s src) s := by
  unfold State.getInfoCmd; try dsimp only
  (repeat' split) <;> simp [Still]

@[simp] theorem State.getBootRecordCmd_still (s : State) (src : MboxSource) : Still (State.getBootRecordCmd s src) s := by
  unfold State.getBootRecordCmd; try dsimp only
  (repeat' split) <;> simp [Still]

@[simp] theorem State.readSensorsCmd_still (s : State) (src : MboxSource) : Still (State.readSensorsCmd s src) s := by
  unfold State.readSensorsCmd; try dsimp only
  (repeat' split) <;> simp [Still]

@[simp] theorem State.readSettingCmd_still (s : State) (src : MboxSource) : Still (State.readSettingCmd s src) s := by
  unfold State.readSettingCmd; try dsimp only
  (repeat' split) <;> simp [Still]

@[simp] theorem State.coldRequest_root (s : State) : Root (State.coldRequest s) s := by
  unfold State.coldRequest; try dsimp only
  (repeat' split) <;> simp [Root]

@[simp] theorem State.coldRequest_pair (s : State) : Pair (State.coldRequest s) s := by
  unfold State.coldRequest; try dsimp only
  (repeat' split) <;> simp [Pair]

@[simp] theorem State.setLimit_still (s : State) (w : Nat) : Still (State.setLimit s w) s := by
  unfold State.setLimit; try dsimp only
  (repeat' split) <;> simp [Still]

@[simp] theorem State.resetEffect_root (s : State) (c : MboxCmd) : Root (State.resetEffect s c) s := by
  unfold State.resetEffect; try dsimp only
  (repeat' split) <;> simp [Root]

@[simp] theorem State.planeEffect_still (s : State) (c : MboxCmd) : Still (State.planeEffect s c) s := by
  unfold State.planeEffect; try dsimp only
  (repeat' split) <;> simp [Still]

@[simp] theorem State.windowEffect_root (s : State) (c : MboxCmd) : Root (State.windowEffect s c) s := by
  unfold State.windowEffect; try dsimp only
  (repeat' split) <;> simp [Root]

@[simp] theorem State.takeBeatCommands_root (s : State) : Root (State.takeBeatCommands s) s := by
  unfold State.takeBeatCommands; try dsimp only
  (repeat' split) <;> simp [Root]

@[simp] theorem State.enterStandby_root (s : State) : Root (State.enterStandby s) s := by
  unfold State.enterStandby; try dsimp only
  (repeat' split) <;> simp [Root]

@[simp] theorem State.enterStandby_pair (s : State) : Pair (State.enterStandby s) s := by
  unfold State.enterStandby; try dsimp only
  (repeat' split) <;> simp [Pair]

@[simp] theorem State.warmDraft_still (s : State) : Still (State.warmDraft s) s := by
  unfold State.warmDraft; try dsimp only
  (repeat' split) <;> simp [Still]

@[simp] theorem State.leaveStandby_root (s : State) : Root (State.leaveStandby s) s := by
  unfold State.leaveStandby; try dsimp only
  (repeat' split) <;> simp [Root]

@[simp] theorem State.leaveStandby_pair (s : State) : Pair (State.leaveStandby s) s := by
  unfold State.leaveStandby; try dsimp only
  (repeat' split) <;> simp [Pair]

@[simp] theorem State.powerState_root (s : State) (c : MboxCmd) : Root (State.powerState s c) s := by
  unfold State.powerState; try dsimp only
  (repeat' split) <;> simp [Root]

@[simp] theorem State.powerState_pair (s : State) (c : MboxCmd) : Pair (State.powerState s c) s := by
  unfold State.powerState; try dsimp only
  (repeat' split) <;> simp [Pair]

@[simp] theorem State.lateEffect_root (s : State) (c : MboxCmd) : Root (State.lateEffect s c) s := by
  unfold State.lateEffect; try dsimp only
  (repeat' split) <;> simp [Root]

@[simp] theorem State.lateEffect_pair (s : State) (c : MboxCmd) : Pair (State.lateEffect s c) s := by
  unfold State.lateEffect; try dsimp only
  (repeat' split) <;> simp [Pair]

@[simp] theorem State.lateCommands_root (s : State) : Root (State.lateCommands s) s := by
  unfold State.lateCommands; try dsimp only
  (repeat' split) <;> simp [Root]

@[simp] theorem State.lateCommands_pair (s : State) : Pair (State.lateCommands s) s := by
  unfold State.lateCommands; try dsimp only
  (repeat' split) <;> simp [Pair]

@[simp] theorem State.beatCommand_root (s : State) (c : MboxCmd) : Root (State.beatCommand s c) s := by
  unfold State.beatCommand State.accept; dsimp only
  (repeat' split) <;> simp [Root]

@[simp] theorem State.resetCmd_root (s : State) (src : MboxSource) : Root (State.resetCmd s src) s := by
  unfold State.resetCmd; try dsimp only
  (repeat' split) <;> simp [Root]

@[simp] theorem State.powerStateCmd_root (s : State) (src : MboxSource) : Root (State.powerStateCmd s src) s := by
  unfold State.powerStateCmd; try dsimp only
  (repeat' split) <;> simp [Root]

@[simp] theorem State.powerLimitCmd_root (s : State) (src : MboxSource) : Root (State.powerLimitCmd s src) s := by
  unfold State.powerLimitCmd; try dsimp only
  (repeat' split) <;> simp [Root]

@[simp] theorem State.clockCapCmd_root (s : State) (src : MboxSource) : Root (State.clockCapCmd s src) s := by
  unfold State.clockCapCmd; try dsimp only
  (repeat' split) <;> simp [Root]

@[simp] theorem State.scrubRateCmd_root (s : State) (src : MboxSource) : Root (State.scrubRateCmd s src) s := by
  unfold State.scrubRateCmd; try dsimp only
  (repeat' split) <;> simp [Root]

@[simp] theorem State.laserRemoveCmd_root (s : State) (src : MboxSource) : Root (State.laserRemoveCmd s src) s := by
  unfold State.laserRemoveCmd; try dsimp only
  (repeat' split) <;> simp [Root]

@[simp] theorem State.imageActivateCmd_root (s : State) (src : MboxSource) : Root (State.imageActivateCmd s src) s := by
  unfold State.imageActivateCmd; try dsimp only
  (repeat' split) <;> simp [Root]

@[simp] theorem State.startLong_still (s : State) (c : MboxCmd) : Still (State.startLong s c) s := by
  unfold State.startLong; try dsimp only
  (repeat' split) <;> simp [Still]

@[simp] theorem State.readBootDraft_still (s0 : State) (c : MboxCmd) (host : HostView) : Still (State.readBootDraft s0 c host) s0 := by
  unfold State.readBootDraft; try dsimp only
  (repeat' split) <;> simp [Still]

@[simp] theorem State.settingWriteCmd_still (s : State) (src : MboxSource) : Still (State.settingWriteCmd s src) s := by
  unfold State.settingWriteCmd; try dsimp only
  (repeat' split) <;> simp [Still]

@[simp] theorem State.startImage_still (s : State) : Still (State.startImage s) s := by
  unfold State.startImage; try dsimp only
  (repeat' split) <;> simp [Still]

@[simp] theorem State.imageDataCmd_still (s : State) (src : MboxSource) : Still (State.imageDataCmd s src) s := by
  unfold State.imageDataCmd; try dsimp only
  (repeat' split) <;> simp [Still, apply_ite State.pending, apply_ite State.flash, apply_ite Flash.rpmc, apply_ite State.glb, apply_ite Glb.address, apply_ite State.proto, apply_ite Proto.straps, apply_ite State.pick, apply_ite Pick.counter, apply_ite Pick.phase, apply_ite Pick.step, apply_ite State.twin, apply_ite Twin.state, apply_ite Glb.state]

@[simp] theorem State.verifyImage_still (s : State) : Still s.verifyImage.1 s := by
  unfold State.verifyImage; dsimp only
  split <;> simp [Still]

@[simp] theorem State.imageVerifyCmd_still (s : State) (src : MboxSource) : Still (State.imageVerifyCmd s src) s := by
  unfold State.imageVerifyCmd; dsimp only
  refine Still_trans (State.accept_still _ _ _ fun s => ?_) (State.issue_still _ _ _)
  split
  · exact Still_trans (State.respondOk_still _ _ _) (State.verifyImage_still _)
  · exact Still_trans (State.respondFailed_still _ _ _) (State.verifyImage_still _)

@[simp] theorem State.fwCommitCmd_pend (s : State) (src : MboxSource) : Pend (State.fwCommitCmd s src) s := by
  unfold State.fwCommitCmd State.accept; dsimp only
  (repeat' split) <;> simp [Pend]

@[simp] theorem State.fwCommitCmd_site (s : State) (src : MboxSource) : Site (State.fwCommitCmd s src) s := by
  unfold State.fwCommitCmd State.accept; dsimp only
  (repeat' split) <;> simp [Site]

@[simp] theorem State.fwCommitCmd_clock (s : State) (src : MboxSource) : Clock (State.fwCommitCmd s src) s := by
  unfold State.fwCommitCmd State.accept; dsimp only
  (repeat' split) <;> simp [Clock]

@[simp] theorem State.fwCommitCmd_pair (s : State) (src : MboxSource) : Pair (State.fwCommitCmd s src) s := by
  unfold State.fwCommitCmd State.accept; dsimp only
  (repeat' split) <;> simp [Pair]

@[simp] theorem State.debugChallengeCmd_still (s : State) (src : MboxSource) : Still (State.debugChallengeCmd s src) s := by
  unfold State.debugChallengeCmd; try dsimp only
  (repeat' split) <;> simp [Still]

@[simp] theorem State.debugUnlockCmd_still (s : State) (src : MboxSource) : Still (State.debugUnlockCmd s src) s := by
  unfold State.debugUnlockCmd; try dsimp only
  (repeat' split) <;> simp [Still, apply_ite State.pending, apply_ite State.flash, apply_ite Flash.rpmc, apply_ite State.glb, apply_ite Glb.address, apply_ite State.proto, apply_ite Proto.straps, apply_ite State.pick, apply_ite Pick.counter, apply_ite Pick.phase, apply_ite Pick.step, apply_ite State.twin, apply_ite Twin.state, apply_ite Glb.state]

@[simp] theorem State.endLong_still (s : State) (c : MboxCmd) (resp : Bytes) : Still (State.endLong s c resp) s := by
  unfold State.endLong; try dsimp only
  (repeat' split) <;> simp [Still]

@[simp] theorem State.clearCount_still (s : State) : Still (State.clearCount s) s := by
  unfold State.clearCount; try dsimp only
  (repeat' split) <;> simp [Still]

@[simp] theorem State.unknownOp_still (s : State) (c : MboxCmd) : Still (State.unknownOp s c) s := by
  unfold State.unknownOp; try dsimp only
  (repeat' split) <;> simp [Still]

@[simp] theorem State.mailboxGo_pend (s : State) : Pend (State.mailboxGo s) s := by
  unfold State.mailboxGo
  split <;> first | (simp [Pend]; done) | (unfold State.accept; (repeat' split) <;> simp [Pend])

@[simp] theorem State.mailboxGo_site (s : State) : Site (State.mailboxGo s) s := by
  unfold State.mailboxGo
  split <;> first | (simp [Site]; done) | (unfold State.accept; (repeat' split) <;> simp [Site])

@[simp] theorem State.announce_still (s : State) : Still (State.announce s) s := by
  unfold State.announce; try dsimp only
  (repeat' split) <;> simp [Still]

@[simp] theorem State.sendMarkers_still (s : State) : Still (State.sendMarkers s) s := by
  unfold State.sendMarkers; try dsimp only
  (repeat' split) <;> simp [Still]

@[simp] theorem State.pairings_root (s : State) : Root (State.pairings s) s := by
  unfold State.pairings; try dsimp only
  (repeat' split) <;> simp [Root]

@[simp] theorem State.pairings_clock (s : State) : Clock (State.pairings s) s := by
  unfold State.pairings; try dsimp only
  (repeat' split) <;> simp [Clock]

@[simp] theorem State.helloBack_still (s : State) : Still (State.helloBack s) s := by
  unfold State.helloBack; try dsimp only
  (repeat' split) <;> simp [Still]

@[simp] theorem State.copyAgain_still (s : State) : Still (State.copyAgain s) s := by
  unfold State.copyAgain; try dsimp only
  (repeat' split) <;> simp [Still]

@[simp] theorem State.countShares_still (s : State) (d : Draft) : Still (State.countShares s d) s := by
  unfold State.countShares; try dsimp only
  (repeat' split) <;> simp [Still]

@[simp] theorem State.decideSlots_still (s : State) : Still (State.decideSlots s) s := by
  unfold State.decideSlots; try dsimp only
  (repeat' split) <;> simp [Still]

@[simp] theorem State.sendEntries_still (s : State) : Still (State.sendEntries s) s := by
  unfold State.sendEntries; try dsimp only
  (repeat' split) <;> simp [Still]

@[simp] theorem State.turnGroups_still (s : State) : Still (State.turnGroups s) s := by
  unfold State.turnGroups; try dsimp only
  (repeat' split) <;> simp [Still]

@[simp] theorem State.dueOrder_still (s : State) (o : OrderSt) : Still (State.dueOrder s o) s := by
  unfold State.dueOrder; try dsimp only
  (repeat' split) <;> simp [Still]

@[simp] theorem State.applyOrders_still (s : State) : Still (State.applyOrders s) s := by
  unfold State.applyOrders; try dsimp only
  (repeat' split) <;> simp [Still]

@[simp] theorem State.reissue_still (s : State) (o : OrderSt) : Still (State.reissue s o) s := by
  unfold State.reissue; try dsimp only
  (repeat' split) <;> simp [Still]

@[simp] theorem State.applyApertures_still (s : State) : Still (State.applyApertures s) s := by
  unfold State.applyApertures; try dsimp only
  (repeat' split) <;> simp [Still]

@[simp] theorem State.applyKvOrders_still (s : State) : Still (State.applyKvOrders s) s := by
  unfold State.applyKvOrders; dsimp only
  exact Still_trans (foldl_Still _ State.kvStarve_still _ _) (foldl_Still _ (fun s p => State.kvBeat_still _ _ _) _ _)

@[simp] theorem State.configure_root (s : State) : Root (State.configure s) s := by
  unfold State.configure; try dsimp only
  (repeat' split) <;> simp [Root]

@[simp] theorem State.configureIdle_root (s : State) : Root (State.configureIdle s) s := by
  unfold State.configureIdle; try dsimp only
  (repeat' split) <;> first | (simp [Root]; done) | (refine Root_trans (foldl_Root _ (fun s a => ?_) _ _) ?_ <;> (try dsimp only) <;> (repeat' split) <;> simp [Root])

@[simp] theorem State.latchPeriod_still (s : State) : Still (State.latchPeriod s) s := by
  unfold State.latchPeriod; try dsimp only
  (repeat' split) <;> simp [Still]

@[simp] theorem State.flogFault_still (s : State) (f : CtxFault) (subsumed : Bool) : Still (State.flogFault s f subsumed) s := by
  unfold State.flogFault; try dsimp only
  (repeat' split) <;> simp [Still]

@[simp] theorem State.teardown_still (s : State) (x : Nat) : Still (State.teardown s x) s := by
  unfold State.teardown; try dsimp only
  (repeat' split) <;> simp [Still]

@[simp] theorem State.restartOne_still (s : State) (x : Nat) : Still (State.restartOne s x) s := by
  unfold State.restartOne; try dsimp only
  (repeat' split) <;> simp [Still]

@[simp] theorem State.settleContexts_still (s : State) : Still (State.settleContexts s) s := by
  unfold State.settleContexts; try dsimp only
  (repeat' split) <;> simp [Still]

@[simp] theorem State.settleAgain_still (s : State) : Still (State.settleAgain s) s := by
  unfold State.settleAgain; try dsimp only
  refine foldl_Still _ (fun s a => ?_) _ _; try dsimp only
  (repeat' split) <;> simp [Still]

@[simp] theorem State.switchIn_still (s : State) : Still (State.switchIn s) s := by
  unfold State.switchIn; try dsimp only
  (repeat' split) <;> simp [Still]

@[simp] theorem State.sendNotices_still (s : State) : Still (State.sendNotices s) s := by
  unfold State.sendNotices; try dsimp only
  (repeat' split) <;> simp [Still]

@[simp] theorem State.holdItems_still (s : State) : Still (State.holdItems s) s := by
  unfold State.holdItems; try dsimp only
  (repeat' split) <;> simp [Still]

@[simp] theorem State.recopyChanged_still (s0 : State) : Still (State.recopyChanged s0) s0 := by
  unfold State.recopyChanged; try dsimp only
  (repeat' split) <;> simp [Still]

@[simp] theorem State.ctxResetOrder_still (s : State) (j : Nat) : Still (State.ctxResetOrder s j) s := by
  unfold State.ctxResetOrder; try dsimp only
  (repeat' split) <;> simp [Still]

@[simp] theorem State.resetHarness_still (s : State) (h : Nat) : Still (State.resetHarness s h) s := by
  unfold State.resetHarness; try dsimp only
  (repeat' split) <;> first | (simp [Still]; done) | (refine Still_trans (foldl_Still _ (fun s a => ?_) _ _) ?_ <;> (try dsimp only) <;> (repeat' split) <;> simp [Still])

@[simp] theorem State.clearHarness_still (s : State) (h : Nat) : Still (State.clearHarness s h) s := by
  unfold State.clearHarness; try dsimp only
  (repeat' split) <;> first | (simp [Still]; done) | (refine Still_trans (foldl_Still _ (fun s a => ?_) _ _) ?_ <;> (try dsimp only) <;> (repeat' split) <;> simp [Still])

@[simp] theorem State.resetContexts_still (s : State) : Still (State.resetContexts s) s := by
  unfold State.resetContexts; try dsimp only
  (repeat' split) <;> first | (simp [Still]; done) | (refine Still_trans (foldl_Still _ (fun s a => ?_) _ _) ?_ <;> (try dsimp only) <;> (repeat' split) <;> simp [Still])

@[simp] theorem State.harnessResets_still (s : State) : Still (State.harnessResets s) s := by
  unfold State.harnessResets; try dsimp only
  (repeat' split) <;> simp [Still]

@[simp] theorem State.sweep_still (s : State) : Still (State.sweep s) s := by
  unfold State.sweep; try dsimp only
  (repeat' split) <;> simp [Still]

@[simp] theorem State.sendInterrupts_still (s : State) : Still (State.sendInterrupts s) s := by
  unfold State.sendInterrupts; try dsimp only
  refine foldl_Still _ (fun s a => ?_) _ _; try dsimp only
  (repeat' split) <;> simp [Still]

@[simp] theorem State.commitCore_still (s : State) : Still (State.commitCore s) s := by
  unfold State.commitCore; try dsimp only
  (repeat' split) <;> simp [Still]

@[simp] theorem State.reply_still (s : State) (b : Binding) (cmd : String) (vals : List Nat) : Still (State.reply s b cmd vals) s := by
  unfold State.reply; try dsimp only
  (repeat' split) <;> simp [Still]

@[simp] theorem State.setSpdm_still (s : State) (doe : Bool) (st : SpdmState) : Still (State.setSpdm s doe st) s := by
  unfold State.setSpdm; try dsimp only
  (repeat' split) <;> simp [Still]

@[simp] theorem State.spdmSend_still (s : State) (doe : Bool) (cmd : String) (vals : List Nat) : Still (State.spdmSend s doe cmd vals) s := by
  unfold State.spdmSend; try dsimp only
  (repeat' split) <;> simp [Still]

@[simp] theorem State.spdmSigned_still (s : State) (doe : Bool) (cmd : String) (vals : List Nat) : Still (State.spdmSigned s doe cmd vals) s := by
  unfold State.spdmSigned; try dsimp only
  (repeat' split) <;> simp [Still]

@[simp] theorem State.showIde_still (s : State) : Still (State.showIde s) s := by
  unfold State.showIde; try dsimp only
  (repeat' split) <;> simp [Still]

@[simp] theorem State.setCount_still (s : State) (n : Nat) : Still (State.setCount s n) s := by
  unfold State.setCount; try dsimp only
  (repeat' split) <;> simp [Still]

@[simp] theorem State.bootStep_still (s : State) (n : Nat) : Still (State.bootStep s n) s := by
  unfold State.bootStep; try dsimp only
  (repeat' split) <;> simp [Still]

@[simp] theorem State.bootHalt_root (s : State) (code : Nat) : Root (State.bootHalt s code) s := by
  unfold State.bootHalt; try dsimp only
  (repeat' split) <;> simp [Root]

@[simp] theorem State.bootHalt_pair (s : State) (code : Nat) : Pair (State.bootHalt s code) s := by
  unfold State.bootHalt; try dsimp only
  (repeat' split) <;> simp [Pair]

@[simp] theorem State.bootFail_still (s : State) (code : Nat) : Still (State.bootFail s code) s := by
  unfold State.bootFail; try dsimp only
  (repeat' split) <;> simp [Still]

@[simp] theorem State.enterRecovery_root (s : State) : Root (State.enterRecovery s) s := by
  unfold State.enterRecovery; try dsimp only
  (repeat' split) <;> simp [Root]

@[simp] theorem State.enterRecovery_pair (s : State) : Pair (State.enterRecovery s) s := by
  unfold State.enterRecovery; try dsimp only
  (repeat' split) <;> simp [Pair]

@[simp] theorem State.trainPorts_still (s : State) (up : List Nat) (lambdas : List Nat) : Still (State.trainPorts s up lambdas) s := by
  unfold State.trainPorts; try dsimp only
  (repeat' split) <;> simp [Still]

@[simp] theorem State.loadBootDraft_still (s : State) : Still (State.loadBootDraft s) s := by
  unfold State.loadBootDraft; try dsimp only
  (repeat' split) <;> simp [Still]

@[simp] theorem State.join_root (s : State) (m : Option JoinMarker) : Root (State.join s m) s := by
  unfold State.join; try dsimp only
  (repeat' split) <;> simp [Root]

@[simp] theorem State.join_pair (s : State) (m : Option JoinMarker) : Pair (State.join s m) s := by
  unfold State.join; try dsimp only
  (repeat' split) <;> simp [Pair]

@[simp] theorem State.coldLinks_pend (s : State) (o : ColdObs) (address lens : List Nat) : Pend (State.coldLinks s o address lens) s := by
  unfold State.coldLinks; try dsimp only
  (repeat' split) <;> simp [Pend]

@[simp] theorem State.coldLinks_rpmc (s : State) (o : ColdObs) (address lens : List Nat) : Rpmc (State.coldLinks s o address lens) s := by
  unfold State.coldLinks; try dsimp only
  (repeat' split) <;> simp [Rpmc]

@[simp] theorem State.coldSteps_pend (s : State) (o : ColdObs) (set : Nat) : Pend (State.coldSteps s o set) s := by
  unfold State.coldSteps; try dsimp only
  (repeat' split) <;> simp [Pend]

@[simp] theorem State.coldSteps_rpmc (s : State) (o : ColdObs) (set : Nat) : Rpmc (State.coldSteps s o set) s := by
  unfold State.coldSteps; try dsimp only
  (repeat' split) <;> simp [Rpmc]

@[simp] theorem State.coldBase_pend (s : State) (straps : Nat) : Pend (State.coldBase s straps) s := by
  unfold State.coldBase; try dsimp only
  (repeat' split) <;> simp [Pend]

@[simp] theorem State.coldBase_rpmc (s : State) (straps : Nat) : Rpmc (State.coldBase s straps) s := by
  unfold State.coldBase; try dsimp only
  (repeat' split) <;> simp [Rpmc]

@[simp] theorem State.warmSteps_root (s : State) (o : WarmObs) : Root (State.warmSteps s o) s := by
  unfold State.warmSteps; dsimp only
  split <;> simp [Root, -List.reduceReplicate]

@[simp] theorem State.warmSteps_pair (s : State) (o : WarmObs) : Pair (State.warmSteps s o) s := by
  unfold State.warmSteps; dsimp only
  split <;> simp [Pair, -List.reduceReplicate]

@[simp] theorem State.writeComp_still (s : State) (off m v : Nat) : Still (State.writeComp s off m v) s := by
  unfold State.writeComp; try dsimp only
  (repeat' split) <;> simp [Still]

@[simp] theorem State.ringOn_still (s : State) (ring : Nat) : Still (State.ringOn s ring) s := by
  unfold State.ringOn; try dsimp only
  (repeat' split) <;> simp [Still]

@[simp] theorem State.ringOff_still (s : State) (ring : Nat) : Still (State.ringOff s ring) s := by
  unfold State.ringOff; try dsimp only
  (repeat' split) <;> simp [Still]

@[simp] theorem State.writeRing_still (s : State) (k m v : Nat) : Still (State.writeRing s k m v) s := by
  unfold State.writeRing; try dsimp only
  (repeat' split) <;> simp [Still]

@[simp] theorem State.writeGlb_root (s : State) (off : Nat) (m : Nat) (v : Nat) : Root (State.writeGlb s off m v) s := by
  unfold State.writeGlb; try dsimp only
  (repeat' split) <;> simp [Root]

@[simp] theorem State.writeGlb_pair (s : State) (off : Nat) (m : Nat) (v : Nat) : Pair (State.writeGlb s off m v) s := by
  unfold State.writeGlb; try dsimp only
  (repeat' split) <;> simp [Pair]

@[simp] theorem State.writeDraft_root (s : State) (off m v : Nat) : Root (State.writeDraft s off m v) s := by
  unfold State.writeDraft; try dsimp only
  (repeat' split) <;> first | (simp [Root]; done) | (refine Root_trans (foldl_Root _ (fun s a => ?_) _ _) ?_ <;> (try dsimp only) <;> (repeat' split) <;> simp [Root])

@[simp] theorem State.writeDraft_clock (s : State) (off m v : Nat) : Clock (State.writeDraft s off m v) s := by
  unfold State.writeDraft; try dsimp only
  (repeat' split) <;> first | (simp [Clock]; done) | (refine Clock_trans (foldl_Clock _ (fun s a => ?_) _ _) ?_ <;> (try dsimp only) <;> (repeat' split) <;> simp [Clock])

@[simp] theorem State.writeTwin_still (s : State) (off m v : Nat) : Still (State.writeTwin s off m v) s := by
  unfold State.writeTwin; try dsimp only
  (repeat' split) <;> simp [Still]

@[simp] theorem State.writeOpt_root (s : State) (off m v : Nat) : Root (State.writeOpt s off m v) s := by
  unfold State.writeOpt; try dsimp only
  (repeat' split) <;> simp [Root]

@[simp] theorem State.writeOpt_clock (s : State) (off m v : Nat) : Clock (State.writeOpt s off m v) s := by
  unfold State.writeOpt; try dsimp only
  (repeat' split) <;> simp [Clock]

@[simp] theorem State.writeMgt_pend (s : State) (off m v : Nat) : Pend (State.writeMgt s off m v) s := by
  unfold State.writeMgt; try dsimp only
  (repeat' split) <;> simp [Pend]

@[simp] theorem State.writeMgt_site (s : State) (off m v : Nat) : Site (State.writeMgt s off m v) s := by
  unfold State.writeMgt; try dsimp only
  (repeat' split) <;> simp [Site]

@[simp] theorem State.writeBlock_pend (s : State) (off m v : Nat) : Pend (State.writeBlock s off m v) s := by
  unfold State.writeBlock; try dsimp only
  (repeat' split) <;> simp [Pend]

@[simp] theorem State.writeBlock_site (s : State) (off m v : Nat) : Site (State.writeBlock s off m v) s := by
  unfold State.writeBlock; try dsimp only
  (repeat' split) <;> simp [Site]

@[simp] theorem State.writeMsix_still (s : State) (off m v : Nat) : Still (State.writeMsix s off m v) s := by
  unfold State.writeMsix; try dsimp only
  (repeat' split) <;> simp [Still]

@[simp] theorem State.refuseAccess_still (s : State) : Still (State.refuseAccess s) s := by
  unfold State.refuseAccess; try dsimp only
  (repeat' split) <;> simp [Still]

@[simp] theorem State.orderRow_still (s : State) (j op : Nat) : Still (State.orderRow s j op) s := by
  unfold State.orderRow; try dsimp only
  (repeat' split) <;> simp [Still]

@[simp] theorem State.kvRow_still (s : State) (j op : Nat) : Still (State.kvRow s j op) s := by
  unfold State.kvRow; try dsimp only
  (repeat' split) <;> simp [Still]

theorem State.mirrorWrites_still (s : State) (ws : List MirrorWrite) (t : State) (e : s.mirrorWrites ws = some t) : Still t s := by
  unfold State.mirrorWrites at e
  induction ws generalizing s with
  | nil => cases e; exact ⟨rfl, rfl, rfl, rfl, rfl, rfl, rfl, rfl, rfl⟩
  | cons w ws ih =>
    rw [List.foldlM_cons] at e
    obtain ⟨u, hu, e⟩ := Option.bind_eq_some_iff.mp e
    obtain ⟨c, -, rfl⟩ := Option.map_eq_some_iff.mp hu
    exact Still_trans (ih _ e) ⟨rfl, rfl, rfl, rfl, rfl, rfl, rfl, rfl, rfl⟩

end Sys2Proof.Machine
end

