-- ==== Sys2Proof/Laws/Commands.lean ====
section
/-! SUPPORT. Sys2Proof/Laws/Commands.lean: what each command leaves alone when it answers a next state, by the relations of
Laws/Frame.lean. -/

set_option linter.unusedSimpArgs false

namespace Sys2Proof.Machine

theorem State.onVector_still (s : State) (t : TaskRef) (ends : List Nat) (f : Core → Nat → List (Nat × Bytes) × Nat) (s' : State)
    (h : s.onVector t ends f = .next s') : Still s' s := by
  unfold State.onVector at h; try dsimp only at h
  (repeat' split at h) <;> cases h <;> simp [Still]

theorem takeOne_still (host : HostView) (tails : List (Option Nat)) (p : State × Nat × List Nat) (r : Nat) :
    Still (takeOne host tails p r).1 p.1 := by
  unfold takeOne; try dsimp only
  (repeat' split) <;> simp [Still]

theorem takePasses_still (host : HostView) (tails : List (Option Nat)) (order : List Nat) (fuel : Nat) (p : State × Nat × List Nat) :
    Still (takePasses host tails order fuel p).1 p.1 := by
  induction fuel generalizing p with
  | zero => exact ⟨rfl, rfl, rfl, rfl, rfl, rfl, rfl, rfl, rfl⟩
  | succ n ih =>
    have h := foldl_pair (takeOne host tails) (takeOne_still host tails) order p
    simp only [takePasses]
    split
    · exact h
    · exact Still_trans (ih _) h

theorem takePasses_from (host : HostView) (tails : List (Option Nat)) (order : List Nat) (fuel : Nat) (s : State) (n : Nat) (l : List Nat) :
    Still (takePasses host tails order fuel (s, n, l)).1 s := takePasses_still host tails order fuel (s, n, l)

theorem readAll_still (host : HostView) (rs : List Nat) (s : State) (l : List (Option Nat)) :
    Still (rs.foldl (fun (p : State × List (Option Nat)) r =>
      let q := p.1.readControl host r
      (q.1, p.2 ++ [q.2])) (s, l)).1 s :=
  foldl_pair (fun (p : State × List (Option Nat)) r => ((p.1.readControl host r).1, p.2 ++ [(p.1.readControl host r).2]))
    (fun p _ => State.readControl_still p.1 host _) rs (s, l)

theorem State.selectSet_root (fuel : Nat) (s : State) : Root (State.selectSet fuel s).1 s := by
  induction fuel generalizing s with
  | zero => simp [State.selectSet, Root]
  | succ n ih =>
    unfold State.selectSet; dsimp only
    split
    · simp [Root]
    · (repeat' split) <;> first | exact Root_trans (ih _) (by simp [Root]) | simp [Root]

theorem execBeatWindowOpen_root (r : Readings) (s : State) (s' : State) (h : execBeatWindowOpen r s = .next s') : Root s' s := by
  unfold execBeatWindowOpen at h; try dsimp only at h
  (repeat' split at h) <;> cases h <;> simp [Root]

theorem execRingSample_root (host : HostView) (s : State) (s' : State) (h : execRingSample host s = .next s') : Root s' s := by
  unfold execRingSample at h
  split at h
  · cases h; exact ⟨rfl, rfl, rfl, rfl⟩
  dsimp only at h
  have h0 : Root (if s.operational = true then (List.range 64).foldl State.ringStop
      ((List.range 64).foldl State.resumeRing ({ s with pick := { s.pick with phase := Phase.sampled } } : State))
    else ({ s with pick := { s.pick with phase := Phase.sampled } } : State)) s := by
    generalize List.range 64 = l
    split
    · exact Root_trans (Still.root (foldl_Still _ State.ringStop_still _ _))
        (Root_trans (Still.root (foldl_Still _ State.resumeRing_still _ _)) ⟨rfl, rfl, rfl, rfl⟩)
    · exact ⟨rfl, rfl, rfl, rfl⟩
  split at h
  · cases h; exact h0
  injection h with h; subst h
  generalize 512 = fuel
  refine Root_trans (Still.root ?_) h0
  refine Still_trans (State.dropTaken_still _ _ _) ?_
  refine Still_trans (takePasses_from _ _ _ _ _ _ _) ?_
  refine Still_trans (readAll_still _ _ _ _) ?_
  exact foldl_Still _ State.startRing_still _ _

theorem execRingSample_pair (host : HostView) (s : State) (s' : State) (h : execRingSample host s = .next s') : Pair s' s := by
  unfold execRingSample at h
  split at h
  · cases h; exact rfl
  dsimp only at h
  have h0 : Pair (if s.operational = true then (List.range 64).foldl State.ringStop
      ((List.range 64).foldl State.resumeRing ({ s with pick := { s.pick with phase := Phase.sampled } } : State))
    else ({ s with pick := { s.pick with phase := Phase.sampled } } : State)) s := by
    generalize List.range 64 = l
    split
    · exact Pair_trans (Still.pair (foldl_Still _ State.ringStop_still _ _))
        (Pair_trans (Still.pair (foldl_Still _ State.resumeRing_still _ _)) rfl)
    · exact rfl
  split at h
  · cases h; exact h0
  injection h with h; subst h
  generalize 512 = fuel
  refine Pair_trans (Still.pair ?_) h0
  refine Still_trans (State.dropTaken_still _ _ _) ?_
  refine Still_trans (takePasses_from _ _ _ _ _ _ _) ?_
  refine Still_trans (readAll_still _ _ _ _) ?_
  exact foldl_Still _ State.startRing_still _ _

theorem execDecisionPoint_root (d : DecisionInputs) (s : State) (s' : State) (h : execDecisionPoint d s = .next s') : Root s' s := by
  unfold execDecisionPoint at h; try dsimp only at h
  (repeat' split at h) <;> cases h <;> simp [Root]

theorem execPlacementDecide_root (s : State) (s' : State) (h : execPlacementDecide s = .next s') : Root s' s := by
  unfold execPlacementDecide at h; try dsimp only at h
  (repeat' split at h) <;> cases h <;> simp [Root]

theorem execPlacementDecide_pair (s : State) (s' : State) (h : execPlacementDecide s = .next s') : Pair s' s := by
  unfold execPlacementDecide at h; try dsimp only at h
  (repeat' split at h) <;> cases h <;> simp [Pair]

theorem beatStep_still (s : State) (f : State → State) (h : Still (f s) s) : Still (s.beatStep f) s := by
  simpa [Still] using h

theorem execSealDeadline_root (confirmed : List (Nat × Nat)) (s : State) (s' : State) (h : execSealDeadline confirmed s = .next s') : Root s' s := by
  unfold execSealDeadline at h
  split at h
  · cases h; exact ⟨rfl, rfl, rfl, rfl⟩
  dsimp only at h
  split at h
  · cases h; exact ⟨rfl, rfl, rfl, rfl⟩
  · have h := Host.Outcome.next.inj h
    have h1 := State.sealAll_still { s with pick := { s.pick with phase := .sealed } } confirmed
    have h2 := Still_trans (State.writeRecords_still _) (Still_trans (State.sealTwin_still _) h1)
    have h3 := Still_trans (beatStep_still _ _ (State.releaseDue_still _)) h2
    have h4 : Root { s with pick := { s.pick with phase := .sealed } } s := ⟨rfl, rfl, rfl, rfl⟩
    rw [← h]
    exact Root_trans (Still.root h3) h4

theorem execSealDeadline_pair (confirmed : List (Nat × Nat)) (s : State) (s' : State) (h : execSealDeadline confirmed s = .next s') : Pair s' s := by
  unfold execSealDeadline at h
  split at h
  · cases h; exact rfl
  dsimp only at h
  split at h
  · cases h; exact rfl
  · have h := Host.Outcome.next.inj h
    have h1 := State.sealAll_still { s with pick := { s.pick with phase := .sealed } } confirmed
    have h2 := Still_trans (State.writeRecords_still _) (Still_trans (State.sealTwin_still _) h1)
    have h3 := Still_trans (beatStep_still _ _ (State.releaseDue_still _)) h2
    have h4 : Pair { s with pick := { s.pick with phase := .sealed } } s := rfl
    rw [← h]
    exact Pair_trans (Still.pair h3) h4

theorem execConfigApply_root (s : State) (s' : State) (h : execConfigApply s = .next s') : Root s' s := by
  unfold execConfigApply at h
  split at h
  · cases h; simp [Root]
  cases h
  generalize hx : State.beatStep s _ = t
  have ht : Root t s := by
    subst hx
    refine ⟨?_, ?_, ?_, ?_⟩ <;> simp <;> split <;> simp
  dsimp only
  split <;> simp_all [Root]

theorem execClockLatch_root (s : State) (s' : State) (h : execClockLatch s = .next s') : Root s' s := by
  unfold execClockLatch at h; try dsimp only at h
  (repeat' split at h) <;> cases h <;> simp [Root]

theorem execClockLatch_pair (s : State) (s' : State) (h : execClockLatch s = .next s') : Pair s' s := by
  unfold execClockLatch at h; try dsimp only at h
  (repeat' split at h) <;> cases h <;> simp [Pair]

theorem execPickBegin_root (s : State) (s' : State) (h : execPickBegin s = .next s') : Root s' s := by
  unfold execPickBegin at h
  split at h
  · cases h; exact ⟨rfl, rfl, rfl, rfl⟩
  dsimp only at h
  have h0 : Root ({ s.sendStranded with pick := { s.sendStranded.pick with phase := Phase.span } } : State) s :=
    Root_trans (b := s.sendStranded) ⟨rfl, rfl, rfl, rfl⟩ (Still.root (State.sendStranded_still s))
  split at h
  · have h := Host.Outcome.next.inj h
    rw [← h]
    refine Root_trans (Still.root ?_) h0
    refine Still_trans (State.tellAborts_still _ _) (Still_trans (State.poolEvent_still _) (Still_trans (State.withCore_still _ _) ?_))
    exact Still_trans (foldl_Still _ State.kvExhaust_still _ _) (State.serveAll_still _)
  · cases h; exact h0

theorem execPickBegin_pair (s : State) (s' : State) (h : execPickBegin s = .next s') : Pair s' s := by
  unfold execPickBegin at h
  split at h
  · cases h; exact rfl
  dsimp only at h
  have h0 : Pair ({ s.sendStranded with pick := { s.sendStranded.pick with phase := Phase.span } } : State) s :=
    Pair_trans (b := s.sendStranded) rfl (Still.pair (State.sendStranded_still s))
  split at h
  · have h := Host.Outcome.next.inj h
    rw [← h]
    refine Pair_trans (Still.pair ?_) h0
    refine Still_trans (State.tellAborts_still _ _) (Still_trans (State.poolEvent_still _) (Still_trans (State.withCore_still _ _) ?_))
    exact Still_trans (foldl_Still _ State.kvExhaust_still _ _) (State.serveAll_still _)
  · cases h; exact h0

theorem execRegisterWrite_pend (off size : Nat) (v : Word) (s : State) (s' : State) (h : execRegisterWrite off size v s = .next s') : Pend s' s := by
  unfold execRegisterWrite at h; try dsimp only at h
  (repeat' split at h) <;> cases h <;> simp [Pend]

theorem execRegisterWrite_site (off size : Nat) (v : Word) (s : State) (s' : State) (h : execRegisterWrite off size v s = .next s') : Site s' s := by
  unfold execRegisterWrite at h; try dsimp only at h
  (repeat' split at h) <;> cases h <;> simp [Site]

theorem execBar0BadAccess_still (write : Bool) (off size : Nat) (s : State) (s' : State) (h : execBar0BadAccess write off size s = .next s') : Still s' s := by
  unfold execBar0BadAccess at h; try dsimp only at h
  (repeat' split at h) <;> cases h <;> simp [Still]

theorem execStage_root (s : State) (s' : State) (h : execStage s = .next s') : Root s' s := by
  unfold execStage at h; try dsimp only at h
  (repeat' split at h) <;> cases h <;> simp [Root]

theorem execStage_clock (s : State) (s' : State) (h : execStage s = .next s') : Clock s' s := by
  unfold execStage at h; try dsimp only at h
  (repeat' split at h) <;> cases h <;> simp [Clock]

theorem execDraftLoadDone_still (host : HostView) (s : State) (s' : State) (h : execDraftLoadDone host s = .next s') : Still s' s := by
  unfold execDraftLoadDone at h; try dsimp only at h
  (repeat' split at h) <;> cases h <;> simp [Still]

theorem execDraftCheckDone_still (s : State) (s' : State) (h : execDraftCheckDone s = .next s') : Still s' s := by
  unfold execDraftCheckDone at h; try dsimp only at h
  (repeat' split at h) <;> cases h <;> simp [Still]

theorem execArm_root (s : State) (s' : State) (h : execArm s = .next s') : Root s' s := by
  unfold execArm at h; try dsimp only at h
  (repeat' split at h) <;> cases h <;> simp [Root]

theorem execArm_clock (s : State) (s' : State) (h : execArm s = .next s') : Clock s' s := by
  unfold execArm at h; try dsimp only at h
  (repeat' split at h) <;> cases h <;> simp [Clock]

theorem execDisarm_root (s : State) (s' : State) (h : execDisarm s = .next s') : Root s' s := by
  unfold execDisarm at h; try dsimp only at h
  (repeat' split at h) <;> cases h <;> simp [Root]

theorem execDisarm_clock (s : State) (s' : State) (h : execDisarm s = .next s') : Clock s' s := by
  unfold execDisarm at h; try dsimp only at h
  (repeat' split at h) <;> cases h <;> simp [Clock]

theorem execDiscard_root (s : State) (s' : State) (h : execDiscard s = .next s') : Root s' s := by
  unfold execDiscard at h; try dsimp only at h
  (repeat' split at h) <;> cases h <;> simp [Root]

theorem execDiscard_clock (s : State) (s' : State) (h : execDiscard s = .next s') : Clock s' s := by
  unfold execDiscard at h; try dsimp only at h
  (repeat' split at h) <;> cases h <;> simp [Clock]

theorem execRingEnable_still (ring : Nat) (s : State) (s' : State) (h : execRingEnable ring s = .next s') : Still s' s := by
  unfold execRingEnable at h; try dsimp only at h
  (repeat' split at h) <;> cases h <;> simp [Still]

theorem execRingDisable_still (ring : Nat) (s : State) (s' : State) (h : execRingDisable ring s = .next s') : Still s' s := by
  unfold execRingDisable at h; try dsimp only at h
  (repeat' split at h) <;> cases h <;> simp [Still]

theorem execPair_still (s : State) (s' : State) (h : execPair s = .next s') : Still s' s := by
  unfold execPair at h; try dsimp only at h
  (repeat' split at h) <;> cases h <;> simp [Still]

theorem execAbsorb_still (s : State) (s' : State) (h : execAbsorb s = .next s') : Still s' s := by
  unfold execAbsorb at h; try dsimp only at h
  (repeat' split at h) <;> cases h <;> simp [Still]

theorem execHandback_still (s : State) (s' : State) (h : execHandback s = .next s') : Still s' s := by
  unfold execHandback at h; try dsimp only at h
  (repeat' split at h) <;> cases h <;> simp [Still]

theorem execDetach_still (s : State) (s' : State) (h : execDetach s = .next s') : Still s' s := by
  unfold execDetach at h; try dsimp only at h
  (repeat' split at h) <;> cases h <;> simp [Still]

theorem execCompare_still (s : State) (s' : State) (h : execCompare s = .next s') : Still s' s := by
  unfold execCompare at h; try dsimp only at h
  (repeat' split at h) <;> cases h <;> simp [Still]

theorem execDrain_still (s : State) (s' : State) (h : execDrain s = .next s') : Still s' s := by
  unfold execDrain at h; try dsimp only at h
  (repeat' split at h) <;> cases h <;> simp [Still]

theorem execDrainDone_still (s : State) (s' : State) (h : execDrainDone s = .next s') : Still s' s := by
  unfold execDrainDone at h; try dsimp only at h
  (repeat' split at h) <;> cases h <;> simp [Still]

theorem execRetrain_root (port : Nat) (s : State) (s' : State) (h : execRetrain port s = .next s') : Root s' s := by
  unfold execRetrain at h; try dsimp only at h
  (repeat' split at h) <;> cases h <;> simp [Root]

theorem execRetrain_clock (port : Nat) (s : State) (s' : State) (h : execRetrain port s = .next s') : Clock s' s := by
  unfold execRetrain at h; try dsimp only at h
  (repeat' split at h) <;> cases h <;> simp [Clock]

theorem execDisable_still (port : Nat) (s : State) (s' : State) (h : execDisable port s = .next s') : Still s' s := by
  unfold execDisable at h; try dsimp only at h
  (repeat' split at h) <;> cases h <;> simp [Still]

theorem execEnable_still (port : Nat) (s : State) (s' : State) (h : execEnable port s = .next s') : Still s' s := by
  unfold execEnable at h; try dsimp only at h
  (repeat' split at h) <;> cases h <;> simp [Still]

theorem execGetInfo_still (src : MboxSource) (s : State) (s' : State) (h : execGetInfo src s = .next s') : Still s' s := by
  unfold execGetInfo at h; try dsimp only at h
  (repeat' split at h) <;> cases h <;> simp [Still]

theorem execGetBootRecord_still (src : MboxSource) (s : State) (s' : State) (h : execGetBootRecord src s = .next s') : Still s' s := by
  unfold execGetBootRecord at h; try dsimp only at h
  (repeat' split at h) <;> cases h <;> simp [Still]

theorem execReadSensors_still (src : MboxSource) (s : State) (s' : State) (h : execReadSensors src s = .next s') : Still s' s := by
  unfold execReadSensors at h; try dsimp only at h
  (repeat' split at h) <;> cases h <;> simp [Still]

theorem execReadSetting_still (src : MboxSource) (s : State) (s' : State) (h : execReadSetting src s = .next s') : Still s' s := by
  unfold execReadSetting at h; try dsimp only at h
  (repeat' split at h) <;> cases h <;> simp [Still]

theorem execReset_root (src : MboxSource) (s : State) (s' : State) (h : execReset src s = .next s') : Root s' s := by
  unfold execReset at h; try dsimp only at h
  (repeat' split at h) <;> cases h <;> simp [Root]

theorem execPowerState_root (src : MboxSource) (s : State) (s' : State) (h : execPowerState src s = .next s') : Root s' s := by
  unfold execPowerState at h; try dsimp only at h
  (repeat' split at h) <;> cases h <;> simp [Root]

theorem execPowerLimit_root (src : MboxSource) (s : State) (s' : State) (h : execPowerLimit src s = .next s') : Root s' s := by
  unfold execPowerLimit at h; try dsimp only at h
  (repeat' split at h) <;> cases h <;> simp [Root]

theorem execClockCap_root (src : MboxSource) (s : State) (s' : State) (h : execClockCap src s = .next s') : Root s' s := by
  unfold execClockCap at h; try dsimp only at h
  (repeat' split at h) <;> cases h <;> simp [Root]

theorem execScrubRate_root (src : MboxSource) (s : State) (s' : State) (h : execScrubRate src s = .next s') : Root s' s := by
  unfold execScrubRate at h; try dsimp only at h
  (repeat' split at h) <;> cases h <;> simp [Root]

theorem execLaserRemove_root (src : MboxSource) (s : State) (s' : State) (h : execLaserRemove src s = .next s') : Root s' s := by
  unfold execLaserRemove at h; try dsimp only at h
  (repeat' split at h) <;> cases h <;> simp [Root]

theorem execBootDraft_still (src : MboxSource) (host : HostView) (s : State) (s' : State) (h : execBootDraft src host s = .next s') : Still s' s := by
  unfold execBootDraft at h; try dsimp only at h
  (repeat' split at h) <;> cases h <;> simp [Still]

theorem execSettingWrite_still (src : MboxSource) (s : State) (s' : State) (h : execSettingWrite src s = .next s') : Still s' s := by
  unfold execSettingWrite at h; try dsimp only at h
  (repeat' split at h) <;> cases h <;> simp [Still]

theorem execImageData_still (src : MboxSource) (s : State) (s' : State) (h : execImageData src s = .next s') : Still s' s := by
  unfold execImageData at h; try dsimp only at h
  (repeat' split at h) <;> cases h <;> simp [Still]

theorem execImageVerify_still (src : MboxSource) (s : State) (s' : State) (h : execImageVerify src s = .next s') : Still s' s := by
  unfold execImageVerify at h; try dsimp only at h
  (repeat' split at h) <;> cases h <;> simp [Still]

theorem execImageActivate_root (src : MboxSource) (s : State) (s' : State) (h : execImageActivate src s = .next s') : Root s' s := by
  unfold execImageActivate at h; try dsimp only at h
  (repeat' split at h) <;> cases h <;> simp [Root]

theorem execFwCommit_pend (src : MboxSource) (s : State) (s' : State) (h : execFwCommit src s = .next s') : Pend s' s := by
  unfold execFwCommit at h; try dsimp only at h
  (repeat' split at h) <;> cases h <;> simp [Pend]

theorem execFwCommit_site (src : MboxSource) (s : State) (s' : State) (h : execFwCommit src s = .next s') : Site s' s := by
  unfold execFwCommit at h; try dsimp only at h
  (repeat' split at h) <;> cases h <;> simp [Site]

theorem execFwCommit_pair (src : MboxSource) (s : State) (s' : State) (h : execFwCommit src s = .next s') : Pair s' s := by
  unfold execFwCommit at h; try dsimp only at h
  (repeat' split at h) <;> cases h <;> simp [Pair]

theorem execDebugChallenge_still (src : MboxSource) (s : State) (s' : State) (h : execDebugChallenge src s = .next s') : Still s' s := by
  unfold execDebugChallenge at h; try dsimp only at h
  (repeat' split at h) <;> cases h <;> simp [Still]

theorem execDebugUnlock_still (src : MboxSource) (s : State) (s' : State) (h : execDebugUnlock src s = .next s') : Still s' s := by
  unfold execDebugUnlock at h; try dsimp only at h
  (repeat' split at h) <;> cases h <;> simp [Still]

theorem execNop_still (jno : Nat) (s : State) (s' : State) (h : execNop jno s = .next s') : Still s' s := by
  unfold execNop at h; try dsimp only at h
  (repeat' split at h) <;> cases h <;> simp [Still]

theorem execCtxCreate_still (jno : Nat) (s : State) (s' : State) (h : execCtxCreate jno s = .next s') : Still s' s := by
  unfold execCtxCreate at h; try dsimp only at h
  (repeat' split at h) <;> cases h <;> simp [Still]

theorem execCtxDestroy_still (jno : Nat) (s : State) (s' : State) (h : execCtxDestroy jno s = .next s') : Still s' s := by
  unfold execCtxDestroy at h; try dsimp only at h
  (repeat' split at h) <;> cases h <;> simp [Still]

theorem execCtxReset_still (jno : Nat) (s : State) (s' : State) (h : execCtxReset jno s = .next s') : Still s' s := by
  unfold execCtxReset at h; try dsimp only at h
  (repeat' split at h) <;> cases h <;> simp [Still]

theorem execRun_still (jno : Nat) (s : State) (s' : State) (h : execRun jno s = .next s') : Still s' s := by
  unfold execRun at h; try dsimp only at h
  (repeat' split at h) <;> cases h <;> simp [Still]

theorem execObjCreate_still (jno : Nat) (s : State) (s' : State) (h : execObjCreate jno s = .next s') : Still s' s := by
  unfold execObjCreate at h; try dsimp only at h
  (repeat' split at h) <;> cases h <;> simp [Still]

theorem execObjDestroy_still (jno : Nat) (s : State) (s' : State) (h : execObjDestroy jno s = .next s') : Still s' s := by
  unfold execObjDestroy at h; try dsimp only at h
  (repeat' split at h) <;> cases h <;> simp [Still]

theorem execObjHint_still (jno : Nat) (s : State) (s' : State) (h : execObjHint jno s = .next s') : Still s' s := by
  unfold execObjHint at h; try dsimp only at h
  (repeat' split at h) <;> cases h <;> simp [Still]

theorem execObjLoad_still (jno : Nat) (s : State) (s' : State) (h : execObjLoad jno s = .next s') : Still s' s := by
  unfold execObjLoad at h; try dsimp only at h
  (repeat' split at h) <;> cases h <;> simp [Still]

theorem execObjStore_still (jno : Nat) (s : State) (s' : State) (h : execObjStore jno s = .next s') : Still s' s := by
  unfold execObjStore at h; try dsimp only at h
  (repeat' split at h) <;> cases h <;> simp [Still]

theorem execKvPoolCreate_still (jno : Nat) (s : State) (s' : State) (h : execKvPoolCreate jno s = .next s') : Still s' s := by
  unfold execKvPoolCreate at h; try dsimp only at h
  (repeat' split at h) <;> cases h <;> simp [Still]

theorem execKvPoolDestroy_still (jno : Nat) (s : State) (s' : State) (h : execKvPoolDestroy jno s = .next s') : Still s' s := by
  unfold execKvPoolDestroy at h; try dsimp only at h
  (repeat' split at h) <;> cases h <;> simp [Still]

theorem execKvJoin_still (jno : Nat) (s : State) (s' : State) (h : execKvJoin jno s = .next s') : Still s' s := by
  unfold execKvJoin at h; try dsimp only at h
  (repeat' split at h) <;> cases h <;> simp [Still]

theorem execKvFork_still (jno : Nat) (s : State) (s' : State) (h : execKvFork jno s = .next s') : Still s' s := by
  unfold execKvFork at h; try dsimp only at h
  (repeat' split at h) <;> cases h <;> simp [Still]

theorem execKvGrow_still (jno : Nat) (s : State) (s' : State) (h : execKvGrow jno s = .next s') : Still s' s := by
  unfold execKvGrow at h; try dsimp only at h
  (repeat' split at h) <;> cases h <;> simp [Still]

theorem execKvLeave_still (jno : Nat) (s : State) (s' : State) (h : execKvLeave jno s = .next s') : Still s' s := by
  unfold execKvLeave at h; try dsimp only at h
  (repeat' split at h) <;> cases h <;> simp [Still]

theorem execKvPublish_still (jno : Nat) (s : State) (s' : State) (h : execKvPublish jno s = .next s') : Still s' s := by
  unfold execKvPublish at h; try dsimp only at h
  (repeat' split at h) <;> cases h <;> simp [Still]

theorem execKvAdmitStarved_still (jno : Nat) (s : State) (s' : State) (h : execKvAdmitStarved jno s = .next s') : Still s' s := by
  unfold execKvAdmitStarved at h; try dsimp only at h
  (repeat' split at h) <;> cases h <;> simp [Still]

theorem execKvExhausted_still (jno : Nat) (s : State) (s' : State) (h : execKvExhausted jno s = .next s') : Still s' s := by
  unfold execKvExhausted at h; try dsimp only at h
  (repeat' split at h) <;> cases h <;> simp [Still]

theorem execTaskStart_still (cu : Nat) (u : ExecUnit) (cycle : Nat) (s : State) (s' : State) (h : execTaskStart cu u cycle s = .next s') : Still s' s := by
  unfold execTaskStart at h; try dsimp only at h
  (repeat' split at h) <;> cases h <;> simp [Still]

theorem execDependencyMet_still (t : TaskRef) (k : Nat) (s : State) (s' : State) (h : execDependencyMet t k s = .next s') : Still s' s := by
  unfold execDependencyMet at h; try dsimp only at h
  (repeat' split at h) <;> cases h <;> simp [Still]

theorem execTaskOverrun_still (t : TaskRef) (s : State) (s' : State) (h : execTaskOverrun t s = .next s') : Still s' s := by
  unfold execTaskOverrun at h
  split at h
  · cases h; simp [Still]
  split at h
  · dsimp only at h
    split at h <;> (injection h with h; subst h; simp [Still])
  · cases h; simp [Still]

theorem execMemoryWrite_still (t : TaskRef) (addr : Nat) (data : Bytes) (s : State) (s' : State) (h : execMemoryWrite t addr data s = .next s') : Still s' s := by
  unfold execMemoryWrite at h; try dsimp only at h
  (repeat' split at h) <;> cases h <;> simp [Still]

theorem execSectorRead_still (rd : Reader) (addr : Nat) (err : ReadErr) (s : State) (s' : State) (h : execSectorRead rd addr err s = .next s') : Still s' s := by
  unfold execSectorRead at h; try dsimp only at h
  (repeat' split at h) <;> cases h <;> simp [Still]

theorem execTwinFetchRequest_still (addr : Nat) (s : State) (s' : State) (h : execTwinFetchRequest addr s = .next s') : Still s' s := by
  unfold execTwinFetchRequest at h; try dsimp only at h
  (repeat' split at h) <;> cases h <;> simp [Still]

theorem execTwinFetchReturn_still (addr : Nat) (data : Option Bytes) (s : State) (s' : State) (h : execTwinFetchReturn addr data s = .next s') : Still s' s := by
  unfold execTwinFetchReturn at h; try dsimp only at h
  (repeat' split at h) <;> cases h <;> simp [Still]

theorem execScrubRead_root (die : Nat) (err : ReadErr) (s : State) (s' : State) (h : execScrubRead die err s = .next s') : Root s' s := by
  unfold execScrubRead at h; try dsimp only at h
  (repeat' split at h) <;> cases h <;> simp [Root]

theorem execOnchipCrcFail_root (loc : OnchipLoc) (s : State) (s' : State) (h : execOnchipCrcFail loc s = .next s') : Root s' s := by
  unfold execOnchipCrcFail at h; try dsimp only at h
  (repeat' split at h) <;> cases h <;> simp [Root]

theorem execMemOnchip_root (loc : OnchipLoc) (s : State) (s' : State) (h : execMemOnchip loc s = .next s') : Root s' s := by
  unfold execMemOnchip at h; try dsimp only at h
  (repeat' split at h) <;> cases h <;> simp [Root]

theorem execVectorOp_still (t : TaskRef) (op : VecOp) (rm : RoundDir) (sr : Option RandKey) (n dst a b c : Nat) (s : State) (s' : State) (h : execVectorOp t op rm sr n dst a b c s = .next s') : Still s' s := by
  unfold execVectorOp at h; (repeat' split at h) <;> first | exact State.onVector_still _ _ _ _ _ h | (cases h; simp [Still])

theorem execRowReduction_still (t : TaskRef) (op : RowForm) (n dst a b : Nat) (s : State) (s' : State) (h : execRowReduction t op n dst a b s = .next s') : Still s' s := by
  unfold execRowReduction at h; (repeat' split at h) <;> first | exact State.onVector_still _ _ _ _ _ h | (cases h; simp [Still])

theorem execSfuRequest_still (t : TaskRef) (fn : Nat) (bf : Bool) (n dst a : Nat) (s : State) (s' : State) (h : execSfuRequest t fn bf n dst a s = .next s') : Still s' s := by
  unfold execSfuRequest at h; (repeat' split at h) <;> first | exact State.onVector_still _ _ _ _ _ h | (cases h; simp [Still])

theorem execRowstat_still (t : TaskRef) (form : StatForm) (n dst x : Nat) (s : State) (s' : State) (h : execRowstat t form n dst x s = .next s') : Still s' s := by
  unfold execRowstat at h; (repeat' split at h) <;> first | (exact State.onVector_still _ _ _ _ _ h) | exact State.onVector_still _ _ _ _ _ h | (cases h; simp [Still])

theorem execLnorm_still (t : TaskRef) (n dst x gamma beta stat : Nat) (eps : BitVec 32) (s : State) (s' : State) (h : execLnorm t n dst x gamma beta stat eps s = .next s') : Still s' s := by
  unfold execLnorm at h; (repeat' split at h) <;> first | exact State.onVector_still _ _ _ _ _ h | (cases h; simp [Still])

theorem execRmsnorm_still (t : TaskRef) (n dst x gamma stat : Nat) (eps : BitVec 32) (s : State) (s' : State) (h : execRmsnorm t n dst x gamma stat eps s = .next s') : Still s' s := by
  unfold execRmsnorm at h; (repeat' split at h) <;> first | exact State.onVector_still _ _ _ _ _ h | (cases h; simp [Still])

theorem execLnormBwd_still (t : TaskRef) (n dst x dy gamma stat : Nat) (s : State) (s' : State) (h : execLnormBwd t n dst x dy gamma stat s = .next s') : Still s' s := by
  unfold execLnormBwd at h; (repeat' split at h) <;> first | exact State.onVector_still _ _ _ _ _ h | (cases h; simp [Still])

theorem execRmsnormBwd_still (t : TaskRef) (n dst x dy gamma stat : Nat) (s : State) (s' : State) (h : execRmsnormBwd t n dst x dy gamma stat s = .next s') : Still s' s := by
  unfold execRmsnormBwd at h; (repeat' split at h) <;> first | exact State.onVector_still _ _ _ _ _ h | (cases h; simp [Still])

theorem execSmerge_still (t : TaskRef) (d a b : Nat) (s : State) (s' : State) (h : execSmerge t d a b s = .next s') : Still s' s := by
  unfold execSmerge at h; (repeat' split at h) <;> first | exact State.onVector_still _ _ _ _ _ h | (cases h; simp [Still])

theorem execSfinal_still (t : TaskRef) (sr : Option RandKey) (d row dst a : Nat) (s : State) (s' : State) (h : execSfinal t sr d row dst a s = .next s') : Still s' s := by
  unfold execSfinal at h; (repeat' split at h) <;> first | exact State.onVector_still _ _ _ _ _ h | (cases h; simp [Still])

theorem execKvpin_still (t : TaskRef) (row : Nat) (s : State) (s' : State) (h : execKvpin t row s = .next s') : Still s' s := by
  unfold execKvpin at h; try dsimp only at h
  (repeat' split at h) <;> cases h <;> simp [Still]

theorem execPatch_still (t : TaskRef) (desc : Nat) (s : State) (s' : State) (h : execPatch t desc s = .next s') : Still s' s := by
  unfold execPatch at h; try dsimp only at h
  (repeat' split at h) <;> cases h <;> simp [Still]

theorem execS2c_still (t : TaskRef) (desc : Nat) (s : State) (s' : State) (h : execS2c t desc s = .next s') : Still s' s := by
  unfold execS2c at h; try dsimp only at h
  (repeat' split at h) <;> cases h <;> simp [Still]

theorem execC2s_still (t : TaskRef) (desc : Nat) (s : State) (s' : State) (h : execC2s t desc s = .next s') : Still s' s := by
  unfold execC2s at h; try dsimp only at h
  (repeat' split at h) <;> cases h <;> simp [Still]

theorem execMaxpool_still (t : TaskRef) (desc : Nat) (s : State) (s' : State) (h : execMaxpool t desc s = .next s') : Still s' s := by
  unfold execMaxpool at h; try dsimp only at h
  (repeat' split at h) <;> cases h <;> simp [Still]

theorem execAvgpool_still (t : TaskRef) (desc : Nat) (s : State) (s' : State) (h : execAvgpool t desc s = .next s') : Still s' s := by
  unfold execAvgpool at h; try dsimp only at h
  (repeat' split at h) <;> cases h <;> simp [Still]

theorem execCrop_still (t : TaskRef) (desc : Nat) (s : State) (s' : State) (h : execCrop t desc s = .next s') : Still s' s := by
  unfold execCrop at h; try dsimp only at h
  (repeat' split at h) <;> cases h <;> simp [Still]

theorem execObjectFillDone_still (i : Nat) (s : State) (s' : State) (h : execObjectFillDone i s = .next s') : Still s' s := by
  unfold execObjectFillDone at h; try dsimp only at h
  (repeat' split at h) <;> cases h <;> simp [Still]

theorem execKvCopyDone_still (ctx : Nat) (s : State) (s' : State) (h : execKvCopyDone ctx s = .next s') : Still s' s := by
  unfold execKvCopyDone at h; try dsimp only at h
  (repeat' split at h) <;> cases h <;> simp [Still]

theorem execBlockMoveDone_still (obj blk : Nat) (s : State) (s' : State) (h : execBlockMoveDone obj blk s = .next s') : Still s' s := by
  unfold execBlockMoveDone at h; try dsimp only at h
  (repeat' split at h) <;> cases h <;> simp [Still]

theorem execLiveStateSaveDone_still (ctx : Nat) (s : State) (s' : State) (h : execLiveStateSaveDone ctx s = .next s') : Still s' s := by
  unfold execLiveStateSaveDone at h; try dsimp only at h
  (repeat' split at h) <;> cases h <;> simp [Still]

theorem execLiveStateRestoreDone_still (ctx : Nat) (s : State) (s' : State) (h : execLiveStateRestoreDone ctx s = .next s') : Still s' s := by
  unfold execLiveStateRestoreDone at h; try dsimp only at h
  (repeat' split at h) <;> cases h <;> simp [Still]

theorem execResultFlushDone_still (jno : Nat) (s : State) (s' : State) (h : execResultFlushDone jno s = .next s') : Still s' s := by
  unfold execResultFlushDone at h; try dsimp only at h
  (repeat' split at h) <;> cases h <;> simp [Still]

theorem execHeldQueueRoom_still (die : Nat) (s : State) (s' : State) (h : execHeldQueueRoom die s = .next s') : Still s' s := by
  unfold execHeldQueueRoom at h; try dsimp only at h
  (repeat' split at h) <;> cases h <;> simp [Still]

theorem execCollHeaderReceived_still (ch : Nat) (hdr : HeaderFrame) (s : State) (s' : State) (h : execCollHeaderReceived ch hdr s = .next s') : Still s' s := by
  unfold execCollHeaderReceived at h; try dsimp only at h
  (repeat' split at h) <;> cases h <;> simp [Still]

theorem execMismatchNotice_still (ch groupA : Nat) (groupB : Differing) (s : State) (s' : State) (h : execMismatchNotice ch groupA groupB s = .next s') : Still s' s := by
  unfold execMismatchNotice at h; try dsimp only at h
  (repeat' split at h) <;> cases h <;> simp [Still]

theorem execCountNotice_still (ch : Nat) (group : InstName) (s : State) (s' : State) (h : execCountNotice ch group s = .next s') : Still s' s := by
  unfold execCountNotice at h; try dsimp only at h
  (repeat' split at h) <;> cases h <;> simp [Still]

theorem execAbortNotice_still (ch : Nat) (group : InstName) (s : State) (s' : State) (h : execAbortNotice ch group s = .next s') : Still s' s := by
  unfold execAbortNotice at h; try dsimp only at h
  (repeat' split at h) <;> cases h <;> simp [Still]

theorem execLossNotice_still (addr beat : Nat) (absorbBeat : Option Nat) (s : State) (s' : State) (h : execLossNotice addr beat absorbBeat s = .next s') : Still s' s := by
  unfold execLossNotice at h; try dsimp only at h
  (repeat' split at h) <;> cases h <;> simp [Still]

theorem execHoldNotice_still (addr beat : Nat) (s : State) (s' : State) (h : execHoldNotice addr beat s = .next s') : Still s' s := by
  unfold execHoldNotice at h; try dsimp only at h
  (repeat' split at h) <;> cases h <;> simp [Still]

theorem execGatherPieceLanded_still (ch piece : Nat) (data : Bytes) (s : State) (s' : State) (h : execGatherPieceLanded ch piece data s = .next s') : Still s' s := by
  unfold execGatherPieceLanded at h; try dsimp only at h
  (repeat' split at h) <;> cases h <;> simp [Still]

theorem execLossWaitExpiry_still (s : State) (s' : State) (h : execLossWaitExpiry s = .next s') : Still s' s := by
  unfold execLossWaitExpiry at h; try dsimp only at h
  (repeat' split at h) <;> cases h <;> simp [Still]

theorem execAckReceived_still (port ack : Nat) (s : State) (s' : State) (h : execAckReceived port ack s = .next s') : Still s' s := by
  unfold execAckReceived at h; try dsimp only at h
  (repeat' split at h) <;> cases h <;> simp [Still]

theorem execNakReceived_root (port ack : Nat) (s : State) (s' : State) (h : execNakReceived port ack s = .next s') : Root s' s := by
  unfold execNakReceived at h; try dsimp only at h
  (repeat' split at h) <;> cases h <;> simp [Root]

theorem execAckTimeout_root (port : Nat) (s : State) (s' : State) (h : execAckTimeout port s = .next s') : Root s' s := by
  unfold execAckTimeout at h; try dsimp only at h
  (repeat' split at h) <;> cases h <;> simp [Root]

theorem execIdleFrameTimer_still (port : Nat) (s : State) (s' : State) (h : execIdleFrameTimer port s = .next s') : Still s' s := by
  unfold execIdleFrameTimer at h; try dsimp only at h
  (repeat' split at h) <;> cases h <;> simp [Still]

theorem execPortRxTimeout_root (port : Nat) (s : State) (s' : State) (h : execPortRxTimeout port s = .next s') : Root s' s := by
  unfold execPortRxTimeout at h; try dsimp only at h
  (repeat' split at h) <;> cases h <;> simp [Root]

theorem execMarkerReceived_root (port : Nat) (payload : Bytes) (arrivalPs : Int) (s : State) (s' : State) (h : execMarkerReceived port payload arrivalPs s = .next s') : Root s' s := by
  unfold execMarkerReceived at h; try dsimp only at h
  (repeat' split at h) <;> cases h <;> simp [Root]

theorem execAlignOffsetExceeded_root (s : State) (s' : State) (h : execAlignOffsetExceeded s = .next s') : Root s' s := by
  unfold execAlignOffsetExceeded at h; try dsimp only at h
  (repeat' split at h) <;> cases h <;> simp [Root]

theorem execLeaderMarkerTimeout_root (s : State) (s' : State) (h : execLeaderMarkerTimeout s = .next s') : Root s' s := by
  unfold execLeaderMarkerTimeout at h; try dsimp only at h
  (repeat' split at h) <;> cases h <;> simp [Root]

theorem execLeaderTakeover_still (node : Nat) (leader : Nat) (s : State) (s' : State) (h : execLeaderTakeover node leader s = .next s') : Still s' s := by
  unfold execLeaderTakeover at h; try dsimp only at h
  (repeat' split at h) <;> cases h <;> simp [Still]

theorem execJoinMarkerTimeout_root (s : State) (s' : State) (h : execJoinMarkerTimeout s = .next s') : Root s' s := by
  unfold execJoinMarkerTimeout at h; try dsimp only at h
  (repeat' split at h) <;> cases h <;> simp [Root]

theorem execJoinMarkerTimeout_pair (s : State) (s' : State) (h : execJoinMarkerTimeout s = .next s') : Pair s' s := by
  unfold execJoinMarkerTimeout at h; try dsimp only at h
  (repeat' split at h) <;> cases h <;> simp [Pair]

theorem execLeaderRelay_still (port : Nat) (leader period10 windowUs : Nat) (drop : Option Nat) (s : State) (s' : State) (h : execLeaderRelay port leader period10 windowUs drop s = .next s') : Still s' s := by
  unfold execLeaderRelay at h; try dsimp only at h
  (repeat' split at h) <;> cases h <;> simp [Still]

theorem execPeriodRequest_still (_port : Nat) (src req10 : Nat) (s : State) (s' : State) (h : execPeriodRequest _port src req10 s = .next s') : Still s' s := by
  unfold execPeriodRequest at h; try dsimp only at h
  (repeat' split at h) <;> cases h <;> simp [Still]

theorem execIdentify_still (port : Nat) (payload : Bytes) (s : State) (s' : State) (h : execIdentify port payload s = .next s') : Still s' s := by
  unfold execIdentify at h; try dsimp only at h
  (repeat' split at h) <;> cases h <;> simp [Still]

theorem execMeasureDone_still (port meanRoundTripPs : Nat) (s : State) (s' : State) (h : execMeasureDone port meanRoundTripPs s = .next s') : Still s' s := by
  unfold execMeasureDone at h; try dsimp only at h
  (repeat' split at h) <;> cases h <;> simp [Still]

theorem execPortStateTimeout_still (port : Nat) (s : State) (s' : State) (h : execPortStateTimeout port s = .next s') : Still s' s := by
  unfold execPortStateTimeout at h; try dsimp only at h
  (repeat' split at h) <;> cases h <;> simp [Still]

theorem execPortRetrainTimer_still (port : Nat) (s : State) (s' : State) (h : execPortRetrainTimer port s = .next s') : Still s' s := by
  unfold execPortRetrainTimer at h; try dsimp only at h
  (repeat' split at h) <;> cases h <;> simp [Still]

theorem execLaneLost_root (port lane : Nat) (s : State) (s' : State) (h : execLaneLost port lane s = .next s') : Root s' s := by
  unfold execLaneLost at h; try dsimp only at h
  (repeat' split at h) <;> cases h <;> simp [Root]

theorem execLinkIsolated_root (s : State) (s' : State) (h : execLinkIsolated s = .next s') : Root s' s := by
  unfold execLinkIsolated at h; try dsimp only at h
  (repeat' split at h) <;> cases h <;> simp [Root]

theorem execLaserCartridgeFail_root (c : Nat) (s : State) (s' : State) (h : execLaserCartridgeFail c s = .next s') : Root s' s := by
  unfold execLaserCartridgeFail at h; try dsimp only at h
  (repeat' split at h) <;> cases h <;> simp [Root]

theorem execCartridgeWarmDone_still (c : Nat) (s : State) (s' : State) (h : execCartridgeWarmDone c s = .next s') : Still s' s := by
  unfold execCartridgeWarmDone at h; try dsimp only at h
  (repeat' split at h) <;> cases h <;> simp [Still]

theorem execCartridgeLeverUnlock_root (c : Nat) (s : State) (s' : State) (h : execCartridgeLeverUnlock c s = .next s') : Root s' s := by
  unfold execCartridgeLeverUnlock at h; try dsimp only at h
  (repeat' split at h) <;> cases h <;> simp [Root]

theorem execDieLinkFrame_root (link : Nat) (frame : Bytes) (s : State) (s' : State) (h : execDieLinkFrame link frame s = .next s') : Root s' s := by
  unfold execDieLinkFrame at h; try dsimp only at h
  (repeat' split at h) <;> cases h <;> simp [Root]

theorem execLinkDie_root (link : Nat) (s : State) (s' : State) (h : execLinkDie link s = .next s') : Root s' s := by
  unfold execLinkDie at h; try dsimp only at h
  (repeat' split at h) <;> cases h <;> simp [Root]

theorem execHelloTimer_still (s : State) (s' : State) (h : execHelloTimer s = .next s') : Still s' s := by
  unfold execHelloTimer at h; try dsimp only at h
  (repeat' split at h) <;> cases h <;> simp [Still]

theorem execHelloReceived_root (port : Nat) (frame : HelloFrame) (fixed : Nat) (s : State) (s' : State) (h : execHelloReceived port frame fixed s = .next s') : Root s' s := by
  unfold execHelloReceived at h; try dsimp only at h
  (repeat' split at h) <;> cases h <;> simp [Root]

theorem execHandshakeTimeout_root (s : State) (s' : State) (h : execHandshakeTimeout s = .next s') : Root s' s := by
  unfold execHandshakeTimeout at h; try dsimp only at h
  (repeat' split at h) <;> cases h <;> simp [Root]

theorem execJournalEntryReceived_still (entry order : Bytes) (s : State) (s' : State) (h : execJournalEntryReceived entry order s = .next s') : Still s' s := by
  unfold execJournalEntryReceived at h; try dsimp only at h
  (repeat' split at h) <;> cases h <;> simp [Still]

theorem execCompletionNoticeReceived_still (n : NoticeEvent) (s : State) (s' : State) (h : execCompletionNoticeReceived n s = .next s') : Still s' s := by
  unfold execCompletionNoticeReceived at h; try dsimp only at h
  (repeat' split at h) <;> cases h <;> simp [Still]

theorem execDigestReceived_root (digest : Word) (jno : Nat) (objs : ObjDigests) (s : State) (s' : State) (h : execDigestReceived digest jno objs s = .next s') : Root s' s := by
  unfold execDigestReceived at h; try dsimp only at h
  (repeat' split at h) <;> cases h <;> simp [Root]

theorem execSelvedgePortLost_root (port : Nat) (twinOnFabric : Bool) (s : State) (s' : State) (h : execSelvedgePortLost port twinOnFabric s = .next s') : Root s' s := by
  unfold execSelvedgePortLost at h; try dsimp only at h
  (repeat' split at h) <;> cases h <;> simp [Root]

theorem execQuiesceNoticeReceived_root (_cause : Nat) (intent : Intent) (beat : Nat) (s : State) (s' : State) (h : execQuiesceNoticeReceived _cause intent beat s = .next s') : Root s' s := by
  unfold execQuiesceNoticeReceived at h; try dsimp only at h
  (repeat' split at h) <;> cases h <;> simp [Root]

theorem execTwinSilenceTimeout_root (s : State) (s' : State) (h : execTwinSilenceTimeout s = .next s') : Root s' s := by
  unfold execTwinSilenceTimeout at h; try dsimp only at h
  (repeat' split at h) <;> cases h <;> simp [Root]

theorem execHoldLimitExpiry_root (s : State) (s' : State) (h : execHoldLimitExpiry s = .next s') : Root s' s := by
  unfold execHoldLimitExpiry at h; try dsimp only at h
  (repeat' split at h) <;> cases h <;> simp [Root]

theorem execCxlLinkDown_still (s : State) (s' : State) (h : execCxlLinkDown s = .next s') : Still s' s := by
  unfold execCxlLinkDown at h; try dsimp only at h
  (repeat' split at h) <;> cases h <;> simp [Still]

theorem execCxlLinkTrained_root (width rate : Nat) (s : State) (s' : State) (h : execCxlLinkTrained width rate s = .next s') : Root s' s := by
  unfold execCxlLinkTrained at h; try dsimp only at h
  (repeat' split at h) <;> cases h <;> simp [Root]

theorem execCxlLinkTrained_pair (width rate : Nat) (s : State) (s' : State) (h : execCxlLinkTrained width rate s = .next s') : Pair s' s := by
  unfold execCxlLinkTrained at h; try dsimp only at h
  (repeat' split at h) <;> cases h <;> simp [Pair]

theorem execCxlLostTimeout_root (s : State) (s' : State) (h : execCxlLostTimeout s = .next s') : Root s' s := by
  unfold execCxlLostTimeout at h; try dsimp only at h
  (repeat' split at h) <;> cases h <;> simp [Root]

theorem execHostLinkReset_root (kind : HostReset) (s : State) (s' : State) (h : execHostLinkReset kind s = .next s') : Root s' s := by
  unfold execHostLinkReset at h; try dsimp only at h
  (repeat' split at h) <;> cases h <;> simp [Root]

theorem execIdeMacFailure_root (s : State) (s' : State) (h : execIdeMacFailure s = .next s') : Root s' s := by
  unfold execIdeMacFailure at h; try dsimp only at h
  (repeat' split at h) <;> cases h <;> simp [Root]

theorem execCxlMemRead_still (hpa : Nat) (err : ReadErr) (s : State) (s' : State) (h : execCxlMemRead hpa err s = .next s') : Still s' s := by
  unfold execCxlMemRead at h; try dsimp only at h
  (repeat' split at h) <;> cases h <;> simp [Still]

theorem execCxlMemWrite_still (hpa : Nat) (data : Bytes) (mask : WriteMask) (s : State) (s' : State) (h : execCxlMemWrite hpa data mask s = .next s') : Still s' s := by
  unfold execCxlMemWrite at h; try dsimp only at h
  (repeat' split at h) <;> cases h <;> simp [Still]

theorem execBisnpResponse_still (line : Nat) (modified : Option Bytes) (s : State) (s' : State) (h : execBisnpResponse line modified s = .next s') : Still s' s := by
  unfold execBisnpResponse at h; try dsimp only at h
  (repeat' split at h) <;> cases h <;> simp [Still]

theorem execHdmDecoderCommit_still (base size256 ways : Nat) (hdmDb : Bool) (s : State) (s' : State) (h : execHdmDecoderCommit base size256 ways hdmDb s = .next s') : Still s' s := by
  unfold execHdmDecoderCommit at h; try dsimp only at h
  (repeat' split at h) <;> cases h <;> simp [Still]

theorem execEmergencyQuiesce_root (cause detail : Nat) (s : State) (s' : State) (h : execEmergencyQuiesce cause detail s = .next s') : Root s' s := by
  unfold execEmergencyQuiesce at h; try dsimp only at h
  (repeat' split at h) <;> cases h <;> simp [Root]

theorem execWarmStart_root (obs : WarmObs) (s : State) (s' : State) (h : execWarmStart obs s = .next s') : Root s' s := by
  unfold execWarmStart at h; try dsimp only at h
  (repeat' split at h) <;> cases h <;> simp [Root]

theorem execWarmStart_pair (obs : WarmObs) (s : State) (s' : State) (h : execWarmStart obs s = .next s') : Pair s' s := by
  unfold execWarmStart at h; (repeat' split at h) <;> cases h <;> first | (simp [Pair]; done) | ((repeat' split) <;> simp [Pair])

theorem execColdStart_pend (obs : ColdObs) (s : State) (s' : State) (h : execColdStart obs s = .next s') : Pend s' s := by
  unfold execColdStart at h
  split at h
  · cases h; simp [Pend]
  dsimp only at h
  split at h
  · injection h with h; subst h
    split <;> simp [Pend]
  split at h
  · injection h with h; subst h
    split <;> simp [Pend]
  split at h
  all_goals
    injection h with h; subst h
    rename_i e
    split <;> simp_all [Pend, State.selectSet_root]

theorem execColdStart_rpmc (obs : ColdObs) (s : State) (s' : State) (h : execColdStart obs s = .next s') : Rpmc s' s := by
  unfold execColdStart at h
  split at h
  · cases h; simp [Rpmc]
  dsimp only at h
  split at h
  · injection h with h; subst h
    split <;> simp [Rpmc]
  split at h
  · injection h with h; subst h
    split <;> simp [Rpmc]
  split at h
  all_goals
    injection h with h; subst h
    rename_i e
    split <;> simp_all [Rpmc, State.selectSet_root]

theorem execBootStepTimeout_root (step : Nat) (s : State) (s' : State) (h : execBootStepTimeout step s = .next s') : Root s' s := by
  unfold execBootStepTimeout at h; try dsimp only at h
  (repeat' split at h) <;> cases h <;> simp [Root]

theorem execBootStepTimeout_pair (step : Nat) (s : State) (s' : State) (h : execBootStepTimeout step s = .next s') : Pair s' s := by
  unfold execBootStepTimeout at h; try dsimp only at h
  (repeat' split at h) <;> cases h <;> simp [Pair]

theorem execOpticalTrainingLimit_still (s : State) (s' : State) (h : execOpticalTrainingLimit s = .next s') : Still s' s := by
  unfold execOpticalTrainingLimit at h; try dsimp only at h
  (repeat' split at h) <;> cases h <;> simp [Still]

theorem execSensorSnapshot_root (r : Readings) (s : State) (s' : State) (h : execSensorSnapshot r s = .next s') : Root s' s := by
  unfold execSensorSnapshot at h; try dsimp only at h
  (repeat' split at h) <;> cases h <;> simp [Root]

theorem execFlowEmergencyTimer_root (s : State) (s' : State) (h : execFlowEmergencyTimer s = .next s') : Root s' s := by
  unfold execFlowEmergencyTimer at h; try dsimp only at h
  (repeat' split at h) <;> cases h <;> simp [Root]

theorem execPwrOverload_root (s : State) (s' : State) (h : execPwrOverload s = .next s') : Root s' s := by
  unfold execPwrOverload at h; try dsimp only at h
  (repeat' split at h) <;> cases h <;> simp [Root]

theorem execStepRise_root (r : Readings) (s : State) (s' : State) (h : execStepRise r s = .next s') : Root s' s := by
  unfold execStepRise at h; try dsimp only at h
  (repeat' split at h) <;> cases h <;> simp [Root]

theorem execStepRise_pair (r : Readings) (s : State) (s' : State) (h : execStepRise r s = .next s') : Pair s' s := by
  unfold execStepRise at h; try dsimp only at h
  (repeat' split at h) <;> cases h <;> simp [Pair]

theorem execInputVoltageChange_root (input : Nat) (mv : Int) (s : State) (s' : State) (h : execInputVoltageChange input mv s = .next s') : Root s' s := by
  unfold execInputVoltageChange at h; try dsimp only at h
  (repeat' split at h) <;> cases h <;> simp [Root]

theorem execInputQualified_still (input : Nat) (s : State) (s' : State) (h : execInputQualified input s = .next s') : Still s' s := by
  unfold execInputQualified at h; try dsimp only at h
  (repeat' split at h) <;> cases h <;> simp [Still]

theorem execBulkChargeDone_root (input : Nat) (s : State) (s' : State) (h : execBulkChargeDone input s = .next s') : Root s' s := by
  unfold execBulkChargeDone at h; try dsimp only at h
  (repeat' split at h) <;> cases h <;> simp [Root]

theorem execBulkChargeDone_pair (input : Nat) (s : State) (s' : State) (h : execBulkChargeDone input s = .next s') : Pair s' s := by
  unfold execBulkChargeDone at h; try dsimp only at h
  (repeat' split at h) <;> cases h <;> simp [Pair]

theorem execPowerDownTimeout_pend (s : State) (s' : State) (h : execPowerDownTimeout s = .next s') : Pend s' s := by
  unfold execPowerDownTimeout at h; try dsimp only at h
  (repeat' split at h) <;> cases h <;> simp [Pend]

theorem execPowerDownTimeout_rpmc (s : State) (s' : State) (h : execPowerDownTimeout s = .next s') : Rpmc s' s := by
  unfold execPowerDownTimeout at h; try dsimp only at h
  (repeat' split at h) <;> cases h <;> simp [Rpmc]

theorem execPresenceContactBreak_root (a b : Bool) (s : State) (s' : State) (h : execPresenceContactBreak a b s = .next s') : Root s' s := by
  unfold execPresenceContactBreak at h; try dsimp only at h
  (repeat' split at h) <;> cases h <;> simp [Root]

theorem execSetEndpointId_still (b : Binding) (eid : Nat) (s : State) (s' : State) (h : execSetEndpointId b eid s = .next s') : Still s' s := by
  unfold execSetEndpointId at h; try dsimp only at h
  (repeat' split at h) <;> cases h <;> simp [Still]

theorem execGetEndpointId_still (b : Binding) (s : State) (s' : State) (h : execGetEndpointId b s = .next s') : Still s' s := by
  unfold execGetEndpointId at h; try dsimp only at h
  (repeat' split at h) <;> cases h <;> simp [Still]

theorem execGetEndpointUuid_still (b : Binding) (s : State) (s' : State) (h : execGetEndpointUuid b s = .next s') : Still s' s := by
  unfold execGetEndpointUuid at h; try dsimp only at h
  (repeat' split at h) <;> cases h <;> simp [Still]

theorem execGetMctpVersionSupport_still (b : Binding) (msgType : Nat) (s : State) (s' : State) (h : execGetMctpVersionSupport b msgType s = .next s') : Still s' s := by
  unfold execGetMctpVersionSupport at h; try dsimp only at h
  (repeat' split at h) <;> cases h <;> simp [Still]

theorem execGetMessageTypeSupport_still (b : Binding) (s : State) (s' : State) (h : execGetMessageTypeSupport b s = .next s') : Still s' s := by
  unfold execGetMessageTypeSupport at h; try dsimp only at h
  (repeat' split at h) <;> cases h <;> simp [Still]

theorem execGetVendorDefinedMessageSupport_still (b : Binding) (s : State) (s' : State) (h : execGetVendorDefinedMessageSupport b s = .next s') : Still s' s := by
  unfold execGetVendorDefinedMessageSupport at h; try dsimp only at h
  (repeat' split at h) <;> cases h <;> simp [Still]

theorem execGetTid_still (b : Binding) (s : State) (s' : State) (h : execGetTid b s = .next s') : Still s' s := by
  unfold execGetTid at h; try dsimp only at h
  (repeat' split at h) <;> cases h <;> simp [Still]

theorem execSetTid_still (b : Binding) (tid : Nat) (s : State) (s' : State) (h : execSetTid b tid s = .next s') : Still s' s := by
  unfold execSetTid at h; try dsimp only at h
  (repeat' split at h) <;> cases h <;> simp [Still]

theorem execGetPldmVersion_still (b : Binding) (pldmType : Nat) (s : State) (s' : State) (h : execGetPldmVersion b pldmType s = .next s') : Still s' s := by
  unfold execGetPldmVersion at h; try dsimp only at h
  (repeat' split at h) <;> cases h <;> simp [Still]

theorem execGetPldmTypes_still (b : Binding) (s : State) (s' : State) (h : execGetPldmTypes b s = .next s') : Still s' s := by
  unfold execGetPldmTypes at h; try dsimp only at h
  (repeat' split at h) <;> cases h <;> simp [Still]

theorem execGetPldmCommands_still (b : Binding) (pldmType : Nat) (s : State) (s' : State) (h : execGetPldmCommands b pldmType s = .next s') : Still s' s := by
  unfold execGetPldmCommands at h; try dsimp only at h
  (repeat' split at h) <;> cases h <;> simp [Still]

theorem execGetPdr_still (b : Binding) (sensor : Nat) (s : State) (s' : State) (h : execGetPdr b sensor s = .next s') : Still s' s := by
  unfold execGetPdr at h; try dsimp only at h
  (repeat' split at h) <;> cases h <;> simp [Still]

theorem execSetEventReceiver_still (b : Binding) (receiver : Nat) (s : State) (s' : State) (h : execSetEventReceiver b receiver s = .next s') : Still s' s := by
  unfold execSetEventReceiver at h; try dsimp only at h
  (repeat' split at h) <;> cases h <;> simp [Still]

theorem execNumericEffecterSet_still (b : Binding) (effecter watts : Nat) (s : State) (s' : State) (h : execNumericEffecterSet b effecter watts s = .next s') : Still s' s := by
  unfold execNumericEffecterSet at h; try dsimp only at h
  (repeat' split at h) <;> cases h <;> simp [Still]

theorem execRequestUpdate_still (b : Binding) (s : State) (s' : State) (h : execRequestUpdate b s = .next s') : Still s' s := by
  unfold execRequestUpdate at h; try dsimp only at h
  (repeat' split at h) <;> cases h <;> simp [Still]

theorem execVerifyComplete_still (b : Binding) (s : State) (s' : State) (h : execVerifyComplete b s = .next s') : Still s' s := by
  unfold execVerifyComplete at h; try dsimp only at h
  (repeat' split at h) <;> cases h <;> simp [Still]

theorem execActivateFirmware_still (b : Binding) (selfContained : Bool) (s : State) (s' : State) (h : execActivateFirmware b selfContained s = .next s') : Still s' s := by
  unfold execActivateFirmware at h; try dsimp only at h
  (repeat' split at h) <;> cases h <;> simp [Still]

theorem execGetStatus_still (b : Binding) (s : State) (s' : State) (h : execGetStatus b s = .next s') : Still s' s := by
  unfold execGetStatus at h; try dsimp only at h
  (repeat' split at h) <;> cases h <;> simp [Still]

theorem execCancelUpdate_still (b : Binding) (s : State) (s' : State) (h : execCancelUpdate b s = .next s') : Still s' s := by
  unfold execCancelUpdate at h; try dsimp only at h
  (repeat' split at h) <;> cases h <;> simp [Still]

theorem execGetVersion_still (doe : Bool) (s : State) (s' : State) (h : execGetVersion doe s = .next s') : Still s' s := by
  unfold execGetVersion at h; try dsimp only at h
  (repeat' split at h) <;> cases h <;> simp [Still]

theorem execGetCapabilities_still (doe : Bool) (s : State) (s' : State) (h : execGetCapabilities doe s = .next s') : Still s' s := by
  unfold execGetCapabilities at h; try dsimp only at h
  (repeat' split at h) <;> cases h <;> simp [Still]

theorem execNegotiateAlgorithms_still (doe : Bool) (supported : Bool) (s : State) (s' : State) (h : execNegotiateAlgorithms doe supported s = .next s') : Still s' s := by
  unfold execNegotiateAlgorithms at h; try dsimp only at h
  (repeat' split at h) <;> cases h <;> simp [Still]

theorem execGetDigests_still (doe : Bool) (s : State) (s' : State) (h : execGetDigests doe s = .next s') : Still s' s := by
  unfold execGetDigests at h; try dsimp only at h
  (repeat' split at h) <;> cases h <;> simp [Still]

theorem execGetCertificate_still (doe : Bool) (slot : Nat) (s : State) (s' : State) (h : execGetCertificate doe slot s = .next s') : Still s' s := by
  unfold execGetCertificate at h; try dsimp only at h
  (repeat' split at h) <;> cases h <;> simp [Still]

theorem execChallenge_still (doe : Bool) (slot : Nat) (nonce : Bytes) (s : State) (s' : State) (h : execChallenge doe slot nonce s = .next s') : Still s' s := by
  unfold execChallenge at h; try dsimp only at h
  (repeat' split at h) <;> cases h <;> simp [Still]

theorem execGetMeasurements_still (doe : Bool) (index : Nat) (s : State) (s' : State) (h : execGetMeasurements doe index s = .next s') : Still s' s := by
  unfold execGetMeasurements at h; try dsimp only at h
  (repeat' split at h) <;> cases h <;> simp [Still]

theorem execKeyExchange_still (doe : Bool) (slot : Nat) (s : State) (s' : State) (h : execKeyExchange doe slot s = .next s') : Still s' s := by
  unfold execKeyExchange at h; try dsimp only at h
  (repeat' split at h) <;> cases h <;> simp [Still]

theorem execFinish_still (doe : Bool) (verifies : Bool) (s : State) (s' : State) (h : execFinish doe verifies s = .next s') : Still s' s := by
  unfold execFinish at h; try dsimp only at h
  (repeat' split at h) <;> cases h <;> simp [Still]

theorem execHeartbeat_still (doe : Bool) (s : State) (s' : State) (h : execHeartbeat doe s = .next s') : Still s' s := by
  unfold execHeartbeat at h; try dsimp only at h
  (repeat' split at h) <;> cases h <;> simp [Still]

theorem execKeyUpdate_still (doe : Bool) (s : State) (s' : State) (h : execKeyUpdate doe s = .next s') : Still s' s := by
  unfold execKeyUpdate at h; try dsimp only at h
  (repeat' split at h) <;> cases h <;> simp [Still]

theorem execEndSession_still (doe : Bool) (s : State) (s' : State) (h : execEndSession doe s = .next s') : Still s' s := by
  unfold execEndSession at h; try dsimp only at h
  (repeat' split at h) <;> cases h <;> simp [Still]

theorem execQuery_still (s : State) (s' : State) (h : execQuery s = .next s') : Still s' s := by
  unfold execQuery at h; try dsimp only at h
  (repeat' split at h) <;> cases h <;> simp [Still]

theorem execKeyProg_still (stream : Nat) (key : Bytes) (s : State) (s' : State) (h : execKeyProg stream key s = .next s') : Still s' s := by
  unfold execKeyProg at h; try dsimp only at h
  (repeat' split at h) <;> cases h <;> simp [Still]

theorem execKSetGo_root (stream : Nat) (s : State) (s' : State) (h : execKSetGo stream s = .next s') : Root s' s := by
  unfold execKSetGo at h; try dsimp only at h
  (repeat' split at h) <;> cases h <;> simp [Root]

theorem execKSetGo_pair (stream : Nat) (s : State) (s' : State) (h : execKSetGo stream s = .next s') : Pair s' s := by
  unfold execKSetGo at h; try dsimp only at h
  (repeat' split at h) <;> cases h <;> simp [Pair]

theorem execKSetStop_still (stream : Nat) (s : State) (s' : State) (h : execKSetStop stream s = .next s') : Still s' s := by
  unfold execKSetStop at h; try dsimp only at h
  (repeat' split at h) <;> cases h <;> simp [Still]

theorem execGetKey_still (stream : Nat) (s : State) (s' : State) (h : execGetKey stream s = .next s') : Still s' s := by
  unfold execGetKey at h; try dsimp only at h
  (repeat' split at h) <;> cases h <;> simp [Still]

theorem execHarnessWritebackDone_still (h : Nat) (s : State) (s' : State) (h : execHarnessWritebackDone h s = .next s') : Still s' s := by
  unfold execHarnessWritebackDone at h; try dsimp only at h
  (repeat' split at h) <;> cases h <;> simp [Still]

theorem execFlashWriteDone_root (job : FlashJob) (s : State) (s' : State) (h : execFlashWriteDone job s = .next s') : Root s' s := by
  unfold execFlashWriteDone at h; try dsimp only at h
  (repeat' split at h) <;> cases h <;> simp [Root]

theorem execFlashWriteDone_pair (job : FlashJob) (s : State) (s' : State) (h : execFlashWriteDone job s = .next s') : Pair s' s := by
  unfold execFlashWriteDone at h; try dsimp only at h
  (repeat' split at h) <;> cases h <;> simp [Pair]

theorem execJtagInstruction_still (i : JtagInstr) (s : State) (s' : State) (h : execJtagInstruction i s = .next s') : Still s' s := by
  unfold execJtagInstruction at h; try dsimp only at h
  (repeat' split at h) <;> cases h <;> simp [Still]

theorem execCxlCacheSnoop_still (line : Nat) (s : State) (s' : State) (h : execCxlCacheSnoop line s = .next s') : Still s' s := by
  unfold execCxlCacheSnoop at h; try dsimp only at h
  (repeat' split at h) <;> cases h <;> simp [Still]

theorem execUioRequestReceived_still (fn : Nat) (uio : Bool) (s : State) (s' : State) (h : execUioRequestReceived fn uio s = .next s') : Still s' s := by
  unfold execUioRequestReceived at h; try dsimp only at h
  (repeat' split at h) <;> cases h <;> simp [Still]

theorem execCartridgeInsert_still (c : Nat) (s : State) (s' : State) (h : execCartridgeInsert c s = .next s') : Still s' s := by
  unfold execCartridgeInsert at h; try dsimp only at h
  (repeat' split at h) <;> cases h <;> simp [Still]

theorem execFailedWarmStartReport_root (s : State) (s' : State) (h : execFailedWarmStartReport s = .next s') : Root s' s := by
  unfold execFailedWarmStartReport at h; try dsimp only at h
  (repeat' split at h) <;> cases h <;> simp [Root]

theorem execTaskEnd_still (d : TaskDone) (s : State) (s' : State) (h : execTaskEnd d s = .next s') : Still s' s := by
  unfold execTaskEnd at h
  split at h
  · cases h; exact ⟨rfl, rfl, rfl, rfl, rfl, rfl, rfl, rfl, rfl⟩
  dsimp only at h
  have h1 : Still (s.tellAborts (s.attempt d.ref)) s := Still_trans (State.tellAborts_still _ _) (State.attempt_still _ _)
  generalize s.tellAborts (s.attempt d.ref) = s1 at h h1
  (repeat' split at h) <;> (have h := Host.Outcome.next.inj h; subst h; refine Still_trans ?_ h1; simp [Still])

theorem execDataFrameReceived_root (port : Nat) (frame : PortFrame) (s : State) (s' : State)
    (h : execDataFrameReceived port frame s = .next s') : Root s' s := by
  unfold execDataFrameReceived at h; dsimp only at h
  split at h
  · cases h; simp [Root]
  split at h
  · cases h; simp [Root]
  · have h := Host.Outcome.next.inj h
    subst h
    split
    · split <;> simp [Root]
    · refine Root_trans (Still.root (State.routeFrame_still _ _ _)) ?_
      split <;> simp [Root]

theorem execHeldItemReceived_still (item : HeldItem) (s : State) (s' : State) (h : execHeldItemReceived item s = .next s') : Still s' s := by
  unfold execHeldItemReceived at h; try dsimp only at h
  (repeat' split at h) <;> cases h <;> first
    | (simp [Still]; done)
    | (rename_i e; exact Still_trans (by simp [Still]) (State.mirrorWrites_still _ _ _ e))
    | (cases e : s.mirrorWrites _ with
        | none => simp [Still]
        | some s1 => exact State.mirrorWrites_still _ _ _ e)

theorem execReplayApply_still (s : State) (s' : State) (h : execReplayApply s = .next s') : Still s' s := by
  unfold execReplayApply at h; try dsimp only at h
  (repeat' split at h) <;> cases h <;> first
    | (simp [Still]; done)
    | (rename_i e; exact Still_trans (by simp [Still]) (State.mirrorWrites_still _ _ _ e))
    | (cases e : s.mirrorWrites _ with
        | none => simp [Still]
        | some s1 => exact State.mirrorWrites_still _ _ _ e)

theorem execAccumulatorForwardReceived_still (addr : Nat) (data : Bytes) (s : State) (s' : State) (h : execAccumulatorForwardReceived addr data s = .next s') : Still s' s := by
  unfold execAccumulatorForwardReceived at h; try dsimp only at h
  (repeat' split at h) <;> cases h <;> first
    | (simp [Still]; done)
    | (rename_i e; exact Still_trans (by simp [Still]) (State.mirrorWrites_still _ _ _ e))
    | (cases e : s.mirrorWrites _ with
        | none => simp [Still]
        | some s1 => exact State.mirrorWrites_still _ _ _ e)

theorem execRecopyDone_root (own theirs : List CopiedBlock) (s : State) (s' : State) (h : execRecopyDone own theirs s = .next s') : Root s' s := by
  unfold execRecopyDone at h; dsimp only at h
  split at h
  · cases h; exact ⟨rfl, rfl, rfl, rfl⟩
  split at h
  · cases h; exact Still.root (Still_trans (State.memEvent_still _ _) ⟨rfl, rfl, rfl, rfl, rfl, rfl, rfl, rfl, rfl⟩)
  split at h
  · cases h; exact Still.root (Still_trans (State.memEvent_still _ _) ⟨rfl, rfl, rfl, rfl, rfl, rfl, rfl, rfl, rfl⟩)
  · rename_i e
    cases h
    refine Root_trans (State.recopyEnd_root _) ?_
    have g := Still.root (State.mirrorWrites_still _ _ _ e)
    exact ⟨g.1, g.2.1, g.2.2.1, g.2.2.2⟩

theorem execObjLoadStoreDone_still (jno : Nat) (host : HostView) (writeOk : Bool) (s : State) (s' : State) (h : execObjLoadStoreDone jno host writeOk s = .next s') : Still s' s := by
  unfold execObjLoadStoreDone at h
  (repeat' first | split at h | dsimp only at h) <;> (have h := Host.Outcome.next.inj h; subst h; (repeat' split) <;> simp [Still])

theorem execCommitStep_root (s : State) (s' : State) (h : execCommitStep s = .next s') : Root s' s := by
  unfold execCommitStep at h
  split at h
  · cases h; exact ⟨rfl, rfl, rfl, rfl⟩
  dsimp only at h
  split at h
  · cases h; exact ⟨rfl, rfl, rfl, rfl⟩
  split at h
  · cases h; exact Root_trans (Still.root (State.snoop_still _ _)) ⟨rfl, rfl, rfl, rfl⟩
  · have h := Host.Outcome.next.inj h
    generalize hx : State.sendInterrupts _ = s1 at h
    have g : Root s1 s := by
      rw [← hx]
      exact Root_trans (Still.root (State.sendInterrupts_still _)) (Root_trans (Still.root (State.draftFinal_still _))
        (Root_trans (Still.root (State.commitCore_still _)) ⟨rfl, rfl, rfl, rfl⟩))
    rw [← h]
    have k : ∀ (u : State) (c : Core), Root u s → Root { u with committed := c, undo := [] } s := fun _ _ h => h
    exact k _ _ (Root_trans (Still.root (State.hostGo_still _)) ⟨g.1, g.2.1, g.2.2.1, g.2.2.2⟩)

theorem execCommitStep_pair (s : State) (s' : State) (h : execCommitStep s = .next s') : Pair s' s := by
  unfold execCommitStep at h
  split at h
  · cases h; exact rfl
  dsimp only at h
  split at h
  · cases h; exact rfl
  split at h
  · cases h; exact Pair_trans (Still.pair (State.snoop_still _ _)) rfl
  · have h := Host.Outcome.next.inj h
    generalize hx : State.sendInterrupts _ = s1 at h
    have g : Pair s1 s := by
      rw [← hx]
      exact Pair_trans (Still.pair (State.sendInterrupts_still _)) (Pair_trans (Still.pair (State.draftFinal_still _))
        (Pair_trans (Still.pair (State.commitCore_still _)) rfl))
    rw [← h]
    have k : ∀ (u : State) (c : Core), Pair u s → Pair { u with committed := c, undo := [] } s := fun _ _ h => h
    exact k _ _ (Pair_trans (Still.pair (State.hostGo_still _)) g)

theorem execRecopyDone_clock (own theirs : List CopiedBlock) (s : State) (s' : State) (h : execRecopyDone own theirs s = .next s') : Clock s' s := by
  unfold execRecopyDone at h; dsimp only at h
  split at h
  · cases h; exact ⟨rfl, rfl, rfl, rfl⟩
  split at h
  · cases h; exact Still.clock (Still_trans (State.memEvent_still _ _) ⟨rfl, rfl, rfl, rfl, rfl, rfl, rfl, rfl, rfl⟩)
  split at h
  · cases h; exact Still.clock (Still_trans (State.memEvent_still _ _) ⟨rfl, rfl, rfl, rfl, rfl, rfl, rfl, rfl, rfl⟩)
  · rename_i e
    cases h
    refine Clock_trans (State.recopyEnd_clock _) ?_
    have g := Still.clock (State.mirrorWrites_still _ _ _ e)
    exact ⟨g.1, g.2.1, g.2.2.1, g.2.2.2⟩

end Sys2Proof.Machine
end

