-- ==== Sys2Proof/Laws/Memory.lean ====
section
/-! SUPPORT. Sys2Proof/Laws/Memory.lean: the canonical form of device memory: every operation that writes memory keeps it, a read after
a write gives what was written, and the memory of reset has it. -/

set_option linter.unusedSimpArgs false

namespace Sys2Proof.Machine

/-! ### Rising lists -/

theorem keysRise_iff {α : Type} (l : List (Nat × α)) : keysRise l = true ↔ l.Pairwise fun p q => p.1 < q.1 := by
  induction l with
  | nil => simp [keysRise]
  | cons p l ih =>
    cases l with
    | nil => simp [keysRise]
    | cons q l =>
      simp only [keysRise, Bool.and_eq_true, decide_eq_true_eq, ih]
      constructor
      · intro h
        rw [List.pairwise_cons]
        refine ⟨fun r hr => ?_, h.2⟩
        rcases List.mem_cons.mp hr with e | e
        · rw [e]; exact h.1
        · exact Nat.lt_trans h.1 ((List.pairwise_cons.mp h.2).1 r e)
      · intro h
        rw [List.pairwise_cons] at h
        exact ⟨h.1 q (by simp), h.2⟩

theorem keysRise_nil {α : Type} : keysRise ([] : List (Nat × α)) = true := rfl

theorem keysRise_filter {α : Type} (l : List (Nat × α)) (f : Nat × α → Bool) (h : keysRise l = true) :
    keysRise (l.filter f) = true := by
  rw [keysRise_iff] at h ⊢
  exact h.sublist List.filter_sublist

theorem keysRise_dropKeys {α : Type} (l : List (Nat × α)) (a n : Nat) (h : keysRise l = true) : keysRise (dropKeys l a n) = true :=
  keysRise_filter l _ h

theorem keysRise_pickKeys {α : Type} (l : List (Nat × α)) (a n : Nat) (h : keysRise l = true) : keysRise (pickKeys l a n) = true :=
  keysRise_filter l _ h

theorem mem_putKey {α : Type} (l : List (Nat × α)) (k : Nat) (v : α) (p : Nat × α) (h : p ∈ putKey l k v) : p.1 = k ∨ p ∈ l := by
  induction l with
  | nil => simp [putKey] at h; exact .inl (by rw [h])
  | cons q l ih =>
    simp only [putKey] at h
    split at h
    · rcases List.mem_cons.mp h with e | e
      · exact .inl (by rw [e])
      · exact .inr e
    · split at h
      · rcases List.mem_cons.mp h with e | e
        · exact .inl (by rw [e])
        · exact .inr (List.mem_cons_of_mem _ e)
      · rcases List.mem_cons.mp h with e | e
        · exact .inr (by rw [e]; simp)
        · rcases ih e with g | g
          · exact .inl g
          · exact .inr (List.mem_cons_of_mem _ g)

theorem keysRise_putKey {α : Type} (l : List (Nat × α)) (k : Nat) (v : α) (h : keysRise l = true) : keysRise (putKey l k v) = true := by
  rw [keysRise_iff] at h ⊢
  induction l with
  | nil => simp [putKey]
  | cons q l ih =>
    rw [List.pairwise_cons] at h
    simp only [putKey]
    split
    · rename_i c
      rw [List.pairwise_cons]
      refine ⟨fun r hr => ?_, List.pairwise_cons.mpr h⟩
      rcases List.mem_cons.mp hr with e | e
      · rw [e]; exact c
      · exact Nat.lt_trans c (h.1 r e)
    · split
      · rename_i c d
        rw [List.pairwise_cons]
        exact ⟨fun r hr => by have := h.1 r hr; show k < r.1; omega, h.2⟩
      · rename_i c d
        rw [List.pairwise_cons]
        refine ⟨fun r hr => ?_, ih h.2⟩
        rcases mem_putKey l k v r hr with e | e
        · rw [e]; simp at c d; omega
        · exact h.1 r e

theorem keysRise_putAll {α : Type} (es l : List (Nat × α)) (h : keysRise l = true) : keysRise (putAll l es) = true := by
  unfold putAll
  induction es generalizing l with
  | nil => exact h
  | cons e es ih => exact ih _ (keysRise_putKey l e.1 e.2 h)

theorem mem_runCells (a : Nat) (bs : Bytes) (p : Host.Cell) (h : p ∈ runCells a bs) : a ≤ p.1 ∧ p.1 < a + bs.length := by
  induction bs generalizing a with
  | nil => simp [runCells] at h
  | cons b bs ih =>
    simp only [runCells] at h
    rcases List.mem_cons.mp h with e | e
    · rw [e]; simp
    · have := ih _ e; simp only [List.length_cons]; omega

theorem keysRise_runCells (a : Nat) (bs : Bytes) : keysRise (runCells a bs) = true := by
  rw [keysRise_iff]
  induction bs generalizing a with
  | nil => simp [runCells]
  | cons b bs ih =>
    simp only [runCells, List.pairwise_cons]
    exact ⟨fun r hr => by have := mem_runCells _ _ r hr; show a < r.1; omega, ih _⟩

theorem keysRise_putBytes (l : List Host.Cell) (a : Nat) (bs : Bytes) (h : keysRise l = true) : keysRise (putBytes l a bs) = true := by
  have h1 := (keysRise_iff _).mp (keysRise_filter l (fun p => decide (p.1 < a)) h)
  have h2 := (keysRise_iff _).mp (keysRise_runCells a bs)
  have h3 := (keysRise_iff _).mp (keysRise_filter l (fun p => decide (a + bs.length ≤ p.1)) h)
  rw [keysRise_iff]
  unfold putBytes
  rw [List.pairwise_append, List.pairwise_append]
  refine ⟨⟨h1, h2, fun p hp q hq => ?_⟩, h3, fun p hp q hq => ?_⟩
  · have := mem_runCells _ _ q hq; simp at hp; omega
  · simp at hq
    rcases List.mem_append.mp hp with e | e
    · simp at e; omega
    · have := mem_runCells _ _ p e; omega

theorem keysRise_shift {α : Type} (l : List (Nat × α)) (k : Nat) (h : keysRise l = true) :
    keysRise ((l.filter fun e => k ≤ e.1).map fun e => (e.1 - k, e.2)) = true := by
  have h1 := (keysRise_iff _).mp (keysRise_filter l (fun e => decide (k ≤ e.1)) h)
  rw [keysRise_iff, List.pairwise_map]
  refine List.Pairwise.imp_of_mem ?_ h1
  intro p q hp hq hpq
  simp at hp hq
  show p.1 - k < q.1 - k
  omega

theorem foldl_rise {α β : Type} (f : List (Nat × α) → β → List (Nat × α)) (hf : ∀ l b, keysRise l = true → keysRise (f l b) = true)
    (bs : List β) (l : List (Nat × α)) (h : keysRise l = true) : keysRise (bs.foldl f l) = true := by
  induction bs generalizing l with
  | nil => exact h
  | cons b bs ih => exact ih _ (hf l b h)

/-! ### Reads of keyed lists -/

theorem getKey_putKey {α : Type} (l : List (Nat × α)) (k j : Nat) (v : α) (h : keysRise l = true) :
    getKey (putKey l k v) j = if j = k then some v else getKey l j := by
  have h' := (keysRise_iff _).mp h
  clear h
  induction l with
  | nil => simp [putKey, getKey]
  | cons q l ih =>
    rw [List.pairwise_cons] at h'
    have ih := ih h'.2
    simp only [putKey]
    split
    · simp only [getKey]
    · split
      · rename_i c d
        simp only [getKey]
        by_cases e : j = k
        · simp [e]
        · simp [e, ← d]
      · rename_i c d
        simp only [getKey, ih]
        by_cases e : j = k
        · subst e; simp [d]
        · simp [e]

theorem getKey_append {α : Type} (l m : List (Nat × α)) (k : Nat) : getKey (l ++ m) k = (getKey l k).orElse fun _ => getKey m k := by
  induction l with
  | nil => simp [getKey]
  | cons q l ih => simp only [List.cons_append, getKey, ih]; split <;> simp

theorem getKey_filter {α : Type} (l : List (Nat × α)) (f : Nat → Bool) (k : Nat) :
    getKey (l.filter fun p => f p.1) k = if f k then getKey l k else none := by
  induction l with
  | nil => simp [getKey]
  | cons q l ih =>
    simp only [List.filter_cons]
    split
    · rename_i c
      simp only [getKey, ih]
      by_cases e : k = q.1
      · subst e; simp [c]
      · simp [e]
    · rename_i c
      rw [ih]
      by_cases e : k = q.1
      · subst e; simp [c]
      · simp [getKey, e]

theorem getKey_runCells (a k : Nat) (bs : Bytes) : getKey (runCells a bs) k = if a ≤ k then bs[k - a]? else none := by
  induction bs generalizing a with
  | nil => simp [runCells, getKey]
  | cons b bs ih =>
    simp only [runCells, getKey, ih]
    by_cases e : k = a
    · simp [e]
    · by_cases c : a ≤ k
      · have d : a + 1 ≤ k := by omega
        have : k - a = (k - (a + 1)) + 1 := by omega
        simp only [if_neg e, if_pos c, if_pos d, this, List.getElem?_cons_succ]
      · have d : ¬ a + 1 ≤ k := by omega
        simp [e, c, d]

/-- A byte read after bytes are put is the byte put there, and the old one elsewhere. -/
theorem getKey_putBytes (l : List Host.Cell) (a k : Nat) (bs : Bytes) :
    getKey (putBytes l a bs) k = if a ≤ k ∧ k < a + bs.length then bs[k - a]? else getKey l k := by
  unfold putBytes
  rw [getKey_append, getKey_append, getKey_filter l (fun x => decide (x < a)), getKey_runCells,
    getKey_filter l (fun x => decide (a + bs.length ≤ x))]
  by_cases c : k < a
  · have c1 : ¬ a ≤ k := by omega
    have c2 : ¬ a + bs.length ≤ k := by omega
    simp only [c, c1, c2, decide_true, decide_false, if_true, if_false, Bool.false_eq_true, false_and]
    cases getKey l k <;> rfl
  · have c1 : a ≤ k := by omega
    by_cases d : k < a + bs.length
    · have e : ¬ a + bs.length ≤ k := by omega
      have g : k - a < bs.length := by omega
      simp [c, c1, d, e, g]
    · have e : a + bs.length ≤ k := by omega
      have g : bs[k - a]? = none := by simp; omega
      simp [c, c1, d, e, g]

/-! ### Device memory keeps its canonical form -/

/-- The memory of reset. -/
theorem reset_mem_wf : State.reset.core.mem.wf ∧ State.reset.committed.mem.wf ∧ State.reset.twin.mirror.mem.wf := by decide

theorem Memory.replaceBlock_wf (m : Memory) (h : HeldBlock) (hm : m.wf) : (m.replaceBlock h).wf :=
  ⟨keysRise_putAll _ _ (keysRise_dropKeys _ _ _ hm.1), keysRise_putAll _ _ (keysRise_dropKeys _ _ _ hm.2)⟩

theorem Memory.foldl_wf {β : Type} (f : Memory → β → Memory) (hf : ∀ m b, m.wf → (f m b).wf) (bs : List β) (m : Memory) (h : m.wf) :
    (bs.foldl f m).wf := by
  induction bs generalizing m with
  | nil => exact h
  | cons b bs ih => exact ih _ (hf m b h)

theorem Core.foldl_wf {β : Type} (f : Core → β → Core) (hf : ∀ c b, c.mem.wf → (f c b).mem.wf) (bs : List β) (c : Core) (h : c.mem.wf) :
    (bs.foldl f c).mem.wf := by
  induction bs generalizing c with
  | nil => exact h
  | cons b bs ih => exact ih _ (hf c b h)

theorem Core.view_wf (c : Core) (x : Nat) (h : c.mem.wf) : (c.view x).wf :=
  Memory.foldl_wf _ (fun m b => Memory.replaceBlock_wf m b) _ _ h

theorem Memory.takeBlock_wf (m : Memory) (ctx a : Nat) (r : Option Nat) (h : m.wf) :
    ({ cells := (m.takeBlock ctx a r).cells, sectors := (m.takeBlock ctx a r).sectors } : Memory).wf :=
  ⟨keysRise_pickKeys _ _ _ h.1, keysRise_pickKeys _ _ _ h.2⟩

/-- A write keeps the canonical form. -/
theorem Core.writeMem_wf (c : Core) (m : Memory) (a : Nat) (data : Bytes) (h : m.wf) : (c.writeMem m a data).wf := by
  unfold Core.writeMem
  dsimp only
  have h1 : ∀ l : List Nat, (l.foldl (fun (m : Memory) sec =>
      if a ≤ 64 * sec ∧ 64 * sec + 64 ≤ a + data.length then { m with sectors := putKey m.sectors sec .valid }
      else match getKey m.sectors sec with
        | some _ => m
        | none =>
          if c.syndrome m sec = 0 then
            { cells := putBytes m.cells (64 * sec) (c.memBytes m (64 * sec) 64)
              sectors := putKey m.sectors sec .valid }
          else m) m).wf := by
    intro l
    refine Memory.foldl_wf _ (fun m sec hm => ?_) l m h
    split
    · exact ⟨hm.1, keysRise_putKey _ _ _ hm.2⟩
    · split
      · exact hm
      · split
        · exact ⟨keysRise_putBytes _ _ _ hm.1, keysRise_putKey _ _ _ hm.2⟩
        · exact hm
  have h2 := h1 (sectorsOf a data.length)
  exact ⟨keysRise_putBytes _ _ _ h2.1, h2.2⟩

/-- After a write, each byte of it reads as written. -/
theorem Core.writeMem_same (c : Core) (m : Memory) (a k : Nat) (data : Bytes) (h : a ≤ k) (h2 : k < a + data.length) :
    getKey (c.writeMem m a data).cells k = data[k - a]? := by
  unfold Core.writeMem
  dsimp only
  rw [getKey_putBytes, if_pos ⟨h, h2⟩]

theorem Memory.mirrorWrite_wf (m : Memory) (a : Nat) (data : Bytes) (h : m.wf) : (m.mirrorWrite a data).wf :=
  ⟨keysRise_putBytes _ _ _ h.1, foldl_rise _ (fun l k => keysRise_putKey l k _) _ _ h.2⟩

/-- A byte of the mirror after a write of it. -/
theorem Memory.mirrorWrite_byte (m : Memory) (a k : Nat) (data : Bytes) :
    getKey (m.mirrorWrite a data).cells k = if a ≤ k ∧ k < a + data.length then data[k - a]? else getKey m.cells k :=
  getKey_putBytes _ _ _ _

theorem Memory.setSector_wf (m : Memory) (sec : Nat) (st : SectorSt) (data : Option Bytes) (h : m.wf) : (m.setSector sec st data).wf := by
  refine ⟨?_, keysRise_putKey _ _ _ h.2⟩
  cases data with
  | none => exact h.1
  | some d => exact keysRise_putBytes _ _ _ h.1

theorem State.repairWrite_wf (s : State) (sec : Nat) (st : SectorSt) (data : Option Bytes) (h : s.core.mem.wf) (h2 : s.committed.mem.wf) :
    (s.repairWrite sec st data).core.mem.wf ∧ (s.repairWrite sec st data).committed.mem.wf := by
  exact ⟨Memory.setSector_wf _ _ _ _ h, Memory.setSector_wf _ _ _ _ h2⟩

theorem Core.mergeParts_wf (c : Core) (a n : Nat) (h : c.mem.wf) : (c.mergeParts a n).mem.wf := by
  unfold Core.mergeParts
  refine Core.foldl_wf _ (fun c sec hc => ?_) _ _ h
  split
  · exact hc
  · dsimp only
    split
    · exact ⟨hc.1, keysRise_putKey _ _ _ hc.2⟩
    · exact hc

theorem Core.takeShadow_mem (c c1 : Core) (a : Nat) (h : c.takeShadow a = some c1) : c1.mem = c.mem := by
  unfold Core.takeShadow at h
  (repeat' split at h) <;> cases h <;> rfl

theorem Core.touchLine_mem (c : Core) (r l m : Nat) : (c.touchLine r l m).1.mem = c.mem := by
  unfold Core.touchLine
  dsimp only
  split <;> rfl

theorem Core.setWhole_mem (c : Core) (a : Nat) : (c.setWhole a).mem = c.mem := rfl

/-- An engine's write to a shadow block leaves memory as it is. -/
theorem Core.shadowWrite_mem (c : Core) (x a : Nat) (data : Bytes) (fill : Bool) : (c.shadowWrite x a data fill).1.mem = c.mem := by
  have e : ∀ (d : Core) (l : Nat), ((if l = 16384 then d.setWhole a else d).dropCovered a l).mem = d.mem := by
    intro d l; split <;> rfl
  unfold Core.shadowWrite
  generalize c.coded a data = w
  dsimp only
  split
  · exact e c _
  · split
    · rfl
    · rename_i c' hc
      exact (Core.takeShadow_mem _ _ _ hc).trans (e c _)

/-- An engine that keeps a range at some bytes writes shadow blocks only. -/
theorem Core.engineKeep_mem (c : Core) (x a : Nat) (data : Bytes) : (c.engineKeep x a data).1.mem = c.mem := by
  unfold Core.engineKeep
  generalize blockPieces _ a data = l
  have h : ∀ (l : List (Nat × Bytes)) (p : Core × Bool), (l.foldl (fun (p : Core × Bool) e =>
      if p.1.holds e.1 e.2 then p else ((p.1.shadowWrite x e.1 e.2 false).1, p.2 && (p.1.shadowWrite x e.1 e.2 false).2)) p).1.mem
      = p.1.mem := by
    intro l
    induction l with
    | nil => intro p; rfl
    | cons e l ih =>
      intro p
      rw [List.foldl_cons, ih]
      split
      · rfl
      · exact Core.shadowWrite_mem _ _ _ _ _
  exact h l (c, true)

theorem Core.cuWriteBlock_wf (c : Core) (t : TaskRef) (x r : Nat) (o : Obj) (a : Nat) (data : Bytes) (h : c.mem.wf) :
    (c.cuWriteBlock t x r o a data).1.mem.wf := by
  unfold Core.cuWriteBlock
  dsimp only
  split
  · show (c.shadowWrite x a data true).1.mem.wf
    rw [Core.shadowWrite_mem]; exact h
  split
  · exact h
  · split
    · exact h
    · rename_i c1 hc
      have hm : c1.mem = c.mem := by
        split at hc
        · exact Core.takeShadow_mem _ _ _ hc
        · cases hc; rfl
      have w : ∀ d : Core, d.mem = c.mem → (c.writeMem d.mem a data).wf := fun d hd => by rw [hd]; exact Core.writeMem_wf _ _ _ _ h
      have w1 := w c1 hm
      (repeat' split) <;>
        first
          | exact w1
          | exact Core.mergeParts_wf _ _ _ w1

theorem Core.freeObj_wf (c : Core) (i : Nat) (h : c.mem.wf) : (c.freeObj i).mem.wf :=
  ⟨keysRise_dropKeys _ _ _ h.1, keysRise_dropKeys _ _ _ h.2⟩

theorem Core.quantizeBlock_wf (c : Core) (b : Nat) (o : Obj) (h : c.mem.wf) : (c.quantizeBlock b o).mem.wf := by
  unfold Core.quantizeBlock
  dsimp only
  generalize List.range 256 = l
  refine Core.foldl_wf _ (fun c k hc => ?_) _ _ h
  split
  · exact ⟨keysRise_putBytes _ _ _ hc.1, hc.2⟩
  · exact hc

theorem Core.switchBlock_wf (n : Nat) (c : Core) (b : HeldBlock) (h : c.mem.wf) : (c.switchBlock n b).mem.wf :=
  Memory.replaceBlock_wf _ _ h

theorem Core.restoreCtx_wf (c : Core) (x : Nat) (h : c.mem.wf) : (c.restoreCtx x).mem.wf :=
  Memory.foldl_wf _ (fun m b => Memory.replaceBlock_wf m b) _ _ h

theorem State.foldl_wf {β : Type} (f : State → β → State) (hf : ∀ s b, s.core.mem.wf → (f s b).core.mem.wf) (bs : List β) (s : State)
    (h : s.core.mem.wf) : (bs.foldl f s).core.mem.wf := by
  induction bs generalizing s with
  | nil => exact h
  | cons b bs ih => exact ih _ (hf s b h)

theorem State.cancelRepairs_mem (s : State) (a n : Nat) : (s.cancelRepairs a n).core.mem = s.core.mem := by
  have h : ∀ (l : List Repair) (s : State), (l.foldl (fun s r => s.logOutcome r.log 4) s).core = s.core := by
    intro l
    induction l with
    | nil => intro s; rfl
    | cons r l ih => intro s; exact ih _
  unfold State.cancelRepairs
  simp only [State.withCore, Core.dropCovered, h]

/-- A task's write keeps the canonical form. -/
theorem State.taskWrite_wf (s : State) (t : TaskRef) (a : Nat) (data : Bytes) (h : s.core.mem.wf) : (s.taskWrite t a data).core.mem.wf := by
  have hr : ∀ (c : Core) code detail, c.mem.wf → (c.raiseTask t code detail).mem.wf := by
    intro c code detail hc
    unfold Core.raiseTask
    split
    · exact hc
    · exact hc
  unfold State.taskWrite
  split
  · rename_i ctx task _ _
    split
    · exact hr _ _ _ h
    · dsimp only
      split
      · exact hr _ _ _ h
      · split
        · unfold State.noteSnoop; split <;> exact h
        · refine State.foldl_wf _ (fun s e h => ?_) _ _ h
          split
          · exact h
          · split
            · exact hr _ _ _ h
            · exact h
            · rw [State.cancelRepairs_mem]; exact Core.cuWriteBlock_wf _ _ _ _ _ _ _ h
            · rw [State.cancelRepairs_mem]; exact Core.cuWriteBlock_wf _ _ _ _ _ _ _ h
  · exact h

theorem State.withCore_wf (s : State) (f : Core → Core) (hf : ∀ c, c.mem.wf → (f c).mem.wf) (h : s.core.mem.wf) : (s.withCore f).core.mem.wf :=
  hf _ h

end Sys2Proof.Machine
end

