-- ==== Sys2Proof/Laws/Quiesce.lean ====
section
/-! SUPPORT. Sys2Proof/Laws/Quiesce.lean: what the emergency quiesce leaves, said once. -/

set_option linter.unusedSimpArgs false

namespace Sys2Proof.Machine

theorem retake_keeps (es : List JEntry) (c : Core) :
    (c.retake es).mem = c.mem ∧ (c.retake es).objs = c.objs ∧ (c.retake es).ctxs = c.ctxs ∧ (c.retake es).draft = c.draft := by
  unfold Core.retake
  generalize es.filter _ = l
  have h : ∀ (l : List JEntry) (d : Core), (l.foldl Core.takeEntry d).mem = d.mem ∧ (l.foldl Core.takeEntry d).objs = d.objs ∧
      (l.foldl Core.takeEntry d).ctxs = d.ctxs ∧ (l.foldl Core.takeEntry d).draft = d.draft := by
    intro l
    induction l with
    | nil => intro d; exact ⟨rfl, rfl, rfl, rfl⟩
    | cons e l ih => intro d; exact ih (d.takeEntry e)
  exact h l _

/-- What the undoing of a beat leaves as it is. -/
theorem State.undoBeat_keeps (s : State) :
    s.undoBeat.core = s.core ∧ s.undoBeat.committed = s.committed ∧ s.undoBeat.out = s.out ∧ s.undoBeat.flash = s.flash ∧
      s.undoBeat.flog.entries = s.flog.entries ∧ s.undoBeat.glb.state = s.glb.state ∧ s.undoBeat.ord.entries = s.ord.entries ∧
      s.undoBeat.pick.counter = s.pick.counter := by
  unfold State.undoBeat
  have h : ∀ (l : List (Aside × Aside)) (s : State),
      let u := l.foldl State.undoStep s
      u.core = s.core ∧ u.committed = s.committed ∧ u.out = s.out ∧ u.flash = s.flash ∧ u.flog.entries = s.flog.entries ∧
        u.glb.state = s.glb.state ∧ u.ord.entries = s.ord.entries ∧ u.pick.counter = s.pick.counter := by
    intro l
    induction l with
    | nil => intro s; exact ⟨rfl, rfl, rfl, rfl, rfl, rfl, rfl, rfl⟩
    | cons e l ih => intro s; obtain ⟨h1, h2, h3, h4, h5, h6, h7, h8⟩ := ih (s.undoStep e); exact ⟨h1, h2, h3, h4, h5, h6, h7, h8⟩
  exact h s.undo s

/-- The rollback of R41 and R64 brings the last completed beat back, with its own copy unchanged. -/
theorem State.rollback_eq (s : State) :
    s.rollback.core.mem = s.committed.mem ∧ s.rollback.core.objs = s.committed.objs ∧ s.rollback.core.ctxs = s.committed.ctxs ∧
      s.rollback.core.draft = s.committed.draft ∧ s.rollback.committed = s.committed ∧ s.rollback.pick.phase = .span ∧
      s.rollback.pick.counter = s.pick.counter ∧ s.rollback.out = s.out ∧ s.rollback.flog.entries = s.flog.entries ∧
      s.rollback.flash = s.flash ∧ s.rollback.glb.state = s.glb.state := by
  obtain ⟨h1, h2, h3, h4⟩ := retake_keeps s.ord.entries s.committed
  obtain ⟨_, k2, k3, k4, k5, k6, _, k8⟩ := s.undoBeat_keeps
  exact ⟨h1, h2, h3, h4, k2, rfl, k8, k3, k5, k4, k6⟩

/-- Flushing the reports changes FLOG alone. -/
theorem State.flushReports_eq (s : State) : s.flushReports = { s with flog := s.flushReports.flog } := by
  unfold State.flushReports
  dsimp only
  have h : ∀ (l : List FlogEntry) (s : State), l.foldl State.flogWrite s = { s with flog := (l.foldl State.flogWrite s).flog } := by
    intro l
    induction l with
    | nil => intro s; rfl
    | cons e l ih => intro s; rw [List.foldl_cons, ih]; rfl
  rw [h]

end Sys2Proof.Machine
end

