-- ==== Sys2Proof/Laws/Shared.lean ====
section
/-! SUPPORT. Sys2Proof/Laws/Shared.lean: what the shared operations do, said once: event bits, the mailbox's acceptance and its response,
orders by journal number, the acceptance of a ready order and its completion. -/

set_option linter.unusedSimpArgs false

namespace Sys2Proof.Machine

/-! ### Event bits -/

/-- A bit set in an event register: that bit is set, every other one stays. -/
theorem testBit_orBit (v b i : Nat) : (orBit v b).testBit i = (v.testBit i || i == b) := by
  have : (orBit v b) = v ||| 2^b := rfl
  rw [this, Nat.testBit_or, Nat.testBit_two_pow]; congr 1; by_cases h : b = i <;> simp [h]; exact fun e => h e.symm

/-- A register after a write of ones to some bits: those bits are clear, every other one stays (W1C). -/
theorem testBit_clear (a b i : Nat) : (clearBits a b).testBit i = (a.testBit i && !b.testBit i) := by
  have e : clearBits a b = a ^^^ (a &&& b) := by
    show a - (a &&& b) = _
    apply Nat.sub_eq_of_eq_add
    induction a using Nat.strongRecOn generalizing b with
    | ind a ih =>
      rcases Nat.eq_zero_or_pos a with h | h
      · subst h; simp
      · have := ih (a/2) (by omega) (b/2)
        have d1 : ((a ^^^ (a &&& b)) / 2) = ((a/2) ^^^ ((a/2) &&& (b/2))) := by
          rw [Nat.xor_div_two, Nat.and_div_two]
        have d2 : ((a &&& b) / 2) = ((a/2) &&& (b/2)) := Nat.and_div_two
        have z : ∀ x : Nat, x % 2 = (x.testBit 0).toNat := fun x => by
          rw [Nat.testBit_zero]; rcases Nat.mod_two_eq_zero_or_one x with h | h <;> simp [h]
        have m : (a ^^^ (a &&& b)) % 2 + (a &&& b) % 2 = a % 2 := by
          simp only [z, Nat.testBit_xor, Nat.testBit_and]; cases a.testBit 0 <;> cases b.testBit 0 <;> rfl
        omega
  rw [e, Nat.testBit_xor, Nat.testBit_and]; cases a.testBit i <;> cases b.testBit i <;> rfl

/-! ### The mailbox -/

/-- An interrupt changes what left the module and the pending bits alone. -/
theorem State.interrupt_eq (s : State) (v : Nat) : s.interrupt v = { s with out := (s.interrupt v).out, glb := { s.glb with msixPend := (s.interrupt v).glb.msixPend } } := by
  unfold State.interrupt; split; rfl; split <;> rfl


/-- A response is ready for its source, and nothing else changes. -/
theorem State.respond_answers (s : State) (src : MboxSource) (op r d : Nat) (b : Option Nat) (resp : Bytes) (h : op ≠ effecterOp) :
   Answered src op r d b resp s (s.respond (s.request src op) r d b resp) ∧ MgmtOnly s (s.respond (s.request src op) r d b resp) := by
  cases src with
  | bar0 =>
    simp only [Answered, MgmtOnly, State.respond, State.request, h, if_false]
    rw [State.interrupt_eq]
    simp [State.mgtEvent, State.noteEvent, testBit_orBit, -Nat.testBit_zero]
  | mctp b t p =>
    simp [Answered, MgmtOnly, State.respond, State.request, h, State.emit]

/-- Naming the opcode of a BAR0 command is within what a response changes. -/
theorem MgmtOnly_issue (s : State) (src op) (t) (h : MgmtOnly (s.issue src op) t) : MgmtOnly s t := by
  cases src with
  | bar0 => simp only [State.issue, if_true, MgmtOnly] at h ⊢; exact h
  | mctp b t p => simpa [State.issue] using h

/-- A response after the opcode was named is one from before it. -/
theorem Answered_issue (s : State) (src op op' r d b resp) (t) (h : Answered src op r d b resp (s.issue src op') t) : Answered src op r d b resp s t := by
  cases src with
  | bar0 => simp only [State.issue, if_true, Answered] at h ⊢; exact h
  | mctp b t p => simpa [State.issue] using h

/-- The command a source sends does not depend on the opcode named before. -/
theorem State.request_issue (s : State) (src op op') : (s.issue src op').request src op = s.request src op := by
  cases src <;> simp [State.issue, State.request]

/-- Nor does whether the source is busy. -/
theorem State.sourceBusy_issue (s : State) (src op' c) : (s.issue src op').sourceBusy c = s.sourceBusy c := by
  cases src <;> simp [State.issue, State.sourceBusy, State.bar0Busy]

/-- The opcode of a request. -/
theorem State.request_opcode (s : State) (src op) : (s.request src op).opcode = op := by cases src <;> rfl

/-- A command that passes its tests has its effect (R502, R503). -/
theorem State.accept_passes (s : State) (src op) (f) (h : MboxOk s src op) : (s.issue src op).accept (s.request src op) f = f (s.issue src op) := by
  obtain ⟨a, b, p, c, d⟩ := h
  simp only [State.accept, State.sourceBusy_issue, a, State.request_opcode, p, c, d]
  by_cases e : smbusOnly op = true
  · simp [e, b e]
  · simp [e]

/-- A command of a busy source answers BUSY and has no effect (R502). -/
theorem State.accept_busy (s : State) (src op) (f) (h : s.sourceBusy (s.request src op) = true) : (s.issue src op).accept (s.request src op) f = (s.issue src op).respond (s.request src op) 4 0 none [] := by
  simp only [State.accept, State.sourceBusy_issue, h, if_true]

/-! ### Orders -/

/-- A search by journal number after one order is changed. -/
theorem find_map_jno (l : List OrderSt) (j k : Nat) (f : OrderSt → OrderSt) (hf : ∀ o, (f o).jno = o.jno) :
    (l.map fun o => if o.jno = j then f o else o).find? (·.jno = k) = (l.find? (·.jno = k)).map fun o => if o.jno = j then f o else o := by
  induction l with
  | nil => rfl
  | cons a l ih =>
    simp only [List.map_cons, List.find?_cons]
    by_cases h : a.jno = j
    · simp [h, hf]; split <;> simp_all
    · simp [h]; split <;> simp_all

/-- An order read after one is changed. -/
theorem Core.order_setOrder (c : Core) (j k : Nat) (f) (hf : ∀ o, (f o).jno = o.jno) : (c.setOrder j f).order k = (c.order k).map fun o => if o.jno = j then f o else o := by
  exact find_map_jno _ _ _ _ hf

/-- An order found by its journal number has that number. -/
theorem Core.order_jno (c : Core) (j o) (h : c.order j = some o) : o.jno = j := by
  have := List.find?_some h; simpa using this

/-- Whether an order is due does not depend on what is changed of another, but for its context, its place and its publication. -/
theorem Core.dueNow_setOrder (c : Core) (j : Nat) (f) (o n) (h1 : ∀ o, (f o).ctx = o.ctx ∧ (f o).acc = o.acc ∧ (f o).published = o.published) : (c.setOrder j f).dueNow o n = c.dueNow o n := by
  have h2 : ∀ p : OrderSt, (if p.jno = j then f p else p).ctx = p.ctx ∧ (if p.jno = j then f p else p).acc = p.acc ∧
      (if p.jno = j then f p else p).published = p.published := by intro p; split <;> simp [h1]
  simp only [Core.dueNow, Core.earlier, OrderSt.openAt, Core.setOrder, List.any_filter, List.any_map, Function.comp_def, h2]

/-- Nor on anything of the order itself but its context and its place. -/
theorem Core.dueNow_congr (c : Core) (o o' : OrderSt) (n) (h : o.ctx = o'.ctx) (h2 : o.acc = o'.acc) : c.dueNow o n = c.dueNow o' n := by
  simp [Core.dueNow, Core.earlier, h, h2]

/-- An order that the checks of R108 have seen. -/
def OrderSt.looked (o : OrderSt) : OrderSt := { o with checked := true }

/-- A ready order passes R108, is marked as looked at, and has its effect. -/
theorem State.orderRow_ready (s : State) (j op : Nat) (o) (ha : s.atConfig = true) (h : OrderReady s j op o) (hop : op ≠ 2) :
   s.orderRow j op = ((s.withCore fun c => c.setOrder j OrderSt.looked).effect (OrderSt.looked o)) ∧ (s.core.setOrder j OrderSt.looked).order j = some (OrderSt.looked o) := by
  obtain ⟨a, b, c, d, e, f, w, g, i, k⟩ := h
  have hj := Core.order_jno _ _ _ a
  have e1 : (s.core.setOrder j OrderSt.looked).order j = some (OrderSt.looked o) := by
    rw [Core.order_setOrder _ _ _ OrderSt.looked (fun _ => rfl), a]; simp [hj]
  refine ⟨?_, e1⟩
  have e2 : s.checkOrder o = s.withCore fun c => c.setOrder j OrderSt.looked := by
    have : (fun o : OrderSt => ({ o with checked := true } : OrderSt)) = OrderSt.looked := rfl
    simp [State.checkOrder, c, e, f, b, hop, hj, this]
  have e4 : s.passesOver o = false := by simp [State.passesOver, g, i]
  simp only [State.orderRow, a, ha, b, State.dueOrder, w, e4, State.applyOrder, e2]
  simp only [hj, a, b, e2]
  have e3 : (s.withCore fun c => c.setOrder j OrderSt.looked).ready j op = some (OrderSt.looked o) := by
    simp only [State.ready, State.withCore, e1]
    have q : (s.core.setOrder j OrderSt.looked).dueNow (OrderSt.looked o) s.pick.counter = s.core.dueNow o s.pick.counter := by
      rw [Core.dueNow_setOrder _ _ OrderSt.looked _ _ (fun _ => ⟨rfl, rfl, rfl⟩)]; exact Core.dueNow_congr _ _ _ _ rfl rfl
    have r1 : (OrderSt.looked o).opcode = op := b
    have r2 : (OrderSt.looked o).applied = false := d
    have r3 : (OrderSt.looked o).status = none := e
    have r4 : (OrderSt.looked o).checked = true := rfl
    simp only [q, r1, r2, r3, r4]
    by_cases v : isFenced op = true
    · simp [v, k v]
    · simp [v]
  simp [e3]


/-- A completed order holds its status, its result and its beat (R66). -/
theorem Core.order_complete (c : Core) (j st r n : Nat) (o) (h : c.order j = some o) (hs : o.status = none) :
   (c.complete j st r n).order j = some { o with applied := true, status := some (st, r), doneAt := n } := by
  simp only [Core.complete]
  rw [Core.order_setOrder _ _ _ _ (by intro o; split <;> rfl), h]
  have := Core.order_jno _ _ _ h
  simp [this, hs]

/-- Completing an order leaves every other one. -/
theorem Core.order_complete_ne (c : Core) (j st r n k : Nat) (hk : k ≠ j) : (c.complete j st r n).order k = c.order k := by
  simp only [Core.complete]
  rw [Core.order_setOrder _ _ _ _ (by intro o; split <;> rfl)]
  cases h : c.order k with
  | none => rfl
  | some o => have := Core.order_jno _ _ _ h; simp [this, hk]

/-- Looking at an order leaves every other one. -/
theorem Core.order_checked_ne (c : Core) (j k : Nat) (hk : k ≠ j) : (c.setOrder j OrderSt.looked).order k = c.order k := by
  rw [Core.order_setOrder _ _ _ _ (by intro o; rfl)]
  cases h : c.order k with
  | none => rfl
  | some o => have := Core.order_jno _ _ _ h; simp [this, hk]

/-! ### Contexts -/

/-- A context read after one is changed. -/
theorem Core.ctx_setCtx (c : Core) (i k : Nat) (f : Ctx → Ctx) (h : i < c.ctxs.length) :
    (c.setCtx i f).ctx k = if k = i then f (c.ctx i) else c.ctx k := by
  simp only [Core.ctx, Core.setCtx, modifyAt, List.getD_eq_getElem?_getD, List.getElem?_modify]
  by_cases e : k = i
  · subst e; simp [h]
  · have e2 : ¬ i = k := fun x => e x.symm
    simp [e, e2]

/-- An object read after one is changed. -/
theorem Core.obj_setObj (c : Core) (i k : Nat) (f : Obj → Obj) :
    (c.setObj i f).obj k = if k = i then (c.obj i).map f else c.obj k := by
  simp only [Core.obj, Core.setObj]
  induction c.objs with
  | nil => split <;> rfl
  | cons p l ih =>
    simp only [List.map_cons, List.find?_cons]
    by_cases e : p.1 = i
    · by_cases d : k = i
      · subst d; simp [e]
      · have g : ¬ p.1 = k := fun x => d (x.symm.trans e)
        have g2 : ¬ i = k := fun x => d x.symm
        simp only [d, if_false] at ih
        simpa [e, d, g2, -List.find?_map] using ih
    · by_cases d : p.1 = k
      · have g : ¬ k = i := fun x => e (d.trans x)
        simp [e, d, g]
      · simpa [e, d] using ih

end Sys2Proof.Machine
end

