-- ==== Sys2Proof/Laws/State.lean ====
section
/-! SUPPORT. Sys2Proof/Laws/State.lean: one lemma for each field of State after each update of Machine/Ops.lean, so that no proof
unfolds a record update. -/

namespace Sys2Proof.Machine

/-! ### An output -/
@[simp] theorem State.emit_pending (s : State) (o : Out) : (s.emit o).pending = s.pending := rfl
@[simp] theorem State.emit_out (s : State) (o : Out) : (s.emit o).out = s.out ++ [o] := rfl
@[simp] theorem State.emit_glb (s : State) (o : Out) : (s.emit o).glb = s.glb := rfl
@[simp] theorem State.emit_pick (s : State) (o : Out) : (s.emit o).pick = s.pick := rfl
@[simp] theorem State.emit_draft (s : State) (o : Out) : (s.emit o).draft = s.draft := rfl
@[simp] theorem State.emit_ord (s : State) (o : Out) : (s.emit o).ord = s.ord := rfl
@[simp] theorem State.emit_flog (s : State) (o : Out) : (s.emit o).flog = s.flog := rfl
@[simp] theorem State.emit_twin (s : State) (o : Out) : (s.emit o).twin = s.twin := rfl
@[simp] theorem State.emit_opt (s : State) (o : Out) : (s.emit o).opt = s.opt := rfl
@[simp] theorem State.emit_reed (s : State) (o : Out) : (s.emit o).reed = s.reed := rfl
@[simp] theorem State.emit_memr (s : State) (o : Out) : (s.emit o).memr = s.memr := rfl
@[simp] theorem State.emit_integ (s : State) (o : Out) : (s.emit o).integ = s.integ := rfl
@[simp] theorem State.emit_mgt (s : State) (o : Out) : (s.emit o).mgt = s.mgt := rfl
@[simp] theorem State.emit_flash (s : State) (o : Out) : (s.emit o).flash = s.flash := rfl
@[simp] theorem State.emit_fw (s : State) (o : Out) : (s.emit o).fw = s.fw := rfl
@[simp] theorem State.emit_power (s : State) (o : Out) : (s.emit o).power = s.power := rfl
@[simp] theorem State.emit_proto (s : State) (o : Out) : (s.emit o).proto = s.proto := rfl
@[simp] theorem State.emit_core (s : State) (o : Out) : (s.emit o).core = s.core := rfl
@[simp] theorem State.emit_committed (s : State) (o : Out) : (s.emit o).committed = s.committed := rfl
@[simp] theorem State.emit_undo (s : State) (o : Out) : (s.emit o).undo = s.undo := rfl
@[simp] theorem State.emit_freeCtr (s : State) (o : Out) : (s.emit o).freeCtr = s.freeCtr := rfl
@[simp] theorem State.emits_pending (s : State) (os : List Out) : (s.emits os).pending = s.pending := rfl
@[simp] theorem State.emits_out (s : State) (os : List Out) : (s.emits os).out = s.out ++ os := rfl
@[simp] theorem State.emits_glb (s : State) (os : List Out) : (s.emits os).glb = s.glb := rfl
@[simp] theorem State.emits_pick (s : State) (os : List Out) : (s.emits os).pick = s.pick := rfl
@[simp] theorem State.emits_draft (s : State) (os : List Out) : (s.emits os).draft = s.draft := rfl
@[simp] theorem State.emits_ord (s : State) (os : List Out) : (s.emits os).ord = s.ord := rfl
@[simp] theorem State.emits_flog (s : State) (os : List Out) : (s.emits os).flog = s.flog := rfl
@[simp] theorem State.emits_twin (s : State) (os : List Out) : (s.emits os).twin = s.twin := rfl
@[simp] theorem State.emits_opt (s : State) (os : List Out) : (s.emits os).opt = s.opt := rfl
@[simp] theorem State.emits_reed (s : State) (os : List Out) : (s.emits os).reed = s.reed := rfl
@[simp] theorem State.emits_memr (s : State) (os : List Out) : (s.emits os).memr = s.memr := rfl
@[simp] theorem State.emits_integ (s : State) (os : List Out) : (s.emits os).integ = s.integ := rfl
@[simp] theorem State.emits_mgt (s : State) (os : List Out) : (s.emits os).mgt = s.mgt := rfl
@[simp] theorem State.emits_flash (s : State) (os : List Out) : (s.emits os).flash = s.flash := rfl
@[simp] theorem State.emits_fw (s : State) (os : List Out) : (s.emits os).fw = s.fw := rfl
@[simp] theorem State.emits_power (s : State) (os : List Out) : (s.emits os).power = s.power := rfl
@[simp] theorem State.emits_proto (s : State) (os : List Out) : (s.emits os).proto = s.proto := rfl
@[simp] theorem State.emits_core (s : State) (os : List Out) : (s.emits os).core = s.core := rfl
@[simp] theorem State.emits_committed (s : State) (os : List Out) : (s.emits os).committed = s.committed := rfl
@[simp] theorem State.emits_undo (s : State) (os : List Out) : (s.emits os).undo = s.undo := rfl
@[simp] theorem State.emits_freeCtr (s : State) (os : List Out) : (s.emits os).freeCtr = s.freeCtr := rfl

/-! ### The working core -/
@[simp] theorem State.withCore_pending (s : State) (f : Core → Core) : (s.withCore f).pending = s.pending := rfl
@[simp] theorem State.withCore_out (s : State) (f : Core → Core) : (s.withCore f).out = s.out := rfl
@[simp] theorem State.withCore_glb (s : State) (f : Core → Core) : (s.withCore f).glb = s.glb := rfl
@[simp] theorem State.withCore_pick (s : State) (f : Core → Core) : (s.withCore f).pick = s.pick := rfl
@[simp] theorem State.withCore_draft (s : State) (f : Core → Core) : (s.withCore f).draft = s.draft := rfl
@[simp] theorem State.withCore_ord (s : State) (f : Core → Core) : (s.withCore f).ord = s.ord := rfl
@[simp] theorem State.withCore_flog (s : State) (f : Core → Core) : (s.withCore f).flog = s.flog := rfl
@[simp] theorem State.withCore_twin (s : State) (f : Core → Core) : (s.withCore f).twin = s.twin := rfl
@[simp] theorem State.withCore_opt (s : State) (f : Core → Core) : (s.withCore f).opt = s.opt := rfl
@[simp] theorem State.withCore_reed (s : State) (f : Core → Core) : (s.withCore f).reed = s.reed := rfl
@[simp] theorem State.withCore_memr (s : State) (f : Core → Core) : (s.withCore f).memr = s.memr := rfl
@[simp] theorem State.withCore_integ (s : State) (f : Core → Core) : (s.withCore f).integ = s.integ := rfl
@[simp] theorem State.withCore_mgt (s : State) (f : Core → Core) : (s.withCore f).mgt = s.mgt := rfl
@[simp] theorem State.withCore_flash (s : State) (f : Core → Core) : (s.withCore f).flash = s.flash := rfl
@[simp] theorem State.withCore_fw (s : State) (f : Core → Core) : (s.withCore f).fw = s.fw := rfl
@[simp] theorem State.withCore_power (s : State) (f : Core → Core) : (s.withCore f).power = s.power := rfl
@[simp] theorem State.withCore_proto (s : State) (f : Core → Core) : (s.withCore f).proto = s.proto := rfl
@[simp] theorem State.withCore_core (s : State) (f : Core → Core) : (s.withCore f).core = f s.core := rfl
@[simp] theorem State.withCore_committed (s : State) (f : Core → Core) : (s.withCore f).committed = s.committed := rfl
@[simp] theorem State.withCore_undo (s : State) (f : Core → Core) : (s.withCore f).undo = s.undo := rfl
@[simp] theorem State.withCore_freeCtr (s : State) (f : Core → Core) : (s.withCore f).freeCtr = s.freeCtr := rfl

/-! ### Event registers -/
@[simp] theorem State.noteEvent_pending (s : State) (i bit : Nat) : (s.noteEvent i bit).pending = s.pending := rfl
@[simp] theorem State.noteEvent_out (s : State) (i bit : Nat) : (s.noteEvent i bit).out = s.out := rfl
@[simp] theorem State.noteEvent_glb (s : State) (i bit : Nat) : (s.noteEvent i bit).glb = s.glb := rfl
@[simp] theorem State.noteEvent_pick_counter (s : State) (i bit : Nat) : (s.noteEvent i bit).pick.counter = s.pick.counter := rfl
@[simp] theorem State.noteEvent_pick_phase (s : State) (i bit : Nat) : (s.noteEvent i bit).pick.phase = s.pick.phase := rfl
@[simp] theorem State.noteEvent_pick_period10 (s : State) (i bit : Nat) : (s.noteEvent i bit).pick.period10 = s.pick.period10 := rfl
@[simp] theorem State.noteEvent_pick_windowUs (s : State) (i bit : Nat) : (s.noteEvent i bit).pick.windowUs = s.pick.windowUs := rfl
@[simp] theorem State.noteEvent_pick_pd10 (s : State) (i bit : Nat) : (s.noteEvent i bit).pick.pd10 = s.pick.pd10 := rfl
@[simp] theorem State.noteEvent_pick_wd (s : State) (i bit : Nat) : (s.noteEvent i bit).pick.wd = s.pick.wd := rfl
@[simp] theorem State.noteEvent_pick_differs (s : State) (i bit : Nat) : (s.noteEvent i bit).pick.differs = s.pick.differs := rfl
@[simp] theorem State.noteEvent_pick_late (s : State) (i bit : Nat) : (s.noteEvent i bit).pick.late = s.pick.late := rfl
@[simp] theorem State.noteEvent_pick_missed (s : State) (i bit : Nat) : (s.noteEvent i bit).pick.missed = s.pick.missed := rfl
@[simp] theorem State.noteEvent_pick_offsetPs (s : State) (i bit : Nat) : (s.noteEvent i bit).pick.offsetPs = s.pick.offsetPs := rfl
@[simp] theorem State.noteEvent_pick_leader (s : State) (i bit : Nat) : (s.noteEvent i bit).pick.leader = s.pick.leader := rfl
@[simp] theorem State.noteEvent_pick_self (s : State) (i bit : Nat) : (s.noteEvent i bit).pick.self = s.pick.self := rfl
@[simp] theorem State.noteEvent_pick_depth (s : State) (i bit : Nat) : (s.noteEvent i bit).pick.depth = s.pick.depth := rfl
@[simp] theorem State.noteEvent_pick_parent (s : State) (i bit : Nat) : (s.noteEvent i bit).pick.parent = s.pick.parent := rfl
@[simp] theorem State.noteEvent_pick_seen (s : State) (i bit : Nat) : (s.noteEvent i bit).pick.seen = s.pick.seen := rfl
@[simp] theorem State.noteEvent_pick_request10 (s : State) (i bit : Nat) : (s.noteEvent i bit).pick.request10 = s.pick.request10 := rfl
@[simp] theorem State.noteEvent_pick_step (s : State) (i bit : Nat) : (s.noteEvent i bit).pick.step = s.pick.step := rfl
@[simp] theorem State.noteEvent_pick_plan (s : State) (i bit : Nat) : (s.noteEvent i bit).pick.plan = s.pick.plan := rfl
@[simp] theorem State.noteEvent_pick_coming (s : State) (i bit : Nat) : (s.noteEvent i bit).pick.coming = s.pick.coming := rfl
@[simp] theorem State.noteEvent_pick_asked (s : State) (i bit : Nat) : (s.noteEvent i bit).pick.asked = s.pick.asked := rfl
@[simp] theorem State.noteEvent_pick_lastRise (s : State) (i bit : Nat) : (s.noteEvent i bit).pick.lastRise = s.pick.lastRise := rfl
@[simp] theorem State.noteEvent_pick_sent (s : State) (i bit : Nat) : (s.noteEvent i bit).pick.sent = s.pick.sent := rfl
@[simp] theorem State.noteEvent_pick_drop (s : State) (i bit : Nat) : (s.noteEvent i bit).pick.drop = s.pick.drop := rfl
@[simp] theorem State.noteEvent_pick_event (s : State) (i bit : Nat) : (s.noteEvent i bit).pick.event = s.pick.event := rfl
@[simp] theorem State.noteEvent_pick_evMark (s : State) (i bit : Nat) : (s.noteEvent i bit).pick.evMark = modifyAt s.pick.evMark i fun v => orBit v bit := rfl
@[simp] theorem State.noteEvent_pick_flogMark (s : State) (i bit : Nat) : (s.noteEvent i bit).pick.flogMark = s.pick.flogMark := rfl
@[simp] theorem State.noteEvent_pick_wrote (s : State) (i bit : Nat) : (s.noteEvent i bit).pick.wrote = s.pick.wrote := rfl
@[simp] theorem State.noteEvent_pick_sampling (s : State) (i bit : Nat) : (s.noteEvent i bit).pick.sampling = s.pick.sampling := rfl
@[simp] theorem State.noteEvent_pick_joining (s : State) (i bit : Nat) : (s.noteEvent i bit).pick.joining = s.pick.joining := rfl
@[simp] theorem State.noteEvent_pick_warm (s : State) (i bit : Nat) : (s.noteEvent i bit).pick.warm = s.pick.warm := rfl
@[simp] theorem State.noteEvent_pick_epochs (s : State) (i bit : Nat) : (s.noteEvent i bit).pick.epochs = s.pick.epochs := rfl
@[simp] theorem State.noteEvent_draft (s : State) (i bit : Nat) : (s.noteEvent i bit).draft = s.draft := rfl
@[simp] theorem State.noteEvent_ord (s : State) (i bit : Nat) : (s.noteEvent i bit).ord = s.ord := rfl
@[simp] theorem State.noteEvent_flog (s : State) (i bit : Nat) : (s.noteEvent i bit).flog = s.flog := rfl
@[simp] theorem State.noteEvent_twin (s : State) (i bit : Nat) : (s.noteEvent i bit).twin = s.twin := rfl
@[simp] theorem State.noteEvent_opt (s : State) (i bit : Nat) : (s.noteEvent i bit).opt = s.opt := rfl
@[simp] theorem State.noteEvent_reed (s : State) (i bit : Nat) : (s.noteEvent i bit).reed = s.reed := rfl
@[simp] theorem State.noteEvent_memr (s : State) (i bit : Nat) : (s.noteEvent i bit).memr = s.memr := rfl
@[simp] theorem State.noteEvent_integ (s : State) (i bit : Nat) : (s.noteEvent i bit).integ = s.integ := rfl
@[simp] theorem State.noteEvent_mgt (s : State) (i bit : Nat) : (s.noteEvent i bit).mgt = s.mgt := rfl
@[simp] theorem State.noteEvent_flash (s : State) (i bit : Nat) : (s.noteEvent i bit).flash = s.flash := rfl
@[simp] theorem State.noteEvent_fw (s : State) (i bit : Nat) : (s.noteEvent i bit).fw = s.fw := rfl
@[simp] theorem State.noteEvent_power (s : State) (i bit : Nat) : (s.noteEvent i bit).power = s.power := rfl
@[simp] theorem State.noteEvent_proto (s : State) (i bit : Nat) : (s.noteEvent i bit).proto = s.proto := rfl
@[simp] theorem State.noteEvent_core (s : State) (i bit : Nat) : (s.noteEvent i bit).core = s.core := rfl
@[simp] theorem State.noteEvent_committed (s : State) (i bit : Nat) : (s.noteEvent i bit).committed = s.committed := rfl
@[simp] theorem State.noteEvent_undo (s : State) (i bit : Nat) : (s.noteEvent i bit).undo = s.undo := rfl
@[simp] theorem State.noteEvent_freeCtr (s : State) (i bit : Nat) : (s.noteEvent i bit).freeCtr = s.freeCtr := rfl
@[simp] theorem State.glbEvent_pending (s : State) (bit : Nat) : (s.glbEvent bit).pending = s.pending := rfl
@[simp] theorem State.glbEvent_out (s : State) (bit : Nat) : (s.glbEvent bit).out = s.out := rfl
@[simp] theorem State.glbEvent_glb_state (s : State) (bit : Nat) : (s.glbEvent bit).glb.state = s.glb.state := rfl
@[simp] theorem State.glbEvent_glb_bootCode (s : State) (bit : Nat) : (s.glbEvent bit).glb.bootCode = s.glb.bootCode := rfl
@[simp] theorem State.glbEvent_glb_lastReset (s : State) (bit : Nat) : (s.glbEvent bit).glb.lastReset = s.glb.lastReset := rfl
@[simp] theorem State.glbEvent_glb_address (s : State) (bit : Nat) : (s.glbEvent bit).glb.address = s.glb.address := rfl
@[simp] theorem State.glbEvent_glb_lens (s : State) (bit : Nat) : (s.glbEvent bit).glb.lens = s.glb.lens := rfl
@[simp] theorem State.glbEvent_glb_axes (s : State) (bit : Nat) : (s.glbEvent bit).glb.axes = s.glb.axes := rfl
@[simp] theorem State.glbEvent_glb_up (s : State) (bit : Nat) : (s.glbEvent bit).glb.up = s.glb.up := rfl
@[simp] theorem State.glbEvent_glb_l0p (s : State) (bit : Nat) : (s.glbEvent bit).glb.l0p = s.glb.l0p := rfl
@[simp] theorem State.glbEvent_glb_rate (s : State) (bit : Nat) : (s.glbEvent bit).glb.rate = s.glb.rate := rfl
@[simp] theorem State.glbEvent_glb_width (s : State) (bit : Nat) : (s.glbEvent bit).glb.width = s.glb.width := rfl
@[simp] theorem State.glbEvent_glb_ideIo (s : State) (bit : Nat) : (s.glbEvent bit).glb.ideIo = s.glb.ideIo := rfl
@[simp] theorem State.glbEvent_glb_ideCm (s : State) (bit : Nat) : (s.glbEvent bit).glb.ideCm = s.glb.ideCm := rfl
@[simp] theorem State.glbEvent_glb_skid (s : State) (bit : Nat) : (s.glbEvent bit).glb.skid = s.glb.skid := rfl
@[simp] theorem State.glbEvent_glb_recoveries (s : State) (bit : Nat) : (s.glbEvent bit).glb.recoveries = s.glb.recoveries := rfl
@[simp] theorem State.glbEvent_glb_ideRequired (s : State) (bit : Nat) : (s.glbEvent bit).glb.ideRequired = s.glb.ideRequired := rfl
@[simp] theorem State.glbEvent_glb_limitMs (s : State) (bit : Nat) : (s.glbEvent bit).glb.limitMs = s.glb.limitMs := rfl
@[simp] theorem State.glbEvent_glb_hdmBase (s : State) (bit : Nat) : (s.glbEvent bit).glb.hdmBase = s.glb.hdmBase := rfl
@[simp] theorem State.glbEvent_glb_hdmSize (s : State) (bit : Nat) : (s.glbEvent bit).glb.hdmSize = s.glb.hdmSize := rfl
@[simp] theorem State.glbEvent_glb_hdmOn (s : State) (bit : Nat) : (s.glbEvent bit).glb.hdmOn = s.glb.hdmOn := rfl
@[simp] theorem State.glbEvent_glb_event (s : State) (bit : Nat) : (s.glbEvent bit).glb.event = orBit s.glb.event bit := rfl
@[simp] theorem State.glbEvent_glb_irqEnable (s : State) (bit : Nat) : (s.glbEvent bit).glb.irqEnable = s.glb.irqEnable := rfl
@[simp] theorem State.glbEvent_glb_uio (s : State) (bit : Nat) : (s.glbEvent bit).glb.uio = s.glb.uio := rfl
@[simp] theorem State.glbEvent_glb_uioNow (s : State) (bit : Nat) : (s.glbEvent bit).glb.uioNow = s.glb.uioNow := rfl
@[simp] theorem State.glbEvent_glb_aperReg (s : State) (bit : Nat) : (s.glbEvent bit).glb.aperReg = s.glb.aperReg := rfl
@[simp] theorem State.glbEvent_glb_msixTable (s : State) (bit : Nat) : (s.glbEvent bit).glb.msixTable = s.glb.msixTable := rfl
@[simp] theorem State.glbEvent_glb_msixMask (s : State) (bit : Nat) : (s.glbEvent bit).glb.msixMask = s.glb.msixMask := rfl
@[simp] theorem State.glbEvent_glb_msixPend (s : State) (bit : Nat) : (s.glbEvent bit).glb.msixPend = s.glb.msixPend := rfl
@[simp] theorem State.glbEvent_glb_macBad (s : State) (bit : Nat) : (s.glbEvent bit).glb.macBad = s.glb.macBad := rfl
@[simp] theorem State.glbEvent_glb_filter (s : State) (bit : Nat) : (s.glbEvent bit).glb.filter = s.glb.filter := rfl
@[simp] theorem State.glbEvent_glb_hostWaits (s : State) (bit : Nat) : (s.glbEvent bit).glb.hostWaits = s.glb.hostWaits := rfl
@[simp] theorem State.glbEvent_glb_ready (s : State) (bit : Nat) : (s.glbEvent bit).glb.ready = s.glb.ready := rfl
@[simp] theorem State.glbEvent_glb_comp (s : State) (bit : Nat) : (s.glbEvent bit).glb.comp = s.glb.comp := rfl
@[simp] theorem State.glbEvent_pick_counter (s : State) (bit : Nat) : (s.glbEvent bit).pick.counter = s.pick.counter := rfl
@[simp] theorem State.glbEvent_pick_phase (s : State) (bit : Nat) : (s.glbEvent bit).pick.phase = s.pick.phase := rfl
@[simp] theorem State.glbEvent_pick_period10 (s : State) (bit : Nat) : (s.glbEvent bit).pick.period10 = s.pick.period10 := rfl
@[simp] theorem State.glbEvent_pick_windowUs (s : State) (bit : Nat) : (s.glbEvent bit).pick.windowUs = s.pick.windowUs := rfl
@[simp] theorem State.glbEvent_pick_pd10 (s : State) (bit : Nat) : (s.glbEvent bit).pick.pd10 = s.pick.pd10 := rfl
@[simp] theorem State.glbEvent_pick_wd (s : State) (bit : Nat) : (s.glbEvent bit).pick.wd = s.pick.wd := rfl
@[simp] theorem State.glbEvent_pick_differs (s : State) (bit : Nat) : (s.glbEvent bit).pick.differs = s.pick.differs := rfl
@[simp] theorem State.glbEvent_pick_late (s : State) (bit : Nat) : (s.glbEvent bit).pick.late = s.pick.late := rfl
@[simp] theorem State.glbEvent_pick_missed (s : State) (bit : Nat) : (s.glbEvent bit).pick.missed = s.pick.missed := rfl
@[simp] theorem State.glbEvent_pick_offsetPs (s : State) (bit : Nat) : (s.glbEvent bit).pick.offsetPs = s.pick.offsetPs := rfl
@[simp] theorem State.glbEvent_pick_leader (s : State) (bit : Nat) : (s.glbEvent bit).pick.leader = s.pick.leader := rfl
@[simp] theorem State.glbEvent_pick_self (s : State) (bit : Nat) : (s.glbEvent bit).pick.self = s.pick.self := rfl
@[simp] theorem State.glbEvent_pick_depth (s : State) (bit : Nat) : (s.glbEvent bit).pick.depth = s.pick.depth := rfl
@[simp] theorem State.glbEvent_pick_parent (s : State) (bit : Nat) : (s.glbEvent bit).pick.parent = s.pick.parent := rfl
@[simp] theorem State.glbEvent_pick_seen (s : State) (bit : Nat) : (s.glbEvent bit).pick.seen = s.pick.seen := rfl
@[simp] theorem State.glbEvent_pick_request10 (s : State) (bit : Nat) : (s.glbEvent bit).pick.request10 = s.pick.request10 := rfl
@[simp] theorem State.glbEvent_pick_step (s : State) (bit : Nat) : (s.glbEvent bit).pick.step = s.pick.step := rfl
@[simp] theorem State.glbEvent_pick_plan (s : State) (bit : Nat) : (s.glbEvent bit).pick.plan = s.pick.plan := rfl
@[simp] theorem State.glbEvent_pick_coming (s : State) (bit : Nat) : (s.glbEvent bit).pick.coming = s.pick.coming := rfl
@[simp] theorem State.glbEvent_pick_asked (s : State) (bit : Nat) : (s.glbEvent bit).pick.asked = s.pick.asked := rfl
@[simp] theorem State.glbEvent_pick_lastRise (s : State) (bit : Nat) : (s.glbEvent bit).pick.lastRise = s.pick.lastRise := rfl
@[simp] theorem State.glbEvent_pick_sent (s : State) (bit : Nat) : (s.glbEvent bit).pick.sent = s.pick.sent := rfl
@[simp] theorem State.glbEvent_pick_drop (s : State) (bit : Nat) : (s.glbEvent bit).pick.drop = s.pick.drop := rfl
@[simp] theorem State.glbEvent_pick_event (s : State) (bit : Nat) : (s.glbEvent bit).pick.event = s.pick.event := rfl
@[simp] theorem State.glbEvent_pick_evMark (s : State) (bit : Nat) : (s.glbEvent bit).pick.evMark = modifyAt s.pick.evMark 0 fun v => orBit v bit := rfl
@[simp] theorem State.glbEvent_pick_flogMark (s : State) (bit : Nat) : (s.glbEvent bit).pick.flogMark = s.pick.flogMark := rfl
@[simp] theorem State.glbEvent_pick_wrote (s : State) (bit : Nat) : (s.glbEvent bit).pick.wrote = s.pick.wrote := rfl
@[simp] theorem State.glbEvent_pick_sampling (s : State) (bit : Nat) : (s.glbEvent bit).pick.sampling = s.pick.sampling := rfl
@[simp] theorem State.glbEvent_pick_joining (s : State) (bit : Nat) : (s.glbEvent bit).pick.joining = s.pick.joining := rfl
@[simp] theorem State.glbEvent_pick_warm (s : State) (bit : Nat) : (s.glbEvent bit).pick.warm = s.pick.warm := rfl
@[simp] theorem State.glbEvent_pick_epochs (s : State) (bit : Nat) : (s.glbEvent bit).pick.epochs = s.pick.epochs := rfl
@[simp] theorem State.glbEvent_draft (s : State) (bit : Nat) : (s.glbEvent bit).draft = s.draft := rfl
@[simp] theorem State.glbEvent_ord (s : State) (bit : Nat) : (s.glbEvent bit).ord = s.ord := rfl
@[simp] theorem State.glbEvent_flog (s : State) (bit : Nat) : (s.glbEvent bit).flog = s.flog := rfl
@[simp] theorem State.glbEvent_twin (s : State) (bit : Nat) : (s.glbEvent bit).twin = s.twin := rfl
@[simp] theorem State.glbEvent_opt (s : State) (bit : Nat) : (s.glbEvent bit).opt = s.opt := rfl
@[simp] theorem State.glbEvent_reed (s : State) (bit : Nat) : (s.glbEvent bit).reed = s.reed := rfl
@[simp] theorem State.glbEvent_memr (s : State) (bit : Nat) : (s.glbEvent bit).memr = s.memr := rfl
@[simp] theorem State.glbEvent_integ (s : State) (bit : Nat) : (s.glbEvent bit).integ = s.integ := rfl
@[simp] theorem State.glbEvent_mgt (s : State) (bit : Nat) : (s.glbEvent bit).mgt = s.mgt := rfl
@[simp] theorem State.glbEvent_flash (s : State) (bit : Nat) : (s.glbEvent bit).flash = s.flash := rfl
@[simp] theorem State.glbEvent_fw (s : State) (bit : Nat) : (s.glbEvent bit).fw = s.fw := rfl
@[simp] theorem State.glbEvent_power (s : State) (bit : Nat) : (s.glbEvent bit).power = s.power := rfl
@[simp] theorem State.glbEvent_proto (s : State) (bit : Nat) : (s.glbEvent bit).proto = s.proto := rfl
@[simp] theorem State.glbEvent_core (s : State) (bit : Nat) : (s.glbEvent bit).core = s.core := rfl
@[simp] theorem State.glbEvent_committed (s : State) (bit : Nat) : (s.glbEvent bit).committed = s.committed := rfl
@[simp] theorem State.glbEvent_undo (s : State) (bit : Nat) : (s.glbEvent bit).undo = s.undo := rfl
@[simp] theorem State.glbEvent_freeCtr (s : State) (bit : Nat) : (s.glbEvent bit).freeCtr = s.freeCtr := rfl
@[simp] theorem State.pickEvent_pending (s : State) (bit : Nat) : (s.pickEvent bit).pending = s.pending := rfl
@[simp] theorem State.pickEvent_out (s : State) (bit : Nat) : (s.pickEvent bit).out = s.out := rfl
@[simp] theorem State.pickEvent_glb (s : State) (bit : Nat) : (s.pickEvent bit).glb = s.glb := rfl
@[simp] theorem State.pickEvent_pick_counter (s : State) (bit : Nat) : (s.pickEvent bit).pick.counter = s.pick.counter := rfl
@[simp] theorem State.pickEvent_pick_phase (s : State) (bit : Nat) : (s.pickEvent bit).pick.phase = s.pick.phase := rfl
@[simp] theorem State.pickEvent_pick_period10 (s : State) (bit : Nat) : (s.pickEvent bit).pick.period10 = s.pick.period10 := rfl
@[simp] theorem State.pickEvent_pick_windowUs (s : State) (bit : Nat) : (s.pickEvent bit).pick.windowUs = s.pick.windowUs := rfl
@[simp] theorem State.pickEvent_pick_pd10 (s : State) (bit : Nat) : (s.pickEvent bit).pick.pd10 = s.pick.pd10 := rfl
@[simp] theorem State.pickEvent_pick_wd (s : State) (bit : Nat) : (s.pickEvent bit).pick.wd = s.pick.wd := rfl
@[simp] theorem State.pickEvent_pick_differs (s : State) (bit : Nat) : (s.pickEvent bit).pick.differs = s.pick.differs := rfl
@[simp] theorem State.pickEvent_pick_late (s : State) (bit : Nat) : (s.pickEvent bit).pick.late = s.pick.late := rfl
@[simp] theorem State.pickEvent_pick_missed (s : State) (bit : Nat) : (s.pickEvent bit).pick.missed = s.pick.missed := rfl
@[simp] theorem State.pickEvent_pick_offsetPs (s : State) (bit : Nat) : (s.pickEvent bit).pick.offsetPs = s.pick.offsetPs := rfl
@[simp] theorem State.pickEvent_pick_leader (s : State) (bit : Nat) : (s.pickEvent bit).pick.leader = s.pick.leader := rfl
@[simp] theorem State.pickEvent_pick_self (s : State) (bit : Nat) : (s.pickEvent bit).pick.self = s.pick.self := rfl
@[simp] theorem State.pickEvent_pick_depth (s : State) (bit : Nat) : (s.pickEvent bit).pick.depth = s.pick.depth := rfl
@[simp] theorem State.pickEvent_pick_parent (s : State) (bit : Nat) : (s.pickEvent bit).pick.parent = s.pick.parent := rfl
@[simp] theorem State.pickEvent_pick_seen (s : State) (bit : Nat) : (s.pickEvent bit).pick.seen = s.pick.seen := rfl
@[simp] theorem State.pickEvent_pick_request10 (s : State) (bit : Nat) : (s.pickEvent bit).pick.request10 = s.pick.request10 := rfl
@[simp] theorem State.pickEvent_pick_step (s : State) (bit : Nat) : (s.pickEvent bit).pick.step = s.pick.step := rfl
@[simp] theorem State.pickEvent_pick_plan (s : State) (bit : Nat) : (s.pickEvent bit).pick.plan = s.pick.plan := rfl
@[simp] theorem State.pickEvent_pick_coming (s : State) (bit : Nat) : (s.pickEvent bit).pick.coming = s.pick.coming := rfl
@[simp] theorem State.pickEvent_pick_asked (s : State) (bit : Nat) : (s.pickEvent bit).pick.asked = s.pick.asked := rfl
@[simp] theorem State.pickEvent_pick_lastRise (s : State) (bit : Nat) : (s.pickEvent bit).pick.lastRise = s.pick.lastRise := rfl
@[simp] theorem State.pickEvent_pick_sent (s : State) (bit : Nat) : (s.pickEvent bit).pick.sent = s.pick.sent := rfl
@[simp] theorem State.pickEvent_pick_drop (s : State) (bit : Nat) : (s.pickEvent bit).pick.drop = s.pick.drop := rfl
@[simp] theorem State.pickEvent_pick_event (s : State) (bit : Nat) : (s.pickEvent bit).pick.event = orBit s.pick.event bit := rfl
@[simp] theorem State.pickEvent_pick_evMark (s : State) (bit : Nat) : (s.pickEvent bit).pick.evMark = modifyAt s.pick.evMark 1 fun v => orBit v bit := rfl
@[simp] theorem State.pickEvent_pick_flogMark (s : State) (bit : Nat) : (s.pickEvent bit).pick.flogMark = s.pick.flogMark := rfl
@[simp] theorem State.pickEvent_pick_wrote (s : State) (bit : Nat) : (s.pickEvent bit).pick.wrote = s.pick.wrote := rfl
@[simp] theorem State.pickEvent_pick_sampling (s : State) (bit : Nat) : (s.pickEvent bit).pick.sampling = s.pick.sampling := rfl
@[simp] theorem State.pickEvent_pick_joining (s : State) (bit : Nat) : (s.pickEvent bit).pick.joining = s.pick.joining := rfl
@[simp] theorem State.pickEvent_pick_warm (s : State) (bit : Nat) : (s.pickEvent bit).pick.warm = s.pick.warm := rfl
@[simp] theorem State.pickEvent_pick_epochs (s : State) (bit : Nat) : (s.pickEvent bit).pick.epochs = s.pick.epochs := rfl
@[simp] theorem State.pickEvent_draft (s : State) (bit : Nat) : (s.pickEvent bit).draft = s.draft := rfl
@[simp] theorem State.pickEvent_ord (s : State) (bit : Nat) : (s.pickEvent bit).ord = s.ord := rfl
@[simp] theorem State.pickEvent_flog (s : State) (bit : Nat) : (s.pickEvent bit).flog = s.flog := rfl
@[simp] theorem State.pickEvent_twin (s : State) (bit : Nat) : (s.pickEvent bit).twin = s.twin := rfl
@[simp] theorem State.pickEvent_opt (s : State) (bit : Nat) : (s.pickEvent bit).opt = s.opt := rfl
@[simp] theorem State.pickEvent_reed (s : State) (bit : Nat) : (s.pickEvent bit).reed = s.reed := rfl
@[simp] theorem State.pickEvent_memr (s : State) (bit : Nat) : (s.pickEvent bit).memr = s.memr := rfl
@[simp] theorem State.pickEvent_integ (s : State) (bit : Nat) : (s.pickEvent bit).integ = s.integ := rfl
@[simp] theorem State.pickEvent_mgt (s : State) (bit : Nat) : (s.pickEvent bit).mgt = s.mgt := rfl
@[simp] theorem State.pickEvent_flash (s : State) (bit : Nat) : (s.pickEvent bit).flash = s.flash := rfl
@[simp] theorem State.pickEvent_fw (s : State) (bit : Nat) : (s.pickEvent bit).fw = s.fw := rfl
@[simp] theorem State.pickEvent_power (s : State) (bit : Nat) : (s.pickEvent bit).power = s.power := rfl
@[simp] theorem State.pickEvent_proto (s : State) (bit : Nat) : (s.pickEvent bit).proto = s.proto := rfl
@[simp] theorem State.pickEvent_core (s : State) (bit : Nat) : (s.pickEvent bit).core = s.core := rfl
@[simp] theorem State.pickEvent_committed (s : State) (bit : Nat) : (s.pickEvent bit).committed = s.committed := rfl
@[simp] theorem State.pickEvent_undo (s : State) (bit : Nat) : (s.pickEvent bit).undo = s.undo := rfl
@[simp] theorem State.pickEvent_freeCtr (s : State) (bit : Nat) : (s.pickEvent bit).freeCtr = s.freeCtr := rfl
@[simp] theorem State.draftEvent_pending (s : State) (bit : Nat) : (s.draftEvent bit).pending = s.pending := rfl
@[simp] theorem State.draftEvent_out (s : State) (bit : Nat) : (s.draftEvent bit).out = s.out := rfl
@[simp] theorem State.draftEvent_glb (s : State) (bit : Nat) : (s.draftEvent bit).glb = s.glb := rfl
@[simp] theorem State.draftEvent_pick_counter (s : State) (bit : Nat) : (s.draftEvent bit).pick.counter = s.pick.counter := rfl
@[simp] theorem State.draftEvent_pick_phase (s : State) (bit : Nat) : (s.draftEvent bit).pick.phase = s.pick.phase := rfl
@[simp] theorem State.draftEvent_pick_period10 (s : State) (bit : Nat) : (s.draftEvent bit).pick.period10 = s.pick.period10 := rfl
@[simp] theorem State.draftEvent_pick_windowUs (s : State) (bit : Nat) : (s.draftEvent bit).pick.windowUs = s.pick.windowUs := rfl
@[simp] theorem State.draftEvent_pick_pd10 (s : State) (bit : Nat) : (s.draftEvent bit).pick.pd10 = s.pick.pd10 := rfl
@[simp] theorem State.draftEvent_pick_wd (s : State) (bit : Nat) : (s.draftEvent bit).pick.wd = s.pick.wd := rfl
@[simp] theorem State.draftEvent_pick_differs (s : State) (bit : Nat) : (s.draftEvent bit).pick.differs = s.pick.differs := rfl
@[simp] theorem State.draftEvent_pick_late (s : State) (bit : Nat) : (s.draftEvent bit).pick.late = s.pick.late := rfl
@[simp] theorem State.draftEvent_pick_missed (s : State) (bit : Nat) : (s.draftEvent bit).pick.missed = s.pick.missed := rfl
@[simp] theorem State.draftEvent_pick_offsetPs (s : State) (bit : Nat) : (s.draftEvent bit).pick.offsetPs = s.pick.offsetPs := rfl
@[simp] theorem State.draftEvent_pick_leader (s : State) (bit : Nat) : (s.draftEvent bit).pick.leader = s.pick.leader := rfl
@[simp] theorem State.draftEvent_pick_self (s : State) (bit : Nat) : (s.draftEvent bit).pick.self = s.pick.self := rfl
@[simp] theorem State.draftEvent_pick_depth (s : State) (bit : Nat) : (s.draftEvent bit).pick.depth = s.pick.depth := rfl
@[simp] theorem State.draftEvent_pick_parent (s : State) (bit : Nat) : (s.draftEvent bit).pick.parent = s.pick.parent := rfl
@[simp] theorem State.draftEvent_pick_seen (s : State) (bit : Nat) : (s.draftEvent bit).pick.seen = s.pick.seen := rfl
@[simp] theorem State.draftEvent_pick_request10 (s : State) (bit : Nat) : (s.draftEvent bit).pick.request10 = s.pick.request10 := rfl
@[simp] theorem State.draftEvent_pick_step (s : State) (bit : Nat) : (s.draftEvent bit).pick.step = s.pick.step := rfl
@[simp] theorem State.draftEvent_pick_plan (s : State) (bit : Nat) : (s.draftEvent bit).pick.plan = s.pick.plan := rfl
@[simp] theorem State.draftEvent_pick_coming (s : State) (bit : Nat) : (s.draftEvent bit).pick.coming = s.pick.coming := rfl
@[simp] theorem State.draftEvent_pick_asked (s : State) (bit : Nat) : (s.draftEvent bit).pick.asked = s.pick.asked := rfl
@[simp] theorem State.draftEvent_pick_lastRise (s : State) (bit : Nat) : (s.draftEvent bit).pick.lastRise = s.pick.lastRise := rfl
@[simp] theorem State.draftEvent_pick_sent (s : State) (bit : Nat) : (s.draftEvent bit).pick.sent = s.pick.sent := rfl
@[simp] theorem State.draftEvent_pick_drop (s : State) (bit : Nat) : (s.draftEvent bit).pick.drop = s.pick.drop := rfl
@[simp] theorem State.draftEvent_pick_event (s : State) (bit : Nat) : (s.draftEvent bit).pick.event = s.pick.event := rfl
@[simp] theorem State.draftEvent_pick_evMark (s : State) (bit : Nat) : (s.draftEvent bit).pick.evMark = modifyAt s.pick.evMark 8 fun v => orBit v bit := rfl
@[simp] theorem State.draftEvent_pick_flogMark (s : State) (bit : Nat) : (s.draftEvent bit).pick.flogMark = s.pick.flogMark := rfl
@[simp] theorem State.draftEvent_pick_wrote (s : State) (bit : Nat) : (s.draftEvent bit).pick.wrote = s.pick.wrote := rfl
@[simp] theorem State.draftEvent_pick_sampling (s : State) (bit : Nat) : (s.draftEvent bit).pick.sampling = s.pick.sampling := rfl
@[simp] theorem State.draftEvent_pick_joining (s : State) (bit : Nat) : (s.draftEvent bit).pick.joining = s.pick.joining := rfl
@[simp] theorem State.draftEvent_pick_warm (s : State) (bit : Nat) : (s.draftEvent bit).pick.warm = s.pick.warm := rfl
@[simp] theorem State.draftEvent_pick_epochs (s : State) (bit : Nat) : (s.draftEvent bit).pick.epochs = s.pick.epochs := rfl
@[simp] theorem State.draftEvent_draft_stageAddr (s : State) (bit : Nat) : (s.draftEvent bit).draft.stageAddr = s.draft.stageAddr := rfl
@[simp] theorem State.draftEvent_draft_stageLen (s : State) (bit : Nat) : (s.draftEvent bit).draft.stageLen = s.draft.stageLen := rfl
@[simp] theorem State.draftEvent_draft_applyBeat (s : State) (bit : Nat) : (s.draftEvent bit).draft.applyBeat = s.draft.applyBeat := rfl
@[simp] theorem State.draftEvent_draft_checkCode (s : State) (bit : Nat) : (s.draftEvent bit).draft.checkCode = s.draft.checkCode := rfl
@[simp] theorem State.draftEvent_draft_missReason (s : State) (bit : Nat) : (s.draftEvent bit).draft.missReason = s.draft.missReason := rfl
@[simp] theorem State.draftEvent_draft_armedBeat (s : State) (bit : Nat) : (s.draftEvent bit).draft.armedBeat = s.draft.armedBeat := rfl
@[simp] theorem State.draftEvent_draft_state (s : State) (bit : Nat) : (s.draftEvent bit).draft.state = s.draft.state := rfl
@[simp] theorem State.draftEvent_draft_stagedId (s : State) (bit : Nat) : (s.draftEvent bit).draft.stagedId = s.draft.stagedId := rfl
@[simp] theorem State.draftEvent_draft_activeId (s : State) (bit : Nat) : (s.draftEvent bit).draft.activeId = s.draft.activeId := rfl
@[simp] theorem State.draftEvent_draft_activeBeat (s : State) (bit : Nat) : (s.draftEvent bit).draft.activeBeat = s.draft.activeBeat := rfl
@[simp] theorem State.draftEvent_draft_whereSec (s : State) (bit : Nat) : (s.draftEvent bit).draft.whereSec = s.draft.whereSec := rfl
@[simp] theorem State.draftEvent_draft_whereOff (s : State) (bit : Nat) : (s.draftEvent bit).draft.whereOff = s.draft.whereOff := rfl
@[simp] theorem State.draftEvent_draft_event (s : State) (bit : Nat) : (s.draftEvent bit).draft.event = orBit s.draft.event bit := rfl
@[simp] theorem State.draftEvent_draft_copy (s : State) (bit : Nat) : (s.draftEvent bit).draft.copy = s.draft.copy := rfl
@[simp] theorem State.draftEvent_draft_readFail (s : State) (bit : Nat) : (s.draftEvent bit).draft.readFail = s.draft.readFail := rfl
@[simp] theorem State.draftEvent_draft_from_ (s : State) (bit : Nat) : (s.draftEvent bit).draft.from_ = s.draft.from_ := rfl
@[simp] theorem State.draftEvent_draft_len (s : State) (bit : Nat) : (s.draftEvent bit).draft.len = s.draft.len := rfl
@[simp] theorem State.draftEvent_draft_due (s : State) (bit : Nat) : (s.draftEvent bit).draft.due = s.draft.due := rfl
@[simp] theorem State.draftEvent_draft_lapsed (s : State) (bit : Nat) : (s.draftEvent bit).draft.lapsed = s.draft.lapsed := rfl
@[simp] theorem State.draftEvent_draft_prior (s : State) (bit : Nat) : (s.draftEvent bit).draft.prior = s.draft.prior := rfl
@[simp] theorem State.draftEvent_draft_active (s : State) (bit : Nat) : (s.draftEvent bit).draft.active = s.draft.active := rfl
@[simp] theorem State.draftEvent_draft_boot (s : State) (bit : Nat) : (s.draftEvent bit).draft.boot = s.draft.boot := rfl
@[simp] theorem State.draftEvent_ord (s : State) (bit : Nat) : (s.draftEvent bit).ord = s.ord := rfl
@[simp] theorem State.draftEvent_flog (s : State) (bit : Nat) : (s.draftEvent bit).flog = s.flog := rfl
@[simp] theorem State.draftEvent_twin (s : State) (bit : Nat) : (s.draftEvent bit).twin = s.twin := rfl
@[simp] theorem State.draftEvent_opt (s : State) (bit : Nat) : (s.draftEvent bit).opt = s.opt := rfl
@[simp] theorem State.draftEvent_reed (s : State) (bit : Nat) : (s.draftEvent bit).reed = s.reed := rfl
@[simp] theorem State.draftEvent_memr (s : State) (bit : Nat) : (s.draftEvent bit).memr = s.memr := rfl
@[simp] theorem State.draftEvent_integ (s : State) (bit : Nat) : (s.draftEvent bit).integ = s.integ := rfl
@[simp] theorem State.draftEvent_mgt (s : State) (bit : Nat) : (s.draftEvent bit).mgt = s.mgt := rfl
@[simp] theorem State.draftEvent_flash (s : State) (bit : Nat) : (s.draftEvent bit).flash = s.flash := rfl
@[simp] theorem State.draftEvent_fw (s : State) (bit : Nat) : (s.draftEvent bit).fw = s.fw := rfl
@[simp] theorem State.draftEvent_power (s : State) (bit : Nat) : (s.draftEvent bit).power = s.power := rfl
@[simp] theorem State.draftEvent_proto (s : State) (bit : Nat) : (s.draftEvent bit).proto = s.proto := rfl
@[simp] theorem State.draftEvent_core (s : State) (bit : Nat) : (s.draftEvent bit).core = s.core := rfl
@[simp] theorem State.draftEvent_committed (s : State) (bit : Nat) : (s.draftEvent bit).committed = s.committed := rfl
@[simp] theorem State.draftEvent_undo (s : State) (bit : Nat) : (s.draftEvent bit).undo = s.undo := rfl
@[simp] theorem State.draftEvent_freeCtr (s : State) (bit : Nat) : (s.draftEvent bit).freeCtr = s.freeCtr := rfl
@[simp] theorem State.twinEvent_pending (s : State) (bit : Nat) : (s.twinEvent bit).pending = s.pending := rfl
@[simp] theorem State.twinEvent_out (s : State) (bit : Nat) : (s.twinEvent bit).out = s.out := rfl
@[simp] theorem State.twinEvent_glb (s : State) (bit : Nat) : (s.twinEvent bit).glb = s.glb := rfl
@[simp] theorem State.twinEvent_pick_counter (s : State) (bit : Nat) : (s.twinEvent bit).pick.counter = s.pick.counter := rfl
@[simp] theorem State.twinEvent_pick_phase (s : State) (bit : Nat) : (s.twinEvent bit).pick.phase = s.pick.phase := rfl
@[simp] theorem State.twinEvent_pick_period10 (s : State) (bit : Nat) : (s.twinEvent bit).pick.period10 = s.pick.period10 := rfl
@[simp] theorem State.twinEvent_pick_windowUs (s : State) (bit : Nat) : (s.twinEvent bit).pick.windowUs = s.pick.windowUs := rfl
@[simp] theorem State.twinEvent_pick_pd10 (s : State) (bit : Nat) : (s.twinEvent bit).pick.pd10 = s.pick.pd10 := rfl
@[simp] theorem State.twinEvent_pick_wd (s : State) (bit : Nat) : (s.twinEvent bit).pick.wd = s.pick.wd := rfl
@[simp] theorem State.twinEvent_pick_differs (s : State) (bit : Nat) : (s.twinEvent bit).pick.differs = s.pick.differs := rfl
@[simp] theorem State.twinEvent_pick_late (s : State) (bit : Nat) : (s.twinEvent bit).pick.late = s.pick.late := rfl
@[simp] theorem State.twinEvent_pick_missed (s : State) (bit : Nat) : (s.twinEvent bit).pick.missed = s.pick.missed := rfl
@[simp] theorem State.twinEvent_pick_offsetPs (s : State) (bit : Nat) : (s.twinEvent bit).pick.offsetPs = s.pick.offsetPs := rfl
@[simp] theorem State.twinEvent_pick_leader (s : State) (bit : Nat) : (s.twinEvent bit).pick.leader = s.pick.leader := rfl
@[simp] theorem State.twinEvent_pick_self (s : State) (bit : Nat) : (s.twinEvent bit).pick.self = s.pick.self := rfl
@[simp] theorem State.twinEvent_pick_depth (s : State) (bit : Nat) : (s.twinEvent bit).pick.depth = s.pick.depth := rfl
@[simp] theorem State.twinEvent_pick_parent (s : State) (bit : Nat) : (s.twinEvent bit).pick.parent = s.pick.parent := rfl
@[simp] theorem State.twinEvent_pick_seen (s : State) (bit : Nat) : (s.twinEvent bit).pick.seen = s.pick.seen := rfl
@[simp] theorem State.twinEvent_pick_request10 (s : State) (bit : Nat) : (s.twinEvent bit).pick.request10 = s.pick.request10 := rfl
@[simp] theorem State.twinEvent_pick_step (s : State) (bit : Nat) : (s.twinEvent bit).pick.step = s.pick.step := rfl
@[simp] theorem State.twinEvent_pick_plan (s : State) (bit : Nat) : (s.twinEvent bit).pick.plan = s.pick.plan := rfl
@[simp] theorem State.twinEvent_pick_coming (s : State) (bit : Nat) : (s.twinEvent bit).pick.coming = s.pick.coming := rfl
@[simp] theorem State.twinEvent_pick_asked (s : State) (bit : Nat) : (s.twinEvent bit).pick.asked = s.pick.asked := rfl
@[simp] theorem State.twinEvent_pick_lastRise (s : State) (bit : Nat) : (s.twinEvent bit).pick.lastRise = s.pick.lastRise := rfl
@[simp] theorem State.twinEvent_pick_sent (s : State) (bit : Nat) : (s.twinEvent bit).pick.sent = s.pick.sent := rfl
@[simp] theorem State.twinEvent_pick_drop (s : State) (bit : Nat) : (s.twinEvent bit).pick.drop = s.pick.drop := rfl
@[simp] theorem State.twinEvent_pick_event (s : State) (bit : Nat) : (s.twinEvent bit).pick.event = s.pick.event := rfl
@[simp] theorem State.twinEvent_pick_evMark (s : State) (bit : Nat) : (s.twinEvent bit).pick.evMark = modifyAt s.pick.evMark 2 fun v => orBit v bit := rfl
@[simp] theorem State.twinEvent_pick_flogMark (s : State) (bit : Nat) : (s.twinEvent bit).pick.flogMark = s.pick.flogMark := rfl
@[simp] theorem State.twinEvent_pick_wrote (s : State) (bit : Nat) : (s.twinEvent bit).pick.wrote = s.pick.wrote := rfl
@[simp] theorem State.twinEvent_pick_sampling (s : State) (bit : Nat) : (s.twinEvent bit).pick.sampling = s.pick.sampling := rfl
@[simp] theorem State.twinEvent_pick_joining (s : State) (bit : Nat) : (s.twinEvent bit).pick.joining = s.pick.joining := rfl
@[simp] theorem State.twinEvent_pick_warm (s : State) (bit : Nat) : (s.twinEvent bit).pick.warm = s.pick.warm := rfl
@[simp] theorem State.twinEvent_pick_epochs (s : State) (bit : Nat) : (s.twinEvent bit).pick.epochs = s.pick.epochs := rfl
@[simp] theorem State.twinEvent_draft (s : State) (bit : Nat) : (s.twinEvent bit).draft = s.draft := rfl
@[simp] theorem State.twinEvent_ord (s : State) (bit : Nat) : (s.twinEvent bit).ord = s.ord := rfl
@[simp] theorem State.twinEvent_flog (s : State) (bit : Nat) : (s.twinEvent bit).flog = s.flog := rfl
@[simp] theorem State.twinEvent_twin_state (s : State) (bit : Nat) : (s.twinEvent bit).twin.state = s.twin.state := rfl
@[simp] theorem State.twinEvent_twin_pairFail (s : State) (bit : Nat) : (s.twinEvent bit).twin.pairFail = s.twin.pairFail := rfl
@[simp] theorem State.twinEvent_twin_replacing (s : State) (bit : Nat) : (s.twinEvent bit).twin.replacing = s.twin.replacing := rfl
@[simp] theorem State.twinEvent_twin_suspect (s : State) (bit : Nat) : (s.twinEvent bit).twin.suspect = s.twin.suspect := rfl
@[simp] theorem State.twinEvent_twin_holds (s : State) (bit : Nat) : (s.twinEvent bit).twin.holds = s.twin.holds := rfl
@[simp] theorem State.twinEvent_twin_role (s : State) (bit : Nat) : (s.twinEvent bit).twin.role = s.twin.role := rfl
@[simp] theorem State.twinEvent_twin_beat (s : State) (bit : Nat) : (s.twinEvent bit).twin.beat = s.twin.beat := rfl
@[simp] theorem State.twinEvent_twin_holdMs (s : State) (bit : Nat) : (s.twinEvent bit).twin.holdMs = s.twin.holdMs := rfl
@[simp] theorem State.twinEvent_twin_lastDigest (s : State) (bit : Nat) : (s.twinEvent bit).twin.lastDigest = s.twin.lastDigest := rfl
@[simp] theorem State.twinEvent_twin_drainAddr (s : State) (bit : Nat) : (s.twinEvent bit).twin.drainAddr = s.twin.drainAddr := rfl
@[simp] theorem State.twinEvent_twin_drainLen (s : State) (bit : Nat) : (s.twinEvent bit).twin.drainLen = s.twin.drainLen := rfl
@[simp] theorem State.twinEvent_twin_drainBytes (s : State) (bit : Nat) : (s.twinEvent bit).twin.drainBytes = s.twin.drainBytes := rfl
@[simp] theorem State.twinEvent_twin_drainState (s : State) (bit : Nat) : (s.twinEvent bit).twin.drainState = s.twin.drainState := rfl
@[simp] theorem State.twinEvent_twin_drainDue (s : State) (bit : Nat) : (s.twinEvent bit).twin.drainDue = s.twin.drainDue := rfl
@[simp] theorem State.twinEvent_twin_drain (s : State) (bit : Nat) : (s.twinEvent bit).twin.drain = s.twin.drain := rfl
@[simp] theorem State.twinEvent_twin_event (s : State) (bit : Nat) : (s.twinEvent bit).twin.event = orBit s.twin.event bit := rfl
@[simp] theorem State.twinEvent_twin_ctxMap (s : State) (bit : Nat) : (s.twinEvent bit).twin.ctxMap = s.twin.ctxMap := rfl
@[simp] theorem State.twinEvent_twin_adopt (s : State) (bit : Nat) : (s.twinEvent bit).twin.adopt = s.twin.adopt := rfl
@[simp] theorem State.twinEvent_twin_adoptNo (s : State) (bit : Nat) : (s.twinEvent bit).twin.adoptNo = s.twin.adoptNo := rfl
@[simp] theorem State.twinEvent_twin_own (s : State) (bit : Nat) : (s.twinEvent bit).twin.own = s.twin.own := rfl
@[simp] theorem State.twinEvent_twin_matched (s : State) (bit : Nat) : (s.twinEvent bit).twin.matched = s.twin.matched := rfl
@[simp] theorem State.twinEvent_twin_syncFrom (s : State) (bit : Nat) : (s.twinEvent bit).twin.syncFrom = s.twin.syncFrom := rfl
@[simp] theorem State.twinEvent_twin_copyDone (s : State) (bit : Nat) : (s.twinEvent bit).twin.copyDone = s.twin.copyDone := rfl
@[simp] theorem State.twinEvent_twin_detected (s : State) (bit : Nat) : (s.twinEvent bit).twin.detected = s.twin.detected := rfl
@[simp] theorem State.twinEvent_twin_recopying (s : State) (bit : Nat) : (s.twinEvent bit).twin.recopying = s.twin.recopying := rfl
@[simp] theorem State.twinEvent_twin_recopied (s : State) (bit : Nat) : (s.twinEvent bit).twin.recopied = s.twin.recopied := rfl
@[simp] theorem State.twinEvent_twin_resume (s : State) (bit : Nat) : (s.twinEvent bit).twin.resume = s.twin.resume := rfl
@[simp] theorem State.twinEvent_twin_lastBeat (s : State) (bit : Nat) : (s.twinEvent bit).twin.lastBeat = s.twin.lastBeat := rfl
@[simp] theorem State.twinEvent_twin_absorbAt (s : State) (bit : Nat) : (s.twinEvent bit).twin.absorbAt = s.twin.absorbAt := rfl
@[simp] theorem State.twinEvent_twin_handbackAt (s : State) (bit : Nat) : (s.twinEvent bit).twin.handbackAt = s.twin.handbackAt := rfl
@[simp] theorem State.twinEvent_twin_detachAt (s : State) (bit : Nat) : (s.twinEvent bit).twin.detachAt = s.twin.detachAt := rfl
@[simp] theorem State.twinEvent_twin_twinDetach (s : State) (bit : Nat) : (s.twinEvent bit).twin.twinDetach = s.twin.twinDetach := rfl
@[simp] theorem State.twinEvent_twin_pairAt (s : State) (bit : Nat) : (s.twinEvent bit).twin.pairAt = s.twin.pairAt := rfl
@[simp] theorem State.twinEvent_twin_portUp (s : State) (bit : Nat) : (s.twinEvent bit).twin.portUp = s.twin.portUp := rfl
@[simp] theorem State.twinEvent_twin_first (s : State) (bit : Nat) : (s.twinEvent bit).twin.first = s.twin.first := rfl
@[simp] theorem State.twinEvent_twin_dropped (s : State) (bit : Nat) : (s.twinEvent bit).twin.dropped = s.twin.dropped := rfl
@[simp] theorem State.twinEvent_twin_passed (s : State) (bit : Nat) : (s.twinEvent bit).twin.passed = s.twin.passed := rfl
@[simp] theorem State.twinEvent_twin_mirror (s : State) (bit : Nat) : (s.twinEvent bit).twin.mirror = s.twin.mirror := rfl
@[simp] theorem State.twinEvent_opt (s : State) (bit : Nat) : (s.twinEvent bit).opt = s.opt := rfl
@[simp] theorem State.twinEvent_reed (s : State) (bit : Nat) : (s.twinEvent bit).reed = s.reed := rfl
@[simp] theorem State.twinEvent_memr (s : State) (bit : Nat) : (s.twinEvent bit).memr = s.memr := rfl
@[simp] theorem State.twinEvent_integ (s : State) (bit : Nat) : (s.twinEvent bit).integ = s.integ := rfl
@[simp] theorem State.twinEvent_mgt (s : State) (bit : Nat) : (s.twinEvent bit).mgt = s.mgt := rfl
@[simp] theorem State.twinEvent_flash (s : State) (bit : Nat) : (s.twinEvent bit).flash = s.flash := rfl
@[simp] theorem State.twinEvent_fw (s : State) (bit : Nat) : (s.twinEvent bit).fw = s.fw := rfl
@[simp] theorem State.twinEvent_power (s : State) (bit : Nat) : (s.twinEvent bit).power = s.power := rfl
@[simp] theorem State.twinEvent_proto (s : State) (bit : Nat) : (s.twinEvent bit).proto = s.proto := rfl
@[simp] theorem State.twinEvent_core (s : State) (bit : Nat) : (s.twinEvent bit).core = s.core := rfl
@[simp] theorem State.twinEvent_committed (s : State) (bit : Nat) : (s.twinEvent bit).committed = s.committed := rfl
@[simp] theorem State.twinEvent_undo (s : State) (bit : Nat) : (s.twinEvent bit).undo = s.undo := rfl
@[simp] theorem State.twinEvent_freeCtr (s : State) (bit : Nat) : (s.twinEvent bit).freeCtr = s.freeCtr := rfl
@[simp] theorem State.optEvent_pending (s : State) (bit : Nat) : (s.optEvent bit).pending = s.pending := rfl
@[simp] theorem State.optEvent_out (s : State) (bit : Nat) : (s.optEvent bit).out = s.out := rfl
@[simp] theorem State.optEvent_glb (s : State) (bit : Nat) : (s.optEvent bit).glb = s.glb := rfl
@[simp] theorem State.optEvent_pick_counter (s : State) (bit : Nat) : (s.optEvent bit).pick.counter = s.pick.counter := rfl
@[simp] theorem State.optEvent_pick_phase (s : State) (bit : Nat) : (s.optEvent bit).pick.phase = s.pick.phase := rfl
@[simp] theorem State.optEvent_pick_period10 (s : State) (bit : Nat) : (s.optEvent bit).pick.period10 = s.pick.period10 := rfl
@[simp] theorem State.optEvent_pick_windowUs (s : State) (bit : Nat) : (s.optEvent bit).pick.windowUs = s.pick.windowUs := rfl
@[simp] theorem State.optEvent_pick_pd10 (s : State) (bit : Nat) : (s.optEvent bit).pick.pd10 = s.pick.pd10 := rfl
@[simp] theorem State.optEvent_pick_wd (s : State) (bit : Nat) : (s.optEvent bit).pick.wd = s.pick.wd := rfl
@[simp] theorem State.optEvent_pick_differs (s : State) (bit : Nat) : (s.optEvent bit).pick.differs = s.pick.differs := rfl
@[simp] theorem State.optEvent_pick_late (s : State) (bit : Nat) : (s.optEvent bit).pick.late = s.pick.late := rfl
@[simp] theorem State.optEvent_pick_missed (s : State) (bit : Nat) : (s.optEvent bit).pick.missed = s.pick.missed := rfl
@[simp] theorem State.optEvent_pick_offsetPs (s : State) (bit : Nat) : (s.optEvent bit).pick.offsetPs = s.pick.offsetPs := rfl
@[simp] theorem State.optEvent_pick_leader (s : State) (bit : Nat) : (s.optEvent bit).pick.leader = s.pick.leader := rfl
@[simp] theorem State.optEvent_pick_self (s : State) (bit : Nat) : (s.optEvent bit).pick.self = s.pick.self := rfl
@[simp] theorem State.optEvent_pick_depth (s : State) (bit : Nat) : (s.optEvent bit).pick.depth = s.pick.depth := rfl
@[simp] theorem State.optEvent_pick_parent (s : State) (bit : Nat) : (s.optEvent bit).pick.parent = s.pick.parent := rfl
@[simp] theorem State.optEvent_pick_seen (s : State) (bit : Nat) : (s.optEvent bit).pick.seen = s.pick.seen := rfl
@[simp] theorem State.optEvent_pick_request10 (s : State) (bit : Nat) : (s.optEvent bit).pick.request10 = s.pick.request10 := rfl
@[simp] theorem State.optEvent_pick_step (s : State) (bit : Nat) : (s.optEvent bit).pick.step = s.pick.step := rfl
@[simp] theorem State.optEvent_pick_plan (s : State) (bit : Nat) : (s.optEvent bit).pick.plan = s.pick.plan := rfl
@[simp] theorem State.optEvent_pick_coming (s : State) (bit : Nat) : (s.optEvent bit).pick.coming = s.pick.coming := rfl
@[simp] theorem State.optEvent_pick_asked (s : State) (bit : Nat) : (s.optEvent bit).pick.asked = s.pick.asked := rfl
@[simp] theorem State.optEvent_pick_lastRise (s : State) (bit : Nat) : (s.optEvent bit).pick.lastRise = s.pick.lastRise := rfl
@[simp] theorem State.optEvent_pick_sent (s : State) (bit : Nat) : (s.optEvent bit).pick.sent = s.pick.sent := rfl
@[simp] theorem State.optEvent_pick_drop (s : State) (bit : Nat) : (s.optEvent bit).pick.drop = s.pick.drop := rfl
@[simp] theorem State.optEvent_pick_event (s : State) (bit : Nat) : (s.optEvent bit).pick.event = s.pick.event := rfl
@[simp] theorem State.optEvent_pick_evMark (s : State) (bit : Nat) : (s.optEvent bit).pick.evMark = modifyAt s.pick.evMark 6 fun v => orBit v bit := rfl
@[simp] theorem State.optEvent_pick_flogMark (s : State) (bit : Nat) : (s.optEvent bit).pick.flogMark = s.pick.flogMark := rfl
@[simp] theorem State.optEvent_pick_wrote (s : State) (bit : Nat) : (s.optEvent bit).pick.wrote = s.pick.wrote := rfl
@[simp] theorem State.optEvent_pick_sampling (s : State) (bit : Nat) : (s.optEvent bit).pick.sampling = s.pick.sampling := rfl
@[simp] theorem State.optEvent_pick_joining (s : State) (bit : Nat) : (s.optEvent bit).pick.joining = s.pick.joining := rfl
@[simp] theorem State.optEvent_pick_warm (s : State) (bit : Nat) : (s.optEvent bit).pick.warm = s.pick.warm := rfl
@[simp] theorem State.optEvent_pick_epochs (s : State) (bit : Nat) : (s.optEvent bit).pick.epochs = s.pick.epochs := rfl
@[simp] theorem State.optEvent_draft (s : State) (bit : Nat) : (s.optEvent bit).draft = s.draft := rfl
@[simp] theorem State.optEvent_ord (s : State) (bit : Nat) : (s.optEvent bit).ord = s.ord := rfl
@[simp] theorem State.optEvent_flog (s : State) (bit : Nat) : (s.optEvent bit).flog = s.flog := rfl
@[simp] theorem State.optEvent_twin (s : State) (bit : Nat) : (s.optEvent bit).twin = s.twin := rfl
@[simp] theorem State.optEvent_opt_ports (s : State) (bit : Nat) : (s.optEvent bit).opt.ports = s.opt.ports := rfl
@[simp] theorem State.optEvent_opt_carts (s : State) (bit : Nat) : (s.optEvent bit).opt.carts = s.opt.carts := rfl
@[simp] theorem State.optEvent_opt_warm (s : State) (bit : Nat) : (s.optEvent bit).opt.warm = s.opt.warm := rfl
@[simp] theorem State.optEvent_opt_detour (s : State) (bit : Nat) : (s.optEvent bit).opt.detour = s.opt.detour := rfl
@[simp] theorem State.optEvent_opt_event (s : State) (bit : Nat) : (s.optEvent bit).opt.event = orBit s.opt.event bit := rfl
@[simp] theorem State.optEvent_opt_stranded (s : State) (bit : Nat) : (s.optEvent bit).opt.stranded = s.opt.stranded := rfl
@[simp] theorem State.optEvent_reed (s : State) (bit : Nat) : (s.optEvent bit).reed = s.reed := rfl
@[simp] theorem State.optEvent_memr (s : State) (bit : Nat) : (s.optEvent bit).memr = s.memr := rfl
@[simp] theorem State.optEvent_integ (s : State) (bit : Nat) : (s.optEvent bit).integ = s.integ := rfl
@[simp] theorem State.optEvent_mgt (s : State) (bit : Nat) : (s.optEvent bit).mgt = s.mgt := rfl
@[simp] theorem State.optEvent_flash (s : State) (bit : Nat) : (s.optEvent bit).flash = s.flash := rfl
@[simp] theorem State.optEvent_fw (s : State) (bit : Nat) : (s.optEvent bit).fw = s.fw := rfl
@[simp] theorem State.optEvent_power (s : State) (bit : Nat) : (s.optEvent bit).power = s.power := rfl
@[simp] theorem State.optEvent_proto (s : State) (bit : Nat) : (s.optEvent bit).proto = s.proto := rfl
@[simp] theorem State.optEvent_core (s : State) (bit : Nat) : (s.optEvent bit).core = s.core := rfl
@[simp] theorem State.optEvent_committed (s : State) (bit : Nat) : (s.optEvent bit).committed = s.committed := rfl
@[simp] theorem State.optEvent_undo (s : State) (bit : Nat) : (s.optEvent bit).undo = s.undo := rfl
@[simp] theorem State.optEvent_freeCtr (s : State) (bit : Nat) : (s.optEvent bit).freeCtr = s.freeCtr := rfl
@[simp] theorem State.reedEvent_pending (s : State) (bit : Nat) : (s.reedEvent bit).pending = s.pending := rfl
@[simp] theorem State.reedEvent_out (s : State) (bit : Nat) : (s.reedEvent bit).out = s.out := rfl
@[simp] theorem State.reedEvent_glb (s : State) (bit : Nat) : (s.reedEvent bit).glb = s.glb := rfl
@[simp] theorem State.reedEvent_pick_counter (s : State) (bit : Nat) : (s.reedEvent bit).pick.counter = s.pick.counter := rfl
@[simp] theorem State.reedEvent_pick_phase (s : State) (bit : Nat) : (s.reedEvent bit).pick.phase = s.pick.phase := rfl
@[simp] theorem State.reedEvent_pick_period10 (s : State) (bit : Nat) : (s.reedEvent bit).pick.period10 = s.pick.period10 := rfl
@[simp] theorem State.reedEvent_pick_windowUs (s : State) (bit : Nat) : (s.reedEvent bit).pick.windowUs = s.pick.windowUs := rfl
@[simp] theorem State.reedEvent_pick_pd10 (s : State) (bit : Nat) : (s.reedEvent bit).pick.pd10 = s.pick.pd10 := rfl
@[simp] theorem State.reedEvent_pick_wd (s : State) (bit : Nat) : (s.reedEvent bit).pick.wd = s.pick.wd := rfl
@[simp] theorem State.reedEvent_pick_differs (s : State) (bit : Nat) : (s.reedEvent bit).pick.differs = s.pick.differs := rfl
@[simp] theorem State.reedEvent_pick_late (s : State) (bit : Nat) : (s.reedEvent bit).pick.late = s.pick.late := rfl
@[simp] theorem State.reedEvent_pick_missed (s : State) (bit : Nat) : (s.reedEvent bit).pick.missed = s.pick.missed := rfl
@[simp] theorem State.reedEvent_pick_offsetPs (s : State) (bit : Nat) : (s.reedEvent bit).pick.offsetPs = s.pick.offsetPs := rfl
@[simp] theorem State.reedEvent_pick_leader (s : State) (bit : Nat) : (s.reedEvent bit).pick.leader = s.pick.leader := rfl
@[simp] theorem State.reedEvent_pick_self (s : State) (bit : Nat) : (s.reedEvent bit).pick.self = s.pick.self := rfl
@[simp] theorem State.reedEvent_pick_depth (s : State) (bit : Nat) : (s.reedEvent bit).pick.depth = s.pick.depth := rfl
@[simp] theorem State.reedEvent_pick_parent (s : State) (bit : Nat) : (s.reedEvent bit).pick.parent = s.pick.parent := rfl
@[simp] theorem State.reedEvent_pick_seen (s : State) (bit : Nat) : (s.reedEvent bit).pick.seen = s.pick.seen := rfl
@[simp] theorem State.reedEvent_pick_request10 (s : State) (bit : Nat) : (s.reedEvent bit).pick.request10 = s.pick.request10 := rfl
@[simp] theorem State.reedEvent_pick_step (s : State) (bit : Nat) : (s.reedEvent bit).pick.step = s.pick.step := rfl
@[simp] theorem State.reedEvent_pick_plan (s : State) (bit : Nat) : (s.reedEvent bit).pick.plan = s.pick.plan := rfl
@[simp] theorem State.reedEvent_pick_coming (s : State) (bit : Nat) : (s.reedEvent bit).pick.coming = s.pick.coming := rfl
@[simp] theorem State.reedEvent_pick_asked (s : State) (bit : Nat) : (s.reedEvent bit).pick.asked = s.pick.asked := rfl
@[simp] theorem State.reedEvent_pick_lastRise (s : State) (bit : Nat) : (s.reedEvent bit).pick.lastRise = s.pick.lastRise := rfl
@[simp] theorem State.reedEvent_pick_sent (s : State) (bit : Nat) : (s.reedEvent bit).pick.sent = s.pick.sent := rfl
@[simp] theorem State.reedEvent_pick_drop (s : State) (bit : Nat) : (s.reedEvent bit).pick.drop = s.pick.drop := rfl
@[simp] theorem State.reedEvent_pick_event (s : State) (bit : Nat) : (s.reedEvent bit).pick.event = s.pick.event := rfl
@[simp] theorem State.reedEvent_pick_evMark (s : State) (bit : Nat) : (s.reedEvent bit).pick.evMark = modifyAt s.pick.evMark 3 fun v => orBit v bit := rfl
@[simp] theorem State.reedEvent_pick_flogMark (s : State) (bit : Nat) : (s.reedEvent bit).pick.flogMark = s.pick.flogMark := rfl
@[simp] theorem State.reedEvent_pick_wrote (s : State) (bit : Nat) : (s.reedEvent bit).pick.wrote = s.pick.wrote := rfl
@[simp] theorem State.reedEvent_pick_sampling (s : State) (bit : Nat) : (s.reedEvent bit).pick.sampling = s.pick.sampling := rfl
@[simp] theorem State.reedEvent_pick_joining (s : State) (bit : Nat) : (s.reedEvent bit).pick.joining = s.pick.joining := rfl
@[simp] theorem State.reedEvent_pick_warm (s : State) (bit : Nat) : (s.reedEvent bit).pick.warm = s.pick.warm := rfl
@[simp] theorem State.reedEvent_pick_epochs (s : State) (bit : Nat) : (s.reedEvent bit).pick.epochs = s.pick.epochs := rfl
@[simp] theorem State.reedEvent_draft (s : State) (bit : Nat) : (s.reedEvent bit).draft = s.draft := rfl
@[simp] theorem State.reedEvent_ord (s : State) (bit : Nat) : (s.reedEvent bit).ord = s.ord := rfl
@[simp] theorem State.reedEvent_flog (s : State) (bit : Nat) : (s.reedEvent bit).flog = s.flog := rfl
@[simp] theorem State.reedEvent_twin (s : State) (bit : Nat) : (s.reedEvent bit).twin = s.twin := rfl
@[simp] theorem State.reedEvent_opt (s : State) (bit : Nat) : (s.reedEvent bit).opt = s.opt := rfl
@[simp] theorem State.reedEvent_reed_lossWait (s : State) (bit : Nat) : (s.reedEvent bit).reed.lossWait = s.reed.lossWait := rfl
@[simp] theorem State.reedEvent_reed_lossAddr (s : State) (bit : Nat) : (s.reedEvent bit).reed.lossAddr = s.reed.lossAddr := rfl
@[simp] theorem State.reedEvent_reed_lossKind (s : State) (bit : Nat) : (s.reedEvent bit).reed.lossKind = s.reed.lossKind := rfl
@[simp] theorem State.reedEvent_reed_lossBeat (s : State) (bit : Nat) : (s.reedEvent bit).reed.lossBeat = s.reed.lossBeat := rfl
@[simp] theorem State.reedEvent_reed_epochBeat (s : State) (bit : Nat) : (s.reedEvent bit).reed.epochBeat = s.reed.epochBeat := rfl
@[simp] theorem State.reedEvent_reed_event (s : State) (bit : Nat) : (s.reedEvent bit).reed.event = orBit s.reed.event bit := rfl
@[simp] theorem State.reedEvent_reed_losses (s : State) (bit : Nat) : (s.reedEvent bit).reed.losses = s.reed.losses := rfl
@[simp] theorem State.reedEvent_reed_drops (s : State) (bit : Nat) : (s.reedEvent bit).reed.drops = s.reed.drops := rfl
@[simp] theorem State.reedEvent_reed_holds (s : State) (bit : Nat) : (s.reedEvent bit).reed.holds = s.reed.holds := rfl
@[simp] theorem State.reedEvent_reed_absorbed (s : State) (bit : Nat) : (s.reedEvent bit).reed.absorbed = s.reed.absorbed := rfl
@[simp] theorem State.reedEvent_memr (s : State) (bit : Nat) : (s.reedEvent bit).memr = s.memr := rfl
@[simp] theorem State.reedEvent_integ (s : State) (bit : Nat) : (s.reedEvent bit).integ = s.integ := rfl
@[simp] theorem State.reedEvent_mgt (s : State) (bit : Nat) : (s.reedEvent bit).mgt = s.mgt := rfl
@[simp] theorem State.reedEvent_flash (s : State) (bit : Nat) : (s.reedEvent bit).flash = s.flash := rfl
@[simp] theorem State.reedEvent_fw (s : State) (bit : Nat) : (s.reedEvent bit).fw = s.fw := rfl
@[simp] theorem State.reedEvent_power (s : State) (bit : Nat) : (s.reedEvent bit).power = s.power := rfl
@[simp] theorem State.reedEvent_proto (s : State) (bit : Nat) : (s.reedEvent bit).proto = s.proto := rfl
@[simp] theorem State.reedEvent_core (s : State) (bit : Nat) : (s.reedEvent bit).core = s.core := rfl
@[simp] theorem State.reedEvent_committed (s : State) (bit : Nat) : (s.reedEvent bit).committed = s.committed := rfl
@[simp] theorem State.reedEvent_undo (s : State) (bit : Nat) : (s.reedEvent bit).undo = s.undo := rfl
@[simp] theorem State.reedEvent_freeCtr (s : State) (bit : Nat) : (s.reedEvent bit).freeCtr = s.freeCtr := rfl
@[simp] theorem State.memEvent_pending (s : State) (bit : Nat) : (s.memEvent bit).pending = s.pending := rfl
@[simp] theorem State.memEvent_out (s : State) (bit : Nat) : (s.memEvent bit).out = s.out := rfl
@[simp] theorem State.memEvent_glb (s : State) (bit : Nat) : (s.memEvent bit).glb = s.glb := rfl
@[simp] theorem State.memEvent_pick_counter (s : State) (bit : Nat) : (s.memEvent bit).pick.counter = s.pick.counter := rfl
@[simp] theorem State.memEvent_pick_phase (s : State) (bit : Nat) : (s.memEvent bit).pick.phase = s.pick.phase := rfl
@[simp] theorem State.memEvent_pick_period10 (s : State) (bit : Nat) : (s.memEvent bit).pick.period10 = s.pick.period10 := rfl
@[simp] theorem State.memEvent_pick_windowUs (s : State) (bit : Nat) : (s.memEvent bit).pick.windowUs = s.pick.windowUs := rfl
@[simp] theorem State.memEvent_pick_pd10 (s : State) (bit : Nat) : (s.memEvent bit).pick.pd10 = s.pick.pd10 := rfl
@[simp] theorem State.memEvent_pick_wd (s : State) (bit : Nat) : (s.memEvent bit).pick.wd = s.pick.wd := rfl
@[simp] theorem State.memEvent_pick_differs (s : State) (bit : Nat) : (s.memEvent bit).pick.differs = s.pick.differs := rfl
@[simp] theorem State.memEvent_pick_late (s : State) (bit : Nat) : (s.memEvent bit).pick.late = s.pick.late := rfl
@[simp] theorem State.memEvent_pick_missed (s : State) (bit : Nat) : (s.memEvent bit).pick.missed = s.pick.missed := rfl
@[simp] theorem State.memEvent_pick_offsetPs (s : State) (bit : Nat) : (s.memEvent bit).pick.offsetPs = s.pick.offsetPs := rfl
@[simp] theorem State.memEvent_pick_leader (s : State) (bit : Nat) : (s.memEvent bit).pick.leader = s.pick.leader := rfl
@[simp] theorem State.memEvent_pick_self (s : State) (bit : Nat) : (s.memEvent bit).pick.self = s.pick.self := rfl
@[simp] theorem State.memEvent_pick_depth (s : State) (bit : Nat) : (s.memEvent bit).pick.depth = s.pick.depth := rfl
@[simp] theorem State.memEvent_pick_parent (s : State) (bit : Nat) : (s.memEvent bit).pick.parent = s.pick.parent := rfl
@[simp] theorem State.memEvent_pick_seen (s : State) (bit : Nat) : (s.memEvent bit).pick.seen = s.pick.seen := rfl
@[simp] theorem State.memEvent_pick_request10 (s : State) (bit : Nat) : (s.memEvent bit).pick.request10 = s.pick.request10 := rfl
@[simp] theorem State.memEvent_pick_step (s : State) (bit : Nat) : (s.memEvent bit).pick.step = s.pick.step := rfl
@[simp] theorem State.memEvent_pick_plan (s : State) (bit : Nat) : (s.memEvent bit).pick.plan = s.pick.plan := rfl
@[simp] theorem State.memEvent_pick_coming (s : State) (bit : Nat) : (s.memEvent bit).pick.coming = s.pick.coming := rfl
@[simp] theorem State.memEvent_pick_asked (s : State) (bit : Nat) : (s.memEvent bit).pick.asked = s.pick.asked := rfl
@[simp] theorem State.memEvent_pick_lastRise (s : State) (bit : Nat) : (s.memEvent bit).pick.lastRise = s.pick.lastRise := rfl
@[simp] theorem State.memEvent_pick_sent (s : State) (bit : Nat) : (s.memEvent bit).pick.sent = s.pick.sent := rfl
@[simp] theorem State.memEvent_pick_drop (s : State) (bit : Nat) : (s.memEvent bit).pick.drop = s.pick.drop := rfl
@[simp] theorem State.memEvent_pick_event (s : State) (bit : Nat) : (s.memEvent bit).pick.event = s.pick.event := rfl
@[simp] theorem State.memEvent_pick_evMark (s : State) (bit : Nat) : (s.memEvent bit).pick.evMark = modifyAt s.pick.evMark 4 fun v => orBit v bit := rfl
@[simp] theorem State.memEvent_pick_flogMark (s : State) (bit : Nat) : (s.memEvent bit).pick.flogMark = s.pick.flogMark := rfl
@[simp] theorem State.memEvent_pick_wrote (s : State) (bit : Nat) : (s.memEvent bit).pick.wrote = s.pick.wrote := rfl
@[simp] theorem State.memEvent_pick_sampling (s : State) (bit : Nat) : (s.memEvent bit).pick.sampling = s.pick.sampling := rfl
@[simp] theorem State.memEvent_pick_joining (s : State) (bit : Nat) : (s.memEvent bit).pick.joining = s.pick.joining := rfl
@[simp] theorem State.memEvent_pick_warm (s : State) (bit : Nat) : (s.memEvent bit).pick.warm = s.pick.warm := rfl
@[simp] theorem State.memEvent_pick_epochs (s : State) (bit : Nat) : (s.memEvent bit).pick.epochs = s.pick.epochs := rfl
@[simp] theorem State.memEvent_draft (s : State) (bit : Nat) : (s.memEvent bit).draft = s.draft := rfl
@[simp] theorem State.memEvent_ord (s : State) (bit : Nat) : (s.memEvent bit).ord = s.ord := rfl
@[simp] theorem State.memEvent_flog (s : State) (bit : Nat) : (s.memEvent bit).flog = s.flog := rfl
@[simp] theorem State.memEvent_twin (s : State) (bit : Nat) : (s.memEvent bit).twin = s.twin := rfl
@[simp] theorem State.memEvent_opt (s : State) (bit : Nat) : (s.memEvent bit).opt = s.opt := rfl
@[simp] theorem State.memEvent_reed (s : State) (bit : Nat) : (s.memEvent bit).reed = s.reed := rfl
@[simp] theorem State.memEvent_memr_event (s : State) (bit : Nat) : (s.memEvent bit).memr.event = orBit s.memr.event bit := rfl
@[simp] theorem State.memEvent_memr_select (s : State) (bit : Nat) : (s.memEvent bit).memr.select = s.memr.select := rfl
@[simp] theorem State.memEvent_integ (s : State) (bit : Nat) : (s.memEvent bit).integ = s.integ := rfl
@[simp] theorem State.memEvent_mgt (s : State) (bit : Nat) : (s.memEvent bit).mgt = s.mgt := rfl
@[simp] theorem State.memEvent_flash (s : State) (bit : Nat) : (s.memEvent bit).flash = s.flash := rfl
@[simp] theorem State.memEvent_fw (s : State) (bit : Nat) : (s.memEvent bit).fw = s.fw := rfl
@[simp] theorem State.memEvent_power (s : State) (bit : Nat) : (s.memEvent bit).power = s.power := rfl
@[simp] theorem State.memEvent_proto (s : State) (bit : Nat) : (s.memEvent bit).proto = s.proto := rfl
@[simp] theorem State.memEvent_core (s : State) (bit : Nat) : (s.memEvent bit).core = s.core := rfl
@[simp] theorem State.memEvent_committed (s : State) (bit : Nat) : (s.memEvent bit).committed = s.committed := rfl
@[simp] theorem State.memEvent_undo (s : State) (bit : Nat) : (s.memEvent bit).undo = s.undo := rfl
@[simp] theorem State.memEvent_freeCtr (s : State) (bit : Nat) : (s.memEvent bit).freeCtr = s.freeCtr := rfl
@[simp] theorem State.integEvent_pending (s : State) (bit : Nat) : (s.integEvent bit).pending = s.pending := rfl
@[simp] theorem State.integEvent_out (s : State) (bit : Nat) : (s.integEvent bit).out = s.out := rfl
@[simp] theorem State.integEvent_glb (s : State) (bit : Nat) : (s.integEvent bit).glb = s.glb := rfl
@[simp] theorem State.integEvent_pick_counter (s : State) (bit : Nat) : (s.integEvent bit).pick.counter = s.pick.counter := rfl
@[simp] theorem State.integEvent_pick_phase (s : State) (bit : Nat) : (s.integEvent bit).pick.phase = s.pick.phase := rfl
@[simp] theorem State.integEvent_pick_period10 (s : State) (bit : Nat) : (s.integEvent bit).pick.period10 = s.pick.period10 := rfl
@[simp] theorem State.integEvent_pick_windowUs (s : State) (bit : Nat) : (s.integEvent bit).pick.windowUs = s.pick.windowUs := rfl
@[simp] theorem State.integEvent_pick_pd10 (s : State) (bit : Nat) : (s.integEvent bit).pick.pd10 = s.pick.pd10 := rfl
@[simp] theorem State.integEvent_pick_wd (s : State) (bit : Nat) : (s.integEvent bit).pick.wd = s.pick.wd := rfl
@[simp] theorem State.integEvent_pick_differs (s : State) (bit : Nat) : (s.integEvent bit).pick.differs = s.pick.differs := rfl
@[simp] theorem State.integEvent_pick_late (s : State) (bit : Nat) : (s.integEvent bit).pick.late = s.pick.late := rfl
@[simp] theorem State.integEvent_pick_missed (s : State) (bit : Nat) : (s.integEvent bit).pick.missed = s.pick.missed := rfl
@[simp] theorem State.integEvent_pick_offsetPs (s : State) (bit : Nat) : (s.integEvent bit).pick.offsetPs = s.pick.offsetPs := rfl
@[simp] theorem State.integEvent_pick_leader (s : State) (bit : Nat) : (s.integEvent bit).pick.leader = s.pick.leader := rfl
@[simp] theorem State.integEvent_pick_self (s : State) (bit : Nat) : (s.integEvent bit).pick.self = s.pick.self := rfl
@[simp] theorem State.integEvent_pick_depth (s : State) (bit : Nat) : (s.integEvent bit).pick.depth = s.pick.depth := rfl
@[simp] theorem State.integEvent_pick_parent (s : State) (bit : Nat) : (s.integEvent bit).pick.parent = s.pick.parent := rfl
@[simp] theorem State.integEvent_pick_seen (s : State) (bit : Nat) : (s.integEvent bit).pick.seen = s.pick.seen := rfl
@[simp] theorem State.integEvent_pick_request10 (s : State) (bit : Nat) : (s.integEvent bit).pick.request10 = s.pick.request10 := rfl
@[simp] theorem State.integEvent_pick_step (s : State) (bit : Nat) : (s.integEvent bit).pick.step = s.pick.step := rfl
@[simp] theorem State.integEvent_pick_plan (s : State) (bit : Nat) : (s.integEvent bit).pick.plan = s.pick.plan := rfl
@[simp] theorem State.integEvent_pick_coming (s : State) (bit : Nat) : (s.integEvent bit).pick.coming = s.pick.coming := rfl
@[simp] theorem State.integEvent_pick_asked (s : State) (bit : Nat) : (s.integEvent bit).pick.asked = s.pick.asked := rfl
@[simp] theorem State.integEvent_pick_lastRise (s : State) (bit : Nat) : (s.integEvent bit).pick.lastRise = s.pick.lastRise := rfl
@[simp] theorem State.integEvent_pick_sent (s : State) (bit : Nat) : (s.integEvent bit).pick.sent = s.pick.sent := rfl
@[simp] theorem State.integEvent_pick_drop (s : State) (bit : Nat) : (s.integEvent bit).pick.drop = s.pick.drop := rfl
@[simp] theorem State.integEvent_pick_event (s : State) (bit : Nat) : (s.integEvent bit).pick.event = s.pick.event := rfl
@[simp] theorem State.integEvent_pick_evMark (s : State) (bit : Nat) : (s.integEvent bit).pick.evMark = modifyAt s.pick.evMark 5 fun v => orBit v bit := rfl
@[simp] theorem State.integEvent_pick_flogMark (s : State) (bit : Nat) : (s.integEvent bit).pick.flogMark = s.pick.flogMark := rfl
@[simp] theorem State.integEvent_pick_wrote (s : State) (bit : Nat) : (s.integEvent bit).pick.wrote = s.pick.wrote := rfl
@[simp] theorem State.integEvent_pick_sampling (s : State) (bit : Nat) : (s.integEvent bit).pick.sampling = s.pick.sampling := rfl
@[simp] theorem State.integEvent_pick_joining (s : State) (bit : Nat) : (s.integEvent bit).pick.joining = s.pick.joining := rfl
@[simp] theorem State.integEvent_pick_warm (s : State) (bit : Nat) : (s.integEvent bit).pick.warm = s.pick.warm := rfl
@[simp] theorem State.integEvent_pick_epochs (s : State) (bit : Nat) : (s.integEvent bit).pick.epochs = s.pick.epochs := rfl
@[simp] theorem State.integEvent_draft (s : State) (bit : Nat) : (s.integEvent bit).draft = s.draft := rfl
@[simp] theorem State.integEvent_ord (s : State) (bit : Nat) : (s.integEvent bit).ord = s.ord := rfl
@[simp] theorem State.integEvent_flog (s : State) (bit : Nat) : (s.integEvent bit).flog = s.flog := rfl
@[simp] theorem State.integEvent_twin (s : State) (bit : Nat) : (s.integEvent bit).twin = s.twin := rfl
@[simp] theorem State.integEvent_opt (s : State) (bit : Nat) : (s.integEvent bit).opt = s.opt := rfl
@[simp] theorem State.integEvent_reed (s : State) (bit : Nat) : (s.integEvent bit).reed = s.reed := rfl
@[simp] theorem State.integEvent_memr (s : State) (bit : Nat) : (s.integEvent bit).memr = s.memr := rfl
@[simp] theorem State.integEvent_integ_rate (s : State) (bit : Nat) : (s.integEvent bit).integ.rate = s.integ.rate := rfl
@[simp] theorem State.integEvent_integ_passes (s : State) (bit : Nat) : (s.integEvent bit).integ.passes = s.integ.passes := rfl
@[simp] theorem State.integEvent_integ_lastS (s : State) (bit : Nat) : (s.integEvent bit).integ.lastS = s.integ.lastS := rfl
@[simp] theorem State.integEvent_integ_detect (s : State) (bit : Nat) : (s.integEvent bit).integ.detect = s.integ.detect := rfl
@[simp] theorem State.integEvent_integ_twin (s : State) (bit : Nat) : (s.integEvent bit).integ.twin = s.integ.twin := rfl
@[simp] theorem State.integEvent_integ_recompute (s : State) (bit : Nat) : (s.integEvent bit).integ.recompute = s.integ.recompute := rfl
@[simp] theorem State.integEvent_integ_poison (s : State) (bit : Nat) : (s.integEvent bit).integ.poison = s.integ.poison := rfl
@[simp] theorem State.integEvent_integ_stFailed (s : State) (bit : Nat) : (s.integEvent bit).integ.stFailed = s.integ.stFailed := rfl
@[simp] theorem State.integEvent_integ_stDone (s : State) (bit : Nat) : (s.integEvent bit).integ.stDone = s.integ.stDone := rfl
@[simp] theorem State.integEvent_integ_stChecker (s : State) (bit : Nat) : (s.integEvent bit).integ.stChecker = s.integ.stChecker := rfl
@[simp] theorem State.integEvent_integ_event (s : State) (bit : Nat) : (s.integEvent bit).integ.event = orBit s.integ.event bit := rfl
@[simp] theorem State.integEvent_integ_stackDet (s : State) (bit : Nat) : (s.integEvent bit).integ.stackDet = s.integ.stackDet := rfl
@[simp] theorem State.integEvent_integ_onDie (s : State) (bit : Nat) : (s.integEvent bit).integ.onDie = s.integ.onDie := rfl
@[simp] theorem State.integEvent_integ_link (s : State) (bit : Nat) : (s.integEvent bit).integ.link = s.integ.link := rfl
@[simp] theorem State.integEvent_integ_linkFail (s : State) (bit : Nat) : (s.integEvent bit).integ.linkFail = s.integ.linkFail := rfl
@[simp] theorem State.integEvent_integ_logCount (s : State) (bit : Nat) : (s.integEvent bit).integ.logCount = s.integ.logCount := rfl
@[simp] theorem State.integEvent_integ_log (s : State) (bit : Nat) : (s.integEvent bit).integ.log = s.integ.log := rfl
@[simp] theorem State.integEvent_integ_cursor (s : State) (bit : Nat) : (s.integEvent bit).integ.cursor = s.integ.cursor := rfl
@[simp] theorem State.integEvent_integ_wraps (s : State) (bit : Nat) : (s.integEvent bit).integ.wraps = s.integ.wraps := rfl
@[simp] theorem State.integEvent_mgt (s : State) (bit : Nat) : (s.integEvent bit).mgt = s.mgt := rfl
@[simp] theorem State.integEvent_flash (s : State) (bit : Nat) : (s.integEvent bit).flash = s.flash := rfl
@[simp] theorem State.integEvent_fw (s : State) (bit : Nat) : (s.integEvent bit).fw = s.fw := rfl
@[simp] theorem State.integEvent_power (s : State) (bit : Nat) : (s.integEvent bit).power = s.power := rfl
@[simp] theorem State.integEvent_proto (s : State) (bit : Nat) : (s.integEvent bit).proto = s.proto := rfl
@[simp] theorem State.integEvent_core (s : State) (bit : Nat) : (s.integEvent bit).core = s.core := rfl
@[simp] theorem State.integEvent_committed (s : State) (bit : Nat) : (s.integEvent bit).committed = s.committed := rfl
@[simp] theorem State.integEvent_undo (s : State) (bit : Nat) : (s.integEvent bit).undo = s.undo := rfl
@[simp] theorem State.integEvent_freeCtr (s : State) (bit : Nat) : (s.integEvent bit).freeCtr = s.freeCtr := rfl
@[simp] theorem State.mgtEvent_pending (s : State) (bit : Nat) : (s.mgtEvent bit).pending = s.pending := rfl
@[simp] theorem State.mgtEvent_out (s : State) (bit : Nat) : (s.mgtEvent bit).out = s.out := rfl
@[simp] theorem State.mgtEvent_glb (s : State) (bit : Nat) : (s.mgtEvent bit).glb = s.glb := rfl
@[simp] theorem State.mgtEvent_pick_counter (s : State) (bit : Nat) : (s.mgtEvent bit).pick.counter = s.pick.counter := rfl
@[simp] theorem State.mgtEvent_pick_phase (s : State) (bit : Nat) : (s.mgtEvent bit).pick.phase = s.pick.phase := rfl
@[simp] theorem State.mgtEvent_pick_period10 (s : State) (bit : Nat) : (s.mgtEvent bit).pick.period10 = s.pick.period10 := rfl
@[simp] theorem State.mgtEvent_pick_windowUs (s : State) (bit : Nat) : (s.mgtEvent bit).pick.windowUs = s.pick.windowUs := rfl
@[simp] theorem State.mgtEvent_pick_pd10 (s : State) (bit : Nat) : (s.mgtEvent bit).pick.pd10 = s.pick.pd10 := rfl
@[simp] theorem State.mgtEvent_pick_wd (s : State) (bit : Nat) : (s.mgtEvent bit).pick.wd = s.pick.wd := rfl
@[simp] theorem State.mgtEvent_pick_differs (s : State) (bit : Nat) : (s.mgtEvent bit).pick.differs = s.pick.differs := rfl
@[simp] theorem State.mgtEvent_pick_late (s : State) (bit : Nat) : (s.mgtEvent bit).pick.late = s.pick.late := rfl
@[simp] theorem State.mgtEvent_pick_missed (s : State) (bit : Nat) : (s.mgtEvent bit).pick.missed = s.pick.missed := rfl
@[simp] theorem State.mgtEvent_pick_offsetPs (s : State) (bit : Nat) : (s.mgtEvent bit).pick.offsetPs = s.pick.offsetPs := rfl
@[simp] theorem State.mgtEvent_pick_leader (s : State) (bit : Nat) : (s.mgtEvent bit).pick.leader = s.pick.leader := rfl
@[simp] theorem State.mgtEvent_pick_self (s : State) (bit : Nat) : (s.mgtEvent bit).pick.self = s.pick.self := rfl
@[simp] theorem State.mgtEvent_pick_depth (s : State) (bit : Nat) : (s.mgtEvent bit).pick.depth = s.pick.depth := rfl
@[simp] theorem State.mgtEvent_pick_parent (s : State) (bit : Nat) : (s.mgtEvent bit).pick.parent = s.pick.parent := rfl
@[simp] theorem State.mgtEvent_pick_seen (s : State) (bit : Nat) : (s.mgtEvent bit).pick.seen = s.pick.seen := rfl
@[simp] theorem State.mgtEvent_pick_request10 (s : State) (bit : Nat) : (s.mgtEvent bit).pick.request10 = s.pick.request10 := rfl
@[simp] theorem State.mgtEvent_pick_step (s : State) (bit : Nat) : (s.mgtEvent bit).pick.step = s.pick.step := rfl
@[simp] theorem State.mgtEvent_pick_plan (s : State) (bit : Nat) : (s.mgtEvent bit).pick.plan = s.pick.plan := rfl
@[simp] theorem State.mgtEvent_pick_coming (s : State) (bit : Nat) : (s.mgtEvent bit).pick.coming = s.pick.coming := rfl
@[simp] theorem State.mgtEvent_pick_asked (s : State) (bit : Nat) : (s.mgtEvent bit).pick.asked = s.pick.asked := rfl
@[simp] theorem State.mgtEvent_pick_lastRise (s : State) (bit : Nat) : (s.mgtEvent bit).pick.lastRise = s.pick.lastRise := rfl
@[simp] theorem State.mgtEvent_pick_sent (s : State) (bit : Nat) : (s.mgtEvent bit).pick.sent = s.pick.sent := rfl
@[simp] theorem State.mgtEvent_pick_drop (s : State) (bit : Nat) : (s.mgtEvent bit).pick.drop = s.pick.drop := rfl
@[simp] theorem State.mgtEvent_pick_event (s : State) (bit : Nat) : (s.mgtEvent bit).pick.event = s.pick.event := rfl
@[simp] theorem State.mgtEvent_pick_evMark (s : State) (bit : Nat) : (s.mgtEvent bit).pick.evMark = modifyAt s.pick.evMark 7 fun v => orBit v bit := rfl
@[simp] theorem State.mgtEvent_pick_flogMark (s : State) (bit : Nat) : (s.mgtEvent bit).pick.flogMark = s.pick.flogMark := rfl
@[simp] theorem State.mgtEvent_pick_wrote (s : State) (bit : Nat) : (s.mgtEvent bit).pick.wrote = s.pick.wrote := rfl
@[simp] theorem State.mgtEvent_pick_sampling (s : State) (bit : Nat) : (s.mgtEvent bit).pick.sampling = s.pick.sampling := rfl
@[simp] theorem State.mgtEvent_pick_joining (s : State) (bit : Nat) : (s.mgtEvent bit).pick.joining = s.pick.joining := rfl
@[simp] theorem State.mgtEvent_pick_warm (s : State) (bit : Nat) : (s.mgtEvent bit).pick.warm = s.pick.warm := rfl
@[simp] theorem State.mgtEvent_pick_epochs (s : State) (bit : Nat) : (s.mgtEvent bit).pick.epochs = s.pick.epochs := rfl
@[simp] theorem State.mgtEvent_draft (s : State) (bit : Nat) : (s.mgtEvent bit).draft = s.draft := rfl
@[simp] theorem State.mgtEvent_ord (s : State) (bit : Nat) : (s.mgtEvent bit).ord = s.ord := rfl
@[simp] theorem State.mgtEvent_flog (s : State) (bit : Nat) : (s.mgtEvent bit).flog = s.flog := rfl
@[simp] theorem State.mgtEvent_twin (s : State) (bit : Nat) : (s.mgtEvent bit).twin = s.twin := rfl
@[simp] theorem State.mgtEvent_opt (s : State) (bit : Nat) : (s.mgtEvent bit).opt = s.opt := rfl
@[simp] theorem State.mgtEvent_reed (s : State) (bit : Nat) : (s.mgtEvent bit).reed = s.reed := rfl
@[simp] theorem State.mgtEvent_memr (s : State) (bit : Nat) : (s.mgtEvent bit).memr = s.memr := rfl
@[simp] theorem State.mgtEvent_integ (s : State) (bit : Nat) : (s.mgtEvent bit).integ = s.integ := rfl
@[simp] theorem State.mgtEvent_mgt_reqLen (s : State) (bit : Nat) : (s.mgtEvent bit).mgt.reqLen = s.mgt.reqLen := rfl
@[simp] theorem State.mgtEvent_mgt_reqTag (s : State) (bit : Nat) : (s.mgtEvent bit).mgt.reqTag = s.mgt.reqTag := rfl
@[simp] theorem State.mgtEvent_mgt_reqOp (s : State) (bit : Nat) : (s.mgtEvent bit).mgt.reqOp = s.mgt.reqOp := rfl
@[simp] theorem State.mgtEvent_mgt_reqData (s : State) (bit : Nat) : (s.mgtEvent bit).mgt.reqData = s.mgt.reqData := rfl
@[simp] theorem State.mgtEvent_mgt_detail (s : State) (bit : Nat) : (s.mgtEvent bit).mgt.detail = s.mgt.detail := rfl
@[simp] theorem State.mgtEvent_mgt_respLen (s : State) (bit : Nat) : (s.mgtEvent bit).mgt.respLen = s.mgt.respLen := rfl
@[simp] theorem State.mgtEvent_mgt_tag (s : State) (bit : Nat) : (s.mgtEvent bit).mgt.tag = s.mgt.tag := rfl
@[simp] theorem State.mgtEvent_mgt_result (s : State) (bit : Nat) : (s.mgtEvent bit).mgt.result = s.mgt.result := rfl
@[simp] theorem State.mgtEvent_mgt_status (s : State) (bit : Nat) : (s.mgtEvent bit).mgt.status = s.mgt.status := rfl
@[simp] theorem State.mgtEvent_mgt_respBeat (s : State) (bit : Nat) : (s.mgtEvent bit).mgt.respBeat = s.mgt.respBeat := rfl
@[simp] theorem State.mgtEvent_mgt_respData (s : State) (bit : Nat) : (s.mgtEvent bit).mgt.respData = s.mgt.respData := rfl
@[simp] theorem State.mgtEvent_mgt_event (s : State) (bit : Nat) : (s.mgtEvent bit).mgt.event = orBit s.mgt.event bit := rfl
@[simp] theorem State.mgtEvent_mgt_limitW (s : State) (bit : Nat) : (s.mgtEvent bit).mgt.limitW = s.mgt.limitW := rfl
@[simp] theorem State.mgtEvent_mgt_inputW (s : State) (bit : Nat) : (s.mgtEvent bit).mgt.inputW = s.mgt.inputW := rfl
@[simp] theorem State.mgtEvent_mgt_cause (s : State) (bit : Nat) : (s.mgtEvent bit).mgt.cause = s.mgt.cause := rfl
@[simp] theorem State.mgtEvent_mgt_cap (s : State) (bit : Nat) : (s.mgtEvent bit).mgt.cap = s.mgt.cap := rfl
@[simp] theorem State.mgtEvent_mgt_target (s : State) (bit : Nat) : (s.mgtEvent bit).mgt.target = s.mgt.target := rfl
@[simp] theorem State.mgtEvent_mgt_waiting (s : State) (bit : Nat) : (s.mgtEvent bit).mgt.waiting = s.mgt.waiting := rfl
@[simp] theorem State.mgtEvent_mgt_due (s : State) (bit : Nat) : (s.mgtEvent bit).mgt.due = s.mgt.due := rfl
@[simp] theorem State.mgtEvent_mgt_longs (s : State) (bit : Nat) : (s.mgtEvent bit).mgt.longs = s.mgt.longs := rfl
@[simp] theorem State.mgtEvent_mgt_coolant (s : State) (bit : Nat) : (s.mgtEvent bit).mgt.coolant = s.mgt.coolant := rfl
@[simp] theorem State.mgtEvent_mgt_snap (s : State) (bit : Nat) : (s.mgtEvent bit).mgt.snap = s.mgt.snap := rfl
@[simp] theorem State.mgtEvent_mgt_snapBeat (s : State) (bit : Nat) : (s.mgtEvent bit).mgt.snapBeat = s.mgt.snapBeat := rfl
@[simp] theorem State.mgtEvent_mgt_latchAt (s : State) (bit : Nat) : (s.mgtEvent bit).mgt.latchAt = s.mgt.latchAt := rfl
@[simp] theorem State.mgtEvent_mgt_harnessNow (s : State) (bit : Nat) : (s.mgtEvent bit).mgt.harnessNow = s.mgt.harnessNow := rfl
@[simp] theorem State.mgtEvent_mgt_harnessDue (s : State) (bit : Nat) : (s.mgtEvent bit).mgt.harnessDue = s.mgt.harnessDue := rfl
@[simp] theorem State.mgtEvent_flash (s : State) (bit : Nat) : (s.mgtEvent bit).flash = s.flash := rfl
@[simp] theorem State.mgtEvent_fw (s : State) (bit : Nat) : (s.mgtEvent bit).fw = s.fw := rfl
@[simp] theorem State.mgtEvent_power (s : State) (bit : Nat) : (s.mgtEvent bit).power = s.power := rfl
@[simp] theorem State.mgtEvent_proto (s : State) (bit : Nat) : (s.mgtEvent bit).proto = s.proto := rfl
@[simp] theorem State.mgtEvent_core (s : State) (bit : Nat) : (s.mgtEvent bit).core = s.core := rfl
@[simp] theorem State.mgtEvent_committed (s : State) (bit : Nat) : (s.mgtEvent bit).committed = s.committed := rfl
@[simp] theorem State.mgtEvent_undo (s : State) (bit : Nat) : (s.mgtEvent bit).undo = s.undo := rfl
@[simp] theorem State.mgtEvent_freeCtr (s : State) (bit : Nat) : (s.mgtEvent bit).freeCtr = s.freeCtr := rfl

/-! ### The fault log -/
@[simp] theorem State.flogWrite_pending (s : State) (e : FlogEntry) : (s.flogWrite e).pending = s.pending := rfl
@[simp] theorem State.flogWrite_out (s : State) (e : FlogEntry) : (s.flogWrite e).out = s.out := rfl
@[simp] theorem State.flogWrite_glb (s : State) (e : FlogEntry) : (s.flogWrite e).glb = s.glb := rfl
@[simp] theorem State.flogWrite_pick (s : State) (e : FlogEntry) : (s.flogWrite e).pick = s.pick := rfl
@[simp] theorem State.flogWrite_draft (s : State) (e : FlogEntry) : (s.flogWrite e).draft = s.draft := rfl
@[simp] theorem State.flogWrite_ord (s : State) (e : FlogEntry) : (s.flogWrite e).ord = s.ord := rfl
@[simp] theorem State.flogWrite_flog_count (s : State) (e : FlogEntry) : (s.flogWrite e).flog.count = s.flog.count + 1 := rfl
@[simp] theorem State.flogWrite_flog_entries (s : State) (e : FlogEntry) : (s.flogWrite e).flog.entries = (s.flog.count % 256, e) :: s.flog.entries.filter (·.1 ≠ s.flog.count % 256) := rfl
@[simp] theorem State.flogWrite_flog_waiting (s : State) (e : FlogEntry) : (s.flogWrite e).flog.waiting = s.flog.waiting := rfl
@[simp] theorem State.flogWrite_twin (s : State) (e : FlogEntry) : (s.flogWrite e).twin = s.twin := rfl
@[simp] theorem State.flogWrite_opt (s : State) (e : FlogEntry) : (s.flogWrite e).opt = s.opt := rfl
@[simp] theorem State.flogWrite_reed (s : State) (e : FlogEntry) : (s.flogWrite e).reed = s.reed := rfl
@[simp] theorem State.flogWrite_memr (s : State) (e : FlogEntry) : (s.flogWrite e).memr = s.memr := rfl
@[simp] theorem State.flogWrite_integ (s : State) (e : FlogEntry) : (s.flogWrite e).integ = s.integ := rfl
@[simp] theorem State.flogWrite_mgt (s : State) (e : FlogEntry) : (s.flogWrite e).mgt = s.mgt := rfl
@[simp] theorem State.flogWrite_flash (s : State) (e : FlogEntry) : (s.flogWrite e).flash = s.flash := rfl
@[simp] theorem State.flogWrite_fw (s : State) (e : FlogEntry) : (s.flogWrite e).fw = s.fw := rfl
@[simp] theorem State.flogWrite_power (s : State) (e : FlogEntry) : (s.flogWrite e).power = s.power := rfl
@[simp] theorem State.flogWrite_proto (s : State) (e : FlogEntry) : (s.flogWrite e).proto = s.proto := rfl
@[simp] theorem State.flogWrite_core (s : State) (e : FlogEntry) : (s.flogWrite e).core = s.core := rfl
@[simp] theorem State.flogWrite_committed (s : State) (e : FlogEntry) : (s.flogWrite e).committed = s.committed := rfl
@[simp] theorem State.flogWrite_undo (s : State) (e : FlogEntry) : (s.flogWrite e).undo = s.undo := rfl
@[simp] theorem State.flogWrite_freeCtr (s : State) (e : FlogEntry) : (s.flogWrite e).freeCtr = s.freeCtr := rfl
@[simp] theorem State.report_pending (s : State) (code detail : Nat) : (s.report code detail).pending = s.pending := by unfold State.report; dsimp only; split <;> rfl
@[simp] theorem State.report_out (s : State) (code detail : Nat) : (s.report code detail).out = s.out := by unfold State.report; dsimp only; split <;> rfl
@[simp] theorem State.report_glb (s : State) (code detail : Nat) : (s.report code detail).glb = s.glb := by unfold State.report; dsimp only; split <;> rfl
@[simp] theorem State.report_pick (s : State) (code detail : Nat) : (s.report code detail).pick = s.pick := by unfold State.report; dsimp only; split <;> rfl
@[simp] theorem State.report_draft (s : State) (code detail : Nat) : (s.report code detail).draft = s.draft := by unfold State.report; dsimp only; split <;> rfl
@[simp] theorem State.report_ord (s : State) (code detail : Nat) : (s.report code detail).ord = s.ord := by unfold State.report; dsimp only; split <;> rfl
@[simp] theorem State.report_twin (s : State) (code detail : Nat) : (s.report code detail).twin = s.twin := by unfold State.report; dsimp only; split <;> rfl
@[simp] theorem State.report_opt (s : State) (code detail : Nat) : (s.report code detail).opt = s.opt := by unfold State.report; dsimp only; split <;> rfl
@[simp] theorem State.report_reed (s : State) (code detail : Nat) : (s.report code detail).reed = s.reed := by unfold State.report; dsimp only; split <;> rfl
@[simp] theorem State.report_memr (s : State) (code detail : Nat) : (s.report code detail).memr = s.memr := by unfold State.report; dsimp only; split <;> rfl
@[simp] theorem State.report_integ (s : State) (code detail : Nat) : (s.report code detail).integ = s.integ := by unfold State.report; dsimp only; split <;> rfl
@[simp] theorem State.report_mgt (s : State) (code detail : Nat) : (s.report code detail).mgt = s.mgt := by unfold State.report; dsimp only; split <;> rfl
@[simp] theorem State.report_flash (s : State) (code detail : Nat) : (s.report code detail).flash = s.flash := by unfold State.report; dsimp only; split <;> rfl
@[simp] theorem State.report_fw (s : State) (code detail : Nat) : (s.report code detail).fw = s.fw := by unfold State.report; dsimp only; split <;> rfl
@[simp] theorem State.report_power (s : State) (code detail : Nat) : (s.report code detail).power = s.power := by unfold State.report; dsimp only; split <;> rfl
@[simp] theorem State.report_proto (s : State) (code detail : Nat) : (s.report code detail).proto = s.proto := by unfold State.report; dsimp only; split <;> rfl
@[simp] theorem State.report_core (s : State) (code detail : Nat) : (s.report code detail).core = s.core := by unfold State.report; dsimp only; split <;> rfl
@[simp] theorem State.report_committed (s : State) (code detail : Nat) : (s.report code detail).committed = s.committed := by unfold State.report; dsimp only; split <;> rfl
@[simp] theorem State.report_undo (s : State) (code detail : Nat) : (s.report code detail).undo = s.undo := by unfold State.report; dsimp only; split <;> rfl
@[simp] theorem State.report_freeCtr (s : State) (code detail : Nat) : (s.report code detail).freeCtr = s.freeCtr := by unfold State.report; dsimp only; split <;> rfl
@[simp] theorem State.pwrReport_pending (s : State) (code detail : Nat) : (s.pwrReport code detail).pending = s.pending := by simp [State.pwrReport]
@[simp] theorem State.pwrReport_out (s : State) (code detail : Nat) : (s.pwrReport code detail).out = s.out := by simp [State.pwrReport]
@[simp] theorem State.pwrReport_glb (s : State) (code detail : Nat) : (s.pwrReport code detail).glb = s.glb := by simp [State.pwrReport]
@[simp] theorem State.pwrReport_draft (s : State) (code detail : Nat) : (s.pwrReport code detail).draft = s.draft := by simp [State.pwrReport]
@[simp] theorem State.pwrReport_ord (s : State) (code detail : Nat) : (s.pwrReport code detail).ord = s.ord := by simp [State.pwrReport]
@[simp] theorem State.pwrReport_twin (s : State) (code detail : Nat) : (s.pwrReport code detail).twin = s.twin := by simp [State.pwrReport]
@[simp] theorem State.pwrReport_opt (s : State) (code detail : Nat) : (s.pwrReport code detail).opt = s.opt := by simp [State.pwrReport]
@[simp] theorem State.pwrReport_reed (s : State) (code detail : Nat) : (s.pwrReport code detail).reed = s.reed := by simp [State.pwrReport]
@[simp] theorem State.pwrReport_memr (s : State) (code detail : Nat) : (s.pwrReport code detail).memr = s.memr := by simp [State.pwrReport]
@[simp] theorem State.pwrReport_integ (s : State) (code detail : Nat) : (s.pwrReport code detail).integ = s.integ := by simp [State.pwrReport]
@[simp] theorem State.pwrReport_flash (s : State) (code detail : Nat) : (s.pwrReport code detail).flash = s.flash := by simp [State.pwrReport]
@[simp] theorem State.pwrReport_fw (s : State) (code detail : Nat) : (s.pwrReport code detail).fw = s.fw := by simp [State.pwrReport]
@[simp] theorem State.pwrReport_power (s : State) (code detail : Nat) : (s.pwrReport code detail).power = s.power := by simp [State.pwrReport]
@[simp] theorem State.pwrReport_proto (s : State) (code detail : Nat) : (s.pwrReport code detail).proto = s.proto := by simp [State.pwrReport]
@[simp] theorem State.pwrReport_core (s : State) (code detail : Nat) : (s.pwrReport code detail).core = s.core := by simp [State.pwrReport]
@[simp] theorem State.pwrReport_committed (s : State) (code detail : Nat) : (s.pwrReport code detail).committed = s.committed := by simp [State.pwrReport]
@[simp] theorem State.pwrReport_undo (s : State) (code detail : Nat) : (s.pwrReport code detail).undo = s.undo := by simp [State.pwrReport]
@[simp] theorem State.pwrReport_freeCtr (s : State) (code detail : Nat) : (s.pwrReport code detail).freeCtr = s.freeCtr := by simp [State.pwrReport]

/-- Where beat windows open, a report waits for its commit step (R135). -/
theorem State.report_waits (s : State) (code detail : Nat) (h : s.beating = true) :
    s.report code detail = { s with flog := { s.flog with waiting := s.flog.waiting ++ [s.reportEntry code detail] } } := by
  simp [State.report, h]
/-- Where none opens, it is logged at once. -/
theorem State.report_logged (s : State) (code detail : Nat) (h : s.beating = false) :
    s.report code detail = s.flogWrite (s.reportEntry code detail) := by
  simp [State.report, h]

/-! ### Sections of the core -/
@[simp] theorem Core.setCtx_draft (c : Core) (i : Nat) (f : Ctx → Ctx) : (c.setCtx i f).draft = c.draft := rfl
@[simp] theorem Core.setCtx_ctxs (c : Core) (i : Nat) (f : Ctx → Ctx) : (c.setCtx i f).ctxs = modifyAt c.ctxs i f := rfl
@[simp] theorem Core.setCtx_slots (c : Core) (i : Nat) (f : Ctx → Ctx) : (c.setCtx i f).slots = c.slots := rfl
@[simp] theorem Core.setCtx_rings (c : Core) (i : Nat) (f : Ctx → Ctx) : (c.setCtx i f).rings = c.rings := rfl
@[simp] theorem Core.setCtx_orders (c : Core) (i : Nat) (f : Ctx → Ctx) : (c.setCtx i f).orders = c.orders := rfl
@[simp] theorem Core.setCtx_held (c : Core) (i : Nat) (f : Ctx → Ctx) : (c.setCtx i f).held = c.held := rfl
@[simp] theorem Core.setCtx_faults (c : Core) (i : Nat) (f : Ctx → Ctx) : (c.setCtx i f).faults = c.faults := rfl
@[simp] theorem Core.setCtx_shareTime (c : Core) (i : Nat) (f : Ctx → Ctx) : (c.setCtx i f).shareTime = c.shareTime := rfl
@[simp] theorem Core.setCtx_objs (c : Core) (i : Nat) (f : Ctx → Ctx) : (c.setCtx i f).objs = c.objs := rfl
@[simp] theorem Core.setCtx_mem (c : Core) (i : Nat) (f : Ctx → Ctx) : (c.setCtx i f).mem = c.mem := rfl
@[simp] theorem Core.setCtx_pm (c : Core) (i : Nat) (f : Ctx → Ctx) : (c.setCtx i f).pm = c.pm := rfl
@[simp] theorem Core.setCtx_moves (c : Core) (i : Nat) (f : Ctx → Ctx) : (c.setCtx i f).moves = c.moves := rfl
@[simp] theorem Core.setCtx_changed (c : Core) (i : Nat) (f : Ctx → Ctx) : (c.setCtx i f).changed = c.changed := rfl
@[simp] theorem Core.setCtx_onchip (c : Core) (i : Nat) (f : Ctx → Ctx) : (c.setCtx i f).onchip = c.onchip := rfl
@[simp] theorem Core.setCtx_pools (c : Core) (i : Nat) (f : Ctx → Ctx) : (c.setCtx i f).pools = c.pools := rfl
@[simp] theorem Core.setCtx_groups (c : Core) (i : Nat) (f : Ctx → Ctx) : (c.setCtx i f).groups = c.groups := rfl
@[simp] theorem Core.setCtx_chans (c : Core) (i : Nat) (f : Ctx → Ctx) : (c.setCtx i f).chans = c.chans := rfl
@[simp] theorem Core.setCtx_shuttle (c : Core) (i : Nat) (f : Ctx → Ctx) : (c.setCtx i f).shuttle = c.shuttle := rfl
@[simp] theorem Core.setCtx_shHeld (c : Core) (i : Nat) (f : Ctx → Ctx) : (c.setCtx i f).shHeld = c.shHeld := rfl
@[simp] theorem Core.setCtx_repairs (c : Core) (i : Nat) (f : Ctx → Ctx) : (c.setCtx i f).repairs = c.repairs := rfl
@[simp] theorem Core.setCtx_apertures (c : Core) (i : Nat) (f : Ctx → Ctx) : (c.setCtx i f).apertures = c.apertures := rfl
@[simp] theorem Core.setCtx_need (c : Core) (i : Nat) (f : Ctx → Ctx) : (c.setCtx i f).need = c.need := rfl
@[simp] theorem Core.setCtx_starved (c : Core) (i : Nat) (f : Ctx → Ctx) : (c.setCtx i f).starved = c.starved := rfl
@[simp] theorem Core.setCtx_snoops (c : Core) (i : Nat) (f : Ctx → Ctx) : (c.setCtx i f).snoops = c.snoops := rfl
@[simp] theorem Core.setCtx_waits (c : Core) (i : Nat) (f : Ctx → Ctx) : (c.setCtx i f).waits = c.waits := rfl
@[simp] theorem Core.setCtx_journalled (c : Core) (i : Nat) (f : Ctx → Ctx) : (c.setCtx i f).journalled = c.journalled := rfl
@[simp] theorem Core.setCtx_cycle (c : Core) (i : Nat) (f : Ctx → Ctx) : (c.setCtx i f).cycle = c.cycle := rfl
@[simp] theorem Core.setCtx_stores (c : Core) (i : Nat) (f : Ctx → Ctx) : (c.setCtx i f).stores = c.stores := rfl
@[simp] theorem Core.setCtx_kvLeft (c : Core) (i : Nat) (f : Ctx → Ctx) : (c.setCtx i f).kvLeft = c.kvLeft := rfl
@[simp] theorem Core.setCtx_routes (c : Core) (i : Nat) (f : Ctx → Ctx) : (c.setCtx i f).routes = c.routes := rfl
@[simp] theorem Core.setCtx_gone (c : Core) (i : Nat) (f : Ctx → Ctx) : (c.setCtx i f).gone = c.gone := rfl
@[simp] theorem Core.setCtx_shNoticed (c : Core) (i : Nat) (f : Ctx → Ctx) : (c.setCtx i f).shNoticed = c.shNoticed := rfl
@[simp] theorem Core.setCtx_shServed (c : Core) (i : Nat) (f : Ctx → Ctx) : (c.setCtx i f).shServed = c.shServed := rfl
@[simp] theorem Core.setCtx_forwards (c : Core) (i : Nat) (f : Ctx → Ctx) : (c.setCtx i f).forwards = c.forwards := rfl
@[simp] theorem Core.setOrder_draft (c : Core) (j : Nat) (f : OrderSt → OrderSt) : (c.setOrder j f).draft = c.draft := rfl
@[simp] theorem Core.setOrder_ctxs (c : Core) (j : Nat) (f : OrderSt → OrderSt) : (c.setOrder j f).ctxs = c.ctxs := rfl
@[simp] theorem Core.setOrder_slots (c : Core) (j : Nat) (f : OrderSt → OrderSt) : (c.setOrder j f).slots = c.slots := rfl
@[simp] theorem Core.setOrder_rings (c : Core) (j : Nat) (f : OrderSt → OrderSt) : (c.setOrder j f).rings = c.rings := rfl
@[simp] theorem Core.setOrder_orders (c : Core) (j : Nat) (f : OrderSt → OrderSt) : (c.setOrder j f).orders = c.orders.map fun o => if o.jno = j then f o else o := rfl
@[simp] theorem Core.setOrder_held (c : Core) (j : Nat) (f : OrderSt → OrderSt) : (c.setOrder j f).held = c.held := rfl
@[simp] theorem Core.setOrder_faults (c : Core) (j : Nat) (f : OrderSt → OrderSt) : (c.setOrder j f).faults = c.faults := rfl
@[simp] theorem Core.setOrder_shareTime (c : Core) (j : Nat) (f : OrderSt → OrderSt) : (c.setOrder j f).shareTime = c.shareTime := rfl
@[simp] theorem Core.setOrder_objs (c : Core) (j : Nat) (f : OrderSt → OrderSt) : (c.setOrder j f).objs = c.objs := rfl
@[simp] theorem Core.setOrder_mem (c : Core) (j : Nat) (f : OrderSt → OrderSt) : (c.setOrder j f).mem = c.mem := rfl
@[simp] theorem Core.setOrder_pm (c : Core) (j : Nat) (f : OrderSt → OrderSt) : (c.setOrder j f).pm = c.pm := rfl
@[simp] theorem Core.setOrder_moves (c : Core) (j : Nat) (f : OrderSt → OrderSt) : (c.setOrder j f).moves = c.moves := rfl
@[simp] theorem Core.setOrder_changed (c : Core) (j : Nat) (f : OrderSt → OrderSt) : (c.setOrder j f).changed = c.changed := rfl
@[simp] theorem Core.setOrder_onchip (c : Core) (j : Nat) (f : OrderSt → OrderSt) : (c.setOrder j f).onchip = c.onchip := rfl
@[simp] theorem Core.setOrder_pools (c : Core) (j : Nat) (f : OrderSt → OrderSt) : (c.setOrder j f).pools = c.pools := rfl
@[simp] theorem Core.setOrder_groups (c : Core) (j : Nat) (f : OrderSt → OrderSt) : (c.setOrder j f).groups = c.groups := rfl
@[simp] theorem Core.setOrder_chans (c : Core) (j : Nat) (f : OrderSt → OrderSt) : (c.setOrder j f).chans = c.chans := rfl
@[simp] theorem Core.setOrder_shuttle (c : Core) (j : Nat) (f : OrderSt → OrderSt) : (c.setOrder j f).shuttle = c.shuttle := rfl
@[simp] theorem Core.setOrder_shHeld (c : Core) (j : Nat) (f : OrderSt → OrderSt) : (c.setOrder j f).shHeld = c.shHeld := rfl
@[simp] theorem Core.setOrder_repairs (c : Core) (j : Nat) (f : OrderSt → OrderSt) : (c.setOrder j f).repairs = c.repairs := rfl
@[simp] theorem Core.setOrder_apertures (c : Core) (j : Nat) (f : OrderSt → OrderSt) : (c.setOrder j f).apertures = c.apertures := rfl
@[simp] theorem Core.setOrder_need (c : Core) (j : Nat) (f : OrderSt → OrderSt) : (c.setOrder j f).need = c.need := rfl
@[simp] theorem Core.setOrder_starved (c : Core) (j : Nat) (f : OrderSt → OrderSt) : (c.setOrder j f).starved = c.starved := rfl
@[simp] theorem Core.setOrder_snoops (c : Core) (j : Nat) (f : OrderSt → OrderSt) : (c.setOrder j f).snoops = c.snoops := rfl
@[simp] theorem Core.setOrder_waits (c : Core) (j : Nat) (f : OrderSt → OrderSt) : (c.setOrder j f).waits = c.waits := rfl
@[simp] theorem Core.setOrder_journalled (c : Core) (j : Nat) (f : OrderSt → OrderSt) : (c.setOrder j f).journalled = c.journalled := rfl
@[simp] theorem Core.setOrder_cycle (c : Core) (j : Nat) (f : OrderSt → OrderSt) : (c.setOrder j f).cycle = c.cycle := rfl
@[simp] theorem Core.setOrder_stores (c : Core) (j : Nat) (f : OrderSt → OrderSt) : (c.setOrder j f).stores = c.stores := rfl
@[simp] theorem Core.setOrder_kvLeft (c : Core) (j : Nat) (f : OrderSt → OrderSt) : (c.setOrder j f).kvLeft = c.kvLeft := rfl
@[simp] theorem Core.setOrder_routes (c : Core) (j : Nat) (f : OrderSt → OrderSt) : (c.setOrder j f).routes = c.routes := rfl
@[simp] theorem Core.setOrder_gone (c : Core) (j : Nat) (f : OrderSt → OrderSt) : (c.setOrder j f).gone = c.gone := rfl
@[simp] theorem Core.setOrder_shNoticed (c : Core) (j : Nat) (f : OrderSt → OrderSt) : (c.setOrder j f).shNoticed = c.shNoticed := rfl
@[simp] theorem Core.setOrder_shServed (c : Core) (j : Nat) (f : OrderSt → OrderSt) : (c.setOrder j f).shServed = c.shServed := rfl
@[simp] theorem Core.setOrder_forwards (c : Core) (j : Nat) (f : OrderSt → OrderSt) : (c.setOrder j f).forwards = c.forwards := rfl
@[simp] theorem Core.setTask_draft (c : Core) (t : TaskRef) (f : Task → Task) : (c.setTask t f).draft = c.draft := rfl
@[simp] theorem Core.setTask_ctxs (c : Core) (t : TaskRef) (f : Task → Task) : (c.setTask t f).ctxs = c.ctxs := rfl
@[simp] theorem Core.setTask_slots (c : Core) (t : TaskRef) (f : Task → Task) : (c.setTask t f).slots = c.slots := rfl
@[simp] theorem Core.setTask_rings (c : Core) (t : TaskRef) (f : Task → Task) : (c.setTask t f).rings = c.rings := rfl
@[simp] theorem Core.setTask_held (c : Core) (t : TaskRef) (f : Task → Task) : (c.setTask t f).held = c.held := rfl
@[simp] theorem Core.setTask_faults (c : Core) (t : TaskRef) (f : Task → Task) : (c.setTask t f).faults = c.faults := rfl
@[simp] theorem Core.setTask_shareTime (c : Core) (t : TaskRef) (f : Task → Task) : (c.setTask t f).shareTime = c.shareTime := rfl
@[simp] theorem Core.setTask_objs (c : Core) (t : TaskRef) (f : Task → Task) : (c.setTask t f).objs = c.objs := rfl
@[simp] theorem Core.setTask_mem (c : Core) (t : TaskRef) (f : Task → Task) : (c.setTask t f).mem = c.mem := rfl
@[simp] theorem Core.setTask_pm (c : Core) (t : TaskRef) (f : Task → Task) : (c.setTask t f).pm = c.pm := rfl
@[simp] theorem Core.setTask_moves (c : Core) (t : TaskRef) (f : Task → Task) : (c.setTask t f).moves = c.moves := rfl
@[simp] theorem Core.setTask_changed (c : Core) (t : TaskRef) (f : Task → Task) : (c.setTask t f).changed = c.changed := rfl
@[simp] theorem Core.setTask_onchip (c : Core) (t : TaskRef) (f : Task → Task) : (c.setTask t f).onchip = c.onchip := rfl
@[simp] theorem Core.setTask_pools (c : Core) (t : TaskRef) (f : Task → Task) : (c.setTask t f).pools = c.pools := rfl
@[simp] theorem Core.setTask_groups (c : Core) (t : TaskRef) (f : Task → Task) : (c.setTask t f).groups = c.groups := rfl
@[simp] theorem Core.setTask_chans (c : Core) (t : TaskRef) (f : Task → Task) : (c.setTask t f).chans = c.chans := rfl
@[simp] theorem Core.setTask_shuttle (c : Core) (t : TaskRef) (f : Task → Task) : (c.setTask t f).shuttle = c.shuttle := rfl
@[simp] theorem Core.setTask_shHeld (c : Core) (t : TaskRef) (f : Task → Task) : (c.setTask t f).shHeld = c.shHeld := rfl
@[simp] theorem Core.setTask_repairs (c : Core) (t : TaskRef) (f : Task → Task) : (c.setTask t f).repairs = c.repairs := rfl
@[simp] theorem Core.setTask_apertures (c : Core) (t : TaskRef) (f : Task → Task) : (c.setTask t f).apertures = c.apertures := rfl
@[simp] theorem Core.setTask_need (c : Core) (t : TaskRef) (f : Task → Task) : (c.setTask t f).need = c.need := rfl
@[simp] theorem Core.setTask_starved (c : Core) (t : TaskRef) (f : Task → Task) : (c.setTask t f).starved = c.starved := rfl
@[simp] theorem Core.setTask_snoops (c : Core) (t : TaskRef) (f : Task → Task) : (c.setTask t f).snoops = c.snoops := rfl
@[simp] theorem Core.setTask_waits (c : Core) (t : TaskRef) (f : Task → Task) : (c.setTask t f).waits = c.waits := rfl
@[simp] theorem Core.setTask_journalled (c : Core) (t : TaskRef) (f : Task → Task) : (c.setTask t f).journalled = c.journalled := rfl
@[simp] theorem Core.setTask_cycle (c : Core) (t : TaskRef) (f : Task → Task) : (c.setTask t f).cycle = c.cycle := rfl
@[simp] theorem Core.setTask_stores (c : Core) (t : TaskRef) (f : Task → Task) : (c.setTask t f).stores = c.stores := rfl
@[simp] theorem Core.setTask_kvLeft (c : Core) (t : TaskRef) (f : Task → Task) : (c.setTask t f).kvLeft = c.kvLeft := rfl
@[simp] theorem Core.setTask_routes (c : Core) (t : TaskRef) (f : Task → Task) : (c.setTask t f).routes = c.routes := rfl
@[simp] theorem Core.setTask_gone (c : Core) (t : TaskRef) (f : Task → Task) : (c.setTask t f).gone = c.gone := rfl
@[simp] theorem Core.setTask_shNoticed (c : Core) (t : TaskRef) (f : Task → Task) : (c.setTask t f).shNoticed = c.shNoticed := rfl
@[simp] theorem Core.setTask_shServed (c : Core) (t : TaskRef) (f : Task → Task) : (c.setTask t f).shServed = c.shServed := rfl
@[simp] theorem Core.setTask_forwards (c : Core) (t : TaskRef) (f : Task → Task) : (c.setTask t f).forwards = c.forwards := rfl
@[simp] theorem Core.complete_draft (c : Core) (j status result beat : Nat) : (c.complete j status result beat).draft = c.draft := rfl
@[simp] theorem Core.complete_ctxs (c : Core) (j status result beat : Nat) : (c.complete j status result beat).ctxs = c.ctxs := rfl
@[simp] theorem Core.complete_slots (c : Core) (j status result beat : Nat) : (c.complete j status result beat).slots = c.slots := rfl
@[simp] theorem Core.complete_rings (c : Core) (j status result beat : Nat) : (c.complete j status result beat).rings = c.rings := rfl
@[simp] theorem Core.complete_held (c : Core) (j status result beat : Nat) : (c.complete j status result beat).held = c.held := rfl
@[simp] theorem Core.complete_faults (c : Core) (j status result beat : Nat) : (c.complete j status result beat).faults = c.faults := rfl
@[simp] theorem Core.complete_shareTime (c : Core) (j status result beat : Nat) : (c.complete j status result beat).shareTime = c.shareTime := rfl
@[simp] theorem Core.complete_objs (c : Core) (j status result beat : Nat) : (c.complete j status result beat).objs = c.objs := rfl
@[simp] theorem Core.complete_mem (c : Core) (j status result beat : Nat) : (c.complete j status result beat).mem = c.mem := rfl
@[simp] theorem Core.complete_pm (c : Core) (j status result beat : Nat) : (c.complete j status result beat).pm = c.pm := rfl
@[simp] theorem Core.complete_moves (c : Core) (j status result beat : Nat) : (c.complete j status result beat).moves = c.moves := rfl
@[simp] theorem Core.complete_changed (c : Core) (j status result beat : Nat) : (c.complete j status result beat).changed = c.changed := rfl
@[simp] theorem Core.complete_onchip (c : Core) (j status result beat : Nat) : (c.complete j status result beat).onchip = c.onchip := rfl
@[simp] theorem Core.complete_pools (c : Core) (j status result beat : Nat) : (c.complete j status result beat).pools = c.pools := rfl
@[simp] theorem Core.complete_groups (c : Core) (j status result beat : Nat) : (c.complete j status result beat).groups = c.groups := rfl
@[simp] theorem Core.complete_chans (c : Core) (j status result beat : Nat) : (c.complete j status result beat).chans = c.chans := rfl
@[simp] theorem Core.complete_shuttle (c : Core) (j status result beat : Nat) : (c.complete j status result beat).shuttle = c.shuttle := rfl
@[simp] theorem Core.complete_shHeld (c : Core) (j status result beat : Nat) : (c.complete j status result beat).shHeld = c.shHeld := rfl
@[simp] theorem Core.complete_repairs (c : Core) (j status result beat : Nat) : (c.complete j status result beat).repairs = c.repairs := rfl
@[simp] theorem Core.complete_apertures (c : Core) (j status result beat : Nat) : (c.complete j status result beat).apertures = c.apertures := rfl
@[simp] theorem Core.complete_need (c : Core) (j status result beat : Nat) : (c.complete j status result beat).need = c.need := rfl
@[simp] theorem Core.complete_starved (c : Core) (j status result beat : Nat) : (c.complete j status result beat).starved = c.starved := rfl
@[simp] theorem Core.complete_snoops (c : Core) (j status result beat : Nat) : (c.complete j status result beat).snoops = c.snoops := rfl
@[simp] theorem Core.complete_waits (c : Core) (j status result beat : Nat) : (c.complete j status result beat).waits = c.waits := rfl
@[simp] theorem Core.complete_journalled (c : Core) (j status result beat : Nat) : (c.complete j status result beat).journalled = c.journalled := rfl
@[simp] theorem Core.complete_cycle (c : Core) (j status result beat : Nat) : (c.complete j status result beat).cycle = c.cycle := rfl
@[simp] theorem Core.complete_stores (c : Core) (j status result beat : Nat) : (c.complete j status result beat).stores = c.stores := rfl
@[simp] theorem Core.complete_kvLeft (c : Core) (j status result beat : Nat) : (c.complete j status result beat).kvLeft = c.kvLeft := rfl
@[simp] theorem Core.complete_routes (c : Core) (j status result beat : Nat) : (c.complete j status result beat).routes = c.routes := rfl
@[simp] theorem Core.complete_gone (c : Core) (j status result beat : Nat) : (c.complete j status result beat).gone = c.gone := rfl
@[simp] theorem Core.complete_shNoticed (c : Core) (j status result beat : Nat) : (c.complete j status result beat).shNoticed = c.shNoticed := rfl
@[simp] theorem Core.complete_shServed (c : Core) (j status result beat : Nat) : (c.complete j status result beat).shServed = c.shServed := rfl
@[simp] theorem Core.complete_forwards (c : Core) (j status result beat : Nat) : (c.complete j status result beat).forwards = c.forwards := rfl
@[simp] theorem Core.setObj_draft (c : Core) (i : Nat) (f : Obj → Obj) : (c.setObj i f).draft = c.draft := rfl
@[simp] theorem Core.setObj_ctxs (c : Core) (i : Nat) (f : Obj → Obj) : (c.setObj i f).ctxs = c.ctxs := rfl
@[simp] theorem Core.setObj_slots (c : Core) (i : Nat) (f : Obj → Obj) : (c.setObj i f).slots = c.slots := rfl
@[simp] theorem Core.setObj_rings (c : Core) (i : Nat) (f : Obj → Obj) : (c.setObj i f).rings = c.rings := rfl
@[simp] theorem Core.setObj_orders (c : Core) (i : Nat) (f : Obj → Obj) : (c.setObj i f).orders = c.orders := rfl
@[simp] theorem Core.setObj_held (c : Core) (i : Nat) (f : Obj → Obj) : (c.setObj i f).held = c.held := rfl
@[simp] theorem Core.setObj_faults (c : Core) (i : Nat) (f : Obj → Obj) : (c.setObj i f).faults = c.faults := rfl
@[simp] theorem Core.setObj_shareTime (c : Core) (i : Nat) (f : Obj → Obj) : (c.setObj i f).shareTime = c.shareTime := rfl
@[simp] theorem Core.setObj_objs (c : Core) (i : Nat) (f : Obj → Obj) : (c.setObj i f).objs = c.objs.map fun p => if p.1 = i then (p.1, f p.2) else p := rfl
@[simp] theorem Core.setObj_mem (c : Core) (i : Nat) (f : Obj → Obj) : (c.setObj i f).mem = c.mem := rfl
@[simp] theorem Core.setObj_pm (c : Core) (i : Nat) (f : Obj → Obj) : (c.setObj i f).pm = c.pm := rfl
@[simp] theorem Core.setObj_moves (c : Core) (i : Nat) (f : Obj → Obj) : (c.setObj i f).moves = c.moves := rfl
@[simp] theorem Core.setObj_changed (c : Core) (i : Nat) (f : Obj → Obj) : (c.setObj i f).changed = c.changed := rfl
@[simp] theorem Core.setObj_onchip (c : Core) (i : Nat) (f : Obj → Obj) : (c.setObj i f).onchip = c.onchip := rfl
@[simp] theorem Core.setObj_pools (c : Core) (i : Nat) (f : Obj → Obj) : (c.setObj i f).pools = c.pools := rfl
@[simp] theorem Core.setObj_groups (c : Core) (i : Nat) (f : Obj → Obj) : (c.setObj i f).groups = c.groups := rfl
@[simp] theorem Core.setObj_chans (c : Core) (i : Nat) (f : Obj → Obj) : (c.setObj i f).chans = c.chans := rfl
@[simp] theorem Core.setObj_shuttle (c : Core) (i : Nat) (f : Obj → Obj) : (c.setObj i f).shuttle = c.shuttle := rfl
@[simp] theorem Core.setObj_shHeld (c : Core) (i : Nat) (f : Obj → Obj) : (c.setObj i f).shHeld = c.shHeld := rfl
@[simp] theorem Core.setObj_repairs (c : Core) (i : Nat) (f : Obj → Obj) : (c.setObj i f).repairs = c.repairs := rfl
@[simp] theorem Core.setObj_apertures (c : Core) (i : Nat) (f : Obj → Obj) : (c.setObj i f).apertures = c.apertures := rfl
@[simp] theorem Core.setObj_need (c : Core) (i : Nat) (f : Obj → Obj) : (c.setObj i f).need = c.need := rfl
@[simp] theorem Core.setObj_starved (c : Core) (i : Nat) (f : Obj → Obj) : (c.setObj i f).starved = c.starved := rfl
@[simp] theorem Core.setObj_snoops (c : Core) (i : Nat) (f : Obj → Obj) : (c.setObj i f).snoops = c.snoops := rfl
@[simp] theorem Core.setObj_waits (c : Core) (i : Nat) (f : Obj → Obj) : (c.setObj i f).waits = c.waits := rfl
@[simp] theorem Core.setObj_journalled (c : Core) (i : Nat) (f : Obj → Obj) : (c.setObj i f).journalled = c.journalled := rfl
@[simp] theorem Core.setObj_cycle (c : Core) (i : Nat) (f : Obj → Obj) : (c.setObj i f).cycle = c.cycle := rfl
@[simp] theorem Core.setObj_stores (c : Core) (i : Nat) (f : Obj → Obj) : (c.setObj i f).stores = c.stores := rfl
@[simp] theorem Core.setObj_kvLeft (c : Core) (i : Nat) (f : Obj → Obj) : (c.setObj i f).kvLeft = c.kvLeft := rfl
@[simp] theorem Core.setObj_routes (c : Core) (i : Nat) (f : Obj → Obj) : (c.setObj i f).routes = c.routes := rfl
@[simp] theorem Core.setObj_gone (c : Core) (i : Nat) (f : Obj → Obj) : (c.setObj i f).gone = c.gone := rfl
@[simp] theorem Core.setObj_shNoticed (c : Core) (i : Nat) (f : Obj → Obj) : (c.setObj i f).shNoticed = c.shNoticed := rfl
@[simp] theorem Core.setObj_shServed (c : Core) (i : Nat) (f : Obj → Obj) : (c.setObj i f).shServed = c.shServed := rfl
@[simp] theorem Core.setObj_forwards (c : Core) (i : Nat) (f : Obj → Obj) : (c.setObj i f).forwards = c.forwards := rfl
@[simp] theorem Core.setPool_draft (c : Core) (x : Nat) (f : KvPool → KvPool) : (c.setPool x f).draft = c.draft := rfl
@[simp] theorem Core.setPool_ctxs (c : Core) (x : Nat) (f : KvPool → KvPool) : (c.setPool x f).ctxs = c.ctxs := rfl
@[simp] theorem Core.setPool_slots (c : Core) (x : Nat) (f : KvPool → KvPool) : (c.setPool x f).slots = c.slots := rfl
@[simp] theorem Core.setPool_rings (c : Core) (x : Nat) (f : KvPool → KvPool) : (c.setPool x f).rings = c.rings := rfl
@[simp] theorem Core.setPool_orders (c : Core) (x : Nat) (f : KvPool → KvPool) : (c.setPool x f).orders = c.orders := rfl
@[simp] theorem Core.setPool_held (c : Core) (x : Nat) (f : KvPool → KvPool) : (c.setPool x f).held = c.held := rfl
@[simp] theorem Core.setPool_faults (c : Core) (x : Nat) (f : KvPool → KvPool) : (c.setPool x f).faults = c.faults := rfl
@[simp] theorem Core.setPool_shareTime (c : Core) (x : Nat) (f : KvPool → KvPool) : (c.setPool x f).shareTime = c.shareTime := rfl
@[simp] theorem Core.setPool_objs (c : Core) (x : Nat) (f : KvPool → KvPool) : (c.setPool x f).objs = c.objs := rfl
@[simp] theorem Core.setPool_mem (c : Core) (x : Nat) (f : KvPool → KvPool) : (c.setPool x f).mem = c.mem := rfl
@[simp] theorem Core.setPool_pm (c : Core) (x : Nat) (f : KvPool → KvPool) : (c.setPool x f).pm = c.pm := rfl
@[simp] theorem Core.setPool_moves (c : Core) (x : Nat) (f : KvPool → KvPool) : (c.setPool x f).moves = c.moves := rfl
@[simp] theorem Core.setPool_changed (c : Core) (x : Nat) (f : KvPool → KvPool) : (c.setPool x f).changed = c.changed := rfl
@[simp] theorem Core.setPool_onchip (c : Core) (x : Nat) (f : KvPool → KvPool) : (c.setPool x f).onchip = c.onchip := rfl
@[simp] theorem Core.setPool_pools (c : Core) (x : Nat) (f : KvPool → KvPool) : (c.setPool x f).pools = c.pools.map fun p => if p.ctx = x then f p else p := rfl
@[simp] theorem Core.setPool_groups (c : Core) (x : Nat) (f : KvPool → KvPool) : (c.setPool x f).groups = c.groups := rfl
@[simp] theorem Core.setPool_chans (c : Core) (x : Nat) (f : KvPool → KvPool) : (c.setPool x f).chans = c.chans := rfl
@[simp] theorem Core.setPool_shuttle (c : Core) (x : Nat) (f : KvPool → KvPool) : (c.setPool x f).shuttle = c.shuttle := rfl
@[simp] theorem Core.setPool_shHeld (c : Core) (x : Nat) (f : KvPool → KvPool) : (c.setPool x f).shHeld = c.shHeld := rfl
@[simp] theorem Core.setPool_repairs (c : Core) (x : Nat) (f : KvPool → KvPool) : (c.setPool x f).repairs = c.repairs := rfl
@[simp] theorem Core.setPool_apertures (c : Core) (x : Nat) (f : KvPool → KvPool) : (c.setPool x f).apertures = c.apertures := rfl
@[simp] theorem Core.setPool_need (c : Core) (x : Nat) (f : KvPool → KvPool) : (c.setPool x f).need = c.need := rfl
@[simp] theorem Core.setPool_starved (c : Core) (x : Nat) (f : KvPool → KvPool) : (c.setPool x f).starved = c.starved := rfl
@[simp] theorem Core.setPool_snoops (c : Core) (x : Nat) (f : KvPool → KvPool) : (c.setPool x f).snoops = c.snoops := rfl
@[simp] theorem Core.setPool_waits (c : Core) (x : Nat) (f : KvPool → KvPool) : (c.setPool x f).waits = c.waits := rfl
@[simp] theorem Core.setPool_journalled (c : Core) (x : Nat) (f : KvPool → KvPool) : (c.setPool x f).journalled = c.journalled := rfl
@[simp] theorem Core.setPool_cycle (c : Core) (x : Nat) (f : KvPool → KvPool) : (c.setPool x f).cycle = c.cycle := rfl
@[simp] theorem Core.setPool_stores (c : Core) (x : Nat) (f : KvPool → KvPool) : (c.setPool x f).stores = c.stores := rfl
@[simp] theorem Core.setPool_kvLeft (c : Core) (x : Nat) (f : KvPool → KvPool) : (c.setPool x f).kvLeft = c.kvLeft := rfl
@[simp] theorem Core.setPool_routes (c : Core) (x : Nat) (f : KvPool → KvPool) : (c.setPool x f).routes = c.routes := rfl
@[simp] theorem Core.setPool_gone (c : Core) (x : Nat) (f : KvPool → KvPool) : (c.setPool x f).gone = c.gone := rfl
@[simp] theorem Core.setPool_shNoticed (c : Core) (x : Nat) (f : KvPool → KvPool) : (c.setPool x f).shNoticed = c.shNoticed := rfl
@[simp] theorem Core.setPool_shServed (c : Core) (x : Nat) (f : KvPool → KvPool) : (c.setPool x f).shServed = c.shServed := rfl
@[simp] theorem Core.setPool_forwards (c : Core) (x : Nat) (f : KvPool → KvPool) : (c.setPool x f).forwards = c.forwards := rfl
@[simp] theorem Core.raise_draft (c : Core) (ctx code cu jno detail : Nat) : (c.raise ctx code cu jno detail).draft = c.draft := rfl
@[simp] theorem Core.raise_ctxs (c : Core) (ctx code cu jno detail : Nat) : (c.raise ctx code cu jno detail).ctxs = c.ctxs := rfl
@[simp] theorem Core.raise_slots (c : Core) (ctx code cu jno detail : Nat) : (c.raise ctx code cu jno detail).slots = c.slots := rfl
@[simp] theorem Core.raise_rings (c : Core) (ctx code cu jno detail : Nat) : (c.raise ctx code cu jno detail).rings = c.rings := rfl
@[simp] theorem Core.raise_held (c : Core) (ctx code cu jno detail : Nat) : (c.raise ctx code cu jno detail).held = c.held := rfl
@[simp] theorem Core.raise_faults (c : Core) (ctx code cu jno detail : Nat) : (c.raise ctx code cu jno detail).faults = c.faults ++ [{ ctx := ctx, code := code, cu := cu, cycle := c.cycle, jno := jno, detail := detail % 2 ^ 64 }] := rfl
@[simp] theorem Core.raise_shareTime (c : Core) (ctx code cu jno detail : Nat) : (c.raise ctx code cu jno detail).shareTime = c.shareTime := rfl
@[simp] theorem Core.raise_objs (c : Core) (ctx code cu jno detail : Nat) : (c.raise ctx code cu jno detail).objs = c.objs := rfl
@[simp] theorem Core.raise_mem (c : Core) (ctx code cu jno detail : Nat) : (c.raise ctx code cu jno detail).mem = c.mem := rfl
@[simp] theorem Core.raise_pm (c : Core) (ctx code cu jno detail : Nat) : (c.raise ctx code cu jno detail).pm = c.pm := rfl
@[simp] theorem Core.raise_moves (c : Core) (ctx code cu jno detail : Nat) : (c.raise ctx code cu jno detail).moves = c.moves := rfl
@[simp] theorem Core.raise_changed (c : Core) (ctx code cu jno detail : Nat) : (c.raise ctx code cu jno detail).changed = c.changed := rfl
@[simp] theorem Core.raise_onchip (c : Core) (ctx code cu jno detail : Nat) : (c.raise ctx code cu jno detail).onchip = c.onchip := rfl
@[simp] theorem Core.raise_pools (c : Core) (ctx code cu jno detail : Nat) : (c.raise ctx code cu jno detail).pools = c.pools := rfl
@[simp] theorem Core.raise_groups (c : Core) (ctx code cu jno detail : Nat) : (c.raise ctx code cu jno detail).groups = c.groups := rfl
@[simp] theorem Core.raise_chans (c : Core) (ctx code cu jno detail : Nat) : (c.raise ctx code cu jno detail).chans = c.chans := rfl
@[simp] theorem Core.raise_shuttle (c : Core) (ctx code cu jno detail : Nat) : (c.raise ctx code cu jno detail).shuttle = c.shuttle := rfl
@[simp] theorem Core.raise_shHeld (c : Core) (ctx code cu jno detail : Nat) : (c.raise ctx code cu jno detail).shHeld = c.shHeld := rfl
@[simp] theorem Core.raise_repairs (c : Core) (ctx code cu jno detail : Nat) : (c.raise ctx code cu jno detail).repairs = c.repairs := rfl
@[simp] theorem Core.raise_apertures (c : Core) (ctx code cu jno detail : Nat) : (c.raise ctx code cu jno detail).apertures = c.apertures := rfl
@[simp] theorem Core.raise_need (c : Core) (ctx code cu jno detail : Nat) : (c.raise ctx code cu jno detail).need = c.need := rfl
@[simp] theorem Core.raise_starved (c : Core) (ctx code cu jno detail : Nat) : (c.raise ctx code cu jno detail).starved = c.starved := rfl
@[simp] theorem Core.raise_snoops (c : Core) (ctx code cu jno detail : Nat) : (c.raise ctx code cu jno detail).snoops = c.snoops := rfl
@[simp] theorem Core.raise_waits (c : Core) (ctx code cu jno detail : Nat) : (c.raise ctx code cu jno detail).waits = c.waits := rfl
@[simp] theorem Core.raise_journalled (c : Core) (ctx code cu jno detail : Nat) : (c.raise ctx code cu jno detail).journalled = c.journalled := rfl
@[simp] theorem Core.raise_cycle (c : Core) (ctx code cu jno detail : Nat) : (c.raise ctx code cu jno detail).cycle = c.cycle := rfl
@[simp] theorem Core.raise_stores (c : Core) (ctx code cu jno detail : Nat) : (c.raise ctx code cu jno detail).stores = c.stores := rfl
@[simp] theorem Core.raise_kvLeft (c : Core) (ctx code cu jno detail : Nat) : (c.raise ctx code cu jno detail).kvLeft = c.kvLeft := rfl
@[simp] theorem Core.raise_routes (c : Core) (ctx code cu jno detail : Nat) : (c.raise ctx code cu jno detail).routes = c.routes := rfl
@[simp] theorem Core.raise_gone (c : Core) (ctx code cu jno detail : Nat) : (c.raise ctx code cu jno detail).gone = c.gone := rfl
@[simp] theorem Core.raise_shNoticed (c : Core) (ctx code cu jno detail : Nat) : (c.raise ctx code cu jno detail).shNoticed = c.shNoticed := rfl
@[simp] theorem Core.raise_shServed (c : Core) (ctx code cu jno detail : Nat) : (c.raise ctx code cu jno detail).shServed = c.shServed := rfl
@[simp] theorem Core.raise_forwards (c : Core) (ctx code cu jno detail : Nat) : (c.raise ctx code cu jno detail).forwards = c.forwards := rfl

end Sys2Proof.Machine
end

