-- ==== Sys2Proof/Laws/Vector.lean ====
section
/-! SUPPORT. Sys2Proof/Laws/Vector.lean: what a command of the vector unit can do, said once: it is ignored, overflows local SRAM, or
runs and changes its results' bytes and its task's sticky flags alone. -/

set_option linter.unusedSimpArgs false

namespace Sys2Proof.Machine

/-- A task read after one is changed. -/
theorem Core.task_setTask (c : Core) (t : TaskRef) (k : Task) (f : Task → Task) (h : c.task t = some k) :
    (c.setTask t f).task t = some (f k) := by
  unfold Core.task at h ⊢
  cases ho : c.order t.jno with
  | none => simp [ho] at h
  | some o =>
    have hj := Core.order_jno _ _ _ ho
    simp only [ho, Option.bind_some] at h
    unfold Core.setTask
    rw [Core.order_setOrder c t.jno t.jno (fun o => { o with tasks := modifyAt o.tasks t.idx f }) (fun _ => rfl), ho]
    simp [hj, modifyAt, List.getElem?_modify, h]

/-- Changing a task leaves the orders of other tasks. -/
theorem Core.order_setTask_ne (c : Core) (t : TaskRef) (f : Task → Task) (j : Nat) (h : j ≠ t.jno) :
    (c.setTask t f).order j = c.order j := by
  unfold Core.setTask
  rw [Core.order_setOrder c t.jno j (fun o => { o with tasks := modifyAt o.tasks t.idx f }) (fun _ => rfl)]
  cases ho : c.order j with
  | none => rfl
  | some o => have := Core.order_jno _ _ _ ho; simp [this, h]

/-- A byte of local SRAM after bytes are put there. -/
theorem Core.sramByte_sramWrite (c : Core) (n cu cu' off off' : Nat) (bs : Bytes) :
    (c.sramWrite cu off bs).sramByte n cu' off' =
      if sramKey cu off ≤ sramKey cu' off' ∧ sramKey cu' off' < sramKey cu off + bs.length then
        (bs[sramKey cu' off' - sramKey cu off]?).getD 0
      else c.sramByte n cu' off' := by
  unfold Core.sramByte Core.sramWrite
  dsimp only
  rw [getKey_putBytes]
  split
  · rename_i h
    have : sramKey cu' off' - sramKey cu off < bs.length := by omega
    simp [this]
  · rfl

/-- Writes into local SRAM change nothing but it, and no byte of it outside their ranges. -/
theorem sramWrites_frame (cu : Nat) (ws : List (Nat × Bytes)) (c : Core) :
    let d := ws.foldl (fun (c : Core) w => c.sramWrite cu w.1 w.2) c
    d = { c with onchip := { c.onchip with sram := d.onchip.sram } } ∧
      ∀ q, (∀ w ∈ ws, q < sramKey cu w.1 ∨ sramKey cu w.1 + w.2.length ≤ q) → getKey d.onchip.sram q = getKey c.onchip.sram q := by
  induction ws generalizing c with
  | nil => exact ⟨rfl, fun _ _ => rfl⟩
  | cons w ws ih =>
    obtain ⟨h1, h2⟩ := ih (c.sramWrite cu w.1 w.2)
    refine ⟨h1, fun q hq => ?_⟩
    rw [List.foldl_cons, h2 q (fun v hv => hq v (List.mem_cons_of_mem _ hv))]
    have := hq w (by simp)
    unfold Core.sramWrite
    dsimp only
    rw [getKey_putBytes, if_neg (by omega)]

theorem lor_keeps (a b i : Nat) (h : a.testBit i = true) : (Nat.lor a b).testBit i = true := by
  have : Nat.lor a b = a ||| b := rfl
  rw [this, Nat.testBit_or, h, Bool.true_or]

/-- A command of the vector unit whose operands fit runs: it leaves what `VecRan` says, for the ranges of its writes. -/
theorem State.onVector_runs (s : State) (t : TaskRef) (k : Task) (ends : List Nat) (f : Core → Nat → List (Nat × Bytes) × Nat)
    (h : OnCu s t k) (he : ends.foldl max 0 ≤ sramBytes) :
    ∃ u, s.onVector t ends f = .next u ∧ VecRan s t k ((f s.core k.cu).1.map fun w => (w.1, w.2.length)) u := by
  obtain ⟨ho, ht, hp, hg⟩ := h
  have e1 : ¬ sramBytes < ends.foldl max 0 := by omega
  have e2 : ¬ 2 < k.desc.engine := by omega
  unfold State.onVector
  simp only [ht, ho, hp, e1, e2, Bool.not_true, Bool.false_or, ne_eq, not_true_eq_false, decide_false, if_false, Bool.false_eq_true]
  refine ⟨_, rfl, ?_⟩
  obtain ⟨g1, g2⟩ := sramWrites_frame k.cu (f s.core k.cu).1 s.core
  dsimp only at g1 g2
  revert g1 g2
  generalize List.foldl (fun (c : Core) w => c.sramWrite k.cu w.1 w.2) s.core (f s.core k.cu).1 = d
  intro g1 g2
  have ht' : d.task t = some k := by rw [g1]; exact ht
  have hord : ∀ j, d.order j = s.core.order j := by intro j; rw [g1]; rfl
  refine ⟨?_, ⟨_, Core.task_setTask _ _ _ _ ht', fun i hi => lor_keeps _ _ _ hi⟩, fun j hj => ?_, fun q hq => ?_⟩
  · have e : ∀ (d : Core) (m : List (Nat × Byte)) (g : Task → Task),
        d = { s.core with onchip := { s.core.onchip with sram := m } } →
        ({ s with core := d.setTask t g } : State) =
          { s with core := { s.core with orders := (d.setTask t g).orders
                                         onchip := { s.core.onchip with sram := (d.setTask t g).onchip.sram } } } := by
      intro d m g hd; subst hd; rfl
    exact e _ _ _ g1
  · show (d.setTask t _).order j = _
    rw [Core.order_setTask_ne _ _ _ _ hj, hord]
  · show getKey d.onchip.sram q = _
    refine g2 q (fun w hw => ?_)
    exact hq (w.1, w.2.length) (List.mem_map.mpr ⟨w, hw, rfl⟩)

/-- Everything a command of the vector unit can do. -/
theorem State.onVector_cases (s : State) (t : TaskRef) (ends : List Nat) (f : Core → Nat → List (Nat × Bytes) × Nat) :
    s.onVector t ends f = .next s ∨
      (∃ k, OnCu s t k ∧ sramBytes < ends.foldl max 0 ∧
        s.onVector t ends f = .next (s.tellAborts (s.withCore fun c => c.overflow t 0 (ends.foldl max 0) (c.sramFree k.cu)))) ∨
      ∃ k u, OnCu s t k ∧ ends.foldl max 0 ≤ sramBytes ∧ s.onVector t ends f = .next u ∧
        VecRan s t k ((f s.core k.cu).1.map fun w => (w.1, w.2.length)) u := by
  cases ht : s.core.task t with
  | none => left; simp [State.onVector, ht]
  | some k =>
    by_cases hc : s.operational = true ∧ k.phase = .running ∧ k.desc.engine ≤ 2
    · have hk : OnCu s t k := ⟨hc.1, ht, hc.2.1, hc.2.2⟩
      by_cases he : ends.foldl max 0 ≤ sramBytes
      · obtain ⟨u, hu⟩ := State.onVector_runs s t k ends f hk he
        exact .inr (.inr ⟨k, u, hk, he, hu⟩)
      · have e1 : sramBytes < ends.foldl max 0 := by omega
        have e2 : ¬ 2 < k.desc.engine := by omega
        refine .inr (.inl ⟨k, hk, e1, ?_⟩)
        simp [State.onVector, ht, hc, e1, e2]
    · left
      simp only [State.onVector, ht]
      rw [if_pos]
      by_cases h1 : s.operational = true
      · by_cases h2 : k.phase = .running
        · have h3 : 2 < k.desc.engine := by
            have : ¬ k.desc.engine ≤ 2 := fun h => hc ⟨h1, h2, h⟩
            omega
          simp [h3]
        · simp [h2]
      · simp [h1]

end Sys2Proof.Machine
end

