-- ==== Sys2Proof/WellFormed.lean ====
section
/-! DEFINITION. Sys2Proof/WellFormed.lean: when a command's operands lie in the ranges the spec gives them. exec answers for
ill-formed commands too: they leave the state as it is, or are taken as hardware that cannot produce them would. -/

namespace Sys2Proof

/-- A ring number (R101). -/
def ringOk (r : Nat) : Bool := r < 64

/-- An optical port number (Table 16-1). -/
def portOk (p : Nat) : Bool := p < 18

/-- A laser cartridge (R464). -/
def cartOk (c : Nat) : Bool := c < 6

/-- A compute die (R13). -/
def dieOk (d : Nat) : Bool := d < 4

/-- A context's index (R121). -/
def ctxIdxOk (x : Nat) : Bool := x < 64

/-- A CU, or a die for the engines of a die (R13). -/
def unitOk (cu : Nat) : ExecUnit → Bool
  | .arrayA => cu < 512
  | .arrayB => cu < 512
  | .vector => cu < 512
  | .reed => cu < 4
  | .shuttle => cu < 4
  | .update => cu < 4
  | .fill => cu < 4

/-- A reed channel, of this module's address or of the absorbed one (R33, R283). -/
def chanOk (ch : Nat) : Bool := ch < 64

/-- A packed torus address (R451). -/
def addrOk (a : Nat) : Bool := a < 4096

/-- An order's journal number, or that of an absorbed module's order (R399). -/
def jnoOk (j : Nat) : Bool := j < 2 ^ 65

/-- A frame's payload of 64 bytes. -/
def line64 (b : Bytes) : Bool := b.length = 64

/-- A mailbox payload is at most 4,096 bytes (R502). -/
def sourceOk : MboxSource → Bool
  | .bar0 => true
  | .mctp _ rsvd _ p => rsvd < 256 && p.length ≤ 4096

/-- The sensors of Table 18-9. -/
def readingsOk (r : Readings) : Bool := r.vals.length = 23

/-- A place protected by CRC-16: local SRAM of 1.5 MiB, an accumulator bank of 64 KiB, or a region's cache (R360, Table 1-1). -/
def locOk : OnchipLoc → Bool
  | .sram cu off => cu < 512 && off < 1572864
  | .acc cu bank off => cu < 512 && bank < 4 && off < 65536
  | .t1 region _ => region < 16

/-- One of the two IDE streams (R501). -/
def streamOk (n : Nat) : Bool := n < 2

/-- The commands with operands in range. -/
def Instr.wellFormed : Instr → Bool
  | .beatWindowOpen r => readingsOk r
  | .ringSample _ => true
  | .decisionPoint _ => true
  | .placementDecide => true
  | .sealDeadline _ => true
  | .configApply => true
  | .clockLatch => true
  | .commitStep => true
  | .pickBegin => true
  | .registerWrite _ size _ => size = 4 || size = 8
  | .bar0BadAccess _ _ _ => true
  | .stage => true
  | .draftLoadDone _ => true
  | .draftCheckDone => true
  | .arm => true
  | .disarm => true
  | .discard => true
  | .ringEnable ring => ringOk ring
  | .ringDisable ring => ringOk ring
  | .pair => true
  | .absorb => true
  | .handback => true
  | .detach => true
  | .compare => true
  | .drain => true
  | .drainDone => true
  | .retrain port => portOk port
  | .disable port => portOk port
  | .enable port => portOk port
  | .getInfo src => sourceOk src
  | .getBootRecord src => sourceOk src
  | .readSensors src => sourceOk src
  | .readSetting src => sourceOk src
  | .reset src => sourceOk src
  | .powerState src => sourceOk src
  | .powerLimit src => sourceOk src
  | .clockCap src => sourceOk src
  | .scrubRate src => sourceOk src
  | .laserRemove src => sourceOk src
  | .bootDraft src _ => sourceOk src
  | .settingWrite src => sourceOk src
  | .imageData src => sourceOk src
  | .imageVerify src => sourceOk src
  | .imageActivate src => sourceOk src
  | .fwCommit src => sourceOk src
  | .debugChallenge src => sourceOk src
  | .debugUnlock src => sourceOk src
  | .nop jno => jnoOk jno
  | .ctxCreate jno => jnoOk jno
  | .ctxDestroy jno => jnoOk jno
  | .ctxReset jno => jnoOk jno
  | .run jno => jnoOk jno
  | .objCreate jno => jnoOk jno
  | .objDestroy jno => jnoOk jno
  | .objHint jno => jnoOk jno
  | .objLoad jno => jnoOk jno
  | .objStore jno => jnoOk jno
  | .kvPoolCreate jno => jnoOk jno
  | .kvPoolDestroy jno => jnoOk jno
  | .kvJoin jno => jnoOk jno
  | .kvFork jno => jnoOk jno
  | .kvGrow jno => jnoOk jno
  | .kvLeave jno => jnoOk jno
  | .kvPublish jno => jnoOk jno
  | .kvAdmitStarved jno => jnoOk jno
  | .kvExhausted jno => jnoOk jno
  | .taskStart cu u _ => unitOk cu u
  | .taskEnd t => jnoOk t.ref.jno
  | .dependencyMet t _ => jnoOk t.jno
  | .taskOverrun t => jnoOk t.jno
  | .memoryWrite t _ _ => jnoOk t.jno
  | .sectorRead _ _ _ => true
  | .twinFetchRequest _ => true
  | .twinFetchReturn _ data => data.all line64
  | .scrubRead die _ => dieOk die
  | .onchipCrcFail loc => locOk loc
  | .memOnchip loc => locOk loc
  | .vectorOp t _ _ _ _ _ _ _ _ => jnoOk t.jno
  | .rowReduction t _ _ _ _ _ => jnoOk t.jno
  | .sfuRequest t fn _ _ _ _ => jnoOk t.jno && fn ≤ 9
  | .rowstat t _ _ _ _ => jnoOk t.jno
  | .lnorm t _ _ _ _ _ _ _ => jnoOk t.jno
  | .rmsnorm t _ _ _ _ _ _ => jnoOk t.jno
  | .lnormBwd t _ _ _ _ _ _ => jnoOk t.jno
  | .rmsnormBwd t _ _ _ _ _ _ => jnoOk t.jno
  | .smerge t _ _ _ => jnoOk t.jno
  | .sfinal t _ _ _ _ _ => jnoOk t.jno
  | .kvpin t row => jnoOk t.jno && row < 2 ^ 32
  | .patch t _ => jnoOk t.jno
  | .s2c t _ => jnoOk t.jno
  | .c2s t _ => jnoOk t.jno
  | .maxpool t _ => jnoOk t.jno
  | .avgpool t _ => jnoOk t.jno
  | .crop t _ => jnoOk t.jno
  | .objectFillDone obj => obj < 2 ^ 21
  | .kvCopyDone ctx => ctxIdxOk ctx
  | .blockMoveDone obj _ => obj < 2 ^ 21
  | .liveStateSaveDone ctx => ctxIdxOk ctx
  | .liveStateRestoreDone ctx => ctxIdxOk ctx
  | .resultFlushDone jno => jnoOk jno
  | .heldQueueRoom die => dieOk die
  | .collHeaderReceived ch hdr => chanOk ch && hdr.src < 4096 && line64 hdr.bytes
  | .mismatchNotice ch a b => (chanOk ch || ch = 0xFF) && a < 256 && b.group < 256 && b.sender < 65536
  | .countNotice ch i => chanOk ch && i.group < 256
  | .abortNotice ch i => chanOk ch && i.group < 256
  | .lossNotice addr _ _ => addrOk addr
  | .holdNotice addr _ => addrOk addr
  | .gatherPieceLanded ch _ _ => chanOk ch
  | .lossWaitExpiry => true
  | .dataFrameReceived port _ => portOk port
  | .ackReceived port _ => portOk port
  | .nakReceived port _ => portOk port
  | .ackTimeout port => portOk port
  | .idleFrameTimer port => portOk port
  | .portRxTimeout port => portOk port
  | .markerReceived port payload _ => portOk port && line64 payload
  | .alignOffsetExceeded => true
  | .leaderMarkerTimeout => true
  | .leaderTakeover _ leader => addrOk leader
  | .joinMarkerTimeout => true
  | .leaderRelay port leader _ _ _ => portOk port && addrOk leader
  | .periodRequest port src _ => portOk port && addrOk src
  | .identify port payload => portOk port && line64 payload
  | .measureDone port _ => portOk port
  | .portStateTimeout port => portOk port
  | .portRetrainTimer port => portOk port
  | .laneLost port lane => portOk port && lane < 8
  | .linkIsolated => true
  | .laserCartridgeFail c => cartOk c
  | .cartridgeWarmDone c => cartOk c
  | .cartridgeLeverUnlock c => cartOk c
  | .dieLinkFrame link _ => link < 8
  | .linkDie link => link < 8
  | .helloTimer => true
  | .helloReceived port frame _ => portOk port && line64 frame
  | .handshakeTimeout => true
  | .journalEntryReceived entry order => line64 entry && order.length = 128
  | .completionNoticeReceived _ => true
  | .heldItemReceived _ => true
  | .replayApply => true
  | .accumulatorForwardReceived _ _ => true
  | .digestReceived _ jno _ => jnoOk jno
  | .recopyDone _ _ => true
  | .selvedgePortLost port _ => port < 2
  | .quiesceNoticeReceived _ _ _ => true
  | .twinSilenceTimeout => true
  | .holdLimitExpiry => true
  | .cxlLinkDown => true
  | .cxlLinkTrained _ _ => true
  | .cxlLostTimeout => true
  | .hostLinkReset _ => true
  | .ideMacFailure => true
  | .cxlMemRead _ _ => true
  | .cxlMemWrite _ data mask => line64 data && mask.bits.length = 64
  | .bisnpResponse _ modified => modified.all line64
  | .hdmDecoderCommit _ _ _ _ => true
  | .emergencyQuiesce _ _ => true
  | .warmStart _ => true
  | .coldStart _ => true
  | .bootStepTimeout step => 1 ≤ step && step ≤ 12
  | .opticalTrainingLimit => true
  | .sensorSnapshot r => readingsOk r
  | .flowEmergencyTimer => true
  | .pwrOverload => true
  | .stepRise r => readingsOk r
  | .inputVoltageChange input _ => input < 2
  | .inputQualified input => input < 2
  | .bulkChargeDone input => input < 2
  | .powerDownTimeout => true
  | .presenceContactBreak _ _ => true
  | .setEndpointId _ eid => eid < 256
  | .getEndpointId _ => true
  | .getEndpointUuid _ => true
  | .getMctpVersionSupport _ _ => true
  | .getMessageTypeSupport _ => true
  | .getVendorDefinedMessageSupport _ => true
  | .getTid _ => true
  | .setTid _ tid => tid < 256
  | .getPldmVersion _ _ => true
  | .getPldmTypes _ => true
  | .getPldmCommands _ _ => true
  | .getPdr _ _ => true
  | .setEventReceiver _ _ => true
  | .numericEffecterSet _ _ _ => true
  | .requestUpdate _ => true
  | .verifyComplete _ => true
  | .activateFirmware _ _ => true
  | .getStatus _ => true
  | .cancelUpdate _ => true
  | .getVersion _ => true
  | .getCapabilities _ => true
  | .negotiateAlgorithms _ _ => true
  | .getDigests _ => true
  | .getCertificate _ slot => slot < 8
  | .challenge _ slot nonce => slot < 8 && nonce.length = 32
  | .getMeasurements _ index => index < 256
  | .keyExchange _ slot => slot < 8
  | .finish _ _ => true
  | .heartbeat _ => true
  | .keyUpdate _ => true
  | .endSession _ => true
  | .query => true
  | .keyProg stream _ => streamOk stream
  | .kSetGo stream => streamOk stream
  | .kSetStop stream => streamOk stream
  | .getKey stream => streamOk stream
  | .objLoadStoreDone jno _ _ => jnoOk jno
  | .harnessWritebackDone h => h < 16
  | .flashWriteDone _ => true
  | .jtagInstruction _ => true
  | .cxlCacheSnoop _ => true
  | .uioRequestReceived _ _ => true
  | .cartridgeInsert c => cartOk c
  | .failedWarmStartReport => true

end Sys2Proof
end

