-- ==== Sys2Proof/Tests/Slice0.lean ====
section
/-! SUPPORT. Sys2Proof/Tests/Slice0.lean: small tests of the model, with expected values from the spec's tables and worked examples, and
witnesses: concrete states and operands that meet the hypotheses of the statements in Certificates/Slice0/Obligations.lean. -/

set_option maxRecDepth 100000
-- one after the other: many evaluations at once would take more threads than the memory limit allows
set_option Elab.async false

namespace Sys2Proof.Machine

/-! ## Well-formed commands -/

/-- Each range of WellFormed refuses an operand just outside it. -/
theorem test_ill_formed_ranges :
    ∀ c ∈ [Instr.ringEnable 64, .retrain 18, .identify 18 (List.replicate 64 0), .cartridgeInsert 6, .scrubRead 4 {},
      .kvCopyDone 64, .countNotice 64 ⟨0, 0⟩, .mismatchNotice 0 256 ⟨0, 0⟩, .lossNotice 4096 0 none, .nop (2 ^ 65), .dieLinkFrame 8 [], .laneLost 0 8,
      .harnessWritebackDone 16, .bootStepTimeout 13, .selvedgePortLost 2 false, .getMeasurements true 256,
      .setEndpointId .smbus 256, .setTid .smbus 256, .challenge true 8 (List.replicate 32 0), .kvpin ⟨0, 0⟩ (2 ^ 32),
      .objectFillDone (2 ^ 21), .kSetGo 2, .inputQualified 2, .sfuRequest ⟨0, 0⟩ 10 true 0 0 0, .registerWrite 0 2 0],
      c.wellFormed = false := by decide

/-- Units and places protected by CRC-16. -/
theorem test_ill_formed_units :
    ∀ c ∈ [Instr.taskStart 512 .arrayA 0, .taskStart 512 .arrayB 0, .taskStart 512 .vector 0, .taskStart 4 .reed 0, .taskStart 4 .shuttle 0,
      .taskStart 4 .update 0, .taskStart 4 .fill 0, .memOnchip (.sram 512 0), .memOnchip (.acc 0 4 0), .memOnchip (.t1 16 0)],
      c.wellFormed = false := by decide

/-- Byte operands of the wrong length. -/
theorem test_ill_formed_lengths :
    ∀ c ∈ [Instr.collHeaderReceived 0 ⟨0, []⟩, .markerReceived 0 [] 0, .helloReceived 16 [] 0, .journalEntryReceived (List.replicate 64 0) [],
      .cxlMemWrite 0 (List.replicate 64 0) ⟨[], {}⟩, .cxlMemWrite 0 [] ⟨List.replicate 64 true, {}⟩, .challenge true 0 [],
      .sensorSnapshot { vals := [], pIn4 := 0, dieP4 := 0 }, .twinFetchReturn 0 (some [])],
      c.wellFormed = false := by decide

theorem test_ill_formed_source : (Instr.getInfo (.mctp .smbus 0 0 (List.replicate 4097 0))).wellFormed = false := by decide +kernel

/-- The bounds themselves are in range. -/
theorem test_well_formed :
    ∀ c ∈ [Instr.ringEnable 63, .retrain 17, .cartridgeInsert 5, .scrubRead 3 {}, .kvCopyDone 63, .countNotice 63 ⟨0, 0⟩, .lossNotice 4095 0 none,
      .nop (2 ^ 65 - 1), .dieLinkFrame 7 (List.replicate 256 0), .bootStepTimeout 12, .taskStart 511 .vector 0, .taskStart 3 .reed 0, .registerWrite 0 8 0],
      c.wellFormed = true := by decide

/-! ## The spec's own numbers -/

/-- Node index of (5, 2, 3, 1) in a system of 8 × 8 × 4 × 4: 342 (worked example of chapter 1). -/
theorem test_node_index : nodeIndex [8, 8, 4, 4] [5, 2, 3, 1] = 342 := by decide
/-- A span of 488 µs at 1.8 GHz holds 878,400 cycles; at 1.4 GHz, 683,200 (worked examples of chapters 2 and 18). -/
theorem test_span_cycles : spanCycles 50 12 0 = 878400 ∧ spanCycles 50 12 2 = 683200 ∧ spanCycles 57 12 1 = 892800 := by decide
/-- Stretching for 1.6 GHz and 1.4 GHz: 570 µs and 640 µs (worked examples of chapters 2 and 18). -/
theorem test_stretch : stretched10 50 12 0 1 = 57 ∧ stretched10 50 12 0 2 = 64 := by decide
/-- With 3,150 W and D = 1,680 W under a limit of 2,800 W the power step is 1.4 GHz; later 1.6 GHz is still over (chapter 18). -/
theorem test_power_step :
    powerStep { vals := [], pIn4 := 3150, dieP4 := 1680 } 2800 0 = 2 ∧ withinLimit 2562 1092 2800 2 1 = false := by decide
/-- 90 layers in four stages: 23, 23, 22, 22 (chapter 9). -/
theorem test_ragged : (List.range 4).map (raggedShare 90 4) = [23, 23, 22, 22] := by decide
/-- A torus address packs its coordinates by R451, and its twin differs in bit 0 of D. -/
theorem test_pack : packAddr [5, 2, 3, 1] = 5 * 512 + 2 * 64 + 3 * 8 + 1 ∧ unpackAddr (packAddr [5, 2, 3, 1]) = [5, 2, 3, 1] ∧
    twinAddr (packAddr [5, 2, 3, 1]) = packAddr [5, 2, 3, 0] := by decide
/-- A device address holds its object's index and offset (Table 11-4). -/
theorem test_device_address : devAddr 3 16384 = 2 ^ 60 + 3 * 2 ^ 40 + 16384 ∧ addrIndex (devAddr 3 16384) = 3 ∧
    addrOffset (devAddr 3 16384) = 16384 := by decide
/-- Little-endian bytes (R4). -/
theorem test_little_endian : leBytes 4 0x11520A48 = [0x48, 0x0A, 0x52, 0x11] ∧ leNat [0x48, 0x0A, 0x52, 0x11] = 0x11520A48 := by decide
/-- `GLB_ID` at its heading's value, and a block that does not answer outside operational state reads all ones (R430). -/
theorem test_registers : State.reset.readReg 0 = some 0x1152000011520A48 ∧ State.reset.readReg 0x10000 = some (2 ^ 64 - 1) := by decide +kernel


/-! ## Small states -/

/-- A draft of one harness with every region, one slot of eight CUs, and key-value pages of 64 tokens. -/
def wDraft : Draft :=
  { id := 1, lens := [2, 2, 2, 2], period10 := 50, windowUs := 12, planClock := 0, undoMib := 8
    harnesses := [⟨0, 0xFFFF, 0⟩], slots := [⟨0, 0, 0, 0, 8⟩], fast := false, tiers := [], groups := [], classes := defaultClasses
    jobLimits := List.replicate 256 65535
    twin := { mirror := false, coding := 0, autoAbsorb := true, autoHandback := false, drainGbs := 0, bytes := [] }
    funcs := [⟨0, 1, 1, 1, 4096, 4⟩], train := none }

/-- A module in operational state under that draft, at a phase of the beat. -/
def wAt (ph : Phase) : State :=
  { pick := { counter := 10, phase := ph }, core := { draft := some wDraft }
    glb := { state := .operational, up := true, width := 16, rate := 2, lens := [2, 2, 2, 2], axes := [2, 2, 2, 2] }
    opt := { carts := List.replicate 6 .active } }

/-- The same in the task span. -/
def wOp : State := wAt .span

/-- Readings with nothing hot. -/
def wCool : Readings := { vals := List.replicate 20 500 ++ [300, 300, 500], pIn4 := 1000, dieP4 := 500 }

/-- A mailbox command by SMBus. -/
def wMail (payload : Bytes) : MboxSource := .mctp .smbus 0 0 payload

/-- Where every channel is at rest, each reads so. -/
theorem chan_at_rest (c : Core) (h : c.chans = List.replicate 64 {}) (ch : Nat) : c.chan ch = {} := by
  show c.chans.getD ch {} = {}
  rw [h, List.getD_eq_getElem?_getD, List.getElem?_replicate]
  split <;> rfl

/-! ## Witnesses: the queue and the whole step -/

theorem test_witness_StepRunsFront : State.reset.pending = [] := rfl
theorem test_witness_QueueLosesFront : ∃ t, step { wAt .applied with pending := [.clockLatch, .commitStep] } = .next t := ⟨_, rfl⟩
theorem test_witness_SecurityVersionNeverFalls : 0 ≤ wOp.flash.rpmc ∧ ∃ t, step { wOp with pending := [.helloTimer] } = .next t :=
  ⟨Nat.zero_le _, _, rfl⟩
theorem test_witness_AddressFixedOnceStarted : (∃ t, exec .clockLatch (wAt .applied) = .next t) ∧ beginsAnew .clockLatch = false :=
  ⟨⟨_, rfl⟩, rfl⟩
theorem test_witness_PairMovesByTable :
    (∃ t, exec .powerDownTimeout { wOp with power := { lost := true } } = .next t) ∧ beginsAnew .powerDownTimeout = true ∧
    (∃ t, exec .handshakeTimeout { wOp with twin := { state := .handshake } } = .next t) ∧ beginsAnew .handshakeTimeout = false :=
  ⟨⟨_, rfl⟩, rfl, ⟨_, rfl⟩, rfl⟩
theorem test_witness_StepKeepsMemoryCanonical :
    State.MemOk { wAt .latched with pending := [.commitStep] } ∧ ∃ t, step { wAt .latched with pending := [.commitStep] } = .next t :=
  ⟨by unfold State.MemOk; decide +kernel, _, rfl⟩

/-! ## Witnesses: the beat window -/

theorem test_witness_BeatStepsRun :
    (wOp.beating = true ∧ wOp.pick.phase = .span ∧ wOp.core.running = [] ∧ wOp.thermalEmergency wCool = false ∧ wOp.mgt.waiting = []) ∧
    (∀ ph ∈ [Phase.opened, .sampled, .decided, .placed, .sealed, .applied, .latched, .committed],
      (wAt ph).beating = true ∧ (wAt ph).pick.phase = ph) ∧
    (wAt .sealed).mgt.due = [] ∧ wOp.draft.state ≠ .armed ∧
    ((wAt .latched).glb.skid = false ∧ (wAt .latched).pick.epochs = 0 ∧ (wAt .latched).switchLines = []) ∧
    ((wAt .committed).opt.stranded = [] ∧ (wAt .committed).core.shHeld = [] ∧ (∀ ch, ((wAt .committed).core.chan ch).redo = []) ∧
      ∀ o ∈ (wAt .committed).core.orders, o.tried = none) := by
  refine ⟨by decide +kernel, by decide +kernel, by decide +kernel, by decide +kernel, by decide +kernel, by decide +kernel,
    by decide +kernel, fun ch => ?_, by decide +kernel⟩
  rw [chan_at_rest _ rfl]
theorem test_witness_SealingAloneSealsAll :
    ∀ st ∈ [PairState.unpaired, .handshake, .copying, .absorbed], let s := { wAt .placed with twin := { state := st } }
      s.operational = true ∧ s.pick.phase = .placed ∧
        (s.twin.state = .unpaired ∨ s.twin.state = .handshake ∨ s.twin.state = .copying ∨ s.twin.state = .absorbed) := by decide +kernel
theorem test_witness_LatchAndCommit :
    (wAt .applied).beating = true ∧ (wAt .applied).pick.phase = .applied ∧ (wAt .applied).mgt.latchAt = none ∧
    (wAt .latched).beating = true ∧ (wAt .latched).pick.phase = .latched ∧
    ((wAt .latched).switchLines = [] ∧ (wAt .latched).glb.hostWaits = []) ∧
    (wAt .latched).glb.skid = false ∧
    let s := { wAt .applied with mgt := { latchAt := some 10, target := 1 } }
    s.beating = true ∧ s.pick.phase = .applied ∧ s.mgt.latchAt = some 10 ∧ 10 ≤ s.pick.counter := by decide +kernel

/-- In skid mode: two epochs more than are verified. -/
theorem test_epochs_unverified :
    let v := Config.epochsVerified (wAt .latched).freeCtr
    let w := { wAt .latched with glb := { (wAt .latched).glb with skid := true }, pick := { (wAt .latched).pick with epochs := v + 2 } }
    w.beating = true ∧ w.pick.phase = .latched ∧ w.glb.skid = true ∧ Config.epochsVerified w.freeCtr < w.pick.epochs :=
  ⟨rfl, rfl, rfl, Nat.lt_add_of_pos_right (by decide)⟩

/-! ## Witnesses: registers -/

/-- The bytes of a small draft: header, three section entries, PICK, HARN and TWIN. -/
def wDraftBytes : Bytes :=
  let body := leBytes 4 0x54465244 ++ leBytes 2 1 ++ leBytes 2 64 ++ leBytes 4 320 ++ leBytes 2 3 ++ leBytes 2 0 ++ leBytes 8 7
    ++ leBytes 4 0x11520A48 ++ [2, 2, 2, 2] ++ List.replicate 28 0
  let table := leBytes 2 1 ++ leBytes 2 1 ++ leBytes 4 128 ++ leBytes 4 16 ++ leBytes 4 0
    ++ leBytes 2 2 ++ leBytes 2 1 ++ leBytes 4 192 ++ leBytes 4 48 ++ leBytes 4 0
    ++ leBytes 2 6 ++ leBytes 2 1 ++ leBytes 4 256 ++ leBytes 4 32 ++ leBytes 4 0 ++ List.replicate 16 0
  let pick := leBytes 2 50 ++ [12, 0, 8] ++ List.replicate 59 0
  let harn := [1, 1] ++ List.replicate 14 0 ++ [0, 0] ++ leBytes 2 0xFFFF ++ List.replicate 12 0
    ++ [0, 0, 0, 0] ++ leBytes 2 0 ++ leBytes 2 8 ++ List.replicate 8 0 ++ List.replicate 16 0
  let rest := table ++ pick ++ harn ++ List.replicate 64 0
  body ++ leBytes 4 (crc32c (body ++ [0, 0, 0, 0] ++ rest)) ++ rest

/-- The draft check passes it, and names the first check that fails otherwise (Table 3-12). -/
theorem test_draft_check : draftCheck wDraftBytes 320 (some [2, 2, 2, 2]) none .none = none ∧
    (draftCheck wDraftBytes 384 none none .none).map Prod.fst = some 0x0402 ∧
    (draftCheck wDraftBytes 320 (some [4, 2, 2, 2]) none .none).map Prod.fst = some 0x0409 ∧
    (draftCheck (wDraftBytes.set 128 9) 320 none none .none).map Prod.fst = some 0x0403 := by decide +kernel

/-- What stood before a draft that was applied in this beat window. -/
def wPrior : Prior := { slots := [], groups := [], frames := [], reed := { epochBeat := 3 }, pair := .sync, holds := false, gone := [] }

theorem test_witness_DraftCommandsAct : wOp.operational = true ∧ wOp.draft.prior = none ∧
    (let s := { wOp with draft := { state := .armed, prior := some wPrior, applyBeat := 12 } }
     s.operational = true ∧ s.draft.prior = some wPrior ∧ s.draft.state = .armed ∧ s.pick.counter + 2 ≤ s.draft.applyBeat) ∧
    (let s := { wOp with draft := { state := .checked, applyBeat := 12 } }
     s.draft.state ∈ [DraftState.checked, .armed, .missed] ∧ s.pick.counter + 2 ≤ s.draft.applyBeat) ∧
    (({ wOp with draft := { state := .armed } } : State).draft.state = .armed) ∧
    (({ wOp with draft := { state := .loading } } : State).draft.state ∈
      [DraftState.loading, .checking, .checked, .armed, .rejected, .missed]) := by decide +kernel
theorem test_witness_DraftIsCheckedOnce :
    let s := { wOp with draft := { state := .loading, from_ := 4096, len := 320 } }
    let c := { wOp with draft := { state := .checking, copy := wDraftBytes, len := 320 } }
    let bad := { wOp with draft := { state := .checking, copy := [], len := 320 } }
    s.operational = true ∧ s.draft.state = .loading ∧ hostRead ⟨[(4096, wDraftBytes)]⟩ s.draft.from_ s.draft.len = some wDraftBytes ∧
      hostRead ⟨[]⟩ s.draft.from_ s.draft.len = none ∧
      (let half := (⟨[(4096, wDraftBytes.take 64)]⟩ : HostView)
       64 * 1 < s.draft.len ∧ hostRead half s.draft.from_ s.draft.len = none ∧
        hostRead half (s.draft.from_ + 64 * 1) (min 64 (s.draft.len - 64 * 1)) = none ∧
        ∀ j < 1, hostRead half (s.draft.from_ + 64 * j) (min 64 (s.draft.len - 64 * j)) ≠ none) ∧
      s.linkUp = true ∧ ({ s with glb := { s.glb with up := false } } : State).linkUp = false ∧
      wOp.draft.state ≠ .loading ∧ wOp.draft.state ≠ .checking ∧ bad.draft.readFail = none ∧ c.draft.state = .checking ∧ c.checkStaged = none ∧ bad.checkStaged.isSome = true := by
  decide +kernel
theorem test_witness_EventBitsClearByWritingOne : wOp.operational = true := rfl
theorem test_witness_RegisterWritesComplete :
    wOp.operational = true ∧ wOp.draft.stageAddr < 2 ^ 64 ∧ wOp.ord.regs.length = 64 ∧ (wOp.ord.regs.getD 63 {}).base < 2 ^ 64 ∧
      State.reset.operational = false ∧
      (let w := fun (v : Word) => ({ wOp with glb := { wOp.glb with ideRequired := v.getLsbD 16, limitMs := v.toNat % 2 ^ 16 } } : State)
       (w 7).linkUp = wOp.linkUp ∧ wOp.linkUp = true ∧ (w 0x10007).linkUp = false) ∧
      (let c := { wOp with glb := { wOp.glb with comp := [(0xE0FFF8, 5)] } }
       (c.compReg 0xE0FFF8).getD 0 < 2 ^ 64) := by decide +kernel
theorem test_witness_BadAccessIsIgnored :
    ∀ e ∈ [(0x20000, 2), (0x20004, 8), (0x200F8, 8)], wOp.answers e.1 = true ∧ wOp.badAccess e.1 e.2 = true := by decide +kernel
theorem test_witness_RingEnableClearsError :
    wOp.operational = true ∧ wOp.ord.regs.length = 64 ∧ wOp.core.rings.length = 64 ∧ (wOp.ord.regs.getD 63 {}).enable = false := by decide +kernel
theorem test_witness_TwinCommandsAct :
    let st := fun (p : PairState) => ({ wOp with twin := { state := p, beat := 12 } } : State)
    let held := ({ wOp with twin := { state := .absorbed, holds := true } } : State)
    let draining := ({ wOp with twin := { state := .sync, drain := some ({}, []) } } : State)
    wOp.operational = true ∧ wOp.bar0Busy = false ∧
    ((st .absorbed).twin.state = .absorbed ∧ (st .absorbed).twin.holds = false ∧ (st .absorbed).twin.absorbAt = none ∧
      (st .absorbed).twin.dropped = false ∧ (st .absorbed).pick.counter + 2 ≤ (st .absorbed).twin.beat) ∧
    (held.twin.state = .absorbed ∧ held.twin.holds = true) ∧ ((st .sync).twin.state = .sync ∧ (st .sync).twin.drain = none ∧ (st .sync).twin.drainDue = false) ∧
    (st .recopy).twin.state ∈ [PairState.sync, .recopy] ∧
    (let s := { wOp with twin := { pairAt := true } }
     s.operational = true ∧ s.twin.pairAt = true ∧ s.core.draft.isSome = true ∧ s.twin.state = .unpaired ∧ s.pick.phase = .span ∧
      s.core.running = [] ∧ s.thermalEmergency wCool = false ∧ s.mgt.waiting = []) ∧
    (let s := { wAt .sealed with twin := { state := .sync, drainDue := true } }
     s.operational = true ∧ s.twin.drainDue = true ∧ s.pick.phase = .sealed) ∧ draining.twin.drain = some ({}, []) ∧ draining.linkUp = true := by decide +kernel
theorem test_witness_CommandsIgnored :
    let d := fun (x : DraftState) => ({ wOp with draft := { state := x, applyBeat := 11 } } : State)
    wOp.operational = true ∧ (d .applied).draft.state ∈ [DraftState.empty, .applied] ∧ (d .checked).draft.state ≠ .armed ∧
    (d .rejected).draft.state ∈ [DraftState.empty, .loading, .checking, .rejected, .applied] ∧
    (d .checked).draft.applyBeat < (d .checked).pick.counter + 2 ∧ ({ wOp with twin := { pairAt := true } } : State).bar0Busy = true ∧
    wOp.twin.state ≠ .absorbed ∧ wOp.twin.state ≠ .sync ∧ wOp.twin.state ≠ .recopy ∧
    ({ wOp with twin := { state := .sync, drain := some ({}, []) } } : State).twin.drain.isSome = true ∧
    ({ wOp with twin := { state := .absorbed, beat := 11 } } : State).twin.beat < wOp.pick.counter + 2 := by decide +kernel

/-! ## Witnesses: the mailbox -/

/-- One command of each opcode of Table 18-4, at a value of its range. -/
def wCommands : List (Nat × Bytes) :=
  [(0x01, []), (0x02, []), (0x03, []), (0x04, [1, 0]), (0x10, [0, 0]), (0x11, [1]), (0x12, leBytes 2 1600), (0x13, [3]),
   (0x14, leBytes 2 48000), (0x15, [5]), (0x20, leBytes 8 4096 ++ leBytes 4 320), (0x21, [0, 1, 1, 0, 41]), (0x30, List.replicate 12 0),
   (0x31, []), (0x32, [0]), (0x33, []), (0x40, []), (0x41, List.replicate 260 0)]

/-- The tests of R502 and R503 pass each of them, in every state they are used in below. -/
theorem test_mailbox_accepts :
    ∀ s ∈ [wOp, { wOp with glb := { wOp.glb with state := .mgmtOnly } }, { wOp with glb := { wOp.glb with state := .recovery } }],
      ∀ e ∈ wCommands, MboxOk s (wMail e.2) e.1 := by unfold MboxOk; decide +kernel
theorem test_witness_MailboxReadsAnswer : ∀ e ∈ wCommands.take 4, MboxOk wOp (wMail e.2) e.1 := by unfold MboxOk; decide +kernel
theorem test_witness_BeatCommandsWait : wOp.beating = true ∧ wOp.imageBusy = false ∧ wOp.glb.state ≠ .warm ∧
    ∀ e ∈ [(Instr.reset (wMail [0, 0]), 0x10), (.powerLimit (wMail (leBytes 2 1600)), 0x12), (.imageActivate (wMail [0]), 0x32)],
      e ∈ [(Instr.reset (wMail [0, 0]), 0x10), (.powerLimit (wMail (leBytes 2 1600)), 0x12), (.imageActivate (wMail [0]), 0x32)] := by
  decide +kernel
theorem test_witness_BeatCommandsAtOnce :
    let s := ({ wOp with glb := { wOp.glb with state := .mgmtOnly }, flash := { verdict := some 0 } } : State)
    s.AtOnce ∧ s.activeCarts = 6 ∧ s.imageBusy = false ∧ s.flash.verdict = some 0 ∧ byteAt (s.request (wMail [0, 0]) 0x10).payload 0 = 0 := by
  unfold State.AtOnce; decide +kernel
theorem test_witness_WaitingCommandsTakeEffectAtTheBeat :
    let c : MboxCmd := ⟨wMail (leBytes 2 1600), 0, 0x12, leBytes 2 1600⟩
    let s := { wOp with mgt := { waiting := [c] } }
    let p : MboxCmd := ⟨wMail [0], 0, 0x11, [0]⟩
    let b := { wAt .sealed with glb := { wOp.glb with state := .standby }, mgt := { due := [p] } }
    (s.beating = true ∧ s.pick.phase = .span ∧ s.core.running = [] ∧ s.thermalEmergency wCool = false ∧ s.mgt.waiting = [c]) ∧
    (let at_ := fun (op : Nat) (pay : Bytes) => ({ wAt .sealed with mgt := { due := [⟨wMail pay, 0, op, pay⟩] } } : State)
     let rate := at_ 0x14 (leBytes 2 1000)
     let laser := at_ 0x15 [5]
     rate.beating = true ∧ rate.pick.phase = .sealed ∧ laser.beating = true ∧ laser.opt.warm = [] ∧ laser.activeCarts = 6) ∧
    (p.opcode = 0x11 ∧ b.mgt.due = [p] ∧ b.glb.state = .standby ∧ b.pick.phase = .sealed ∧ byteAt p.payload 0 = 0) := by decide +kernel
theorem test_witness_MailboxRefusals :
    let busy := { wOp with mgt := { longs := [⟨wMail [], 0, 0x30, []⟩] } }
    busy.sourceBusy (busy.request (wMail []) 0x01) = true ∧
    (let c := wOp.request (.mctp .pcieVdm 0 0 []) 0x40
     wOp.sourceBusy c = false ∧ smbusOnly 0x40 = true ∧ c.isSmbus = false) ∧
    (let c := wOp.request (wMail (leBytes 2 1599)) 0x12
     wOp.sourceBusy c = false ∧ (smbusOnly 0x12 = true → c.isSmbus = true) ∧ (c.plain && lengthOk c && argumentOk c) = false) := by decide +kernel
theorem test_witness_FlashCommandsBegin :
    let src := wMail (leBytes 8 4096 ++ leBytes 4 320)
    wOp.mgt.longs = [] ∧
    hostRead ⟨[(4096, wDraftBytes)]⟩ (fieldAt (wOp.request src 0x20).payload 0 8) (fieldAt (wOp.request src 0x20).payload 8 4) = some wDraftBytes ∧
    draftCheck wDraftBytes (fieldAt (wOp.request src 0x20).payload 8 4) (some wOp.geometry) none .none = none ∧
    wOp.glb.state ≠ .recovery ∧ ({ wOp with glb := { wOp.glb with state := .recovery } } : State).glb.state = .recovery ∧ fieldAt (wOp.request (wMail (List.replicate 12 0)) 0x30).payload 0 4 = 0 := by decide +kernel
theorem test_witness_ImageAndDebugCommands :
    wOp.verifySet wOp.flash.setA = 0x0C03 ∧
    (let s := { wOp with fw := { set := 0, opened := true, secVer := 1 } }
     s.fw.set = 0 ∧ s.fw.opened = true ∧ s.flash.rpmc < s.fw.secVer) ∧ wOp.fw.secVer ≤ wOp.flash.rpmc := by decide +kernel
theorem test_witness_FlashWritesEnd :
    let long := fun (op : Nat) => (⟨wMail [], 0, op, []⟩ : MboxCmd)
    let s := fun (op : Nat) => ({ wOp with mgt := { longs := [long op] }, flash := { pendDraft := some [], pendKey := some (0x0100, [41]) } } : State)
    ({ wOp with flash := { copying := true } } : State).flash.copying = true ∧ wOp.flash.copying = false ∧
    (∀ op ∈ [0x20, 0x21, 0x30], (s op).mgt.longs.find? (·.opcode = op) = some (long op)) ∧ (s 0x20).flash.pendDraft = some [] ∧
    (s 0x21).flash.pendKey = some (0x0100, [41]) ∧
    (let r := ({ wOp with glb := { state := .recovery }, flash := { writing := true } } : State)
     r.glb.state = .recovery ∧ r.flash.writing = true) := by decide +kernel

/-! ## Witnesses: the values free in Config -/

/-- An image set whose three images are empty and whose versions agree. -/
def wImage : Bytes :=
  let entry := fun (typ : Nat) (v : Bytes) => leBytes 1 typ ++ [0, 0, 0] ++ leBytes 4 1 ++ leBytes 4 0 ++ leBytes 4 0 ++ v ++ List.replicate 100 0
  let bounds := leBytes 4 1 ++ leBytes 4 1 ++ leBytes 4 0xFFFFFFFF
  leBytes 4 0x54464E4D ++ leBytes 2 1 ++ [0, 3] ++ leBytes 4 1 ++ leBytes 4 0
    ++ entry 1 bounds ++ entry 2 bounds ++ entry 3 (List.replicate 12 0) ++ List.replicate 624 0

/-- Where the free signature check accepts and the empty image hashes to zeros, the set passes R507. -/
theorem test_witness_verifySet (h : ∀ k m g, Config.verify k m g = true) (h2 : Config.sha512 [] = List.replicate 64 0)
    (h3 : bitOf 0xFFFFFFFF Config.stepping = true) :
    wOp.verifySet wImage = 0 ∧ manifestOk wImage 0 = true ∧ (∀ t ∈ [1, 2, 3], hashOk wImage t = true) ∧ compatOk wImage = true := by
  have a : manifestOk wImage 0 = true := by unfold manifestOk; simp only [h, Bool.and_true]; decide +kernel
  have e1 : imageEntry wImage 1 = some ((wImage.drop 0x10).take 128) := by decide +kernel
  have e2 : imageEntry wImage 2 = some ((wImage.drop 0x90).take 128) := by decide +kernel
  have e3 : imageEntry wImage 3 = some ((wImage.drop 0x110).take 128) := by decide +kernel
  have hash : ∀ t b, imageEntry wImage t = some b → fieldAt b 8 4 = 0 → fieldAt b 12 4 = 0 → (b.drop 64).take 64 = List.replicate 64 0 →
      hashOk wImage t = true := by
    intro t b hb o1 o2 o3
    unfold hashOk
    simp [hb, o1, o2, o3, h2]
  have b1 := hash 1 _ e1 (by decide +kernel) (by decide +kernel) (by decide +kernel)
  have b2 := hash 2 _ e2 (by decide +kernel) (by decide +kernel) (by decide +kernel)
  have b3 := hash 3 _ e3 (by decide +kernel) (by decide +kernel) (by decide +kernel)
  have c : compatOk wImage = true := by
    have g1 : fieldAt ((wImage.drop 0x10).take 128) 24 4 = 0xFFFFFFFF := by decide +kernel
    have g2 : fieldAt ((wImage.drop 0x90).take 128) 24 4 = 0xFFFFFFFF := by decide +kernel
    unfold compatOk
    simp only [e1, e2, g1, g2, h3, Bool.and_true, entryVersion, e3, Option.elim]
    decide +kernel
  have r : ¬ fieldAt wImage 8 4 < wOp.flash.rpmc := by decide +kernel
  refine ⟨?_, a, ?_, c⟩
  · unfold State.verifySet
    simp only [a, c, r, List.all_cons, List.all_nil, b1, b2, b3, Bool.and_true, Bool.not_true, Bool.or_false, if_false,
      Bool.false_eq_true]
  · intro t ht
    simp at ht
    rcases ht with rfl | rfl | rfl
    · exact b1
    · exact b2
    · exact b3

/-- A token that R511 accepts, where the free nonce, identity and signature check agree with it. -/
theorem test_witness_token (h : ∀ k m g, Config.verify k m g = true) (h2 : Config.nonce 0 = []) (h3 : Config.identityHash = List.replicate 64 0) :
    let s := { wOp with glb := { state := .mgmtOnly }, proto := { nonce := some 0 } }
    s.tokenOk (leBytes 4 0x4B544244 ++ [1, 2, 0, 0] ++ List.replicate 252 0) = true ∧ s.glb.state ∈ [ModState.mgmtOnly, .recovery] := by
  refine ⟨?_, by decide⟩
  unfold State.tokenOk
  simp only [h, h2, h3, Bool.and_true, Option.elim]
  decide +kernel

/-! ## Witnesses: orders -/

/-- An order of context handle `ctx` with its ARGS. -/
def wOrder (op ctx : Nat) (args : Bytes) : OrderSt :=
  { jno := 1, acc := 2 ^ 65, ring := 0, ringIndex := 0, seq := 1, client := 0, ctx := ctx, ctxField := ctx, opcode := op, sealBeat := 9
    bytes := leBytes 1 op ++ [0, 0, 0] ++ leBytes 2 ctx ++ [0, 0] ++ leBytes 8 1 ++ args ++ List.replicate (112 - args.length) 0 }

/-- An object of context 0 of some tile blocks, homed in stack 0. -/
def wObj (id cls blocks : Nat) : Obj :=
  { id := id, ctx := 0, cls := cls, single := false, format := 6, coding := 0, size := 16384 * blocks, rows := 0, cols := 0, stride := 0
    lifetime := 0, affinity := 15, farOk := false, pattern := 0, harness := 0, created := 1, homes := List.replicate blocks (.t2 0) }

/-- A pool of context 0: four rows, two sequences, no tree entry in use. -/
def wPool : KvPool :=
  { ctx := 0, rows := 4, layers := 1, maxSeq := 2, maxRows := 4, seed := 0, data := devAddr 0 0, table := devAddr 0 1048576
    tree := devAddr 0 2097152, tpp := 64, limit := 4, rowSt := List.replicate 4 (0, 0), seqs := [{}, {}], ents := List.replicate 4 {} }

/-- At the configuration step: context 0 of handle 256, one object, and an order to execute. -/
def wWith (o : OrderSt) : State :=
  { wAt .sealed with core := { draft := some wDraft, ctxs := (List.replicate 64 {}).set 0 { state := .idle, inc := 1 }
                               objs := [(0, wObj 5 2 256)], orders := [o] } }

/-- The same with a pool. -/
def wKv (o : OrderSt) (p : KvPool) : State := { wWith o with core := { (wWith o).core with pools := [p] } }

/-- Each opcode's order passes R108 and is ready. -/
theorem test_orders_ready :
    ∀ o ∈ [wOrder 0 0 [], wOrder 1 0 [0], wOrder 2 256 [], wOrder 3 256 [],
        wOrder 0x10 256 (leBytes 8 (devAddr 0 0) ++ leBytes 4 1), wOrder 0x10 256 [],
        wOrder 0x20 256 (leBytes 4 6 ++ [2, 0, 6, 0] ++ leBytes 8 16384), wOrder 0x20 256 (leBytes 4 6 ++ [2, 0, 6, 0] ++ leBytes 8 16384 ++
          List.replicate 17 0 ++ [1]),
        wOrder 0x21 256 (leBytes 4 5), wOrder 0x22 256 (leBytes 4 5 ++ [0xFF, 0xFF]), wOrder 0x22 256 (leBytes 4 5 ++ [0xFF, 2]),
        wOrder 0x23 256 (leBytes 4 5), wOrder 0x24 256 (leBytes 4 5),
        wOrder 0x30 256 (leBytes 4 1 ++ leBytes 2 1 ++ [0, 0] ++ leBytes 4 1 ++ leBytes 4 1 ++ leBytes 8 0 ++ leBytes 8 (devAddr 0 0) ++
          leBytes 8 (devAddr 0 1048576) ++ leBytes 8 (devAddr 0 2097152) ++ leBytes 4 1024)],
      OrderReady (wWith o) 1 o.opcode o := by unfold OrderReady; decide +kernel
theorem test_witness_NopCompletes : (wWith (wOrder 0 0 [])).atConfig = true := by decide +kernel
theorem test_witness_ContextIsCreated :
    let o := wOrder 1 0 [0]
    let s := wWith o
    s.atConfig = true ∧ s.core.draft = some wDraft ∧ wDraft.slot (o.arg 0x10 1) = some ⟨0, 0, 0, 0, 8⟩ ∧ s.mirroring = false ∧
    s.twin.holds = false ∧ o.ring < 64 ∧ s.core.resident < 64 ∧ s.core.jobs (byteAt o.bytes 2) < wDraft.jobLimits.getD (byteAt o.bytes 2) 0 ∧
    s.core.t2Used s.core.objs 0 + 8 * 1835008 ≤ (wDraft.tier 0).quota ∧ s.core.ctxs.length = 64 ∧ (s.core.ctx 1).state = .free ∧
    (∀ k < 1, (s.core.ctx k).state ≠ .free) ∧
    (let m := { s with twin := { state := .sync }
                       core := { s.core with draft := some { wDraft with twin := { wDraft.twin with mirror := true } } } }
     m.mirroring = true ∧ m.core.resident + ((m.twin.mirror.ctxs.filter (·.state ≠ .free)).length + (m.twinCreates 0x01).length) < 64 ∧
      getKey m.twin.mirror.slots 0 = none ∧ OrderReady m 1 0x01 o) := by unfold OrderReady; decide +kernel
theorem test_witness_ContextEndsOrStartsOver :
    let s := wWith (wOrder 2 256 [])
    let r := { wWith (wOrder 3 256 []) with pick := { phase := .latched } }
    (s.core.ctxOf 256 = some 0 ∧ s.core.ctxs.length = 64 ∧ s.atConfig = true) ∧
    (r.core.ctxOf 256 = some 0 ∧ r.core.ctxs.length = 64 ∧ r.operational = true ∧ r.pick.phase = .latched ∧ OrderReady r 1 3 (wOrder 3 256 []) ∧ r.core.faulting 0 = false) := by
  unfold OrderReady; decide +kernel
/-- A list of one vector task of 1,000 cycles, written in memory. -/
theorem test_witness_RunReleasesItsTasks :
    let o := wOrder 0x10 256 (leBytes 8 (devAddr 0 0) ++ leBytes 4 1)
    let d := leBytes 4 1000 ++ [0, 0, 0, 0, 2] ++ List.replicate 55 0
    let s := { wWith o with core := { (wWith o).core with
      mem := { cells := runCells (devAddr 0 0) d, sectors := [(devAddr 0 0 / 64, .valid)] } } }
    let raws := (List.range 1).map fun i => s.core.readAs 0 (o.arg 0x10 8 + 64 * i) 64
    s.atConfig = true ∧ s.core.ctxOf o.ctx = some 0 ∧ s.core.slotOf 0 = some ⟨0, 0, 0, 0, 8⟩ ∧ o.arg 0x18 4 = 1 ∧
    (∀ p ∈ raws.zipIdx, taskDescBad 8 p.2 p.1 = false ∧ s.core.engineDescBad 0 s.myAddr 0 (readTaskDesc p.1) = false) ∧
    (s.glb.filter = [] ∧ s.linkUp = true ∧ s.core.rangesBlocked (s.core.listRanges 0 o) = false ∧
      ∀ r ∈ s.core.listRanges 0 o, ∀ sec ∈ sectorsOf r.1 r.2, s.core.syndrome s.core.mem sec = 0) ∧
    (wOrder 0x10 256 []).arg 0x18 4 = 0 := by decide +kernel
theorem test_witness_ObjectIsCreated :
    let o := wOrder 0x20 256 (leBytes 4 6 ++ [2, 0, 6, 0] ++ leBytes 8 16384)
    let f := wOrder 0x20 256 (leBytes 4 6 ++ [2, 0, 6, 0] ++ leBytes 8 16384 ++ List.replicate 17 0 ++ [1])
    let s := wWith o
    s.atConfig = true ∧ s.core.ctxOf o.ctx = some 0 ∧ objCreateBad s.core (s.core.ctx 0).harness o = false ∧
    s.newHomes 0 o = some [.t2 0] ∧ o.wantsFill = false ∧ objCreateBad (wWith f).core ((wWith f).core.ctx 0).harness f = false ∧
    (wWith f).newHomes 0 f = some [.t2 0] ∧ f.wantsFill = true := by decide +kernel
theorem test_witness_ObjectOrdersAct :
    let h := wOrder 0x22 256 (leBytes 4 5 ++ [0xFF, 0xFF])
    let m := wOrder 0x22 256 (leBytes 4 5 ++ [0xFF, 2])
    let s := wWith h
    s.atConfig = true ∧ s.core.ctxOf h.ctx = some 0 ∧ s.core.objById 0 (h.arg 0x10 4) = some (0, wObj 5 2 256) ∧
    s.core.obj 0 = some (wObj 5 2 256) ∧ s.core.pools = [] ∧ h.arg 0x14 1 = 0xFF ∧ s.hintList 0 (wObj 5 2 256) h = [] ∧
    (wWith m).hintList 0 (wObj 5 2 256) m ≠ [] ∧ (wObj 5 2 256).homes.any (hintToT2 0xFF (affinityDies (h.hintAffinity (wObj 5 2 256)))) = false ∧
    (let far := { wObj 5 2 256 with homes := List.replicate 256 (.t3 0 false), farOk := true }
     let b := wOrder 0x22 256 (leBytes 4 5 ++ [0, 0xFF])
     let f := { wWith b with core := { (wWith b).core with
       objs := [(0, far)], draft := some { wDraft with tiers := [⟨0, false, 0, 1536, 0, 0, 0⟩] } } }
     OrderReady f 1 0x22 b ∧ f.core.objById 0 (b.arg 0x10 4) = some (0, far) ∧ f.hintList 0 far b = [] ∧
      far.homes.any (hintToT2 (b.arg 0x14 1) (affinityDies (b.hintAffinity far))) = true) ∧
    (∀ op ∈ [0x23, 0x24], (wWith (wOrder op 256 (leBytes 4 5))).core.loadStoreCheck 0 (wOrder op 256 (leBytes 4 5)) = .inr (0, wObj 5 2 256)) := by
  unfold OrderReady; decide +kernel
theorem test_witness_PoolsAreCreatedAndDestroyed :
    let o := wOrder 0x30 256 (leBytes 4 1 ++ leBytes 2 1 ++ [0, 0] ++ leBytes 4 1 ++ leBytes 4 1 ++ leBytes 8 0 ++ leBytes 8 (devAddr 0 0) ++
          leBytes 8 (devAddr 0 1048576) ++ leBytes 8 (devAddr 0 2097152) ++ leBytes 4 1024)
    (wWith o).atConfig = true ∧ (wWith o).core.ctxOf o.ctx = some 0 ∧ (wWith o).core.poolBad 0 o = false ∧
    KvReady (wKv (wOrder 0x31 256 []) wPool) 1 0x31 (wOrder 0x31 256 []) 0 wPool ∧ (∀ q ∈ wPool.seqs, q.state = .free) := by
  unfold KvReady OrderReady; decide +kernel
/-- A join of 63 tokens without hashes: one new row of four. -/
theorem test_witness_JoinTakesRows :
    let o := wOrder 0x32 256 (leBytes 4 1 ++ leBytes 4 63)
    let p := wPool.releasePins 10
    KvReady (wKv o wPool) 1 0x32 o 0 wPool ∧ 1 < wPool.maxSeq ∧ 1 < wPool.seqs.length ∧ (wPool.seq 1).state = .free ∧ o.tried = none ∧
    o.arg 0x10 4 = 1 ∧ 1 ≤ o.arg 0x14 4 ∧ ceilDiv (o.arg 0x14 4) wPool.tpp ≤ wPool.maxRows ∧
    p.hits ((wKv o wPool).core.hashList 0 (o.arg 0x18 8) (o.arg 0x14 4 / wPool.tpp)) 0 = [] ∧ ceilDiv 63 64 ≤ p.freeRows.length ∧
    (wKv o wPool).core.kvLeft.2 = false := by
  unfold KvReady OrderReady; decide +kernel
/-- Sequence 0 holds a full row; the fork is sequence 1. -/
theorem test_witness_ForkAndGrow :
    let p := { wPool with rowSt := [(1, 0), (0, 0), (0, 0), (0, 0)], seqs := [{ tokens := 64, state := .running, entries := [0] }, {}] }
    let f := wOrder 0x33 256 (leBytes 4 1 ++ leBytes 4 0)
    let g := wOrder 0x34 256 (leBytes 4 0 ++ leBytes 4 1)
    KvReady (wKv f p) 1 0x33 f 0 p ∧ f.arg 0x10 4 = 1 ∧ 1 < p.maxSeq ∧ 1 < p.seqs.length ∧ f.arg 0x14 4 < p.maxSeq ∧ (p.seq 1).state = .free ∧
    (p.seq 0).state = .running ∧ KvReady (wKv g p) 1 0x34 g 0 p ∧ p.growBad 0 (g.arg 0x14 4) = none ∧ 1 ≤ g.arg 0x14 4 ∧
    (p.seq 0).tokens % p.tpp = 0 ∧ ceilDiv ((p.seq 0).tokens + 1) p.tpp - (p.seq 0).entries.length ≤ p.freeRows.length := by
  unfold KvReady OrderReady; decide +kernel
theorem test_witness_SequencesEndAndPublish :
    let p := { wPool with rowSt := [(1, 0), (0, 0), (0, 0), (0, 0)], seqs := [{ tokens := 64, state := .running, entries := [0] }, {}] }
    let l := wOrder 0x35 256 (leBytes 4 0)
    let b := wOrder 0x36 256 (leBytes 4 0 ++ leBytes 4 1 ++ leBytes 8 (devAddr 0 0))
    let q := { wPool with seqs := [{ state := .deferred, pending := 64 }, {}] }
    let j := { wOrder 0x32 256 (leBytes 4 0 ++ leBytes 4 64) with tried := some 6, lastTry := some 10 }
    let g := { wOrder 0x34 256 (leBytes 4 0 ++ leBytes 4 1) with tried := some 5 }
    let s := { wKv g q with pick := { counter := 10 } }
    KvReady (wKv l p) 1 0x35 l 0 p ∧ (p.seq 0).state = .running ∧ KvReady (wKv b p) 1 0x36 b 0 p ∧ 1 ≤ b.arg 0x14 4 ∧
    b.arg 0x14 4 * p.tpp ≤ (p.seq 0).tokens ∧ b.arg 0x14 4 = 1 ∧
    j.lastTry = some (wKv j q).pick.counter ∧ 0 < q.seqs.length ∧
    ((wKv j q).core.order 1 = some j ∧ (wKv j q).core.ctxOf j.ctx = some 0 ∧ (wKv j q).core.pool 0 = some q ∧ (wKv j q).atConfig = true ∧
      6 + q.limit ≤ (wKv j q).pick.counter ∧ (q.seq 0).state = .deferred) ∧
    (s.core.order 1 = some g ∧ s.inSpan = true ∧ 5 + q.limit < s.pick.counter ∧ s.core.faulting 0 = false) := by
  unfold KvReady OrderReady; decide +kernel
/-- A publish of one row, whose hash 6 stands in memory: the tree lacks it, or holds it at its first probe. -/
theorem test_witness_PublishesOneRow :
    let p := { wPool with rowSt := [(1, 0), (0, 0), (0, 0), (0, 0)], seqs := [{ tokens := 64, state := .running, entries := [0] }, {}] }
    let b := wOrder 0x36 256 (leBytes 4 0 ++ leBytes 4 1 ++ leBytes 8 (devAddr 0 0))
    let w := wKv b p
    let w := { w with core := { w.core with mem := { cells := runCells (devAddr 0 0) (leBytes 8 6) } } }
    let h := (w.core.hashList 0 (b.arg 0x18 8) 1).getD 0 0
    let p0 := p.releasePins 10
    h = 6 ∧ KvReady w 1 0x36 b 0 p ∧ 2 < p.ents.length ∧ p0.search h 0 = none ∧ p0.slotFor h = some 2 ∧
    ({ p0 with ents := setAt p0.ents 2 { hash := 6, row := 0, parent := 0xFFFFFFFF, depth := 0, children := 0, lastUse := 0 } }.search h 0).isSome
      = true := by
  unfold KvReady OrderReady; decide +kernel

/-! ## Witnesses: tasks, memory, background work -/

/-- A task of 1,000 cycles on CU 0 for an engine. -/
def wTask (engine : Nat) (deps : List Nat) (ph : TaskPhase) : Task :=
  { desc := { length := 1000, undo := 4, cu := 0, engine := engine, deps := deps, code := 0, args := devAddr 0 0, live := 0 }, phase := ph }

/-- In the task span, context 0 holding its slot with the tasks of one RUN order, and memory. -/
def wTasks (ks : List Task) (mem : Memory) : State :=
  let o := { wOrder 0x10 256 [] with tasks := ks, checked := true, applied := true }
  { wOp with core := { draft := some wDraft, ctxs := (List.replicate 64 {}).set 0 { state := .holding, inc := 1 }
                       slots := (List.replicate 64 {}).set 0 { holder := some 0 }
                       objs := [(0, wObj 5 2 256), (1, wObj 6 1 1)], orders := [o], mem := mem, pools := [wPool] } }

theorem test_witness_TasksRunAndEnd :
    let s := wTasks [wTask 2 [] .waiting] {}
    let r := wTasks [wTask 2 [] .running] {}
    let d := wTasks [wTask 2 [] .ended, wTask 2 [0] .waiting] {}
    let late := wTasks [{ wTask 2 [] .running with startPick := 10 }] {}
    let at_ := fun (cycle : Nat) => ({ s with core := { s.core with cycle := cycle } } : State)
    let far := { r with core := { r.core with
      objs := [(0, { wObj 5 2 1 with homes := [.t3 0 false], farOk := true })], pm := { r.core.pm with writers := [(devAddr 0 0, 1)] } } }
    (late.inSpan = true ∧ (late.core.task ⟨1, 0⟩).map Task.startPick = some late.pick.counter ∧ late.core.taskCtx ⟨1, 0⟩ = some 0 ∧
      late.twin.holds = false) ∧
    (s.core.faulting 0 = false ∧ s.core.task ⟨1, 0⟩ = some (wTask 2 [] .waiting) ∧ s.core.taskCtx ⟨1, 0⟩ = some 0 ∧ s.inSpan = true ∧
      (at_ 877336).choose 0 .vector 877336 = some (⟨1, 0⟩, wTask 2 [] .waiting, 0) ∧ (at_ 877337).choose 0 .vector 877337 = none) ∧
    (r.core.task ⟨1, 0⟩ = some (wTask 2 [] .running) ∧ r.core.taskCtx ⟨1, 0⟩ = some 0 ∧ r.inSpan = true ∧ r.core.faulting 0 = false ∧
      (∀ ch, r.core.current ch = false) ∧ r.core.hindered ⟨1, 0⟩ = false ∧ r.core.farDue (r.core.farBlocks 1) = [] ∧
      ∃ o, r.core.order 1 = some o ∧ o.status = none ∧ o.tasks.length = 1) ∧
    (far.inSpan = true ∧ far.core.task ⟨1, 0⟩ = some (wTask 2 [] .running) ∧ far.core.taskCtx ⟨1, 0⟩ = some 0 ∧ far.core.faulting 0 = false ∧
      far.core.hindered ⟨1, 0⟩ = false ∧ far.linkUp = true ∧ (far.core.farDue (far.core.farBlocks 1)).length = 1) ∧
    (∀ ch, far.core.current ch = false) ∧
    (d.operational = true ∧ d.core.task ⟨1, 1⟩ = some (wTask 2 [0] .waiting) ∧ d.core.task ⟨1, 0⟩ = some (wTask 2 [] .ended) ∧
      d.core.taskCtx ⟨1, 1⟩ = some 0) := by
  refine ⟨by decide +kernel, by decide +kernel, ⟨?_, ?_, ?_, ?_, fun ch => ?_, ?_, ?_, _, rfl, ?_, ?_⟩, by decide +kernel, fun ch => ?_,
    by decide +kernel⟩
  case refine_5 => simp [Core.current, chan_at_rest (wTasks [wTask 2 [] .running] {}).core rfl ch]
  case refine_10 => unfold Core.current; rw [chan_at_rest _ rfl]; rfl
  all_goals decide +kernel
theorem test_witness_TaskWritesLand :
    let s := wTasks [wTask 2 [] .running] {}
    let a := s.core.resolve 0 (devAddr 0 16320)
    s.operational = true ∧ s.core.task ⟨1, 0⟩ = some (wTask 2 [] .running) ∧ s.core.taskCtx ⟨1, 0⟩ = some 0 ∧ s.twin.state = .unpaired ∧
    s.glb.filter = [] ∧ s.linkUp = true ∧ s.core.find 0 (devAddr 0 16320) 64 = some (0, wObj 5 2 256) ∧ (wObj 5 2 256).cls ≠ 1 ∧ s.core.faulting 0 = false ∧
    s.core.mem.wf ∧ blockOf (a + 64 - 1) = blockOf a ∧ (wObj 5 2 256).single = false ∧
    (s.core.touchRange (cuRegion 0) a 64).2 = true ∧ ¬ blockOf a ∈ s.core.pm.marks ∧ s.core.filledShadow 0 a = false ∧
    s.core.find 0 (devAddr 0 (16384 * 256)) 1 = none ∧ s.core.find 0 (devAddr 1 0) 64 = some (1, wObj 6 1 1) := by decide +kernel
/-- A line of a region cache that holds nothing yet. -/
def wT1 : T1Line := { line := 0, dirty := 0, written := false }
/-- Sector 0 valid, sector 1 poisoned, sector 2 failing. -/
def wSectors : Memory :=
  { sectors := [(devAddr 0 0 / 64, .valid), (devAddr 0 0 / 64 + 1, .bad 0xFFFFFFFF), (devAddr 0 0 / 64 + 2, .bad 5)] }
theorem test_witness_SectorsAreRead :
    let s := wTasks [wTask 2 [] .running] wSectors
    let w := { s with core := { s.core with objs := [(0, { wObj 5 2 256 with whole := [0] })] } }
    let rep : Repair := { sector := devAddr 0 0 / 64, reader := none, log := 0, fetch := true, ctx := 0 }
    let tw := { wOp with twin := { state := .sync, mirror := { mem := wSectors } } }
    (s.operational = true ∧ s.core.taskCtx ⟨1, 0⟩ = some 0 ∧ s.glb.filter = [] ∧ s.linkUp = true ∧ s.core.find 0 (devAddr 0 (16384 * 256)) 1 = none ∧
      s.core.find 0 (devAddr 0 0) 1 ≠ none ∧ s.core.repairs = []) ∧
    (let fr := { s.core with onchip := { s.core.onchip with frames := [⟨0, 0, [devAddr 1 0], none⟩] } }
     fr.find 0 (devAddr 1 64) 1 ≠ none ∧ fr.framed (some (.task ⟨1, 0⟩)) (devAddr 1 64) = true ∧
      fr.framed (some (.task ⟨1, 0⟩)) (devAddr 0 0) = false) ∧
    (s.core.task ⟨1, 0⟩ = some (wTask 2 [] .running) ∧ s.core.t1Holds (cuRegion 0) (devAddr 0 0) = false ∧
      s.core.framed (some (.task ⟨1, 0⟩)) (devAddr 0 0) = false ∧ s.core.readSource (some (.task ⟨1, 0⟩)) (devAddr 0 0) = s.core.mem ∧
      (s.core.cacheRead (cuRegion 0) (devAddr 0 0)).t1Holds (cuRegion 0) (devAddr 0 0) = true) ∧
    (∀ e ∈ [(0, 0), (64, 0xFFFFFFFF), (128, 5)],
      s.core.readSyndrome s.core.mem (devAddr 0 e.1 / 64) 0 = e.2 ∧ s.core.farAddr (devAddr 0 e.1) = none) ∧
    (w.integ.rate ≠ 0 ∧ devAddr 0 0 < mirrorBit ∧ (w.scrubItems 0)[w.integ.cursor.getD 0 0]? = some (.own (devAddr 0 0 / 64)) ∧
      w.core.syndrome w.core.mem (devAddr 0 0 / 64) = 0 ∧ w.integ.cursor.getD 0 0 + 1 < (w.scrubItems 0).length ∧
      w.integ.wraps.foldl min (w.integ.wraps.headD 0) ≤ w.integ.passes) ∧
    (s.core.ctxOfCu 0 = some 0 ∧ 0 < s.core.ctxs.length ∧ (s.noteFailure (.sram 0 64)).failedThrice (.sram 0 64) = false) ∧ wOp.twin.state ≠ .sync ∧
    (let hit := { s with core := { s.core with onchip := { s.core.onchip with crcHits := [(0, 64, 9), (0, 64, 8)] } } }
     hit.operational = true ∧ (hit.noteFailure (.sram 0 64)).failedThrice (.sram 0 64) = true) ∧
    (let line := fun (l : T1Line) => ({ s with core := { s.core with onchip := { s.core.onchip with t1 := (List.replicate 16 []).set 3 [l] } } } : State)
     let clean := { wT1 with line := devAddr 0 0 / 1024 }
     let dirty := { clean with dirty := 1 }
     ((line clean).noteFailure (.t1 3 (devAddr 0 0))).failedThrice (.t1 3 (devAddr 0 0)) = false ∧
      (∀ l ∈ (line clean).core.onchip.t1.getD 3 [], l.line = devAddr 0 0 / 1024 → l.dirty = 0 ∧ l.written = false) ∧
      ((line dirty).noteFailure (.t1 3 (devAddr 0 0))).failedThrice (.t1 3 (devAddr 0 0)) = false ∧
      dirty ∈ (line dirty).core.onchip.t1.getD 3 [] ∧ dirty.line = devAddr 0 0 / 1024 ∧ dirty.dirty ≠ 0 ∧
      (line dirty).core.obj (addrIndex (devAddr 0 0)) = some (wObj 5 2 256) ∧ (wObj 5 2 256).ctx < (line dirty).core.ctxs.length) ∧
    (tw.twin.state = .sync ∧ getKey tw.twin.mirror.mem.sectors (devAddr 0 0 / 64) = some .valid) ∧
    ({ s.core with repairs := [rep] } : Core).repairs.find? (fun r => r.sector = devAddr 0 0 / 64 && r.fetch) = some rep ∧
    s.glb.hostWaits = [] ∧ s.core.waits = [] ∧ getKey s.core.pm.parts (devAddr 0 0 / 64) = none ∧
    wOp.core.running = [] := by decide +kernel
theorem test_witness_BackgroundWorkEnds :
    let o := { wOrder 0x20 256 [] with checked := true, applied := true }
    let f := { wWith o with pick := { counter := 10 } }
    let ob := { wObj 5 2 256 with filling := true, fillOrder := some 1, whole := List.range 256 }
    let s := { f with core := { f.core with objs := [(0, ob)], pools := [{ wPool with copying := true }] } }
    let m : Move := ⟨0, 3, .t2 6, false, 1⟩
    let run := { wOrder 0x10 256 (List.replicate 24 0 ++ leBytes 8 64) with status := some (0, 0) }
    let ld := { wOrder 0x23 256 (leBytes 4 5 ++ leBytes 4 0 ++ leBytes 8 0 ++ leBytes 8 4096 ++ leBytes 8 16384) with applied := true }
    let st := { wOrder 0x24 256 (leBytes 4 5 ++ leBytes 4 0 ++ leBytes 8 0 ++ leBytes 8 4096 ++ leBytes 8 16384) with applied := true }
    (s.operational = true ∧ s.pick.phase = .span ∧ s.glb.filter = [] ∧ s.linkUp = true ∧ s.core.obj 0 = some ob ∧ ob.filling = true ∧ ob.fillOrder = some 1 ∧
      s.core.order 1 = some o ∧ o.status = none ∧ ob.size ≤ 2 ^ 40 ∧ s.core.pool 0 = some { wPool with copying := true } ∧
      (s.core.landBlocks 0 (some 1) true (((List.range ob.blocks).filter fun t => !ob.whole.contains t).map fun t =>
        (devAddr 0 (16384 * t), fillBlock (ob.format ≠ 6) ob.pattern))).2 = []) ∧
    (let c := { f.core with moves := [m] }
     c.moves.find? (fun m => m.obj = 0 && m.blk = 3 && !m.copied) = some m ∧ (c.takeShadow (devAddr 0 (16384 * 3))).isSome = true) ∧
    (let c := ({ ctxs := (List.replicate 64 {}).set 63 { state := .saving } } : Core)
     63 < c.ctxs.length ∧ (c.ctx 63).state = .saving) ∧
    (let c := ({ ctxs := (List.replicate 64 {}).set 63 { state := .holding, saved := some ([], []), restoring := true } } : Core)
     63 < c.ctxs.length ∧ (c.ctx 63).saved = some ([], []) ∧ (c.ctx 63).restoring = true ∧ ∀ y ∈ c.ctxs, y.state = .saving → y.slot ≠ (c.ctx 63).slot) ∧
    (run.opcode = 0x10 ∧ run.status.isSome = true ∧ run.arg 0x28 8 ≠ 0) ∧
    (f.core.ctxOf ld.ctx = some 0 ∧ ld.applied = true ∧ ld.status = none ∧ f.core.loadStoreCheck 0 ld = .inr (0, wObj 5 2 256) ∧
      (hostRead ⟨[(4096, List.replicate 16384 1)]⟩ (ld.arg 0x20 8) 64).isSome = true ∧ hostRead ⟨[]⟩ (ld.arg 0x20 8) (ld.arg 0x28 8) = none) ∧
    (f.core.loadStoreCheck 0 st = .inr (0, wObj 5 2 256) ∧ getKey ({ f.core with stores := [(1, [])] } : Core).stores 1 = some []) := by
  decide +kernel

/-- The one block of a load has landed before, finds no shadow block, or is homed in tier 3; a store's range is clean. -/
theorem test_witness_LoadsLandOrWait :
    let ld := { wOrder 0x23 256 (leBytes 4 5 ++ leBytes 4 0 ++ leBytes 8 0 ++ leBytes 8 4096 ++ leBytes 8 16384) with applied := true }
    let data : Bytes := List.replicate 16384 1
    let blks := (List.range (data.length / 16384)).map fun k => (devAddr 0 0 + 16384 * k, (data.drop (16384 * k)).take 16384)
    let c := (wWith ld).core
    let full := { c with pm := { c.pm with free := List.replicate 24 0 } }
    (c.landBlocks 0 (some 1) false (blks.filter fun w => !([devAddr 0 0] : List Nat).contains w.1)).2 = [] ∧
    (full.landBlocks 0 (some 1) false (blks.filter fun w => !ld.landed.contains w.1)).2 ≠ [] ∧
    (c.landBlocks 0 (some 1) false blks).1.farDue (blks.map Prod.fst) = [] ∧
    (let far := { c with objs := [(0, { wObj 5 2 256 with homes := List.replicate 256 (.t3 0 false), farOk := true })] }
     let r := far.landBlocks 0 (some 1) false blks
     r.2 = [] ∧ (r.1.farDue (blks.map Prod.fst)).length = 1) ∧
    (let m := { c with mem := { sectors := (List.range 256).map fun i => (devAddr 0 0 / 64 + i, SectorSt.valid) } }
     m.faulting 0 = false ∧ m.rangesBlocked [(devAddr 0 0, 16384)] = false ∧
      ∀ sec ∈ sectorsOf (devAddr 0 0) 16384, m.syndrome m.mem sec = 0) := by decide +kernel

/-! ## Witnesses: vector unit and image instructions -/

/-- A task of CU 0 on the vector unit, and words in its local SRAM. -/
def wVec (ws : List Nat) : State :=
  let s := wTasks [wTask 2 [] .running] {}
  { s with core := { s.core with onchip := { sram := runCells 0 (packVals 4 ws) } } }

theorem test_witness_OnCu : OnCu (wVec []) ⟨1, 0⟩ (wTask 2 [] .running) := by unfold OnCu; decide +kernel
theorem test_witness_VectorCommandsRun :
    (wVec []).core.taskCtx ⟨1, 0⟩ = some 0 ∧ VecOp.add ≠ .clearFlags ∧ 1 ≤ 65536 ∧ 65536 ≤ 65536 ∧
    0 + vecOut .add 393216 ≤ sramBytes ∧ 0 + vecOut .readFlags 0 ≤ sramBytes ∧ 0 + 16 * 65536 ≤ sramBytes ∧ 0 + 4 * 393216 ≤ sramBytes ∧ sramBytes < 0 + 4 * 393217 ∧
    4 + 8 ≤ sramBytes ∧ 0 + 4 * (128 + 2) ≤ sramBytes := by decide +kernel
theorem test_witness_RowResults :
    let s := wVec [1, 2, 3, 0, 0, 0]
    (s.core.sramRow s.pick.counter 0 12 (1 + 2)).getD (1 + 1) 0 = 0 ∧
    (∀ v ∈ s.core.sramRow s.pick.counter 0 0 (1 + 2) ++ s.core.sramRow s.pick.counter 0 12 (1 + 2), isNan32 v = false) ∧
    (s.core.sramRow s.pick.counter 0 8 (2 + 2)).getD (2 + 1) 0 = 0 := by decide +kernel
theorem test_witness_ConstantRowHasNoVariance :
    let s := wVec [0x40490FDB, 0x40490FDB, 0x40490FDB]
    1 ≤ 3 ∧ 16 + 8 ≤ sramBytes ∧ 0 + 4 * 3 ≤ sramBytes ∧ s.core.sramRow s.pick.counter 0 0 3 = List.replicate 3 0x40490FDB ∧
    notFinite32 0x40490FDB = false := by decide +kernel
theorem test_witness_VarianceIsNeverNegative :
    let s := wVec [0x3F800000, 0x7F800000]
    let l := wVec [0, 0x40000000, 2, 0]
    1 ≤ 2 ∧ 16 + 8 ≤ sramBytes ∧ 0 + 4 * 2 ≤ sramBytes ∧ 0 + 16 * 1 ≤ sramBytes ∧
    (((List.range 1).map (readChunk (l.core.sramRow l.pick.counter 0 0 (4 * 1)))).map ChunkStat.n).sum ≤ 2 ^ 24 ∧
    ∃ e ∈ s.core.sramRow s.pick.counter 0 0 2, notFinite32 e = true := by
  refine ⟨by decide, by decide, by decide, by decide, by decide +kernel, 0x7F800000, ?_, ?_⟩ <;> decide +kernel
theorem test_witness_PinsCountUpToTheirLimit :
    let p := { wPool with rowSt := [(1, 65535), (0, 0), (0, 0), (0, 0)] }
    let s := wVec []
    let s := { s with core := { s.core with pools := [p] } }
    s.core.taskCtx ⟨1, 0⟩ = some 0 ∧ s.core.pool 0 = some p ∧ 0 < p.rows ∧ 0 < p.rowSt.length ∧ p.refs 0 ≠ 0 ∧ p.rows ≤ 4 ∧ p.refs 3 = 0 := by
  decide +kernel

/-- A MAXPOOL descriptor of a 1 × 1 image of 64 channels, and a CROP of it with one box. -/
def wImgDesc (op : Nat) : Bytes :=
  [BitVec.ofNat 8 op, 0] ++ (if op = 5 then [0, 0, 0, 0, 1, 1] else [1, 1, 1, 1, 1, 1]) ++ List.replicate 8 0 ++ leBytes 4 1 ++ leBytes 2 1 ++ leBytes 2 1
    ++ leBytes 4 64 ++ leBytes 2 1 ++ leBytes 2 1 ++ leBytes 8 (devAddr 0 0) ++ leBytes 8 (devAddr 0 16384) ++ leBytes 4 1 ++ leBytes 4 1
    ++ leBytes 8 (if op = 5 then devAddr 0 32768 else 0)
/-- The descriptor at the start of local SRAM, a BF16 object whose first pixel is written, and a box list of one box in memory. -/
def wImage2 (op fmt : Nat) (on : Bool) : State :=
  let l := leBytes 4 1 ++ List.replicate 92 0
  let secs := [0, 1, 512, 513].map fun i => (devAddr 0 0 / 64 + i, SectorSt.valid)
  let s := wTasks [wTask 2 [] .running] { cells := runCells (devAddr 0 0) (List.replicate 128 1) ++ runCells (devAddr 0 32768) l, sectors := secs }
  { s with core := { s.core with
      draft := some { wDraft with funcs := [⟨0, if on then 1 else 0, 1, 1, 4096, 4⟩] }
      objs := [(0, { wObj 5 2 256 with format := fmt })], onchip := { sram := runCells 0 (wImgDesc op) } } }
theorem test_witness_ImageInstructionsIssue :
    let on := fun (s : State) => s.core.draft.elim false fun d => bitOf (d.func (s.core.ctx 0).harness).flags 0
    let desc := fun (s : State) => readImg (s.core.sramRead s.pick.counter 0 0 64)
    let s := wImage2 3 0 true
    let c := wImage2 5 0 true
    let box := devAddr 0 32768
    let l := c.core.readAs 0 box 96
    s.core.taskCtx ⟨1, 0⟩ = some 0 ∧ s.glb.filter = [] ∧ s.linkUp = true ∧ on (wImage2 3 0 false) = false ∧ on s = true ∧ (desc s).op = 3 ∧
    (wImage2 3 6 true).core.imgFormatBad 0 (desc s) = true ∧ (desc s).badMode = false ∧ s.core.imgFormatBad 0 (desc s) = false ∧
    (∀ w ∈ [s, c], w.core.faulting 0 = false ∧ w.core.repairs = [] ∧ w.core.pm.shadow = [] ∧ w.twin.state = .unpaired ∧
      w.core.resolve 0 (desc w).src = devAddr 0 0 ∧ w.core.resolve 0 (desc w).dst = devAddr 0 16384) ∧
    s.core.imgRangeBad 0 (desc s) 0 = false ∧ (({ s with core := { s.core with objs := [(0, { wObj 5 2 1 with format := 0 })] } } : State).core.imgRangeBad 0
      (desc s) 0 = true) ∧
    ((desc c).op = 5 ∧ (desc c).badMode = false ∧ c.core.imgFormatBad 0 (desc c) = false ∧ (desc c).box = box ∧ c.core.resolve 0 box = box ∧
      box % 64 = 0 ∧ c.core.inObj 0 box 96 = true ∧ c.core.imgRangeBad 0 (desc c) 1 = false ∧ c.core.readNat 0 box 4 = 1 ∧ zeroAt l 8 56 = true ∧
      (∀ b ∈ (List.range 1).map (readBox l), b.ok = true ∧ b.img < (desc c).n)) := by
  decide +kernel
/-- `ImageReady` as tests that evaluate. -/
theorem imageReady_of (s : State) (x cu : Nat) (d : ImgDesc) (boxes : List Box) (extra : Nat) (list : List Nat)
    (h1 : stagingBytes ≤ s.core.sramFree cu)
    (h2 : ∀ sec ∈ list ++ d.source boxes extra, s.core.syndrome s.core.mem sec = 0 ∧
      ¬ blockOf (64 * sec) ∈ ((d.writes boxes extra (s.core.imgBits x d)).flatMap fun w => blocksOf w.1 w.2.length).eraseDups)
    (h3 : ∀ w ∈ d.writes boxes extra (s.core.imgBits x d), ((s.core.find x w.1 w.2.length).elim false fun p => p.2.cls ≠ 1) = true)
    (h4 : ∀ b ∈ ((d.writes boxes extra (s.core.imgBits x d)).flatMap fun w => blocksOf w.1 w.2.length).eraseDups,
      ¬ b ∈ s.core.pm.marks ∧ s.core.homeOf b = some (.t2 0) ∧
        ((d.writes boxes extra (s.core.imgBits x d)).flatMap fun w => blocksOf w.1 w.2.length).eraseDups.length ≤ s.core.pm.free.getD 0 0) :
    ImageReady s x cu d boxes extra list := by
  refine ⟨h1, h2, fun w hw => ?_, fun b hb => ⟨(h4 b hb).1, fun st hs => ?_⟩⟩
  · have h := h3 w hw
    cases hf : s.core.find x w.1 w.2.length with
    | none => simp [hf] at h
    | some p => exact ⟨p.1, p.2, rfl, by simpa [hf] using h⟩
  · rw [(h4 b hb).2.1] at hs
    cases hs
    exact (h4 b hb).2.2
/-- Both find what their effect takes. -/
theorem test_image_ready :
    (let s := wImage2 3 0 true
     ImageReady s 0 0 (readImg (s.core.sramRead s.pick.counter 0 0 64)) [] 0 []) ∧
    (let c := wImage2 5 0 true
     let l := c.core.readAs 0 (devAddr 0 32768) 96
     ImageReady c 0 0 (readImg (c.core.sramRead c.pick.counter 0 0 64)) ((List.range 1).map (readBox l)) (fieldAt l 4 4)
       (sectorsOf (devAddr 0 32768) 96)) := by
  constructor <;> apply imageReady_of <;> decide +kernel

/-! ## Witnesses: collectives, fabric, time -/

/-- A collective header of 64 bytes with its CRC (Table 10-4). -/
def wHeader : Bytes := let b := List.replicate 60 0; b ++ leBytes 4 (crc32c b)
/-- Channel 63 holds two matching tasks of context 0 and this module's header. -/
def wChan (hdr : Bytes) : State :=
  let s := wTasks [wTask 3 [] .running] {}
  { s with core := { s.core with chans := (List.replicate 64 {}).set 63 { state := .header, parts := [⟨1, 0⟩], hdr := hdr } } }
/-- A gather by two members of which no piece has landed. -/
def wGather : State :=
  let d := [2, 0, 0, 0] ++ leBytes 2 1 ++ [0, 1] ++ leBytes 8 16 ++ leBytes 8 (devAddr 0 0) ++ leBytes 8 (devAddr 0 65536) ++ leBytes 8 128
    ++ List.replicate 24 0
  let s := wTasks [wTask 0 [] .waiting, { wTask 3 [0] .running with desc := { (wTask 3 [0] .running).desc with args := devAddr 0 32768 } }]
    { cells := runCells (devAddr 0 32768) d }
  { s with core := { s.core with
      groups := [{ id := 1, epoch := 1, members := [0, 8], counts := [] }]
      chans := (List.replicate 64 {}).set 0 { state := .data, group := 1, parts := [⟨1, 1⟩] } } }
theorem test_witness_CollectivesProceed :
    let s := wChan []
    let h := wChan wHeader
    let l := { wOp with pick := { counter := 2149, self := true }, reed := { losses := [(8, 100, none)] } }
    (s.operational = true ∧ (List.replicate 63 (0 : Byte)).length ≠ 64 ∧ crc32c ((List.replicate 64 0).take 0x3C) ≠ fieldAt (List.replicate 64 0) 0x3C 4 ∧
      headerReserved (List.replicate 64 (1 : Byte)) = true) ∧
    (wHeader.length = 64 ∧ headerReserved wHeader = false ∧ crc32c (wHeader.take 0x3C) = fieldAt wHeader 0x3C 4 ∧ byteAt wHeader 0xB ≠ 0x80 ∧ wOp.core.chans.length = 64 ∧
      wOp.reed.holds = [] ∧ (∀ g ∈ wOp.core.groups, g.served = false) ∧ wOp.core.current 63 = false ∧ h.core.fromMember 63 8 = false ∧ (wOp.core.chan 63).held.length < 4096) ∧
    (h.core.chans.length = 64 ∧ (h.core.chan 63).parts = [⟨1, 0⟩] ∧ h.core.taskCtx ⟨1, 0⟩ = some 0 ∧ h.core.current 63 = true ∧
      s.core.current 63 = false ∧ 65535 < 65536 ∧ 1 ≠ (h.core.chan 63).inst) ∧
    (l.pick.self = true ∧ l.reed.lossWait ≠ 0 ∧ l.reed.losses = [(8, 100, none)] ∧ 100 + 1 + l.reed.lossWait ≤ l.pick.counter ∧ l.reed.drops = []) := by
  decide +kernel
theorem test_witness_GatherPiece :
    let c := wGather.core
    (c.chan 0).state = .data ∧ c.chans.length = 64 ∧ (wGather.inst 0).elim false (fun i =>
      let slot := (pieceSpans i.d.ty ((c.chan 0).rankCounts i.n i.d.k)).getD 0 (0, 0)
      let ws := i.parts.map fun q => (q.1, [(q.2.recv + slot.1, (List.replicate 64 7).take slot.2)])
      i.d.op = 2 && decide (1 < i.np) && (c.chan 0).pieces.isEmpty && (c.partOutside i.x ws).isNone &&
        (c.engineWrites i.x (ws.flatMap Prod.snd)).isSome) = true := by decide +kernel

/-- A frame of no payload for module 0 that is next in order (Table 16-2). -/
def wFrame (seq : Nat) (typ : Byte := 6) : Bytes :=
  let b := [typ, 0, 0, 0] ++ leBytes 4 seq ++ leBytes 2 0 ++ leBytes 2 8 ++ leBytes 4 0
  b ++ leBytes 4 (crc32c b)
/-- Port 15 up, with what its replay buffer holds. -/
def wPort (k : Port) : State := { wOp with opt := { wOp.opt with ports := (List.replicate 18 {}).set 15 k } }
theorem test_witness_FramesAreAcknowledged :
    let s := wPort { state := .up }
    let r := wPort { state := .up, replay := [⟨5, [], 7, none⟩] }
    let e := wPort { state := .up, replay := [⟨5, [], 8, none⟩] }
    (s.opt.ports.length = 18 ∧ (s.port 15).state = .up ∧ (s.port 15).replay = [] ∧ s.opt.detour = none ∧ s.beating = true) ∧
    (frameBad 15 [] = true ∧ frameBad 15 (wFrame 0) = false ∧ fieldAt (wFrame 1) 4 4 ≠ (s.port 15).rxSeq ∧
      fieldAt (wFrame 0) 4 4 = (s.port 15).rxSeq ∧ fieldAt (wFrame 0) 8 2 = s.myAddr ∧ fieldAt (wFrame 0) 0xC 4 < 2 ^ 31 ∧
      byteAt (wFrame 0) 0 ∉ [0, 3, 4, 5]) ∧ (frameBad 15 (wFrame 0 3) = false ∧ fieldAt (wFrame 0 3) 4 4 = (s.port 15).rxSeq ∧
      fieldAt (wFrame 0 3) 0xC 4 < 2 ^ 31 ∧ byteAt (wFrame 0 3) 0 = 3) ∧
    ((r.port 15).state = .up ∧ (∀ x ∈ (r.port 15).replay, x.up = none ∧ x.sends < 8 ∧ seqBelow x.seq 0 = false) ∧ (r.port 15).replay ≠ []) ∧
    ((e.port 15).replay = [⟨5, [], 8, none⟩]) ∧ s.heldFrom 15 = [] ∧ s.opt.stranded = [] ∧ s.reed.absorbed = [] ∧
    (let h := wPort { state := .up, rxSeq := 9, replay := [⟨5, [], 1, some (15, 7)⟩] }
     h.heldFrom 15 = [7] ∧ (h.port 15).rxSeq = 9) ∧ s.reed.losses = [] ∧ s.reed.lossKind ≠ 3 ∧
    (let n := { wPort { state := .up, neighbor := 8 } with reed := { losses := [(9, 4, none)] } }
     (n.port 15).neighbor = 8 ∧ n.operational = true ∧ (n.port 15).replay = [] ∧
      (∀ q < 16, q ≠ 15 → (n.port q).neighbor ≠ 8 ∨ (n.port q).state ≠ .up) ∧ (twinAddr 8, 4, none) ∈ n.reed.losses ∧
      (∀ e ∈ n.reed.losses, e.1 ≠ 8) ∧ 8 ≠ twinAddr n.myAddr ∧ 8 ≠ n.myAddr) := by decide +kernel
/-- An identify frame from the neighbor that port 15 of module 0 expects. -/
def wIdentify : Bytes :=
  leBytes 2 (wOp.expected 15).1 ++ [2, 2, 2, 2] ++ leBytes 1 (wOp.expected 15).2 ++ [0] ++ leBytes 4 0x11520A48 ++ List.replicate 52 0
theorem test_witness_PortsTrain :
    let as_ := fun (st : PortState) => wPort { state := st, lanes := 0xFF }
    (∀ st ∈ [PortState.train, .identify, .measure, .failed, .up], (as_ st).opt.ports.length = 18 ∧ (as_ st).beating = true ∧ ((as_ st).port 15).state = st) ∧
    (wIdentify.length = 64 ∧ zeroAt wIdentify 7 1 = true ∧ zeroAt wIdentify 0xC 52 = true ∧ fieldAt wIdentify 0 2 = ((as_ .train).expected 15).1 ∧
      byteAt wIdentify 6 = ((as_ .train).expected 15).2 ∧ (List.range 4).map (fun i => byteAt wIdentify (2 + i)) = (as_ .train).glb.axes ∧
      fieldAt wIdentify 8 4 = 0x11520A48 ∧ fieldAt wIdentify 0 2 < 4096 ∧ byteAt wIdentify 6 < 18) ∧
    (let b := List.replicate 64 (0 : Byte)
     b.length = 64 ∧ zeroAt b 7 1 = true ∧ zeroAt b 0xC 52 = true ∧ fieldAt b 8 4 ≠ 0x11520A48) ∧
    ((as_ .up).port 15).lanes.testBit 7 = true ∧ (as_ .train).operational = true ∧
    ((as_ .train).port 15).disabled = false ∧ ((wPort { disabled := true }).port 15).disabled = true := by decide +kernel
theorem test_witness_CartridgesAndDieLinks :
    let s := wOp
    let one := fun (st : CartState) => ({ wOp with opt := { carts := (List.replicate 6 .active).set 5 st } } : State)
    s.opt.carts.length = 6 ∧ s.beating = true ∧ s.opt.carts[5]? = some .active ∧ 6 ≤ s.activeCarts ∧
    (∀ st ∈ [CartState.warming, .failed, .safe, .absent], (one st).opt.carts.length = 6 ∧ (one st).opt.carts[5]? = some st ∧ 5 ∉ (one st).opt.warm) ∧
    5 ≤ (one .warming).activeCarts ∧ s.integ.linkFail.getD 7 0 < 16 ∧ 7 < s.integ.link.length ∧
    (let b := List.replicate 252 (3 : Byte)
     dieFrameOk (b ++ leBytes 4 (crc32c b)) = true ∧ dieFrameOk (b ++ leBytes 4 (crc32c b + 1)) = false) := by decide +kernel
/-- A marker of the leader at module 8, beat 41, depth 1. -/
def wMarker (depth : Nat) : Bytes :=
  leBytes 8 41 ++ leBytes 4 0 ++ leBytes 4 0 ++ leBytes 1 depth ++ [0] ++ leBytes 2 8 ++ leBytes 2 50 ++ [12, 0] ++ leBytes 2 8 ++ leBytes 2 0
    ++ List.replicate 36 0
theorem test_witness_TimeIsShared :
    let j := { wPort { state := .up } with glb := { wOp.glb with address := [0, 0, 0, 1], state := .mgmtOnly }, pick := { joining := true } }
    let f := { wPort { state := .up } with pick := { counter := 41, leader := some 8, parent := some 15 } }
    let l := { wOp with pick := { counter := 41, self := true, leader := some 9 } }
    let m := { wOp with glb := { wOp.glb with address := [0, 0, 0, 1] }, pick := { counter := 41, leader := some 0, missed := 6 } }
    ((j.port 15).state = .up ∧ markerBad (wMarker 1) = false ∧ j.pick.joining = true ∧ byteAt (wMarker 1) 0x10 ≠ 0xFF ∧ j.myAddr ≠ 0 ∧
      j.proto.scope = 0 ∧ j.linkUp = true ∧ j.leadsAs = none) ∧
    (f.operational = true ∧ f.pick.joining = false ∧ (f.port 15).state = .up ∧ f.pick.leader = some (fieldAt (wMarker 1) 0x12 2) ∧
      f.pick.self = false ∧ f.pick.seen = [] ∧
      (let theta : Int := i32 (fieldAt (wMarker 1) 0xC 4) - (40000 - fieldAt (wMarker 1) 8 4 - (f.port 15).latency);
       (-40000 ≤ theta ∧ theta ≤ 40000))) ∧
    (f.beating = true ∧ f.pick.parent = some 15 ∧ f.pick.leader = some 8 ∧ f.pick.phase = .span) ∧ l.beating = true ∧
    (l.operational = true ∧ l.pick.self = true ∧ l.takesOver 0 1 = false) ∧
    (m.operational = true ∧ 6 ≤ m.pick.missed ∧ m.pick.self = false ∧ m.isMine 0 = false ∧ 1 ≠ 0 ∧
      0 = nodeIndex m.glb.axes (unpackAddr 1) ∧ m.leaderRank 1 ≤ m.leaderRank m.myAddr ∧ m.takesOver 0 1 = true) := by decide +kernel

/-! ## Witnesses: twin, host link, starts, power, protocols -/

/-- A module at (0, 0, 0, 0) of a mirroring pair, in a pair state. -/
def wPair (t : Twin) : State :=
  { wOp with core := { draft := some { wDraft with twin := { wDraft.twin with mirror := true } } }, twin := t
             opt := { wOp.opt with ports := List.replicate 16 {} ++ [{ state := .up }, { state := .up }] } }
theorem test_witness_TwinExchanges :
    let s := { wPair { state := .handshake } with fw := { manifest := wImage, genVer := 1, seqVer := 1 } }
    let f := ({ s with glb := { s.glb with address := [0, 0, 0, 1] } } : State).hello
    let b := leBytes 60 (7 + 2 ^ (8 * 0x23))
    let e := b ++ leBytes 4 (crc32c b)
    let je := readEntry e []
    let blk : CopiedBlock := ⟨devAddr 0 0, List.replicate 64 1, []⟩
    let r := fun (t : Twin) => ({ wWith (wOrder 0 0 []) with twin := { t with state := .recopy } } : State)
    let noRoom := fun (t : State) => ({ t with core := { t.core with pm := { t.core.pm with free := List.replicate 24 0 } } } : State)
    let y := fun (m : Mirror) (d : Option (Memory × List (Nat × Obj))) => wPair { state := .sync, mirror := m, drain := d }
    let item := HeldItem.block 4 blk
    let m : Mirror := { released := [4], items := [item] }
    let o := { wTasks [] {} with twin := { state := .sync } }
    let formOk := fun (f : Bytes) => decide (f.length = 64) && decide (crc32c (f.take 0x3C) = fieldAt f 0x3C 4) && decide (byteAt f 0x28 ≤ 2) && zeroAt f 0x2A 18
    (s.operational = true ∧ s.twin.state = .handshake ∧ formOk f = true ∧ formOk s.hello = true ∧ s.helloCheck f = 0 ∧ s.helloCheck s.hello ≠ 0) ∧
    (let u := wPair {}
     u.operational = true ∧ u.twin.state = .unpaired ∧ formOk u.hello = true ∧ u.helloCheck u.hello ≠ 0) ∧
    ((y m none).twin.state = .sync ∧ e.length = 64 ∧ crc32c (e.take 0x3C) = fieldAt e 0x3C 4 ∧ entryReserved e = false ∧ (o.core.order 1).isSome = true ∧
      (r {}).twin.state = .recopy ∧
      (let p := { y { arrived := [je] } none with pick := { wOp.pick with phase := .placed } }
       p.operational = true ∧ p.twin.state = .sync ∧ p.pick.phase = .placed ∧ p.twin.mirror.arrived = [je])) ∧
    (((y m none).mirrorWrites [.copy blk]).isSome = true ∧ ((noRoom (y m none)).mirrorWrites [.copy blk]).isSome = false ∧
      (wOp.core.takePool (wOp.twin.mirror.stackOf blk.addr)).isSome = true ∧ blockOf (blk.addr + blk.data.length - 1) = blockOf blk.addr) ∧
    ((r { matched := true }).twin.matched = true ∧ ((r {}).mirrorWrites ([blk].map .copy)).isSome = true ∧
      (r {}).core.obj (addrIndex blk.addr) = some (wObj 5 2 256) ∧ (r {}).core.holds blk.addr blk.data = false ∧
      ((r {}).core.shadowCopy 0 blk).2 = true ∧ (noRoom (r {})).core.holds blk.addr blk.data = false ∧
      ((noRoom (r {})).core.shadowCopy 0 blk).2 = false ∧ (r { recopied := true }).twin.recopied = true ∧
      (0 : Word).toNat = (r { recopied := true }).releasedDigest 3) ∧
    ((y m none).twin.mirror.released.find? (fun j => !(y m none).twin.mirror.finished.contains j) = some 4 ∧ m.compare = false ∧
      m.left.find? (fun i => itemJno i = 4) = some item ∧ (y m none).twin.drainHolds (m.itemWrites item) = false ∧
      ((y m none).mirrorWrites (m.itemWrites item)).isSome = true ∧ ((noRoom (y m none)).mirrorWrites (m.itemWrites item)).isSome = false ∧
      (y m (some ({}, [(0, wObj 5 2 256)]))).twin.drainHolds (m.itemWrites item) = true ∧
      ({ released := [4] } : Mirror).left.find? (fun i => itemJno i = 4) = none) ∧
    ((0 : Word).toNat = (y m none).releasedDigest 3 ∧ (1 : Word).toNat ≠ (y m none).releasedDigest 3) ∧
    (s.opt.ports.length = 18 ∧ s.selvedgeUp 0 = true ∧ s.selvedgeUp 1 = true) := by decide +kernel
theorem test_witness_TwinIsLostOrHeld :
    (wPair { state := .sync }).operational = true ∧ (wPair { state := .sync }).twin.state = .sync ∧ (wPair { state := .sync }).twin.holdMs ≠ 0 ∧
    (wPair { state := .hold }).twin.state = .hold := by decide +kernel
/-- A committed decoder of 256 MiB at 2^40 with an aperture of 2 MiB onto an object. -/
def wHost (cls : Nat) : State :=
  { wOp with glb := { wOp.glb with hdmBase := 2 ^ 40, hdmSize := 1, hdmOn := true }
             core := { draft := some wDraft, objs := [(0, wObj 5 cls 128)], mem := { sectors := [((devAddr 0 0 + 2 ^ 21 - 64) / 64, .valid)] }
                       apertures := (List.replicate 256 (0, 0)).set 255 (2 ^ 40, devAddr 0 0 + 1) } }
theorem test_witness_HostLinkAnswers :
    let s := wHost 2
    let hpa := 2 ^ 40 + 2 ^ 21 - 64
    (s.glb.up = true ∧ s.operational = true ∧ linkOk 16 2 = true ∧ linkOk 2 0 = true ∧ State.reset.glb.ready = false) ∧
    (let i := { wOp with glb := { wOp.glb with ideCm := true } }
     (i.glb.ideIo = true ∨ i.glb.ideCm = true) ∧ i.glb.skid = false) ∧
    (s.hdmHit hpa = true ∧ s.aperture hpa = some (devAddr 0 (2 ^ 21 - 64), wObj 5 2 128) ∧ s.core.syndrome s.core.mem (devAddr 0 (2 ^ 21 - 64) / 64) = 0 ∧
      s.core.repairs = [] ∧ s.glb.filter.length < 8388608 ∧ s.core.waits = [] ∧ s.glb.hostWaits = [] ∧ s.core.running = []) ∧
    (s.hdmHit (2 ^ 40 + 2 ^ 28 - 64) = true ∧ s.aperture (2 ^ 40 + 2 ^ 28 - 64) = none) ∧
    ((List.replicate 64 true).all id = true ∧ (wObj 5 1 128).cls ≤ 1 ∧ 2 ≤ (wObj 5 2 128).cls ∧
      (wHost 1).aperture hpa = some (devAddr 0 (2 ^ 21 - 64), wObj 5 1 128)) ∧
    (let d := { s with glb := { s.glb with state := .standby } }
     d.operational = false ∧ d.hdmHit hpa = true) ∧
    (let d := { s with glb := { s.glb with up := false } }
     d.operational = true ∧ d.hdmHit hpa = true ∧ d.linkUp = false ∧ (d.aperture hpa).isSome = true ∧ d.aperture (2 ^ 40 + 2 ^ 28 - 64) = none) ∧
    s.linkUp = true ∧ getKey s.core.pm.parts (devAddr 0 (2 ^ 21 - 64) / 64) = none := by decide +kernel
/-- A full snoop filter that does not hold the line. -/
theorem test_filter_full :
    let s := { wHost 2 with glb := { (wHost 2).glb with filter := List.replicate 8388608 (1, true) } }
    s.operational = true ∧ s.linkUp = true ∧ (s.aperture (2 ^ 40 + 2 ^ 21 - 64)).isSome = true ∧ s.filterFull (devAddr 0 (2 ^ 21 - 64) / 64) = true := by
  refine ⟨by decide +kernel, by decide +kernel, by decide +kernel, ?_⟩
  have h : devAddr 0 (2 ^ 21 - 64) / 64 ≠ 1 := by decide +kernel
  show (!((List.replicate 8388608 ((1 : Nat), true)).any fun e => decide (e.1 = devAddr 0 (2 ^ 21 - 64) / 64)) &&
    decide (8388608 ≤ (List.replicate 8388608 ((1 : Nat), true)).length)) = true
  rw [List.length_replicate, Bool.and_eq_true]
  refine ⟨?_, by decide⟩
  rw [Bool.not_eq_true', List.any_eq_false]
  intro e he hc
  rw [List.eq_of_mem_replicate he] at hc
  exact h (of_decide_eq_true hc).symm
theorem test_witness_FaultsQuiesce :
    let bad := { wOp with integ := { linkFail := (List.replicate 8 0).set 7 16 } }
    let crc := { wOp with core := { wOp.core with onchip := { crcHits := [0, 1, 2].map fun i => (0, 64, 10 - i) } } }
    let ide := { wOp with glb := { wOp.glb with ideIo := true, skid := true } }
    let worse := { wOp with integ := { linkFail := (List.replicate 8 0).set 7 17 } }
    wOp.operational = true ∧ 16 ≤ bad.integ.linkFail.getD 7 0 ∧ 17 ≤ worse.integ.linkFail.getD 7 0 ∧ dieFrameOk [] = false ∧ isModuleFault 0x0F02 = true ∧ isEmergency 0x0E04 = true ∧
    (let d := { wOp with glb := { wOp.glb with up := false } }
     d.linkUp = false ∧ d.glb.limitMs ≠ 0) ∧
    8 ≤ ({ wOp with pick := { wOp.pick with late := 8 } } : State).pick.late ∧ wOp.pick.self = false ∧
    (∀ p < 16, (wOp.port p).state ≠ .up) ∧ 2 ≤ crc.pick.counter ∧
    (∀ i ≤ 2, ((locKey (.sram 0 64)).1, (locKey (.sram 0 64)).2, crc.pick.counter - i) ∈ crc.core.onchip.crcHits) ∧
    (ide.glb.ideIo = true ∧ ide.glb.skid = true) ∧ ({ wOp with power := { on := true } } : State).power.on = true := by decide +kernel
/-- What a start that finds nothing wrong finds. -/
def wCold : ColdObs :=
  { railsOk := true, straps := 0, flashOk := true, pufOk := true, hbmFail := none, bistFail := none, answers := [], portsUp := []
    lambdas := [], cxl := none, twinHolds := false, lasers := [], ideUp := false, marker := none }
/-- A module about to start: its set A, its address, and its failed-start count. -/
def wStart (count : Nat) : State :=
  { glb := { state := .cold }
    flash := { setA := wImage, settings := { a := some (1, settingBytes [⟨1, [0, 0, 2, 2, 2, 2, 0, 0]⟩]) }
               boot := { a := some (1, [BitVec.ofNat 8 count, 0, 0, 0, 0, 0]) } } }
theorem test_witness_StartsProceed :
    let s := wStart 2
    let ok : WarmObs := ⟨true, true, true, true, false, false, none⟩
    let w := { wOp with glb := { state := .warm } }
    (s.glb.state = .cold ∧ wCold.railsOk = true ∧ wCold.flashOk = true ∧ wCold.marker = none ∧ 6 ≤ byteAt (wStart 6).bootRec 0) ∧
    (byteAt s.bootRec 0 ≤ 2 ∧ s.bootRec.length = 6 ∧ s.flash.setA = wImage ∧ s.flash.rpmc ≤ fieldAt s.flash.setA 8 4 ∧
      wCold.pufOk = true ∧ wCold.hbmFail = none ∧ wCold.bistFail = none ∧ failingChecker wCold.answers = none ∧ addressOk (s.setting 0x0001) = true ∧
      wCold.cxl = none) ∧
    (w.glb.state = .warm ∧ ok.inTime = true ∧ ok.trainingOk = true ∧ ok.reserveOk = true ∧ ok.faultFree = true ∧ ok.holdsTwin = false ∧
      ok.marker = none ∧ w.fw.activate = false) := by decide +kernel
theorem test_witness_PowerIsTracked :
    let r : Readings := { wCool with pIn4 := 1000, dieP4 := 500 }
    let s := { wOp with pick := { step := 1 } }
    let inp : Input := { inRange := true, qualified := true, charged := true, connected := true }
    let p := { wOp with power := { inputs := [inp, inp], on := true } }
    wOp.thermalEmergency r = false ∧
    (s.beating = true ∧ s.mgt.cap < s.pick.step ∧ s.mgt.latchAt = none ∧ s.mgt.target ≤ s.pick.step ∧ hotAt r 901 851 651 = false ∧ 100 * r.pIn4 ≤ 95 * s.mgt.limitW ∧
      withinLimit r.pIn4 r.dieP4 s.mgt.limitW s.pick.step (s.pick.step - 1) = true) ∧
    (p.power.inputs[1]? = some inp ∧ inp.inRange = true ∧ inp.seated = true ∧ inp.qualified = true ∧ p.power.on = true ∧
      p.power.inputs[0]? = some inp ∧ p.beating = true ∧ (40000 : Int) ≤ 40000 ∧ (60000 : Int) ≤ 60000 ∧ (39999 : Int) < 40000) ∧
    (∀ f ∈ [{ wOp.flash with writing := true, copying := false }, { wOp.flash with copying := true }, wOp.flash],
      ({ wOp with power := { lost := true }, flash := f } : State).power.lost = true) ∧ wOp.flash.writing = false ∧ wOp.flash.copying = false := by
  decide +kernel
theorem test_witness_PldmAnswers :
    let upd := fun (n : Nat) => ({ wOp with proto := { update := n }, flash := { verdict := some 0 } } : State)
    8 ≤ 8 ∧ 254 < 255 ∧ 255 ≤ 255 ∧ 1 ≤ 1 ∧ 6 ∈ [0, 1, 5, 6, 0x7E, 0xFF] ∧ 2 ∉ [0, 1, 5, 6, 0x7E, 0xFF] ∧ 5 ∈ [0, 2, 5] ∧
    1600 ≤ 3200 ∧ wOp.beatsAhead = true ∧ ({ wOp with glb := { wOp.glb with state := .mgmtOnly } } : State).beatsAhead = false ∧
    (2 : Nat) ≠ 1 ∧ 1599 < 1600 ∧ 1 ∉ [0, 2, 5] ∧ wOp.flash.verdict ≠ some 0 ∧ (upd 0).proto.update = 0 ∧ (upd 2).proto.update = 2 ∧ (upd 3).proto.update = 3 ∧
    (upd 3).flash.verdict = some 0 ∧ (upd 1).proto.update ≠ 0 := by decide +kernel
theorem test_witness_SpdmAnswers :
    let as_ := fun (st : SpdmState) => ({ wOp with proto := { spdm := [st, st], ideKeys := [some [], some []] } } : State)
    (∀ st ∈ [SpdmState.none, .negotiated, .handshake, .session], (as_ st).spdmAt true = st ∧ (as_ st).spdmAt false = st) ∧
    (as_ .session).fw.akErased = false ∧ 8 < 9 ∧ (9 : Nat) ≠ 0xFF ∧ (1 : Nat) ≠ 0 ∧ ({ as_ .negotiated with fw := { akErased := true } } : State).fw.akErased = true ∧
    (as_ .session).ideSession = true ∧ (as_ .session).proto.ideKeys[1]? = some (some []) ∧
    (as_ .session).glb.hostWaits = [] ∧ (as_ .session).core.waits = [] ∧ (as_ .session).core.running = [] := by decide +kernel

/-! ## Single commands, with results worked out by hand from the spec -/

/-- The words of a row of CU 0 after a command of the vector unit. -/
def wAfter (c : Instr) (s : State) (off n : Nat) : List Nat :=
  match exec c s with
  | .next t => t.core.sramRow t.pick.counter 0 off n
  | _ => []

/-- 1 + 2 = 3 and −0 + +0 = +0 to nearest-even; 1 ÷ 0 = +∞, 0 ÷ 0 is the canonical NaN (R172). -/
theorem test_vector_add : wAfter (.vectorOp ⟨1, 0⟩ .add .nearestEven none 2 64 0 8 0) (wVec [0x3F800000, 0x80000000, 0x40000000, 0]) 64 2 =
    [0x40400000, 0] := by decide +kernel
theorem test_vector_div : wAfter (.vectorOp ⟨1, 0⟩ .div .nearestEven none 2 64 0 8 0) (wVec [0x3F800000, 0, 0, 0]) 64 2 =
    [0x7F800000, 0x7FC00000] := by decide +kernel
/-- 1 + 2⁻²⁴ is halfway between 1 and its successor: to even it is 1, upward the successor. -/
theorem test_vector_rounding :
    wAfter (.vectorOp ⟨1, 0⟩ .add .nearestEven none 1 64 0 4 0) (wVec [0x3F800000, 0x33800000]) 64 1 = [0x3F800000] ∧
    wAfter (.vectorOp ⟨1, 0⟩ .add .up none 1 64 0 4 0) (wVec [0x3F800000, 0x33800000]) 64 1 = [0x3F800001] := by decide +kernel
/-- 0xFFFFFFFF + 1 wraps to 0. -/
theorem test_vector_wraps : wAfter (.vectorOp ⟨1, 0⟩ .iadd .nearestEven none 1 64 0 4 0) (wVec [0xFFFFFFFF, 1]) 64 1 = [0] := by decide +kernel
/-- A row of 3.0, 5.0 has mean 4.0 and variance 1.0 (R182). -/
theorem test_rowstat : wAfter (.rowstat ⟨1, 0⟩ (.row false) 2 64 0) (wVec [0x40400000, 0x40A00000]) 64 2 = [0x40800000, 0x3F800000] := by decide +kernel
/-- The sum of 1, 2 and 3 is 6; their greatest is 3. -/
theorem test_row_reduction :
    wAfter (.rowReduction ⟨1, 0⟩ ⟨.sum, .nearestEven⟩ 3 64 0 0) (wVec [0x3F800000, 0x40000000, 0x40400000]) 64 1 = [0x40C00000] ∧
    wAfter (.rowReduction ⟨1, 0⟩ ⟨.max, .nearestEven⟩ 3 64 0 0) (wVec [0x3F800000, 0x40000000, 0x40400000]) 64 1 = [0x40400000] := by decide +kernel
/-- Two spans of one row merge by the greater maximum (R197): m = 2, l = 1 and m = 2, l = 1 give l = 2 and the sum of o. -/
theorem test_smerge : wAfter (.smerge ⟨1, 0⟩ 1 0 12)
    (wVec [0x3F800000, 0x40000000, 0x3F800000, 0x40400000, 0x40000000, 0x3F800000]) 4 1 = [0x40000000] := by decide +kernel

/-- Table 2-3's steps run in order: an opened window is sampled, a step out of turn changes nothing (log entry 7). -/
theorem test_beat_order :
    (match exec (.ringSample ⟨[]⟩) (wAt .opened) with | .next t => t.pick.phase | _ => .span) = .sampled ∧
    (match exec .commitStep (wAt .opened) with | .next t => decide (t = wAt .opened) | _ => false) = true := by decide +kernel
/-- The commit step counts the pick (R48). -/
theorem test_commit_counts : (match exec .commitStep (wAt .latched) with | .next t => t.pick.counter | _ => 0) = 11 := by decide +kernel
/-- A handle holds the incarnation in [15:8] and the index in [5:0] (R121): index 1, incarnation 1. -/
theorem test_ctx_create :
    (match exec (.ctxCreate 1) (wWith (wOrder 1 0 [0])) with | .next t => (t.core.order 1).bind OrderSt.status | _ => none) = some (0, 0x0101) := by
  decide +kernel
/-- A first object stands at index 0 in stack 0, a second in index 1 (R318, R337). -/
theorem test_obj_create :
    (match exec (.objCreate 1) (wWith (wOrder 0x20 256 (leBytes 4 6 ++ [2, 0, 6, 0] ++ leBytes 8 16384))) with
     | .next t => ((t.core.obj 1).map Obj.homes, (t.core.order 1).bind OrderSt.status) | _ => (none, none)) = (some [.t2 0], some (0, 1)) := by
  decide +kernel
/-- `FW_COMMIT` raises the counter (R509), and answers 3 where it is not above. -/
theorem test_fw_commit :
    (match exec (.fwCommit (wMail [])) { wOp with fw := { set := 0, opened := true, secVer := 3 } } with | .next t => t.flash.rpmc | _ => 0) = 3 ∧
    (match exec (.fwCommit (wMail [])) wOp with | .next t => t.flash.rpmc | _ => 1) = 0 := by decide +kernel
/-- `KVPIN` saturates at 65,535 (R236). -/
theorem test_kvpin :
    (match exec (.kvpin ⟨1, 0⟩ 0) (let s := wVec []
        { s with core := { s.core with pools := [{ wPool with rowSt := [(1, 65535), (0, 0), (0, 0), (0, 0)] }] } }) with
     | .next t => (t.core.pool 0).map fun p => p.rowSt.getD 0 (0, 0) | _ => none) = some (1, 65535) := by decide +kernel
/-- Members of group 20 of the worked example of chapter 10: extents 8 of A and 2 of D make 16. -/
theorem test_group_members : GroupDef.memberCount ⟨20, 9, 0, [(0, 8, 1), (0, 0, 0), (0, 0, 0), (0, 2, 1)]⟩ = 16 := by decide
/-- The CRC-32C of the nine ASCII digits is 0xE3069283 (the polynomial's published check value). -/
theorem test_crc : crc32c [0x31, 0x32, 0x33, 0x34, 0x35, 0x36, 0x37, 0x38, 0x39] = 0xE3069283 := by decide +kernel

/-- The worked example of R456: a flow that would cross the lost module, and one to its address, which goes to its twin. -/
theorem test_detours :
    flowPath [8, 2, 2, 2] (some [3, 0, 0, 1]) [2, 0, 0, 1] [4, 0, 0, 1] = [[2, 0, 0, 0], [3, 0, 0, 0], [4, 0, 0, 0], [4, 0, 0, 1]] ∧
    flowPath [8, 2, 2, 2] (some [3, 0, 0, 1]) [2, 0, 0, 1] [3, 0, 0, 0] = [[2, 0, 0, 0], [3, 0, 0, 0]] := by decide +kernel

end Sys2Proof.Machine
end

section
/-! PROOF. What a write to a whole 64-bit register does (R7, R8, R429, R430), said once for every block, and the statement that such
writes complete. -/

namespace Sys2Proof.Machine

/-! ### The value that a whole-register write leaves -/

/-- A write that covers the register replaces its 64 bits; a held value's part above them is no part of the register. -/
theorem mergeReg_whole (old x : Nat) : mergeReg old (2 ^ 64 - 1) x = 2 ^ 64 * (old / 2 ^ 64) + x % 2 ^ 64 := by
  have hland (a : Nat) : Nat.land a (2 ^ 64 - 1) = a % 2 ^ 64 := Nat.and_two_pow_sub_one_eq_mod a 64
  have hhigh : old - old % 2 ^ 64 = 2 ^ 64 * (old / 2 ^ 64) := by omega
  rw [mergeReg, hland, hland, hhigh, Nat.two_pow_add_eq_or_of_lt (Nat.mod_lt _ (by decide))]
  rfl

/-- A register that holds 64 bits takes the value written. -/
theorem mergeReg_whole_of_lt {old : Nat} (h : old < 2 ^ 64) (v : Word) : mergeReg old (2 ^ 64 - 1) v.toNat = v.toNat := by
  have := v.isLt
  rw [mergeReg_whole]
  omega

/-- Each of its bits is the bit written. -/
theorem bitOf_mergeReg_whole (old : Nat) (v : Word) {i : Nat} (hi : i < 64) :
    bitOf (mergeReg old (2 ^ 64 - 1) v.toNat) i = v.getLsbD i := by
  rw [bitOf, mergeReg_whole, Nat.mod_eq_of_lt v.isLt, Nat.testBit_two_pow_mul_add _ v.isLt, if_pos hi, BitVec.testBit_toNat]

/-- A field from bit 0 up is the field written. -/
theorem bits_mergeReg_whole (old : Nat) (v : Word) {hi : Nat} (h : hi < 64) :
    bits (mergeReg old (2 ^ 64 - 1) v.toNat) hi 0 = v.toNat % 2 ^ (hi + 1) := by
  have hdvd : 2 ^ (hi + 1) ∣ 2 ^ 64 * (old / 2 ^ 64) := Nat.dvd_mul_right_of_dvd (Nat.pow_dvd_pow 2 h) _
  rw [bits, mergeReg_whole, Nat.mod_eq_of_lt v.isLt, Nat.pow_zero, Nat.div_one, Nat.sub_zero, Nat.add_mod,
    Nat.mod_eq_zero_of_dvd hdvd, Nat.zero_add, Nat.mod_mod]

/-- A key reads back what was put in it, also in a list whose keys do not rise: the entry goes before or in place of every one that a
read could meet first. -/
theorem getKey_putKey_self {α : Type} (l : List (Nat × α)) (k : Nat) (v : α) : getKey (putKey l k v) k = some v := by
  induction l with
  | nil => simp [putKey, getKey]
  | cons p l ih =>
    obtain ⟨k', v'⟩ := p
    simp only [putKey]
    split
    · simp [getKey]
    · split
      · simp [getKey]
      · next hne => simpa [getKey, hne] using ih

/-! ### Which registers answer -/

theorem State.msixReg_of_lt (s : State) {off : Nat} (h : off < 0xF00000) : s.msixReg off = none := by
  have h1 : ¬ 0xF00000 ≤ off := by omega
  have h2 : ¬ 0xF80000 ≤ off := by omega
  simp [State.msixReg, h1, h2]

theorem componentReg_of_lt {off : Nat} (h : off < 0xE00000) : componentReg off = false := by
  have : ¬ 0xE00000 ≤ off := by omega
  simp [componentReg, this]

/-- Every block answers in operational state (R430). -/
theorem State.answers_of_operational {s : State} (h : s.operational = true) (off : Nat) : s.answers off = true := by
  simp [State.answers, h]

/-- `GLB` answers in every state (R430). -/
theorem State.answers_glb (s : State) {off : Nat} (h : off < 0x10000) : s.answers off = true := by
  simp [State.answers, Nat.div_eq_of_lt h]

/-- The CXL component registers answer in every state. -/
theorem State.answers_component (s : State) {off : Nat} (h : componentReg off = true) : s.answers off = true := by
  simp [State.answers, h]

/-! ### The command, by where its offset lies -/

/-- A block that does not answer drops a write (R430). -/
theorem registerWrite_dropped {s : State} {off : Nat} (h : s.answers off = false) (size : Nat) (v : Word) :
    Runs (.registerWrite off size v) s s := by
  show execRegisterWrite off size v s = _
  simp [execRegisterWrite, h]

/-- A write to a whole register of a block that answers is that block's write. -/
theorem registerWrite_block {s : State} {off : Nat} (v : Word) (ha : s.answers off = true) (h8 : off % 8 = 0) (hlt : off < 0xE00000)
    (hr : (s.blockReg off).isSome = true) :
    Runs (.registerWrite off 8 v) s (s.writeBlock off (2 ^ 64 - 1) v.toNat) := by
  have hword : off / 8 * 8 = off := by omega
  have hval : laneValue off 8 v.toNat = v.toNat := Nat.mod_eq_of_lt v.isLt
  have hgood : s.badAccess off 8 = false := by simp [State.badAccess, h8, hword, Option.isSome_iff_ne_none.mp hr]
  show execRegisterWrite off 8 v s = _
  simp [execRegisterWrite, ha, hgood, hword, hval, laneMask, componentReg_of_lt hlt, s.msixReg_of_lt (by omega : off < 0xF00000)]

/-- A write to a whole CXL component register. -/
theorem registerWrite_component (s : State) {off : Nat} (v : Word) (hc : componentReg off = true) (h8 : off % 8 = 0) :
    Runs (.registerWrite off 8 v) s (s.writeComp off (2 ^ 64 - 1) v.toNat) := by
  have hword : off / 8 * 8 = off := by omega
  have hval : laneValue off 8 v.toNat = v.toNat := Nat.mod_eq_of_lt v.isLt
  have hgood : s.badAccess off 8 = false := by simp [State.badAccess, h8, hc]
  show execRegisterWrite off 8 v s = _
  simp [execRegisterWrite, s.answers_component hc, hgood, hword, hval, laneMask, hc]

/-! ### Component registers -/

/-- They lie in no block from `GLB` to `FLOG`, nor in the MSI-X structures (Table 15-5). -/
theorem State.readReg_component (s : State) {off : Nat} (hc : componentReg off = true) : s.readReg off = s.compReg off := by
  have hrange : 0xE00000 ≤ off ∧ off < 0xE10000 := by simpa [componentReg] using hc
  have hdiv : off / 0x10000 = 0xE0 := by omega
  have hblock : s.blockReg off = none := by simp [State.blockReg, hdiv]
  have hmsix : s.msixReg off = none := s.msixReg_of_lt (by omega)
  simp [State.readReg, s.answers_component hc, hblock, hmsix]

/-- A component register reads back what the write left in it (log entry 200). -/
theorem State.readReg_writeComp (s : State) {off : Nat} (hc : componentReg off = true) (m x : Nat) :
    (s.writeComp off m x).readReg off =
      some (Config.componentWrite off ((s.compReg off).getD 0) (mergeReg ((s.compReg off).getD 0) m x) % 2 ^ 64) := by
  rw [State.readReg_component _ hc, State.compReg, if_pos hc, State.writeComp, getKey_putKey_self, Option.getD_some]

/-! ### `GLB_LINK_POLICY`, at offset 0x20 -/

/-- The two fields of the register at 0x20 of `GLB` taken from the value written. -/
def State.linkPolicy (s : State) (v : Word) : State :=
  { s with glb := { s.glb with ideRequired := v.getLsbD 16, limitMs := v.toNat % 2 ^ 16 } }

theorem State.writeGlb_linkPolicy (s : State) (v : Word) :
    s.writeGlb 0x20 (2 ^ 64 - 1) v.toNat =
      if s.linkUp = (s.linkPolicy v).linkUp then s.linkPolicy v else s.linkTurn (s.linkPolicy v) := by
  simp only [State.writeGlb, bitOf_mergeReg_whole _ v (by decide : 16 < 64), bits_mergeReg_whole _ v (by decide : 15 < 64)]
  rfl

theorem registerWrite_linkPolicy (s : State) (v : Word) :
    Runs (.registerWrite 0x20 8 v) s
      (if s.linkUp = (s.linkPolicy v).linkUp then s.linkPolicy v else s.linkTurn (s.linkPolicy v)) := by
  rw [← s.writeGlb_linkPolicy v]
  exact registerWrite_block v (s.answers_glb (by decide)) rfl (by decide) rfl

/-- The host link going down in operational state is reported (R428, R444). -/
theorem State.linkTurn_down {s t : State} (hs : s.operational = true) (ht : t.operational = true) (hup : s.linkUp = true)
    (hdown : t.linkUp = false) : s.linkTurn t = (t.report 0x0D20 0).glbEvent 1 := by
  simp [State.linkTurn, State.noteDown, hs, ht, hup, hdown]

/-- Where the link stays as it is, the write changes its two fields alone. -/
theorem registerWrite_linkPolicy_same (s : State) (v : Word) (h : (s.linkPolicy v).linkUp = s.linkUp) :
    Runs (.registerWrite 0x20 8 v) s (s.linkPolicy v) := by
  have hrun := registerWrite_linkPolicy s v
  rwa [if_pos h.symm] at hrun

/-- Where the write takes the link down, the fields are written, the event bit is set, and the report waits for its commit step. -/
theorem registerWrite_linkPolicy_down (s : State) (v : Word) (hup : s.linkUp = true) (hdown : (s.linkPolicy v).linkUp = false)
    (hop : s.operational = true) :
    ∃ u, Runs (.registerWrite 0x20 8 v) s u ∧ u.glb = { (s.linkPolicy v).glb with event := orBit s.glb.event 1 } ∧
      u.core = s.core ∧ (s.beating = true → u.flog.waiting = s.flog.waiting ++ [s.reportEntry 0x0D20 0]) := by
  have hop' : (s.linkPolicy v).operational = true := hop
  have hrun := registerWrite_linkPolicy s v
  rw [if_neg (by simp [hup, hdown]), State.linkTurn_down hop hop' hup hdown] at hrun
  refine ⟨_, hrun, ?_, ?_, ?_⟩
  · have hglb := (s.linkPolicy v).report_glb 0x0D20 0
    simp only [State.glbEvent, State.noteEvent_glb, hglb]
    rfl
  · rw [State.glbEvent_core, State.report_core]
    rfl
  · intro hbeat
    have hbeat' : (s.linkPolicy v).beating = true := hbeat
    rw [State.glbEvent_flog, State.report_waits _ _ _ hbeat']
    rfl

/-! ### The base of a ring -/

theorem regIndex_ringBase {ring : Nat} (h : ring < 64) : regIndex (0x1000 + 32 * ring) 0x1000 8 256 = some (4 * ring) := by
  have hq : (0x1000 + 32 * ring - 0x1000) / 8 = 4 * ring := by omega
  rw [regIndex, if_pos (by omega), hq]

theorem State.ordReg_ringBase (s : State) {ring : Nat} (h : ring < 64) :
    s.ordReg (0x1000 + 32 * ring) = some (s.ord.regs.getD ring {}).base := by
  simp [State.ordReg, regIndex_ringBase h]

/-- The low 12 bits of a base stay 0 (R8). -/
theorem State.writeRing_base (s : State) (ring m x : Nat) (h : ring < 64) :
    s.writeRing (4 * ring) m x = { s with ord := { s.ord with
      regs := modifyAt s.ord.regs ring fun r =>
        { r with base := mergeReg (s.ord.regs.getD ring {}).base m x / 4096 * 4096 } } } := by
  have hoff : 0x1000 + 8 * (4 * ring) = 0x1000 + 32 * ring := by omega
  simp [State.writeRing, hoff, s.ordReg_ringBase h]

theorem registerWrite_ringBase {s : State} {ring : Nat} (v : Word) (hop : s.operational = true) (h : ring < 64) :
    Runs (.registerWrite (0x31000 + 32 * ring) 8 v) s (s.writeRing (4 * ring) (2 ^ 64 - 1) v.toNat) := by
  have hblock : (0x31000 + 32 * ring) / 0x10000 = 3 := by omega
  have hrest : (0x31000 + 32 * ring) % 0x10000 = 0x1000 + 32 * ring := by omega
  have hreg : (s.blockReg (0x31000 + 32 * ring)).isSome = true := by simp [State.blockReg, hblock, hrest, s.ordReg_ringBase h]
  have hrun := registerWrite_block v (s.answers_of_operational hop _) (by omega) (by omega) hreg
  simpa [State.writeBlock, hblock, hrest, regIndex_ringBase h] using hrun

/-! ### The other registers -/

/-- `GLB_ID` has no writable field and keeps its value (R7). -/
theorem registerWrite_readOnly_glb (s : State) (v : Word) : Runs (.registerWrite 0x00000 8 v) s s :=
  registerWrite_block v (s.answers_glb (by decide)) rfl (by decide) rfl

/-- Nor has `PICK_COUNTER`. -/
theorem registerWrite_readOnly_pick {s : State} (v : Word) (hop : s.operational = true) : Runs (.registerWrite 0x10000 8 v) s s :=
  registerWrite_block v (s.answers_of_operational hop _) rfl (by decide) rfl

/-- `DRAFT_STAGE_ADDR` takes the address, aligned to 64 bytes. -/
theorem registerWrite_stageAddr {s : State} (v : Word) (hop : s.operational = true) (h : s.draft.stageAddr < 2 ^ 64) :
    Runs (.registerWrite 0x20000 8 v) s { s with draft := { s.draft with stageAddr := v.toNat / 64 * 64 } } := by
  rw [← mergeReg_whole_of_lt h v]
  exact registerWrite_block v (s.answers_of_operational hop _) rfl (by decide) rfl

/-- `DRAFT` answers in operational state alone (R430). -/
theorem State.answers_draft {s : State} (hop : s.operational = false) : s.answers 0x20000 = false := by
  simp [State.answers, hop, componentReg, State.msixReg]

/-- Settles O15: each clause is the write of one register, by what a whole-register write does in its block. What a component register
holds after a write is a free value (log entry 200). -/
theorem registerWritesComplete : Obligations.RegisterWritesComplete := by
  unfold Obligations.RegisterWritesComplete
  intro v s
  refine ⟨⟨registerWrite_linkPolicy_same s v, registerWrite_linkPolicy_down s v⟩, ?component, registerWrite_readOnly_glb s v, ?operational, ?dropped⟩
  case component =>
    intro off hlo hhi h8 hold
    have hc : componentReg off = true := by simp [componentReg, hlo, hhi]
    refine ⟨_, registerWrite_component s v hc h8, ?_, rfl⟩
    rw [s.readReg_writeComp hc, mergeReg_whole_of_lt hold]
  case operational =>
    intro hop
    refine ⟨registerWrite_stageAddr v hop, registerWrite_readOnly_pick v hop, fun ring hring => ?_⟩
    have hrun := registerWrite_ringBase v hop hring
    rw [s.writeRing_base ring _ _ hring] at hrun
    refine ⟨_, hrun, rfl, fun hlen hbase => ?_⟩
    have hin : ring < s.ord.regs.length := by omega
    rw [mergeReg_whole_of_lt hbase]
    simp [modifyAt, List.getD_eq_getElem?_getD, hin]
  case dropped =>
    intro hop
    exact registerWrite_dropped (State.answers_draft hop) 8 v

end Sys2Proof.Machine
end

section
/-! PROOF. Event registers (R100): a write clears the bits written as 1, in whichever block the register stands. -/

namespace Sys2Proof.Machine

/-- A write of a whole event register clears the bits written as 1 and leaves the others (W1C, Table 0-2). -/
theorem cleared_clearBits (old : Nat) (v : Word) : Cleared old v (clearBits old (Nat.land v.toNat (2 ^ 64 - 1))) := by
  intro i
  have hall : Nat.land v.toNat (2 ^ 64 - 1) = v.toNat :=
    (Nat.and_two_pow_sub_one_eq_mod v.toNat 64).trans (Nat.mod_eq_of_lt v.isLt)
  rw [hall, testBit_clear]

/-- Settles O14: each of the nine writes is its block's write of that register, which clears the bits written as 1. -/
theorem eventBitsClearByWritingOne : Obligations.EventBitsClearByWritingOne := by
  unfold Obligations.EventBitsClearByWritingOne
  intro v s
  refine ⟨⟨_, registerWrite_block v (s.answers_glb (by decide)) rfl (by decide) rfl, cleared_clearBits _ v, rfl⟩,
    ⟨_, registerWrite_block v (by simp [State.answers]) rfl (by decide) rfl, cleared_clearBits _ v, rfl⟩, fun hop => ?_⟩
  have ha := State.answers_of_operational hop
  refine ⟨?pick, ?draft, ?reed, ?mem, ?integ, ?twin, ?opt⟩ <;>
    exact ⟨_, registerWrite_block v (ha _) rfl (by decide) rfl, cleared_clearBits _ v, rfl⟩

end Sys2Proof.Machine
end

section
/-! PROOF. The commands of DRAFT_CTRL and TWIN_CTRL (R80 to R88): where each is ignored, what the draft commands leave where they are
accepted, and the load and check that follow STAGE. -/

namespace Sys2Proof.Machine

/-! ### Commands of a module that runs orders -/

/-- In operational state a draft or twin command runs. -/
theorem runs_stage {s : State} (h : s.operational = true) : Runs .stage s s.stageCmd := if_pos h
theorem runs_arm {s : State} (h : s.operational = true) : Runs .arm s s.armCmd := if_pos h
theorem runs_disarm {s : State} (h : s.operational = true) : Runs .disarm s s.disarmCmd := if_pos h
theorem runs_discard {s : State} (h : s.operational = true) : Runs .discard s s.discardCmd := if_pos h
theorem runs_pair {s : State} (h : s.operational = true) : Runs .pair s s.pairCmd := if_pos h
theorem runs_absorb {s : State} (h : s.operational = true) : Runs .absorb s s.absorbCmd := if_pos h
theorem runs_handback {s : State} (h : s.operational = true) : Runs .handback s s.handbackCmd := if_pos h
theorem runs_detach {s : State} (h : s.operational = true) : Runs .detach s s.detachCmd := if_pos h
theorem runs_compare {s : State} (h : s.operational = true) : Runs .compare s s.compareCmd := if_pos h
theorem runs_drain {s : State} (h : s.operational = true) : Runs .drain s s.drainCmd := if_pos h

/-! ### Where a command is ignored (R83, R88) -/

theorem State.discardCmd_ignored {s : State} (h : s.draft.state ∈ [DraftState.empty, .applied]) : s.discardCmd = s.draftIgnored := by
  have h' : s.draft.state = .empty ∨ s.draft.state = .applied := by simpa using h
  simp [State.discardCmd, h']

theorem State.disarmCmd_ignored {s : State} (h : s.draft.state ≠ .armed) : s.disarmCmd = s.draftIgnored := if_neg h

theorem State.armCmd_ignored {s : State}
    (h : s.draft.state ∈ [DraftState.empty, .loading, .checking, .rejected, .applied] ∨ s.draft.applyBeat < s.pick.counter + 2) :
    s.armCmd = s.draftIgnored := by
  rcases h with h | h
  · have hno : ¬ (s.draft.state = .checked ∨ s.draft.state = .armed ∨ s.draft.state = .missed) := by
      rintro (e | e | e) <;> simp [e] at h
    simp only [not_or] at hno
    simp [State.armCmd, hno]
  · simp [State.armCmd, Nat.not_le.mpr h]

theorem State.pairCmd_ignored {s : State} (h : s.bar0Busy = true) : s.pairCmd = s.twinIgnored := if_pos h

theorem State.handbackCmd_ignored {s : State} (h : s.twin.state ≠ .absorbed ∨ s.twin.holds = false) :
    s.handbackCmd = s.twinIgnored := by
  rcases h with h | h <;> simp [State.handbackCmd, h]

theorem State.detachCmd_ignored {s : State} (h : s.twin.state ≠ .sync) : s.detachCmd = s.twinIgnored := if_neg h

theorem State.compareCmd_ignored {s : State} (h : s.twin.state ≠ .sync) (h' : s.twin.state ≠ .recopy) :
    s.compareCmd = s.twinIgnored := by
  simp [State.compareCmd, h, h']

theorem State.drainCmd_ignored {s : State} (h : s.twin.state ≠ .sync ∨ s.twin.drain.isSome ∨ s.twin.drainDue = true) :
    s.drainCmd = s.twinIgnored := by
  rcases h with h | h | h
  · simp [State.drainCmd, h]
  · simp [State.drainCmd, Option.isSome_iff_ne_none.mp h]
  · simp [State.drainCmd, h]

theorem State.absorbCmd_ignored {s : State}
    (h : s.twin.state ≠ .absorbed ∨ s.twin.holds = true ∨ s.twin.absorbAt.isSome ∨ s.twin.beat < s.pick.counter + 2) :
    s.absorbCmd = s.twinIgnored := by
  rcases h with h | h | h | h
  · simp [State.absorbCmd, h]
  · simp [State.absorbCmd, h]
  · simp [State.absorbCmd, Option.isSome_iff_ne_none.mp h]
  · simp [State.absorbCmd, h]

/-- Settles O19: every case that the statement names is one in which the command's own test fails, and an ignored command sets
`CMD_REJECTED` alone. -/
theorem commandsIgnored : Obligations.CommandsIgnored := by
  unfold Obligations.CommandsIgnored
  intro c s hop
  refine ⟨fun hc => ⟨s.draftIgnored, ?_, fun i => testBit_orBit _ _ i, rfl⟩,
    fun hc => ⟨s.twinIgnored, ?_, fun i => testBit_orBit _ _ i, rfl⟩⟩
  · rcases hc with ⟨rfl, h⟩ | ⟨rfl, h⟩ | ⟨rfl, h⟩
    · exact State.discardCmd_ignored h ▸ runs_discard hop
    · exact State.disarmCmd_ignored h ▸ runs_disarm hop
    · exact State.armCmd_ignored h ▸ runs_arm hop
  · rcases hc with ⟨rfl, h⟩ | ⟨rfl, h⟩ | ⟨rfl, h⟩ | ⟨rfl, h, h'⟩ | ⟨rfl, h⟩ | ⟨rfl, h⟩
    · exact State.pairCmd_ignored h ▸ runs_pair hop
    · exact State.handbackCmd_ignored h ▸ runs_handback hop
    · exact State.detachCmd_ignored h ▸ runs_detach hop
    · exact State.compareCmd_ignored h h' ▸ runs_compare hop
    · exact State.drainCmd_ignored h ▸ runs_drain hop
    · exact State.absorbCmd_ignored h ▸ runs_absorb hop

/-! ### The check of a staged draft -/

/-- The lines of a range are tried in order: the first that cannot be read is the one named (R436). -/
theorem firstBadLine_eq {h : HostView} {a n k : Nat} (hk : 64 * k < n) (hbad : hostRead h (a + 64 * k) (min 64 (n - 64 * k)) = none)
    (hgood : ∀ j < k, hostRead h (a + 64 * j) (min 64 (n - 64 * j)) ≠ none) : firstBadLine h a n = some (64 * k) := by
  obtain ⟨m, hm⟩ : ∃ m, ceilDiv n 64 = k + 1 + m := ⟨ceilDiv n 64 - (k + 1), by unfold ceilDiv; omega⟩
  rw [firstBadLine, List.findSome?_eq_some_iff, hm]
  refine ⟨List.range k, k, (List.range m).map (k + 1 + ·), ?_, ?_, ?_⟩
  · rw [List.range_add, List.range_succ, List.append_assoc, List.singleton_append]
  · simp [hbad]
  · intro j hj
    simpa using hgood j (List.mem_range.mp hj)

theorem draftLoadDone_idle {s : State} (host : HostView) (h : s.draft.state ≠ .loading ∨ s.linkUp = false) :
    Runs (.draftLoadDone host) s s := by
  show execDraftLoadDone host s = _
  rcases h with h | h <;> simp [execDraftLoadDone, h]

theorem draftLoadDone_read {s : State} {host : HostView} {b : Bytes} (hop : s.operational = true) (hst : s.draft.state = .loading)
    (hup : s.linkUp = true) (hread : hostRead host s.draft.from_ s.draft.len = some b) :
    Runs (.draftLoadDone host) s { s with
      out := s.out ++ [.hostRead .rdCurr s.draft.from_ s.draft.len]
      draft := { s.draft with state := .checking, copy := b, stagedId := fieldAt b 0x10 8 } } := by
  show execDraftLoadDone host s = _
  simp [execDraftLoadDone, hop, hst, hup, hread, State.hostFetch, State.emit]

theorem draftLoadDone_unread {s : State} {host : HostView} {off : Nat} (hop : s.operational = true) (hst : s.draft.state = .loading)
    (hup : s.linkUp = true) (hread : hostRead host s.draft.from_ s.draft.len = none)
    (hline : firstBadLine host s.draft.from_ s.draft.len = some off) :
    Runs (.draftLoadDone host) s { s with
      out := s.out ++ [.hostRead .rdCurr s.draft.from_ s.draft.len]
      draft := { s.draft with state := .checking, readFail := some off } } := by
  show execDraftLoadDone host s = _
  simp [execDraftLoadDone, hop, hst, hup, hread, hline, State.hostFetch, State.emit]

theorem draftCheckDone_idle {s : State} (h : s.draft.state ≠ .checking) : Runs .draftCheckDone s s := by
  show execDraftCheckDone s = _
  simp [execDraftCheckDone, h]

theorem draftCheckDone_passes {s : State} (hop : s.operational = true) (hst : s.draft.state = .checking) (h : s.checkStaged = none) :
    Runs .draftCheckDone s (({ s with draft := { s.draft with state := .checked } } : State).draftEvent 0) := by
  show execDraftCheckDone s = _
  simp [execDraftCheckDone, hop, hst, h]

theorem draftCheckDone_fails {s : State} {e : Nat × Nat × Nat} (hop : s.operational = true) (hst : s.draft.state = .checking)
    (h : s.checkStaged = some e) :
    Runs .draftCheckDone s (({ s with draft := { s.draft with
      state := .rejected, checkCode := e.1, whereSec := e.2.1, whereOff := e.2.2 } } : State).draftEvent 1) := by
  show execDraftCheckDone s = _
  simp [execDraftCheckDone, hop, hst, h]

/-- Settles O13: what a load leaves is read off its test, the line named is the first unread one, and the check's end follows what
`checkStaged` found. -/
theorem draftIsCheckedOnce : Obligations.DraftIsCheckedOnce := by
  unfold Obligations.DraftIsCheckedOnce
  intro s hop
  refine ⟨fun host b hst hup hread => draftLoadDone_read hop hst hup hread, ?unread, fun host => draftLoadDone_idle host,
    draftCheckDone_idle, ?checked⟩
  case unread =>
    intro host k hst hup hread hk hbad hgood
    exact draftLoadDone_unread hop hst hup hread (firstBadLine_eq hk hbad hgood)
  case checked =>
    intro hst
    have hfail (off : Nat) (h : s.draft.readFail = some off) : s.checkStaged = some (0x0403, 0xFF, off) := by
      simp [State.checkStaged, h]
    have hread (h : s.draft.readFail = none) :
        s.checkStaged = draftCheck s.draft.copy s.draft.len (some s.geometry) s.core.draft .all := by
      simp [State.checkStaged, h]
    cases h : s.checkStaged with
    | none =>
      exact ⟨_, draftCheckDone_passes hop hst h, rfl, rfl, rfl, fun _ => rfl, fun e he => by simp at he, h ▸ hfail, h ▸ hread⟩
    | some e =>
      refine ⟨_, draftCheckDone_fails hop hst h, rfl, rfl, rfl, fun he => by simp at he, fun e' he => ?_, h ▸ hfail, h ▸ hread⟩
      cases he
      rfl


/-! ### Draft commands that are accepted -/

theorem State.unapplyDraft_none {s : State} (h : s.draft.prior = none) : s.unapplyDraft = s := by
  simp [State.unapplyDraft, h]

theorem State.armCmd_accepted {s : State} (hst : s.draft.state ∈ [DraftState.checked, .armed, .missed])
    (hbeat : s.pick.counter + 2 ≤ s.draft.applyBeat) :
    s.armCmd = { s.unapplyDraft with draft := { s.unapplyDraft.draft with
      state := .armed, armedBeat := s.draft.applyBeat, due := false, lapsed := false } } := by
  have hst' : (s.draft.state = .checked ∨ s.draft.state = .armed) ∨ s.draft.state = .missed := by simpa [or_assoc] using hst
  simp [State.armCmd, hst', hbeat]

theorem State.disarmCmd_accepted {s : State} (h : s.draft.state = .armed) :
    s.disarmCmd = { s.unapplyDraft with draft := { s.unapplyDraft.draft with state := .checked, due := false } } := if_pos h

theorem State.discardCmd_accepted {s : State} (h : s.draft.state ≠ .empty) (h' : s.draft.state ≠ .applied) :
    s.discardCmd = s.dropStaged .empty := by
  simp [State.discardCmd, h, h']

/-- A context made again (log entry 138) keeps what is stored. -/
theorem Core.recreate_keeps (c old : Core) (d : Option Draft) (n : Nat) :
    (c.recreate old d n).mem = c.mem ∧ (c.recreate old d n).objs = c.objs := by
  unfold Core.recreate
  generalize List.range 64 = l
  induction l generalizing c with
  | nil => exact ⟨rfl, rfl⟩
  | cons x l ih =>
    rw [List.foldl_cons]
    dsimp only
    split
    · exact ih c
    · exact ih _

/-- What a draft command leaves of a draft that was applied in this beat window: the draft of the last completed beat is in force again. -/
structure Withdrawn (s : State) (p : Prior) (t : State) : Prop where
  prior : t.draft.prior = none
  due : t.draft.due = false
  inForce : t.core.draft = s.committed.draft
  epochBeat : (∀ g ∈ t.core.groups, ∀ k ∈ p.groups, k.id = g.id → k.epoch = g.epoch) → t.reed.epochBeat = p.reed.epochBeat
  mem : t.core.mem = s.core.mem
  objs : t.core.objs = s.core.objs
  committed : t.committed = s.committed
  counter : t.pick.counter = s.pick.counter

theorem State.unapplyDraft_withdrawn {s : State} {p : Prior} (h : s.draft.prior = some p) : Withdrawn s p s.unapplyDraft where
  prior := by simp [State.unapplyDraft, h]
  due := by simp [State.unapplyDraft, h]
  inForce := by simp [State.unapplyDraft, h, State.followDraft]
  epochBeat := by
    intro hsame
    simp only [State.unapplyDraft, h] at hsame ⊢
    rw [if_neg]
    simp only [List.any_eq_true, not_exists, not_and]
    intro g hg k hk
    simpa using hsame g hg k hk
  mem := by simp [State.unapplyDraft, h, State.followDraft, Core.recreate_keeps]
  objs := by simp [State.unapplyDraft, h, State.followDraft, Core.recreate_keeps]
  committed := by simp [State.unapplyDraft, h, State.followDraft]
  counter := by simp [State.unapplyDraft, h, State.followDraft]

/-- Other registers of the DRAFT block may be written behind it. -/
theorem Withdrawn.withDraft {s t : State} {p : Prior} (h : Withdrawn s p t) (d : DraftRegs) (hprior : d.prior = none) (hdue : d.due = false) :
    Withdrawn s p { t with draft := d } where
  prior := hprior
  due := hdue
  inForce := h.inForce
  epochBeat := h.epochBeat
  mem := h.mem
  objs := h.objs
  committed := h.committed
  counter := h.counter

theorem State.stageCmd_withdrawn {s : State} {p : Prior} (h : s.draft.prior = some p) : Withdrawn s p s.stageCmd :=
  have hw := State.unapplyDraft_withdrawn h
  hw.withDraft _ hw.prior rfl

theorem State.armCmd_withdrawn {s : State} {p : Prior} (h : s.draft.prior = some p) (hst : s.draft.state ∈ [DraftState.checked, .armed, .missed])
    (hbeat : s.pick.counter + 2 ≤ s.draft.applyBeat) : Withdrawn s p s.armCmd := by
  have hw := State.unapplyDraft_withdrawn h
  rw [State.armCmd_accepted hst hbeat]
  exact hw.withDraft _ hw.prior rfl

theorem State.disarmCmd_withdrawn {s : State} {p : Prior} (h : s.draft.prior = some p) (hst : s.draft.state = .armed) :
    Withdrawn s p s.disarmCmd := by
  have hw := State.unapplyDraft_withdrawn h
  rw [State.disarmCmd_accepted hst]
  exact hw.withDraft _ hw.prior rfl

theorem State.discardCmd_withdrawn {s : State} {p : Prior} (h : s.draft.prior = some p) (hst : s.draft.state ≠ .empty)
    (hst' : s.draft.state ≠ .applied) : Withdrawn s p s.discardCmd := by
  have hw := State.unapplyDraft_withdrawn h
  rw [State.discardCmd_accepted hst hst']
  exact hw.withDraft _ hw.prior rfl

/-- The eight facts as the statement lists them. -/
theorem Withdrawn.spelled {s t : State} {p : Prior} (h : Withdrawn s p t) :
    t.draft.prior = none ∧ t.draft.due = false ∧ t.core.draft = s.committed.draft ∧
      ((∀ g ∈ t.core.groups, ∀ k ∈ p.groups, k.id = g.id → k.epoch = g.epoch) → t.reed.epochBeat = p.reed.epochBeat) ∧
      t.core.mem = s.core.mem ∧ t.core.objs = s.core.objs ∧ t.committed = s.committed ∧ t.pick.counter = s.pick.counter :=
  ⟨h.prior, h.due, h.inForce, h.epochBeat, h.mem, h.objs, h.committed, h.counter⟩

/-- Settles O12: with no draft applied in the window a command writes the DRAFT block alone; otherwise it withdraws that draft first, and
what it then writes of the block does not put it back. -/
theorem draftCommandsAct : Obligations.DraftCommandsAct := by
  unfold Obligations.DraftCommandsAct
  intro s hop
  refine ⟨fun hnone => ?unapplied, fun p hp harmed => ⟨?withdraw, fun hbeat => ?rearm⟩⟩
  case unapplied =>
    have hsame := State.unapplyDraft_none hnone
    refine ⟨?stage, fun hst hbeat => ?arm, fun hst => ?disarm, fun hst => ?discard⟩
    case stage =>
      have hrun := runs_stage hop
      rwa [State.stageCmd, State.dropStaged, hsame] at hrun
    case arm =>
      have hrun := runs_arm hop
      rwa [State.armCmd_accepted hst hbeat, hsame] at hrun
    case disarm =>
      have hrun := runs_disarm hop
      rwa [State.disarmCmd_accepted hst, hsame] at hrun
    case discard =>
      have hrun := runs_discard hop
      rwa [State.discardCmd_accepted (by rintro e; simp [e] at hst) (by rintro e; simp [e] at hst), State.dropStaged, hsame] at hrun
  case withdraw =>
    intro e he
    simp only [List.mem_cons, List.not_mem_nil, or_false] at he
    rcases he with rfl | rfl | rfl
    · exact ⟨_, runs_stage hop, rfl, (State.stageCmd_withdrawn hp).spelled⟩
    · exact ⟨_, runs_disarm hop, by rw [State.disarmCmd_accepted harmed], (State.disarmCmd_withdrawn hp harmed).spelled⟩
    · have hne : s.draft.state ≠ .empty ∧ s.draft.state ≠ .applied := by simp [harmed]
      exact ⟨_, runs_discard hop, by rw [State.discardCmd_accepted hne.1 hne.2]; rfl, (State.discardCmd_withdrawn hp hne.1 hne.2).spelled⟩
  case rearm =>
    have hst : s.draft.state ∈ [DraftState.checked, .armed, .missed] := by simp [harmed]
    have hcmd := State.armCmd_accepted hst hbeat
    exact ⟨_, runs_arm hop, by rw [hcmd], by rw [hcmd], (State.armCmd_withdrawn hp hst hbeat).spelled⟩

end Sys2Proof.Machine
end

section
/-! PROOF. The mailbox commands that write flash (R96, R474, R482, R506): what each leaves as its work begins. -/

namespace Sys2Proof.Machine

/-- A long command's work begins with the flash as given: it is listed, and a BAR0 command shows BUSY and its opcode (R503). -/
def State.begun (s : State) (src : MboxSource) (op : Nat) (f : Flash) : State :=
  { s with
    flash := f
    mgt := { s.mgt with longs := s.mgt.longs ++ [s.request src op], status := if src = .bar0 then 1 else s.mgt.status
                        reqOp := if src = .bar0 then op else s.mgt.reqOp } }

theorem State.startLong_issue (s : State) (src : MboxSource) (op : Nat) (f : Flash) :
    ({ s.issue src op with flash := f } : State).startLong (s.request src op) = s.begun src op f := by
  cases src <;> rfl

theorem State.issue_flash (s : State) (src : MboxSource) (op : Nat) : (s.issue src op).flash = s.flash := by
  cases src <;> rfl

theorem State.issue_glb (s : State) (src : MboxSource) (op : Nat) : (s.issue src op).glb = s.glb := by
  cases src <;> rfl

theorem State.issue_withFlash (s : State) (src : MboxSource) (op : Nat) (f : Flash) :
    ({ s with flash := f } : State).issue src op = { s.issue src op with flash := f } := by
  cases src <;> rfl

/-! ### The boot draft -/

/-- A draft read whole that passes its check is to be written (R96). -/
theorem State.readBootDraft_passes {s : State} {c : MboxCmd} {host : HostView} {b : Bytes}
    (hread : hostRead host (fieldAt c.payload 0 8) (fieldAt c.payload 8 4) = some b)
    (hcheck : draftCheck b (fieldAt c.payload 8 4) (some s.geometry) none .none = none) :
    s.readBootDraft c host = { s with
      flash := { s.flash with pendDraft := some b }
      out := s.out ++ [.hostRead .rdCurr (fieldAt c.payload 0 8) (fieldAt c.payload 8 4)] } := by
  have hcheck' : draftCheck b (fieldAt c.payload 8 4) (some s.glb.lens) none .none = none := hcheck
  simp [State.readBootDraft, State.geometry, hread, hcheck', State.hostFetch]

theorem bootDraft_begins {src : MboxSource} {s : State} {host : HostView} {b : Bytes} (hok : MboxOk s src 0x20) (hlongs : s.mgt.longs = [])
    (hread : hostRead host (fieldAt (s.request src 0x20).payload 0 8) (fieldAt (s.request src 0x20).payload 8 4) = some b)
    (hcheck : draftCheck b (fieldAt (s.request src 0x20).payload 8 4) (some s.geometry) none .none = none) :
    Runs (.bootDraft src host) s { s.begun src 0x20 { s.flash with pendDraft := some b } with
      out := s.out ++ [.hostRead .rdCurr (fieldAt (s.request src 0x20).payload 0 8) (fieldAt (s.request src 0x20).payload 8 4)] } := by
  have hstart : (s.issue src 0x20).startLong (s.request src 0x20) = s.begun src 0x20 s.flash := by
    rw [← s.startLong_issue, ← s.issue_flash src 0x20]
  show execBootDraft src host s = _
  simp only [execBootDraft, hlongs, List.find?_nil]
  rw [State.accept_passes _ _ _ _ hok, hstart, State.readBootDraft_passes (s := s.begun src 0x20 s.flash) hread hcheck]
  rfl

/-! ### A setting -/

theorem settingWrite_begins {src : MboxSource} {s : State} (hok : MboxOk s src 0x21) :
    Runs (.settingWrite src) s (s.begun src 0x21 { s.flash with
      pendKey := some (fieldAt (s.request src 0x21).payload 0 2, (s.request src 0x21).payload.drop 4) }) := by
  show execSettingWrite src s = _
  rw [execSettingWrite, State.settingWriteCmd, State.accept_passes _ _ _ _ hok, s.issue_flash, s.startLong_issue]

/-! ### Image data -/

/-- What image data leaves of the flash outside recovery: at offset 0 a new write begins (R506). -/
def State.imageWriting (s : State) (off : Nat) : Flash :=
  if off = 0 then { s.flash with writing := true, verdict := none, copying := decide (byteAt s.bootRec 1 = 0), staged := [] }
  else { s.flash with writing := true }

theorem imageData_begins {src : MboxSource} {s : State} (hok : MboxOk s src 0x30) (hst : s.glb.state ≠ .recovery) :
    Runs (.imageData src) s (s.begun src 0x30 (s.imageWriting (fieldAt (s.request src 0x30).payload 0 4))) := by
  have hboot : (s.issue src 0x30).bootRec = s.bootRec := by rw [State.bootRec, s.issue_flash]; rfl
  show execImageData src s = _
  rw [execImageData, State.imageDataCmd, State.accept_passes _ _ _ _ hok, s.issue_glb, if_neg hst, ← s.startLong_issue, State.imageWriting]
  split
  · rw [State.startImage, hboot, s.issue_flash]
  · simp only [s.issue_flash]

/-- What image data leaves of the flash in recovery, where the set is gathered (R482). -/
def State.imageGathered (s : State) (payload : Bytes) : Flash :=
  let off := fieldAt payload 0 4
  { s.flash with staged := putImage (if off = 0 then [] else s.flash.staged) off (payload.drop 4), verdict := none }

theorem imageData_gathers {src : MboxSource} {s : State} (hok : MboxOk s src 0x30) (hst : s.glb.state = .recovery) :
    Runs (.imageData src) s
      (({ s with flash := s.imageGathered (s.request src 0x30).payload } : State).issue src 0x30 |>.respondOk (s.request src 0x30) []) := by
  show execImageData src s = _
  rw [s.issue_withFlash, execImageData, State.imageDataCmd, State.accept_passes _ _ _ _ hok, s.issue_glb, if_pos hst]
  by_cases h : fieldAt (s.request src 0x30).payload 0 4 = 0 <;>
    simp only [State.imageGathered, h, if_true, if_false, s.issue_flash, s.issue_glb]

/-- The answer to image data gathered: nothing beside the response and the set changes. -/
theorem State.gathered_answers (s : State) (src : MboxSource) (f : Flash) :
    let t := (({ s with flash := f } : State).issue src 0x30).respondOk (s.request src 0x30) []
    Answered src 0x30 0 0 none [] s t ∧ t.flash = f ∧ MgmtOnly { s with flash := t.flash } t := by
  intro t
  have hreq : (({ s with flash := f } : State).issue src 0x30).request src 0x30 = s.request src 0x30 := by
    rw [State.request_issue]
    cases src <;> rfl
  obtain ⟨hans, honly⟩ := State.respond_answers (({ s with flash := f } : State).issue src 0x30) src 0x30 0 0 none [] (by decide)
  rw [hreq] at hans honly
  have honly' := MgmtOnly_issue _ _ _ _ honly
  have hflash : t.flash = f := congrArg State.flash honly'
  have hans' := Answered_issue _ _ _ _ _ _ _ _ _ hans
  refine ⟨?_, hflash, hflash.symm ▸ honly'⟩
  cases src <;> exact hans'

/-- Settles O25: a command that passes its tests is accepted, and each goes on with the beginning of its own work. -/
theorem flashCommandsBegin : Obligations.FlashCommandsBegin := by
  unfold Obligations.FlashCommandsBegin
  intro src s
  refine ⟨fun host b hok hlongs hread hcheck => bootDraft_begins hok hlongs hread hcheck, settingWrite_begins, imageData_begins,
    fun hok hst => ?gathered⟩
  case gathered =>
    obtain ⟨hans, hflash, honly⟩ := s.gathered_answers src (s.imageGathered (s.request src 0x30).payload)
    exact ⟨_, imageData_gathers hok hst, hans, hflash, honly⟩

end Sys2Proof.Machine
end

section
/-! PROOF. What CONFIG_APPLY leaves of the pair. Most of its operations write no register of the pair at all; the others, which read memory
or move the pair, leave the image of a drain as it was taken (R405). -/

namespace Sys2Proof.Machine

/-- What each step of a run over a list leaves of the pair, the run leaves. -/
@[simp] theorem foldl_twin {α : Type} (f : State → α → State) (h : ∀ s a, (f s a).twin = s.twin) (l : List α) (s : State) :
    (l.foldl f s).twin = s.twin := by
  induction l generalizing s with
  | nil => rfl
  | cons a l ih => rw [List.foldl_cons, ih, h]

/-! ### Reads, repairs and the detection log -/

@[simp] theorem State.noteSnoop_twin (s : State) (lines : List Nat) : (s.noteSnoop lines).twin = s.twin := by
  unfold State.noteSnoop; split <;> simp

@[simp] theorem State.snoop_twin (s : State) (lines : List Nat) : (s.snoop lines).twin = s.twin := rfl
@[simp] theorem State.fresh_twin (s : State) : s.fresh.twin = s.twin := rfl
@[simp] theorem State.logOutcome_twin (s : State) (i outcome : Nat) : (s.logOutcome i outcome).twin = s.twin := rfl
@[simp] theorem State.logEvent_twin (s : State) (e : IntegEntry) : (s.logEvent e).twin = s.twin := rfl
@[simp] theorem State.repairWrite_twin (s : State) (sec : Nat) (st : SectorSt) (data : Option Bytes) :
    (s.repairWrite sec st data).twin = s.twin := rfl
@[simp] theorem State.poisonSector_twin (s : State) (sec log : Nat) (rd : Option Reader) : (s.poisonSector sec log rd).twin = s.twin := rfl
@[simp] theorem State.noteOnDie_twin (s : State) (stack n : Nat) : (s.noteOnDie stack n).twin = s.twin := rfl
@[simp] theorem State.storeError_twin (s : State) (sec : Nat) (flips : BitVec 608) : (s.storeError sec flips).twin = s.twin := by
  unfold State.storeError; extract_lets; split <;> rfl

@[simp] theorem State.readAgain_twin (s : State) (sec : Nat) (rd : Option Reader) : (s.readAgain sec rd).twin = s.twin := by
  unfold State.readAgain; dsimp only; (repeat' split) <;> simp

@[simp] theorem State.fetched_twin (s : State) (log : Nat) : (s.fetched log).twin = s.twin := rfl

/-! ### Orders and key-value pages -/

@[simp] theorem State.poolEvent_twin (s : State) : s.poolEvent.twin = s.twin := by
  unfold State.poolEvent; split <;> simp

@[simp] theorem State.kvBeat_twin (s : State) (x : Nat) (js : List OrderSt) : (s.kvBeat x js).twin = s.twin := by
  unfold State.kvBeat; split <;> simp

@[simp] theorem State.kvStarve_twin (s : State) (o : OrderSt) : (s.kvStarve o).twin = s.twin := by
  unfold State.kvStarve; dsimp only; (repeat' split) <;> simp

@[simp] theorem State.objCreate_twin (s : State) (x : Nat) (o : OrderSt) : (s.objCreate x o).twin = s.twin := by
  unfold State.objCreate; (repeat' split) <;> simp

@[simp] theorem State.objDestroy_twin (s : State) (x : Nat) (o : OrderSt) : (s.objDestroy x o).twin = s.twin := by
  unfold State.objDestroy; (repeat' split) <;> simp

@[simp] theorem State.objHint_twin (s : State) (x : Nat) (o : OrderSt) : (s.objHint x o).twin = s.twin := by
  unfold State.objHint; dsimp only; (repeat' split) <;> simp

@[simp] theorem State.objTransfer_twin (s : State) (x : Nat) (o : OrderSt) : (s.objTransfer x o).twin = s.twin := by
  unfold State.objTransfer; split <;> simp

/-! ### Ports and frames -/

@[simp] theorem State.setPort_twin (s : State) (p : Nat) (f : Port → Port) : (s.setPort p f).twin = s.twin := rfl
theorem State.forward_twin {s t : State} {frame : Bytes} {up : Option (Nat × Nat)} (h : s.forward frame up = some t) : t.twin = s.twin := by
  obtain ⟨p, -, rfl⟩ := Option.map_eq_some_iff.mp h
  rfl

@[simp] theorem State.forwardOrHold_twin (s : State) (frame : Bytes) (up : Option (Nat × Nat)) :
    (s.forwardOrHold frame up).twin = s.twin := by
  unfold State.forwardOrHold; dsimp only
  split
  · rfl
  · cases h : s.forward frame up with
    | none => rfl
    | some t => exact State.forward_twin h

@[simp] theorem State.moveFlows_twin (s : State) (p : Nat) : (s.moveFlows p).twin = s.twin := by
  simp [State.moveFlows]

/-! ### Collective groups -/

@[simp] theorem State.lossNotice_twin (s : State) (addr beat : Nat) (absorbBeat : Option Nat) :
    (s.lossNotice addr beat absorbBeat).twin = s.twin := rfl
@[simp] theorem State.absorbEpoch_twin (s : State) (addr : Nat) : (s.absorbEpoch addr).twin = s.twin := by
  unfold State.absorbEpoch; dsimp only; split <;> simp

@[simp] theorem State.applyDrop_twin (s : State) (addr : Nat) : (s.applyDrop addr).twin = s.twin := by
  unfold State.applyDrop; dsimp only; (repeat' split) <;> simp

@[simp] theorem State.turnPhases_twin (s : State) : s.turnPhases.twin = s.twin := by
  simp [State.turnPhases]

/-! ### Contexts and the checks of an order -/

@[simp] theorem State.ctxDestroy_twin (s : State) (x : Nat) (o : OrderSt) : (s.ctxDestroy x o).twin = s.twin := rfl
@[simp] theorem State.kvPoolCreate_twin (s : State) (x : Nat) (o : OrderSt) : (s.kvPoolCreate x o).twin = s.twin := by
  unfold State.kvPoolCreate; split <;> simp

@[simp] theorem State.checkOrder_twin (s : State) (o : OrderSt) : (s.checkOrder o).twin = s.twin := by
  unfold State.checkOrder; dsimp only; (repeat' split) <;> simp

@[simp] theorem State.kvPre_twin (s : State) (o : OrderSt) : (s.kvPre o).twin = s.twin := by
  unfold State.kvPre; dsimp only; (repeat' split) <;> simp

/-! ### Rings, the draft, and what an absorption adds -/

@[simp] theorem State.drainRing_twin (s : State) (ring : Nat) : (s.drainRing ring).twin = s.twin := by
  unfold State.drainRing; dsimp only; split <;> simp

@[simp] theorem State.haltRing_twin (s : State) (ring : Nat) : (s.haltRing ring).twin = s.twin := by
  simp [State.haltRing]

@[simp] theorem State.applyDraft_twin (s : State) (d : Draft) : (s.applyDraft d).twin = s.twin := rfl
@[simp] theorem State.applyDue_twin (s : State) : s.applyDue.twin = s.twin := by
  unfold State.applyDue; (repeat' split) <;> simp

@[simp] theorem State.absorbObj_twin (s : State) (p : Nat × Obj) (homes : List Home) (whole : List Nat) :
    (s.absorbObj p homes whole).twin = s.twin := by
  unfold State.absorbObj; split <;> simp

@[simp] theorem State.absorbOrders_twin (s : State) : s.absorbOrders.twin = s.twin := by
  simp [State.absorbOrders]

@[simp] theorem State.absorbGroups_twin (s : State) : s.absorbGroups.twin = s.twin := rfl

/-! ### Cartridges and the commands that wait for a draft -/

@[simp] theorem State.setCart_twin (s : State) (c : Nat) (st : CartState) : (s.setCart c st).twin = s.twin := rfl
@[simp] theorem State.joinCarts_twin (s : State) : s.joinCarts.twin = s.twin := by
  refine foldl_twin _ (fun s c => ?_) _ s
  split <;> simp

@[simp] theorem State.interrupt_twin (s : State) (v : Nat) : (s.interrupt v).twin = s.twin := by
  unfold State.interrupt; (repeat' split) <;> simp

@[simp] theorem State.respond_twin (s : State) (c : MboxCmd) (result detail : Nat) (beat : Option Nat) (resp : Bytes) :
    (s.respond c result detail beat resp).twin = s.twin := by
  unfold State.respond; (repeat' split) <;> simp

@[simp] theorem State.enterStandby_twin (s : State) : s.enterStandby.twin = s.twin := rfl
@[simp] theorem State.warmDraft_twin (s : State) : s.warmDraft.twin = s.twin := by
  unfold State.warmDraft; (repeat' split) <;> simp

@[simp] theorem State.leaveStandby_twin (s : State) : s.leaveStandby.twin = s.twin := by
  simp [State.leaveStandby]

@[simp] theorem State.powerState_twin (s : State) (c : MboxCmd) : (s.powerState c).twin = s.twin := by
  unfold State.powerState; (repeat' split) <;> simp

@[simp] theorem State.lateEffect_twin (s : State) (c : MboxCmd) : (s.lateEffect c).twin = s.twin := by
  unfold State.lateEffect; dsimp only; (repeat' split) <;> simp

@[simp] theorem State.lateCommands_twin (s : State) : s.lateCommands.twin = s.twin := by
  simp [State.lateCommands]

/-! ### Apertures and page changes -/

@[simp] theorem State.applyApertures_twin (s : State) : s.applyApertures.twin = s.twin := by
  unfold State.applyApertures; dsimp only; split <;> simp

@[simp] theorem State.applyKvOrders_twin (s : State) : s.applyKvOrders.twin = s.twin := by
  simp [State.applyKvOrders]

/-! ### The image of a drain -/

/-- What waits to be drained, and the image that is drained (R405), are the same. -/
@[reducible] def SameDrain (t s : State) : Prop := t.twin.drainDue = s.twin.drainDue ∧ t.twin.drain = s.twin.drain

theorem SameDrain.trans {a b c : State} (h : SameDrain a b) (g : SameDrain b c) : SameDrain a c := ⟨h.1.trans g.1, h.2.trans g.2⟩

theorem sameDrain_of_twin {t s : State} (h : t.twin = s.twin) : SameDrain t s := ⟨congrArg Twin.drainDue h, congrArg Twin.drain h⟩

@[simp] theorem foldl_sameDrain {α : Type} (f : State → α → State) (h : ∀ s a, SameDrain (f s a) s) (l : List α) (s : State) :
    SameDrain (l.foldl f s) s := by
  induction l generalizing s with
  | nil => exact ⟨rfl, rfl⟩
  | cons a l ih => exact (ih (f s a)).trans (h s a)

/-! ### Reads and repairs -/

@[simp] theorem State.logDetect_sameDrain (s : State) (a : Nat) (rd : Option Reader) (outcome : Nat) : SameDrain (s.logDetect a rd outcome) s :=
  ⟨rfl, rfl⟩

@[simp] theorem State.detectAgain_sameDrain (s : State) (r : Repair) (rd : Option Reader) : SameDrain (s.detectAgain r rd) s := by
  unfold State.detectAgain; dsimp only; (repeat' split) <;> simp [SameDrain]

@[simp] theorem State.detect_sameDrain (s : State) (sec : Nat) (rd : Option Reader) : SameDrain (s.detect sec rd) s := by
  unfold State.detect; dsimp only; (repeat' split) <;> simp [SameDrain]

@[simp] theorem State.readSector_sameDrain (s0 : State) (rd : Option Reader) (a : Nat) (err : ReadErr) : SameDrain (s0.readSector rd a err) s0 := by
  unfold State.readSector; extract_lets s sec far region held syn s1 s2
  have hs : SameDrain s s0 := by
    dsimp only [s]; split <;> exact ⟨rfl, rfl⟩
  have hs2 : s2.twin = s.twin := by
    dsimp only [s2]; split <;> simp
  refine SameDrain.trans ?_ hs
  clear_value s far region held syn s2
  (repeat' split)
  · exact sameDrain_of_twin (s.withCore_twin _)
  all_goals simp [SameDrain, hs2, s1]

@[simp] theorem State.readAll_sameDrain (s : State) (rd : Reader) (x : Nat) (rs : List (Nat × Nat)) : SameDrain (s.readAll rd x rs) s := by
  refine foldl_sameDrain _ (fun s sec => ?_) _ s
  split
  · exact ⟨rfl, rfl⟩
  · exact s.readSector_sameDrain _ _ _

@[simp] theorem State.mirrorRepair_sameDrain (s : State) (sec : Nat) (st : SectorSt) (data : Option Bytes) :
    SameDrain (s.mirrorRepair sec st data) s := ⟨rfl, rfl⟩

@[simp] theorem State.mirrorPoison_sameDrain (s : State) (sec log : Nat) : SameDrain (s.mirrorPoison sec log) s := ⟨rfl, rfl⟩

@[simp] theorem State.mirrorReturn_sameDrain (s : State) (sec : Nat) (data : Option Bytes) : SameDrain (s.mirrorReturn sec data) s := by
  unfold State.mirrorReturn; (repeat' split) <;> simp [SameDrain]

@[simp] theorem State.fetchReturn_sameDrain (s : State) (addr : Nat) (data : Option Bytes) : SameDrain (s.fetchReturn addr data) s := by
  unfold State.fetchReturn; dsimp only; (repeat' split) <;> simp [SameDrain]

@[simp] theorem State.dropFetches_sameDrain (s : State) : SameDrain s.dropFetches s :=
  (foldl_sameDrain _ (fun s _ => s.mirrorReturn_sameDrain _ _) _ _).trans (foldl_sameDrain _ (fun s _ => s.fetchReturn_sameDrain _ _) _ _)

/-! ### Orders -/

@[simp] theorem State.runOrder_sameDrain (s0 : State) (x : Nat) (o : OrderSt) : SameDrain (s0.runOrder x o) s0 := by
  unfold State.runOrder; extract_lets n cnt reads s c bad list me raws ds span reserve
  split
  · exact sameDrain_of_twin (s0.withCore_twin _)
  split
  · exact sameDrain_of_twin (s0.withCore_twin _)
  extract_lets tasks s1
  have hs : SameDrain s s0 := (State.readAll_sameDrain _ _ _ _).trans ⟨rfl, rfl⟩
  have hs1 : SameDrain s1 s0 := (sameDrain_of_twin (s.withCore_twin _)).trans hs
  split
  · exact ⟨rfl, rfl⟩
  split
  · exact hs
  split
  · exact (sameDrain_of_twin (s.withCore_twin _)).trans hs
  refine (foldl_sameDrain _ (fun s p => ?_) _ s1).trans hs1
  dsimp only; (repeat' split) <;> simp [SameDrain]

@[simp] theorem State.ctxCreate_sameDrain (s : State) (o : OrderSt) : SameDrain (s.ctxCreate o) s := by
  unfold State.ctxCreate; dsimp only; (repeat' split) <;> simp [SameDrain]

@[simp] theorem State.effect_sameDrain (s : State) (o : OrderSt) : SameDrain (s.effect o) s := by
  unfold State.effect; dsimp only; (repeat' split) <;> simp [SameDrain]

@[simp] theorem State.applyOrder_sameDrain (s : State) (j op : Nat) : SameDrain (s.applyOrder j op) s := by
  unfold State.applyOrder; dsimp only; (repeat' split) <;> simp [SameDrain]

theorem State.dueOrder_sameDrain (s : State) (o : OrderSt) : SameDrain (s.dueOrder o) s := by
  unfold State.dueOrder; split <;> simp [SameDrain]

@[simp] theorem State.applyOrders_sameDrain (s : State) : SameDrain s.applyOrders s := foldl_sameDrain _ State.dueOrder_sameDrain _ s

@[simp] theorem State.reissue_sameDrain (s : State) (o : OrderSt) : SameDrain (s.reissue o) s := by
  unfold State.reissue; extract_lets leave s1
  have hs1 : SameDrain s1 s := sameDrain_of_twin (s.withCore_twin _)
  split
  · split
    · exact ⟨rfl, rfl⟩
    · cases s1.core.order o.jno with
      | none => exact hs1
      | some p => exact (s1.runOrder_sameDrain _ p).trans hs1
  · exact ⟨rfl, rfl⟩

/-! ### The pair -/

@[simp] theorem State.startHashes_sameDrain (s : State) : SameDrain s.startHashes s := ⟨rfl, rfl⟩

@[simp] theorem State.startAbsorb_sameDrain (s : State) (b : Nat) (planned : Bool) : SameDrain (s.startAbsorb b planned) s := by
  simp [State.startAbsorb, SameDrain]

@[simp] theorem State.unpair_sameDrain (s : State) (lost : Option Nat) : SameDrain (s.unpair lost) s := by
  unfold State.unpair; dsimp only; split <;> simp [SameDrain]

@[simp] theorem State.selvedgeGone_sameDrain (s : State) (p : Nat) (twinOnFabric : Bool) : SameDrain (s.selvedgeGone p twinOnFabric) s := by
  unfold State.selvedgeGone; (repeat' split) <;> simp [SameDrain]

@[simp] theorem State.absorbCtxs_sameDrain (s : State) : SameDrain s.absorbCtxs s := by
  refine foldl_sameDrain _ (fun s i => ?_) _ s
  dsimp only; (repeat' split) <;> simp [SameDrain]

@[simp] theorem State.absorbObjs_sameDrain (s : State) : SameDrain s.absorbObjs s := by
  simp [State.absorbObjs, SameDrain]

@[simp] theorem State.absorbApply_sameDrain (s : State) : SameDrain s.absorbApply s := by
  unfold State.absorbApply; dsimp only; (repeat' split) <;> simp [SameDrain]

@[simp] theorem State.handbackApply_sameDrain (s : State) : SameDrain s.handbackApply s := by
  unfold State.handbackApply; dsimp only; split <;> simp [SameDrain]

@[simp] theorem State.takeBack_sameDrain (s : State) : SameDrain s.takeBack s := by
  unfold State.takeBack; dsimp only; (repeat' split) <;> simp [SameDrain]

@[simp] theorem State.detachApply_sameDrain (s : State) : SameDrain s.detachApply s := by
  unfold State.detachApply; dsimp only; (repeat' split) <;> simp [SameDrain]

@[simp] theorem State.twinDetached_sameDrain (s : State) : SameDrain s.twinDetached s := by
  unfold State.twinDetached; split <;> simp [SameDrain]

@[simp] theorem State.mirrorOff_sameDrain (s : State) : SameDrain s.mirrorOff s := by
  unfold State.mirrorOff; split <;> simp [SameDrain]

@[simp] theorem State.turnGroups_sameDrain (s : State) : SameDrain s.turnGroups s := by
  unfold State.turnGroups; dsimp only; (repeat' split) <;> simp [SameDrain]

@[simp] theorem State.applyDisable_sameDrain (s : State) : SameDrain s.applyDisable s := by
  refine foldl_sameDrain _ (fun s p => ?_) _ s
  dsimp only; (repeat' split) <;> simp [SameDrain]

/-- Behind the taking of the image nothing that CONFIG_APPLY does changes it. -/
theorem State.configure_sameDrain (s : State) : SameDrain s.configure s.takeDrain := by
  unfold State.configure; extract_lets s1 s2 again s3
  have h1 : SameDrain s1 s.takeDrain := by simp [s1, SameDrain]
  have h2 : SameDrain s2 s1 := by simp [s2, SameDrain]
  have h3 : SameDrain s3 s2 := (foldl_sameDrain _ State.reissue_sameDrain _ _).trans s2.applyOrders_sameDrain
  have h4 : SameDrain (((s3.applyApertures.applyKvOrders).applyDisable.joinCarts).lateCommands) s3 := by simp [SameDrain]
  exact h4.trans (h3.trans (h2.trans h1))

end Sys2Proof.Machine
end

section
/-! PROOF. The commands of TWIN_CTRL where they are accepted (R97, R380, R394, R398, R403 to R405), and what they start: pairing at the
opening of the next beat window, and a drain. -/

namespace Sys2Proof.Machine

/-! ### The opening of a beat window -/

/-- What the opening of a window leaves as it is until pairing may start. -/
structure SameAtOpening (t s : State) : Prop where
  twin : t.twin = s.twin
  freeCtr : t.freeCtr = s.freeCtr
  draft : t.core.draft = s.core.draft
  mode : t.glb.state = s.glb.state
  phase : t.pick.phase = s.pick.phase
  waiting : t.mgt.waiting = s.mgt.waiting
  flash : t.flash = s.flash

theorem SameAtOpening.trans {a b c : State} (h : SameAtOpening a b) (g : SameAtOpening b c) : SameAtOpening a c :=
  ⟨h.twin.trans g.twin, h.freeCtr.trans g.freeCtr, h.draft.trans g.draft, h.mode.trans g.mode, h.phase.trans g.phase,
    h.waiting.trans g.waiting, h.flash.trans g.flash⟩

theorem State.announce_opening (s : State) : SameAtOpening s.announce s := by
  unfold State.announce; dsimp only; split <;> constructor <;> rfl

theorem State.sendMarkers_opening (s : State) : SameAtOpening s.sendMarkers s := by
  constructor <;> rfl

theorem State.throttle_opening (s : State) (r : Readings) : SameAtOpening (s.throttle r) s := by
  unfold State.throttle; dsimp only; split <;> constructor <;> rfl

theorem State.beatStep_opening (s : State) (f : State → State) : SameAtOpening (s.beatStep f) (f s) := by
  unfold State.beatStep; dsimp only; split <;> constructor <;> rfl

theorem State.pwrReport_opening (s : State) (code detail : Nat) : SameAtOpening (s.pwrReport code detail) s := by
  unfold State.pwrReport State.report; dsimp only; split <;> constructor <;> rfl

theorem State.thermalEmergency_of_flash {s t : State} (h : t.flash = s.flash) (r : Readings) :
    t.thermalEmergency r = s.thermalEmergency r := by
  simp [State.thermalEmergency, State.inletLimit, State.setting, State.settings, h]

/-- Readings that are no emergency (Table 18-8) are kept and reported, and nothing stops for them. -/
theorem State.snapshot_opening {s : State} {r : Readings} (h : s.thermalEmergency r = false) : SameAtOpening (s.snapshot r) s := by
  unfold State.snapshot; simp only [h, Bool.false_eq_true, if_false]
  split
  · exact (State.pwrReport_opening _ _ _).trans (by constructor <;> rfl)
  · constructor <;> rfl

theorem State.takeBeatCommands_opening {s : State} (h : s.mgt.waiting = []) : SameAtOpening s.takeBeatCommands s := by
  constructor <;> simp [State.takeBeatCommands, h]

/-- The pairing steps of a window's opening. -/
def State.pairAtOpening (s : State) : State := s.resumed.pairings.helloBack.copyAgain

/-- A window opens where no emergency is read and no command waits: what comes before the pairing steps leaves the pair as it is. -/
theorem beatWindowOpen_pairs {s : State} {r : Readings} (hop : s.operational = true) (hph : s.pick.phase = .span)
    (hrun : s.core.running = []) (hcool : s.thermalEmergency r = false) (hwait : s.mgt.waiting = []) :
    ∃ u : State, Runs (.beatWindowOpen r) s (u.beatStep State.pairAtOpening) ∧ u.twin = s.twin ∧ u.freeCtr = s.freeCtr ∧
      u.core.draft = s.core.draft ∧ u.pick.phase = .opened := by
  have hbeat : s.beating = true := by simp [State.beating, hop]
  have hmode : s.glb.state = .operational := by simpa [State.operational] using hop
  let opened : State := { s with
    pick := { s.pick with phase := .opened, missed := if s.pick.self then 0 else s.pick.missed + 1, epochs := r.epochs }
    core := { s.core with cycle := spanCycles s.pick.period10 s.pick.windowUs s.pick.step } }
  let s1 := opened.announce
  have h1 : SameAtOpening s1 opened := opened.announce_opening
  have hcool1 : s1.thermalEmergency r = false := (State.thermalEmergency_of_flash h1.flash r).trans hcool
  let s2 := s1.snapshot r
  have h2 : SameAtOpening s2 opened := (State.snapshot_opening hcool1).trans h1
  let s3 := s2.beatStep State.takeBeatCommands
  have h3 : SameAtOpening s3 opened :=
    ((s2.beatStep_opening _).trans (State.takeBeatCommands_opening (h2.waiting.trans hwait))).trans h2
  let s4 := (s3.beatStep fun s => s.throttle r).sendMarkers
  have h4 : SameAtOpening s4 opened :=
    ((State.sendMarkers_opening _).trans ((s3.beatStep_opening _).trans (s3.throttle_opening r))).trans h3
  refine ⟨s4, ?_, h4.twin, h4.freeCtr, h4.draft, h4.phase⟩
  have hsame : s2.glb.state = s1.glb.state := h2.mode.trans h1.mode.symm
  have hop4 : s4.operational = true := by rw [State.operational, h4.mode]; exact hop
  have hbeat3 : s3.beating = true := by
    have hop3 : s3.operational = true := by rw [State.operational, h3.mode]; exact hop
    simp [State.beating, hop3]
  show execBeatWindowOpen r s = _
  refine (if_neg (by simp [hbeat, hph, hrun])).trans ?_
  refine (if_neg (c := s2.glb.state ≠ s1.glb.state) (by simp [hsame])).trans ?_
  refine (if_neg (c := (!s3.beating) = true) (by simp [hbeat3])).trans ?_
  exact congrArg Host.Outcome.next (if_pos hop4)

/-! ### Pairing -/

theorem State.resumed_apart {s : State} (h : s.twin.state ≠ .hold) : s.resumed = { s with twin := { s.twin with resume := false } } := by
  by_cases hres : s.twin.resume = true
  · simp [State.resumed, hres, h]
  · rw [Bool.not_eq_true] at hres
    have hkeep : s.resumed = s := by simp [State.resumed, hres]
    rw [hkeep, ← hres]

/-- A `PAIR` that waits starts pairing where a draft is in force (R380, R97). -/
theorem State.pairings_asked {s : State} (hat : s.twin.pairAt = true) (hd : s.core.draft.isSome = true) :
    s.pairings = ({ s with twin := { s.twin with pairAt := false, portUp := false, first := false } } : State).startPairing := by
  simp [State.pairings, hat, hd]

theorem State.startPairing_attested {s : State} (hst : s.twin.state = .unpaired) (ha : Config.attests s.freeCtr = true) :
    s.startPairing = ({ s with freeCtr := s.freeCtr + 1, twin := { s.twin with state := .handshake, pairFail := 0 } } : State).sendHello := by
  simp [State.startPairing, hst, ha]

theorem State.startPairing_refused {s : State} (hst : s.twin.state = .unpaired) (ha : Config.attests s.freeCtr = false) :
    s.startPairing = ({ s with freeCtr := s.freeCtr + 1, twin := { s.twin with pairFail := 7 } } : State).report 0x0B02 0 := by
  simp [State.startPairing, State.pairFailed, hst, ha]

@[simp] theorem State.sendHello_twin (s : State) : s.sendHello.twin = s.twin := rfl

theorem State.hello_mem_sendHello (s : State) {p : Nat} (hp : p ∈ [16, 17]) : Out.hello p s.hello ∈ s.sendHello.out :=
  List.mem_append_right _ (List.mem_map_of_mem hp)

@[simp] theorem State.helloBack_twin (s : State) : s.helloBack.twin = s.twin := by
  unfold State.helloBack; split <;> rfl

theorem State.mem_helloBack_out {s : State} {o : Out} (h : o ∈ s.out) : o ∈ s.helloBack.out := by
  unfold State.helloBack; split
  · exact List.mem_append_left _ h
  · exact h

theorem State.copyAgain_apart {s : State} (h : s.twin.state ≠ .copying) (h' : s.twin.state ≠ .absorbed) : s.copyAgain = s := by
  simp [State.copyAgain, h, h']

/-- Outside a pair the pairing steps of an opening are the start of pairing, and the hello of a module back from a warm start. -/
theorem State.pairAtOpening_asked {s : State} (hat : s.twin.pairAt = true) (hd : s.core.draft.isSome = true)
    (hst : s.twin.state = .unpaired) :
    s.pairAtOpening =
      ({ s with twin := { s.twin with resume := false, pairAt := false, portUp := false, first := false } } : State).startPairing.helloBack.copyAgain := by
  rw [State.pairAtOpening, State.resumed_apart (by simp [hst]), State.pairings_asked (by exact hat) (by exact hd)]

theorem State.pairAtOpening_attested {s : State} (hat : s.twin.pairAt = true) (hd : s.core.draft.isSome = true)
    (hst : s.twin.state = .unpaired) (ha : Config.attests s.freeCtr = true) :
    s.pairAtOpening.twin.pairAt = false ∧ s.pairAtOpening.twin.state = .handshake ∧ s.pairAtOpening.twin.pairFail = 0 ∧
      ∀ p ∈ [16, 17], ∃ f, Out.hello p f ∈ s.pairAtOpening.out := by
  rw [State.pairAtOpening_asked hat hd hst, State.startPairing_attested (by exact hst) (by exact ha), State.copyAgain_apart (by simp) (by simp)]
  refine ⟨by simp, by simp, by simp, fun p hp => ⟨_, State.mem_helloBack_out (State.hello_mem_sendHello _ hp)⟩⟩

theorem State.pairAtOpening_refused {s : State} (hat : s.twin.pairAt = true) (hd : s.core.draft.isSome = true)
    (hst : s.twin.state = .unpaired) (ha : Config.attests s.freeCtr = false) :
    s.pairAtOpening.twin.pairAt = false ∧ s.pairAtOpening.twin.state = .unpaired ∧ s.pairAtOpening.twin.pairFail = 7 := by
  rw [State.pairAtOpening_asked hat hd hst, State.startPairing_refused (by exact hst) (by exact ha), State.copyAgain_apart (by simp [hst]) (by simp [hst])]
  refine ⟨by simp, by simp [hst], by simp⟩

@[simp] theorem State.pairAtOpening_phase (s : State) : s.pairAtOpening.pick.phase = s.pick.phase := by
  simp [State.pairAtOpening]

@[simp] theorem State.beatStep_wholeTwin (s : State) (f : State → State) : (s.beatStep f).twin = (f s).twin := by
  unfold State.beatStep; dsimp only; split <;> rfl

@[simp] theorem State.beatStep_out (s : State) (f : State → State) : (s.beatStep f).out = (f s).out := by
  unfold State.beatStep; dsimp only; split <;> rfl

/-- A window that opens where `PAIR` waits and a draft is in force starts pairing (R380). -/
theorem beatWindowOpen_asked {s : State} {r : Readings} (hop : s.operational = true) (hat : s.twin.pairAt = true)
    (hd : s.core.draft.isSome = true) (hst : s.twin.state = .unpaired) (hph : s.pick.phase = .span) (hrun : s.core.running = [])
    (hcool : s.thermalEmergency r = false) (hwait : s.mgt.waiting = []) :
    ∃ t, Runs (.beatWindowOpen r) s t ∧ t.pick.phase = .opened ∧ t.twin.pairAt = false ∧
      (Config.attests s.freeCtr = true → t.twin.state = .handshake ∧ t.twin.pairFail = 0 ∧ ∀ p ∈ [16, 17], ∃ f, Out.hello p f ∈ t.out) ∧
      (Config.attests s.freeCtr = false → t.twin.state = .unpaired ∧ t.twin.pairFail = 7) := by
  obtain ⟨u, hruns, htwin, hfree, hdraft, hphase⟩ := beatWindowOpen_pairs hop hph hrun hcool hwait
  rw [← htwin] at hat hst
  rw [← hdraft] at hd
  rw [← hfree]
  refine ⟨_, hruns, by simp [hphase], ?_⟩
  rw [u.beatStep_wholeTwin, u.beatStep_out]
  cases ha : Config.attests u.freeCtr with
  | true =>
    obtain ⟨hoff, hrest⟩ := State.pairAtOpening_attested hat hd hst ha
    exact ⟨hoff, fun _ => hrest, fun h => by simp at h⟩
  | false =>
    obtain ⟨hoff, hrest⟩ := State.pairAtOpening_refused hat hd hst ha
    exact ⟨hoff, fun h => by simp at h, fun _ => hrest⟩

/-! ### The commands -/

theorem pair_accepted {s : State} (hop : s.operational = true) (h : s.bar0Busy = false) :
    Runs .pair s { s with twin := { s.twin with pairAt := true } } := by
  have hrun := runs_pair hop
  simpa [State.pairCmd, h] using hrun

theorem handback_accepted {s : State} (hop : s.operational = true) (hst : s.twin.state = .absorbed) (hh : s.twin.holds = true) :
    Runs .handback s { s with twin := { s.twin with handbackAt := some s.twin.beat } } := by
  have hrun := runs_handback hop
  simpa [State.handbackCmd, hst, hh] using hrun

theorem detach_accepted {s : State} (hop : s.operational = true) (hst : s.twin.state = .sync) :
    Runs .detach s { s with twin := { s.twin with detachAt := some s.twin.beat } } := by
  have hrun := runs_detach hop
  rwa [State.detachCmd, if_pos hst] at hrun

theorem compare_accepted {s : State} (hop : s.operational = true) (hst : s.twin.state ∈ [PairState.sync, .recopy]) :
    Runs .compare s { s with out := s.out ++ [.digestSend s.mirrorDigest s.twin.mirror.last] } := by
  have hrun := runs_compare hop
  have hst' : s.twin.state = .sync ∨ s.twin.state = .recopy := by simpa using hst
  rwa [State.compareCmd, if_pos (by simpa using hst')] at hrun

theorem drain_accepted {s : State} (hop : s.operational = true) (hst : s.twin.state = .sync) (hd : s.twin.drain = none)
    (hdue : s.twin.drainDue = false) :
    Runs .drain s { s with twin := { s.twin with drainDue := true, drainState := 1, drainBytes := 0 } } := by
  have hrun := runs_drain hop
  rwa [State.drainCmd, if_pos (by simp [hst, hd, hdue])] at hrun

/-! ### `ABSORB` -/

/-- The interruption of a group's tasks (R308) writes no memory. -/
theorem Core.interrupt_mem (c : Core) (addr : Nat) : (c.interrupt addr).mem = c.mem := by
  unfold Core.interrupt
  extract_lets hit chans tasks c1
  show c1.mem = c.mem
  dsimp only [c1]
  clear_value tasks
  induction tasks generalizing c with
  | nil => rfl
  | cons t l ih =>
    rw [List.foldl_cons, ih]
    split <;> rfl

theorem absorb_accepted {s : State} (hop : s.operational = true) (hst : s.twin.state = .absorbed) (hh : s.twin.holds = false)
    (hnone : s.twin.absorbAt = none) (hdrop : s.twin.dropped = false) (hbeat : s.pick.counter + 2 ≤ s.twin.beat) :
    ∃ t, Runs .absorb s t ∧ t.twin = { s.twin with absorbAt := some s.twin.beat, event := t.twin.event } ∧
      t.out.getLast? = some (.lossNoticeOut (twinAddr s.myAddr) s.twin.lastBeat (some s.twin.beat)) ∧ t.core.mem = s.core.mem := by
  have hrun := runs_absorb hop
  have hcmd : s.absorbCmd =
      (({ s with twin := { s.twin with absorbAt := some s.twin.beat } } : State).lossNotice (twinAddr s.myAddr) s.twin.lastBeat
        (some s.twin.beat)).emit (.lossNoticeOut (twinAddr s.myAddr) s.twin.lastBeat (some s.twin.beat)) := by
    have hlate : ¬ s.twin.beat < s.pick.counter + 2 := Nat.not_lt.mpr hbeat
    simp [State.absorbCmd, hst, hh, hnone, hdrop, hlate]
  rw [hcmd] at hrun
  exact ⟨_, hrun, rfl, by simp, Core.interrupt_mem _ _⟩

/-! ### `DRAIN` -/

/-- The beat that applies a `DRAIN` takes the mirror's image (R405). -/
theorem configApply_takes_drain {s : State} (hop : s.operational = true) (hdue : s.twin.drainDue = true) (hph : s.pick.phase = .sealed) :
    ∃ t, Runs .configApply s t ∧ t.twin.drainDue = false ∧
      t.twin.drain = some (s.twin.mirror.mem, s.twin.mirror.objs.filter fun p => p.2.cls = 0) := by
  have hbeat : s.beating = true := by simp [State.beating, hop]
  obtain ⟨hoff, himage⟩ := s.configure_sameDrain
  have htake : s.takeDrain.twin.drainDue = false ∧
      s.takeDrain.twin.drain = some (s.twin.mirror.mem, s.twin.mirror.objs.filter fun p => p.2.cls = 0) := by
    simp [State.takeDrain, hdue]
  have hrun : ∃ t, Runs .configApply s t ∧ t.twin = s.configure.twin := by
    refine ⟨_, if_neg (by simp [hbeat, hph]), ?_⟩
    split <;> simp [hop]
  obtain ⟨t, hrun, htwin⟩ := hrun
  exact ⟨t, hrun, by rw [htwin, hoff, htake.1], by rw [htwin, himage, htake.2]⟩

@[simp] theorem State.hostPut_twin (s : State) (a : Nat) (data : Bytes) : (s.hostPut a data).twin = s.twin := rfl
@[simp] theorem State.hostPut_core (s : State) (a : Nat) (data : Bytes) : (s.hostPut a data).core = s.core := rfl
@[simp] theorem State.hostPut_committed (s : State) (a : Nat) (data : Bytes) : (s.hostPut a data).committed = s.committed := rfl

/-- How much of its image a drain writes: all of it, or the whole 64-byte units that the range has room for. -/
def State.drained (s : State) (img : Bytes) : Nat := if img.length ≤ s.twin.drainLen then img.length else s.twin.drainLen / 64 * 64

/-- The state with that much of the image written. -/
def State.putDrained (s : State) (img : Bytes) : State :=
  if s.drained img = 0 then s else s.hostPut s.twin.drainAddr (img.take (s.drained img))

@[simp] theorem State.putDrained_twin (s : State) (img : Bytes) : (s.putDrained img).twin = s.twin := by
  unfold State.putDrained; split <;> simp

@[simp] theorem State.putDrained_core (s : State) (img : Bytes) : (s.putDrained img).core = s.core := by
  unfold State.putDrained; split <;> simp

@[simp] theorem State.putDrained_committed (s : State) (img : Bytes) : (s.putDrained img).committed = s.committed := by
  unfold State.putDrained; split <;> simp

/-- A drain that ends: the image is written as far as the range goes, and the block says how far (R405). -/
def State.endDrain (s : State) (img : Bytes) : State :=
  let s1 := s.putDrained img
  ({ s1 with twin := { s1.twin with
    drain := none, drainState := if img.length ≤ s.twin.drainLen then 2 else 3, drainBytes := s.drained img } } : State).twinEvent 4

theorem drainDone_ends {s : State} {d : Memory × List (Nat × Obj)} (hd : s.twin.drain = some d) (hup : s.linkUp = true) :
    Runs .drainDone s (s.endDrain (drainImage (s.policy.coding = 1) d.2 fun a => { s.twin.mirror with mem := d.1 }.block a)) := by
  show execDrainDone s = _
  unfold execDrainDone
  rw [hd]
  exact if_neg (by simp [hup])

theorem State.endDrain_bytes (s : State) (img : Bytes) : (s.endDrain img).twin.drainBytes = s.drained img := rfl

theorem State.endDrain_whole {s : State} {img : Bytes} (h : img.length ≤ s.twin.drainLen) :
    (s.endDrain img).twin.drainState = 2 ∧ (s.endDrain img).twin.drainBytes = img.length :=
  ⟨if_pos h, if_pos h⟩

theorem State.endDrain_cut {s : State} {img : Bytes} (h : s.twin.drainLen < img.length) :
    (s.endDrain img).twin.drainState = 3 ∧ (s.endDrain img).twin.drainBytes = s.twin.drainLen / 64 * 64 :=
  ⟨if_neg (Nat.not_le.mpr h), if_neg (Nat.not_le.mpr h)⟩

theorem State.endDrain_out (s : State) (img : Bytes) : (s.endDrain img).out = (s.putDrained img).out := rfl

/-- Settles O18: each command by the branch of its test that accepts it; `PAIR` and `DRAIN` go on with the opening of a window and with
CONFIG_APPLY, which leave the pair alone but for pairing and for the taking of the image. -/
theorem twinCommandsAct : Obligations.TwinCommandsAct := by
  unfold Obligations.TwinCommandsAct
  intro s hop
  refine ⟨pair_accepted hop, fun r hat hd hst hph hrun hcool hwait => beatWindowOpen_asked hop hat hd hst hph hrun hcool hwait,
    absorb_accepted hop, handback_accepted hop, detach_accepted hop, compare_accepted hop, drain_accepted hop,
    configApply_takes_drain hop, fun d hd hup => ?drained⟩
  case drained =>
    refine ⟨_, drainDone_ends hd hup, rfl, ?_, State.endDrain_whole, State.endDrain_cut, fun hzero => ?_, fun hsome => ?_, ?_, ?_, ?_, ?_⟩
    · simp [State.endDrain]
    · rw [State.endDrain_bytes] at hzero
      rw [State.endDrain_out, State.putDrained, if_pos hzero]
    · rw [State.endDrain_bytes] at hsome ⊢
      rw [State.endDrain_out, State.putDrained, if_neg hsome]
    all_goals simp [State.endDrain]

end Sys2Proof.Machine
end

section
/-! PROOF. Words of local SRAM read back where a command of the vector unit wrote them. -/

namespace Sys2Proof.Machine

/-! ### Little-endian words -/

theorem leNat_lt (bs : Bytes) : leNat bs < 256 ^ bs.length := by
  induction bs with
  | nil => simp [leNat]
  | cons b bs ih =>
    have := b.isLt
    rw [leNat, List.length_cons, Nat.pow_succ]
    omega

@[simp] theorem leBytes_length (k v : Nat) : (leBytes k v).length = k := by
  induction k generalizing v with
  | zero => rfl
  | succ k ih => simp [leBytes, ih]

@[simp] theorem leNat_leBytes (k v : Nat) : leNat (leBytes k v) = v % 256 ^ k := by
  induction k generalizing v with
  | zero => simp [leBytes, leNat, Nat.mod_one]
  | succ k ih =>
    have hbyte : (BitVec.ofNat 8 v).toNat = v % 256 := BitVec.toNat_ofNat v 8
    rw [leBytes, leNat, ih, hbyte, Nat.pow_succ', Nat.mod_mul]

@[simp] theorem packVals_length (k : Nat) (ws : List Nat) : (packVals k ws).length = k * ws.length := by
  induction ws with
  | nil => rfl
  | cons w ws ih => rw [packVals, List.flatMap_cons, List.length_append, leBytes_length, List.length_cons, Nat.mul_succ, ← ih, packVals,
      Nat.add_comm]

theorem fieldAt_lt (bs : Bytes) (off k : Nat) : fieldAt bs off k < 256 ^ k :=
  Nat.lt_of_lt_of_le (leNat_lt _) (Nat.pow_le_pow_right (by decide) (List.length_take_le ..))

theorem fieldAt_packVals (k : Nat) {ws : List Nat} {i : Nat} (h : i < ws.length) :
    fieldAt (packVals k ws) (k * i) k = ws[i] % 256 ^ k := by
  induction ws generalizing i with
  | nil => exact absurd h (Nat.not_lt_zero i)
  | cons w ws ih =>
    have hcons : packVals k (w :: ws) = leBytes k w ++ packVals k ws := rfl
    rw [fieldAt, hcons]
    cases i with
    | zero => simp [List.take_left']
    | succ i =>
      rw [Nat.mul_succ, Nat.add_comm, ← List.drop_drop, List.drop_left' (leBytes_length k w)]
      exact ih (Nat.lt_of_succ_lt_succ h)

/-! ### Rows of local SRAM -/

theorem Core.sramRow_lt {c : Core} {n cu off len e : Nat} (h : e ∈ c.sramRow n cu off len) : e < 2 ^ 32 := by
  obtain ⟨i, -, rfl⟩ := List.mem_map.mp h
  exact fieldAt_lt _ _ 4

@[simp] theorem Core.sramRow_length (c : Core) (n cu off len : Nat) : (c.sramRow n cu off len).length = len := by
  simp [Core.sramRow]

theorem Core.sramRow_of_onchip {c d : Core} (h : c.onchip = d.onchip) (n cu off len : Nat) :
    c.sramRow n cu off len = d.sramRow n cu off len := by
  simp only [Core.sramRow, Core.sramRead, Core.sramByte, h]

theorem Core.sramRead_sramWrite_same (c : Core) (n cu off : Nat) (bs : Bytes) :
    (c.sramWrite cu off bs).sramRead n cu off bs.length = bs := by
  refine List.ext_getElem (by simp [Core.sramRead]) fun i _ hi => ?_
  have hin : sramKey cu off ≤ sramKey cu (off + i) ∧ sramKey cu (off + i) < sramKey cu off + bs.length := by
    unfold sramKey; omega
  have hat : sramKey cu (off + i) - sramKey cu off = i := by unfold sramKey; omega
  simp only [Core.sramRead, List.getElem_map, List.getElem_range, Core.sramByte_sramWrite, if_pos hin, hat,
    List.getElem?_eq_getElem hi, Option.getD_some]

/-- The words of a row that is written are read back to 32 bits each. -/
theorem Core.sramRow_sramWrite_same (c : Core) (n cu off : Nat) (ws : List Nat) :
    (c.sramWrite cu off (packVals 4 ws)).sramRow n cu off ws.length = ws.map (· % 2 ^ 32) := by
  have hread := c.sramRead_sramWrite_same n cu off (packVals 4 ws)
  rw [packVals_length] at hread
  refine List.ext_getElem (by simp) fun i _ hi => ?_
  simp only [Core.sramRow, hread, List.getElem_map, List.getElem_range]
  exact fieldAt_packVals 4 (by simpa using hi)

/-- A command of the vector unit whose operands fit leaves in local SRAM what it writes. -/
theorem State.onVector_onchip {s : State} {t : TaskRef} {k : Task} {ends : List Nat} {f : Core → Nat → List (Nat × Bytes) × Nat}
    (h : OnCu s t k) (he : ends.foldl max 0 ≤ sramBytes) :
    ∃ u, s.onVector t ends f = .next u ∧
      u.core.onchip = ((f s.core k.cu).1.foldl (fun c w => c.sramWrite k.cu w.1 w.2) s.core).onchip := by
  obtain ⟨hop, htask, hphase, hengine⟩ := h
  have hruns : ¬ (!s.operational || k.phase ≠ .running || 2 < k.desc.engine) = true := by
    rw [hop, hphase, decide_eq_false (Nat.not_lt.mpr hengine)]
    decide
  simp only [State.onVector, htask, if_neg hruns, if_neg (Nat.not_lt.mpr he)]
  exact ⟨_, rfl, rfl⟩

/-- One that writes one row of words: the row holds them, each to the 32 bits of its word. -/
theorem State.onVector_row {s : State} {t : TaskRef} {k : Task} {ends : List Nat} {f : Core → Nat → List (Nat × Bytes) × Nat} {res : Res}
    {dst fl : Nat} {ws : List Nat} (n : Nat) (hres : res = s.onVector t ends f) (h : OnCu s t k) (he : ends.foldl max 0 ≤ sramBytes)
    (hf : f s.core k.cu = ([(dst, packVals 4 ws)], fl)) :
    ∃ u, res = .next u ∧ u.core.sramRow n k.cu dst ws.length = ws.map (· % 2 ^ 32) := by
  obtain ⟨u, hu, honchip⟩ := State.onVector_onchip (f := f) h he
  rw [hf] at honchip
  exact ⟨u, hres.trans hu, (Core.sramRow_of_onchip honchip ..).trans (Core.sramRow_sramWrite_same ..)⟩

end Sys2Proof.Machine
end

section
/-! PROOF. Binary32 to nearest even (Table 5-1, R172) at the values that `ROWSTAT` relies on: the form of every rounded result, and the
results that are exact. -/

namespace Sys2Proof.Machine

/-! ### The value of a pattern -/

/-- The decoding of binary32 by its fields. -/
theorem ofF32_fields (b : Nat) :
    ofF32 b =
      if b / 2 ^ 23 % 256 = 255 then (if b % 2 ^ 23 = 0 then .inf (b / 2 ^ 31 % 2 = 1) else .nan)
      else if b / 2 ^ 23 % 256 = 0 then .fin (b / 2 ^ 31 % 2 = 1) (b % 2 ^ 23) (-149)
      else .fin (b / 2 ^ 31 % 2 = 1) (2 ^ 23 + b % 2 ^ 23) ((b / 2 ^ 23 % 256 : Nat) - 150) := by
  have hleast : (1 : Int) - (127 : Nat) - (23 : Nat) = -149 := rfl
  have hexp (e : Nat) : (e : Int) - (127 : Nat) - (23 : Nat) = e - 150 := by omega
  simp only [ofF32, Fmt.decode, fp32, Bool.false_eq_true, false_and, not_false_eq_true, true_and, if_false, hleast, hexp,
    Nat.reducePow, Nat.reduceAdd, Nat.reduceSub] <;> rfl

theorem notFinite32_iff (b : Nat) : notFinite32 b = true ↔ b / 2 ^ 23 % 256 = 255 := by
  rw [notFinite32, ofF32_fields]
  (repeat' split) <;> simp_all [FV.isFin]

theorem isNan32_iff (b : Nat) : isNan32 b = true ↔ b / 2 ^ 23 % 256 = 255 ∧ b % 2 ^ 23 ≠ 0 := by
  rw [isNan32, ofF32_fields]
  (repeat' split) <;> simp_all [FV.isNan]

/-- A finite pattern by its sign, its mantissa of up to 24 bits and its exponent in steps above the least, which the subnormals share:
there alone the leading bit may be missing. -/
structure Finite32 (b : Nat) (neg : Bool) (m j : Nat) : Prop where
  pattern : b = b2n neg * 2 ^ 31 + j * 2 ^ 23 + m
  mantissa : m < 2 ^ 24
  step : j ≤ 253
  leading : j = 0 ∨ 2 ^ 23 ≤ m
  value : ofF32 b = .fin neg m (j - 149)

theorem exists_finite32 {b : Nat} (h32 : b < 2 ^ 32) (hfin : notFinite32 b = false) : ∃ neg m j, Finite32 b neg m j := by
  have hexp : b / 2 ^ 23 % 256 ≠ 255 := by rw [Ne, ← notFinite32_iff, hfin]; decide
  have hval := ofF32_fields b
  rw [if_neg hexp] at hval
  have hsign : b2n (decide (b / 2 ^ 31 % 2 = 1)) = b / 2 ^ 31 := by
    obtain h | h : b / 2 ^ 31 = 0 ∨ b / 2 ^ 31 = 1 := by omega
    all_goals rw [h]; rfl
  by_cases h0 : b / 2 ^ 23 % 256 = 0
  · rw [if_pos h0] at hval
    exact ⟨_, _, 0, by rw [hsign]; omega, by omega, by omega, .inl rfl, hval⟩
  · rw [if_neg h0] at hval
    refine ⟨_, 2 ^ 23 + b % 2 ^ 23, b / 2 ^ 23 % 256 - 1, by rw [hsign]; omega, by omega, by omega, .inr (by omega), hval.trans ?_⟩
    congr 1
    omega

/-! ### Rounding to nearest even -/

/-- Rounding a nonzero value gives its sign and the kept part under its exponent, infinity where that reaches its pattern. -/
theorem toF32_fin (neg : Bool) {m : Nat} (e : Int) (hm : m ≠ 0) :
    toF32 (.fin neg m e) =
      let q := max (leadExp m e - 23) (-149)
      b2n neg * 2 ^ 31 + min 0x7F800000 ((q + 149).toNat * 2 ^ 23 + keepNe neg m e q) := by
  have htop : (2 ^ fp32.eb - 1) * 2 ^ fp32.mb = 0x7F800000 := rfl
  simp only [toF32, Fmt.ieee, if_neg hm, Fmt.ieeeFin, htop, if_true]
  split
  · next hover => exact congrArg (_ + ·) (Nat.min_eq_left hover).symm
  · next hunder => exact congrArg (_ + ·) (Nat.min_eq_right (Nat.le_of_not_le hunder)).symm

theorem toF32_inf (neg : Bool) : toF32 (.inf neg) = b2n neg * 2 ^ 31 + 0x7F800000 := by
  simp [toF32, Fmt.ieee, Fmt.infBits, fp32]

theorem toF32_zero (neg : Bool) (e : Int) : toF32 (.fin neg 0 e) = b2n neg * 2 ^ 31 := rfl

/-- Every rounded result is the canonical NaN or a sign above a pattern that is at most infinity's. -/
theorem toF32_shape (x : FV) : toF32 x = 0x7FC00000 ∨ ∃ neg b, toF32 x = b2n neg * 2 ^ 31 + b ∧ b ≤ 0x7F800000 := by
  cases x with
  | nan => exact .inl rfl
  | inf neg => exact .inr ⟨neg, 0x7F800000, toF32_inf neg, Nat.le_refl _⟩
  | fin neg m e =>
    by_cases hm : m = 0
    · subst hm; exact .inr ⟨neg, 0, (toF32_zero neg e).trans (Nat.add_zero _).symm, by decide⟩
    · exact .inr ⟨neg, _, toF32_fin neg e hm, Nat.min_le_left ..⟩

theorem b2n_le_one (b : Bool) : b2n b ≤ 1 := by cases b <;> decide

theorem toF32_of_isNan32 {x : FV} (h : isNan32 (toF32 x) = true) : toF32 x = 0x7FC00000 := by
  refine (toF32_shape x).resolve_right ?_
  rintro ⟨neg, b, hx, hb⟩
  rw [hx, isNan32_iff] at h
  have := b2n_le_one neg
  omega

theorem toF32_lt (x : FV) : toF32 x < 2 ^ 32 := by
  obtain hx | ⟨neg, b, hx, hb⟩ := toF32_shape x
  · rw [hx]; decide
  · have := b2n_le_one neg
    omega

theorem keepNe_of_le (neg : Bool) (m : Nat) {e q : Int} (h : q ≤ e) : keepNe neg m e q = m * 2 ^ (e - q).toNat := by
  simp [keepNe, splitAtExp, h, Rnd.up?, b2n]

/-- Nothing is lost of a multiple of the unit. -/
theorem keepNe_mul_two_pow (neg : Bool) (m j : Nat) (e : Int) : keepNe neg (m * 2 ^ j) e (j + e) = m := by
  cases j with
  | zero => simpa using keepNe_of_le neg m (show (0 : Int) + e ≤ e by omega)
  | succ j =>
    have hpos : 0 < 2 ^ (j + 1) := Nat.two_pow_pos _
    have hunit : ¬ ((j + 1 : Nat) : Int) + e ≤ e := by omega
    have hto : (((j + 1 : Nat) : Int) + e - e).toNat = j + 1 := by omega
    have hsplit : splitAtExp (m * 2 ^ (j + 1)) e ((j + 1 : Nat) + e) = (m, 0, 2 ^ (j + 1)) := by
      simp only [splitAtExp, if_neg hunit, hto, Nat.mul_div_cancel _ hpos, Nat.mul_mod_left]
    rw [keepNe, hsplit]
    simp [Rnd.up?, b2n, (Nat.ne_of_gt hpos).symm]

theorem leadExp_mul_two_pow {m : Nat} (j : Nat) (e : Int) (hm : m ≠ 0) : leadExp (m * 2 ^ j) e = leadExp m (j + e) := by
  have hlog : (m * 2 ^ j).log2 = m.log2 + j := by
    rw [Nat.log2_eq_iff (Nat.mul_ne_zero hm (Nat.ne_of_gt (Nat.two_pow_pos j))), Nat.add_right_comm, Nat.pow_add, Nat.pow_add]
    exact ⟨Nat.mul_le_mul_right _ (Nat.log2_self_le hm), Nat.mul_lt_mul_of_pos_right Nat.lt_log2_self (Nat.two_pow_pos j)⟩
  simp only [leadExp, hlog]
  omega

/-- A binary32 value rounds to its own pattern. -/
theorem Finite32.round {b : Nat} {neg : Bool} {m j : Nat} (h : Finite32 b neg m j) (hm : m ≠ 0) :
    toF32 (.fin neg (m * 2 ^ j) (-149)) = b := by
  obtain ⟨hpat, hman, hstep, hlead, -⟩ := h
  have hlog : m.log2 < 24 := (Nat.log2_lt hm).2 hman
  have hexp : max (leadExp (m * 2 ^ j) (-149) - 23) (-149) = (j : Int) + -149 := by
    rw [leadExp_mul_two_pow j _ hm, leadExp]
    rcases hlead with rfl | hlead
    · omega
    · have := (Nat.le_log2 hm).2 hlead
      omega
  have hto : ((j : Int) + -149 + 149).toNat = j := by omega
  rw [toF32_fin neg _ (Nat.mul_ne_zero hm (Nat.ne_of_gt (Nat.two_pow_pos j)))]
  dsimp only
  rw [hexp, keepNe_mul_two_pow, hto, Nat.min_eq_right (by omega), hpat, Nat.add_assoc]

/-! ### Exact results -/

theorem FV.ofInt_signed (neg : Bool) {m : Nat} (hm : m ≠ 0) (e : Int) (zeroNeg : Bool) :
    FV.ofInt (signed neg m) e zeroNeg = .fin neg m e := by
  cases neg <;> simp [FV.ofInt, signed, hm, Nat.pos_of_ne_zero hm]

theorem fSub_self {b : Nat} (h32 : b < 2 ^ 32) (hfin : notFinite32 b = false) : fSub b b = 0 := by
  obtain ⟨neg, m, j, h⟩ := exists_finite32 h32 hfin
  have hcancel : signed neg m + signed (!neg) m = 0 := by
    cases neg
    · exact Int.add_right_neg _
    · exact Int.add_left_neg _
  have hdiff : FV.add .ne (ofF32 b) (ofF32 b).neg = .fin false 0 0 := by
    simp only [h.value, FV.neg, FV.add, ← Int.add_mul, hcancel, Int.zero_mul, FV.ofInt, if_true]
    cases neg <;> rfl
  rw [fSub, hdiff]
  rfl

/-- Adding +0 keeps a finite value; −0 becomes +0. -/
theorem fAdd_zero {b : Nat} (h32 : b < 2 ^ 32) (hfin : notFinite32 b = false) :
    fAdd b 0 = if b = 0x80000000 then 0 else b := by
  obtain ⟨neg, m, j, h⟩ := exists_finite32 h32 hfin
  have hzero : ofF32 0 = .fin false 0 (-149) := rfl
  have hmin : min ((j : Int) - 149) (-149) = -149 := by omega
  have hshift : ((j : Int) - 149 - -149).toNat = j := by omega
  have hsigned : signed neg m * 2 ^ j + signed false 0 * 2 ^ ((-149 : Int) - -149).toNat = signed neg (m * 2 ^ j) := by
    cases neg <;> simp [signed, Int.neg_mul]
  have hsign : (if neg = false then neg else decide (Rnd.ne = Rnd.dn)) = false := by cases neg <;> rfl
  have hsum : fAdd b 0 = toF32 (.ofInt (signed neg (m * 2 ^ j)) (-149) false) := by
    simp only [fAdd, h.value, hzero, FV.add, hmin, hshift, hsigned, hsign]
  obtain ⟨hpat, hman, hstep, hlead, -⟩ := id h
  by_cases hm : m = 0
  · subst hm
    have hj0 : j = 0 := by omega
    subst hj0
    subst hpat
    cases neg <;> rfl
  · have hne : b ≠ 0x80000000 := by have := b2n_le_one neg; omega
    rw [hsum, FV.ofInt_signed neg (Nat.mul_ne_zero hm (Nat.ne_of_gt (Nat.two_pow_pos j))), h.round hm, if_neg hne]

/-- A count's binary32 value is a normal number. -/
theorem fOfNat_normal {n : Nat} (h0 : n ≠ 0) (h : n < 2 ^ 24) : ∃ m e, m ≠ 0 ∧ ofF32 (fOfNat n) = .fin false m e := by
  have hlog : n.log2 < 24 := (Nat.log2_lt h0).2 h
  have hpow : 2 ^ n.log2 * 2 ^ (23 - n.log2) = 2 ^ 23 := by rw [← Nat.pow_add, Nat.add_sub_cancel' (by omega)]
  have hlow : 2 ^ 23 ≤ n * 2 ^ (23 - n.log2) := hpow ▸ Nat.mul_le_mul_right _ (Nat.log2_self_le h0)
  have hhigh : n * 2 ^ (23 - n.log2) < 2 ^ 24 := by
    have := Nat.mul_lt_mul_of_pos_right (n := n) Nat.lt_log2_self (Nat.two_pow_pos (23 - n.log2))
    rw [Nat.pow_succ, Nat.mul_right_comm, hpow] at this
    exact this
  have hexp : max (leadExp n 0 - 23) (-149) = (n.log2 : Int) - 23 := by unfold leadExp; omega
  have hbias : ((n.log2 : Int) - 23 + 149).toNat = n.log2 + 126 := by omega
  have hunit : (0 - ((n.log2 : Int) - 23)).toNat = 23 - n.log2 := by omega
  have hround : fOfNat n = (n.log2 + 126) * 2 ^ 23 + n * 2 ^ (23 - n.log2) := by
    rw [fOfNat, toF32_fin false _ h0]
    dsimp only
    rw [hexp, keepNe_of_le _ _ (by omega), hbias, hunit, Nat.min_eq_right (by omega)]
    exact Nat.zero_add _
  have hfields := ofF32_fields (fOfNat n)
  rw [if_neg (by omega), if_neg (by omega)] at hfields
  have hpos : ¬ fOfNat n / 2 ^ 31 % 2 = 1 := by omega
  rw [decide_eq_false hpos] at hfields
  exact ⟨_, _, by omega, hfields⟩

theorem fDiv_zero_count {n : Nat} (h0 : n ≠ 0) (h : n < 2 ^ 24) : fDiv 0 (fOfNat n) = 0 := by
  obtain ⟨m, e, hm, hval⟩ := fOfNat_normal h0 h
  have hzero : ofF32 0 = .fin false 0 (-149) := rfl
  simp [fDiv, hval, hzero, FV.div, hm, toF32_zero, b2n]

end Sys2Proof.Machine
end

section
/-! PROOF. The statistics of a row (R182 to R185): of identical finite values, and the sign of every variance. -/

namespace Sys2Proof.Machine

/-! ### The values of the flagged operations -/

@[simp] theorem FR.add_v (a b : FR) : (FR.add .ne a b).v = fAdd a.v b.v := rfl
@[simp] theorem FR.sub_v (a b : FR) : (FR.sub .ne a b).v = fSub a.v b.v := rfl
@[simp] theorem FR.mul_v (a b : FR) : (FR.mul .ne a b).v = fMul a.v b.v := rfl
@[simp] theorem FR.fma_v (a b c : FR) : (FR.fma .ne a b c).v = fFma a.v b.v c.v := rfl
@[simp] theorem FR.div_v (a b : FR) : (FR.div .ne a b).v = fDiv a.v b.v := rfl

/-! ### Sums by lanes and tree -/

theorem lt_of_mem_laneIdx {n k i : Nat} (h : i ∈ laneIdx n k) : i < n := by
  obtain ⟨j, hj, rfl⟩ := List.mem_map.mp h
  rw [List.mem_range] at hj
  omega

theorem joinLane_keeps {P : FR → Prop} {f : FR → FR → FR} (hf : ∀ a b, P a → P b → P (f a b)) {x y : Option FR}
    (hx : ∀ a, x = some a → P a) (hy : ∀ a, y = some a → P a) (a : FR) (ha : joinLane f x y = some a) : P a := by
  match x, y with
  | some b, some c => exact Option.some.inj ha ▸ hf b c (hx b rfl) (hy c rfl)
  | some b, none => exact hx a ha
  | none, y => exact hy a ha

/-- What every partial of a level meets and combining keeps, every partial of the next level meets. -/
theorem treeLevel_keeps {P : FR → Prop} {f : FR → FR → FR} (hf : ∀ a b, P a → P b → P (f a b)) (l : List (Option FR))
    (h : ∀ a, some a ∈ l → P a) (a : FR) (ha : some a ∈ treeLevel f l) : P a := by
  fun_induction treeLevel f l with
  | case1 x y l ih =>
    obtain hxy | hl := List.mem_cons.mp ha
    · exact joinLane_keeps hf (fun b hb => h b (by simp [hb])) (fun b hb => h b (by simp [hb])) a hxy.symm
    · exact ih (fun b hb => h b (by simp [hb])) hl
  | case2 l => exact h a ha

theorem mem_of_getD_zero_eq_some {α : Type} {l : List (Option α)} {a : α} (h : l.getD 0 none = some a) : some a ∈ l := by
  cases l with
  | nil => cases h
  | cons x l => exact List.mem_cons.mpr (.inl h.symm)

theorem tree64_keeps {P : FR → Prop} {f : FR → FR → FR} (hf : ∀ a b, P a → P b → P (f a b)) (l : List (Option FR))
    (h : ∀ a, some a ∈ l → P a) (a : FR) (ha : tree64 f l = some a) : P a := by
  have hlevel (l : List (Option FR)) := treeLevel_keeps hf l
  exact hlevel _ (hlevel _ (hlevel _ (hlevel _ (hlevel _ (hlevel l h))))) a (mem_of_getD_zero_eq_some ha)

/-- What +0 meets and each step and each addition keeps, the sum meets. -/
theorem laneTree_keeps {P : FR → Prop} {dir : Rnd} {n : Nat} {step : FR → Nat → FR} (h0 : P ⟨0, 0⟩)
    (hstep : ∀ s, P s → ∀ i < n, P (step s i)) (hadd : ∀ a b, P a → P b → P (.add dir a b)) : P (laneTree dir n step) := by
  have hlane : ∀ a, some a ∈ (List.range 64).map (fun k => some ((laneIdx n k).foldl step ⟨0, 0⟩)) → P a := by
    intro a ha
    obtain ⟨k, -, hk⟩ := List.mem_map.mp ha
    rw [← Option.some.inj hk]
    exact List.foldlRecOn _ step h0 fun s hs i hi => hstep s hs i (lt_of_mem_laneIdx hi)
  unfold laneTree
  cases hsum : tree64 (.add dir) _ with
  | none => exact h0
  | some a => exact tree64_keeps hadd _ hlane a hsum

/-- A sum whose steps keep +0 is +0. -/
theorem laneSum_eq_zero {n : Nat} {step : FR → Nat → FR} (h : ∀ s, s.v = 0 → ∀ i < n, (step s i).v = 0) : (laneSum n step).v = 0 :=
  laneTree_keeps (P := fun r => r.v = 0) rfl h fun a b ha hb => by rw [FR.add_v, ha, hb]; rfl

/-! ### A row of identical finite values -/

theorem rowAt_replicate {n v i : Nat} (h : i < n) : rowAt (List.replicate n v) i = ⟨v, 0⟩ := by
  simp [rowAt, h]

/-- Every difference from the first element is +0, and with them both moments. -/
theorem moments_replicate (n : Nat) {v : Nat} (h32 : v < 2 ^ 32) (hfin : notFinite32 v = false) :
    (moments (List.replicate n v) v).1.v = 0 ∧ (moments (List.replicate n v) v).2.v = 0 := by
  have hdiff {i : Nat} (hi : i < (List.replicate n v).length) : (FR.sub .ne (rowAt (List.replicate n v) i) ⟨v, 0⟩).v = 0 := by
    rw [rowAt_replicate (by simpa using hi), FR.sub_v, fSub_self h32 hfin]
  refine ⟨laneSum_eq_zero fun s hs i hi => ?_, laneSum_eq_zero fun s hs i hi => ?_⟩
  · rw [FR.add_v, hs, hdiff hi]; rfl
  · rw [FR.fma_v, hs, hdiff hi]; rfl

/-- Of zero moments the mean is the shift and the variance +0. -/
theorem meanVar_zero {n c : Nat} {m : FR × FR} (h0 : n ≠ 0) (h : n < 2 ^ 24) (hc : c < 2 ^ 32) (hfin : notFinite32 c = false)
    (h1 : m.1.v = 0) (h2 : m.2.v = 0) :
    (meanVar n c m).1.v = (if c = 0x80000000 then 0 else c) ∧ (meanVar n c m).2.v = 0 := by
  have hdev : fSub 0 (fMul 0 0) = 0 := rfl
  simp [meanVar, h1, h2, fDiv_zero_count h0 h, hdev, fAdd_zero hc hfin, isNan32_iff, bitOf]

/-- A row of identical finite values, shifted by its first element, has the mean and variance of R183. -/
theorem rowstat_replicate {n v : Nat} (h0 : n ≠ 0) (h : n < 2 ^ 24) (h32 : v < 2 ^ 32) (hfin : notFinite32 v = false) :
    (rowstat (List.replicate n v) false).1.v = (if v = 0x80000000 then 0 else v) ∧
      (rowstat (List.replicate n v) false).2.v = 0 := by
  have hall : (List.replicate n v).any notFinite32 = false := by simp [hfin]
  have hshift : (List.replicate n v).getD 0 0 = v := by simp [Nat.pos_of_ne_zero h0]
  obtain ⟨h1, h2⟩ := moments_replicate n h32 hfin
  have hmv := meanVar_zero h0 h h32 hfin h1 h2
  simpa only [rowstat, hall, hshift, List.length_replicate, Bool.false_eq_true, if_false] using hmv

/-! ### The sign of a variance -/

theorem qnan32_nonneg : 0x7FC00000 < 0x80000000 := by decide

/-- The final step of R182 leaves no sign: a negative result becomes +0, and a NaN is the canonical one. -/
theorem meanVar_nonneg (n c : Nat) (m : FR × FR) : (meanVar n c m).2.v < 0x80000000 := by
  simp only [meanVar]
  generalize hvar : FR.div .ne _ _ = var
  have hround : ∃ x, var.v = toF32 x := ⟨_, congrArg FR.v hvar.symm⟩
  obtain ⟨x, hx⟩ := hround
  split
  · next hnan =>
    rw [hx] at hnan ⊢
    rw [toF32_of_isNan32 hnan]
    exact qnan32_nonneg
  · split
    · exact (by decide : 0 < 0x80000000)
    · next hbit =>
      have h32 := toF32_lt x
      rw [hx, bitOf, Nat.testBit_eq_decide_div_mod_eq, decide_eq_true_eq] at hbit
      omega

theorem rowstat_nonneg (x : List Nat) (z : Bool) : (rowstat x z).2.v < 0x80000000 := by
  simp only [rowstat]
  split
  · exact qnan32_nonneg
  · exact meanVar_nonneg ..

/-- The last step of R182 stands above the arithmetic (R184). -/
theorem rowstat_of_notFinite {x : List Nat} (z : Bool) (h : ∃ e ∈ x, notFinite32 e = true) :
    (rowstat x z).1.v = 0x7FC00000 ∧ (rowstat x z).2.v = 0x7FC00000 := by
  simp [rowstat, List.any_eq_true.mpr h]

theorem joinStat_nonneg (c : Nat) (ks : List ChunkStat) : (joinStat c ks).2.v < 0x80000000 := by
  cases ks with
  | nil => exact qnan32_nonneg
  | cons k l =>
    simp only [joinStat]
    split
    · exact qnan32_nonneg
    · exact meanVar_nonneg ..

/-! ### The command -/

theorem foldl_max_pair_le {a b c : Nat} (ha : a ≤ c) (hb : b ≤ c) : [a, b].foldl max 0 ≤ c :=
  Nat.max_le.mpr ⟨Nat.max_le.mpr ⟨Nat.zero_le c, ha⟩, hb⟩

theorem rowstat_count {n : Nat} (h1 : 1 ≤ n) (hn : n ≤ 65536) : ¬ (n = 0 || 65536 < n) = true := by
  rw [decide_eq_false (show ¬ n = 0 by omega), decide_eq_false (show ¬ 65536 < n by omega)]
  decide

/-- `ROWSTAT` of a row that fits leaves its mean and variance, each to the 32 bits of its word. -/
theorem rowstat_row_runs {s : State} {t : TaskRef} {k : Task} {n dst x : Nat} (z : Bool) (h : OnCu s t k) (h1 : 1 ≤ n)
    (hn : n ≤ 65536) (hdst : dst + 8 ≤ sramBytes) (hx : x + 4 * n ≤ sramBytes) :
    let r := rowstat (s.core.sramRow s.pick.counter k.cu x n) z
    ∃ u, Runs (.rowstat t (.row z) n dst x) s u ∧
      u.core.sramRow s.pick.counter k.cu dst 2 = [r.1.v % 2 ^ 32, r.2.v % 2 ^ 32] := by
  have harm : exec (.rowstat t (.row z) n dst x) s = s.onVector t [dst + 8, x + 4 * n] _ := if_neg (rowstat_count h1 hn)
  exact State.onVector_row (ws := [_, _]) _ harm h (foldl_max_pair_le hdst hx) rfl

/-- `ROWSTAT` that joins chunk records which fit leaves the mean and variance of their row, each to the 32 bits of its word. -/
theorem rowstat_join_runs {s : State} {t : TaskRef} {k : Task} {n dst x : Nat} (c : BitVec 32) (h : OnCu s t k) (h1 : 1 ≤ n)
    (hn : n ≤ 65536) (hdst : dst + 8 ≤ sramBytes) (hx : x + 16 * n ≤ sramBytes) :
    let ks := (List.range n).map (readChunk (s.core.sramRow s.pick.counter k.cu x (4 * n)))
    let r := joinStat c.toNat ks
    (ks.map ChunkStat.n).sum ≤ 2 ^ 24 → ∃ u, Runs (.rowstat t (.join c) n dst x) s u ∧
      u.core.sramRow s.pick.counter k.cu dst 2 = [r.1.v % 2 ^ 32, r.2.v % 2 ^ 32] := by
  intro ks r hsum
  have harm : exec (.rowstat t (.join c) n dst x) s = s.onVector t [dst + 8, x + 16 * n] _ := if_neg (rowstat_count h1 hn)
  exact State.onVector_row (ws := [_, _]) _ harm h (foldl_max_pair_le hdst hx) (if_neg (Nat.not_lt.mpr hsum))

/-- Settles O44: every difference from the first element is +0, and with them the moments, the quotient and the variance; what is left of
the mean is the first element and +0. -/
theorem constantRowHasNoVariance : Obligations.ConstantRowHasNoVariance := by
  unfold Obligations.ConstantRowHasNoVariance
  intro t k n dst x v s hcu h1 hn hdst hx hrow hfin
  obtain ⟨u, hrun, hres⟩ := rowstat_row_runs false hcu h1 hn hdst hx
  have h32 : v < 2 ^ 32 := Core.sramRow_lt (hrow ▸ List.mem_replicate.mpr ⟨by omega, rfl⟩)
  obtain ⟨hmean, hvar⟩ := rowstat_replicate (show n ≠ 0 by omega) (by omega) h32 hfin
  have hmean32 : (if v = 0x80000000 then 0 else v) % 2 ^ 32 = if v = 0x80000000 then 0 else v :=
    Nat.mod_eq_of_lt (by split <;> omega)
  refine ⟨u, hrun, ?_⟩
  rw [hres, hrow, hmean, hvar, hmean32, Nat.zero_mod]

/-- Settles O45: the last step of R182 leaves no sign, of a row's moments and of the joined moments of chunks alike. -/
theorem varianceIsNeverNegative : Obligations.VarianceIsNeverNegative := by
  unfold Obligations.VarianceIsNeverNegative
  intro t k z n dst x s hcu h1 hn hdst
  refine ⟨fun hx => ?_, fun c hx hsum => ?_⟩
  · obtain ⟨u, hrun, hres⟩ := rowstat_row_runs z hcu h1 hn hdst hx
    refine ⟨u, _, _, hrun, hres, Nat.lt_of_le_of_lt (Nat.mod_le ..) (rowstat_nonneg ..), fun hbad => ?_⟩
    obtain ⟨hmean, hvar⟩ := rowstat_of_notFinite z hbad
    simp only [hmean, hvar, Nat.reducePow, Nat.reduceMod, and_self]
  · obtain ⟨u, hrun, hres⟩ := rowstat_join_runs c hcu h1 hn hdst hx hsum
    exact ⟨u, _, _, hrun, hres, Nat.lt_of_le_of_lt (Nat.mod_le ..) (joinStat_nonneg ..)⟩

end Sys2Proof.Machine
end

section
/-! PROOF. Results of the vector unit that are exact to the bit: words of integer operations (Table 6-1), a merge whose span is wholly masked
(R197), and the closing of a row with l = 0 (R198). -/

namespace Sys2Proof.Machine

/-! ### Local SRAM read in parts -/

theorem Core.sramRead_of_onchip {c d : Core} (h : c.onchip = d.onchip) (n cu off len : Nat) :
    c.sramRead n cu off len = d.sramRead n cu off len := by
  simp only [Core.sramRead, Core.sramByte, h]

theorem Core.sramRead_length (c : Core) (n cu off len : Nat) : (c.sramRead n cu off len).length = len := by
  simp [Core.sramRead]

theorem Core.sramRead_add (c : Core) (n cu off x y : Nat) :
    c.sramRead n cu off (x + y) = c.sramRead n cu off x ++ c.sramRead n cu (off + x) y := by
  simp [Core.sramRead, List.range_add, Nat.add_assoc]

/-- Two byte lists written one behind the other are read back each at its own place. -/
theorem Core.sramRead_sramWrite_append (c : Core) (n cu off : Nat) (bs cs : Bytes) :
    (c.sramWrite cu off (bs ++ cs)).sramRead n cu off bs.length = bs ∧
      (c.sramWrite cu off (bs ++ cs)).sramRead n cu (off + bs.length) cs.length = cs := by
  have hread := c.sramRead_sramWrite_same n cu off (bs ++ cs)
  rw [List.length_append, Core.sramRead_add] at hread
  exact List.append_inj hread (Core.sramRead_length ..)

/-- A row whose bytes are those of one word. -/
theorem Core.sramRow_of_sramRead_leBytes {c : Core} {n cu off w : Nat} (h : c.sramRead n cu off 4 = leBytes 4 w) :
    c.sramRow n cu off 1 = [w % 2 ^ 32] := by
  have hword : fieldAt (leBytes 4 w) (4 * 0) 4 = w % 2 ^ 32 := leNat_leBytes 4 w
  rw [← hword, ← h]
  rfl

theorem zipWith_sramRow (g : Nat → Nat → Nat) (c : Core) (p cu a b n : Nat) :
    List.zipWith g (c.sramRow p cu a n) (c.sramRow p cu b n) =
      (List.range n).map fun i => g (fieldAt (c.sramRead p cu a (4 * n)) (4 * i) 4) (fieldAt (c.sramRead p cu b (4 * n)) (4 * i) 4) := by
  simp only [Core.sramRow, List.zipWith_map, List.zipWith_self]

theorem map_mod_eq_self {m : Nat} {ws : List Nat} (h : ∀ w ∈ ws, w < m) : ws.map (· % m) = ws :=
  (List.map_congr_left fun w hw => Nat.mod_eq_of_lt (h w hw)).trans (List.map_id ws)

/-! ### Words of integer operations -/

/-- The operations of Table 6-1 on two INT32 words whose result has no free value, each with its result. -/
inductive IntWordOp : VecOp → (Nat → Nat → Nat) → Prop
  | add : IntWordOp .iadd fun x y => (x + y) % 2 ^ 32
  | sub : IntWordOp .isub fun x y => (x + 2 ^ 32 - y) % 2 ^ 32
  | and : IntWordOp .iand Nat.land
  | or : IntWordOp .ior Nat.lor
  | xor : IntWordOp .ixor Nat.xor

section
variable {op : VecOp} {g : Nat → Nat → Nat} (hop : IntWordOp op g)
include hop

/-- The result of two words is a word. -/
theorem IntWordOp.lt {x y : Nat} (hx : x < 2 ^ 32) (hy : y < 2 ^ 32) : g x y < 2 ^ 32 := by
  cases hop with
  | add => exact Nat.mod_lt _ (Nat.two_pow_pos 32)
  | sub => exact Nat.mod_lt _ (Nat.two_pow_pos 32)
  | and => exact Nat.and_lt_two_pow x hy
  | or => exact Nat.or_lt_two_pow hx hy
  | xor => exact Nat.xor_lt_two_pow hx hy

/-- It reads and writes rows of whole words. -/
theorem IntWordOp.exec_eq (t : TaskRef) (rm : RoundDir) (sr : Option RandKey) (n dst a b c : Nat) (s : State) :
    exec (.vectorOp t op rm sr n dst a b c) s =
      s.onVector t [dst + 4 * n, a + 4 * n, b + 4 * n, c + 4 * n] (vecResult s t op (dirOf rm) (modeOf sr) n dst a b c) := by
  cases hop <;> rfl

/-- What it writes: its result of each two words of the operand rows. -/
theorem IntWordOp.vecResult_writes (s : State) (t : TaskRef) (dir : Rnd) (mode : RndMode) (n dst a b c : Nat) (core : Core) (cu : Nat) :
    (vecResult s t op dir mode n dst a b c core cu).1 =
      [(dst, packVals 4 (List.zipWith g (core.sramRow s.pick.counter cu a n) (core.sramRow s.pick.counter cu b n)))] := by
  rw [zipWith_sramRow]
  cases hop <;> exact congrArg (fun ws => [(dst, packVals 4 ws)]) List.map_map

/-- An integer operation whose ranges fit leaves exactly its results at its destination, whatever rows they overlap: the operands are
read before anything is written (Table 6-1, log entry 46). -/
theorem IntWordOp.runs {s : State} {t : TaskRef} {k : Task} (h : OnCu s t k) (rm : RoundDir) (sr : Option RandKey) {n dst a b c : Nat}
    (hdst : dst + 4 * n ≤ sramBytes) (ha : a + 4 * n ≤ sramBytes) (hb : b + 4 * n ≤ sramBytes) (hc : c + 4 * n ≤ sramBytes) :
    ∃ u, Runs (.vectorOp t op rm sr n dst a b c) s u ∧ u.core.sramRow s.pick.counter k.cu dst n =
      List.zipWith g (s.core.sramRow s.pick.counter k.cu a n) (s.core.sramRow s.pick.counter k.cu b n) := by
  have hfit : [dst + 4 * n, a + 4 * n, b + 4 * n, c + 4 * n].foldl max 0 ≤ sramBytes := by
    simp only [List.foldl_cons, List.foldl_nil]; omega
  obtain ⟨u, hrun, hrow⟩ := State.onVector_row s.pick.counter (hop.exec_eq t rm sr n dst a b c s) h hfit
    (Prod.ext (hop.vecResult_writes ..) rfl)
  have hword : ∀ w ∈ List.zipWith g (s.core.sramRow s.pick.counter k.cu a n) (s.core.sramRow s.pick.counter k.cu b n), w < 2 ^ 32 := by
    intro w hw
    rw [zipWith_sramRow] at hw
    obtain ⟨i, -, rfl⟩ := List.mem_map.mp hw
    exact hop.lt (fieldAt_lt _ _ 4) (fieldAt_lt _ _ 4)
  rw [map_mod_eq_self hword, List.length_zipWith, Core.sramRow_length, Core.sramRow_length, Nat.min_self] at hrow
  exact ⟨u, hrun, hrow⟩

end

/-! ### A merge with a wholly masked span -/

/-- A span whose sum is 0 gives nothing to the running partial (R197). -/
theorem smergeRow_masked {d : Nat} {a b : List Nat} (hnan : ∀ v ∈ a ++ b, isNan32 v = false) (hl : b.getD (d + 1) 0 = 0) :
    (smergeRow d a b).map FR.v = a := by
  have hnone : ¬ (a ++ b).any isNan32 = true := by simpa [or_imp, forall_and] using hnan
  rw [smergeRow, if_neg hnone, if_pos hl, List.map_map]
  exact List.map_id a

theorem smerge_masked_runs {s : State} {t : TaskRef} {k : Task} {d a b : Nat} (h : OnCu s t k) (ha : a + 4 * (d + 2) ≤ sramBytes)
    (hb : b + 4 * (d + 2) ≤ sramBytes) (hl : (s.core.sramRow s.pick.counter k.cu b (d + 2)).getD (d + 1) 0 = 0)
    (hnan : ∀ v ∈ s.core.sramRow s.pick.counter k.cu a (d + 2) ++ s.core.sramRow s.pick.counter k.cu b (d + 2), isNan32 v = false) :
    ∃ u, Runs (.smerge t d a b) s u ∧
      u.core.sramRow s.pick.counter k.cu a (d + 2) = s.core.sramRow s.pick.counter k.cu a (d + 2) := by
  have harm : exec (.smerge t d a b) s = execSmerge t d a b s := rfl
  rw [execSmerge] at harm
  obtain ⟨u, hrun, hrow⟩ := State.onVector_row s.pick.counter harm h (foldl_max_pair_le ha hb) rfl
  rw [smergeRow_masked hnan hl, Core.sramRow_length, map_mod_eq_self fun _ => Core.sramRow_lt] at hrow
  exact ⟨u, hrun, hrow⟩

/-! ### The closing of a row with l = 0 -/

theorem leBytes_zero (k : Nat) : leBytes k 0 = List.replicate k 0 := by
  induction k with
  | zero => rfl
  | succ k ih => rw [leBytes, Nat.zero_div, ih]; rfl

theorem packVals_replicate_zero (k d : Nat) : packVals k (List.replicate d 0) = List.replicate (k * d) 0 := by
  rw [packVals, List.flatMap_replicate, leBytes_zero, List.flatten_replicate_replicate, Nat.mul_comm]

theorem sfinal_zero_runs {s : State} {t : TaskRef} {k : Task} (sr : Option RandKey) {d : Nat} (row : Nat) {dst a : Nat} (h : OnCu s t k)
    (hdst : dst + 2 * d + 4 ≤ sramBytes) (ha : a + 4 * (d + 2) ≤ sramBytes)
    (hl : (s.core.sramRow s.pick.counter k.cu a (d + 2)).getD (d + 1) 0 = 0) :
    ∃ u, Runs (.sfinal t sr d row dst a) s u ∧ u.core.sramRead s.pick.counter k.cu dst (2 * d) = List.replicate (2 * d) 0 ∧
      u.core.sramRow s.pick.counter k.cu (dst + 2 * d) 1 = [0x7F800000] := by
  have harm : exec (.sfinal t sr d row dst a) s = execSfinal t sr d row dst a s := rfl
  rw [execSfinal] at harm
  obtain ⟨u, hrun, honchip⟩ := State.onVector_onchip h (foldl_max_pair_le hdst ha)
  have hzero : isZero32 ((s.core.sramRow s.pick.counter k.cu a (d + 2)).getD (d + 1) 0) = true := by rw [hl]; rfl
  obtain ⟨hout, hlse⟩ := s.core.sramRead_sramWrite_append s.pick.counter k.cu dst (List.replicate (2 * d) 0) (leBytes 4 0x7F800000)
  refine ⟨u, harm.trans hrun, ?_⟩
  simp only [if_pos hzero, packVals_replicate_zero] at honchip
  rw [List.length_replicate] at hout hlse
  exact ⟨(Core.sramRead_of_onchip honchip ..).trans hout,
    Core.sramRow_of_sramRead_leBytes ((Core.sramRead_of_onchip honchip ..).trans hlse)⟩

/-- Settles O43: integer results are words, so their rows are read back as they are; a masked span is left out of the merge (R197); a row
with l = 0 takes the branch of `SFINAL` that writes zeros and +∞ (R198). -/
theorem rowResults : Obligations.RowResults := by
  unfold Obligations.RowResults
  intro t k s hcu
  refine ⟨fun rm sr n dst a b c hdst ha hb hc op hmem => ?_, fun d a b ha hb hl hnan => smerge_masked_runs hcu ha hb hl hnan,
    fun sr d row dst a hdst ha hl => sfinal_zero_runs sr row hcu hdst ha hl⟩
  have hop : IntWordOp op.1 op.2 := by
    simp only [List.mem_cons, List.not_mem_nil, or_false] at hmem
    rcases hmem with rfl | rfl | rfl | rfl | rfl <;> constructor
  exact hop.runs hcu rm sr hdst ha hb hc

end Sys2Proof.Machine
end

section
/-! PROOF. Orders on objects (R318 to R326, R338) that are ready: each passes R108, is marked as looked at, and has its effect, so what is
left to say is what the effect writes: the object table, the list of moves and the order's own entry. -/

namespace Sys2Proof.Machine

/-! ### The object table -/

/-- An entry put into a table is what its key finds there, and every other key finds what it found. -/
theorem find_putKey {α : Type} (l : List (Nat × α)) (i k : Nat) (v : α) :
    ((putKey l i v).find? (·.1 = k)).map Prod.snd = if k = i then some v else (l.find? (·.1 = k)).map Prod.snd := by
  induction l with
  | nil => by_cases hk : i = k <;> simp [putKey, hk, eq_comm]
  | cons p l ih =>
    rw [putKey]
    by_cases hlt : i < p.1
    · rw [if_pos hlt]
      by_cases hk : i = k <;> simp [hk, eq_comm]
    by_cases heq : i = p.1
    · rw [if_neg hlt, if_pos heq, heq]
      by_cases hk : p.1 = k
      · simp [hk]
      · simp [hk, Ne.symm hk]
    · rw [if_neg hlt, if_neg heq, List.find?_cons, List.find?_cons]
      by_cases hp : p.1 = k
      · simp [hp, show k ≠ i by omega]
      · simp [hp, ih]

/-- The object table after an object is put at an index. -/
theorem Core.obj_putKey (c : Core) (i k : Nat) (v : Obj) :
    ({ c with objs := putKey c.objs i v } : Core).obj k = if k = i then some v else c.obj k :=
  find_putKey c.objs i k v

/-- A freed index holds no object; every other one holds what it held (R325). -/
theorem Core.obj_freeObj (c : Core) (i k : Nat) : (c.freeObj i).obj k = if k = i then none else c.obj k := by
  show ((c.objs.filter (·.1 ≠ i)).find? (·.1 = k)).map Prod.snd = _
  rw [List.find?_filter]
  by_cases hk : k = i
  · rw [if_pos hk, List.find?_eq_none.mpr (by simp [hk]), Option.map_none]
  · rw [if_neg hk]
    refine congrArg (Option.map Prod.snd) (congrArg (c.objs.find? ·) (funext fun p => ?_))
    by_cases hp : p.1 = k <;> simp [hp, hk]

/-! ### The order's entry -/

/-- Changing one order, its number kept, leaves every other one. -/
theorem Core.order_setOrder_ne (c : Core) {j k : Nat} {f : OrderSt → OrderSt} (hf : ∀ o, (f o).jno = o.jno) (hk : k ≠ j) :
    (c.setOrder j f).order k = c.order k := by
  rw [Core.order_setOrder _ _ _ _ hf]
  cases h : c.order k with
  | none => rfl
  | some o => simp [Core.order_jno _ _ _ h, hk]

/-- An order without a status that has begun: it is applied, and still without one. -/
theorem Core.order_begins {c : Core} {j : Nat} {o : OrderSt} {f : OrderSt → OrderSt} (h : c.order j = some o) (hs : o.status = none)
    (hf : ∀ o, (f o).jno = o.jno ∧ (f o).applied = true ∧ (f o).status = o.status) :
    ∃ o', (c.setOrder j f).order j = some o' ∧ o'.applied = true ∧ o'.status = none := by
  refine ⟨f o, ?_, (hf o).2.1, (hf o).2.2.trans hs⟩
  rw [Core.order_setOrder _ _ _ _ fun o => (hf o).1, h]
  simp [Core.order_jno _ _ _ h]

/-- An order that has begun and goes on without a status. -/
def OrderSt.begun (o : OrderSt) : OrderSt := { o with applied := true }

/-- A state whose core has completed an order without a status has ended it (R66). -/
theorem ended_of_complete {t : State} {c : Core} {j st r : Nat} {o : OrderSt} (ht : t.core = c.complete j st r t.pick.counter)
    (h : c.order j = some o) (hs : o.status = none) : Ended t j st r :=
  ⟨_, by rw [ht]; exact Core.order_complete c j st r _ o h hs, rfl, rfl, rfl⟩

/-- The state in which an order has been looked at (R108). -/
def State.lookedAt (s : State) (j : Nat) : State := s.withCore fun c => c.setOrder j OrderSt.looked

/-- A ready order of a context, looked at: it has its number, no status yet, and its row is its effect. -/
theorem OrderReady.row {s : State} {j op x : Nat} {o : OrderSt} (ha : s.atConfig = true) (h : OrderReady s j op o) (hop : op ≠ 2)
    (hx : s.core.ctxOf o.ctx = some x) :
    s.orderRow j op = (s.lookedAt j).effect o.looked ∧ (s.lookedAt j).core.order j = some o.looked ∧ o.looked.jno = j ∧
      o.looked.status = none ∧ o.looked.opcode = op ∧ (s.lookedAt j).core.ctxOf o.looked.ctx = some x := by
  obtain ⟨hrow, horder⟩ := State.orderRow_ready s j op o ha h hop
  obtain ⟨-, hopc, -, -, hst, -⟩ := h
  exact ⟨hrow, horder, Core.order_jno _ _ _ horder, hst, hopc, hx⟩

/-- The command of a ready order's row leaves what the order's effect leaves. -/
theorem OrderReady.runs {c : Instr} {s t : State} {j op x : Nat} {o : OrderSt} (ha : s.atConfig = true) (h : OrderReady s j op o)
    (hop : op ≠ 2) (hx : s.core.ctxOf o.ctx = some x) (hrow : exec c s = .next (s.orderRow j op))
    (heffect : o.looked.opcode = op → (s.lookedAt j).core.ctxOf o.looked.ctx = some x → (s.lookedAt j).effect o.looked = t) :
    Runs c s t := by
  obtain ⟨hready, -, -, -, hopc, hctx⟩ := h.row ha hop hx
  rw [Runs, hrow, hready, heffect hopc hctx]

/-! ### `OBJ_CREATE` -/

theorem objCreate_runs {s : State} {j x : Nat} {o : OrderSt} (ha : s.atConfig = true) (h : OrderReady s j 0x20 o)
    (hx : s.core.ctxOf o.ctx = some x) : Runs (.objCreate j) s ((s.lookedAt j).objCreate x o.looked) :=
  h.runs ha (by decide) hx rfl fun hop hctx => by simp only [State.effect, hop, hctx]

/-- The state in which the object of an `OBJ_CREATE` stands in the table (R318). -/
def State.withNewObj (s : State) (x : Nat) (o : OrderSt) (homes : List Home) : State :=
  s.withCore fun c => { c with objs := putKey c.objs (s.core.freeIndex x) (s.newObj x o homes) }

theorem State.objCreate_filled {s : State} {x : Nat} {o : OrderSt} {homes : List Home}
    (hbad : objCreateBad s.core (s.core.ctx x).harness o = false) (hh : s.newHomes x o = some homes) (hw : o.wantsFill = true) :
    s.objCreate x o = (s.withNewObj x o homes).withCore fun c => c.setOrder o.jno OrderSt.begun := by
  simp only [State.objCreate, hbad, hh, hw, Bool.false_eq_true, if_false, if_true]
  rfl

theorem State.objCreate_unfilled {s : State} {x : Nat} {o : OrderSt} {homes : List Home}
    (hbad : objCreateBad s.core (s.core.ctx x).harness o = false) (hh : s.newHomes x o = some homes) (hw : o.wantsFill = false) :
    s.objCreate x o =
      (s.withNewObj x o homes).withCore fun c => c.complete o.jno 0 (s.core.freeIndex x % 2 ^ 20) s.pick.counter := by
  simp only [State.objCreate, hbad, hh, hw, Bool.false_eq_true, if_false]
  rfl

/-- Settles O32: the object table gains the one entry, and the order ends, or begins where it waits for the fill. -/
theorem objectIsCreated : Obligations.ObjectIsCreated := by
  unfold Obligations.ObjectIsCreated
  intro j x o homes s ha h hx hbad hh i
  obtain ⟨-, horder, hj, hst, -, -⟩ := h.row ha (by decide) hx
  have hrun := objCreate_runs ha h hx
  have hput := (s.lookedAt j).core.obj_putKey i (v := s.newObj x o homes)
  have hsame : ∀ k, k ≠ j → (s.lookedAt j).core.order k = s.core.order k := fun k hk => Core.order_checked_ne _ _ _ hk
  cases hw : o.wantsFill with
  | false =>
    rw [State.objCreate_unfilled (by exact hbad) (by exact hh) (by exact hw), hj] at hrun
    refine ⟨_, s.newObj x o homes, hrun, (hput i).trans (if_pos rfl), rfl, rfl, rfl, rfl, rfl, hw,
      fun _ => ended_of_complete rfl horder hst, fun hfill => absurd hfill Bool.false_ne_true, fun k hk => (hput k).trans (if_neg hk),
      fun k hk => ?_, rfl⟩
    exact (Core.order_complete_ne _ _ _ _ _ _ hk).trans (hsame k hk)
  | true =>
    rw [State.objCreate_filled (by exact hbad) (by exact hh) (by exact hw), hj] at hrun
    refine ⟨_, s.newObj x o homes, hrun, (hput i).trans (if_pos rfl), rfl, rfl, rfl, rfl, rfl, hw,
      fun hfill => absurd hfill.symm Bool.false_ne_true, fun _ => Core.order_begins horder hst fun o => ⟨rfl, rfl, rfl⟩,
      fun k hk => (hput k).trans (if_neg hk), fun k hk => ?_, rfl⟩
    exact (Core.order_setOrder_ne _ (f := OrderSt.begun) (fun _ => rfl) hk).trans (hsame k hk)

/-! ### `OBJ_DESTROY` -/

theorem objDestroy_runs {s : State} {j x : Nat} {o : OrderSt} (ha : s.atConfig = true) (h : OrderReady s j 0x21 o)
    (hx : s.core.ctxOf o.ctx = some x) : Runs (.objDestroy j) s ((s.lookedAt j).objDestroy x o.looked) :=
  h.runs ha (by decide) hx rfl fun hop hctx => by simp only [State.effect, hop, hctx]

theorem State.objDestroy_frees {s : State} {x i : Nat} {o : OrderSt} {ob : Obj} (hid : s.core.objById x (o.arg 0x10 4) = some (i, ob))
    (hpools : ∀ p ∈ s.core.pools, addrIndex p.data ≠ i ∧ addrIndex p.table ≠ i ∧ addrIndex p.tree ≠ i) :
    s.objDestroy x o = s.withCore fun c => (c.freeObj i).complete o.jno 0 0 s.pick.counter := by
  have hunused : (s.core.pools.any fun p => addrIndex p.data = i || addrIndex p.table = i || addrIndex p.tree = i) = false := by
    simp only [List.any_eq_false]
    intro p hp
    obtain ⟨hdata, htable, htree⟩ := hpools p hp
    simp [hdata, htable, htree]
  simp only [State.objDestroy, hid, hunused, Bool.false_eq_true, if_false]

theorem objDestroy_ready {s : State} {j x i : Nat} {o : OrderSt} {ob : Obj} (ha : s.atConfig = true) (hx : s.core.ctxOf o.ctx = some x)
    (hid : s.core.objById x (o.arg 0x10 4) = some (i, ob)) (h : OrderReady s j 0x21 o)
    (hpools : ∀ p ∈ s.core.pools, addrIndex p.data ≠ i ∧ addrIndex p.table ≠ i ∧ addrIndex p.tree ≠ i) :
    ∃ t, Runs (.objDestroy j) s t ∧ Ended t j 0 0 ∧ t.core.obj i = none ∧ (∀ k, k ≠ i → t.core.obj k = s.core.obj k) ∧
      (∀ m ∈ t.core.moves, m.obj ≠ i) ∧ (∀ k, k ≠ j → t.core.order k = s.core.order k) ∧ t.core.ctxs = s.core.ctxs := by
  obtain ⟨-, horder, hj, hst, -, -⟩ := h.row ha (by decide) hx
  have hrun := objDestroy_runs ha h hx
  have hobj := (s.lookedAt j).core.obj_freeObj i
  rw [State.objDestroy_frees (by exact hid) (by exact hpools), hj] at hrun
  refine ⟨_, hrun, ended_of_complete rfl (c := (s.lookedAt j).core.freeObj i) horder hst, (hobj i).trans (if_pos rfl),
    fun k hk => (hobj k).trans (if_neg hk), fun m hm => ?_, fun k hk => ?_, rfl⟩
  · exact of_decide_eq_true (List.mem_filter.mp hm).2
  · exact (Core.order_complete_ne _ _ _ _ _ _ hk).trans (Core.order_checked_ne _ _ _ hk)

/-! ### `OBJ_HINT` -/

theorem objHint_runs {s : State} {j x : Nat} {o : OrderSt} (ha : s.atConfig = true) (h : OrderReady s j 0x22 o)
    (hx : s.core.ctxOf o.ctx = some x) : Runs (.objHint j) s ((s.lookedAt j).objHint x o.looked) :=
  h.runs ha (by decide) hx rfl fun hop hctx => by simp only [State.effect, hop, hctx]

/-- An object as an `OBJ_HINT` leaves it: with its affinity, lifetime and target tier (R338). -/
def OrderSt.told (o : OrderSt) (b : Obj) (aff : Nat) : Obj :=
  { b with affinity := aff, lifetime := o.arg 0x18 4, target := if o.arg 0x14 1 = 0xFF then b.target else some (o.arg 0x14 1) }

/-- The state in which an `OBJ_HINT` has told its object and listed its moves. -/
def State.hinted (s : State) (i : Nat) (ob : Obj) (o : OrderSt) : State :=
  s.withCore fun c =>
    { (c.setObj i fun b => o.told b (o.hintAffinity ob)) with moves := c.moves ++ s.hintList i ob o }

/-- The object of an `OBJ_HINT` has a block that the hint moves to T2. -/
def OrderSt.wantsT2 (o : OrderSt) (ob : Obj) : Bool := ob.homes.any (hintToT2 (o.arg 0x14 1) (affinityDies (o.hintAffinity ob)))

section
variable {s : State} {x i : Nat} {o : OrderSt} {ob : Obj}

theorem State.objHint_full (hid : s.core.objById x (o.arg 0x10 4) = some (i, ob)) (hfar : o.arg 0x14 1 = 1 → ob.farOk = true)
    (hnil : s.hintList i ob o = []) (hwant : o.wantsT2 ob = true) :
    s.objHint x o = (s.withCore fun c => c.complete o.jno 0x0702 0 s.pick.counter).memEvent 0 := by
  have hallowed : (decide (o.arg 0x14 1 = 1) && !ob.farOk) = false := by simpa using hfar
  rw [OrderSt.wantsT2] at hwant
  simp [State.objHint, hid, hallowed, hnil, hwant]

theorem State.objHint_told (hid : s.core.objById x (o.arg 0x10 4) = some (i, ob)) (hfar : o.arg 0x14 1 = 1 → ob.farOk = true)
    (hnil : s.hintList i ob o = []) (hwant : o.wantsT2 ob = false) :
    s.objHint x o = (s.hinted i ob o).withCore fun c => c.complete o.jno 0 0 s.pick.counter := by
  have hallowed : (decide (o.arg 0x14 1 = 1) && !ob.farOk) = false := by simpa using hfar
  rw [OrderSt.wantsT2] at hwant
  simp only [State.objHint, hid, hallowed, hnil, hwant, State.hinted, Bool.false_and, Bool.false_eq_true, if_false, List.isEmpty_nil, if_true]
  rfl

theorem State.objHint_moves (hid : s.core.objById x (o.arg 0x10 4) = some (i, ob)) (hfar : o.arg 0x14 1 = 1 → ob.farOk = true)
    (hsome : s.hintList i ob o ≠ []) :
    s.objHint x o = (s.hinted i ob o).withCore fun c =>
      c.setOrder o.jno fun p => { p with applied := true, tried := some (s.hintList i ob o).length } := by
  have hallowed : (decide (o.arg 0x14 1 = 1) && !ob.farOk) = false := by simpa using hfar
  have hlisted : (s.hintList i ob o).isEmpty = false := by simpa using hsome
  simp only [State.objHint, hid, hallowed, hlisted, Bool.and_false, Bool.false_eq_true, if_false]
  rfl

theorem State.hinted_obj (s : State) (o : OrderSt) (hob : s.core.obj i = some ob) :
    (s.hinted i ob o).core.obj i = some (o.told ob (o.hintAffinity ob)) := by
  have hset := s.core.obj_setObj i i fun b => o.told b (o.hintAffinity ob)
  rw [if_pos rfl, hob] at hset
  exact hset

end

section
variable {s : State} {j x i : Nat} {o : OrderSt} {ob : Obj} (ha : s.atConfig = true) (hx : s.core.ctxOf o.ctx = some x)
  (hid : s.core.objById x (o.arg 0x10 4) = some (i, ob)) (h : OrderReady s j 0x22 o) (hfar : o.arg 0x14 1 = 1 → ob.farOk = true)
include ha hx hid h hfar

theorem objHint_full (hnil : s.hintList i ob o = []) (hwant : o.wantsT2 ob = true) :
    ∃ t, Runs (.objHint j) s t ∧ Ended t j 0x0702 0 ∧ t.memr.event = orBit s.memr.event 0 ∧ t.core.objs = s.core.objs ∧
      t.core.mem = s.core.mem ∧ t.core.moves = s.core.moves := by
  obtain ⟨-, horder, hj, hst, -, -⟩ := h.row ha (by decide) hx
  have hrun := objHint_runs ha h hx
  rw [State.objHint_full (by exact hid) (by exact hfar) (by exact hnil) (by exact hwant), hj] at hrun
  exact ⟨_, hrun, ended_of_complete (c := (s.lookedAt j).core) rfl horder hst, rfl, rfl, rfl, rfl⟩

theorem objHint_told (hob : s.core.obj i = some ob) (hnil : s.hintList i ob o = []) (hwant : o.wantsT2 ob = false) :
    ∃ t, Runs (.objHint j) s t ∧ Ended t j 0 0 ∧ t.core.obj i = some (o.told ob (o.hintAffinity ob)) ∧ t.core.mem = s.core.mem ∧
      t.core.moves = s.core.moves := by
  obtain ⟨-, horder, hj, hst, -, -⟩ := h.row ha (by decide) hx
  have hrun := objHint_runs ha h hx
  rw [State.objHint_told (by exact hid) (by exact hfar) (by exact hnil) (by exact hwant), hj] at hrun
  refine ⟨_, hrun, ended_of_complete (c := ((s.lookedAt j).hinted i ob o.looked).core) rfl horder hst,
    (s.lookedAt j).hinted_obj o.looked hob, rfl, ?_⟩
  exact (congrArg (s.core.moves ++ ·) hnil).trans (List.append_nil _)

theorem objHint_moves (hob : s.core.obj i = some ob) (hsome : s.hintList i ob o ≠ []) :
    ∃ t, Runs (.objHint j) s t ∧ t.core.moves = s.core.moves ++ s.hintList i ob o ∧
      t.core.obj i = some (o.told ob (o.hintAffinity ob)) ∧ (∃ o', t.core.order j = some o' ∧ o'.applied = true ∧ o'.status = none) ∧
      t.core.mem = s.core.mem := by
  obtain ⟨-, horder, hj, hst, -, -⟩ := h.row ha (by decide) hx
  have hrun := objHint_runs ha h hx
  rw [State.objHint_moves (by exact hid) (by exact hfar) (by exact hsome), hj] at hrun
  exact ⟨_, hrun, rfl, (s.lookedAt j).hinted_obj o.looked hob,
    Core.order_begins (c := ((s.lookedAt j).hinted i ob o.looked).core) horder hst fun p => ⟨rfl, rfl, rfl⟩, rfl⟩

end

/-! ### `OBJ_LOAD` and `OBJ_STORE` -/

/-- A transfer whose order passes its checks begins, and changes nothing but the orders (R326). -/
theorem objTransfer_ready {c : Instr} {s : State} {j op x : Nat} {o : OrderSt} {p : Nat × Obj} (ha : s.atConfig = true)
    (hx : s.core.ctxOf o.ctx = some x) (h : OrderReady s j op o) (hop : op = 0x23 ∨ op = 0x24)
    (hrow : exec c s = .next (s.orderRow j op)) (hok : s.core.loadStoreCheck x o = .inr p) :
    ∃ t, Runs c s t ∧ (∃ o', t.core.order j = some o' ∧ o'.applied = true ∧ o'.status = none) ∧
      t = { s with core := { s.core with orders := t.core.orders } } := by
  have hne : op ≠ 2 := by omega
  obtain ⟨-, horder, hj, hst, -, -⟩ := h.row ha hne hx
  have hok' : (s.lookedAt j).core.loadStoreCheck x o.looked = .inr p := hok
  have hrun : Runs c s ((s.lookedAt j).withCore fun c => c.setOrder j OrderSt.begun) := by
    refine h.runs ha hne hx hrow fun hopc hctx => ?_
    rcases hop with rfl | rfl <;> simp only [State.effect, hopc, hctx, State.objTransfer, hok', hj] <;> rfl
  exact ⟨_, hrun, Core.order_begins horder hst fun o => ⟨rfl, rfl, rfl⟩, rfl⟩

/-- Settles O33: each order's effect on the object table and the moves, and how it stands with the order itself. -/
theorem objectOrdersAct : Obligations.ObjectOrdersAct := by
  unfold Obligations.ObjectOrdersAct
  intro j x i o ob s ha hx hid hob
  refine ⟨objDestroy_ready ha hx hid, fun h hfar => ⟨objHint_told ha hx hid h hfar hob, objHint_full ha hx hid h hfar,
    objHint_moves ha hx hid h hfar hob⟩, fun e he h hok => ?transfer⟩
  case transfer =>
    simp only [List.mem_cons, List.not_mem_nil, or_false] at he
    rcases he with rfl | rfl
    · exact objTransfer_ready ha hx h (.inl rfl) rfl hok
    · exact objTransfer_ready ha hx h (.inr rfl) rfl hok

end Sys2Proof.Machine
end

section
/-! PROOF. Writes to the mirror (R60, R335, R387): a run of them lands in shadow blocks, or, where one finds no room, not at all. What a run
leaves alone, and what is read back of a block that it wrote. -/

namespace Sys2Proof.Machine

/-- The bytes that a write to the mirror brings. -/
def MirrorWrite.data : MirrorWrite → Bytes
  | .bytes _ d => d
  | .copy b => b.data

theorem MirrorWrite.to_cells (w : MirrorWrite) (m : Memory) : (w.to m).cells = putBytes m.cells w.addr w.data := by
  cases w <;> rfl

/-! ### Shadow blocks of the mirror -/

/-- A block's shadow block, from which a write starts: that of the pick, or a copy of the committed block (R60). -/
def Mirror.shadowOf (m : Mirror) (a : Nat) : HeldBlock := (m.shadowAt a).getD (m.mem.takeBlock 64 (blockOf a) none)

theorem Mirror.shadowOf_addr (m : Mirror) (a : Nat) : (m.shadowOf a).addr = blockOf a := by
  unfold Mirror.shadowOf
  cases h : m.shadowAt a with
  | none => rfl
  | some b => exact of_decide_eq_true (List.find?_some (p := fun k : HeldBlock => decide (k.addr = blockOf a)) h)

theorem Mirror.shadowAt_writeShadow_same (m : Mirror) (w : MirrorWrite) :
    ∃ b, (m.writeShadow w).shadowAt w.addr = some b ∧ b.cells = putBytes (m.shadowOf w.addr).cells w.addr w.data := by
  refine ⟨_, List.find?_cons_of_pos (decide_eq_true (m.shadowOf_addr w.addr)), w.to_cells _⟩

theorem Mirror.shadowAt_writeShadow_ne {m : Mirror} {w : MirrorWrite} {b : Nat} (h : blockOf b ≠ blockOf w.addr) :
    (m.writeShadow w).shadowAt b = m.shadowAt b := by
  have hhead : ¬ (m.shadowOf w.addr).addr = blockOf b := fun he => h (he.symm.trans (m.shadowOf_addr _))
  refine (List.find?_cons_of_neg (by exact fun hd => hhead (of_decide_eq_true hd))).trans ?_
  rw [List.find?_filter, Mirror.shadowAt]
  refine congrArg (m.shadow.find? ·) (funext fun k => ?_)
  by_cases hk : k.addr = blockOf b <;> simp [hk, h]

/-- What is read back of a block of the mirror that was written: the bytes written (R387). -/
theorem Mirror.now_writeShadow (m : Mirror) (w : MirrorWrite) {i : Nat} (hi : i < w.data.length) :
    getKey ((m.writeShadow w).now w.addr).cells (w.addr + i) = w.data[i]? := by
  obtain ⟨b, hb, hcells⟩ := m.shadowAt_writeShadow_same w
  rw [Mirror.now, hb]
  show getKey b.cells (w.addr + i) = _
  rw [hcells, getKey_putBytes, if_pos (by omega), Nat.add_sub_cancel_left]

/-! ### Runs of writes -/

/-- The core from which a write to a block of the mirror takes its shadow block, where there is one (R335). -/
def State.mirrorRoom (s : State) (a : Nat) : Option Core :=
  if (s.twin.mirror.shadowAt a).isSome then some s.core else s.core.takePool (s.twin.mirror.stackOf a)

/-- The state after one write to the mirror. -/
def State.mirrorWrite (s : State) (c : Core) (w : MirrorWrite) : State :=
  { s with core := c, twin := { s.twin with mirror := s.twin.mirror.writeShadow w } }

theorem State.mirrorWrites_cons (s : State) (w : MirrorWrite) (ws : List MirrorWrite) :
    s.mirrorWrites (w :: ws) = (s.mirrorRoom w.addr).bind fun c => (s.mirrorWrite c w).mirrorWrites ws := by
  rw [State.mirrorWrites, List.foldlM_cons, Option.bind_eq_bind]
  exact Option.bind_map

theorem State.mirrorWrites_one (s : State) (w : MirrorWrite) : s.mirrorWrites [w] = (s.mirrorRoom w.addr).map (s.mirrorWrite · w) := by
  rw [State.mirrorWrites_cons]
  cases s.mirrorRoom w.addr <;> rfl

/-- Of the core, a write to the mirror moves the count of free shadow blocks alone. -/
theorem State.mirrorRoom_frame {s : State} {a : Nat} {c : Core} (h : s.mirrorRoom a = some c) :
    c = { s.core with pm := { s.core.pm with free := c.pm.free } } := by
  unfold State.mirrorRoom Core.takePool at h
  split at h
  · cases h; rfl
  · split at h <;> cases h
    rfl

/-- A run of writes to the mirror moves its shadow blocks, the repairs that it cancels and the count of free shadow blocks alone. -/
theorem State.mirrorWrites_frame {s t : State} {ws : List MirrorWrite} (h : s.mirrorWrites ws = some t) :
    t = { s with
      core := { s.core with pm := { s.core.pm with free := t.core.pm.free } }
      twin := { s.twin with mirror := { s.twin.mirror with shadow := t.twin.mirror.shadow, repairs := t.twin.mirror.repairs } } } := by
  induction ws generalizing s with
  | nil => cases h; rfl
  | cons w ws ih =>
    rw [State.mirrorWrites_cons] at h
    obtain ⟨c, hc, hrest⟩ := Option.bind_eq_some_iff.mp h
    have hcore := State.mirrorRoom_frame hc
    refine (ih hrest).trans ?_
    show ({ s with core := { c with pm := { c.pm with free := _ } }, twin := _ } : State) = _
    rw [hcore]
    rfl

/-- A run of bytes that lies in one block is one write. -/
theorem runWrites_one {a : Nat} {d : Bytes} (hd : d ≠ []) (h : blockOf (a + d.length - 1) = blockOf a) : runWrites a d = [.bytes a d] := by
  have hlen : d.length ≤ blockOf a + 16384 - a := by
    unfold blockOf at *
    omega
  have hfull : d.isEmpty = false := by simpa using hd
  simp [runWrites, blockPieces, hfull, List.take_of_length_le hlen, List.drop_eq_nil_of_le hlen]

end Sys2Proof.Machine
end

section
/-! PROOF. The exchanges of a pair: hello frames (R379, R381, R409), what each twin keeps of the other's journal, notices and held items
(R384, R386, R389), replay (R387, R405), the digests and the re-copy (R394, R395), and the loss of a selvedge port (R392). -/

namespace Sys2Proof.Machine

/-! ### Reports and the pair state -/

theorem State.beating_of_operational {s : State} (h : s.operational = true) : s.beating = true := by simp [State.beating, h]

/-- In operational state a report waits for the commit step of its pick (R135). -/
theorem State.report_operational {s : State} (h : s.operational = true) (code detail : Nat) :
    s.report code detail = { s with flog := { s.flog with waiting := s.flog.waiting ++ [s.reportEntry code detail] } } :=
  s.report_waits code detail (State.beating_of_operational h)

theorem State.keepsTwin_paired {s : State} (h : s.twin.state = .sync ∨ s.twin.state = .recopy) : s.keepsTwin = true := by
  rcases h with h | h <;> simp [State.keepsTwin, h]

/-! ### Hello frames -/

/-- A hello frame that is read: whole, its CRC right, and with no reserved bit or role (Table 13-3). -/
def HelloFormed (f : Bytes) : Prop :=
  f.length = 64 ∧ crc32c (f.take 0x3C) = fieldAt f 0x3C 4 ∧ byteAt f 0x28 ≤ 2 ∧ zeroAt f 0x2A 18 = true

theorem helloTimer_sends {s : State} (hst : s.twin.state = .handshake) : Runs .helloTimer s s.sendHello := if_pos hst

theorem handshakeTimeout_fails {s : State} (hst : s.twin.state = .handshake) : Runs .handshakeTimeout s (s.pairFailed 8) := if_pos hst

/-- A pairing condition that fails in `HANDSHAKE` ends the pairing, and is reported (R409). -/
theorem State.pairFailed_handshake {s : State} (hop : s.operational = true) (hst : s.twin.state = .handshake) (code : Nat) :
    s.pairFailed code = { s with
      twin := { s.twin with state := .unpaired, pairFail := code }
      flog := { s.flog with waiting := s.flog.waiting ++ [s.reportEntry 0x0B02 0] } } := by
  simp only [State.pairFailed, hst, if_true]
  exact State.report_operational (s := { s with twin := { s.twin with state := .unpaired, pairFail := code } }) hop _ _

/-- One that fails outside it is reported, and the pair state stays. -/
theorem State.pairFailed_apart {s : State} (hop : s.operational = true) (hst : s.twin.state ≠ .handshake) (code : Nat) :
    s.pairFailed code = { s with
      twin := { s.twin with pairFail := code }
      flog := { s.flog with waiting := s.flog.waiting ++ [s.reportEntry 0x0B02 0] } } := by
  simp only [State.pairFailed, hst, if_false]
  exact State.report_operational (s := { s with twin := { s.twin with pairFail := code } }) hop _ _

section
variable {s : State} {p fixed : Nat} {f : Bytes} (hop : s.operational = true) (hf : HelloFormed f)
include hop hf

/-- A formed frame is taken, in operational state. -/
theorem HelloFormed.taken :
    ¬ (!(s.noteFec p fixed).operational || f.length ≠ 64 || crc32c (f.take 0x3C) ≠ fieldAt f 0x3C 4 || 2 < byteAt f 0x28
      || !zeroAt f 0x2A 18) = true := by
  obtain ⟨hlen, hcrc, hrole, hzero⟩ := hf
  have hop' : (s.noteFec p fixed).operational = true := hop
  simp [hop', hlen, hcrc, hzero, Nat.not_lt.mpr hrole]

theorem helloReceived_matches (hst : s.twin.state = .handshake) (h0 : s.helloCheck f = 0) :
    Runs (.helloReceived p f fixed) s
      ({ s.noteFec p fixed with twin := { s.twin with state := .copying, pairFail := 0, matched := false } } : State).sendHello.startCopy := by
  have hst' : (s.noteFec p fixed).twin.state = .handshake := hst
  have h0' : (s.noteFec p fixed).helloCheck f = 0 := h0
  refine (if_neg (hf.taken hop)).trans ?_
  simp only [hst', h0']
  rfl

theorem helloReceived_fails (hst : s.twin.state = .handshake ∨ s.twin.state = .unpaired) (hne : s.helloCheck f ≠ 0) :
    Runs (.helloReceived p f fixed) s ((s.noteFec p fixed).pairFailed (s.helloCheck f)) := by
  obtain ⟨c, hc⟩ := Nat.exists_eq_succ_of_ne_zero hne
  have hc' : (s.noteFec p fixed).helloCheck f = c + 1 := hc
  refine (if_neg (hf.taken hop)).trans ?_
  rcases hst with hst | hst
  · have hst' : (s.noteFec p fixed).twin.state = .handshake := hst
    simp only [hst', hc', hc]
  · have hst' : (s.noteFec p fixed).twin.state = .unpaired := hst
    simp only [hst', hc', hc]

end

/-! ### The twin's journal -/

theorem journalEntryReceived_stores {s : State} (hop : s.operational = true) (hk : s.keepsTwin = true) {e o : Bytes} (hlen : e.length = 64)
    (hcrc : crc32c (e.take 0x3C) = fieldAt e 0x3C 4) (hres : entryReserved e = false) :
    Runs (.journalEntryReceived e o) s { s with
      out := s.out ++ [.entryStored (readEntry e o).ring (readEntry e o).ringIndex]
      twin := { s.twin with mirror := { s.twin.mirror with
        arrived := (s.twin.mirror.arrived.filter fun f => !f.sameAs (readEntry e o)) ++ [readEntry e o] } } } :=
  if_neg (by simp [hop, hk, hlen, hcrc, hres])

/-- What each step of a run over a list leaves of the pair, the run leaves, whatever else it carries. -/
theorem foldl_fst_twin {α β : Type} (f : State × β → α → State × β) (h : ∀ p a, (f p a).1.twin = p.1.twin) (l : List α)
    (p : State × β) : (l.foldl f p).1.twin = p.1.twin := by
  induction l generalizing p with
  | nil => rfl
  | cons a l ih => rw [List.foldl_cons, ih, h]

@[simp] theorem State.sealAll_twin (s : State) (confirmed : List (Nat × Nat)) : (s.sealAll confirmed).twin = s.twin := by
  unfold State.sealAll; extract_lets entry both solo ord s1
  refine (foldl_fst_twin _ (fun p e => ?_) _ _).trans ?_
  · (repeat' split) <;> rfl
  · dsimp only [s1]; split <;> rfl

@[simp] theorem State.writeRecord_twin (s : State) (ring : Nat) (r : OwedRec) : (s.writeRecord ring r).twin = s.twin := rfl
@[simp] theorem State.publish_twin (s : State) (o : OrderSt) : (s.publish o).twin = s.twin := rfl

@[simp] theorem State.writeOwed_twin (s : State) (ring : Nat) : (s.writeOwed ring).twin = s.twin := by
  have hrecords : ∀ l : List OwedRec, (l.foldl (fun s r => s.writeRecord ring r) s).twin = s.twin := fun l =>
    foldl_twin _ (fun s r => s.writeRecord_twin ring r) l s
  unfold State.writeOwed; dsimp only; split <;> exact hrecords _

@[simp] theorem State.publishDue_twin (s : State) : s.publishDue.twin = s.twin := by
  refine foldl_fst_twin _ (fun p o => ?_) _ _
  (repeat' split) <;> rfl

@[simp] theorem State.repeatOne_twin (s : State) (w : Nat × Nat × Bytes) : (s.repeatOne w).twin = s.twin := by
  unfold State.repeatOne; dsimp only; (repeat' split) <;> simp

@[simp] theorem State.writeRecords_twin (s : State) : s.writeRecords.twin = s.twin := by
  unfold State.writeRecords; dsimp only; split <;> simp [State.repeatRecords]

theorem State.releaseItems_mirror (s : State) (o : OrderSt) : (s.releaseItems o).twin.mirror = s.twin.mirror := by
  unfold State.releaseItems; split <;> rfl

/-- What this module releases leaves what it keeps of its twin (R387). -/
theorem State.releaseDue_mirror (s : State) : s.releaseDue.twin.mirror = s.twin.mirror := by
  unfold State.releaseDue; split
  · rfl
  · refine List.foldlRecOn _ _ (motive := fun t : State => t.twin.mirror = s.twin.mirror) rfl fun t ht o _ => ?_
    exact (t.releaseItems_mirror o).trans ht

/-- An entry that has arrived alone joins the mirrored journal at the seal deadline (R384). -/
theorem sealDeadline_joins {s : State} (hop : s.operational = true) (hk : s.keepsTwin = true) {e : JEntry} (hph : s.pick.phase = .placed)
    (harr : s.twin.mirror.arrived = [e]) (l : List (Nat × Nat)) :
    ∃ u, Runs (.sealDeadline l) s u ∧ e ∈ u.twin.mirror.entries ∧ u.twin.mirror.arrived = [] ∧ u.twin.mirror.mem = s.twin.mirror.mem := by
  let s0 : State := { s with pick := { s.pick with phase := .sealed } }
  have hrun : Runs (.sealDeadline l) s ((s0.sealAll l).sealTwin.writeRecords.beatStep State.releaseDue) := by
    refine (if_neg (by simp [State.beating_of_operational hop, hph])).trans (if_neg ?_)
    simp [hop]
  have hkeep : (s0.sealAll l).keepsTwin = true := by rw [State.keepsTwin, State.sealAll_twin]; exact hk
  have hmirror : (s0.sealAll l).sealTwin.twin.mirror = { s.twin.mirror.seal e with arrived := [] } := by
    rw [State.sealTwin, hkeep]
    simp [s0, harr]
  refine ⟨_, hrun, ?_⟩
  rw [State.beatStep_wholeTwin, State.releaseDue_mirror, State.writeRecords_twin, hmirror]
  exact ⟨List.mem_append_right _ (List.mem_singleton.mpr rfl), rfl, rfl⟩

/-! ### Notices and held items -/

/-- One order of the core changed: how it and every other one read, and that the pair stays. -/
theorem State.setOrder_reads {s : State} {j : Nat} {o : OrderSt} (h : s.core.order j = some o) {f : OrderSt → OrderSt}
    (hf : ∀ o, (f o).jno = o.jno) :
    (s.withCore fun c => c.setOrder j f).core.order j = some (f o) ∧
      (∀ k, k ≠ j → (s.withCore fun c => c.setOrder j f).core.order k = s.core.order k) ∧
      (s.withCore fun c => c.setOrder j f).twin = s.twin := by
  refine ⟨?_, fun k hk => Core.order_setOrder_ne s.core hf hk, rfl⟩
  rw [State.withCore_core, Core.order_setOrder _ _ _ _ hf, h]
  simp [Core.order_jno _ _ _ h]

section
variable {s : State} (hop : s.operational = true)
include hop

theorem noticeStored_confirms {j : Nat} {o : OrderSt} (h : s.core.order j = some o) :
    ∃ u, Runs (.completionNoticeReceived (.stored j)) s u ∧ u.core.order j = some { o with stored := o.status.isSome } ∧
      (∀ k, k ≠ j → u.core.order k = s.core.order k) ∧ u.twin = s.twin :=
  ⟨_, if_neg (by simp [hop]), State.setOrder_reads h (f := fun o => { o with stored := o.status.isSome }) fun _ => rfl⟩

theorem itemsStored_counts {j : Nat} {o : OrderSt} (h : s.core.order j = some o) (n : Nat) :
    ∃ u, Runs (.completionNoticeReceived (.itemsStored j n)) s u ∧ u.core.order j = some { o with itemsIn := max o.itemsIn n } ∧
      (∀ k, k ≠ j → u.core.order k = s.core.order k) ∧ u.twin = s.twin :=
  ⟨_, if_neg (by simp [hop]), State.setOrder_reads h (f := fun o => { o with itemsIn := max o.itemsIn n }) fun _ => rfl⟩

theorem forwardStored_clears (a : Nat) : Runs (.completionNoticeReceived (.forwardStored a)) s
    { s with core := { s.core with forwards := s.core.forwards.filter (·.2 ≠ a) } } :=
  if_neg (by simp [hop])

theorem queueFull_noted (die : Nat) : Runs (.completionNoticeReceived (.queueFull die)) s
    { s with twin := { s.twin with own := { s.twin.own with full := s.twin.own.full.set die true } } } :=
  if_neg (by simp [hop])

variable (hk : s.keepsTwin = true)
include hk

theorem noticeReceived_kept (q : Notice) : ∃ u, Runs (.completionNoticeReceived (.twins q)) s u ∧
    u.twin.mirror.notices = s.twin.mirror.notices.filter (·.jno ≠ q.jno) ++ [q] ∧ u.out = s.out ++ [.noticeStored q.jno] ∧
    u.core = s.core :=
  ⟨_, (if_neg (by simp [hop])).trans (if_neg (by simp [hk])), rfl, rfl, rfl⟩

theorem heldItemReceived_copy (b : CopiedBlock) :
    Runs (.heldItemReceived (.copy b)) s ((s.mirrorWrites [.copy b]).getD (s.memEvent 2)) :=
  if_neg (by simp [hop, hk])

theorem heldItemReceived_kept {i : HeldItem} (hi : ∀ b, i ≠ .copy b) :
    let m := { s.twin.mirror with items := s.twin.mirror.items ++ [i] }
    let full := 67108864 < ((m.items.filter fun k => m.itemDie k = m.itemDie i).map itemBytes).sum + 16384
    Runs (.heldItemReceived i) s { s with
      out := s.out ++ .itemStored (itemJno i) :: if full then [.itemsFull (m.itemDie i)] else []
      twin := { s.twin with mirror := m } } := by
  intro m full
  have hguard : (!s.operational || !s.keepsTwin) = false := by simp [hop, hk]
  let s1 : State := ({ s with twin := { s.twin with mirror := m } } : State).emit (.itemStored (itemJno i))
  have hrun : Runs (.heldItemReceived i) s (if m.queueFull (m.itemDie i) then s1.emit (.itemsFull (m.itemDie i)) else s1) := by
    cases i with
    | copy b => exact absurd rfl (hi b)
    | replay | block => exact if_neg (by simp [hguard])
  have hfull : m.queueFull (m.itemDie i) = decide full := rfl
  refine hrun.trans (congrArg Host.Outcome.next ?_)
  rw [hfull]
  by_cases h : full <;> simp [h, s1, State.emit]

theorem accumulatorForwardReceived_stores {a : Nat} {d : Bytes} (hd : d ≠ []) (hblk : blockOf (a + d.length - 1) = blockOf a)
    (hroom : (s.twin.mirror.shadowAt a).isSome = true ∨ (s.core.takePool (s.twin.mirror.stackOf a)).isSome = true) :
    ∃ u, Runs (.accumulatorForwardReceived a d) s u ∧ (∀ i < d.length, getKey (u.twin.mirror.now a).cells (a + i) = d[i]?) ∧
      (∀ b, blockOf b ≠ blockOf a → u.twin.mirror.shadowAt b = s.twin.mirror.shadowAt b) ∧ u.twin.mirror.mem = s.twin.mirror.mem ∧
      u.out = s.out ++ [.forwardStored a] ∧ u.core.mem = s.core.mem ∧ u.core.orders = s.core.orders := by
  have hsome : (s.mirrorRoom a).isSome = true := by
    unfold State.mirrorRoom
    split
    · rfl
    · next hshadow => exact hroom.resolve_left hshadow
  obtain ⟨c, hc⟩ := Option.isSome_iff_exists.mp hsome
  have hone : s.mirrorWrites [.bytes a d] = some (s.mirrorWrite c (.bytes a d)) := by
    rw [State.mirrorWrites_one]
    exact congrArg (Option.map _) hc
  have hrun : Runs (.accumulatorForwardReceived a d) s ((s.mirrorWrite c (.bytes a d)).emit (.forwardStored a)) := by
    refine (if_neg (by simp [hop, hk])).trans ?_
    rw [runWrites_one hd hblk, hone]
  have hcore := State.mirrorRoom_frame hc
  exact ⟨_, hrun, fun i hi => s.twin.mirror.now_writeShadow (.bytes a d) hi, fun b hb => Mirror.shadowAt_writeShadow_ne hb, rfl, rfl,
    (congrArg Core.mem hcore :), (congrArg Core.orders hcore :)⟩

end

/-! ### Replay -/

/-- The next released order whose items are not all applied yet. -/
def Mirror.nextOrder (m : Mirror) : Option Nat := m.released.find? fun j => !m.finished.contains j

/-- What the application of one item leaves: it waits for a drain, or finds no shadow block, or is taken (R387, R405). -/
def State.applyItem (s : State) (i : HeldItem) : State :=
  if s.twin.drainHolds (s.twin.mirror.itemWrites i) then s else
  (s.mirrorWrites (s.twin.mirror.itemWrites i)).elim (s.memEvent 2) fun t =>
    { t with twin := { t.twin with mirror := { t.twin.mirror with taken := t.twin.mirror.taken ++ [i] } } }

section
variable {s : State} (hop : s.operational = true) {j : Nat} (hnext : s.twin.mirror.nextOrder = some j)
  (hcmp : s.twin.mirror.compare = false)
include hop hnext hcmp

theorem replayApply_over (hleft : (s.twin.mirror.left.find? fun i => itemJno i = j) = none) :
    ∃ u, Runs .replayApply s u ∧ u.twin.mirror.finished = s.twin.mirror.finished ++ [j] ∧ u.twin.mirror.mem = s.twin.mirror.mem ∧
      u.core = s.core := by
  rw [Mirror.nextOrder] at hnext
  refine ⟨{ s with twin := { s.twin with mirror := { s.twin.mirror with finished := s.twin.mirror.finished ++ [j], compare := ?_ } } },
    ?run, rfl, rfl, rfl⟩
  case run =>
    show execReplayApply s = _
    simp only [execReplayApply, hnext, hop, hcmp, hleft]
    rfl

variable {i : HeldItem} (hleft : (s.twin.mirror.left.find? fun i => itemJno i = j) = some i)
include hleft

theorem replayApply_item : Runs .replayApply s (s.applyItem i) := by
  rw [Mirror.nextOrder] at hnext
  show execReplayApply s = _
  simp only [execReplayApply, hnext, hop, hcmp, hleft, State.applyItem]
  cases s.twin.drainHolds (s.twin.mirror.itemWrites i) with
  | true => rfl
  | false => cases s.mirrorWrites (s.twin.mirror.itemWrites i) <;> rfl

theorem replayApply_waits (hd : s.twin.drainHolds (s.twin.mirror.itemWrites i) = true) : Runs .replayApply s s := by
  have hrun := replayApply_item hop hnext hcmp hleft
  rwa [State.applyItem, if_pos hd] at hrun

theorem replayApply_no_room (hd : s.twin.drainHolds (s.twin.mirror.itemWrites i) = false)
    (hws : s.mirrorWrites (s.twin.mirror.itemWrites i) = none) :
    ∃ u, Runs .replayApply s u ∧ u.memr.event = orBit s.memr.event 2 ∧ u.twin = s.twin ∧ u.core = s.core := by
  have hrun := replayApply_item hop hnext hcmp hleft
  rw [State.applyItem, if_neg (by simp [hd]), hws] at hrun
  exact ⟨_, hrun, rfl, rfl, rfl⟩

theorem replayApply_lands {t : State} (hd : s.twin.drainHolds (s.twin.mirror.itemWrites i) = false)
    (hws : s.mirrorWrites (s.twin.mirror.itemWrites i) = some t) :
    ∃ u, Runs .replayApply s u ∧ u.twin.mirror.shadow = t.twin.mirror.shadow ∧ u.twin.mirror.mem = s.twin.mirror.mem ∧
      u.twin.mirror.taken = s.twin.mirror.taken ++ [i] ∧ u.twin.mirror.items = s.twin.mirror.items ∧
      (∀ b : CopiedBlock, i = .block j b → ∀ n < b.data.length,
        getKey (u.twin.mirror.now b.addr).cells (b.addr + n) = b.data[n]?) := by
  have hrun := replayApply_item hop hnext hcmp hleft
  rw [State.applyItem, if_neg (by simp [hd]), hws] at hrun
  have hmirror := congrArg (fun u : State => u.twin.mirror) (State.mirrorWrites_frame hws)
  refine ⟨_, hrun, rfl, (congrArg Mirror.mem hmirror :), congrArg (· ++ [i]) (congrArg Mirror.taken hmirror :),
    (congrArg Mirror.items hmirror :), fun b hb n hn => ?_⟩
  subst hb
  rw [show s.twin.mirror.itemWrites (.block j b) = [.copy b] from rfl, State.mirrorWrites_one] at hws
  obtain ⟨c, -, rfl⟩ := Option.map_eq_some_iff.mp hws
  exact s.twin.mirror.now_writeShadow (.copy b) hn

end

/-! ### The re-copy -/

/-- A block re-copied onto this module lands in a shadow block, where it differs (R395). -/
def Core.recopyBlock (q : Core × Bool) (w : CopiedBlock) : Core × Bool :=
  match q.1.obj (addrIndex w.addr) with
  | some o => if q.1.holds w.addr w.data then q else ((q.1.shadowCopy o.ctx w).1, q.2 && (q.1.shadowCopy o.ctx w).2)
  | none => q

/-- The state once the blocks of a re-copy have landed, at its end (R395). -/
def State.recopied (s : State) (own theirs : List CopiedBlock) : State :=
  ({ s with twin := { s.twin with
    recopying := [], recopied := true, matched := s.twin.matched && theirs.isEmpty && own.isEmpty
    own := s.twin.own.recopied (own.map fun w => (w.addr, blockHash (addrIndex w.addr) (addrOffset w.addr / 16384) w.data)) } } : State).recopyEnd

/-- What a re-copy leaves once its blocks have landed on this module, as far as they could: those for its mirror land next (R335, R395). -/
def State.recopyOutcome (s : State) (q : Core × Bool) (own theirs : List CopiedBlock) : Res :=
  if !q.2 then .next (({ s with core := q.1 } : State).memEvent 2) else
  match ({ s with core := q.1 } : State).mirrorWrites (theirs.map .copy) with
  | none => .next (({ s with core := q.1 } : State).memEvent 2)
  | some s1 => .next (s1.recopied own theirs)

section
variable {s : State} {own theirs : List CopiedBlock} {c : Core} (hop : s.operational = true) (hst : s.twin.state = .recopy)
include hop hst

/-- RECOPY_DONE in a re-copy, by its two stages: the blocks of this module, then those of its mirror. -/
theorem exec_recopyDone :
    exec (.recopyDone own theirs) s = s.recopyOutcome (own.foldl Core.recopyBlock (s.core, true)) own theirs :=
  if_neg (by simp [hop, hst])

/-- Where a block of this module finds no shadow block, the re-copy waits for the next pick (R335). -/
theorem recopyDone_waits (hown : own.foldl Core.recopyBlock (s.core, true) = (c, false)) :
    Runs (.recopyDone own theirs) s (({ s with core := c } : State).memEvent 2) := by
  rw [Runs, exec_recopyDone hop hst, hown]
  rfl

theorem recopyDone_landed {t : State} (hown : own.foldl Core.recopyBlock (s.core, true) = (c, true))
    (ht : ({ s with core := c } : State).mirrorWrites (theirs.map .copy) = some t) :
    Runs (.recopyDone own theirs) s (t.recopied own theirs) := by
  rw [Runs, exec_recopyDone hop hst, hown]
  simp only [State.recopyOutcome, ht]
  rfl

end

theorem State.recopyEnd_unmatched {s : State} (h : s.twin.matched = false) : s.recopyEnd = s := by
  simp [State.recopyEnd, h]

/-- A re-copy of no block, where the digests match, ends in `SYNC`. -/
theorem State.recopied_matched {s : State} (hst : s.twin.state = .recopy) (hm : s.twin.matched = true) :
    (s.recopied [] []).twin.state = .sync ∧ (s.recopied [] []).twin.recopying = [] ∧ (s.recopied [] []).twin.detected = false ∧
      (s.recopied [] []).twin.event = orBit s.twin.event 0 ∧ (s.recopied [] []).core = s.core := by
  simp [State.recopied, State.recopyEnd, hst, hm, State.twinEvent]

/-- A re-copy of blocks is complete, and the pair waits for digests that match. -/
theorem State.recopied_blocks {s : State} {own theirs : List CopiedBlock} (h : own ≠ [] ∨ theirs ≠ []) :
    (s.recopied own theirs).twin.state = s.twin.state ∧ (s.recopied own theirs).twin.recopied = true ∧
      (s.recopied own theirs).twin.recopying = [] ∧ (s.recopied own theirs).twin.mirror = s.twin.mirror ∧
      (s.recopied own theirs).core = s.core := by
  rw [State.recopied, State.recopyEnd_unmatched]
  · exact ⟨rfl, rfl, rfl, rfl, rfl⟩
  · rcases h with h | h <;> simp [h]

theorem recopyBlock_one {s : State} {w : CopiedBlock} {o : Obj} {c : Core} {ok : Bool} (ho : s.core.obj (addrIndex w.addr) = some o)
    (hheld : s.core.holds w.addr w.data = false) (hcopy : s.core.shadowCopy o.ctx w = (c, ok)) :
    [w].foldl Core.recopyBlock (s.core, true) = (c, ok) := by
  simp [Core.recopyBlock, ho, hheld, hcopy]

section
variable {s : State} (hop : s.operational = true) (hst : s.twin.state = .recopy)
include hop hst

theorem recopyDone_matched (hm : s.twin.matched = true) :
    ∃ u, Runs (.recopyDone [] []) s u ∧ u.twin.state = .sync ∧ u.twin.recopying = [] ∧ u.twin.detected = false ∧
      u.twin.event = orBit s.twin.event 0 ∧ u.core = s.core :=
  ⟨_, recopyDone_landed hop hst (t := s) rfl rfl, State.recopied_matched hst hm⟩

theorem recopyDone_mirror {theirs : List CopiedBlock} {t : State} (hne : theirs ≠ []) (ht : s.mirrorWrites (theirs.map .copy) = some t) :
    ∃ u, Runs (.recopyDone [] theirs) s u ∧ u.twin.state = .recopy ∧ u.twin.recopied = true ∧ u.twin.recopying = [] ∧
      u.twin.mirror = t.twin.mirror ∧ u.core = t.core := by
  obtain ⟨hstate, hrest⟩ := State.recopied_blocks (s := t) (own := []) (.inr hne)
  have htst : t.twin.state = s.twin.state := (congrArg (fun u : State => u.twin.state) (State.mirrorWrites_frame ht) :)
  exact ⟨_, recopyDone_landed hop hst (c := s.core) rfl ht, hstate.trans (htst.trans hst), hrest⟩

theorem recopyDone_own {w : CopiedBlock} {o : Obj} {c : Core} {ok : Bool} (ho : s.core.obj (addrIndex w.addr) = some o)
    (hheld : s.core.holds w.addr w.data = false) (hcopy : s.core.shadowCopy o.ctx w = (c, ok)) :
    (ok = true → ∃ u, Runs (.recopyDone [w] []) s u ∧ u.twin.state = .recopy ∧ u.twin.recopied = true ∧ u.twin.recopying = [] ∧
      u.core = c) ∧
    (ok = false → ∃ u, Runs (.recopyDone [w] []) s u ∧ u.twin = s.twin ∧ u.memr.event = orBit s.memr.event 2 ∧ u.core = c) := by
  have hown := recopyBlock_one ho hheld hcopy
  refine ⟨fun hok => ?landed, fun hok => ?waits⟩ <;> subst hok
  case landed =>
    obtain ⟨hstate, hdone, hnone, -, hcore⟩ := State.recopied_blocks (s := { s with core := c }) (own := [w]) (theirs := []) (.inl (by simp))
    exact ⟨_, recopyDone_landed hop hst hown rfl, hstate.trans hst, hdone, hnone, hcore⟩
  case waits => exact ⟨_, recopyDone_waits hop hst hown, rfl, rfl, rfl⟩

end

/-! ### Digests -/

/-- The state that has taken a digest of its mirror, which agrees with the released one or does not (R394). -/
def State.digested (s : State) (d : Word) (ok : Bool) : State :=
  { s with twin := { s.twin with lastDigest := d.toNat, matched := ok } }

/-- A mismatch leaves the re-copy to do, reported and told (R395). -/
theorem State.diverged_reads {s : State} (hop : s.operational = true) :
    s.diverged.twin.state = .recopy ∧ s.diverged.twin.lastDigest = s.twin.lastDigest ∧ s.diverged.twin.event = orBit s.twin.event 1 ∧
      s.diverged.flog.waiting = s.flog.waiting ++ [s.reportEntry 0x0B01 0] ∧ s.diverged.core = s.core := by
  rw [State.diverged, State.report_operational (by exact hop)]
  exact ⟨rfl, rfl, rfl, rfl, rfl⟩

/-- The exchange of blocks sends, and lists what is to be re-copied here, alone (R395). -/
theorem State.exchange_keeps (s : State) (objs own : List (Nat × Word)) (det : Bool) :
    (s.exchange objs own det).twin.state = s.twin.state ∧ (s.exchange objs own det).twin.lastDigest = s.twin.lastDigest ∧
      (s.exchange objs own det).twin.event = s.twin.event ∧ (s.exchange objs own det).flog = s.flog ∧
      (s.exchange objs own det).core = s.core := by
  unfold State.exchange; dsimp only
  split <;> split <;> exact ⟨rfl, rfl, rfl, rfl, rfl⟩

section
variable {s : State} (hop : s.operational = true) {d : Word} {j : Nat}
include hop

theorem digestReceived_agrees (det : Bool) (hst : s.twin.state = .sync) (hd : d.toNat = s.releasedDigest j) :
    Runs (.digestReceived d j ⟨[], [], det⟩) s
      { s with twin := { s.twin with lastDigest := d.toNat, matched := true, detected := false } } := by
  show execDigestReceived d j ⟨[], [], det⟩ s = _
  simp [execDigestReceived, hop, hst, hd]

/-- A digest that differs, or a list of per-object digests, begins a re-copy; the lists begin the exchange of blocks too. -/
theorem digestReceived_differs (objs own : List (Nat × Word)) (det : Bool) (hst : s.twin.state = .sync)
    (hd : d.toNat ≠ s.releasedDigest j ∨ objs ≠ [] ∨ own ≠ []) :
    ∃ u, Runs (.digestReceived d j ⟨objs, own, det⟩) s u ∧ u.twin.state = .recopy ∧ u.twin.lastDigest = d.toNat ∧
      u.twin.event = orBit s.twin.event 1 ∧ u.flog.waiting = s.flog.waiting ++ [s.reportEntry 0x0B01 0] ∧ u.core = s.core := by
  let s1 := s.digested d (d.toNat = s.releasedDigest j)
  have hdiv := State.diverged_reads (s := s1) hop
  cases hlisted : !objs.isEmpty || !own.isEmpty with
  | true =>
    have hrun : Runs (.digestReceived d j ⟨objs, own, det⟩) s (s1.diverged.exchange objs own det) := by
      show execDigestReceived d j ⟨objs, own, det⟩ s = _
      simp only [execDigestReceived, hop, hst, hlisted, Bool.not_true, Bool.and_false, Bool.false_eq_true, if_false, if_true]
      rfl
    obtain ⟨hstate, hlast, hevent, hflog, hcore⟩ := s1.diverged.exchange_keeps objs own det
    refine ⟨_, hrun, ?_⟩
    rwa [hstate, hlast, hevent, hflog, hcore]
  | false =>
    have hne : ¬ d.toNat = s.releasedDigest j := by
      obtain ⟨hobjs, hown⟩ : objs = [] ∧ own = [] := by simpa using hlisted
      exact hd.resolve_right fun hsome => hsome.elim (· hobjs) (· hown)
    have hrun : Runs (.digestReceived d j ⟨objs, own, det⟩) s s1.diverged := by
      show execDigestReceived d j ⟨objs, own, det⟩ s = _
      simp only [execDigestReceived, hop, hst, hlisted, s1, decide_eq_false hne, Bool.not_true, Bool.false_and, Bool.false_eq_true, if_false]
      rfl
    exact ⟨_, hrun, hdiv⟩

theorem digestReceived_ends_recopy (det : Bool) (hst : s.twin.state = .recopy) (hre : s.twin.recopied = true)
    (hd : d.toNat = s.releasedDigest j) :
    ∃ u, Runs (.digestReceived d j ⟨[], [], det⟩) s u ∧ u.twin.state = .sync ∧ u.twin.recopied = false ∧ u.twin.detected = false ∧
      u.core = s.core := by
  have hrun : Runs (.digestReceived d j ⟨[], [], det⟩) s
      ({ s.digested d true with twin := { (s.digested d true).twin with detected := false } } : State).recopyEnd := by
    show execDigestReceived d j ⟨[], [], det⟩ s = _
    simp [execDigestReceived, hop, hst, hd, State.digested]
  refine ⟨_, hrun, ?_⟩
  simp [State.recopyEnd, State.digested, hst, hre]

end

/-! ### The selvedge ports -/

/-- A selvedge port taken down is not up; the other is as it was. -/
theorem State.selvedgeUp_modify {s : State} {f : Port → Port} (hlen : s.opt.ports.length = 18) {p : Nat} (hp : p < 2)
    (hf : ∀ x, (f x).state ≠ .up) :
    let t : State := { s with opt := { s.opt with ports := modifyAt s.opt.ports (16 + p) f } }
    t.selvedgeUp p = false ∧ t.selvedgeUp (1 - p) = s.selvedgeUp (1 - p) := by
  intro t
  have hlt : 16 + p < s.opt.ports.length := by omega
  have hne : p ≠ 1 - p := by omega
  simp [t, State.selvedgeUp, modifyAt, List.getD_eq_getElem?_getD, hlt, hne, hf]

/-- A selvedge port as its loss leaves it (R392). -/
def Port.gone (x : Port) : Port := { x with state := .failed, lastFault := 0x0D10 }

theorem selvedgePortLost_reports {s : State} (hop : s.operational = true) {p : Nat} (fab : Bool) (hp : p < 2)
    (hlen : s.opt.ports.length = 18) (hup : ∀ q < 2, s.selvedgeUp q = true) :
    ∃ u, Runs (.selvedgePortLost p fab) s u ∧ u.selvedgeUp p = false ∧ u.selvedgeUp (1 - p) = true ∧
      u.opt.event = orBit s.opt.event 0 ∧ u.twin = s.twin ∧ u.flog.waiting = s.flog.waiting ++ [s.reportEntry 0x0B03 0] ∧
      u.core = s.core := by
  let t : State := { s with opt := { s.opt with ports := modifyAt s.opt.ports (16 + p) Port.gone } }
  obtain ⟨hdown, hother⟩ := State.selvedgeUp_modify (s := s) (f := Port.gone) hlen hp fun x => by simp [Port.gone]
  have hleft : (t.optEvent 0).selvedgeUp (1 - p) = true := hother.trans (hup _ (by omega))
  have hrun : Runs (.selvedgePortLost p fab) s ((t.optEvent 0).report 0x0B03 0) := by
    refine (if_neg (by simp [hup p hp, Nat.not_lt.mpr (Nat.le_of_lt_succ hp)])).trans ?_
    exact congrArg Host.Outcome.next (if_pos hleft)
  rw [State.report_operational (s := t.optEvent 0) hop] at hrun
  exact ⟨_, hrun, hdown, hleft, rfl, rfl, rfl, rfl⟩

/-! ### The statement -/

/-- Settles O53: each exchange by the branch of its command that its hypotheses choose, and the writes to the mirror by what a run of them
moves. -/
theorem twinExchanges : Obligations.TwinExchanges := by
  unfold Obligations.TwinExchanges
  intro s hop
  refine ⟨fun hst => ⟨helloTimer_sends hst, ?timeout, fun p f fixed hlen hcrc hrole hzero => ?hello⟩,
    fun hst p f fixed hlen hcrc hrole hzero hne => ?unpaired, fun hpair => ?paired, fun j hnext hcmp => ⟨fun i hleft =>
      ⟨replayApply_waits hop hnext hcmp hleft, replayApply_no_room hop hnext hcmp hleft, fun t =>
        replayApply_lands hop hnext hcmp hleft⟩, replayApply_over hop hnext hcmp⟩,
    fun d j objs own det hst => ⟨fun hd hobjs hown => ?agree, fun hd => digestReceived_differs hop objs own det hst hd⟩,
    fun p fab hp hlen h0 h1 => ?selvedge⟩
  case timeout =>
    have hrun := handshakeTimeout_fails hst
    rw [State.pairFailed_handshake hop hst] at hrun
    exact ⟨_, hrun, rfl, rfl⟩
  case hello =>
    have hf : HelloFormed f := ⟨hlen, hcrc, hrole, hzero⟩
    refine ⟨fun h0 => ⟨_, helloReceived_matches hop hf hst h0, rfl, rfl⟩, fun hne => ?_⟩
    have hrun := helloReceived_fails (p := p) (fixed := fixed) hop hf (.inl hst) hne
    rw [State.pairFailed_handshake (s := s.noteFec p fixed) hop hst] at hrun
    exact ⟨_, hrun, rfl, rfl⟩
  case unpaired =>
    have hrun := helloReceived_fails (p := p) (fixed := fixed) hop ⟨hlen, hcrc, hrole, hzero⟩ (.inr hst) hne
    rwa [State.pairFailed_apart (s := s.noteFec p fixed) hop (by exact fun h => by simp [hst] at h)] at hrun
  case paired =>
    have hk := State.keepsTwin_paired hpair
    refine ⟨fun e o hlen hcrc hres => journalEntryReceived_stores hop hk hlen hcrc hres,
      fun l e hph harr => sealDeadline_joins hop hk hph harr l,
      fun j o ho => ⟨noticeStored_confirms hop ho, itemsStored_counts hop ho⟩,
      forwardStored_clears hop, noticeReceived_kept hop hk, fun i hi => heldItemReceived_kept hop hk hi,
      fun die _ => queueFull_noted hop die, fun b => ⟨fun t ht => ?_, fun hnone => ?_⟩,
      fun a d hd hblk hroom => accumulatorForwardReceived_stores hop hk hd hblk hroom,
      fun hst => ⟨recopyDone_matched hop hst, fun theirs t hne ht => recopyDone_mirror hop hst hne ht,
        fun w o c ok ho hheld hcopy => recopyDone_own hop hst ho hheld hcopy,
        fun d j det hre hd => digestReceived_ends_recopy hop det hst hre hd⟩⟩
    · have hrun := heldItemReceived_copy hop hk b
      rwa [ht] at hrun
    · have hrun := heldItemReceived_copy hop hk b
      rw [hnone] at hrun
      exact ⟨_, hrun, rfl, rfl, rfl⟩
  case agree =>
    subst hobjs hown
    exact ⟨_, digestReceived_agrees hop det hst hd, hst, rfl, rfl, rfl⟩
  case selvedge =>
    refine selvedgePortLost_reports hop fab hp hlen fun q hq => ?_
    obtain rfl | rfl : q = 0 ∨ q = 1 := by omega
    · exact h0
    · exact h1

end Sys2Proof.Machine
end

section
/-! PROOF. Laser cartridges that fail, warm up, leave and are put in (R464, R465), and the frames of the die links (R373). -/

namespace Sys2Proof.Machine

/-! ### The states of the cartridges -/

@[simp] theorem State.setCart_carts (s : State) (c : Nat) (st : CartState) : (s.setCart c st).opt.carts = s.opt.carts.set c st := rfl

/-- A cartridge that goes to a state out of use is one fewer in use where it was in use before, and otherwise takes none away. -/
theorem State.activeCarts_setCart {s : State} {c : Nat} {old : CartState} (h : s.opt.carts[c]? = some old) {st : CartState}
    (hst : st ≠ .active) : (s.setCart c st).activeCarts = s.activeCarts - if old = .active then 1 else 0 := by
  obtain ⟨hc, rfl⟩ := List.getElem?_eq_some_iff.mp h
  simp [State.activeCarts, ← List.countP_eq_length_filter, List.countP_set hc, hst]

/-- A port as the loss of a cartridge leaves it: one in training starts it again (Table 16-7). -/
def Port.retrained (k : Port) : Port :=
  if k.state = .identify || k.state = .measure then { k with state := .train, lanes := 0 } else k

/-- The module after a cartridge has gone to state `st` with five left: the loss is reported, and no fault is raised (R464). -/
def State.cartLost (s : State) (c : Nat) (st : CartState) : State :=
  let t := s.setCart c st
  { t with
    opt := { t.opt with ports := t.opt.ports.map Port.retrained }
    flog := { s.flog with waiting := s.flog.waiting ++ [s.reportEntry 0x0D13 c] } }

theorem State.cartFail_reports {s : State} {c : Nat} {st : CartState} (hb : s.beating = true) (hleft : 5 ≤ (s.setCart c st).activeCarts) :
    s.cartFail c st = s.cartLost c st := by
  let t := s.setCart c st
  let t' : State := { t with opt := { t.opt with ports := t.opt.ports.map Port.retrained } }
  have hrep : t'.report 0x0D13 c = s.cartLost c st := t'.report_waits 0x0D13 c hb
  have hfew : ¬ (s.cartLost c st).activeCarts < 5 := Nat.not_lt.mpr hleft
  calc s.cartFail c st
      = if (t'.report 0x0D13 c).activeCarts < 5 then (t'.report 0x0D13 c).moduleFault 0x0D14 c else t'.report 0x0D13 c := rfl
    _ = s.cartLost c st := by rw [hrep, if_neg hfew]

/-! ### The commands of a cartridge -/

section
variable {s : State} {c : Nat}

theorem laserCartridgeFail_runs (h : s.opt.carts[c]? = some .active) : Runs (.laserCartridgeFail c) s (s.cartFail c .failed) := if_pos h

theorem cartridgeWarmDone_waits (h : s.opt.carts[c]? = some .warming) (hw : c ∉ s.opt.warm) :
    Runs (.cartridgeWarmDone c) s { s with opt := { s.opt with warm := s.opt.warm ++ [c] } } := if_pos (by simp [h, hw])

theorem cartridgeInsert_warms (h : s.opt.carts[c]? = some .absent) : Runs (.cartridgeInsert c) s (s.setCart c .warming) := if_pos h

/-- A removal that was not accepted, of a cartridge in use or warming up, counts as its failure (R465; log entry 176). -/
theorem cartridgeLeverUnlock_fails (h : s.opt.carts[c]? = some .active ∨ s.opt.carts[c]? = some .warming) :
    Runs (.cartridgeLeverUnlock c) s (s.cartFail c .absent) := by
  show execCartridgeLeverUnlock c s = _
  rcases h with h | h <;> simp [execCartridgeLeverUnlock, h]

/-- One that has failed already, or that may be removed, is taken out and no more (log entry 176). -/
theorem cartridgeLeverUnlock_removes (h : s.opt.carts[c]? = some .failed ∨ s.opt.carts[c]? = some .safe) :
    Runs (.cartridgeLeverUnlock c) s (s.setCart c .absent) := by
  show execCartridgeLeverUnlock c s = _
  rcases h with h | h <;> simp [execCartridgeLeverUnlock, h]

end

/-! ### The frames of a die link -/

section
variable {s : State} {link : Nat} {frame : Bytes}

theorem dieLinkFrame_good (hl : link < 8) (h : dieFrameOk frame = true) :
    Runs (.dieLinkFrame link frame) s { s with integ := { s.integ with linkFail := s.integ.linkFail.set link 0 } } :=
  (if_neg (by omega)).trans (if_pos h)

/-- A bad frame before the seventeenth in a row is counted, as a failure of the frame and as a replay, and is asked for again. -/
theorem dieLinkFrame_bad (hl : link < 8) (h : dieFrameOk frame = false) (hn : s.integ.linkFail.getD link 0 < 16) :
    Runs (.dieLinkFrame link frame) s { s with
      out := s.out ++ [.retry link]
      integ := { s.integ with
        link := modifyAt s.integ.link link (· + 1)
        linkFail := s.integ.linkFail.set link (s.integ.linkFail.getD link 0 + 1) } } :=
  (if_neg (by omega)).trans ((if_neg (by simp [h])).trans (if_neg (by omega)))

end

theorem getD_modifyAt_same (l : List Nat) (f : Nat → Nat) {i : Nat} (h : i < l.length) : (modifyAt l i f).getD i 0 = f (l.getD i 0) := by
  simp [modifyAt, List.getD_eq_getElem?_getD, h]

/-! ### The statement -/

/-- Settles O51: a cartridge lost from use or from its warming leaves five in use, so its loss is reported and no more; every other command
writes the one field that its own test lets it write. -/
theorem cartridgesAndDieLinks : Obligations.CartridgesAndDieLinks := by
  unfold Obligations.CartridgesAndDieLinks
  intro c s _ _ hb
  refine ⟨fun ha h6 => ?fails, cartridgeWarmDone_waits, fun st hst h => ?apart, fun h => ?pulled,
    fun h => ⟨_, cartridgeInsert_warms h, rfl, rfl, rfl, rfl⟩, fun link hl frame => ⟨dieLinkFrame_good hl, fun hbad hn => ?bad⟩⟩
  case fails =>
    have hleft : 5 ≤ (s.setCart c .failed).activeCarts := by
      rw [State.activeCarts_setCart ha (by decide), if_pos rfl]; omega
    have hrun := laserCartridgeFail_runs ha
    rw [State.cartFail_reports hb hleft] at hrun
    exact ⟨_, hrun, rfl, rfl, rfl, rfl, rfl⟩
  case apart =>
    have hout : s.opt.carts[c]? = some .failed ∨ s.opt.carts[c]? = some .safe := by
      simp only [List.mem_cons, List.not_mem_nil, or_false] at hst
      rcases hst with rfl | rfl <;> simp [h]
    exact ⟨_, cartridgeLeverUnlock_removes hout, rfl, rfl, rfl, rfl⟩
  case pulled =>
    have hleft : 5 ≤ (s.setCart c .absent).activeCarts := by
      rcases h with ⟨h, hn⟩ | ⟨h, hn⟩ <;> rw [State.activeCarts_setCart h (by decide)]
      · rw [if_pos rfl]; omega
      · exact hn
    have hrun := cartridgeLeverUnlock_fails (h.imp And.left And.left)
    rw [State.cartFail_reports hb hleft] at hrun
    exact ⟨_, hrun, rfl, rfl, rfl, rfl⟩
  case bad => exact ⟨_, dieLinkFrame_bad hl hbad hn, rfl, getD_modifyAt_same _ _, rfl, rfl⟩

end Sys2Proof.Machine
end
